-- ==== Sys2Proof/Word.lean ====
section
/-! DEFINITION. The word types of the AQ-7740 (00_scope R6: a byte is 8 bits, a half 16, a word 32, a dword 64). -/

namespace Sys2Proof

/-- A byte, 8 bits (R6). -/
abbrev Byte := BitVec 8
/-- A half, 16 bits (R6). -/
abbrev Half := BitVec 16
/-- A word, 32 bits (R6): a scalar register, one lane of a vector register. -/
abbrev Word := BitVec 32
/-- A dword, 64 bits (R6): a register pair, a virtual address. -/
abbrev Dword := BitVec 64
/-- The 7-bit format tag of R26: format code in [4:0], rotation in [6:5]. -/
abbrev Tag := BitVec 7

end Sys2Proof
end

