-- ==== Sys2Proof/Config.lean ====
section
/-! DEFINITION. What the manual leaves open: opaque constants without a body, so that no proof can rest on a value.
Every constant is named in an assumption-log row. -/

namespace Sys2Proof.Config

/-- An undefined 32-bit value (R1, R21): applied to the model's own counter `State.clk` and an index. -/
opaque freeWord : Nat → Nat → BitVec 32
/-- An undefined byte (R283, R308): applied as `freeWord`. -/
opaque freeByte : Nat → Nat → BitVec 8
/-- Which of the two outcomes the manual allows (R126, R238, R283): applied as `freeWord`. -/
opaque freeBit : Nat → Nat → Bool
/-- The set of the L1 that a line falls in (R212), by its number. Assumption 82: DESIGN CHOICE. -/
opaque l1Set : Nat → Nat
/-- FRCP (R126) where it is not exact: what the part returns, a function of the input alone, used while it lies within the
manual's bound. Assumption 9: DESIGN CHOICE. -/
opaque frcp : BitVec 32 → BitVec 32
/-- FRSQ (R126) off its special results, as `frcp`. Assumption 9: DESIGN CHOICE. -/
opaque frsq : BitVec 32 → BitVec 32
/-- FEX2 (R126) off its special results, as `frcp`. Assumption 9: DESIGN CHOICE. -/
opaque fex2 : BitVec 32 → BitVec 32
/-- FLG2 (R126) off its special results, as `frcp`. Assumption 9: DESIGN CHOICE. -/
opaque flg2 : BitVec 32 → BitVec 32
/-- FSIN (R126) off its special results, as `frcp`. Assumption 9: DESIGN CHOICE. -/
opaque fsin : BitVec 32 → BitVec 32
/-- FCOS (R126) off its special results, as `frcp`. Assumption 9: DESIGN CHOICE. -/
opaque fcos : BitVec 32 → BitVec 32
/-- Where firmware puts the save area of a gang, by its number (R337). -/
opaque gangArea : Nat → BitVec 64
/-- Where firmware puts the save area of a block, by its number (R337). Assumption 9: DESIGN CHOICE. -/
opaque blockArea : Nat → BitVec 64
/-- The SM3 digest (R407, R408), an outside standard: 256 bits. Assumption 9: DESIGN CHOICE. -/
opaque sm3 : List (BitVec 8) → BitVec 256
/-- Whether an SM2 signature over a digest verifies under the vendor key in ROM (R407). Assumption 9: DESIGN CHOICE. -/
opaque sm2Valid : BitVec 256 → List (BitVec 8) → Bool
/-- The device's SM2 signature (R408), by the key derived from the physically unclonable function (R407). Assumption 9: DESIGN CHOICE. -/
opaque sm2Sign : List (BitVec 8) → BitVec 512
/-- The device's SM2 public key (R407, R408). Assumption 9: DESIGN CHOICE. -/
opaque devicePublicKey : List (BitVec 8)
/-- BEAMQ (R325): whether a further triangle, by its index in the traversal order, stands in the candidate list;
a function of the descriptor address, the locator and the index alone. Assumptions 9, 52: DESIGN CHOICE. -/
opaque beamExtra : BitVec 64 → BitVec 32 → Nat → Bool
/-- Whether a traversal enters a child box that its exact ray does not meet (R322: a box test never rejects a met one), a
function of the ray's words, the node's address and the child alone. Assumption 9: DESIGN CHOICE. -/
opaque boxExtra : List (BitVec 32) → Nat → Nat → Bool
/-- Which child of a node a traversal visits first (R322, R324), a function of the ray's words and the node's address.
Assumptions 9, 52: DESIGN CHOICE. -/
opaque childFirst : List (BitVec 32) → Nat → Bool
/-- What a triangle test gives where the manual states no result (18 R322: a ray in the triangle's plane, a word that is not finite): a miss,
or t, u and v, a function of the ray's words and the triangle's alone. Assumptions 9, 52: DESIGN CHOICE. -/
opaque triFree : List (BitVec 32) → List (BitVec 32) → Option (BitVec 32 × BitVec 32 × BitVec 32)
/-- What an ellipsoid test gives where a word is not finite (18 R323): a miss, or a depth, a function of the ray's words and the ellipsoid's
alone. Assumptions 9, 52: DESIGN CHOICE. -/
opaque ellFree : List (BitVec 32) → List (BitVec 32) → Option (BitVec 32)
/-- What a bin entry gives at a pixel centre where a word of it is not finite (18 R326): as `triFree`, of the pixel and the entry's words.
Assumptions 9, 52: DESIGN CHOICE. -/
opaque binFree : Int → Int → List (BitVec 32) → Option (BitVec 32 × BitVec 32 × BitVec 32)
/-- Which peer port the route to a peer takes (R411, R412), by the peer's number. Assumption 9: DESIGN CHOICE. -/
opaque peerPort : Nat → Nat
/-- The window of a stream (R411: 16 to 1,024 flits), by its number. Assumption 9: DESIGN CHOICE. -/
opaque streamWindow : Nat → Nat

end Sys2Proof.Config
end

