-- ==== Sys2Proof/Machine/Sparse.lean ====
section
/-! DEFINITION. Sparse maps: lists of (key, value) pairs in one canonical form, keys strictly rising and no entry equal
to the value an unlisted key reads as. Memory, register files and tables of the machine are such maps. -/

namespace Sys2Proof

/-- A sparse map from numbers; an unlisted key reads as `default`. -/
abbrev FMap (α : Type) := List (Nat × α)

namespace FMap

/-- The value at a key. -/
def get {α : Type} [Inhabited α] (m : FMap α) (k : Nat) : α :=
  match m with
  | [] => default
  | (j, x) :: r => if j = k then x else get r k

/-- Remove a key. -/
def erase {α : Type} (m : FMap α) (k : Nat) : FMap α :=
  match m with
  | [] => []
  | (j, x) :: r => if j = k then erase r k else (j, x) :: erase r k

/-- Insert or replace the entry of a key, keeping the keys rising. -/
def insert {α : Type} (m : FMap α) (k : Nat) (v : α) : FMap α :=
  match m with
  | [] => [(k, v)]
  | (j, x) :: r => if k < j then (k, v) :: (j, x) :: r else if j = k then (k, v) :: r else (j, x) :: insert r k v

/-- Write a key: writing what an unlisted key reads as removes the entry. -/
def put {α : Type} [DecidableEq α] [Inhabited α] (m : FMap α) (k : Nat) (v : α) : FMap α :=
  if v = default then erase m k else insert m k v

/-- The keys rise strictly from above `lo`, and no entry equals the default. -/
def wfFrom {α : Type} [DecidableEq α] [Inhabited α] (lo : Nat) : FMap α → Bool
  | [] => true
  | (j, x) :: r => decide (lo ≤ j) && decide (x ≠ default) && wfFrom (j + 1) r

/-- The canonical form. -/
def wf {α : Type} [DecidableEq α] [Inhabited α] (m : FMap α) : Bool := wfFrom 0 m

/-- Write several keys in order. -/
def putAll {α : Type} [DecidableEq α] [Inhabited α] (m : FMap α) : List (Nat × α) → FMap α
  | [] => m
  | (k, v) :: r => putAll (put m k v) r

/-- Keep the entries whose key passes. -/
def keep {α : Type} (m : FMap α) (p : Nat → Bool) : FMap α := List.filter (fun e => p e.1) m

end FMap
end Sys2Proof
end

