-- ==== Sys2Proof/Syntax.lean ====
section
/-! DEFINITION. The instructions and steps of the AQ-7740: one constructor of `Instr` per row of the opcode table.
Scalar rows follow 03 R56 to R60, lane rows 03 R63 to R67, and the device's steps carry the data their environment
supplies (which gang, which register, which bytes). -/

namespace Sys2Proof

/-- Scalar register number s0 to s63. -/
abbrev SReg := BitVec 6
/-- Vector register number v0 to v255. -/
abbrev VReg := BitVec 8
/-- Accumulator number a0 to a7. -/
abbrev AReg := BitVec 3
/-- Tile register number t0 to t15. -/
abbrev TReg := BitVec 4
/-- Guard slot g0 to g15. -/
abbrev GSlot := BitVec 4

/-- Execution scope (R63). -/
inductive Scope where | l | g | s | b
  deriving DecidableEq, Repr

/-- Flag select (R63); the code 0b11 is illegal and never decodes. -/
inductive FlagSel where | none | a | b
  deriving DecidableEq, Repr

/-- Rounding modes (R43). -/
inductive Round where | rne | rtz | rup | rdn | rsr
  deriving DecidableEq, Repr

/-- The masks of R14, in the encoding order of R59. -/
inductive MaskName where | xm | lm | hm
  deriving DecidableEq, Repr

/-- SCMP and BC conditions (R57, R95). -/
inductive SCond where | eq | ne | lt | ge | ltu | geu
  deriving DecidableEq, Repr

/-- Signed BC conditions (R57). -/
inductive BCond where | eq | ne | lt | ge
  deriving DecidableEq, Repr

/-- Guard conditions (R24), in code order. -/
inductive GCond where | eq | ne | lt | ge | gt | le | bs | bc
  deriving DecidableEq, Repr

/-- VCMP conditions (R120), in code order. -/
inductive VCond where | eq | ne | lt | ge | gt | le
  deriving DecidableEq, Repr

/-- The B operand of R111. -/
inductive BSrc where
  | vec (r : VReg)
  | scal (r : SReg)
  | imm (v : BitVec 26)
  deriving DecidableEq, Repr

/-- VCMP's destination (R120). -/
inductive CmpDst where
  | vec (d : VReg)
  | xm
  | hm
  deriving DecidableEq, Repr

/-- Destination of VOTE and VRED (R160, R164): a vector, or a scalar with or without the per-slice form. -/
inductive RedDst where
  | vec (d : VReg)
  | scal (d : SReg) (ps : Bool)
  deriving DecidableEq, Repr

/-- VSPC selectors (R123). -/
inductive Special where
  | lane | quad | slice | gang | blkx | blky | blkz | nblkx | nblky | nblkz | core | cluster | layer
  deriving DecidableEq, Repr

/-- The register a tag instruction names (R129). -/
inductive TagReg where
  | v (r : VReg)
  | a (r : AReg)
  | t (r : TReg)
  deriving DecidableEq, Repr

/-- Where TAGW takes the tag from (R129, R133). -/
inductive TagSrc where
  | imm (tag : Tag)
  | scal (r : SReg)
  deriving DecidableEq, Repr

/-- Access size (R134), in code order. -/
inductive Size where | byte | half | word | dword
  deriving DecidableEq, Repr

/-- VOTE kinds (R164). -/
inductive VoteKind where | ballot | any | all | eq
  deriving DecidableEq, Repr

/-- SHFL modes (R165). -/
inductive ShflMode where | idx | up | down | xor
  deriving DecidableEq, Repr

/-- Reduction operations (R166). -/
inductive RedOp where | add | min | max | and | or | xor
  deriving DecidableEq, Repr

/-- Memory scopes (R228, R242). -/
inductive MScope where | gang | block | cluster | device | system
  deriving DecidableEq, Repr

/-- Atomic operations (R248), in code order. -/
inductive AtomOp where
  | add | and | or | xor | smin | smax | umin | umax | xchg | cas | fadd
  deriving DecidableEq, Repr

/-- Orderings of ATOM and SATOM (R242). -/
inductive Ord where | rlx | acq | rel | acqrel
  deriving DecidableEq, Repr

/-- FENCE kinds (R251). -/
inductive FenceKind where | acq | rel | full
  deriving DecidableEq, Repr

/-- Base of an address: an even pair for global memory, any scalar register for the scratchpad (R244, R289). -/
inductive Base where
  | glob (r : SReg)
  | sp (r : SReg)
  deriving DecidableEq, Repr

/-- How MSEND names its target (R253). -/
inductive MsgDst where
  | imm (pos : BitVec 3) (q : BitVec 3)
  | scal (r : SReg)
  deriving DecidableEq, Repr

/-- Message entry sizes (R218), in code order. -/
inductive MsgSize where | s16 | s32 | s64 | s128 | s256
  deriving DecidableEq, Repr

/-- Span widths of VLDX and VSTX (R242). -/
inductive Span where | x2 | x4 | x8
  deriving DecidableEq, Repr

/-- PREF kinds (R256). -/
inductive PrefKind where | l1 | l2 | res
  deriving DecidableEq, Repr

/-- MQST kinds (R255). -/
inductive MqstKind where | occ | cred
  deriving DecidableEq, Repr

/-- Column counts of ACCRD and ACCWR (R289): 1, 2, 4, 8, 16, 32. -/
inductive NCols where | c1 | c2 | c4 | c8 | c16 | c32
  deriving DecidableEq, Repr

/-- MVM's handle source (R294). -/
inductive Handle where
  | scal (r : SReg)
  | vec (r : VReg)
  deriving DecidableEq, Repr

/-- MWAIT's batch number source (R297). -/
inductive BatchSrc where
  | imm (n : Byte)
  | scal (r : SReg)
  deriving DecidableEq, Repr

/-- MCNT's two forms (R300). -/
inductive McntForm where
  | opn (nv np : SReg) (aw1 : BitVec 4)
  | close
  deriving DecidableEq, Repr

/-- Flag select and guard of an engine command (R66, R292). -/
structure EngCtl where
  flag  : FlagSel
  guard : Option GSlot
  deriving DecidableEq, Repr

/-- Trap causes (R335), codes 1 to 12. -/
inductive Cause where
  | illegal | format | lease | demandParked | rdvTimeout | setMember | preempt | softTrap | brk | ringSlot
  | machineCheck | memory
  deriving DecidableEq, Repr

/-- What a patrol scrub read finds in a DRAM line (R217). -/
inductive ScrubResult where | clean | corrected | uncorrectable
  deriving DecidableEq, Repr

/-- The two sides of a migration (R347). -/
inductive Side where | host | device
  deriving DecidableEq, Repr

/-- Consumers of strips (R329, R330): serialiser streams 0 to 7 and encoders 0 to 3. -/
inductive Consumer where
  | stream (n : BitVec 3)
  | enc (n : BitVec 2)
  deriving DecidableEq, Repr

/-- Host atomic verbs (R394). -/
inductive RdmaAtomic where
  | fetchAdd (v : Dword)
  | cas (cmp new : Dword)
  deriving DecidableEq, Repr

/-- A lock-group beacon (R414), with the sender's MID. -/
structure Beacon where
  group   : Half
  mid     : Byte
  frame   : Nat
  epoch   : Dword
  period  : Word
  frac    : Half
  members : BitVec 24
  deriving DecidableEq, Repr

/-- The access that a flit's payload carries (R411, R412): the interface it is made in, and the virtual address there. -/
inductive FlitBody where
  | store (vi : Nat) (va : Dword) (bytes : List Byte)
  | load (vi : Nat) (va : Dword) (len : Nat)
  | atomic (vi : Nat) (va : Dword) (op : AtomOp) (dw : Bool) (d n : Dword)
  deriving DecidableEq, Repr

/-- A flit (R411): its sequence number on its link, its stream and its payload. -/
structure Flit where
  seq    : Word
  stream : Nat
  body   : FlitBody
  deriving DecidableEq, Repr

/-- A firmware image (R407): the digest, the signature and the sequence number of its header, and its body. A signed configuration
record has the same parts; its number is the minimum sequence number it sets. -/
structure Image where
  digest : BitVec 256
  sig    : List Byte
  seq    : Word
  body   : List Byte
  deriving DecidableEq, Repr

/-- A user queue as its control block names it (R404): its identity, rings, ring sizes and base priority. -/
structure QueueParams where
  q     : Nat
  ring  : Dword
  size  : Nat
  cring : Dword
  csize : Nat
  base  : Nat
  deriving DecidableEq, Repr

/-- What the management endpoint gives an interface (R395), and the host memory its driver registers (R397). -/
structure IfaceParams where
  asid     : Word
  ptroot   : Dword
  slots    : Nat
  queues   : List QueueParams
  memQuota : Nat
  jobQuota : Nat := 65536
  share    : Nat
  regions  : List (Dword × Nat)
  deriving DecidableEq, Repr

/-- One constructor per row of the opcode table. -/
inductive Instr where
  -- scalar ALU group and immediates (R93 to R96)
  | saddReg (d a b : SReg)
  | ssub (d a b : SReg)
  | smul (d a b : SReg)
  | sdiv (d a b : SReg)
  | srem (d a b : SReg)
  | sandReg (d a b : SReg)
  | sorReg (d a b : SReg)
  | sxorReg (d a b : SReg)
  | sandn (d a b : SReg)
  | sshlReg (d a b : SReg)
  | sshrReg (d a b : SReg)
  | ssraReg (d a b : SReg)
  | smin (d a b : SReg)
  | smax (d a b : SReg)
  | sclz (d a : SReg)
  | spopc (d a : SReg)
  | saddpReg (d a b : SReg)
  | scmp (c : SCond) (d a b : SReg)
  | ssel (d a b s : SReg)
  | saddImm (d a : SReg) (i : BitVec 14)
  | sandImm (d a : SReg) (i : BitVec 14)
  | sorImm (d a : SReg) (i : BitVec 14)
  | sxorImm (d a : SReg) (i : BitVec 14)
  | sshlImm (d a : SReg) (n : BitVec 5)
  | sshrImm (d a : SReg) (n : BitVec 5)
  | ssraImm (d a : SReg) (n : BitVec 5)
  | sbfx (d a : SReg) (len1 pos : BitVec 5)
  | sbfi (d a : SReg) (len1 pos : BitVec 5)
  | saddpImm (d a : SReg) (i : BitVec 14)
  | slui (d : SReg) (i : BitVec 20)
  | slea (d : SReg) (i : BitVec 20)
  -- scalar memory and control registers (R103, R105)
  | sld (d a : SReg) (i : BitVec 14)
  | sldD (d a : SReg) (i : BitVec 14)
  | sst (d a : SReg) (i : BitVec 14)
  | sstD (d a : SReg) (i : BitVec 14)
  | krd (d : SReg) (k : Byte)
  | kwr (d : SReg) (k : Byte)
  -- masks (R98)
  | mrd (d : SReg) (m : MaskName)
  | mwr (a : SReg) (m : MaskName)
  | mopAnd (a : SReg) (m : MaskName)
  | mopOr (a : SReg) (m : MaskName)
  | mopAndn (a : SReg) (m : MaskName)
  | mopXor (a : SReg) (m : MaskName)
  -- clauses, guards, flags (R100 to R102)
  | vrunOffset (guard : Option GSlot) (off : BitVec 20)
  | vrunRegister (guard : Option GSlot) (a : SReg)
  | gset (slot : GSlot) (c : GCond) (a : SReg)
  | gclr (slot : GSlot)
  | waitf (mask : BitVec 12)
  -- control transfer (R97)
  | br (off : BitVec 26)
  | call (off : BitVec 26)
  | bcSigned (c : BCond) (a b : SReg) (off : BitVec 12)
  | bcUnsigned (geu : Bool) (a b : SReg) (off : BitVec 12)
  | bzm (m : MaskName) (off : BitVec 12)
  | loop (a : SReg) (off : BitVec 12)
  | jr (a : SReg)
  -- system group (R106)
  | time (d : SReg)
  | trap (code : BitVec 12)
  | scalarReservedNop3D (x : BitVec 26)
  | scalarReservedNop3E (x : BitVec 26)
  -- integer, logic and move lane instructions (R116)
  | vadd (d a : VReg) (b : BSrc) (c : Tag) (sat : Bool)
  | vsub (d a : VReg) (b : BSrc) (c : Tag) (sat : Bool)
  | vmul (d a : VReg) (b : BSrc) (c : Tag) (hi : Bool)
  | vmad (d a : VReg) (b : BSrc) (vc : VReg) (c : Tag)
  | vand (d a : VReg) (b : BSrc)
  | vor (d a : VReg) (b : BSrc)
  | vxor (d a : VReg) (b : BSrc)
  | vandn (d a : VReg) (b : BSrc)
  | vshl (d a : VReg) (b : BSrc)
  | vshr (d a : VReg) (b : BSrc)
  | vsra (d a : VReg) (b : BSrc)
  | vmin (d a : VReg) (b : BSrc) (c : Tag)
  | vmax (d a : VReg) (b : BSrc) (c : Tag)
  | vabs (d a : VReg) (c : Tag) (sat : Bool)
  | vclz (d a : VReg)
  | vpopc (d a : VReg)
  | vbfx (d a : VReg) (pos len1 : BitVec 5) (sx : Bool)
  | vbfi (d a : VReg) (pos len1 : BitVec 5)
  | vprmb (d a : VReg) (b : BSrc) (vc : VReg)
  | vcmp (dst : CmpDst) (a : VReg) (b : BSrc) (c : Tag) (cond : VCond)
  | vsel (d a : VReg) (b : BSrc) (vc : VReg)
  | vmov (d a : VReg)
  | vmovTos (d : SReg) (a : VReg) (lane : BitVec 5)
  | vbcs (d : VReg) (a : SReg) (code : BitVec 5)
  | vli (d : VReg) (i : BitVec 26) (code : BitVec 5) (hi : Bool)
  | vspc (d : VReg) (sel : Special)
  -- floating lane instructions (R124)
  | fadd (d a : VReg) (b : BSrc) (c : Tag) (r : Round)
  | fsub (d a : VReg) (b : BSrc) (c : Tag) (r : Round)
  | fmul (d a : VReg) (b : BSrc) (c : Tag) (r : Round)
  | ffma (d a : VReg) (b : BSrc) (vc : VReg) (c : Tag) (r : Round)
  | fmin (d a : VReg) (b : BSrc) (c : Tag)
  | fmax (d a : VReg) (b : BSrc) (c : Tag)
  | frnd (d a : VReg) (c : Tag) (r : Round)
  | fcls (d a : VReg) (c : Tag)
  | frcp (d a : VReg)
  | frsq (d a : VReg)
  | fsqrt (d a : VReg) (r : Round)
  | fex2 (d a : VReg)
  | flg2 (d a : VReg)
  | fsin (d a : VReg)
  | fcos (d a : VReg)
  -- packed and dot products (R127)
  | padd (d a : VReg) (b : BSrc) (c : Tag) (neg : Bool) (r : Round)
  | pmul (d a : VReg) (b : BSrc) (c : Tag) (r : Round)
  | pfma (d a : VReg) (b : BSrc) (vc : VReg) (c : Tag) (neg : Bool) (r : Round)
  | pmin (d a : VReg) (b : BSrc) (c : Tag)
  | pmax (d a : VReg) (b : BSrc) (c : Tag)
  | pdot2 (d a : VReg) (b : BSrc) (vc : VReg) (c : Tag) (r : Round)
  | idot4 (d a : VReg) (b : BSrc) (vc : VReg) (c : Tag) (sat bu : Bool)
  -- conversions and tags (R129)
  | cvt (d a : VReg) (c : Tag) (dst : BitVec 5) (sat : Bool) (r : Round)
  | cvth (d a : VReg) (dst : BitVec 5) (sat h32 : Bool) (r : Round)
  | cvtp (d a : VReg) (c : Tag) (dst : BitVec 5) (sat : Bool) (slot : BitVec 4) (r : Round)
  | tagw (t : TagReg) (src : TagSrc)
  | tagr (d : SReg) (t : TagReg)
  -- plain access (R134)
  | vld (d : VReg) (base : SReg) (off : VReg) (size : Size) (sx : Bool) (scale : BitVec 2) (u : Bool)
      (disp : BitVec 26) (c : Tag) (flag : FlagSel)
  | vst (a : VReg) (base : SReg) (off : VReg) (size : Size) (scale : BitVec 2) (u : Bool) (disp : BitVec 26)
      (flag : FlagSel)
  -- parallel instructions (R160)
  | qxch (d a : VReg) (pat : BitVec 2)
  | qbc (d a : VReg) (n : BitVec 2)
  | qddx (d a : VReg) (fine : Bool) (c : Tag) (r : Round)
  | qddy (d a : VReg) (fine : Bool) (c : Tag) (r : Round)
  | vote (sc : Scope) (dst : RedDst) (a : VReg) (kind : VoteKind)
  | shfl (sc : Scope) (d a : VReg) (b : BSrc) (mode : ShflMode)
  | vred (sc : Scope) (dst : RedDst) (a : VReg) (op : RedOp) (c : Tag) (r : Round)
  | vscan (sc : Scope) (d a : VReg) (op : RedOp) (excl : Bool) (c : Tag) (r : Round)
  | bar (sc : Scope)
  | setdcl (size : BitVec 2)
  | gwid (d : SReg)
  | refill (d : VReg)
  | spawn (d a : VReg) (base : SReg) (flag : FlagSel)
  | evsig (name : BSrc)
  | evwait (name : BSrc) (cons : Bool) (flag : FlagSel)
  | evclr (name : BSrc)
  -- memory hierarchy (R242)
  | vldx (d : VReg) (base : SReg) (off : VReg) (cnt : Span) (scale : BitVec 3) (u na : Bool) (disp : BitVec 26)
      (c : Tag) (flag : FlagSel)
  | vstx (a : VReg) (base : SReg) (off : VReg) (cnt : Span) (scale : BitVec 3) (u : Bool) (disp : BitVec 26)
      (flag : FlagSel)
  | spld (d : VReg) (base : SReg) (off : VReg) (size : Size) (sx : Bool) (scale : BitVec 2) (u : Bool)
      (rem : Option (BitVec 3)) (disp : BitVec 19) (c : Tag) (flag : FlagSel)
  | spst (a : VReg) (base : SReg) (off : VReg) (size : Size) (scale : BitVec 2) (u : Bool) (rem : Option
      (BitVec 3)) (disp : BitVec 19) (flag : FlagSel)
  | atom (d a : VReg) (base : Base) (off : VReg) (op : AtomOp) (dw : Bool) (ord : Ord) (ms : MScope) (u : Bool)
      (scale : BitVec 2) (c : Tag) (flag : FlagSel)
  | satom (d a : SReg) (base : Base) (c : SReg) (op : AtomOp) (dw : Bool) (ord : Ord) (ms : MScope)
      (disp : BitVec 20) (flag : FlagSel)
  | fence (kind : FenceKind) (ms : MScope)
  | waita (d a : SReg) (base : Base) (ne : Bool) (ms : MScope) (tmo : Half)
  | msend (a : VReg) (dst : MsgDst) (size : MsgSize) (flag : FlagSel)
  | mrecv (d : VReg) (b : SReg) (size : MsgSize) (wait : Bool) (q : BitVec 3) (c : Tag) (flag : FlagSel)
  | mqst (d : SReg) (kind : MqstKind) (pos q : BitVec 3)
  | pref (base : SReg) (off : VReg) (kind : PrefKind) (scale : BitVec 2) (u : Bool) (disp : BitVec 26)
  | cmaintL1inv (len base : SReg) (flag : FlagSel)
  | cmaintWb (len base : SReg) (flag : FlagSel)
  | cmaintWbinv (len base : SReg) (flag : FlagSel)
  | cmaintIcinv (len base : SReg) (flag : FlagSel)
  | cmaintTlbinv (len base : SReg) (flag : FlagSel)
  | cmaintTlbctx (flag : FlagSel)
  -- engine and render commands (R289)
  | mma (sc : Scope) (d : AReg) (a : VReg) (t : TReg) (bcode : BitVec 5) (reuse : Bool) (c : Tag) (e : EngCtl)
  | mvm (d : AReg) (a : VReg) (h : Handle) (bcode : BitVec 5) (brot : BitVec 2) (reuse : Bool) (c : Tag) (e : EngCtl)
  | tld (d : TReg) (base : Base) (sc : Bool) (disp : BitVec 26) (c : Tag) (e : EngCtl)
  | tst (a : TReg) (base : Base) (sc : Bool) (disp : BitVec 26) (e : EngCtl)
  | tzr (d : TReg) (c : Tag) (e : EngCtl)
  | accz (d : AReg) (c : Tag) (e : EngCtl)
  | accrd (d : VReg) (a : AReg) (n : NCols) (c0 : BitVec 5) (e : EngCtl)
  | accwr (d : AReg) (a : VReg) (n : NCols) (c0 : BitVec 5) (e : EngCtl)
  | dsub (base : SReg) (e : EngCtl)
  | recfl (base : SReg) (e : EngCtl)
  | beamq (a base : SReg) (q : BitVec 2) (list : BitVec 13) (e : EngCtl)
  | covq (q : BitVec 2) (list : BitVec 13) (e : EngCtl)
  | rayq (a : VReg) (base : SReg) (q : BitVec 2) (e : EngCtl)
  | ellq (a : VReg) (base : SReg) (k1 : BitVec 3) (cont : Bool) (q : BitVec 2) (e : EngCtl)
  | ringst (a : VReg) (b : SReg) (w64 : Bool) (e : EngCtl)
  | ringld (d : VReg) (b : SReg) (w64 : Bool) (line : Byte) (c : Tag) (e : EngCtl)
  | mfence (d : SReg)
  | mwait (src : BatchSrc)
  | cbtst (d a b : SReg) (acq : Bool) (w : BitVec 2)
  | cbwait (d a b : SReg) (w : BitVec 2)
  | cpsts (d a : SReg)
  | mcnt (form : McntForm)
  | mvtx (a vc : VReg)
  | mprim (a vc : VReg)
  | qrd (d : VReg) (q : BitVec 2) (w : BitVec 5) (c : Tag)
  | qwait (q : BitVec 2)
  | srate (d a : SReg)
  -- vertical pairs (R374)
  | vfpush (nb : Option SReg) (a : VReg)
  | vfpop (d : VReg) (nb : Option SReg)
  | vfcnt (d : SReg)
  | pgreq (d : SReg) (partner : Bool)
  | pgreqCan (d : SReg) (partner : Bool)
  | laneReservedNop (k : BitVec 4) (rest : BitVec 86)
  -- steps of a fragment and its gang
  | guardResolve (slot : GSlot)
  | laneScalarWriteLand (r : SReg)
  | flaggedOperationComplete (op : Nat)
  | trapEntry (c : Cause) (tval : Word) (taddr : Dword) (lane : Bool)
  | blockDispatch (launch block core : Nat) (parts : List Nat)
  | preemptionRequest (core : Nat) (classes : BitVec 4)
  | migrationRequest (side : Side) (leaf : Nat) (ns : Dword) (frac : Half)
  | bteApertureStore (core : Nat) (chan : BitVec 4) (w : Word) (gang : Option Nat)
  | templateWrite (core off : Nat) (bytes : List Byte) (gang : Option Nat)
  | copyChunkComplete (core slot chunk : Nat)
  | copyComplete (core slot : Nat)
  | mqcfgWrite (core : Nat) (q : BitVec 3) (v : Word) (gang : Option Nat)
  | mqEntryArrive (core : Nat) (q : BitVec 3)
  | queryComplete (gang : Nat) (q : BitVec 2)
  | cgctlWrite (core : Nat) (v : Word)
  | cgrdWrite (core : Nat) (v : Word)
  | coreWindowAccess (core off : Nat) (size : Size) (store : Option Dword)
  | l2Writeback (line : Nat)
  | patrolScrub (line : Nat) (res : ScrubResult)
  | scanoutStart (slot : Byte) (c : Consumer)
  | scanLineSend (slot : Byte) (c : Consumer)
  | encoderRowStart (enc : BitVec 2) (row : Nat)
  | reprojectionCommit (bank : Nat)
  | ptpSync (offset : Int)
  | beaconReceive (b : Beacon)
  | withdraw (mid : Byte)
  | flitReceive (port : Nat) (f : Flit)
  | flitNak (port : Nat) (seq : Word)
  | laneShed (port : Nat) (codewords : Nat)
  | rdmaWrite (vi qp : Nat) (va : Dword) (bytes : List Byte) (immediate : Bool)
  | rdmaRead (vi qp : Nat) (va : Dword) (len : Nat)
  | rdmaSend (vi qp : Nat)
  | rdmaAtomic (vi qp : Nat) (va : Dword) (op : RdmaAtomic)
  | kick (vi q : Nat) (idx : Word)
  | hostStoreAck (ok : Bool)
  | peerStoreAck (ok : Bool)
  | workItemChunkMove (launch cluster : Nat)
  | stseedWrite (v : Word)
  | ptrootWrite (vi : Nat) (v : Dword)
  | mgbudgetWrite (core : Nat) (v : Word)
  | powerInterval (u s : Nat) (pwr : List Nat)
  | ltolWrite (v : Word)
  | temperatureSample (t : List Nat)
  | managementImageUpload (im : Image)
  | attestationQuote (nonce : BitVec 256)
  | recoveryUpload (im : Image)
  | interfaceCreate (vi : Nat) (p : IfaceParams)
  | interfaceDestroy (vi : Nat)
  | peerContextBind (vi peer : Nat) (exp : Dword)
  | firmwareInvalidate (asid : Word) (range : Option (Dword × Nat))
  | registerWrite (off : Nat) (v : Word)
  | illegalScalarWord (w : Word)
  | illegalLaneItem (check : BitVec 4)
  | flitAcknowledgement (port : Nat) (seq : Word)
  | beaconAcknowledgement (mid : Byte)
  | registerReadClear (off : Nat)
  -- rows without fields; a step of the device that concerns one gang, core, port, launch, queue, slot, domain
  -- or leaf finds its number in the state's field `subject`, which the step's turn sets
  | ret
  | nop
  | vdrain
  | tret
  | pdone
  | gend
  | brk
  | lbar
  | regang
  | lexit
  | oprdy
  | clauseEnter
  | rendezvousIssue
  | rendezvousTimeout
  | fragmentRegang
  | classAgeing
  | hardwareSave
  | launchCancel
  | handlerCancelTimeout
  | globalReplay
  | parkTimeout
  | migrationComplete
  | remoteMappingExpiry
  | matrixCommandStart
  | matrixOperationComplete
  | batchComplete
  | governorWindow
  | ddeJobAccept
  | ddeJobEnd
  | binnerRecord
  | ringStoreLand
  | ringHandoverComplete
  | packetNop
  | packetLaunch
  | packetChainRegister
  | chainAdmit
  | stripDone
  | stripDeadline
  | scanEnd
  | frameStart
  | flitReplayTimeout
  | shedRetrainComplete
  | shedRetrainTimeout
  | ppctlWiden
  | queueAgeing
  | launchComplete
  | aggregationGroupClose
  | lbarRelease
  | clusterAdmit
  | spilledWaiterComplete
  | waitaComplete
  | waitaTimeout
  | domainIdleEnter
  | domainIdleExit
  | coreGate
  | coreWakeComplete
  | cryocmdCool
  | cryocmdWarm
  | cryocmdService
  | warmingLaunchTimeout
  | moduleReset
  | deviceResetRequest
  | scalarFetchFault
  | storeReachesL2
  | fifoEntryVisible
  | invalidPacket
  deriving DecidableEq, Repr

end Sys2Proof
end

