-- ==== Sys2Proof/Machine/State.lean ====
section
/-! DEFINITION. The state of the machine as plain data, its faults and refusals, and the state after module reset.
Every structure cites the rules that name its fields; `INVENTORY.md` lists each field with its reset value. -/

namespace Sys2Proof.Machine

/-- What stops the machine under a name. -/
inductive Fault where
  /-- Raised by every row that needs an executing fragment (the scalar and lane rows, and the steps of a fragment) when
  the state names no live fragment as the current one: only a turn that names a gang that is gone does. Safe. -/
  | noFragment
  deriving DecidableEq, Repr

/-- What the model refuses by name. -/
inductive Refusal where
  /-- Raised by an arm of `exec` that has no meaning yet. Safe. -/
  | notModelled (mnemonic : String)
  deriving DecidableEq, Repr

/-- Device memory: (address, byte) pairs in canonical form (00 R7, 12 R206); an unlisted byte reads as zero. -/
abbrev Memory := List Host.Cell

/-! ### Gang state (01 R11) -/

/-- State of a guard slot (R24); `fals` comes first, the state at gang start (R32). -/
inductive GState where | fals | tru | unresolved
  deriving DecidableEq, Repr, Inhabited

/-- A guard slot (R24): its state, its binding, and the clause number at its GSET, before which a lane write counts. -/
structure Guard where
  st     : GState := .fals
  bound  : Option (SReg × GCond) := none
  before : Nat := 0
  deriving DecidableEq, Repr, Inhabited

/-- A slice's own copies (07 R140): scalar registers, flag counts, guard slots, and the per-slice k-registers
k0 to k25, k102, k103 and k110 by number. -/
structure SliceCopy where
  s      : FMap Word := []
  flags  : FMap Nat := []
  guards : FMap Guard := []
  k      : FMap Word := []
  deriving DecidableEq, Repr, Inhabited

/-- Scalar values captured at a VRUN (06 R112): per slice, the scalar registers. -/
abbrev Captured := FMap (FMap Word)

/-- An entry of the pending clause queue (R18, R29) with its captured values; `id` is the VRUN's place in program
order and `capOk` is clear once a KWR has discarded the captured values (R107). -/
structure QEntry where
  id    : Nat := 0
  off   : Word := 0
  guard : Option GSlot := none
  cap   : Captured := []
  capOk : Bool := true
  deriving DecidableEq, Repr, Inhabited

/-- A clause in issue (R19): its place in program order, the base and limit it entered with (R105), its bound flag
numbers (R73), the instructions still to issue, the index of the next, and its captured values. -/
structure Entered where
  id    : Nat := 0
  base  : Dword := 0
  limit : Word := 0
  fa    : BitVec 4 := 15
  fb    : BitVec 4 := 15
  rem   : Nat := 0
  idx   : Nat := 0
  cap   : Captured := []
  capOk : Bool := true
  deriving DecidableEq, Repr, Inhabited

/-- A pending mark (R18): the clause and item position that placed it, whether that instruction has issued, the flagged
operation that will complete it (its number plus 1, or 0), whether it has completed, and the values, per slice, it will
write; `none` writes nothing. -/
structure Mark where
  clause : Nat := 0
  item   : Nat := 0
  reg    : SReg := 0
  issued : Bool := false
  op     : Nat := 0
  done   : Bool := false
  wr     : Option (FMap Word) := none
  deriving DecidableEq, Repr, Inhabited

/-- What holds a lane sequencer at an item (07 R148, 08 R169, R177, 14 R252): a rendezvous since a clock, an LBAR that
has reached launch level or waits for its cluster's admission, a WAITA since a clock, an EVWAIT, another wait that an instruction's
entry names (07 R144), operations, of a fragment that merged with another its own too, that a store without a flag waits for (16 R279, 27
R397). -/
inductive LaneWait where
  | none
  | rendezvous (since : Nat)
  | lbar (since : Nat)
  | lbarReleased
  | waita (since : Nat)
  | evwait (reg : Nat)
  | held
  | op (ns : List Nat)
  deriving DecidableEq, Repr, Inhabited

/-- A park (21 R345): since which clock, the lowest parked lane and its address. -/
structure Park where
  since : Nat := 0
  lane  : Nat := 0
  addr  : Nat := 0
  deriving DecidableEq, Repr, Inhabited

/-- What a fragment owes the Chronograph (10 R193): pending BRANCH and GUARD bits, which came first, and the number under which the core
keeps its last SYNC (10 R195), its own among its gang's. -/
structure TraceSt where
  branch      : List Bool := []
  guard       : List Bool := []
  branchFirst : Bool := true
  key         : Nat := 0
  deriving DecidableEq, Repr, Inhabited

/-- An error record (21 R342). -/
structure ErrRec where
  time   : Nat := 0
  taddr  : Dword := 0
  tval   : Word := 0
  code   : Nat := 0
  source : Nat := 0
  core   : Nat := 0
  block  : Nat := 0
  gang   : Nat := 0
  slices : BitVec 4 := 0
  deriving DecidableEq, Repr, Inhabited

/-- A fragment (07 R140): its slices and what they share. `saved`, `savedQ` and `savedM` keep the clause, the queue and the
marks of items not yet issued across a trap (21 R338); `entry` is the cause that entered the handler, and `pend` its error record should the
handler's end be the task's (21 R343); `done` tells a PDONE executed (21 R351); `itemLen` is the length of the item in issue (03 R74), and
`item` are its bytes once the sequencer has fetched it (03 R78), none before; `beat` turns over with every scalar instruction executed. -/
structure Frag where
  slices    : BitVec 4 := 0
  spc       : Dword := 0
  lpc       : Word := 0
  queue     : List QEntry := []
  entered   : Option Entered := none
  saved     : Option Entered := none
  savedQ    : List QEntry := []
  marks     : List Mark := []
  savedM    : List Mark := []
  nextId    : Nat := 1
  itemLen   : Nat := 0
  item      : List Byte := []
  inHandler : Bool := false
  entry     : Nat := 0
  cls       : Nat := 2
  ready     : Nat := 0
  lastS     : Nat := 0
  lastL     : Nat := 0
  lwait     : LaneWait := .none
  swait     : Bool := false
  beat      : Bool := false
  parkS     : Option Park := none
  parkL     : Option Park := none
  draining  : Bool := false
  cancelled : Option Nat := none
  done      : Bool := false
  pend      : Option ErrRec := none
  tr        : TraceSt := {}
  deriving DecidableEq, Repr, Inhabited

/-- A member of an engine command (15 R267, 17 R291): a gang, its taking lanes and the fragment's slices at issue, the
flag the command counts on there, and the batch it joined. -/
structure Mate where
  gid    : Nat := 0
  lanes  : Word := 0
  slices : BitVec 4 := 0
  flag   : Option Nat := none
  batch  : Byte := 0
  deriving DecidableEq, Repr, Inhabited

/-- An engine command in a queue (17 R291): the instruction, its members (one, but for scopes G and S of MMA), captured
data (scalars, handles, vector words) and addresses, its guard while it is unresolved, and the scratchpad ranges (offset, size) that its
engine owns until it completes (18 R324). -/
structure Cmd where
  id    : Nat
  instr : Instr
  mates : List Mate
  data  : List Word
  addr  : Dword
  addr2 : Dword
  guard : Option GSlot
  own   : List (Nat × Nat) := []
  deriving DecidableEq, Repr

/-- A flagged operation in flight (01 R21, R22): the flag and slices it counts on, the registers it will write with
their data and tags, the scalar results per slice for its marks, the clause that issued it (03 R78), what it still waits for, and the batch
of a matrix command whose stores are on their way to an aperture (15 R270). -/
structure AsyncOp where
  id     : Nat := 0
  clause : Nat := 0
  slices : BitVec 4 := 0
  flag   : Option Nat := none
  vw     : List (Nat × Word) := []
  tags   : List (Nat × Tag) := []
  wr     : List (SReg × FMap Word) := []
  hold   : Nat := 0
  batch  : Option Byte := none
  deriving DecidableEq, Repr, Inhabited

/-- A batch (15 R270): its number, the commands that joined it, those not yet finished, and, once a command of it has consumed poison, the
address of the first poisoned memory it read, or zero (R272). -/
structure Batch where
  num    : Byte := 0
  n      : Nat := 0
  left   : Nat := 0
  poison : Option Nat := none
  deriving DecidableEq, Repr, Inhabited

/-- A query slot (17 R303): result words keyed 17·lane + word, the query in flight, and ELLQ's last hit per lane. -/
structure QuerySlot where
  words   : FMap Word := []
  cmd     : Option Cmd := none
  last    : FMap (Option (Word × Word)) := []
  deriving DecidableEq, Repr, Inhabited

/-- An open mesh record (17 R300, R301): vertex words keyed 16·j + w and primitives. -/
structure MeshRec where
  nv    : Nat := 0
  np    : Nat := 0
  aw    : Nat := 1
  verts : FMap (Option Word) := []
  prims : FMap (Option (Nat × Nat × Nat)) := []
  deriving DecidableEq, Repr, Inhabited

/-- An A-run reuse latch (15 R266) as it stands over one member file: first register and class, the command that captured it, and the
gangs, by their numbers in the block, whose files it covers; any write to the run releases it, so the rows it holds are the files'. -/
structure Latch where
  run   : VReg := 0
  cls   : Tag := 0
  op    : Nat := 0
  files : List Nat := []
  deriving DecidableEq, Repr, Inhabited

/-- A gang (01 R11, 07 R138, R140, 12 R205). Vector words are keyed 32·register + lane, accumulator words
1024·accumulator + 32·row + column. `clash` lists registers written while an outstanding operation would write them
(01 R21), `named` what the open (`none`) and the
closed batches name until their MWAIT (13 R238): a vector register by its number, an accumulator from 256, a tile
from 512. `hist` lists what words that the engine reads held since the gang's last OPRDY before what they hold now (15 R273), each with the
gang whose tile write replaced it while no barrier of both has followed (15 R274): a vector word under its key, an accumulator word from 2^13,
a tile's data word from 2^16, a sidecar's from 2^17, a tile's tag from 2^18, a scratchpad word from 2^19. `latch` are the reuse latches over
its file, each with its gang's number in the block (15 R266); `spoilt` are the query commands whose own scratchpad ranges were written (18 R324); `target` tells a gang that a pre-emption request targets
(21 R351). `bad` are its poisoned units (12 R216): a vector word under its key, an accumulator word from 8192, the tag of a vector register from 16384, of an
accumulator from 16640. `trNext` is the next number of a fragment toward the Chronograph (10 R195). -/
structure Gang where
  launch  : Nat := 0
  block   : Nat := 0
  idx     : Nat := 0
  core    : Nat := 0
  part    : Nat := 0
  slot    : Nat := 0
  vbase   : Nat := 0
  abase   : Nat := 0
  regs    : Nat := 32
  accs    : Nat := 0
  width   : Nat := 4
  priv    : Bool := false
  cls     : Nat := 2
  asid    : Word := 0
  vi      : Nat := 0
  lcbase  : Dword := 0
  lcsize  : Word := 0
  binbase : Dword := 0
  csbase  : Dword := 0
  v       : FMap Word := []
  vtag    : FMap Tag := []
  a       : FMap Word := []
  atag    : FMap Tag := []
  xm      : Word := 0
  lm      : Word := 0
  hm      : Word := 0
  live    : BitVec 4 := 0
  exiting : BitVec 4 := 0
  copies  : FMap SliceCopy := []
  frags   : List Frag := []
  rng     : FMap Word := []
  asyncs  : List AsyncOp := []
  clash   : List Nat := []
  nextN   : Byte := 0
  openB   : Option Batch := none
  batches : List Batch := []
  mq      : List Cmd := []
  cq      : List Cmd := []
  rq      : List Cmd := []
  running : Option Cmd := none
  steps   : Nat := 0
  latch   : List (Nat × Latch) := []
  hist    : List (Option Nat × Nat × Word) := []
  named   : List (Option Byte × Nat) := []
  mesh    : Option MeshRec := none
  queries : FMap QuerySlot := []
  spoilt  : List Nat := []
  desched : Bool := false
  hwSaved : Bool := false
  target  : Bool := false
  saveNow : Bool := false
  trNext  : Nat := 1
  bad     : FMap Bool := []
  deriving DecidableEq, Repr, Inhabited

/-- A block (07 R138, R139, 12 R205, R210): placement, tile file part (data keyed 2048·t + byte, sidecar keyed
512·t + byte), scratchpad size, set declaration (08 R170), save area (21 R337) and LBAR arrival (08 R169); `faulted` tells that an error
record was written for it (09 R185), and `bad` are its poisoned units (12 R216): 64 bits of tile data by their number, of a sidecar from
16384, the tag of a tile from 32768. -/
structure Block where
  launch  : Nat := 0
  idx     : Nat := 0
  core    : Nat := 0
  gangs   : List Nat := []
  tiles   : Nat := 0
  tbase   : Nat := 0
  spbase  : Nat := 0
  scratch : Nat := 0
  tdata   : FMap Byte := []
  tside   : FMap Byte := []
  ttag    : FMap Tag := []
  setSize : Nat := 0
  bsbase  : Dword := 0
  arrived : Bool := false
  desched : Bool := false
  hwSaved : Bool := false
  byChain : Bool := false
  faulted : Bool := false
  bad     : FMap Bool := []
  deriving DecidableEq, Repr, Inhabited

/-! ### Cores (12, 15, 16, 24) -/

/-- Owner of a copy template (16 R278): privilege and context. -/
structure Owner where
  sys  : Bool := true
  asid : Option Word := none
  deriving DecidableEq, Repr, Inhabited

/-- A copy slot (16 R281, R282). -/
structure CopySlot where
  st   : Nat := 0
  err  : Nat := 0
  tidx : Nat := 0
  chan : Nat := 0
  bits : BitVec 128 := 0
  deriving DecidableEq, Repr, Inhabited

/-- A copy in flight (16 R279, R283): its template and layout record as read at acceptance, its starter (launch, block, gang,
privilege, context), and whether it is parked (R280), for its record too, which then is still to be read. -/
structure Copy where
  slot   : Nat := 0
  chan   : Nat := 0
  tpl    : List Byte := []
  recd   : List Byte := []
  launch : Option Nat := none
  block  : Option Nat := none
  gang   : Option Nat := none
  sys    : Bool := false
  asid   : Option Word := none
  parked : Bool := false
  unread : Bool := false
  deriving DecidableEq, Repr, Inhabited

/-- A store to the BTE aperture that is held (16 R279), with the gang that made it, the operation that completes with it, and whether it came
through a core window, which gives its copy no starting gang. -/
structure HeldStart where
  chan : Nat := 0
  word : Word := 0
  gang : Option Nat := none
  op   : Option Nat := none
  win  : Bool := false
  deriving DecidableEq, Repr, Inhabited

/-- An entry on its way to a message queue (14 R253): the sender's position, its gang and operation, and the bytes. -/
structure MsgEntry where
  pos   : Nat := 0
  gang  : Nat := 0
  op    : Nat := 0
  bytes : List Byte := []
  deriving DecidableEq, Repr, Inhabited

/-- A message queue (12 R218 to R220): its configuration word, pointers, owner block and senders of the held entries, and the
entries on their way. -/
structure MsgQueue where
  cfg     : Word := 0
  head    : Half := 0
  tail    : Half := 0
  owner   : Option Nat := none
  senders : List Nat := []
  arrived : List MsgEntry := []
  deriving DecidableEq, Repr, Inhabited

/-- An entry of a vertical FIFO (24 R372). -/
structure FifoEntry where
  data    : List Word := []
  tag     : Tag := 0
  asid    : Word := 0
  visible : Bool := false
  deriving DecidableEq, Repr, Inhabited

/-- A packet group on its way to a ring (10 R194, R197): the gang and the fragment's number, its partition and whether its event is the lane
stream's, the station time of its event, the SYNC that may have to go ahead of it, its packets, the numbers of the fragments that a split
makes, and of those that a re-gang merges (R195). -/
structure CgGroup where
  gang : Nat := 0
  key  : Nat := 0
  part : Nat := 0
  lane : Bool := false
  ns   : Nat := 0
  sync : List Byte := []
  pkts : List (List Byte) := []
  kids : List Nat := []
  olds : List Nat := []
  deriving DecidableEq, Repr, Inhabited

/-- Chronograph of a core (10 R190, R191, R194, R197): the groups of this clock, and the groups that stall mode holds, oldest first; the
CGWR value and the LOSS packets written by each fragment's last SYNC, by gang and number (R195), and the fragments whose packets are
undefined up to their next SYNC (R196). -/
structure Chrono where
  ctl    : Word := 0
  full   : Bool := false
  cfgerr : Bool := false
  drops  : Nat := 0
  sel    : Dword := 0
  base   : Dword := 0
  size   : Word := 0
  wr     : Word := 0
  rd     : Word := 0
  loss   : Nat := 0
  timeNs : Nat := 0
  lossAt : Nat := 0
  clockQ  : List CgGroup := []
  waiting : List CgGroup := []
  syncs   : List ((Nat × Nat) × Nat × Nat) := []
  undef   : List (Nat × Nat) := []
  deriving DecidableEq, Repr, Inhabited

/-- A pre-emption request in progress on a core (21 R350, R351). -/
structure Preempt where
  classes : BitVec 4 := 0
  since   : Nat := 0
  chain   : Option Nat := none
  deriving DecidableEq, Repr, Inhabited

/-- A core: per-core k-registers (01 R28, 15 R276, 21 R337), message queues and the credits it holds (12 R219), template
table (16 R278), with what it held at the clock's start once this clock has written it (16 R279), copy slots and copies (16 R281), the FIFO toward it (24 R372), gate state (24 R378), governor window
(15 R275); `ovf0` and `hint0` are what MESHOVF and HINTDROP held before a software write of this clock, `ovfAdd` (primitives, vertices),
`hintAdd` and `cfgBad` what the hardware counts or sets in it (00 R8); and the residency slot the engine served last plus 1 (15 R269), Chronograph (10), and pre-emption (21 R350). The defaults are the values of module reset. -/
structure Core where
  level    : BitVec 3 := 0
  floor    : BitVec 3 := 0
  mgbudget : BitVec 9 := 256
  mgcap    : BitVec 9 := 256
  mgstall  : Word := 0
  meshovf  : Word := 0
  hintdrop : Word := 0
  ovf0     : Option Word := none
  hint0    : Option Word := none
  ovfAdd   : Nat × Nat := (0, 0)
  hintAdd  : Nat := 0
  cfgBad   : Bool := false
  hfcnt    : Word := 0
  mqs      : FMap MsgQueue := []
  credits  : FMap Nat := []
  tpl      : FMap Byte := []
  towner   : FMap Owner := []
  tpl0     : Option (FMap Byte × FMap Owner) := none
  slots    : FMap CopySlot := []
  copies   : List Copy := []
  held     : List HeldStart := []
  fifo     : List FifoEntry := []
  gate     : Nat := 0
  wakeAt   : Nat := 0
  window   : Nat := 0
  started  : Nat := 0
  lastMx   : Nat := 0
  cg       : Chrono := {}
  preempt  : Option Preempt := none
  deriving DecidableEq, Repr, Inhabited

/-- A job card that the DDE has accepted (16 R286, 17 R298): who submitted it, from which core, its bytes, whether they were poisoned (12
R216), and whether it is parked. -/
structure DdeCard where
  core   : Nat := 0
  launch : Nat := 0
  block  : Nat := 0
  gang   : Nat := 0
  sys    : Bool := false
  bytes  : List Byte := []
  bad    : Bool := false
  parked : Bool := false
  deriving DecidableEq, Repr, Inhabited

/-- A cluster: its record cache (16 R285, {ASID, REC address, bytes}), and the DDE's waiting cards and running job (16 R286). -/
structure Cluster where
  records : List (Word × Dword × List Byte) := []
  cards   : List DdeCard := []
  job     : Option DdeCard := none
  deriving DecidableEq, Repr, Inhabited

/-! ### Work creation and host side (09, 27) -/

/-- A kernel descriptor as read at enqueue (04 R87). -/
structure KDesc where
  priv    : Bool := false
  cls     : Nat := 2
  demand  : Bool := false
  coop    : Bool := false
  pair    : Bool := false
  entry   : Dword := 0
  scbase  : Dword := 0
  scsize  : Word := 0
  lcbase  : Dword := 0
  lcsize  : Word := 0
  gangs   : Nat := 1
  width   : Nat := 4
  regs    : Nat := 32
  accs    : Nat := 0
  tiles   : Nat := 0
  scratch : Nat := 0
  binbase : Dword := 0
  leases  : List (Bool × Dword × Dword) := []
  deriving DecidableEq, Repr, Inhabited

/-- A launch (09 R179 to R186, 21 R343, R344): its descriptor values, parent queue packet or spawn tree, chain, dispatch
and report state, and work items; `begun` tells that every block of a coop launch has been resident at one time (07 R139). -/
structure Launch where
  vi        : Nat := 0
  kd        : KDesc := {}
  kdesc     : Dword := 0
  param     : Dword := 0
  nx        : Nat := 1
  ny        : Nat := 1
  nz        : Nat := 1
  seed      : Bool := false
  agg       : Bool := false
  items     : Dword := 0
  nitems    : Nat := 0
  itemsTaken : Nat := 0
  brep      : Dword := 0
  brepn     : Nat := 0
  chain     : Option Nat := none
  tree      : Nat := 0
  packet    : Option (Nat × Nat) := none
  dispatched : List Nat := []
  h         : Nat := 0
  ended     : FMap (Option (Nat × Nat × Nat)) := []
  cancelled : Bool := false
  errRec    : Option ErrRec := none
  queues    : FMap (List Word) := []
  admitting : List Nat := []
  nextAdmit : Nat := 0
  lastStart : Option Nat := none
  begun     : Bool := false
  complete  : Bool := false
  deriving DecidableEq, Repr, Inhabited

/-- A spawn tree (09 R182): its counter, its root launch, and the earliest error record of its members. -/
structure Tree where
  c      : Nat := 0
  root   : Nat := 0
  errRec : Option ErrRec := none
  deriving DecidableEq, Repr, Inhabited

/-- An aggregation group (09 R183): tree, descriptor address, opening time, members and their blocks; once it has closed it is a merged grid,
whose indirection table gives each member's parameter block, first merged block and block count. -/
structure AggGroup where
  vi      : Nat := 0
  tree    : Nat := 0
  kdesc   : Dword := 0
  since   : Nat := 0
  members : List Nat := []
  blocks  : Nat := 0
  closed  : Bool := false
  table   : List (Dword × Nat × Nat) := []
  deriving DecidableEq, Repr, Inhabited

/-- A waiter of a named event (08 R177, 09 R187): gang, operation, and whether it consumes. -/
structure Waiter where
  gang  : Nat := 0
  op    : Nat := 0
  cons  : Bool := false
  deriving DecidableEq, Repr, Inhabited

/-- A named event (09 R187): set or not, its waiters in registration order, of which the ninth and later lie in the
spill table, and whether it has an entry of the table (else all of it lies in the spill table). -/
structure Event where
  isSet   : Bool := false
  waiters : List Waiter := []
  inTable : Bool := false
  deriving DecidableEq, Repr, Inhabited

/-- A virtual interface (27 R395): its context and quotas; `jobQuota` bounds its launches that have not completed (09 R181, 27 R399).
Assumption 28: DESIGN CHOICE. -/
structure Iface where
  asid     : Word := 0
  ptroot   : Dword := 0
  slots    : Nat := 0
  queues   : List Nat := []
  memQuota : Nat := 0
  jobQuota : Nat := 65536
  share    : Nat := 0
  spawns   : List Nat := []
  events   : FMap Event := []
  peers    : FMap (Option Dword) := []
  regions  : List (Dword × Nat) := []
  deriving DecidableEq, Repr, Inhabited

/-- The progress of a packet (27 R398 to R401): its bytes and, once complete, its report. -/
structure Packet where
  idx     : Nat := 0
  bytes   : List Byte := []
  report  : Option (List Byte) := none
  launch  : Option Nat := none
  deriving DecidableEq, Repr, Inhabited

/-- A user queue with the fields of its control block (27 R402 to R404), the clock of its last kick (R402) and the bytes of firmware
state that the control block keeps. -/
structure Queue where
  vi       : Nat := 0
  ring     : Dword := 0
  size     : Nat := 16
  rd       : Word := 0
  wr       : Word := 0
  cring    : Dword := 0
  csize    : Nat := 16
  reports  : Word := 0
  packets  : List Packet := []
  base     : Nat := 0
  eff      : Nat := 0
  error    : Bool := false
  mapped   : Option Nat := none
  mappedNs : Nat := 0
  ageNs    : Nat := 0
  pending  : Bool := false
  kicked   : Option Nat := none
  fw       : List Byte := List.replicate 196 0
  deriving DecidableEq, Repr, Inhabited

/-- An event of the front-end pool (27 R405). -/
inductive FeEvent where
  | kick (q : Nat)
  | wake (q : Nat)
  | completion (launch : Nat)
  | spawn (launch : Nat)
  | park (asid : Word) (granule : Nat) (kind : Nat) (core : Nat) (ns : Nat)
  | residency (asid : Word) (granule : Nat)
  | spilled (w : Waiter)
  deriving DecidableEq, Repr

/-- A notice to the host (27 R406). -/
structure Notice where
  ns   : Nat := 0
  kind : Nat := 0
  vi   : Nat := 0
  addr : Dword := 0
  deriving DecidableEq, Repr, Inhabited

/-- What the device sends out of a port: an RDMA answer, a beacon, a flit, a report of the management endpoint, a line of
a strip (27 R394, R396, R408, 28 R411, R414, R417). -/
inductive Output where
  | rdmaData (vi qp : Nat) (bytes : List Byte)
  | rdmaAck (vi qp : Nat)
  | rdmaNak (vi qp : Nat)
  | hostWrite (vi : Nat) (off : Nat) (bytes : List Byte)
  | hostRead (vi off len : Nat)
  | hostAtomic (vi off : Nat) (op : AtomOp) (dw : Bool) (d n : Dword)
  | peerData (port : Nat) (bytes : List Byte)
  | peerError (port : Nat)
  | flit (port : Nat) (f : Flit)
  | flitAck (port : Nat) (seq : Word)
  | flitNak (port : Nat) (seq : Word)
  | beacon (b : Beacon)
  | beaconAck (mid : Byte)
  | quote (sig : BitVec 512) (key : List Byte)
  | mgmtError
  | line (slot : Byte) (c : Consumer) (pixels : List Dword)
  deriving DecidableEq, Repr

/-! ### Strips (18, 22) -/

/-- A registered strip chain (22 R359 to R365): its record and its progress. `packet` awaits the ring hand-over; `blocks` are
the landed blocks of the progress slot, 1024·row + column; `tiles` the rate plus 1 of each shading tile that has started;
`written` the stored lines of its slots that hold a landed pixel, the WORK slot's from 64; `lines` the lines that each consumer
has read, plus 1 once it has started, and `latched` its pose, keyed by reprojection bank. -/
structure Chain where
  id       : Nat := 0
  start    : Nat := 0
  deadline : Nat := 0
  frame    : Word := 0
  strip    : Half := 0
  slot     : Nat := 0
  wslot    : Option Nat := none
  rgrp     : Nat := 0
  psrc     : Bool := false
  clu      : BitVec 168 := 0
  sdesc    : Word × Word × Word := (0, 0, 0)
  wdesc    : Word × Word × Word := (0, 0, 0)
  behind   : Bool := false
  ready    : Bool := true
  admitted : Bool := false
  missed   : Bool := false
  ended    : Bool := false
  rate     : Nat := 0
  rate0    : Nat := 0
  blocks   : List Nat := []
  tiles    : FMap Nat := []
  quarters : Nat := 0
  launches : List Nat := []
  packet   : Option (Nat × Nat) := none
  written  : List Nat := []
  latched  : FMap (List Word) := []
  lines    : FMap Nat := []
  deriving DecidableEq, Repr, Inhabited

/-- The pixels of a RINGST on their way to the ring (17 R307): gang and chain, the pixel size, the (lane, locator, low word,
high word) of each pixel, its command's number, and the slices and the flag it counts on. -/
structure RingStore where
  gang   : Nat := 0
  chain  : Nat := 0
  w64    : Bool := false
  pixels : List (Nat × Word × Word × Word) := []
  id     : Nat := 0
  slices : BitVec 4 := 0
  flag   : Option Nat := none
  deriving DecidableEq, Repr, Inhabited

/-! ### Power, ports, boot (26, 27, 28) -/

/-- A compute domain (26 R382 to R386): its idle state, throttle level and power, whether something needs it to run, and when
the exit it has begun ends. Assumption 8: DESIGN CHOICE. -/
structure Domain where
  idle   : Nat := 0
  level  : Nat := 0
  pwr    : Nat := 0
  wake   : Bool := false
  exitAt : Option Nat := none
  deriving DecidableEq, Repr, Inhabited

/-- The cryogenic states (26 R388), in code order. -/
inductive Cryo where | warm | cooling | soak | cold | excursion | hotStop | warming
  deriving DecidableEq, Repr, Inhabited

/-- A peer port (28 R411, R413): its state, width and sheds, the next sequence numbers sent and expected, the replay and the
transmit buffer, since when its oldest flit is unacknowledged or its retraining runs, and whether that widens it. -/
structure Port where
  st      : Nat := 0
  lanes   : Nat := 0
  sheds   : Nat := 0
  en      : Bool := false
  txSeq   : Word := 0
  rxSeq   : Word := 0
  replay  : List Flit := []
  wait    : List Flit := []
  since   : Nat := 0
  widen   : Bool := false
  deriving DecidableEq, Repr, Inhabited

/-- Frame lock (28 R414 to R419): frames started, whether the last beacon agreed, whether this device acts as leader, MEMBERS, the
frames for which a beacon of a lower MID still holds it back, the frames without a beacon, the lowest MID heard in this frame, the
MID of the last beacon accepted, per member the frames without an acknowledgement and, for others, the agreeing ones in a row, this device's own in a row, and members
withdrawn. -/
structure Lock where
  frame    : Nat := 0
  agreeing : Bool := false
  acting   : Bool := false
  members  : BitVec 24 := 0
  back     : Nat := 0
  silent   : Nat := 0
  heard    : Option Nat := none
  lead     : Option Nat := none
  missed   : FMap Nat := []
  joining  : FMap Nat := []
  agreed   : Nat := 0
  leave    : List Nat := []
  deriving DecidableEq, Repr, Inhabited

/-- Boot state (27 R407 to R410): the flash slots (0 for A, 1 for B), the configuration records, the running slot (2 for a recovery
image), recovery, the staged image, the slot written since the last boot, a slot whose first boot failed, the measurement registers, and
a device reset in progress with the time it was requested and whether the gangs have been pre-empted. Assumption 6: DESIGN CHOICE. -/
structure Boot where
  flash    : FMap (Option Image) := []
  config   : List Image := []
  running  : Option Nat := none
  recovery : Bool := false
  staging  : Option Image := none
  fresh    : Option Nat := none
  failed   : Option Nat := none
  mr       : FMap (BitVec 256) := []
  resetReq : Option Nat := none
  saving   : Bool := false
  deriving DecidableEq, Repr, Inhabited

/-- A migration of a page (21 R347), by the address of its leaf: the lowest stamp and whether the host gave it, whether it is in
progress, and when its loser, once there is one, loses its remote mapping. -/
structure Migration where
  stamp  : Nat := 0
  host   : Bool := false
  live   : Bool := false
  expiry : Option Nat := none
  deriving DecidableEq, Repr, Inhabited

/-- A store to a host or a peer aperture that its transport has not acknowledged (27 R397, 28 R412): which side, the
gang and the operation that made it, its address, and the port it took. -/
structure RemoteStore where
  peer : Bool := false
  port : Nat := 0
  gang : Option Nat := none
  op   : Option Nat := none
  va   : Nat := 0
  deriving DecidableEq, Repr, Inhabited

/-! ### Turns: what a clock brings -/

/-- A unit that the error correction of 12 R216 covers: by its key in `State.poison`, in a gang's `bad`, or in a block's. -/
inductive EccUnit where
  | mem (key : Nat)
  | gang (gid key : Nat)
  | block (bid key : Nat)
  deriving DecidableEq, Repr

/-- What the environment, and the device's own timing, bring in a clock (the model's own field, DESIGN CHOICE): a fragment whose next
instruction on its scalar or its lane stream cannot issue in it (its data have not come, or its units are busy), a step of the device about
one subject, an L1 line leaving by replacement (12 R212), or an error that error correction finds (12 R216). -/
inductive Turn where
  | busy (gang slice : Nat) (lane : Bool)
  | event (i : Instr) (gang slice subject : Nat)
  | evict (core line : Nat)
  | ecc (u : EccUnit) (corrected : Bool)
  deriving DecidableEq, Repr

/-- A change of state that an instruction asks for and that takes effect at the end of its clock: a write of a register that serves more than
one gang (01 R28), by a gang, its core, its block, its privilege; a core's gate state (24 R379). -/
inductive Late where
  | kreg (gang core k : Nat) (v : Word) (blk : Option Nat) (sys : Bool)
  | gate (core st : Nat)
  deriving DecidableEq, Repr

/-- The whole machine. -/
structure State where
  /-- Clocks since power-on, the model's counter for free values, and its value at module reset (15 R275). -/
  clk      : Nat := 0
  clk0     : Nat := 0
  /-- Station time in units of 2^-16 ns (22 R357), the remainder of its rate, and the correction still to slew (R358). -/
  time     : Nat := 0
  timeRem  : Nat := 0
  slew     : Int := 0
  slewRem  : Nat := 0
  offset   : Int := 0
  syncs    : Nat := 0
  /-- What the clocks to come bring, the steps that a register write of this clock makes in it, the changes that its end makes, and what the
  current instruction is about. -/
  turns    : List (List Turn) := []
  prompt   : List Turn := []
  late     : List Late := []
  gang     : Nat := 0
  slice    : Nat := 0
  subject  : Nat := 0
  /-- Gangs, blocks, launches, trees. -/
  gangs    : FMap (Option Gang) := []
  blocks   : FMap (Option Block) := []
  launches : FMap (Option Launch) := []
  trees    : FMap Tree := []
  groups   : List AggGroup := []
  nextGang : Nat := 0
  nextBlock : Nat := 0
  nextLaunch : Nat := 0
  nextOp   : Nat := 0
  /-- Memory: the L2's view of DRAM (12 R213), scratchpads keyed 2^19·core + offset, the ring region (12 R214). -/
  mem      : Memory := []
  sp       : Memory := []
  ring     : Memory := []
  /-- Lines dirty in the L2 (12 R226), and poisoned units (12 R216): DRAM lines by number, 64-bit units of the L2 from 2^40, of the ring
  region from 2·2^40, of the scratchpads from 3·2^40 and of the template tables from 4·2^40. -/
  dirty    : FMap Bool := []
  poison   : FMap Bool := []
  /-- L1 lines keyed 2^46·core + line number (12 R212), and stores on their way to the L2, oldest first. -/
  l1       : FMap (Option (List Byte)) := []
  path     : List (Nat × List Host.Cell) := []
  /-- Cached translations (12 R224, R227): the TLB (a core's by %core, a cluster's from 4,000, a layer's last level from 5,000, the front
  end's 2,000), ASID, first address, size, leaf; and the pointer entries that walker caches hold: ASID, level by its lowest index bit,
  address bits from there up, entry. -/
  tlb      : List (Nat × Word × Nat × Nat × Dword) := []
  walker   : List (Word × Nat × Nat × Dword) := []
  /-- Writes of hardware at addresses outside DRAM (12 R206) that the clock's end makes: interface, physical address, bytes. -/
  posted   : List (Nat × Nat × List Byte) := []
  /-- Code lines held by instruction caches (03 R78): ASID, 64-byte line number, bytes. -/
  icache   : List (Word × Nat × List Byte) := []
  /-- Ring hand-over (12 R214): 0 the ring ways serve the L2, 1 handing over, 2 given to the ring. -/
  ringOwn  : Nat := 0
  cores    : FMap Core := []
  clusters : FMap Cluster := []
  /-- Device k-registers (01 R28, 12 R204). -/
  sguard   : Word := 0
  dirtyBase : Dword := 0
  eccce    : Word := 0
  eccue    : Word := 0
  /-- Plain registers of the base-layer control range, keyed by offset / 4 (18 R312, R327, 22 R357, R367, R368, 26 R382,
  28 R414, R417). -/
  base     : FMap Word := [(0x101000, 800)]
  /-- Slot states (18 R315) and Meridian (22); `owed` are deregistered chains whose strips are still to be sent (R362);
  `mlq` are the log records of the nanosecond that lasts: time, event, slot, bytes (R369). -/
  slotSt   : FMap Nat := []
  chains   : List Chain := []
  nextChain : Nat := 0
  owed     : List Chain := []
  rateLast : FMap (Option (Nat × Bool)) := []
  stores   : List RingStore := []
  active   : FMap (List Word) := []
  mlwr     : Word := 0
  mlq      : List (Nat × Nat × Nat × List Byte) := []
  /-- Mesh records submitted and not yet binned (18 R319): gang, launch, BINBASE, record. -/
  bins     : List (Nat × Nat × Dword × MeshRec) := []
  /-- Host side (27). -/
  ifaces   : FMap (Option Iface) := []
  queues   : FMap (Option Queue) := []
  feq      : List FeEvent := []
  notices  : List Notice := []
  parks    : List (Word × Nat) := []
  migs     : FMap Migration := []
  outs     : List Output := []
  remote   : List RemoteStore := []
  /-- Power and cryogenics (26). -/
  ml       : Nat := 200
  callot   : Nat := 0
  domains  : FMap Domain := []
  offLast  : Option Nat := none
  cryo     : Cryo := .warm
  service  : Bool := false
  sensors  : FMap Nat := []
  tband    : Word := 0
  coolNs   : Option Nat := none
  hotSaved : Bool := false
  refresh  : Bool := false
  derated  : Bool := false
  warmCmd  : Option Nat := none
  warmDone : Bool := false
  /-- Ports and frame lock (28). -/
  ports    : FMap Port := []
  lock     : Lock := {}
  boot     : Boot := {}
  deriving DecidableEq, Repr, Inhabited

/-- The machine right after module reset (01 R33, R28, 12 R204, 22 R357, 26 R382, R383, 27 R407): no gang exists, every
register has its reset value, memory lists nothing, and the device is WARM. Assumption 6: DESIGN CHOICE. -/
def State.reset : State := {}

end Sys2Proof.Machine
end

