-- ==== Sys2Proof/Machine/Tags.lean ====
section
/-! DEFINITION. Format codes and tags: 01 R26, 02 R34, R35, R36. -/

namespace Sys2Proof

/-- Format code of a tag, bits [4:0] (R26). -/
def Tag.fcode (t : Tag) : Nat := t.toNat % 32
/-- Rotation of a tag, bits [6:5] (R26): 0 none, 1 H16, 2 H32, 3 reserved. -/
def Tag.rot (t : Tag) : Nat := t.toNat / 32
/-- A tag from a code and rotation none. -/
def Tag.ofCode (c : BitVec 5) : Tag := c.setWidth 7

namespace Tag
abbrev raw : Tag := 0
abbrev i32 : Tag := 1
abbrev n32 : Tag := 2
abbrev f32 : Tag := 3
abbrev f19 : Tag := 4
abbrev bf16x2 : Tag := 5
abbrev f16x2 : Tag := 6
abbrev e4m3x4 : Tag := 7
abbrev e5m2x4 : Tag := 8
abbrev e3m2x4 : Tag := 9
abbrev e2m3x4 : Tag := 10
abbrev e2m1x8 : Tag := 11
abbrev i8x4 : Tag := 12
abbrev n8x4 : Tag := 13
abbrev i4x8 : Tag := 14
abbrev i3x10 : Tag := 15
end Tag

/-- Elements per 32-bit word of a code (R34); RAW and reserved codes count 1. -/
def elemsPerWord (c : Nat) : Nat :=
  match c with
  | 5 | 6 => 2
  | 7 | 8 | 9 | 10 | 12 | 13 | 17 | 18 | 19 => 4
  | 11 | 14 | 16 | 20 => 8
  | 15 | 21 => 10
  | _ => 1

/-- Width in bits of one element of a code (R34). -/
def elemWidth (c : Nat) : Nat :=
  match c with
  | 5 | 6 => 16
  | 7 | 8 | 12 | 13 | 19 => 8
  | 9 | 10 | 17 | 18 => 6
  | 11 | 14 | 16 | 20 => 4
  | 15 | 21 => 3
  | _ => 32

/-- A code that may carry a rotation (R35). -/
def rotatable (c : Nat) : Bool := (4 ≤ c && c ≤ 13) || c == 20 || c == 21

/-- A code a vector register may carry (R34). -/
def vecCode (c : Nat) : Bool := c ≤ 15

/-- A code a tile register may carry (R34). -/
def tileCode (c : Nat) : Bool := c == 0 || (3 ≤ c && c ≤ 13) || (16 ≤ c && c ≤ 21)

/-- A code an accumulator may carry (R35): RAW, I32, F32. -/
def accCode (c : Nat) : Bool := c == 0 || c == 1 || c == 3

/-- The rotation of `t` is none, or one its code can carry (R35). -/
def rotOk (t : Tag) : Bool := t.rot == 0 || (t.rot ≤ 2 && rotatable t.fcode)

/-- A tag a vector register may carry (R34, R35). -/
def vecTagOk (t : Tag) : Bool := vecCode t.fcode && rotOk t
/-- A tag a tile register may carry (R34, R35). -/
def tileTagOk (t : Tag) : Bool := tileCode t.fcode && rotOk t
/-- A tag an accumulator may carry (R35). -/
def accTagOk (t : Tag) : Bool := accCode t.fcode && t.rot == 0

/-- The class is one of the listed codes with rotation none. -/
def classIn (l : List Nat) (t : Tag) : Bool := t.rot == 0 && l.contains t.fcode

/-- One of `m`, `n` divides the other (R130). -/
def divides (m n : Nat) : Bool := n % m == 0 || m % n == 0

/-- Tag check of integer arithmetic and conversion sources (R36): the expected code or RAW with rotation none; I32 and
N32 accept each other. -/
def intTagPass (expect found : Tag) : Bool :=
  found.rot == 0 && (found.fcode == 0 || found.fcode == expect.fcode ||
    ((expect.fcode == 1 || expect.fcode == 2) && (found.fcode == 1 || found.fcode == 2)))

/-- Whether a code is an integer format (R42). -/
def intCode (c : Nat) : Bool := c == 1 || c == 2 || (12 ≤ c && c ≤ 15)

/-- Tag check of R36 for a class: floating classes exactly, integer classes by `intTagPass`. -/
def tagPass (expect found : Tag) : Bool :=
  if intCode expect.fcode then intTagPass expect found else found == expect

end Sys2Proof
end

