-- ==== Sys2Proof/Machine/Ops.lean ====
section
/-! DEFINITION. Named operations on the state: gangs, fragments, slice copies, masks, lanes, marks, and the shared shape
of a scalar instruction. -/

namespace Sys2Proof.Machine

/-- The outcome of a meaning. -/
abbrev Result := Host.Outcome State Fault Refusal

/-! ### Bits -/

/-- Bits [hi:lo] of a number. -/
def bitsOf (x hi lo : Nat) : Nat := x / 2 ^ lo % 2 ^ (hi + 1 - lo)
/-- A Bool as a number. -/
def b2n (b : Bool) : Nat := if b then 1 else 0
/-- A Bool as a word. -/
def b2w (b : Bool) : Word := if b then 1 else 0
/-- The numbers below `n` whose bit is set. -/
def setBits {w : Nat} (n : Nat) (x : BitVec w) : List Nat := (List.range n).filter fun i => x.getLsbD i
/-- Set or clear one bit. -/
def putBit {w : Nat} (x : BitVec w) (i : Nat) (b : Bool) : BitVec w :=
  if b then x ||| (1#w <<< i) else x &&& ~~~(1#w <<< i)
/-- Number of set bits. -/
def popcount {w : Nat} (x : BitVec w) : Nat := ((List.range w).filter fun i => x.getLsbD i).length
/-- Little-endian value of bytes (00 R7). -/
def leVal : List Byte → Nat
  | [] => 0
  | b :: r => b.toNat + 256 * leVal r
/-- Little-endian bytes of a number (00 R7). -/
def leOf : Nat → Nat → List Byte
  | 0, _ => []
  | n + 1, v => BitVec.ofNat 8 v :: leOf n (v / 256)
/-- The field of a byte list at an offset, as a number. -/
def field (l : List Byte) (off n : Nat) : Nat := leVal ((l.drop off).take n)
/-- Sign-extended value of the low `n` bits. -/
def sextNat (n v : Nat) : Int := if v % 2 ^ n < 2 ^ (n - 1) then (v % 2 ^ n : Int) else (v % 2 ^ n : Int) - (2 ^ n : Int)

/-! ### Tables of the state -/

def State.updGang (s : State) (id : Nat) (g : Gang) : State := { s with gangs := FMap.put s.gangs id (some g) }
def State.gang? (s : State) (id : Nat) : Option Gang := FMap.get s.gangs id
def State.block? (s : State) (id : Nat) : Option Block := FMap.get s.blocks id
def State.setBlock (s : State) (id : Nat) (b : Block) : State := { s with blocks := FMap.put s.blocks id (some b) }
def State.launch? (s : State) (id : Nat) : Option Launch := FMap.get s.launches id
def State.setLaunch (s : State) (id : Nat) (l : Launch) : State := { s with launches := FMap.put s.launches id (some l) }
def State.core (s : State) (c : Nat) : Core := FMap.get s.cores c
def State.setCore (s : State) (c : Nat) (k : Core) : State := { s with cores := FMap.put s.cores c k }
def State.updCore (s : State) (c : Nat) (f : Core → Core) : State := s.setCore c (f (s.core c))
def State.iface? (s : State) (v : Nat) : Option Iface := FMap.get s.ifaces v
def State.setIface (s : State) (v : Nat) (i : Iface) : State := { s with ifaces := FMap.put s.ifaces v (some i) }
def State.queue? (s : State) (q : Nat) : Option Queue := FMap.get s.queues q
def State.setQueue (s : State) (q : Nat) (x : Queue) : State := { s with queues := FMap.put s.queues q (some x) }

/-- Station time in ns (22 R357). -/
def State.ns (s : State) : Nat := s.time / 65536

/-- A notice to the host (27 R406). Assumption 43: DEDUCED. -/
def State.notify (s : State) (kind vi : Nat) (addr : Dword) : State :=
  { s with notices := s.notices ++ [{ ns := s.ns, kind := kind, vi := vi, addr := addr }] }

/-- The gangs in existence, with their numbers. -/
def State.gangList (s : State) : List (Nat × Gang) := s.gangs.filterMap fun e => e.2.map fun g => (e.1, g)
/-- The launches known to the device. -/
def State.launchList (s : State) : List (Nat × Launch) := s.launches.filterMap fun e => e.2.map fun l => (e.1, l)
/-- The blocks in existence. -/
def State.blockList (s : State) : List (Nat × Block) := s.blocks.filterMap fun e => e.2.map fun b => (e.1, b)
/-- Residency slot number of a gang (10 R190). -/
def Gang.slotNo (g : Gang) : Nat := 16 * g.part + g.slot
/-- The gangs of a launch. -/
def State.gangsOf (s : State) (l : Nat) : List (Nat × Gang) := s.gangList.filter fun e => e.2.launch == l
/-- Whether a block stands on the core (07 R139). -/
def State.coreBusy (s : State) (c : Nat) : Bool := s.blockList.any fun e => e.2.core == c && !e.2.desched
/-- Cluster of a core number (24 R371). -/
def clusterOf (c : Nat) : Nat := c / 8
/-- Position of a core in its cluster (24 R371). -/
def posOf (c : Nat) : Nat := c % 8
/-- Vertical partner of a core (24 R371). -/
def partnerOf (c : Nat) : Nat := 8 * (c / 8) + (c % 8 + 4) % 8
/-- Layer of a core (24 R371). -/
def layerOf (c : Nat) : Nat := c % 8 / 4
/-- Compute domain of a core (26 R381). -/
def domainOf (c : Nat) : Nat := 2 * (c / 8 / 42) + c % 8 / 4
/-- Number of cores (00 R2). -/
abbrev nCores : Nat := 1344

/-! ### Slice copies (07 R140) -/

/-- A scalar register of a copy; s0 reads zero (01 R11). -/
def SliceCopy.get (c : SliceCopy) (r : SReg) : Word := if r = 0 then 0 else FMap.get c.s r.toNat
/-- Write a scalar register; a write to s0 is discarded (01 R11). -/
def SliceCopy.set (c : SliceCopy) (r : SReg) (v : Word) : SliceCopy :=
  if r = 0 then c else { c with s := FMap.put c.s r.toNat v }
/-- A register pair (01 R12): the even register holds bits [31:0]. -/
def SliceCopy.getPair (c : SliceCopy) (r : SReg) : Dword := c.get (r + 1) ++ c.get r
/-- Write a register pair (01 R12). -/
def SliceCopy.setPair (c : SliceCopy) (r : SReg) (v : Dword) : SliceCopy :=
  (c.set r (v.setWidth 32)).set (r + 1) ((v >>> 32).setWidth 32)
/-- A stored per-slice k-register. -/
def SliceCopy.kget (c : SliceCopy) (k : Nat) : Word := FMap.get c.k k
def SliceCopy.kset (c : SliceCopy) (k : Nat) (v : Word) : SliceCopy := { c with k := FMap.put c.k k v }
/-- A 64-bit per-slice k-register (01 R28). -/
def SliceCopy.kget64 (c : SliceCopy) (k : Nat) : Dword := c.kget (k + 1) ++ c.kget k
def SliceCopy.kset64 (c : SliceCopy) (k : Nat) (v : Dword) : SliceCopy :=
  (c.kset k (v.setWidth 32)).kset (k + 1) ((v >>> 32).setWidth 32)

def Gang.copy (g : Gang) (sl : Nat) : SliceCopy := FMap.get g.copies sl
def Gang.setCopy (g : Gang) (sl : Nat) (c : SliceCopy) : Gang := { g with copies := FMap.put g.copies sl c }
/-- Change the copies of the listed slices. -/
def Gang.mapCopies (g : Gang) (sls : List Nat) (f : SliceCopy → SliceCopy) : Gang :=
  sls.foldl (fun g sl => g.setCopy sl (f (g.copy sl))) g

/-- Slices of a fragment, ascending. -/
def Frag.sliceList (f : Frag) : List Nat := setBits 4 f.slices
/-- Lowest slice of a mask. -/
def lowSlice (m : BitVec 4) : Nat :=
  if m.getLsbD 0 then 0 else if m.getLsbD 1 then 1 else if m.getLsbD 2 then 2 else 3
/-- The copy of a fragment's lowest slice. -/
def Gang.low (g : Gang) (f : Frag) : SliceCopy := g.copy (lowSlice f.slices)

/-! ### Masks and lanes (01 R14, 05 R98) -/

/-- The 32 mask bits of the slices in a slice mask (07 R138). -/
def sliceMask (m : BitVec 4) : Word :=
  (if m.getLsbD 0 then 0xFF#32 else 0) ||| (if m.getLsbD 1 then 0xFF00#32 else 0) |||
  (if m.getLsbD 2 then 0xFF0000#32 else 0) ||| (if m.getLsbD 3 then 0xFF000000#32 else 0)
/-- The lanes of a fragment that take part in a lane instruction (01 R14, 06 R110). -/
def Gang.taking (g : Gang) (f : Frag) : Word := g.xm &&& g.lm &&& sliceMask f.slices
/-- Numbers of the set lanes, ascending. -/
def lanesOf (w : Word) : List Nat := setBits 32 w
/-- Helper lanes (07 R146). -/
def Gang.helpers (g : Gang) : Word := g.lm &&& g.hm

def Gang.mask (g : Gang) : MaskName → Word
  | .xm => g.xm
  | .lm => g.lm
  | .hm => g.hm
def Gang.setMask (g : Gang) (m : MaskName) (v : Word) : Gang :=
  match m with
  | .xm => { g with xm := v }
  | .lm => { g with lm := v }
  | .hm => { g with hm := v }

/-! ### Fragments (07 R140) -/

/-- Replace the fragments that share a slice with `f` by `f`. -/
def Gang.putFrag (g : Gang) (f : Frag) : Gang :=
  { g with frags := g.frags.map fun x => if x.slices &&& f.slices = 0 then x else f }
/-- A wait for operations once one of them has completed. -/
def LaneWait.without (w : LaneWait) (op : Nat) : LaneWait :=
  match w with
  | .op ns => if ns.contains op then (if (ns.erase op).isEmpty then .none else .op (ns.erase op)) else w
  | w => w
/-- The fragment holding a slice. -/
def Gang.fragOf (g : Gang) (sl : Nat) : Option Frag := g.frags.find? fun f => f.slices.getLsbD sl

/-- The current gang and fragment, those whose stream the turn names. Assumption 10: DEDUCED. -/
def State.cur (s : State) : Option (Gang × Frag) :=
  match s.gang? s.gang with
  | none => none
  | some g => (g.fragOf s.slice).map fun f => (g, f)

/-- Store the current gang and fragment back. -/
def State.setCur (s : State) (g : Gang) (f : Frag) : State := s.updGang s.gang (g.putFrag f)

/-- Run a meaning that needs the current fragment; without one the machine faults by name. Assumption 10: DEDUCED. -/
def withCur (s : State) (k : Gang → Frag → Result) : Result :=
  match s.cur with
  | none => .fault .noFragment
  | some (g, f) => k g f

/-! ### Pending marks (01 R16, R18) -/

/-- A scalar register carries a pending mark. -/
def Frag.marked (f : Frag) (r : SReg) : Bool := f.marks.any fun m => m.reg == r
/-- No register of the list carries a pending mark. -/
def Frag.free (f : Frag) (rs : List SReg) : Bool := rs.all fun r => !f.marked r

/-- Whether all slices of the fragment agree on a value. -/
def Gang.agree {α : Type} [BEq α] (g : Gang) (f : Frag) (v : SliceCopy → α) : Bool :=
  f.sliceList.all fun sl => v (g.copy sl) == v (g.low f)

/-- The scalar stream has executed the word at its SPC and advances past it (01 R15). -/
def Frag.advance (f : Frag) : Frag := { f with spc := f.spc + 4, swait := false, parkS := none, beat := !f.beat }

/-- The slices of a fragment grouped by a value, in the order of their lowest slice: one mask per distinct value. -/
def Gang.groups {α : Type} [DecidableEq α] (g : Gang) (f : Frag) (v : SliceCopy → α) : List (BitVec 4) :=
  (f.sliceList.foldl
    (fun (acc : List (α × BitVec 4)) sl =>
      let x := v (g.copy sl)
      if acc.any (fun e => decide (e.1 = x))
      then acc.map fun e => if e.1 = x then (e.1, putBit e.2 sl true) else e
      else acc ++ [(x, putBit 0 sl true)]) []).map (·.2)

/-- Replace one fragment by several (07 R141 to R143): each new one inherits the queue, the marks and the clause in
issue, and a number of its own toward the Chronograph (10 R195); the gang's reuse latch is released (15 R266). -/
def Gang.replaceFrag (g : Gang) (f : Frag) (fs : List Frag) : Gang :=
  let fs := fs.zipIdx.map fun e => { e.1 with tr := { e.1.tr with key := g.trNext + e.2 } }
  { g with
    frags := (g.frags.flatMap fun x => if x.slices &&& f.slices = 0 then [x] else fs)
    latch := g.latch.filter fun l => l.1 != g.idx, trNext := g.trNext + fs.length }

/-! ### Vector registers and accumulators (01 R11, R21) -/

/-- Registers that outstanding flagged operations or matrix commands will write (01 R21). -/
def Gang.busyV (g : Gang) (r : Nat) : Bool :=
  (g.asyncs.any fun o => o.tags.any fun t => t.1 == r) || (g.named.any fun t => t.2 == r)
/-- One word of a vector register as stored. -/
def Gang.vraw (g : Gang) (r lane : Nat) : Word := FMap.get g.v (32 * r + lane)
/-- A lane's word of a vector register; a register that an outstanding flagged operation writes reads undefined values
(01 R21), free values of the clock `n`. Assumption 3: DESIGN CHOICE. -/
def Gang.vget (g : Gang) (n r lane : Nat) : Word :=
  if g.busyV r then Config.freeWord n (32 * r + lane) else g.vraw r lane
/-- A write of a whole word clears its poison (12 R216). -/
def Gang.vput (g : Gang) (r lane : Nat) (w : Word) : Gang :=
  { g with v := FMap.put g.v (32 * r + lane) w, bad := FMap.put g.bad (32 * r + lane) false }
def Gang.tagOf (g : Gang) (r : Nat) : Tag := FMap.get g.vtag r
def Gang.setTag (g : Gang) (r : Nat) (t : Tag) : Gang := { g with vtag := FMap.put g.vtag r t, bad := FMap.put g.bad (16384 + r) false }
/-- A write to a register of a latched run, in any member file, releases the reuse latch (15 R266). -/
def Gang.unlatch (g : Gang) (r : Nat) : Gang :=
  { g with latch := g.latch.filter fun l => !(decide (l.2.run.toNat ≤ r) && decide (r < l.2.run.toNat + 16)) }
/-- The gang's own reuse latch is released (15 R266): it no longer covers its own file. -/
def Gang.dropLatch (g : Gang) : Gang := { g with latch := g.latch.filter fun l => l.1 != g.idx }
/-- A register written while outstanding work would write it, or names it, is noted (01 R21, 13 R238). -/
def Gang.touch (g : Gang) (key : Nat) : Gang :=
  { g with clash := if g.busyV key then key :: g.clash.erase key else g.clash }

/-- What words that the engine reads held before (15 R273): the gang whose write no barrier covers, the word's key, the value. -/
abbrev Held := List (Option Nat × Nat × Word)
/-- A word that held `x` is written. -/
def Held.add (h : Held) (w : Option Nat) (k : Nat) (x : Word) : Held := if h.contains (w, k, x) then h else (w, k, x) :: h
/-- Words that the gang's own engine writes hold what it wrote (15 R269). -/
def Held.drop (h : Held) (ks : List Nat) : Held := h.filter fun e => !ks.contains e.2.1
/-- What the engine reads of element `i` of a word at clock `n` (13 R238, 15 R273): what it holds, or any value it held since the last OPRDY.
Assumption 3: DESIGN CHOICE. -/
def Held.pick (h : Held) (n k i : Nat) (now : Word) : Word :=
  match (h.filter fun e => e.2.1 == k).map fun e => e.2.2 with
  | [] => now
  | l => (now :: l).getD ((Config.freeWord n (2 ^ 24 + 64 * k + i)).toNat % (l.length + 1)) now

/-- Write lanes of a register and its tag (01 R27): the tag is set when at least one lane is written; a register that an
outstanding flagged operation writes is noted, and holds undefined values once both writes have landed (01 R21); what the lanes held stays
known to the engine (15 R273). -/
def Gang.vwrite (g : Gang) (r : Nat) (t : Tag) (ws : List (Nat × Word)) : Gang :=
  if ws.isEmpty then g
  else
    let g1 := ws.foldl (fun g e => g.vput r e.1 e.2) g
    { ((g1.setTag r t).unlatch r).touch r with
      hist := ws.foldl (fun (h : Held) e => h.add none (32 * r + e.1) (g.vraw r e.1)) g.hist }

def Gang.aget (g : Gang) (a row col : Nat) : Word := FMap.get g.a (1024 * a + 32 * row + col)
def Gang.aput (g : Gang) (a row col : Nat) (w : Word) : Gang :=
  { g with a := FMap.put g.a (1024 * a + 32 * row + col) w, bad := FMap.put g.bad (8192 + 1024 * a + 32 * row + col) false }
def Gang.atagOf (g : Gang) (a : Nat) : Tag := FMap.get g.atag a
def Gang.setAtag (g : Gang) (a : Nat) (t : Tag) : Gang := { g with atag := FMap.put g.atag a t, bad := FMap.put g.bad (16640 + a) false }

/-! ### Tiles and the engine's view (15 R273, R274) -/

/-- Fill a tile with undefined values. Assumption 3: DESIGN CHOICE. -/
def Block.spoilTile (b : Block) (n t : Nat) : Block :=
  { b with
    tdata := (List.range 2048).foldl (fun m i => FMap.put m (2048 * t + i) (Config.freeByte n (2048 * t + i))) b.tdata
    tside := (List.range 512).foldl (fun m i => FMap.put m (512 * t + i) (Config.freeByte n (0x8000 + 512 * t + i))) b.tside }
/-- The gangs of a block, with their numbers. -/
def State.blockGangs (s : State) (b : Block) : List (Nat × Gang) := b.gangs.filterMap fun i => (s.gang? i).map fun g => (i, g)
/-- A batch of some gang of the block, open or until its MWAIT, names the tile (13 R238). -/
def State.tileNamed (s : State) (b : Block) (t : Nat) : Bool := (s.blockGangs b).any fun e => e.2.named.any fun x => x.2 == 512 + t
/-- A word of a block's tiles under its key in `Gang.hist`: data, sidecar, or a tag. -/
def Block.tileWord (b : Block) (k : Nat) : Word :=
  let w := fun (m : FMap Byte) (a : Nat) => BitVec.ofNat 32 (leVal ((List.range 4).map fun i => FMap.get m (a + i)))
  if k < 2 ^ 17 then w b.tdata (4 * (k - 2 ^ 16))
  else if k < 2 ^ 18 then w b.tside (4 * (k - 2 ^ 17))
  else (FMap.get b.ttag (k - 2 ^ 18)).setWidth 32
/-- Keys of a tile's data words, sidecar words and tag. -/
def tileKeys (t : Nat) : List Nat := (List.range 512).map fun i => 2 ^ 16 + 512 * t + i
def sideKeys (t : Nat) : List Nat := (List.range 128).map fun i => 2 ^ 17 + 128 * t + i
/-- Words of a tile are about to be written by gang `w`, through its engine or not, or by an agent that is none (15 R273, R274). What they
held stays known to the engine: of a write by another gang until a barrier of both and an operand-ready fence, of another write until an
operand-ready fence; the gang's own engine sees its own writes, and its own tag writes, at once (R269). A tile that a batch names is noted
as written, and holds undefined values (13 R238). -/
def State.tileTouched (s : State) (bid : Nat) (w : Option Nat) (engine : Bool) (t : Nat) (ks : List Nat) : State :=
  match s.block? bid with
  | none => s
  | some b =>
    (s.blockGangs b).foldl (fun (s : State) e =>
      let mine := some e.1 == w
      let h := if mine && engine then Held.drop e.2.hist ks
        else (ks.filter fun k => !mine || decide (k < 2 ^ 18)).foldl (fun (h : Held) k =>
          h.add (if mine then none else w) k (b.tileWord k)) e.2.hist
      let named := e.2.named.any fun x => x.2 == 512 + t
      s.updGang e.1 { e.2 with
        hist := h, clash := if named && !(mine && engine) then (512 + t) :: e.2.clash.erase (512 + t) else e.2.clash }) s
/-- Keys of the scratchpad words of bytes of an allocation. -/
def spKeys (off n : Nat) : List Nat := if n = 0 then [] else (List.range ((off + n - 1) / 4 + 1 - off / 4)).map fun i => 2 ^ 19 + off / 4 + i
/-- Scratchpad words of a block, which hold the given values, are about to be written (15 R273). -/
def State.spTouched (s : State) (b : Block) (old : Nat → Word) (ks : List Nat) : State :=
  (s.blockGangs b).foldl (fun (s : State) e =>
    s.updGang e.1 { e.2 with hist := ks.foldl (fun (h : Held) k => h.add none k (old k)) e.2.hist }) s

/-! ### Flags (01 R22) -/

/-- A flag reads as set in a fragment while its count is non-zero in any of its slices (07 R143). -/
def Gang.flagSet (g : Gang) (f : Frag) (n : Nat) : Bool :=
  f.sliceList.any fun sl => FMap.get (g.copy sl).flags n != 0
/-- All flags of a 12-bit mask are clear. -/
def Gang.flagsClear (g : Gang) (f : Frag) (m : BitVec 12) : Bool := (setBits 12 m).all fun n => !g.flagSet f n
/-- Add one to a flag's count in every slice of a mask (R22, R143). -/
def Gang.raiseFlag (g : Gang) (sls : BitVec 4) (n : Nat) : Gang :=
  g.mapCopies (setBits 4 sls) fun c => { c with flags := FMap.put c.flags n (FMap.get c.flags n + 1) }
/-- Take one from a flag's count in every slice of a mask (R22, R143). -/
def Gang.lowerFlag (g : Gang) (sls : BitVec 4) (n : Nat) : Gang :=
  g.mapCopies (setBits 4 sls) fun c => { c with flags := FMap.put c.flags n (FMap.get c.flags n - 1) }
/-- The flag number a selector is bound to in the clause in issue (R22); 15 is unbound. -/
def Frag.boundFlag (f : Frag) (sel : FlagSel) : Option Nat :=
  match f.entered, sel with
  | some e, .a => if e.fa = 15 then Option.none else some e.fa.toNat
  | some e, .b => if e.fb = 15 then Option.none else some e.fb.toNat
  | _, _ => Option.none
/-- Raising the flag would take a count above 255 (R22). -/
def Gang.flagFull (g : Gang) (f : Frag) (n : Option Nat) : Bool :=
  match n with
  | none => false
  | some k => f.sliceList.any fun sl => 255 ≤ FMap.get (g.copy sl).flags k

/-! ### The shape of a scalar instruction (05 R90, R91, 07 R141) -/

/-- A pure computation executes once in each slice on that slice's copies (R141): it stalls on a pending mark of a
register it reads or writes (R16), else changes the copies of the fragment's slices and advances SPC. -/
def scalarPure (rs : List SReg) (f : SliceCopy → SliceCopy) (s : State) : Result :=
  withCur s fun g fr =>
    if fr.free rs then .next (s.setCur (g.mapCopies fr.sliceList f) fr.advance) else .next s

end Sys2Proof.Machine
end

