-- ==== Sys2Proof/Machine/Float.lean ====
section
/-! DEFINITION. Exact floating values, the element formats of 02 R37 to R42, rounding (R43 to R45), overflow and
saturation (R46), conversions (R47), the Hadamard transform (R50). -/

namespace Sys2Proof.Machine

/-- An exact value: NaN, an infinity, or (−1)^neg · m · 2^e; a zero keeps its sign. -/
inductive Val where
  | nan
  | inf (neg : Bool)
  | fin (neg : Bool) (m : Nat) (e : Int)
  deriving DecidableEq, Repr

/-- Which encodings of the top exponent are special (R38): infinity and NaN, E4M3's NaN alone, or none. -/
inductive Top where | ieee | nanOnly | plain
  deriving DecidableEq, Repr

/-- A floating element format (R38). -/
structure Fmt where
  e    : Nat
  m    : Nat
  bias : Nat
  top  : Top
  deriving DecidableEq, Repr

namespace Fmt
def f32 : Fmt := ⟨8, 23, 127, .ieee⟩
def f19 : Fmt := ⟨8, 10, 127, .ieee⟩
def bf16 : Fmt := ⟨8, 7, 127, .ieee⟩
def f16 : Fmt := ⟨5, 10, 15, .ieee⟩
def e5m2 : Fmt := ⟨5, 2, 15, .ieee⟩
def e4m3 : Fmt := ⟨4, 3, 7, .nanOnly⟩
def e3m2 : Fmt := ⟨3, 2, 3, .plain⟩
def e2m3 : Fmt := ⟨2, 3, 1, .plain⟩
def e2m1 : Fmt := ⟨2, 1, 1, .plain⟩

/-- The quantum exponent of subnormals, 1 − bias − m (R37). -/
def qmin (f : Fmt) : Int := 1 - (f.bias : Int) - (f.m : Int)
/-- Magnitude bits of the largest finite value (R38). -/
def maxBits (f : Fmt) : Nat :=
  match f.top with
  | .ieee => (2 ^ f.e - 1) * 2 ^ f.m - 1
  | .nanOnly => 2 ^ (f.e + f.m) - 2
  | .plain => 2 ^ (f.e + f.m) - 1
/-- Bits of infinity, for the formats that have one. -/
def infBits (f : Fmt) : Nat := (2 ^ f.e - 1) * 2 ^ f.m
/-- The canonical NaN (R40); the formats without NaN take +0 (R46). -/
def nanBits (f : Fmt) : Nat :=
  match f.top with
  | .ieee => (2 ^ f.e - 1) * 2 ^ f.m + 2 ^ (f.m - 1)
  | .nanOnly => 2 ^ (f.e + f.m) - 1
  | .plain => 0
/-- Put a sign on magnitude bits. -/
def signed (f : Fmt) (neg : Bool) (bits : Nat) : Nat := if neg then bits + 2 ^ (f.e + f.m) else bits

/-- Value of an element (R37, R38). -/
def decode (f : Fmt) (x : Nat) : Val :=
  let neg := x / 2 ^ (f.e + f.m) % 2 == 1
  let ex := x / 2 ^ f.m % 2 ^ f.e
  let fr := x % 2 ^ f.m
  let num := if ex = 0 then Val.fin neg fr f.qmin else .fin neg (2 ^ f.m + fr) (f.qmin + (ex : Int) - 1)
  match f.top with
  | .ieee => if ex = 2 ^ f.e - 1 then (if fr = 0 then .inf neg else .nan) else num
  | .nanOnly => if ex = 2 ^ f.e - 1 && fr == 2 ^ f.m - 1 then .nan else num
  | .plain => num

/-- The grid step under a magnitude m · 2^e (R44): the format extended with unbounded exponent. -/
def quantum (f : Fmt) (m : Nat) (e : Int) : Int := max f.qmin ((Nat.log2 m : Int) + e - (f.m : Int))
end Fmt

/-- Whether m · 2^e lies off the grid of step 2^q. -/
def offGrid (m : Nat) (e q : Int) : Bool := decide (e < q) && m % 2 ^ (q - e).toNat != 0

/-- Whether an inexact magnitude is rounded up (R43, R44): `k` the lower neighbour, `rem` of `den` the rest, `x` the
16 bits drawn under the stochastic mode. -/
def roundUp (r : Round) (neg : Bool) (k rem den x : Nat) : Bool :=
  match r with
  | .rne => decide (den < 2 * rem) || (2 * rem == den && k % 2 == 1)
  | .rtz => false
  | .rup => !neg
  | .rdn => neg
  | .rsr => if neg then !decide (x < (den - rem) * 65536 / den) else decide (x < rem * 65536 / den)

/-- A magnitude on the grid of step 2^q, rounded (R44). -/
def roundMag (r : Round) (neg : Bool) (m : Nat) (e q : Int) (x : Nat) : Nat :=
  if q ≤ e then m * 2 ^ (e - q).toNat
  else
    let den := 2 ^ (q - e).toNat
    let k := m / den
    let rem := m % den
    if rem ≠ 0 && roundUp r neg k rem den x then k + 1 else k

/-- The IEEE 754 overflow result is an infinity, not the largest finite value (R46). -/
def overInf (r : Round) (neg : Bool) : Bool :=
  match r with
  | .rne | .rsr => true
  | .rtz => false
  | .rup => !neg
  | .rdn => neg

/-- Bits of an overflowed or infinite value (R46); `isInf` for an infinite source. -/
def Fmt.overflow (f : Fmt) (r : Round) (sat neg isInf : Bool) : Nat :=
  if sat then f.signed neg f.maxBits
  else match f.top with
    | .ieee => if isInf || overInf r neg then f.signed neg f.infBits else f.signed neg f.maxBits
    | .nanOnly => if isInf || overInf r neg then f.nanBits else f.signed neg f.maxBits
    | .plain => f.signed neg f.maxBits

/-- Round a value once into a format (R44, R46); `x` is the stochastic draw. -/
def Fmt.encode (f : Fmt) (r : Round) (sat : Bool) (x : Nat) (v : Val) : Nat :=
  match v with
  | .nan => f.nanBits
  | .inf neg => f.overflow r sat neg true
  | .fin neg m e =>
    if m = 0 then f.signed neg 0
    else
      let q := f.quantum m e
      let bits := (q - f.qmin).toNat * 2 ^ f.m + roundMag r neg m e q x
      if f.maxBits < bits then f.overflow r sat neg false else f.signed neg bits

/-- Whether a conversion of the value rounds inexactly, and so draws from the generator (R45). -/
def Fmt.inexact (f : Fmt) (v : Val) : Bool :=
  match v with
  | .fin _ m e => m != 0 && offGrid m e (f.quantum m e)
  | _ => false

/-! ### Exact arithmetic -/

/-- Negation. -/
def Val.neg : Val → Val
  | .nan => .nan
  | .inf n => .inf (!n)
  | .fin n m e => .fin (!n) m e

/-- The signed integer of a finite value on the grid 2^e0. -/
def finInt (neg : Bool) (m : Nat) (e e0 : Int) : Int :=
  let a : Int := (m * 2 ^ (e - e0).toNat : Nat)
  if neg then -a else a

/-- A value from a signed integer times 2^e. -/
def ofInt (i : Int) (e : Int) : Val := .fin (decide (i < 0)) i.natAbs e

/-- Exact sum (R44); an exactly zero sum takes the IEEE 754 sign of the mode. -/
def Val.add (r : Round) : Val → Val → Val
  | .nan, _ | _, .nan => .nan
  | .inf a, .inf b => if a == b then .inf a else .nan
  | .inf a, _ | _, .inf a => .inf a
  | .fin n1 m1 e1, .fin n2 m2 e2 =>
    let e0 := min e1 e2
    let i := finInt n1 m1 e1 e0 + finInt n2 m2 e2 e0
    if i = 0 then (if m1 = 0 && m2 = 0 && n1 == n2 then .fin n1 0 e0 else .fin (r == .rdn) 0 e0) else ofInt i e0

/-- Exact product. -/
def Val.mul : Val → Val → Val
  | .nan, _ | _, .nan => .nan
  | .inf a, .inf b => .inf (a != b)
  | .inf a, .fin n m _ | .fin n m _, .inf a => if m = 0 then .nan else .inf (a != n)
  | .fin n1 m1 e1, .fin n2 m2 e2 => .fin (n1 != n2) (m1 * m2) (e1 + e2)

/-- Is the value a zero. -/
def Val.isZero : Val → Bool
  | .fin _ m _ => m == 0
  | _ => false
def Val.isNan : Val → Bool
  | .nan => true
  | _ => false
/-- The sign of a value. -/
def Val.sign : Val → Bool
  | .nan => false
  | .inf n => n
  | .fin n _ _ => n

/-- `a < b` under IEEE 754; false on NaN. -/
def Val.lt : Val → Val → Bool
  | .nan, _ | _, .nan => false
  | .inf a, .inf b => a && !b
  | .inf a, .fin _ _ _ => a
  | .fin _ _ _, .inf b => !b
  | .fin n1 m1 e1, .fin n2 m2 e2 =>
    let e0 := min e1 e2
    decide (finInt n1 m1 e1 e0 < finInt n2 m2 e2 e0)
/-- IEEE 754 equality; −0 equals +0. -/
def Val.eq : Val → Val → Bool
  | .nan, _ | _, .nan => false
  | a, b => !a.lt b && !b.lt a

/-- FMIN, and FMAX with `gt` (06 R125): the other operand when exactly one is NaN; −0 orders below +0. -/
def Val.minmax (mx : Bool) (a b : Val) : Val :=
  match a.isNan, b.isNan with
  | true, true => .nan
  | true, false => b
  | false, true => a
  | false, false =>
    let less := a.lt b || (a.eq b && a.sign && !b.sign)
    if less != mx then a else b

/-- Integer square root by bits: the largest r below 2^n with r² ≤ x. -/
def isqrt : Nat → Nat → Nat → Nat
  | 0, _, r => r
  | n + 1, x, r =>
    let c := r + 2 ^ n
    isqrt n x (if c * c ≤ x then c else r)

/-- Square root to more precision than any format holds, the last bit telling an inexact result (round to odd). -/
def Val.sqrt : Val → Val
  | .nan => .nan
  | .inf n => if n then .nan else .inf false
  | .fin n m e =>
    if m = 0 then .fin n 0 e
    else if n then .nan
    else
      let odd : Nat := (e % 2).toNat
      let x := m * 2 ^ (odd + 80)
      let r := isqrt 72 x 0
      .fin false (2 * r + b2n (r * r != x)) ((e - (odd : Int) - 80) / 2 - 1)

/-- Quotient of two naturals to more precision than F32 holds, the last bit telling an inexact result. -/
def ratio (neg : Bool) (num den : Nat) (e : Int) : Val :=
  if den = 0 then (if num = 0 then .nan else .inf neg)
  else
    let k := Nat.log2 den + 64
    let x := num * 2 ^ k
    .fin neg (2 * (x / den) + b2n (x % den != 0)) (e - (k : Int) - 1)

/-- Exact quotient of two values, to round once. -/
def Val.div : Val → Val → Val
  | .nan, _ | _, .nan => .nan
  | .inf _, .inf _ => .nan
  | .inf a, .fin n _ _ => .inf (a != n)
  | .fin n _ _, .inf a => .fin (a != n) 0 0
  | .fin n1 m1 e1, .fin n2 m2 e2 =>
    if m2 = 0 then (if m1 = 0 then .nan else .inf (n1 != n2)) else ratio (n1 != n2) m1 m2 (e1 - e2)

/-- Round to an integral magnitude (R47, 06 R125). -/
def Val.toIntegral (r : Round) (x : Nat) : Val → Val
  | .fin n m e => if 0 ≤ e then .fin n m e else .fin n (roundMag r n m e 0 x) 0
  | v => v

/-! ### Words and elements (R34) -/

/-- The floating format of a code, if it is one (R34). -/
def fmtOf (c : Nat) : Option Fmt :=
  match c with
  | 3 => some .f32 | 4 => some .f19 | 5 => some .bf16 | 6 => some .f16 | 7 | 19 => some .e4m3
  | 8 => some .e5m2 | 9 | 17 => some .e3m2 | 10 | 18 => some .e2m3 | 11 | 16 => some .e2m1
  | _ => none

/-- Whether an integer code is signed (R42). -/
def signedCode (c : Nat) : Bool := c == 1 || c == 12 || c == 14 || c == 15 || c == 20 || c == 21

/-- Element `j` of a word under a code (R34), as raw bits. -/
def elem (c : Nat) (w : Word) (j : Nat) : Nat :=
  if c = 4 then w.toNat / 2 ^ 13 else w.toNat / 2 ^ (elemWidth c * j) % 2 ^ elemWidth c
/-- A word from its elements (R34); unused container bits are zero. -/
def packElems (c : Nat) (es : List Nat) : Word :=
  if c = 4 then BitVec.ofNat 32 (es.headD 0 % 2 ^ 19 * 2 ^ 13)
  else BitVec.ofNat 32 (es.zipIdx.foldl (fun acc e => acc + e.1 % 2 ^ elemWidth c * 2 ^ (elemWidth c * e.2)) 0)
/-- Elements of a word. -/
def elems (c : Nat) (w : Word) : List Nat := (List.range (elemsPerWord c)).map (elem c w)
/-- An integer element's value (R42). -/
def elemInt (c x : Nat) : Int := if signedCode c then sextNat (elemWidth c) x else (x : Int)
/-- Range of an integer code (R42). -/
def intLo (c : Nat) : Int := if signedCode c then -((2 : Int) ^ (elemWidth c - 1)) else 0
def intHi (c : Nat) : Int := if signedCode c then (2 : Int) ^ (elemWidth c - 1) - 1 else (2 : Int) ^ elemWidth c - 1
/-- Low bits of an integer. -/
def wrapInt (c : Nat) (i : Int) : Nat := (i % ((2 : Int) ^ elemWidth c)).toNat
/-- Clamp an integer to a code's range (R42), as element bits. -/
def clampInt (c : Nat) (i : Int) : Nat := wrapInt c (max (intLo c) (min (intHi c) i))
/-- Clamp with SAT, else wrap (R42, R47). -/
def narrowInt (c : Nat) (sat : Bool) (i : Int) : Nat := if sat then clampInt c i else wrapInt c i

/-- An element's value under its code. -/
def elemVal (c x : Nat) : Val :=
  match fmtOf c with
  | some f => f.decode x
  | none => ofInt (elemInt c x) 0

/-! ### Conversion of one element (R47) -/

/-- Whether converting the element draws from the generator (R45). -/
def convInexact (src dst x : Nat) : Bool :=
  match fmtOf dst, fmtOf src with
  | some f, _ => f.inexact (elemVal src x)
  | none, some f => match f.decode x with
    | .fin _ m e => m != 0 && offGrid m e 0
    | _ => false
  | none, none => false

/-- One element converted (R44, R46, R47). -/
def convElem (src dst : Nat) (r : Round) (sat : Bool) (x draw : Nat) : Nat :=
  match fmtOf dst, fmtOf src with
  | some f, _ => f.encode r sat draw (elemVal src x)
  | none, some f => match f.decode x with
    | .nan => 0
    | .inf n => wrapInt dst (if n then intLo dst else intHi dst)
    | .fin n m e => match (Val.fin n m e).toIntegral r draw with
      | .fin n' m' e' => clampInt dst (finInt n' m' e' 0)
      | _ => 0
  | none, none => narrowInt dst sat (elemInt src x)

/-! ### The stochastic generator (R45) -/

/-- Seed of lane `i` (R45). -/
def rngSeed (z : Word) (i : Nat) : Word :=
  let x := z ^^^ (BitVec.ofNat 32 (i + 1) * 0x9E3779B9#32)
  if x = 0 then 1 else x
/-- The next state (R45). -/
def rngNext (x : Word) : Word :=
  let x := x ^^^ (x <<< 13)
  let x := x ^^^ (x >>> 17)
  x ^^^ (x <<< 5)

/-- Convert elements in ascending order, drawing for each inexact one under the stochastic mode (R45). -/
def convMany (src dst : Nat) (r : Round) (sat : Bool) : List Nat → Word → List Nat × Word
  | [], st => ([], st)
  | x :: rest, st =>
    let draw := r == .rsr && convInexact src dst x
    let st' := if draw then rngNext st else st
    let y := convElem src dst r sat x (st'.toNat / 65536)
    let (ys, st'') := convMany src dst r sat rest st'
    (y :: ys, st'')

/-! ### Words as F32 -/

def f32v (w : Word) : Val := Fmt.f32.decode w.toNat
/-- Round to F32 (R44, R46 with SAT clear). -/
def toF32 (r : Round) (v : Val) : Word := BitVec.ofNat 32 (Fmt.f32.encode r false 0 v)
def f32Add (r : Round) (a b : Word) : Word := toF32 r ((f32v a).add r (f32v b))
def f32Mul (a b : Word) : Word := toF32 .rne ((f32v a).mul (f32v b))
/-- Fused multiply-add, rounded once (R55). -/
def f32Fma (a b c : Word) : Word := toF32 .rne (((f32v a).mul (f32v b)).add .rne (f32v c))

/-- One stage of the Hadamard transform (R50). -/
def hadStage (h : Nat) (x : List Word) : List Word :=
  (List.range x.length).map fun j =>
    if j / h % 2 = 0 then f32Add .rne (x.getD j 0) (x.getD (j + h) 0)
    else toF32 .rne ((f32v (x.getD (j - h) 0)).add .rne (f32v (x.getD j 0)).neg)
/-- The transform of 16 or 32 values (R50). -/
def hadamard (x : List Word) : List Word :=
  let x := hadStage 8 (hadStage 4 (hadStage 2 (hadStage 1 x)))
  if x.length = 32 then hadStage 16 x else x

end Sys2Proof.Machine
end

