-- ==== Sys2Proof/Machine/Approx.lean ====
section
/-! DEFINITION. The functions of 06 R126: their special results, and the error bounds inside which the part's own value, a
free function of the input, stands. Fixed-point values carry `fx` fraction bits. -/

namespace Sys2Proof.Machine

/-- Fraction bits of the fixed-point evaluations. -/
abbrev fx : Nat := 160
/-- One in fixed point. -/
abbrev fxOne : Nat := 2 ^ fx

/-- A non-negative magnitude m · 2^e in fixed point, truncated. -/
def fxOf (m : Nat) (e : Int) : Nat :=
  let k := e + (fx : Int)
  if 0 ≤ k then m * 2 ^ k.toNat else m / 2 ^ (-k).toNat

/-- The exponent of a positive exact value's last place in F32. -/
def ulpExp (v : Val) : Int :=
  match v with
  | .fin _ m e => Fmt.f32.quantum m e
  | _ => 0

/-- A candidate's value, an infinity standing for 2^128. -/
def candVal (c : Word) : Val :=
  match f32v c with
  | .inf n => .fin n 1 128
  | v => v

/-- Whether |c − v| ≤ n · 2^q − 2^sl for finite values: with 2^sl bounding the error in the evaluation of `v`, the candidate lies within
n · 2^q of the exact value. -/
def nearBy (c v : Val) (n : Nat) (q sl : Int) : Bool :=
  match c, v with
  | .fin n1 m1 e1, .fin n2 m2 e2 =>
    let e0 := min (min e1 e2) (min q sl)
    decide ((finInt n1 m1 e1 e0 - finInt n2 m2 e2 e0).natAbs + 2 ^ (sl - e0).toNat ≤ n * 2 ^ (q - e0).toNat)
  | _, _ => false

/-- The part's value where it lies within `n` last places of the exact value `v`, else `v` rounded to nearest.
Assumption 29: DESIGN CHOICE. -/
def within (v : Val) (n : Nat) (q sl : Int) (cand : Word) : Word :=
  if nearBy (candVal cand) v n q sl then cand else toF32 .rne v

/-- The canonical NaN of F32 (R40). -/
abbrev nan32 : Word := 0x7FC00000
abbrev inf32 : Word := 0x7F800000
abbrev ninf32 : Word := 0xFF800000

/-- |c·m·2^e − 1| ≤ 2^q·m·2^e: the candidate lies within one last place 2^q of 1 / (m · 2^e). -/
def rcpNear (c : Val) (m : Nat) (e q : Int) : Bool :=
  match c with
  | .fin _ mc ec =>
    let e0 := min 0 (min (ec + e) (q + e))
    decide (((mc * m * 2 ^ (ec + e - e0).toNat : Nat) - (2 ^ (0 - e0).toNat : Nat) : Int).natAbs ≤ m * 2 ^ (q + e - e0).toNat)
  | _ => false

/-- FRCP. Assumption 29: DESIGN CHOICE. -/
def frcpVal (w : Word) : Word :=
  match f32v w with
  | .nan => nan32
  | .inf n => if n then 0x80000000 else 0
  | .fin n m e =>
    if m = 0 then (if n then ninf32 else inf32)
    else if (Val.fin false 1 126).lt (.fin false m e) then (if n then 0x80000000 else 0)
    else
      let v := ratio n 1 m (-e)
      let cand := (Config.frcp w &&& 0x7FFFFFFF) ||| (if n then 0x80000000#32 else 0)
      if m = 2 ^ Nat.log2 m then toF32 .rne v
      else if rcpNear (candVal cand) m e (ulpExp v) then cand else toF32 .rne v

/-- (c − u)²·x ≤ 1 ≤ (c + u)²·x with u = 2^q: the candidate lies within one last place of 1/√x. -/
def rsqNear (c : Val) (m : Nat) (e q : Int) : Bool :=
  match c with
  | .fin neg mc ec =>
    let e0 := min ec q
    let a : Int := (mc * 2 ^ (ec - e0).toNat : Nat)
    let u : Int := (2 ^ (q - e0).toNat : Nat)
    let k := 2 * e0 + e
    let scale := fun (y : Int) => y * y * (m : Int) * (2 ^ k.toNat : Nat)
    let one : Int := (2 ^ (-k).toNat : Nat)
    !neg && (decide (a ≤ u) || decide (scale (a - u) ≤ one)) && decide (one ≤ scale (a + u))
  | _ => false

/-- FRSQ. Assumption 29: DESIGN CHOICE. -/
def frsqVal (w : Word) : Word :=
  match f32v w with
  | .nan => nan32
  | .inf n => if n then nan32 else 0
  | .fin n m e =>
    if m = 0 then (if n then ninf32 else inf32)
    else if n then nan32
    else
      let v := Val.div (.fin false 1 0) (Val.fin false m e).sqrt
      if rsqNear (candVal (Config.frsq w)) m e (ulpExp v) then Config.frsq w else toF32 .rne v

/-! ### 2^x and log₂ x -/

/-- 2^f for a fixed-point fraction: the product of the roots 2^(2^-i) of its set bits. -/
def exp2Frac : Nat → Nat → Nat → Nat → Nat
  | 0, _, _, acc => acc
  | n + 1, f, root, acc =>
    let r := isqrt (fx + 2) (root * fxOne) 0
    exp2Frac n f r (if f.testBit n then acc * r / fxOne else acc)

/-- FEX2. Assumption 29: DESIGN CHOICE. -/
def fex2Val (w : Word) : Word :=
  match f32v w with
  | .nan => nan32
  | .inf n => if n then 0 else inf32
  | .fin n m e =>
    if (Val.fin false 128 0).lt (.fin n m e) || (Val.fin false 128 0).eq (.fin n m e) then inf32
    else if (Val.fin n m e).lt (.fin true 150 0) then 0
    else
      let i : Int := (if n then -(fxOf m e : Int) else fxOf m e)
      let whole := i / (fxOne : Int)
      let frac := (i % (fxOne : Int)).toNat
      if !offGrid m e 0 || m = 0 then
        (if -149 ≤ whole then toF32 .rne (.fin false 1 whole) else within (.fin false 1 whole) 2 (-149) (-400) (Config.fex2 w))
      else
        let v := Val.fin false (exp2Frac fx frac (2 * fxOne) fxOne) (whole - (fx : Int))
        within v 2 (ulpExp v) (whole - 120) (Config.fex2 w)

/-- Bits of log₂ of a fixed-point value in [1, 2), by repeated squaring. -/
def log2Frac : Nat → Nat → Nat → Nat
  | 0, _, acc => acc
  | n + 1, y, acc =>
    let z := y * y / fxOne
    if 2 * fxOne ≤ z then log2Frac n (z / 2) (2 * acc + 1) else log2Frac n z (2 * acc)

/-- FLG2. Assumption 29: DESIGN CHOICE. -/
def flg2Val (w : Word) : Word :=
  match f32v w with
  | .nan => nan32
  | .inf n => if n then nan32 else inf32
  | .fin n m e =>
    if m = 0 then ninf32
    else if n then nan32
    else
      let k := Nat.log2 m
      let whole : Int := (k : Int) + e
      if m = 2 ^ k then toF32 .rne (ofInt whole 0)
      else
        let fr := log2Frac 110 (m * 2 ^ (fx - k)) 0
        let v := ofInt (whole * (2 ^ 110 : Nat) + (fr : Int)) (-110)
        within v 2 (ulpExp v) (-100) (Config.flg2 w)

/-! ### sin and cos of turns -/

/-- 2π in fixed point with 64 fraction bits. -/
abbrev twoPi64 : Nat := 115904311329233965478

/-- Taylor terms of sin or cos from a term: each next one is −t·θ²/((k+1)(k+2)). -/
def taylor : Nat → Nat → Int → Int → Int → Int
  | 0, _, _, _, acc => acc
  | n + 1, k, t, sq, acc =>
    taylor n (k + 2) (-(t * sq / (2 ^ 64 : Nat)) / (((k + 1) * (k + 2) : Nat) : Int)) sq (acc + t)

/-- The fraction of a turn of |x| with 64 fraction bits. -/
def turnFrac (m : Nat) (e : Int) : Nat :=
  if 0 ≤ e then 0 else m % 2 ^ (-e).toNat * 2 ^ 64 / 2 ^ (-e).toNat

/-- sin(2πf) or cos(2πf) with 64 fraction bits, the angle brought to [−π, π). -/
def trig (cos : Bool) (f : Nat) : Int :=
  let t : Int := if f < 2 ^ 63 then (f : Int) else (f : Int) - (2 ^ 64 : Nat)
  let th := t * (twoPi64 : Int) / (2 ^ 64 : Nat)
  let sq := th * th / (2 ^ 64 : Nat)
  if cos then taylor 16 0 (2 ^ 64 : Nat) sq 0 else taylor 16 1 th sq 0

/-- FSIN. Assumption 29: DESIGN CHOICE. -/
def fsinVal (w : Word) : Word :=
  match f32v w with
  | .fin n m e =>
    if !offGrid m e (-1) then (if n then 0x80000000 else 0)
    else
      let s := trig false (turnFrac m e)
      within (ofInt (if n then -s else s) (-64)) 1 (-22) (-54) (Config.fsin w)
  | _ => nan32

/-- FCOS. Assumption 29: DESIGN CHOICE. -/
def fcosVal (w : Word) : Word :=
  match f32v w with
  | .fin _ m e =>
    if !offGrid m e 0 || m = 0 then 0x3F800000
    else if !offGrid m e (-2) && offGrid m e (-1) then 0
    else within (ofInt (trig true (turnFrac m e)) (-64)) 1 (-22) (-54) (Config.fcos w)
  | _ => nan32

end Sys2Proof.Machine
end

