-- ==== Sys2Proof/WellFormed.lean ====
section
/-! DEFINITION. Which terms of `Instr` stand for an encodable instruction: register pairs that begin at an even
register (03 R61), classes, formats and roundings that an entry accepts (03 R65, 06 R114). -/

namespace Sys2Proof

/-- A register that begins a pair (R12, R61). -/
def evenReg (r : SReg) : Bool := r.toNat % 2 == 0
/-- A rounding a non-conversion accepts (R43). -/
def plainRound : Round → Bool
  | .rsr => false
  | _ => true
/-- B forms v, s (R111). -/
def BSrc.noImm : BSrc → Bool
  | .imm _ => false
  | _ => true
/-- B forms s, imm (R160). -/
def BSrc.noVec : BSrc → Bool
  | .vec _ => false
  | _ => true
/-- A global base begins a pair (R61). -/
def Base.wf : Base → Bool
  | .glob r => evenReg r
  | .sp _ => true
/-- Integer classes of VADD (R116). -/
def intArith (c : Tag) : Bool := classIn [1, 2, 12, 13, 14, 15] c
/-- Integer classes of VMUL (R116). -/
def intWord (c : Tag) : Bool := classIn [1, 2] c
/-- Float classes of R124. -/
def floatCls (c : Tag) : Bool := classIn [3, 4] c
/-- Packed float classes of R127. -/
def packedCls (c : Tag) : Bool := classIn [5, 6] c
/-- Reduction classes of R160. -/
def redCls (c : Tag) : Bool := classIn [1, 2, 3] c
/-- OP against class (R166): bitwise operations take no F32. -/
def redOpOk (op : RedOp) (c : Tag) : Bool :=
  match op with
  | .and | .or | .xor => c.fcode != 3
  | _ => true
/-- Rounding of VRED and VSCAN (R166): free only for F32 add. -/
def redRound (op : RedOp) (c : Tag) (r : Round) : Bool :=
  if c.fcode == 3 && op == .add then plainRound r else r == .rne
/-- Scopes L, G. -/
def Scope.lg : Scope → Bool
  | .l | .g => true
  | _ => false
/-- Scopes L, G, S. -/
def Scope.lgs : Scope → Bool
  | .b => false
  | _ => true
/-- VOTE and VRED destinations: the per-slice form under L and G alone (R164). -/
def redDstOk (sc : Scope) : RedDst → Bool
  | .scal _ true => sc.lg
  | _ => true
/-- Sign extension is for bytes and halves (R134). -/
def sxOk (sz : Size) (sx : Bool) : Bool :=
  match sz with
  | .byte | .half => true
  | _ => !sx
/-- The ATOM classes of R248. -/
def atomCls (op : AtomOp) (c : Tag) : Bool :=
  match op with
  | .add | .and | .or | .xor => classIn [1, 2] c
  | .smin | .smax => classIn [1] c
  | .umin | .umax => classIn [2] c
  | .xchg | .cas => classIn [1, 2, 3] c
  | .fadd => classIn [3] c
/-- DW is not taken by fadd (R248). -/
def atomDw (op : AtomOp) (dw : Bool) : Bool := !(op == .fadd && dw)
/-- The tile-holder codes BCODE accepts (R289). -/
def bcodeOk (b : BitVec 5) : Bool := (4 ≤ b.toNat && b.toNat ≤ 13) || (16 ≤ b.toNat && b.toNat ≤ 21)
/-- The A classes of R260. -/
def aClass (c : Tag) : Bool := c.rot == 0 && 4 ≤ c.fcode && c.fcode ≤ 13
/-- A run begins at a multiple of 16 (R261). -/
def runOk (r : VReg) : Bool := r.toNat % 16 == 0
/-- Column count (R289). -/
def NCols.count : NCols → Nat
  | .c1 => 1 | .c2 => 2 | .c4 => 4 | .c8 => 8 | .c16 => 16 | .c32 => 32
/-- MVM's rotation is one its code carries (R289). -/
def brotOk (b : BitVec 5) (r : BitVec 2) : Bool := r == 0 || (r != 3 && rotatable b.toNat)
/-- A guard is for scope L (R289). -/
def EngCtl.okScope (sc : Scope) (e : EngCtl) : Bool := sc == .l || e.guard.isNone

/-- The well-formed terms: those the encoding tables of chapter 03 and of each entry admit. A step of the device
without an encoding is well-formed. -/
def Instr.wf : Instr → Bool
  | .saddpReg d a b => evenReg d && evenReg a && evenReg b
  | .saddpImm d a _ => evenReg d && evenReg a
  | .slea d _ => evenReg d
  | .sld _ a _ => evenReg a
  | .sst _ a _ => evenReg a
  | .sldD d a _ => evenReg d && evenReg a
  | .sstD d a _ => evenReg d && evenReg a
  | .jr a => evenReg a
  | .time d => evenReg d
  | .vadd _ _ _ c _ | .vsub _ _ _ c _ | .vmin _ _ _ c | .vmax _ _ _ c => intArith c
  | .vmul _ _ _ c _ | .vmad _ _ _ _ c => intWord c
  | .vabs _ _ c _ => classIn [1, 12, 14, 15] c
  | .vcmp _ _ b c _ => redCls c && (c.fcode != 3 || b.noImm)
  | .vbcs _ _ code | .vli _ _ code _ => vecCode code.toNat
  | .fadd _ _ b c r | .fsub _ _ b c r | .fmul _ _ b c r => b.noImm && floatCls c && plainRound r
  | .ffma _ _ b _ c r => b.noImm && floatCls c && plainRound r
  | .fmin _ _ b c | .fmax _ _ b c => b.noImm && floatCls c
  | .frnd _ _ c r => floatCls c && plainRound r
  | .fcls _ _ c => floatCls c
  | .fsqrt _ _ r => plainRound r
  | .padd _ _ b c _ r | .pmul _ _ b c r => b.noImm && packedCls c && plainRound r
  | .pfma _ _ b _ c _ r => b.noImm && packedCls c && plainRound r
  | .pmin _ _ b c | .pmax _ _ b c => b.noImm && packedCls c
  | .pdot2 _ _ b _ c r => b.noImm && packedCls c && plainRound r
  | .idot4 _ _ b _ c _ _ => b.noImm && classIn [12, 13] c
  | .cvt _ _ c dst _ _ =>
      vecTagOk c && c.fcode != 0 && vecCode dst.toNat && dst != 0 &&
        (c.rot == 0 || rotatable dst.toNat) && divides (elemsPerWord c.fcode) (elemsPerWord dst.toNat)
  | .cvth _ _ dst _ _ _ => 4 ≤ dst.toNat && dst.toNat ≤ 13
  | .cvtp _ _ c dst _ slot _ =>
      classIn [1, 2, 3, 4] c && vecCode dst.toNat && dst != 0 && decide (slot.toNat < elemsPerWord dst.toNat)
  | .vld _ base _ sz sx _ _ _ c _ => evenReg base && sxOk sz sx && vecTagOk c
  | .vst _ base _ _ _ _ _ _ => evenReg base
  | .qxch _ _ pat => pat != 0
  | .qddx _ _ _ c r | .qddy _ _ _ c r => floatCls c && plainRound r
  | .vote sc dst _ k => redDstOk sc dst && (k != .ballot || sc.lg)
  | .shfl sc _ _ _ _ => sc.lgs
  | .vred sc dst _ op c r => redDstOk sc dst && redCls c && redOpOk op c && redRound op c r
  | .vscan sc _ _ op _ c r => sc.lgs && redCls c && redOpOk op c && redRound op c r
  | .spawn _ _ base _ => evenReg base
  | .evsig n | .evclr n | .evwait n _ _ => n.noVec
  | .vldx _ base _ _ _ _ _ _ c _ => evenReg base && vecTagOk c
  | .vstx _ base _ _ _ _ _ _ => evenReg base
  | .spld _ _ _ sz sx _ _ _ _ c _ => sxOk sz sx && vecTagOk c
  | .atom _ _ base _ op dw _ _ _ _ c _ => base.wf && atomCls op c && atomDw op dw
  | .satom d a base c op dw _ _ _ _ =>
      base.wf && atomDw op dw && (op == .cas || c == 0) && (!dw || (evenReg d && evenReg a && evenReg c))
  | .waita _ _ base _ _ _ => base.wf
  | .mrecv _ _ _ _ _ c _ => vecTagOk c
  | .mqst _ k pos _ => k == .cred || pos == 0
  | .pref base _ _ _ _ _ => evenReg base
  | .cmaintL1inv _ base _ | .cmaintWb _ base _ | .cmaintWbinv _ base _ | .cmaintIcinv _ base _
  | .cmaintTlbinv _ base _ => evenReg base
  | .mma sc _ a _ bcode _ c e => sc.lgs && runOk a && bcodeOk bcode && aClass c && e.okScope sc
  | .mvm _ a _ bcode brot _ c _ => runOk a && bcodeOk bcode && brotOk bcode brot && aClass c
  | .tld _ base _ _ c _ => base.wf && tileTagOk c && c.rot == 0
  | .tst _ base _ _ _ => base.wf
  | .tzr _ c _ => tileTagOk c && c.rot == 0
  | .accz _ c _ => classIn [1, 3] c
  | .accrd _ _ n c0 _ | .accwr _ _ n c0 _ => c0.toNat % n.count == 0
  | .dsub base _ | .recfl base _ | .beamq _ base _ _ _ | .rayq _ base _ _ | .ellq _ base _ _ _ _ => evenReg base
  | .ringld _ _ _ _ c _ => vecCode c.fcode && c.rot == 0
  | .qrd _ _ w c => decide (w.toNat ≤ 16) && vecCode c.fcode && c.rot == 0
  | _ => true

end Sys2Proof
end

