-- ==== Sys2Proof/Decode.lean ====
section
/-! DEFINITION. Decoding and encoding: scalar words (03 R56 to R62), L-words and the lane byte stream (R63 to R76).
Decoding is total: a word or item the manual gives no meaning decodes to the step that raises its illegal-encoding
fault, by name (ILLEGAL_SCALAR_WORD, ILLEGAL_LANE_ITEM with the check number of R76). -/

namespace Sys2Proof

/-! ### Field codes -/

def Scope.code : Scope → BitVec 2 | .l => 0 | .g => 1 | .s => 2 | .b => 3
def Scope.ofCode (b : BitVec 2) : Scope := match b.toNat with | 0 => .l | 1 => .g | 2 => .s | _ => .b
def FlagSel.code : FlagSel → BitVec 2 | .none => 0 | .a => 1 | .b => 2
def FlagSel.ofCode (b : BitVec 2) : FlagSel := match b.toNat with | 1 => .a | 2 => .b | _ => .none
def Round.code : Round → BitVec 3 | .rne => 0 | .rtz => 1 | .rup => 2 | .rdn => 3 | .rsr => 4
def Round.ofCode (b : BitVec 3) : Round :=
  match b.toNat with | 1 => .rtz | 2 => .rup | 3 => .rdn | 4 => .rsr | _ => .rne
def MaskName.code : MaskName → BitVec 2 | .xm => 0 | .lm => 1 | .hm => 2
def MaskName.ofCode (b : BitVec 2) : MaskName := match b.toNat with | 0 => .xm | 1 => .lm | _ => .hm
def SCond.code : SCond → BitVec 3 | .eq => 0 | .ne => 1 | .lt => 2 | .ge => 3 | .ltu => 4 | .geu => 5
def SCond.ofCode (b : BitVec 3) : SCond :=
  match b.toNat with | 0 => .eq | 1 => .ne | 2 => .lt | 3 => .ge | 4 => .ltu | _ => .geu
def BCond.code : BCond → BitVec 2 | .eq => 0 | .ne => 1 | .lt => 2 | .ge => 3
def BCond.ofCode (b : BitVec 2) : BCond := match b.toNat with | 0 => .eq | 1 => .ne | 2 => .lt | _ => .ge
def GCond.code : GCond → BitVec 3
  | .eq => 0 | .ne => 1 | .lt => 2 | .ge => 3 | .gt => 4 | .le => 5 | .bs => 6 | .bc => 7
def GCond.ofCode (b : BitVec 3) : GCond :=
  match b.toNat with
  | 0 => .eq | 1 => .ne | 2 => .lt | 3 => .ge | 4 => .gt | 5 => .le | 6 => .bs | _ => .bc
def VCond.code : VCond → BitVec 4 | .eq => 0 | .ne => 1 | .lt => 2 | .ge => 3 | .gt => 4 | .le => 5
def VCond.ofCode (b : BitVec 4) : VCond :=
  match b.toNat with | 0 => .eq | 1 => .ne | 2 => .lt | 3 => .ge | 4 => .gt | _ => .le
def Special.code : Special → BitVec 4
  | .lane => 0 | .quad => 1 | .slice => 2 | .gang => 3 | .blkx => 4 | .blky => 5 | .blkz => 6 | .nblkx => 7
  | .nblky => 8 | .nblkz => 9 | .core => 10 | .cluster => 11 | .layer => 12
def Special.ofCode (b : BitVec 4) : Special :=
  match b.toNat with
  | 0 => .lane | 1 => .quad | 2 => .slice | 3 => .gang | 4 => .blkx | 5 => .blky | 6 => .blkz | 7 => .nblkx
  | 8 => .nblky | 9 => .nblkz | 10 => .core | 11 => .cluster | _ => .layer
def Size.code : Size → BitVec 2 | .byte => 0 | .half => 1 | .word => 2 | .dword => 3
def Size.ofCode (b : BitVec 2) : Size := match b.toNat with | 0 => .byte | 1 => .half | 2 => .word | _ => .dword
def VoteKind.code : VoteKind → BitVec 2 | .ballot => 0 | .any => 1 | .all => 2 | .eq => 3
def VoteKind.ofCode (b : BitVec 2) : VoteKind :=
  match b.toNat with | 0 => .ballot | 1 => .any | 2 => .all | _ => .eq
def ShflMode.code : ShflMode → BitVec 2 | .idx => 0 | .up => 1 | .down => 2 | .xor => 3
def ShflMode.ofCode (b : BitVec 2) : ShflMode := match b.toNat with | 0 => .idx | 1 => .up | 2 => .down | _ => .xor
def RedOp.code : RedOp → BitVec 3 | .add => 0 | .min => 1 | .max => 2 | .and => 3 | .or => 4 | .xor => 5
def RedOp.ofCode (b : BitVec 3) : RedOp :=
  match b.toNat with | 0 => .add | 1 => .min | 2 => .max | 3 => .and | 4 => .or | _ => .xor
def MScope.code : MScope → BitVec 3 | .gang => 0 | .block => 1 | .cluster => 2 | .device => 3 | .system => 4
def MScope.ofCode (b : BitVec 3) : MScope :=
  match b.toNat with | 0 => .gang | 1 => .block | 2 => .cluster | 3 => .device | _ => .system
def AtomOp.code : AtomOp → BitVec 4
  | .add => 0 | .and => 1 | .or => 2 | .xor => 3 | .smin => 4 | .smax => 5 | .umin => 6 | .umax => 7 | .xchg => 8
  | .cas => 9 | .fadd => 10
def AtomOp.ofCode (b : BitVec 4) : AtomOp :=
  match b.toNat with
  | 0 => .add | 1 => .and | 2 => .or | 3 => .xor | 4 => .smin | 5 => .smax | 6 => .umin | 7 => .umax | 8 => .xchg
  | 9 => .cas | _ => .fadd
def Ord.code : Ord → BitVec 2 | .rlx => 0 | .acq => 1 | .rel => 2 | .acqrel => 3
def Ord.ofCode (b : BitVec 2) : Ord := match b.toNat with | 0 => .rlx | 1 => .acq | 2 => .rel | _ => .acqrel
def FenceKind.code : FenceKind → BitVec 2 | .acq => 0 | .rel => 1 | .full => 2
def FenceKind.ofCode (b : BitVec 2) : FenceKind := match b.toNat with | 0 => .acq | 1 => .rel | _ => .full
def MsgSize.code : MsgSize → BitVec 3 | .s16 => 0 | .s32 => 1 | .s64 => 2 | .s128 => 3 | .s256 => 4
def MsgSize.ofCode (b : BitVec 3) : MsgSize :=
  match b.toNat with | 0 => .s16 | 1 => .s32 | 2 => .s64 | 3 => .s128 | _ => .s256
def Span.code : Span → BitVec 2 | .x2 => 0 | .x4 => 1 | .x8 => 2
def Span.ofCode (b : BitVec 2) : Span := match b.toNat with | 0 => .x2 | 1 => .x4 | _ => .x8
def PrefKind.code : PrefKind → BitVec 2 | .l1 => 0 | .l2 => 1 | .res => 2
def PrefKind.ofCode (b : BitVec 2) : PrefKind := match b.toNat with | 0 => .l1 | 1 => .l2 | _ => .res
def NCols.code : NCols → BitVec 3 | .c1 => 0 | .c2 => 1 | .c4 => 2 | .c8 => 3 | .c16 => 4 | .c32 => 5
def NCols.ofCode (b : BitVec 3) : NCols :=
  match b.toNat with | 0 => .c1 | 1 => .c2 | 2 => .c4 | 3 => .c8 | 4 => .c16 | _ => .c32
/-- One bit of a flag of an encoding. -/
def bit (b : Bool) : BitVec 1 := if b then 1 else 0

/-! ### Scalar words -/

/-- The ALU group, major 0x00 (R58). -/
def decodeAlu (w : Word) (d a b : SReg) (func : Nat) : Instr :=
  match func with
  | 0x00 => .saddReg d a b
  | 0x01 => .ssub d a b
  | 0x02 => .smul d a b
  | 0x03 => .sdiv d a b
  | 0x04 => .srem d a b
  | 0x05 => .sandReg d a b
  | 0x06 => .sorReg d a b
  | 0x07 => .sxorReg d a b
  | 0x08 => .sandn d a b
  | 0x09 => .sshlReg d a b
  | 0x0A => .sshrReg d a b
  | 0x0B => .ssraReg d a b
  | 0x0C => .smin d a b
  | 0x0D => .smax d a b
  | 0x0E => if b = 0 then .sclz d a else .illegalScalarWord w
  | 0x0F => if b = 0 then .spopc d a else .illegalScalarWord w
  | 0x10 => if evenReg d && evenReg a && evenReg b then .saddpReg d a b else .illegalScalarWord w
  | 0x18 => .scmp .eq d a b
  | 0x19 => .scmp .ne d a b
  | 0x1A => .scmp .lt d a b
  | 0x1B => .scmp .ge d a b
  | 0x1C => .scmp .ltu d a b
  | 0x1D => .scmp .geu d a b
  | f => if 0x40 ≤ f && f ≤ 0x7F then .ssel d a b (BitVec.ofNat 6 f) else .illegalScalarWord w

/-- The mask group, major 0x1A (R59). -/
def decodeMask (w : Word) (d a b : SReg) (func : BitVec 8) : Instr :=
  let m := MaskName.ofCode (func.extractLsb' 0 2)
  if func.extractLsb' 0 2 = 3 then .illegalScalarWord w
  else if b ≠ 0 then .illegalScalarWord w
  else match (func.extractLsb' 2 6).toNat with
    | 0 => if a = 0 then .mrd d m else .illegalScalarWord w
    | 1 => if d = 0 then .mwr a m else .illegalScalarWord w
    | 2 => if d = 0 then .mopAnd a m else .illegalScalarWord w
    | 3 => if d = 0 then .mopOr a m else .illegalScalarWord w
    | 4 => if d = 0 then .mopAndn a m else .illegalScalarWord w
    | 5 => if d = 0 then .mopXor a m else .illegalScalarWord w
    | _ => .illegalScalarWord w

/-- The system group, major 0x3C (R59). -/
def decodeSystem (w : Word) : Instr :=
  let rest := w.extractLsb' 8 18
  match (w.extractLsb' 0 8).toNat with
  | 0x00 => if rest = 0 then .nop else .illegalScalarWord w
  | 0x01 => if rest = 0 then .vdrain else .illegalScalarWord w
  | 0x02 => if rest = 0 then .tret else .illegalScalarWord w
  | 0x03 => if rest = 0 then .pdone else .illegalScalarWord w
  | 0x04 => if rest = 0 then .gend else .illegalScalarWord w
  | 0x05 => if rest = 0 then .brk else .illegalScalarWord w
  | 0x06 =>
    if w.extractLsb' 8 12 = 0 && evenReg (w.extractLsb' 20 6) then .time (w.extractLsb' 20 6)
    else .illegalScalarWord w
  | 0x07 => if w.extractLsb' 20 6 = 0 then .trap (w.extractLsb' 8 12) else .illegalScalarWord w
  | _ => .illegalScalarWord w

/-- The guard fields of a VRUN (R60): none where GE and G disagree with the table. -/
def decodeGuard (w : Word) : Option (Option GSlot) :=
  if w.extractLsb' 25 1 = 1 then some (some (w.extractLsb' 21 4))
  else if w.extractLsb' 21 4 = 0 then some none else none

/-- Decode a scalar word (R57). Assumption 69: DEDUCED. -/
def decodeScalar (w : Word) : Instr :=
  let d : SReg := w.extractLsb' 20 6
  let a : SReg := w.extractLsb' 14 6
  let b : SReg := w.extractLsb' 8 6
  let i := w.extractLsb' 0 14
  let i20 := w.extractLsb' 0 20
  match (w.extractLsb' 26 6).toNat with
  | 0x00 => decodeAlu w d a b (w.extractLsb' 0 8).toNat
  | 0x01 => .saddImm d a i
  | 0x02 => .sandImm d a i
  | 0x03 => .sorImm d a i
  | 0x04 => .sxorImm d a i
  | 0x05 => if w.extractLsb' 5 9 = 0 then .sshlImm d a (w.extractLsb' 0 5) else .illegalScalarWord w
  | 0x06 => if w.extractLsb' 5 9 = 0 then .sshrImm d a (w.extractLsb' 0 5) else .illegalScalarWord w
  | 0x07 => if w.extractLsb' 5 9 = 0 then .ssraImm d a (w.extractLsb' 0 5) else .illegalScalarWord w
  | 0x08 =>
    if w.extractLsb' 10 4 = 0 then .sbfx d a (w.extractLsb' 5 5) (w.extractLsb' 0 5) else .illegalScalarWord w
  | 0x09 =>
    if w.extractLsb' 10 4 = 0 then .sbfi d a (w.extractLsb' 5 5) (w.extractLsb' 0 5) else .illegalScalarWord w
  | 0x0A => if evenReg d && evenReg a then .saddpImm d a i else .illegalScalarWord w
  | 0x0C => .slui d i20
  | 0x0D => if evenReg d then .slea d i20 else .illegalScalarWord w
  | 0x10 => if evenReg a then .sld d a i else .illegalScalarWord w
  | 0x11 => if evenReg d && evenReg a then .sldD d a i else .illegalScalarWord w
  | 0x12 => if evenReg a then .sst d a i else .illegalScalarWord w
  | 0x13 => if evenReg d && evenReg a then .sstD d a i else .illegalScalarWord w
  | 0x18 => if w.extractLsb' 8 12 = 0 then .krd d (w.extractLsb' 0 8) else .illegalScalarWord w
  | 0x19 => if w.extractLsb' 8 12 = 0 then .kwr d (w.extractLsb' 0 8) else .illegalScalarWord w
  | 0x1A => decodeMask w d a b (w.extractLsb' 0 8)
  | 0x20 =>
    if w.extractLsb' 20 1 = 0 then
      match decodeGuard w with
      | some g => .vrunOffset g i20
      | none => .illegalScalarWord w
    else .illegalScalarWord w
  | 0x21 =>
    if w.extractLsb' 20 1 = 0 && i = 0 then
      match decodeGuard w with
      | some g => .vrunRegister g a
      | none => .illegalScalarWord w
    else .illegalScalarWord w
  | 0x23 =>
    if w.extractLsb' 0 13 = 0 then
      .gset (w.extractLsb' 22 4) (GCond.ofCode (w.extractLsb' 19 3)) (w.extractLsb' 13 6)
    else .illegalScalarWord w
  | 0x24 => if w.extractLsb' 0 22 = 0 then .gclr (w.extractLsb' 22 4) else .illegalScalarWord w
  | 0x25 => if w.extractLsb' 12 14 = 0 then .waitf (w.extractLsb' 0 12) else .illegalScalarWord w
  | 0x28 => .br (w.extractLsb' 0 26)
  | 0x29 => .call (w.extractLsb' 0 26)
  | 0x2A =>
    .bcSigned (BCond.ofCode (w.extractLsb' 24 2)) (w.extractLsb' 18 6) (w.extractLsb' 12 6) (w.extractLsb' 0 12)
  | 0x2B =>
    if w.extractLsb' 25 1 = 0 then
      .bcUnsigned (w.extractLsb' 24 1 = 1) (w.extractLsb' 18 6) (w.extractLsb' 12 6) (w.extractLsb' 0 12)
    else .illegalScalarWord w
  | 0x2C =>
    if w.extractLsb' 24 2 = 3 || w.extractLsb' 12 12 ≠ 0 then .illegalScalarWord w
    else .bzm (MaskName.ofCode (w.extractLsb' 24 2)) (w.extractLsb' 0 12)
  | 0x2D =>
    if w.extractLsb' 24 2 = 0 && w.extractLsb' 12 6 = 0 then
      .loop (w.extractLsb' 18 6) (w.extractLsb' 0 12)
    else .illegalScalarWord w
  | 0x2E => if d = 0 && i = 0 && evenReg a then .jr a else .illegalScalarWord w
  | 0x2F => if w.extractLsb' 0 26 = 0 then .ret else .illegalScalarWord w
  | 0x3C => decodeSystem w
  | 0x3D => .scalarReservedNop3D (w.extractLsb' 0 26)
  | 0x3E => .scalarReservedNop3E (w.extractLsb' 0 26)
  | _ => .illegalScalarWord w

/-- The guard bits of a VRUN word: GE, then G (R60). -/
def encodeGuard : Option GSlot → BitVec 5
  | none => 0
  | some g => 1#1 ++ g

/-- S3 format (R56). -/
def encS3 (major : BitVec 6) (d a b : SReg) (func : BitVec 8) : Word := major ++ d ++ a ++ b ++ func
/-- SI format (R56). -/
def encSI (major : BitVec 6) (d a : SReg) (i : BitVec 14) : Word := major ++ d ++ a ++ i
/-- SU format (R56). -/
def encSU (major : BitVec 6) (d : SReg) (i : BitVec 20) : Word := major ++ d ++ i
/-- SB format (R56). -/
def encSB (major : BitVec 6) (c : BitVec 2) (a b : SReg) (o : BitVec 12) : Word := major ++ c ++ a ++ b ++ o
/-- SJ format (R56). -/
def encSJ (major : BitVec 6) (o : BitVec 26) : Word := major ++ o
/-- Mask group word (R59). -/
def encMask (d a : SReg) (op : BitVec 6) (m : MaskName) : Word := encS3 0x1A d a 0 (op ++ m.code)
/-- System group word (R59). -/
def encSys (rest : BitVec 18) (func : BitVec 8) : Word := 0x3C#6 ++ rest ++ func

/-- The word of a scalar instruction (R57 to R60); none for lane instructions and device steps. -/
def encodeScalar : Instr → Option Word
  | .saddReg d a b => some (encS3 0 d a b 0x00)
  | .ssub d a b => some (encS3 0 d a b 0x01)
  | .smul d a b => some (encS3 0 d a b 0x02)
  | .sdiv d a b => some (encS3 0 d a b 0x03)
  | .srem d a b => some (encS3 0 d a b 0x04)
  | .sandReg d a b => some (encS3 0 d a b 0x05)
  | .sorReg d a b => some (encS3 0 d a b 0x06)
  | .sxorReg d a b => some (encS3 0 d a b 0x07)
  | .sandn d a b => some (encS3 0 d a b 0x08)
  | .sshlReg d a b => some (encS3 0 d a b 0x09)
  | .sshrReg d a b => some (encS3 0 d a b 0x0A)
  | .ssraReg d a b => some (encS3 0 d a b 0x0B)
  | .smin d a b => some (encS3 0 d a b 0x0C)
  | .smax d a b => some (encS3 0 d a b 0x0D)
  | .sclz d a => some (encS3 0 d a 0 0x0E)
  | .spopc d a => some (encS3 0 d a 0 0x0F)
  | .saddpReg d a b => some (encS3 0 d a b 0x10)
  | .scmp c d a b => some (encS3 0 d a b (0b00011#5 ++ c.code))
  | .ssel d a b s => some (encS3 0 d a b (0b01#2 ++ s))
  | .saddImm d a i => some (encSI 0x01 d a i)
  | .sandImm d a i => some (encSI 0x02 d a i)
  | .sorImm d a i => some (encSI 0x03 d a i)
  | .sxorImm d a i => some (encSI 0x04 d a i)
  | .sshlImm d a n => some (encSI 0x05 d a (0#9 ++ n))
  | .sshrImm d a n => some (encSI 0x06 d a (0#9 ++ n))
  | .ssraImm d a n => some (encSI 0x07 d a (0#9 ++ n))
  | .sbfx d a l p => some (encSI 0x08 d a (0#4 ++ l ++ p))
  | .sbfi d a l p => some (encSI 0x09 d a (0#4 ++ l ++ p))
  | .saddpImm d a i => some (encSI 0x0A d a i)
  | .slui d i => some (encSU 0x0C d i)
  | .slea d i => some (encSU 0x0D d i)
  | .sld d a i => some (encSI 0x10 d a i)
  | .sldD d a i => some (encSI 0x11 d a i)
  | .sst d a i => some (encSI 0x12 d a i)
  | .sstD d a i => some (encSI 0x13 d a i)
  | .krd d k => some (encSI 0x18 d 0 (0#6 ++ k))
  | .kwr d k => some (encSI 0x19 d 0 (0#6 ++ k))
  | .mrd d m => some (encMask d 0 0 m)
  | .mwr a m => some (encMask 0 a 1 m)
  | .mopAnd a m => some (encMask 0 a 2 m)
  | .mopOr a m => some (encMask 0 a 3 m)
  | .mopAndn a m => some (encMask 0 a 4 m)
  | .mopXor a m => some (encMask 0 a 5 m)
  | .vrunOffset g o => some (0x20#6 ++ encodeGuard g ++ 0#1 ++ o)
  | .vrunRegister g a => some (0x21#6 ++ encodeGuard g ++ 0#1 ++ a ++ 0#14)
  | .gset s c a => some (0x23#6 ++ s ++ c.code ++ a ++ 0#13)
  | .gclr s => some (0x24#6 ++ s ++ 0#22)
  | .waitf m => some (0x25#6 ++ 0#14 ++ m)
  | .br o => some (encSJ 0x28 o)
  | .call o => some (encSJ 0x29 o)
  | .bcSigned c a b o => some (encSB 0x2A c.code a b o)
  | .bcUnsigned c a b o => some (encSB 0x2B (0#1 ++ bit c) a b o)
  | .bzm m o => some (encSB 0x2C m.code 0 0 o)
  | .loop a o => some (encSB 0x2D 0 a 0 o)
  | .jr a => some (encS3 0x2E 0 a 0 0)
  | .ret => some (encSJ 0x2F 0)
  | .nop => some (encSys 0 0x00)
  | .vdrain => some (encSys 0 0x01)
  | .tret => some (encSys 0 0x02)
  | .pdone => some (encSys 0 0x03)
  | .gend => some (encSys 0 0x04)
  | .brk => some (encSys 0 0x05)
  | .time d => some (encSys (d ++ 0#12) 0x06)
  | .trap c => some (encSys (0#6 ++ c) 0x07)
  | .scalarReservedNop3D x => some (0x3D#6 ++ x)
  | .scalarReservedNop3E x => some (0x3E#6 ++ x)
  | _ => none

/-! ### L-words -/

/-- The fields of an L-word (R63). -/
structure LWord where
  opcode : BitVec 10
  scope : BitVec 2
  vd : Byte
  va : Byte
  vb : Byte
  vc : Byte
  modi : Byte
  flag : BitVec 2
  reuse : BitVec 1
  guard : BitVec 1
  cls : Tag
  rnd : BitVec 3
  ext : BitVec 30
  deriving DecidableEq, Repr

/-- Read the 96 bits of an L-word (R63). -/
def LWord.ofBits (w : BitVec 96) : LWord where
  opcode := w.extractLsb' 86 10
  scope := w.extractLsb' 84 2
  vd := w.extractLsb' 76 8
  va := w.extractLsb' 68 8
  vb := w.extractLsb' 60 8
  vc := w.extractLsb' 52 8
  modi := w.extractLsb' 44 8
  flag := w.extractLsb' 42 2
  reuse := w.extractLsb' 41 1
  guard := w.extractLsb' 40 1
  cls := w.extractLsb' 33 7
  rnd := w.extractLsb' 30 3
  ext := w.extractLsb' 0 30

/-- The 96 bits of an L-word (R63). -/
def LWord.toBits (w : LWord) : BitVec 96 :=
  w.opcode ++ w.scope ++ w.vd ++ w.va ++ w.vb ++ w.vc ++ w.modi ++ w.flag ++ w.reuse ++ w.guard ++ w.cls ++ w.rnd
    ++ w.ext

/-- What a register field must name (R64): unused, vector, scalar, even scalar, accumulator, tile, A run. -/
inductive FClass where | z | v | s | sp | a | t | run
  deriving DecidableEq, Repr

/-- A field obeys its class (R64, R61, R261). -/
def FClass.ok : FClass → Byte → Bool
  | .z, f => f == 0
  | .v, _ => true
  | .s, f => f.toNat < 64
  | .sp, f => decide (f.toNat < 64) && f.toNat % 2 == 0
  | .a, f => f.toNat < 8
  | .t, f => f.toNat < 16
  | .run, f => f.toNat % 16 == 0

/-- Bits `lo` to `lo + n - 1` of the modifier as a number. -/
def LWord.m (w : LWord) (lo n : Nat) : Nat := (w.modi.toNat / 2 ^ lo) % 2 ^ n
/-- Bits `lo` to `lo + n - 1` of ext as a number. -/
def LWord.x (w : LWord) (lo n : Nat) : Nat := (w.ext.toNat / 2 ^ lo) % 2 ^ n
/-- The modifier holds nothing at or above bit `n`. -/
def LWord.mTop (w : LWord) (n : Nat) : Bool := decide (w.modi.toNat < 2 ^ n)
/-- Ext[25:0] holds nothing at or above bit `n`. -/
def LWord.xTop (w : LWord) (n : Nat) : Bool := decide (w.ext.toNat % 2 ^ 26 < 2 ^ n)
/-- Class of vb under BSRC in modifier[1:0] (R111). An opcode without the immediate form checks its register fields first all the same:
BSRC 2 with a non-zero vb then reports check 4, not 5. Assumption 80: DESIGN CHOICE. -/
def LWord.bClass (w : LWord) : FClass :=
  match w.m 0 2 with | 0 => .v | 1 => .s | 2 => .z | _ => .v
/-- Ext for a B operand (R111): an immediate only with BSRC 2. -/
def LWord.bExt (w : LWord) : Bool := w.m 0 2 == 2 || w.xTop 0

/-- What one opcode accepts: the rows of R116, R124, R127, R129, R134, R160, R242, R289, R374. -/
structure OpSpec where
  /-- scopes accepted, as codes -/
  scopes : List Nat := [0]
  vd : FClass := .z
  va : FClass := .z
  vb : FClass := .z
  vc : FClass := .z
  modOk : Bool := true
  extOk : Bool := true
  flagOk : Bool := false
  guardOk : Bool := false
  reuseOk : Bool := false
  /-- the class field is one the entry accepts -/
  clsOk : Bool := true
  /-- the rounding field is one the entry accepts -/
  rndOk : Bool := true
  /-- default class of an L4 (R71) -/
  dflt : Option Tag := none


/-- CVT's modifier conditions that involve the source class (R129, R130): a destination code of a vector register
other than RAW, a rotation it can carry, and element counts of which one divides the other. -/
def cvtModOk (cls : Tag) (dst : Nat) : Bool :=
  vecCode dst && dst != 0 && (cls.rot == 0 || rotatable dst) &&
    (!(vecTagOk cls && cls.fcode != 0) || divides (elemsPerWord cls.fcode) (elemsPerWord dst))

/-- Register class a tag instruction's modifier[2:1] names (R129). -/
def tagClass (n : Nat) : FClass := match n with | 1 => .a | 2 => .t | _ => .v

/-- What an assigned opcode accepts of the L-word `w` (R67); `sys` is the gang's privilege, which CMAINT (R257) and
PGREQ (R374) check at check 5. None for an unassigned opcode. Assumption 17: DEDUCED. -/
def opSpec (sys : Bool) (w : LWord) : Option OpSpec :=
  match w.opcode.toNat with
  | 0x0 | 0x1 =>
    some { vd := .v, va := .v, vb := w.bClass, modOk := w.m 0 2 != 3 && w.mTop 3, extOk := w.bExt, clsOk := intArith w.cls, rndOk := w.rnd == 0, dflt := some 1 }
  | 0x2 =>
    some { vd := .v, va := .v, vb := w.bClass, modOk := w.m 0 2 != 3 && w.m 2 1 == 0 && w.mTop 4, extOk := w.bExt, clsOk := intWord w.cls, rndOk := w.rnd == 0, dflt := some 1 }
  | 0x3 =>
    some { vd := .v, va := .v, vb := w.bClass, vc := .v, modOk := w.m 0 2 != 3 && w.mTop 2, extOk := w.bExt, clsOk := intWord w.cls, rndOk := w.rnd == 0, dflt := some 1 }
  | 0x4 | 0x5 | 0x6 | 0x7 | 0x8 | 0x9 | 0xa =>
    some { vd := .v, va := .v, vb := w.bClass, modOk := w.m 0 2 != 3 && w.mTop 2, extOk := w.bExt, clsOk := w.cls == 0, rndOk := w.rnd == 0, dflt := some 0 }
  | 0xb | 0xc =>
    some { vd := .v, va := .v, vb := w.bClass, modOk := w.m 0 2 != 3 && w.mTop 2, extOk := w.bExt, clsOk := intArith w.cls, rndOk := w.rnd == 0, dflt := some 1 }
  | 0xd =>
    some { vd := .v, va := .v, modOk := w.m 0 2 == 0 && w.mTop 3, extOk := w.xTop 0, clsOk := classIn [1, 12, 14, 15] w.cls, rndOk := w.rnd == 0, dflt := some 1 }
  | 0xe | 0xf =>
    some { vd := .v, va := .v, modOk := w.mTop 0, extOk := w.xTop 0, clsOk := w.cls == 0, rndOk := w.rnd == 0, dflt := some 0 }
  | 0x10 =>
    some { vd := .v, va := .v, modOk := w.mTop 1, extOk := w.xTop 10, clsOk := w.cls == 0, rndOk := w.rnd == 0, dflt := some 0 }
  | 0x11 =>
    some { vd := .v, va := .v, modOk := w.mTop 0, extOk := w.xTop 10, clsOk := w.cls == 0, rndOk := w.rnd == 0, dflt := some 0 }
  | 0x12 | 0x14 =>
    some { vd := .v, va := .v, vb := w.bClass, vc := .v, modOk := w.m 0 2 != 3 && w.mTop 2, extOk := w.bExt, clsOk := w.cls == 0, rndOk := w.rnd == 0, dflt := some 0 }
  | 0x13 =>
    some { vd := if w.m 2 2 == 1 || w.m 2 2 == 2 then .z else .v, va := .v, vb := w.bClass, modOk := (decide (w.m 0 2 ≤ 1) || (w.m 0 2 == 2 && intWord w.cls)) && w.m 2 2 != 3 && decide (w.m 4 4 ≤ 5), extOk := w.bExt, clsOk := redCls w.cls, rndOk := w.rnd == 0, dflt := some 1 }
  | 0x15 =>
    some { vd := if w.m 2 2 == 1 then .s else .v, va := .v, modOk := w.m 0 2 == 0 && decide (w.m 2 2 ≤ 1) && w.mTop 4, extOk := if w.m 2 2 == 1 then w.xTop 5 else w.xTop 0, clsOk := w.cls == 0, rndOk := w.rnd == 0, dflt := some 0 }
  | 0x16 =>
    some { vd := .v, va := .s, modOk := w.mTop 5 && vecCode (w.m 0 5), extOk := w.xTop 0, clsOk := w.cls == 0, rndOk := w.rnd == 0, dflt := some 0 }
  | 0x17 =>
    some { vd := .v, modOk := w.mTop 6 && vecCode (w.m 0 5), extOk := true, clsOk := w.cls == 0, rndOk := w.rnd == 0, dflt := some 0 }
  | 0x18 =>
    some { vd := .v, modOk := w.mTop 0, extOk := w.xTop 4 && decide (w.x 0 4 ≤ 12), clsOk := w.cls == 0, rndOk := w.rnd == 0, dflt := some 0 }
  | 0x20 | 0x21 | 0x22 =>
    some { vd := .v, va := .v, vb := w.bClass, modOk := decide (w.m 0 2 ≤ 1) && w.mTop 2, extOk := w.xTop 0, clsOk := floatCls w.cls, rndOk := decide (w.rnd.toNat ≤ 3), dflt := some 3 }
  | 0x23 =>
    some { vd := .v, va := .v, vb := w.bClass, vc := .v, modOk := decide (w.m 0 2 ≤ 1) && w.mTop 2, extOk := w.xTop 0, clsOk := floatCls w.cls, rndOk := decide (w.rnd.toNat ≤ 3), dflt := some 3 }
  | 0x24 | 0x25 =>
    some { vd := .v, va := .v, vb := w.bClass, modOk := decide (w.m 0 2 ≤ 1) && w.mTop 2, extOk := w.xTop 0, clsOk := floatCls w.cls, rndOk := w.rnd == 0, dflt := some 3 }
  | 0x26 =>
    some { vd := .v, va := .v, modOk := w.mTop 0, extOk := w.xTop 0, clsOk := floatCls w.cls, rndOk := decide (w.rnd.toNat ≤ 3), dflt := some 3 }
  | 0x27 =>
    some { vd := .v, va := .v, modOk := w.mTop 0, extOk := w.xTop 0, clsOk := floatCls w.cls, rndOk := w.rnd == 0, dflt := some 3 }
  | 0x28 | 0x29 | 0x2b | 0x2c | 0x2d | 0x2e =>
    some { vd := .v, va := .v, modOk := w.mTop 0, extOk := w.xTop 0, clsOk := w.cls == 3, rndOk := w.rnd == 0, dflt := some 3 }
  | 0x2a =>
    some { vd := .v, va := .v, modOk := w.mTop 0, extOk := w.xTop 0, clsOk := w.cls == 3, rndOk := decide (w.rnd.toNat ≤ 3), dflt := some 3 }
  | 0x30 =>
    some { vd := .v, va := .v, vb := w.bClass, modOk := decide (w.m 0 2 ≤ 1) && w.m 2 1 == 0 && w.mTop 4, extOk := w.xTop 0, clsOk := packedCls w.cls, rndOk := decide (w.rnd.toNat ≤ 3), dflt := some 5 }
  | 0x31 =>
    some { vd := .v, va := .v, vb := w.bClass, modOk := decide (w.m 0 2 ≤ 1) && w.mTop 2, extOk := w.xTop 0, clsOk := packedCls w.cls, rndOk := decide (w.rnd.toNat ≤ 3), dflt := some 5 }
  | 0x32 =>
    some { vd := .v, va := .v, vb := w.bClass, vc := .v, modOk := decide (w.m 0 2 ≤ 1) && w.m 2 1 == 0 && w.mTop 4, extOk := w.xTop 0, clsOk := packedCls w.cls, rndOk := decide (w.rnd.toNat ≤ 3), dflt := some 5 }
  | 0x33 | 0x34 =>
    some { vd := .v, va := .v, vb := w.bClass, modOk := decide (w.m 0 2 ≤ 1) && w.mTop 2, extOk := w.xTop 0, clsOk := packedCls w.cls, rndOk := w.rnd == 0, dflt := some 5 }
  | 0x35 =>
    some { vd := .v, va := .v, vb := w.bClass, vc := .v, modOk := decide (w.m 0 2 ≤ 1) && w.mTop 2, extOk := w.xTop 0, clsOk := packedCls w.cls, rndOk := decide (w.rnd.toNat ≤ 3), dflt := some 5 }
  | 0x36 =>
    some { vd := .v, va := .v, vb := w.bClass, vc := .v, modOk := decide (w.m 0 2 ≤ 1) && w.mTop 4, extOk := w.xTop 0, clsOk := classIn [12, 13] w.cls, rndOk := w.rnd == 0, dflt := some 12 }
  | 0x38 =>
    some { vd := .v, va := .v, modOk := w.mTop 6 && cvtModOk w.cls (w.m 0 5), extOk := w.xTop 0, clsOk := vecTagOk w.cls && w.cls.fcode != 0, rndOk := decide (w.rnd.toNat ≤ 4), dflt := some 3 }
  | 0x39 =>
    some { vd := .v, va := .v, modOk := w.mTop 7 && decide (4 ≤ w.m 0 5) && decide (w.m 0 5 ≤ 13), extOk := w.xTop 0, clsOk := w.cls == 3, rndOk := decide (w.rnd.toNat ≤ 4), dflt := some 3 }
  | 0x3a =>
    some { vd := .v, va := .v, modOk := w.mTop 6 && vecCode (w.m 0 5) && w.m 0 5 != 0, extOk := w.xTop 4 && decide (w.x 0 4 < elemsPerWord (w.m 0 5)), clsOk := classIn [1, 2, 3, 4] w.cls, rndOk := decide (w.rnd.toNat ≤ 4), dflt := some 3 }
  | 0x3b =>
    some { vd := tagClass (w.m 1 2), va := if w.m 0 1 == 1 then .s else .z, modOk := w.mTop 3 && w.m 1 2 != 3, extOk := if w.m 0 1 == 1 then w.xTop 0 else w.xTop 7, clsOk := w.cls == 0, rndOk := w.rnd == 0, dflt := some 0 }
  | 0x3c =>
    some { vd := .s, va := tagClass (w.m 1 2), modOk := w.mTop 3 && w.m 0 1 == 0 && w.m 1 2 != 3, extOk := w.xTop 0, clsOk := w.cls == 0, rndOk := w.rnd == 0, dflt := some 0 }
  | 0x40 =>
    some { vd := .v, vb := .sp, vc := .v, modOk := w.mTop 6 && (decide (w.m 0 2 ≤ 1) || w.m 2 1 == 0), extOk := true, flagOk := true, clsOk := vecTagOk w.cls, rndOk := w.rnd == 0, dflt := some 0 }
  | 0x41 =>
    some { va := .v, vb := .sp, vc := .v, modOk := w.mTop 6 && w.m 2 1 == 0, extOk := true, flagOk := true, clsOk := w.cls == 0, rndOk := w.rnd == 0, dflt := some 0 }
  | 0x80 =>
    some { vd := .v, va := .v, modOk := w.mTop 2 && w.m 0 2 != 0, extOk := w.xTop 0, clsOk := w.cls == 0, rndOk := w.rnd == 0 }
  | 0x81 =>
    some { vd := .v, va := .v, modOk := w.mTop 2, extOk := w.xTop 0, clsOk := w.cls == 0, rndOk := w.rnd == 0 }
  | 0x82 | 0x83 =>
    some { vd := .v, va := .v, modOk := w.mTop 1, extOk := w.xTop 0, clsOk := floatCls w.cls, rndOk := decide (w.rnd.toNat ≤ 3) }
  | 0x84 =>
    some { scopes := [0, 1, 2, 3], vd := if w.m 4 1 == 1 then .s else .v, va := .v, modOk := w.mTop 6 && w.m 2 2 == 0 && (w.m 5 1 == 0 || (w.m 4 1 == 1 && decide (w.scope.toNat ≤ 1))) && (w.m 0 2 != 0 || decide (w.scope.toNat ≤ 1)), extOk := w.xTop 0, clsOk := w.cls == 0, rndOk := w.rnd == 0 }
  | 0x85 =>
    some { scopes := [0, 1, 2], vd := .v, va := .v, vb := w.bClass, modOk := w.m 0 2 != 3 && w.mTop 4, extOk := w.bExt, clsOk := w.cls == 0, rndOk := w.rnd == 0 }
  | 0x86 =>
    some { scopes := [0, 1, 2, 3], vd := if w.m 4 1 == 1 then .s else .v, va := .v, modOk := w.mTop 6 && w.m 3 1 == 0 && decide (w.m 0 3 ≤ 5) && (decide (w.m 0 3 ≤ 2) || w.cls.fcode != 3) && (w.m 5 1 == 0 || (w.m 4 1 == 1 && decide (w.scope.toNat ≤ 1))), extOk := w.xTop 0, clsOk := redCls w.cls, rndOk := if w.cls.fcode == 3 && w.m 0 3 == 0 then decide (w.rnd.toNat ≤ 3) else w.rnd == 0 }
  | 0x87 =>
    some { scopes := [0, 1, 2], vd := .v, va := .v, modOk := w.mTop 4 && decide (w.m 0 3 ≤ 5) && (decide (w.m 0 3 ≤ 2) || w.cls.fcode != 3), extOk := w.xTop 0, clsOk := redCls w.cls, rndOk := if w.cls.fcode == 3 && w.m 0 3 == 0 then decide (w.rnd.toNat ≤ 3) else w.rnd == 0 }
  | 0x88 =>
    some { scopes := [0, 1, 2, 3], modOk := w.mTop 0, extOk := w.xTop 0, clsOk := w.cls == 0, rndOk := w.rnd == 0 }
  | 0x89 =>
    some { scopes := [3], modOk := w.mTop 0, extOk := w.xTop 0, clsOk := w.cls == 0, rndOk := w.rnd == 0 }
  | 0x8a =>
    some { scopes := [3], modOk := w.mTop 2, extOk := w.xTop 0, clsOk := w.cls == 0, rndOk := w.rnd == 0 }
  | 0x8b | 0x241 | 0x282 =>
    some { vd := .s, modOk := w.mTop 0, extOk := w.xTop 0, clsOk := w.cls == 0, rndOk := w.rnd == 0 }
  | 0x8c =>
    some { scopes := [1], modOk := w.mTop 0, extOk := w.xTop 0, clsOk := w.cls == 0, rndOk := w.rnd == 0 }
  | 0x8d | 0x240 =>
    some { modOk := w.mTop 0, extOk := w.xTop 0, clsOk := w.cls == 0, rndOk := w.rnd == 0 }
  | 0x8e =>
    some { vd := .v, modOk := w.mTop 0, extOk := w.xTop 0, clsOk := w.cls == 0, rndOk := w.rnd == 0 }
  | 0x8f =>
    some { vd := .v, va := .v, vb := .sp, modOk := w.mTop 0, extOk := w.xTop 0, flagOk := true, clsOk := w.cls == 0, rndOk := w.rnd == 0 }
  | 0x90 | 0x92 =>
    some { vb := w.bClass, modOk := (w.m 0 2 == 1 || w.m 0 2 == 2) && w.mTop 2, extOk := w.bExt, clsOk := w.cls == 0, rndOk := w.rnd == 0 }
  | 0x91 =>
    some { vb := w.bClass, modOk := (w.m 0 2 == 1 || w.m 0 2 == 2) && w.mTop 3, extOk := w.bExt, flagOk := true, clsOk := w.cls == 0, rndOk := w.rnd == 0 }
  | 0xc0 =>
    some { vd := .v, vb := .sp, vc := .v, modOk := w.mTop 7 && w.m 0 2 != 3, extOk := true, flagOk := true, clsOk := vecTagOk w.cls, rndOk := w.rnd == 0 }
  | 0xc1 =>
    some { va := .v, vb := .sp, vc := .v, modOk := w.mTop 6 && w.m 0 2 != 3, extOk := true, flagOk := true, clsOk := w.cls == 0, rndOk := w.rnd == 0 }
  | 0xc2 =>
    some { vd := .v, vb := .s, vc := .v, modOk := w.mTop 7 && (decide (w.m 0 2 ≤ 1) || w.m 2 1 == 0), extOk := w.xTop 22 && (w.m 6 1 == 1 || w.x 19 3 == 0), flagOk := true, clsOk := vecTagOk w.cls, rndOk := w.rnd == 0 }
  | 0xc3 =>
    some { va := .v, vb := .s, vc := .v, modOk := w.mTop 7 && w.m 2 1 == 0, extOk := w.xTop 22 && (w.m 6 1 == 1 || w.x 19 3 == 0), flagOk := true, clsOk := w.cls == 0, rndOk := w.rnd == 0 }
  | 0xc4 =>
    some { vd := .v, va := .v, vb := if w.m 7 1 == 1 then .s else .sp, vc := .v, modOk := decide (w.m 0 4 ≤ 10) && !(w.m 0 4 == 10 && w.m 4 1 == 1), extOk := w.xTop 6 && decide (w.x 0 3 ≤ 4), flagOk := true, clsOk := atomCls (AtomOp.ofCode (w.modi.extractLsb' 0 4)) w.cls, rndOk := w.rnd == 0 }
  | 0xc5 =>
    some { vd := if w.m 4 1 == 1 then .sp else .s, va := if w.m 4 1 == 1 then .sp else .s, vb := if w.m 7 1 == 1 then .s else .sp, vc := if w.m 0 4 == 9 then (if w.m 4 1 == 1 then .sp else .s) else .z, modOk := decide (w.m 0 4 ≤ 10) && !(w.m 0 4 == 10 && w.m 4 1 == 1), extOk := decide (w.x 0 3 ≤ 4) && w.x 3 3 == 0, flagOk := true, clsOk := w.cls == 0, rndOk := w.rnd == 0 }
  | 0xc6 =>
    some { modOk := w.mTop 5 && w.m 0 2 != 3 && decide (w.m 2 3 ≤ 4), extOk := w.xTop 0, clsOk := w.cls == 0, rndOk := w.rnd == 0 }
  | 0xc7 =>
    some { vd := .s, va := .s, vb := if w.m 1 1 == 1 then .s else .sp, modOk := w.mTop 5 && decide (w.m 2 3 ≤ 4), extOk := w.xTop 16, clsOk := w.cls == 0, rndOk := w.rnd == 0 }
  | 0xc8 =>
    some { va := .v, vb := if w.m 3 1 == 1 then .s else .z, modOk := w.mTop 4 && decide (w.m 0 3 ≤ 4), extOk := if w.m 3 1 == 1 then w.xTop 0 else w.xTop 6, flagOk := true, clsOk := w.cls == 0, rndOk := w.rnd == 0 }
  | 0xc9 =>
    some { vd := .v, vb := .s, modOk := w.mTop 4 && decide (w.m 0 3 ≤ 4), extOk := w.xTop 3, flagOk := true, clsOk := vecTagOk w.cls, rndOk := w.rnd == 0 }
  | 0xca =>
    some { vd := .s, modOk := w.mTop 1, extOk := w.xTop 6 && (w.m 0 1 == 1 || w.x 0 3 == 0), clsOk := w.cls == 0, rndOk := w.rnd == 0 }
  | 0xcb =>
    some { vb := .sp, vc := .v, modOk := w.mTop 5 && w.m 0 2 != 3, extOk := true, clsOk := w.cls == 0, rndOk := w.rnd == 0 }
  | 0xcc =>
    some { va := if w.m 0 3 == 5 then .z else .s, vb := if w.m 0 3 == 5 then .z else .sp, modOk := w.mTop 3 && decide (w.m 0 3 ≤ 5) && (sys || decide (w.m 0 3 ≤ 3)), extOk := w.xTop 0, flagOk := true, clsOk := w.cls == 0, rndOk := w.rnd == 0 }
  | 0x200 =>
    some { scopes := [0, 1, 2], vd := .a, va := .run, vb := .t, modOk := w.mTop 5 && bcodeOk (w.modi.extractLsb' 0 5), extOk := w.xTop 0, flagOk := true, guardOk := w.scope == 0, reuseOk := true, clsOk := aClass w.cls, rndOk := w.rnd == 0 }
  | 0x201 =>
    some { vd := .a, va := .run, vb := if w.m 7 1 == 1 then .v else .s, modOk := bcodeOk (w.modi.extractLsb' 0 5) && brotOk (w.modi.extractLsb' 0 5) (w.modi.extractLsb' 5 2), extOk := w.xTop 0, flagOk := true, guardOk := true, reuseOk := true, clsOk := aClass w.cls, rndOk := w.rnd == 0 }
  | 0x202 =>
    some { vd := .t, vb := if w.m 0 1 == 1 then .s else .sp, modOk := w.mTop 2, extOk := true, flagOk := true, guardOk := true, clsOk := tileTagOk w.cls && w.cls.rot == 0, rndOk := w.rnd == 0 }
  | 0x203 =>
    some { va := .t, vb := if w.m 0 1 == 1 then .s else .sp, modOk := w.mTop 2, extOk := true, flagOk := true, guardOk := true, clsOk := w.cls == 0, rndOk := w.rnd == 0 }
  | 0x204 =>
    some { vd := .t, modOk := w.mTop 0, extOk := w.xTop 0, flagOk := true, guardOk := true, clsOk := tileTagOk w.cls && w.cls.rot == 0, rndOk := w.rnd == 0 }
  | 0x205 =>
    some { vd := .a, modOk := w.mTop 0, extOk := w.xTop 0, flagOk := true, guardOk := true, clsOk := classIn [1, 3] w.cls, rndOk := w.rnd == 0 }
  | 0x206 =>
    some { vd := .v, va := .a, modOk := w.mTop 3 && decide (w.m 0 3 ≤ 5), extOk := w.xTop 5 && w.x 0 5 % (NCols.ofCode (w.modi.extractLsb' 0 3)).count == 0, flagOk := true, guardOk := true, clsOk := w.cls == 0, rndOk := w.rnd == 0 }
  | 0x207 =>
    some { vd := .a, va := .v, modOk := w.mTop 3 && decide (w.m 0 3 ≤ 5), extOk := w.xTop 5 && w.x 0 5 % (NCols.ofCode (w.modi.extractLsb' 0 3)).count == 0, flagOk := true, guardOk := true, clsOk := w.cls == 0, rndOk := w.rnd == 0 }
  | 0x208 | 0x209 =>
    some { vb := .sp, modOk := w.mTop 0, extOk := w.xTop 0, flagOk := true, guardOk := true, clsOk := w.cls == 0, rndOk := w.rnd == 0 }
  | 0x20a =>
    some { va := .s, vb := .sp, modOk := w.mTop 0, extOk := w.xTop 15, flagOk := true, guardOk := true, clsOk := w.cls == 0, rndOk := w.rnd == 0 }
  | 0x20b =>
    some { modOk := w.mTop 0, extOk := w.xTop 15, flagOk := true, guardOk := true, clsOk := w.cls == 0, rndOk := w.rnd == 0 }
  | 0x20c =>
    some { va := .v, vb := .sp, modOk := w.mTop 0, extOk := w.xTop 2, flagOk := true, guardOk := true, clsOk := w.cls == 3, rndOk := w.rnd == 0 }
  | 0x20d =>
    some { va := .v, vb := .sp, modOk := w.mTop 4, extOk := w.xTop 2, flagOk := true, guardOk := true, clsOk := w.cls == 3, rndOk := w.rnd == 0 }
  | 0x20e =>
    some { va := .v, vb := .s, modOk := w.mTop 1, extOk := w.xTop 0, flagOk := true, guardOk := true, clsOk := w.cls == 0, rndOk := w.rnd == 0 }
  | 0x20f =>
    some { vd := .v, vb := .s, modOk := w.mTop 1, extOk := w.xTop 8, flagOk := true, guardOk := true, clsOk := vecCode w.cls.fcode && w.cls.rot == 0, rndOk := w.rnd == 0 }
  | 0x242 =>
    some { va := if w.m 0 1 == 1 then .s else .z, modOk := w.mTop 1, extOk := if w.m 0 1 == 1 then w.xTop 0 else w.xTop 8, clsOk := w.cls == 0, rndOk := w.rnd == 0 }
  | 0x243 =>
    some { vd := .s, va := .s, vb := .s, modOk := w.mTop 1, extOk := w.xTop 2, clsOk := w.cls == 0, rndOk := w.rnd == 0 }
  | 0x244 =>
    some { vd := .s, va := .s, vb := .s, modOk := w.mTop 0, extOk := w.xTop 2, clsOk := w.cls == 0, rndOk := w.rnd == 0 }
  | 0x245 | 0x24b =>
    some { vd := .s, va := .s, modOk := w.mTop 0, extOk := w.xTop 0, clsOk := w.cls == 0, rndOk := w.rnd == 0 }
  | 0x246 =>
    some { va := if w.m 0 1 == 1 then .z else .s, vb := if w.m 0 1 == 1 then .z else .s, modOk := w.mTop 1, extOk := if w.m 0 1 == 1 then w.xTop 0 else w.xTop 4, clsOk := w.cls == 0, rndOk := w.rnd == 0 }
  | 0x247 | 0x248 =>
    some { va := .v, vc := .v, modOk := w.mTop 0, extOk := w.xTop 0, clsOk := w.cls == 0, rndOk := w.rnd == 0 }
  | 0x249 =>
    some { vd := .v, modOk := w.mTop 0, extOk := w.xTop 7 && decide (w.x 2 5 ≤ 16), clsOk := vecCode w.cls.fcode && w.cls.rot == 0, rndOk := w.rnd == 0 }
  | 0x24a =>
    some { modOk := w.mTop 0, extOk := w.xTop 2, clsOk := w.cls == 0, rndOk := w.rnd == 0 }
  | 0x280 =>
    some { vd := if w.m 0 1 == 1 then .s else .z, va := .v, modOk := w.mTop 1, extOk := w.xTop 0, clsOk := w.cls == 0, rndOk := w.rnd == 0 }
  | 0x281 =>
    some { vd := .v, vb := if w.m 0 1 == 1 then .s else .z, modOk := w.mTop 1, extOk := w.xTop 0, clsOk := w.cls == 0, rndOk := w.rnd == 0 }
  | 0x283 =>
    some { vd := .s, modOk := w.mTop 2 && sys, extOk := w.xTop 0, clsOk := w.cls == 0, rndOk := w.rnd == 0 }
  | _ => none

/-- The opcodes reserved as NOP (R67, R68). -/
def reservedNop (w : LWord) : Bool := decide (0x3F0 ≤ w.opcode.toNat)

/-- What the checks need of the gang and its clause: which selectors are bound (R22), the privilege, and whether the
gang belongs to a declared set (R147). -/
structure LaneCtx where
  boundA : Bool
  boundB : Bool
  sys : Bool
  inSet : Bool := true
  deriving DecidableEq, Repr

/-- The flag field passes check 7 of R76 (R22, R67). -/
def flagPass (c : LaneCtx) (flagOk : Bool) (f : BitVec 2) : Bool :=
  match f.toNat with
  | 0 => true
  | 1 => flagOk && c.boundA
  | 2 => flagOk && c.boundB
  | _ => false

/-- Checks 2 to 10 of R76 on an expanded L-word, in order: the number of the first that fails. `l4` says that the item
was an L4, which needs a default class (R71). Reserved-as-NOP opcodes skip checks 3 to 10 (R68). Assumption 17: DEDUCED. -/
def laneChecks (c : LaneCtx) (l4 : Bool) (w : LWord) : Option (BitVec 4) :=
  if reservedNop w then none else
  match opSpec c.sys w with
  | none => some 2
  | some o =>
    if l4 && o.dflt.isNone then some 2
    else if !(o.scopes.contains w.scope.toNat && (w.scope != 2 || c.inSet)) then some 3
    else if !(o.vd.ok w.vd && o.va.ok w.va && o.vb.ok w.vb && o.vc.ok w.vc) then some 4
    else if !o.modOk then some 5
    else if !(o.extOk && (w.x 26 4 == 0 || w.guard == 1)) then some 6
    else if !flagPass c o.flagOk w.flag then some 7
    else if (w.reuse == 1 && !o.reuseOk) || (w.guard == 1 && !o.guardOk) then some 8
    else if !o.clsOk then some 9
    else if !o.rndOk then some 10
    else none

/-! ### From fields to instructions -/

/-- The B operand a checked L-word names (R111). -/
def LWord.b (w : LWord) : BSrc :=
  match w.m 0 2 with
  | 1 => .scal (w.vb.extractLsb' 0 6)
  | 2 => .imm (w.ext.extractLsb' 0 26)
  | _ => .vec w.vb
def LWord.sd (w : LWord) : SReg := w.vd.extractLsb' 0 6
def LWord.sa (w : LWord) : SReg := w.va.extractLsb' 0 6
def LWord.sb (w : LWord) : SReg := w.vb.extractLsb' 0 6
def LWord.sc (w : LWord) : SReg := w.vc.extractLsb' 0 6
def LWord.mb (w : LWord) (n : Nat) : Bool := w.modi.getLsbD n
def LWord.rd (w : LWord) : Round := Round.ofCode w.rnd
def LWord.fl (w : LWord) : FlagSel := FlagSel.ofCode w.flag
def LWord.ctl (w : LWord) : EngCtl :=
  ⟨w.fl, if w.guard = 1 then some (w.ext.extractLsb' 26 4) else none⟩
def LWord.base (w : LWord) (sp : Bool) : Base := if sp then .sp w.sb else .glob w.sb
def LWord.disp (w : LWord) : BitVec 26 := w.ext.extractLsb' 0 26
def LWord.cmpDst (w : LWord) : CmpDst := match w.m 2 2 with | 1 => .xm | 2 => .hm | _ => .vec w.vd
def LWord.redDst (w : LWord) : RedDst := if w.mb 4 then .scal w.sd (w.mb 5) else .vec w.vd
def LWord.tagReg (f : Byte) (n : Nat) : TagReg :=
  match n with | 1 => .a (f.extractLsb' 0 3) | 2 => .t (f.extractLsb' 0 4) | _ => .v f
def LWord.rem (w : LWord) : Option (BitVec 3) := if w.mb 6 then some (w.ext.extractLsb' 19 3) else none
def LWord.nb (w : LWord) (r : SReg) : Option SReg := if w.mb 0 then some r else none

/-- The instruction of a checked L-word (R67); an unassigned opcode fails check 2. -/
def buildLane (w : LWord) : Instr :=
  match w.opcode.toNat with
  | 0x000 => .vadd w.vd w.va w.b w.cls (w.mb 2)
  | 0x001 => .vsub w.vd w.va w.b w.cls (w.mb 2)
  | 0x002 => .vmul w.vd w.va w.b w.cls (w.mb 3)
  | 0x003 => .vmad w.vd w.va w.b w.vc w.cls
  | 0x004 => .vand w.vd w.va w.b
  | 0x005 => .vor w.vd w.va w.b
  | 0x006 => .vxor w.vd w.va w.b
  | 0x007 => .vandn w.vd w.va w.b
  | 0x008 => .vshl w.vd w.va w.b
  | 0x009 => .vshr w.vd w.va w.b
  | 0x00a => .vsra w.vd w.va w.b
  | 0x00b => .vmin w.vd w.va w.b w.cls
  | 0x00c => .vmax w.vd w.va w.b w.cls
  | 0x00d => .vabs w.vd w.va w.cls (w.mb 2)
  | 0x00e => .vclz w.vd w.va
  | 0x00f => .vpopc w.vd w.va
  | 0x010 => .vbfx w.vd w.va (w.ext.extractLsb' 0 5) (w.ext.extractLsb' 5 5) (w.mb 0)
  | 0x011 => .vbfi w.vd w.va (w.ext.extractLsb' 0 5) (w.ext.extractLsb' 5 5)
  | 0x012 => .vprmb w.vd w.va w.b w.vc
  | 0x013 => .vcmp w.cmpDst w.va w.b w.cls (VCond.ofCode (w.modi.extractLsb' 4 4))
  | 0x014 => .vsel w.vd w.va w.b w.vc
  | 0x015 => if w.m 2 2 = 1 then .vmovTos w.sd w.va (w.ext.extractLsb' 0 5) else .vmov w.vd w.va
  | 0x016 => .vbcs w.vd w.sa (w.modi.extractLsb' 0 5)
  | 0x017 => .vli w.vd w.disp (w.modi.extractLsb' 0 5) (w.mb 5)
  | 0x018 => .vspc w.vd (Special.ofCode (w.ext.extractLsb' 0 4))
  | 0x020 => .fadd w.vd w.va w.b w.cls w.rd
  | 0x021 => .fsub w.vd w.va w.b w.cls w.rd
  | 0x022 => .fmul w.vd w.va w.b w.cls w.rd
  | 0x023 => .ffma w.vd w.va w.b w.vc w.cls w.rd
  | 0x024 => .fmin w.vd w.va w.b w.cls
  | 0x025 => .fmax w.vd w.va w.b w.cls
  | 0x026 => .frnd w.vd w.va w.cls w.rd
  | 0x027 => .fcls w.vd w.va w.cls
  | 0x028 => .frcp w.vd w.va
  | 0x029 => .frsq w.vd w.va
  | 0x02a => .fsqrt w.vd w.va w.rd
  | 0x02b => .fex2 w.vd w.va
  | 0x02c => .flg2 w.vd w.va
  | 0x02d => .fsin w.vd w.va
  | 0x02e => .fcos w.vd w.va
  | 0x030 => .padd w.vd w.va w.b w.cls (w.mb 3) w.rd
  | 0x031 => .pmul w.vd w.va w.b w.cls w.rd
  | 0x032 => .pfma w.vd w.va w.b w.vc w.cls (w.mb 3) w.rd
  | 0x033 => .pmin w.vd w.va w.b w.cls
  | 0x034 => .pmax w.vd w.va w.b w.cls
  | 0x035 => .pdot2 w.vd w.va w.b w.vc w.cls w.rd
  | 0x036 => .idot4 w.vd w.va w.b w.vc w.cls (w.mb 2) (w.mb 3)
  | 0x038 => .cvt w.vd w.va w.cls (w.modi.extractLsb' 0 5) (w.mb 5) w.rd
  | 0x039 => .cvth w.vd w.va (w.modi.extractLsb' 0 5) (w.mb 5) (w.mb 6) w.rd
  | 0x03a => .cvtp w.vd w.va w.cls (w.modi.extractLsb' 0 5) (w.mb 5) (w.ext.extractLsb' 0 4) w.rd
  | 0x03b => .tagw (LWord.tagReg w.vd (w.m 1 2)) (if w.mb 0 then .scal w.sa else .imm (w.ext.extractLsb' 0 7))
  | 0x03c => .tagr w.sd (LWord.tagReg w.va (w.m 1 2))
  | 0x040 =>
    .vld w.vd w.sb w.vc (Size.ofCode (w.modi.extractLsb' 0 2)) (w.mb 2) (w.modi.extractLsb' 3 2) (w.mb 5) w.disp
      w.cls w.fl
  | 0x041 =>
    .vst w.va w.sb w.vc (Size.ofCode (w.modi.extractLsb' 0 2)) (w.modi.extractLsb' 3 2) (w.mb 5) w.disp w.fl
  | 0x080 => .qxch w.vd w.va (w.modi.extractLsb' 0 2)
  | 0x081 => .qbc w.vd w.va (w.modi.extractLsb' 0 2)
  | 0x082 => .qddx w.vd w.va (w.mb 0) w.cls w.rd
  | 0x083 => .qddy w.vd w.va (w.mb 0) w.cls w.rd
  | 0x084 => .vote (Scope.ofCode w.scope) w.redDst w.va (VoteKind.ofCode (w.modi.extractLsb' 0 2))
  | 0x085 => .shfl (Scope.ofCode w.scope) w.vd w.va w.b (ShflMode.ofCode (w.modi.extractLsb' 2 2))
  | 0x086 => .vred (Scope.ofCode w.scope) w.redDst w.va (RedOp.ofCode (w.modi.extractLsb' 0 3)) w.cls w.rd
  | 0x087 =>
    .vscan (Scope.ofCode w.scope) w.vd w.va (RedOp.ofCode (w.modi.extractLsb' 0 3)) (w.mb 3) w.cls w.rd
  | 0x088 => .bar (Scope.ofCode w.scope)
  | 0x089 => .lbar
  | 0x08a => .setdcl (w.modi.extractLsb' 0 2)
  | 0x08b => .gwid w.sd
  | 0x08c => .regang
  | 0x08d => .lexit
  | 0x08e => .refill w.vd
  | 0x08f => .spawn w.vd w.va w.sb w.fl
  | 0x090 => .evsig w.b
  | 0x091 => .evwait w.b (w.mb 2) w.fl
  | 0x092 => .evclr w.b
  | 0x0c0 =>
    .vldx w.vd w.sb w.vc (Span.ofCode (w.modi.extractLsb' 0 2)) (w.modi.extractLsb' 2 3) (w.mb 5) (w.mb 6) w.disp
      w.cls w.fl
  | 0x0c1 =>
    .vstx w.va w.sb w.vc (Span.ofCode (w.modi.extractLsb' 0 2)) (w.modi.extractLsb' 2 3) (w.mb 5) w.disp w.fl
  | 0x0c2 =>
    .spld w.vd w.sb w.vc (Size.ofCode (w.modi.extractLsb' 0 2)) (w.mb 2) (w.modi.extractLsb' 3 2) (w.mb 5) w.rem
      (w.ext.extractLsb' 0 19) w.cls w.fl
  | 0x0c3 =>
    .spst w.va w.sb w.vc (Size.ofCode (w.modi.extractLsb' 0 2)) (w.modi.extractLsb' 3 2) (w.mb 5) w.rem
      (w.ext.extractLsb' 0 19) w.fl
  | 0x0c4 =>
    .atom w.vd w.va (w.base (w.mb 7)) w.vc (AtomOp.ofCode (w.modi.extractLsb' 0 4)) (w.mb 4)
      (Ord.ofCode (w.modi.extractLsb' 5 2)) (MScope.ofCode (w.ext.extractLsb' 0 3)) (w.ext.getLsbD 3)
      (w.ext.extractLsb' 4 2) w.cls w.fl
  | 0x0c5 =>
    .satom w.sd w.sa (w.base (w.mb 7)) w.sc (AtomOp.ofCode (w.modi.extractLsb' 0 4)) (w.mb 4)
      (Ord.ofCode (w.modi.extractLsb' 5 2)) (MScope.ofCode (w.ext.extractLsb' 0 3)) (w.ext.extractLsb' 6 20) w.fl
  | 0x0c6 => .fence (FenceKind.ofCode (w.modi.extractLsb' 0 2)) (MScope.ofCode (w.modi.extractLsb' 2 3))
  | 0x0c7 =>
    .waita w.sd w.sa (w.base (w.mb 1)) (w.mb 0) (MScope.ofCode (w.modi.extractLsb' 2 3)) (w.ext.extractLsb' 0 16)
  | 0x0c8 =>
    .msend w.va (if w.mb 3 then .scal w.sb else .imm (w.ext.extractLsb' 0 3) (w.ext.extractLsb' 3 3))
      (MsgSize.ofCode (w.modi.extractLsb' 0 3)) w.fl
  | 0x0c9 =>
    .mrecv w.vd w.sb (MsgSize.ofCode (w.modi.extractLsb' 0 3)) (w.mb 3) (w.ext.extractLsb' 0 3) w.cls w.fl
  | 0x0ca => .mqst w.sd (if w.mb 0 then .cred else .occ) (w.ext.extractLsb' 0 3) (w.ext.extractLsb' 3 3)
  | 0x0cb =>
    .pref w.sb w.vc (PrefKind.ofCode (w.modi.extractLsb' 0 2)) (w.modi.extractLsb' 2 2) (w.mb 4) w.disp
  | 0x0cc =>
    match w.m 0 3 with
    | 0 => .cmaintL1inv w.sa w.sb w.fl
    | 1 => .cmaintWb w.sa w.sb w.fl
    | 2 => .cmaintWbinv w.sa w.sb w.fl
    | 3 => .cmaintIcinv w.sa w.sb w.fl
    | 4 => .cmaintTlbinv w.sa w.sb w.fl
    | _ => .cmaintTlbctx w.fl
  | 0x200 =>
    .mma (Scope.ofCode w.scope) (w.vd.extractLsb' 0 3) w.va (w.vb.extractLsb' 0 4) (w.modi.extractLsb' 0 5)
      (w.reuse = 1) w.cls w.ctl
  | 0x201 =>
    .mvm (w.vd.extractLsb' 0 3) w.va (if w.mb 7 then .vec w.vb else .scal w.sb) (w.modi.extractLsb' 0 5)
      (w.modi.extractLsb' 5 2) (w.reuse = 1) w.cls w.ctl
  | 0x202 => .tld (w.vd.extractLsb' 0 4) (w.base (w.mb 0)) (w.mb 1) w.disp w.cls w.ctl
  | 0x203 => .tst (w.va.extractLsb' 0 4) (w.base (w.mb 0)) (w.mb 1) w.disp w.ctl
  | 0x204 => .tzr (w.vd.extractLsb' 0 4) w.cls w.ctl
  | 0x205 => .accz (w.vd.extractLsb' 0 3) w.cls w.ctl
  | 0x206 => .accrd w.vd (w.va.extractLsb' 0 3) (NCols.ofCode (w.modi.extractLsb' 0 3)) (w.ext.extractLsb' 0 5) w.ctl
  | 0x207 => .accwr (w.vd.extractLsb' 0 3) w.va (NCols.ofCode (w.modi.extractLsb' 0 3)) (w.ext.extractLsb' 0 5) w.ctl
  | 0x208 => .dsub w.sb w.ctl
  | 0x209 => .recfl w.sb w.ctl
  | 0x20a => .beamq w.sa w.sb (w.ext.extractLsb' 0 2) (w.ext.extractLsb' 2 13) w.ctl
  | 0x20b => .covq (w.ext.extractLsb' 0 2) (w.ext.extractLsb' 2 13) w.ctl
  | 0x20c => .rayq w.va w.sb (w.ext.extractLsb' 0 2) w.ctl
  | 0x20d => .ellq w.va w.sb (w.modi.extractLsb' 0 3) (w.mb 3) (w.ext.extractLsb' 0 2) w.ctl
  | 0x20e => .ringst w.va w.sb (w.mb 0) w.ctl
  | 0x20f => .ringld w.vd w.sb (w.mb 0) (w.ext.extractLsb' 0 8) w.cls w.ctl
  | 0x240 => .oprdy
  | 0x241 => .mfence w.sd
  | 0x242 => .mwait (if w.mb 0 then .scal w.sa else .imm (w.ext.extractLsb' 0 8))
  | 0x243 => .cbtst w.sd w.sa w.sb (w.mb 0) (w.ext.extractLsb' 0 2)
  | 0x244 => .cbwait w.sd w.sa w.sb (w.ext.extractLsb' 0 2)
  | 0x245 => .cpsts w.sd w.sa
  | 0x246 => .mcnt (if w.mb 0 then .close else .opn w.sa w.sb (w.ext.extractLsb' 0 4))
  | 0x247 => .mvtx w.va w.vc
  | 0x248 => .mprim w.va w.vc
  | 0x249 => .qrd w.vd (w.ext.extractLsb' 0 2) (w.ext.extractLsb' 2 5) w.cls
  | 0x24a => .qwait (w.ext.extractLsb' 0 2)
  | 0x24b => .srate w.sd w.sa
  | 0x280 => .vfpush (w.nb w.sd) w.va
  | 0x281 => .vfpop w.vd (w.nb w.sb)
  | 0x282 => .vfcnt w.sd
  | 0x283 => if w.mb 1 then .pgreqCan w.sd (w.mb 0) else .pgreq w.sd (w.mb 0)
  | op =>
    if 0x3F0 ≤ op then .laneReservedNop (BitVec.ofNat 4 op) (w.toBits.extractLsb' 0 86) else .illegalLaneItem 2

/-- Decode an expanded L-word under the checks of R76. Assumption 17: DEDUCED. -/
def decodeLWord (c : LaneCtx) (l4 : Bool) (w : LWord) : Instr :=
  match laneChecks c l4 w with
  | some n => .illegalLaneItem n
  | none => buildLane w

/-! ### Items of the lane byte stream -/

/-- An item of the lane code section (R69). -/
inductive Item where
  /-- a lane instruction: its L-word, its length, and whether it is an L4 -/
  | lane (w : LWord) (len : Nat) (l4 : Bool)
  /-- a clause header with its payload (R73) -/
  | header (q : BitVec 27)
  /-- padding, a reserved byte, a full form with non-zero prefix bits, or bytes that run out (check 1) -/
  | bad
  deriving DecidableEq, Repr

/-- A little-endian number from bytes (R7). -/
def leNat : List Byte → Nat
  | [] => 0
  | b :: bs => b.toNat + 256 * leNat bs

/-- The low `n` bytes of a number, least significant first (R7). -/
def leBytes : Nat → Nat → List Byte
  | 0, _ => []
  | n + 1, v => BitVec.ofNat 8 v :: leBytes n (v / 256)

/-- The payload of a short form (R70): bits [5:0] and the bits above the first byte. -/
def payload (p : Nat) : Nat := p % 64 + 64 * (p / 256)

/-- Expansion of an L4 (R71). -/
def expandL4 (q : Nat) : LWord :=
  let w : LWord := {
    opcode := BitVec.ofNat 10 (q % 128), scope := 0, vd := BitVec.ofNat 8 (q / 2 ^ 7),
    va := BitVec.ofNat 8 (q / 2 ^ 15), vb := BitVec.ofNat 8 (q / 2 ^ 23 % 2 ^ 7), vc := 0, modi := 0, flag := 0, reuse := 0,
    guard := 0, cls := 0, rnd := 0, ext := 0 }
  match opSpec true w with
  | some o => { w with cls := o.dflt.getD 0 }
  | none => w

/-- Expansion of an L6 (R71). -/
def expandL6 (q : Nat) : LWord :=
  { opcode := BitVec.ofNat 10 q, scope := BitVec.ofNat 2 (q / 2 ^ 10), vd := BitVec.ofNat 8 (q / 2 ^ 12),
    va := BitVec.ofNat 8 (q / 2 ^ 20), vb := BitVec.ofNat 8 (q / 2 ^ 28), vc := 0, modi := 0,
    flag := BitVec.ofNat 2 (q / 2 ^ 36), reuse := BitVec.ofNat 1 (q / 2 ^ 45), guard := 0,
    cls := BitVec.ofNat 7 (q / 2 ^ 38), rnd := 0, ext := 0 }

/-- Expansion of an L8 (R71). -/
def expandL8 (q : Nat) : LWord :=
  { opcode := BitVec.ofNat 10 q, scope := 0, vd := BitVec.ofNat 8 (q / 2 ^ 10),
    va := BitVec.ofNat 8 (q / 2 ^ 18), vb := BitVec.ofNat 8 (q / 2 ^ 26), vc := 0, modi := 0,
    flag := BitVec.ofNat 2 (q / 2 ^ 34), reuse := 0, guard := 0, cls := BitVec.ofNat 7 (q / 2 ^ 36), rnd := 0,
    ext := (BitVec.ofNat 19 (q / 2 ^ 43)).signExtend 30 }

/-- Read the item that begins the bytes (R69 to R74); `bytes` holds what stands before LCSIZE. -/
def readItem (bytes : List Byte) : Item :=
  match bytes with
  | [] => .bad
  | b0 :: rest =>
    let n := b0.toNat
    if n < 0x40 then
      if rest.length < 3 then .bad else .lane (expandL4 (payload (leNat (bytes.take 4)))) 4 true
    else if n < 0x80 then
      if rest.length < 5 then .bad else .lane (expandL6 (payload (leNat (bytes.take 6)))) 6 false
    else if n < 0xC0 then
      if rest.length < 7 then .bad else .lane (expandL8 (payload (leNat (bytes.take 8)))) 8 false
    else if 0xE0 ≤ n && n < 0xF0 then
      if n % 16 ≠ 0 || rest.length < 12 then .bad
      else .lane (LWord.ofBits (BitVec.ofNat 96 (leNat (rest.take 12)))) 13 false
    else if 0xF0 ≤ n && n < 0xF8 then
      if rest.length < 3 then .bad
      else .header (BitVec.ofNat 27 (n % 8 + 8 * leNat (rest.take 3)))
    else .bad

/-- Decode the item that begins the bytes as one of a clause's instructions, with its length (R74, R76). -/
def decodeLaneItem (c : LaneCtx) (bytes : List Byte) : Instr × Nat :=
  match readItem bytes with
  | .lane w len l4 => (decodeLWord c l4 w, len)
  | _ => (.illegalLaneItem 1, 0)

/-- Fields of a header payload (R73). -/
def hdrN (q : BitVec 27) : Nat := (q.extractLsb' 0 5).toNat
def hdrWait (q : BitVec 27) : BitVec 12 := q.extractLsb' 5 12
def hdrFA (q : BitVec 27) : BitVec 4 := q.extractLsb' 17 4
def hdrFB (q : BitVec 27) : BitVec 4 := q.extractLsb' 21 4
def hdrRsv (q : BitVec 27) : BitVec 2 := q.extractLsb' 25 2

/-- The header checks of R76: reserved bits as check 1, flag values 12 to 14 as check 7. Assumption 19: DEDUCED. -/
def headerCheck (q : BitVec 27) : Option (BitVec 4) :=
  let badF (f : BitVec 4) := decide (12 ≤ f.toNat) && decide (f.toNat ≤ 14)
  if hdrRsv q ≠ 0 then some 1
  else if badF (hdrFA q) || badF (hdrFB q) then some 7
  else none

/-! ### Encoding lane instructions -/

/-- An L-word with every field zero but the opcode. -/
def lw (op : BitVec 10) : LWord :=
  { opcode := op, scope := 0, vd := 0, va := 0, vb := 0, vc := 0, modi := 0, flag := 0, reuse := 0, guard := 0,
    cls := 0, rnd := 0, ext := 0 }

def SReg.byte (r : SReg) : Byte := r.setWidth 8
/-- The vb field of a B operand (R111). -/
def BSrc.vb : BSrc → Byte | .vec r => r | .scal r => SReg.byte r | .imm _ => 0
/-- BSRC of a B operand (R111). -/
def BSrc.code : BSrc → BitVec 2 | .vec _ => 0 | .scal _ => 1 | .imm _ => 2
/-- Ext of a B operand (R111). -/
def BSrc.ext : BSrc → BitVec 30 | .imm v => v.setWidth 30 | _ => 0
def RedDst.vd : RedDst → Byte | .vec d => d | .scal d _ => SReg.byte d
def RedDst.bits : RedDst → BitVec 2 | .vec _ => 0 | .scal _ ps => bit ps ++ 1#1
def TagReg.fld : TagReg → Byte | .v r => r | .a r => r.setWidth 8 | .t r => r.setWidth 8
def TagReg.code : TagReg → BitVec 2 | .v _ => 0 | .a _ => 1 | .t _ => 2
def Base.vb : Base → Byte | .glob r => SReg.byte r | .sp r => SReg.byte r
def Base.sp? : Base → BitVec 1 | .glob _ => 0 | .sp _ => 1
/-- Flag, guard enable and guard slot of an engine command (R66). -/
def LWord.withCtl (w : LWord) (e : EngCtl) : LWord :=
  match e.guard with
  | none => { w with flag := e.flag.code }
  | some g => { w with flag := e.flag.code, guard := 1, ext := g ++ w.ext.extractLsb' 0 26 }
/-- Ext holding a 26-bit displacement. -/
def ext26 (d : BitVec 26) : BitVec 30 := d.setWidth 30
/-- REM and POS of SPLD and SPST (R242). -/
def remPos : Option (BitVec 3) → BitVec 3 | none => 0 | some p => p
def remBit : Option (BitVec 3) → BitVec 1 | none => 0 | some _ => 1

/-- d, a, B form with modifier bits above BSRC. -/
def encB (op : BitVec 10) (d a : VReg) (b : BSrc) (hi : BitVec 6) : LWord :=
  { lw op with vd := d, va := a, vb := b.vb, modi := hi ++ b.code, ext := b.ext }
/-- CMAINT (R257). -/
def encCm (op : BitVec 3) (len base : Byte) (f : FlagSel) : LWord :=
  { lw 0x0cc with va := len, vb := base, modi := 0#5 ++ op, flag := f.code }

/-- The L-word of a lane instruction (R67); none for scalar instructions and device steps. -/
def encodeLWord : Instr → Option LWord
  | .vadd d a b c sat => some { encB 0x000 d a b (0#5 ++ bit sat) with cls := c }
  | .vsub d a b c sat => some { encB 0x001 d a b (0#5 ++ bit sat) with cls := c }
  | .vmul d a b c hi => some { encB 0x002 d a b (0#4 ++ bit hi ++ 0#1) with cls := c }
  | .vmad d a b vc c => some { encB 0x003 d a b 0 with vc := vc, cls := c }
  | .vand d a b => some (encB 0x004 d a b 0)
  | .vor d a b => some (encB 0x005 d a b 0)
  | .vxor d a b => some (encB 0x006 d a b 0)
  | .vandn d a b => some (encB 0x007 d a b 0)
  | .vshl d a b => some (encB 0x008 d a b 0)
  | .vshr d a b => some (encB 0x009 d a b 0)
  | .vsra d a b => some (encB 0x00a d a b 0)
  | .vmin d a b c => some { encB 0x00b d a b 0 with cls := c }
  | .vmax d a b c => some { encB 0x00c d a b 0 with cls := c }
  | .vabs d a c sat => some { lw 0x00d with vd := d, va := a, modi := 0#5 ++ bit sat ++ 0#2, cls := c }
  | .vclz d a => some { lw 0x00e with vd := d, va := a }
  | .vpopc d a => some { lw 0x00f with vd := d, va := a }
  | .vbfx d a p l sx => some { lw 0x010 with vd := d, va := a, modi := 0#7 ++ bit sx, ext := 0#20 ++ l ++ p }
  | .vbfi d a p l => some { lw 0x011 with vd := d, va := a, ext := 0#20 ++ l ++ p }
  | .vprmb d a b vc => some { encB 0x012 d a b 0 with vc := vc }
  | .vcmp dst a b c cond =>
    match dst with
    | .vec d => some { encB 0x013 d a b (cond.code ++ 0#2) with cls := c }
    | .xm => some { encB 0x013 0 a b (cond.code ++ 1#2) with cls := c }
    | .hm => some { encB 0x013 0 a b (cond.code ++ 2#2) with cls := c }
  | .vsel d a b vc => some { encB 0x014 d a b 0 with vc := vc }
  | .vmov d a => some { lw 0x015 with vd := d, va := a }
  | .vmovTos d a l => some { lw 0x015 with vd := SReg.byte d, va := a, modi := 4, ext := 0#25 ++ l }
  | .vbcs d a code => some { lw 0x016 with vd := d, va := SReg.byte a, modi := 0#3 ++ code }
  | .vli d i code hi => some { lw 0x017 with vd := d, modi := 0#2 ++ bit hi ++ code, ext := ext26 i }
  | .vspc d s => some { lw 0x018 with vd := d, ext := 0#26 ++ s.code }
  | .fadd d a b c r => some { encB 0x020 d a b 0 with cls := c, rnd := r.code }
  | .fsub d a b c r => some { encB 0x021 d a b 0 with cls := c, rnd := r.code }
  | .fmul d a b c r => some { encB 0x022 d a b 0 with cls := c, rnd := r.code }
  | .ffma d a b vc c r => some { encB 0x023 d a b 0 with vc := vc, cls := c, rnd := r.code }
  | .fmin d a b c => some { encB 0x024 d a b 0 with cls := c }
  | .fmax d a b c => some { encB 0x025 d a b 0 with cls := c }
  | .frnd d a c r => some { lw 0x026 with vd := d, va := a, cls := c, rnd := r.code }
  | .fcls d a c => some { lw 0x027 with vd := d, va := a, cls := c }
  | .frcp d a => some { lw 0x028 with vd := d, va := a, cls := 3 }
  | .frsq d a => some { lw 0x029 with vd := d, va := a, cls := 3 }
  | .fsqrt d a r => some { lw 0x02a with vd := d, va := a, cls := 3, rnd := r.code }
  | .fex2 d a => some { lw 0x02b with vd := d, va := a, cls := 3 }
  | .flg2 d a => some { lw 0x02c with vd := d, va := a, cls := 3 }
  | .fsin d a => some { lw 0x02d with vd := d, va := a, cls := 3 }
  | .fcos d a => some { lw 0x02e with vd := d, va := a, cls := 3 }
  | .padd d a b c neg r => some { encB 0x030 d a b (0#4 ++ bit neg ++ 0#1) with cls := c, rnd := r.code }
  | .pmul d a b c r => some { encB 0x031 d a b 0 with cls := c, rnd := r.code }
  | .pfma d a b vc c neg r =>
    some { encB 0x032 d a b (0#4 ++ bit neg ++ 0#1) with vc := vc, cls := c, rnd := r.code }
  | .pmin d a b c => some { encB 0x033 d a b 0 with cls := c }
  | .pmax d a b c => some { encB 0x034 d a b 0 with cls := c }
  | .pdot2 d a b vc c r => some { encB 0x035 d a b 0 with vc := vc, cls := c, rnd := r.code }
  | .idot4 d a b vc c sat bu => some { encB 0x036 d a b (0#4 ++ bit bu ++ bit sat) with vc := vc, cls := c }
  | .cvt d a c dst sat r =>
    some { lw 0x038 with vd := d, va := a, modi := 0#2 ++ bit sat ++ dst, cls := c, rnd := r.code }
  | .cvth d a dst sat h32 r =>
    some { lw 0x039 with vd := d, va := a, modi := 0#1 ++ bit h32 ++ bit sat ++ dst, cls := 3, rnd := r.code }
  | .cvtp d a c dst sat slot r =>
    some { lw 0x03a with
      vd := d, va := a, modi := 0#2 ++ bit sat ++ dst, cls := c, rnd := r.code,
      ext := 0#26 ++ slot }
  | .tagw t src =>
    match src with
    | .imm tag => some { lw 0x03b with vd := t.fld, modi := 0#5 ++ t.code ++ 0#1, ext := 0#23 ++ tag }
    | .scal r => some { lw 0x03b with vd := t.fld, va := SReg.byte r, modi := 0#5 ++ t.code ++ 1#1 }
  | .tagr d t => some { lw 0x03c with vd := SReg.byte d, va := t.fld, modi := 0#5 ++ t.code ++ 0#1 }
  | .vld d base off sz sx scale u disp c f =>
    some { lw 0x040 with
      vd := d, vb := SReg.byte base, vc := off, flag := f.code, cls := c, ext := ext26 disp,
      modi := 0#2 ++ bit u ++ scale ++ bit sx ++ sz.code }
  | .vst a base off sz scale u disp f =>
    some { lw 0x041 with
      va := a, vb := SReg.byte base, vc := off, flag := f.code, ext := ext26 disp,
      modi := 0#2 ++ bit u ++ scale ++ 0#1 ++ sz.code }
  | .qxch d a p => some { lw 0x080 with vd := d, va := a, modi := 0#6 ++ p }
  | .qbc d a n => some { lw 0x081 with vd := d, va := a, modi := 0#6 ++ n }
  | .qddx d a fine c r => some { lw 0x082 with vd := d, va := a, modi := 0#7 ++ bit fine, cls := c, rnd := r.code }
  | .qddy d a fine c r => some { lw 0x083 with vd := d, va := a, modi := 0#7 ++ bit fine, cls := c, rnd := r.code }
  | .vote sc dst a k =>
    some { lw 0x084 with scope := sc.code, vd := dst.vd, va := a, modi := 0#2 ++ dst.bits ++ 0#2 ++ k.code }
  | .shfl sc d a b m => some { encB 0x085 d a b (0#4 ++ m.code) with scope := sc.code }
  | .vred sc dst a op c r =>
    some { lw 0x086 with
      scope := sc.code, vd := dst.vd, va := a, modi := 0#2 ++ dst.bits ++ 0#1 ++ op.code, cls := c,
      rnd := r.code }
  | .vscan sc d a op excl c r =>
    some { lw 0x087 with
      scope := sc.code, vd := d, va := a, modi := 0#4 ++ bit excl ++ op.code, cls := c,
      rnd := r.code }
  | .bar sc => some { lw 0x088 with scope := sc.code }
  | .lbar => some { lw 0x089 with scope := 3 }
  | .setdcl n => some { lw 0x08a with scope := 3, modi := 0#6 ++ n }
  | .gwid d => some { lw 0x08b with vd := SReg.byte d }
  | .regang => some { lw 0x08c with scope := 1 }
  | .lexit => some (lw 0x08d)
  | .refill d => some { lw 0x08e with vd := d }
  | .spawn d a base f => some { lw 0x08f with vd := d, va := a, vb := SReg.byte base, flag := f.code }
  | .evsig n => some (encB 0x090 0 0 n 0)
  | .evwait n cons f => some { encB 0x091 0 0 n (0#5 ++ bit cons) with flag := f.code }
  | .evclr n => some (encB 0x092 0 0 n 0)
  | .vldx d base off cnt scale u na disp c f =>
    some { lw 0x0c0 with
      vd := d, vb := SReg.byte base, vc := off, flag := f.code, cls := c, ext := ext26 disp,
      modi := 0#1 ++ bit na ++ bit u ++ scale ++ cnt.code }
  | .vstx a base off cnt scale u disp f =>
    some { lw 0x0c1 with
      va := a, vb := SReg.byte base, vc := off, flag := f.code, ext := ext26 disp,
      modi := 0#2 ++ bit u ++ scale ++ cnt.code }
  | .spld d base off sz sx scale u rem disp c f =>
    some { lw 0x0c2 with
      vd := d, vb := SReg.byte base, vc := off, flag := f.code, cls := c,
      ext := 0#8 ++ remPos rem ++ disp, modi := 0#1 ++ remBit rem ++ bit u ++ scale ++ bit sx ++ sz.code }
  | .spst a base off sz scale u rem disp f =>
    some { lw 0x0c3 with
      va := a, vb := SReg.byte base, vc := off, flag := f.code,
      ext := 0#8 ++ remPos rem ++ disp, modi := 0#1 ++ remBit rem ++ bit u ++ scale ++ 0#1 ++ sz.code }
  | .atom d a base off op dw ord ms u scale c f =>
    some { lw 0x0c4 with
      vd := d, va := a, vb := base.vb, vc := off, flag := f.code, cls := c,
      modi := base.sp? ++ ord.code ++ bit dw ++ op.code, ext := 0#24 ++ scale ++ bit u ++ ms.code }
  | .satom d a base c op dw ord ms disp f =>
    some { lw 0x0c5 with
      vd := SReg.byte d, va := SReg.byte a, vb := base.vb, vc := SReg.byte c, flag := f.code,
      modi := base.sp? ++ ord.code ++ bit dw ++ op.code, ext := 0#4 ++ disp ++ 0#3 ++ ms.code }
  | .fence k ms => some { lw 0x0c6 with modi := 0#3 ++ ms.code ++ k.code }
  | .waita d a base ne ms tmo =>
    some { lw 0x0c7 with
      vd := SReg.byte d, va := SReg.byte a, vb := base.vb,
      modi := 0#3 ++ ms.code ++ base.sp? ++ bit ne, ext := 0#14 ++ tmo }
  | .msend a dst sz f =>
    match dst with
    | .imm p q => some { lw 0x0c8 with va := a, flag := f.code, modi := 0#5 ++ sz.code, ext := 0#24 ++ q ++ p }
    | .scal r => some { lw 0x0c8 with va := a, vb := SReg.byte r, flag := f.code, modi := 0#4 ++ 1#1 ++ sz.code }
  | .mrecv d b sz wait q c f =>
    some { lw 0x0c9 with
      vd := d, vb := SReg.byte b, flag := f.code, cls := c, modi := 0#4 ++ bit wait ++ sz.code,
      ext := 0#27 ++ q }
  | .mqst d k p q =>
    some { lw 0x0ca with vd := SReg.byte d, modi := 0#7 ++ bit (k == .cred), ext := 0#24 ++ q ++ p }
  | .pref base off k scale u disp =>
    some { lw 0x0cb with vb := SReg.byte base, vc := off, modi := 0#3 ++ bit u ++ scale ++ k.code, ext := ext26 disp }
  | .cmaintL1inv len base f => some (encCm 0 (SReg.byte len) (SReg.byte base) f)
  | .cmaintWb len base f => some (encCm 1 (SReg.byte len) (SReg.byte base) f)
  | .cmaintWbinv len base f => some (encCm 2 (SReg.byte len) (SReg.byte base) f)
  | .cmaintIcinv len base f => some (encCm 3 (SReg.byte len) (SReg.byte base) f)
  | .cmaintTlbinv len base f => some (encCm 4 (SReg.byte len) (SReg.byte base) f)
  | .cmaintTlbctx f => some (encCm 5 0 0 f)
  | .mma sc d a t bcode reuse c e =>
    some ({ lw 0x200 with
      scope := sc.code, vd := d.setWidth 8, va := a, vb := t.setWidth 8, modi := 0#3 ++ bcode,
      reuse := bit reuse, cls := c }.withCtl e)
  | .mvm d a h bcode brot reuse c e =>
    match h with
    | .scal r => some ({ lw 0x201 with
      vd := d.setWidth 8, va := a, vb := SReg.byte r, modi := 0#1 ++ brot ++ bcode,
        reuse := bit reuse, cls := c }.withCtl e)
    | .vec r => some ({ lw 0x201 with
      vd := d.setWidth 8, va := a, vb := r, modi := 1#1 ++ brot ++ bcode,
        reuse := bit reuse, cls := c }.withCtl e)
  | .tld d base sc disp c e =>
    some ({ lw 0x202 with
      vd := d.setWidth 8, vb := base.vb, modi := 0#6 ++ bit sc ++ base.sp?, ext := ext26 disp,
      cls := c }.withCtl e)
  | .tst a base sc disp e =>
    some ({ lw 0x203 with
      va := a.setWidth 8, vb := base.vb, modi := 0#6 ++ bit sc ++ base.sp?,
      ext := ext26 disp }.withCtl e)
  | .tzr d c e => some ({ lw 0x204 with vd := d.setWidth 8, cls := c }.withCtl e)
  | .accz d c e => some ({ lw 0x205 with vd := d.setWidth 8, cls := c }.withCtl e)
  | .accrd d a n c0 e =>
    some ({ lw 0x206 with vd := d, va := a.setWidth 8, modi := 0#5 ++ n.code, ext := 0#25 ++ c0 }.withCtl e)
  | .accwr d a n c0 e =>
    some ({ lw 0x207 with vd := d.setWidth 8, va := a, modi := 0#5 ++ n.code, ext := 0#25 ++ c0 }.withCtl e)
  | .dsub base e => some ({ lw 0x208 with vb := SReg.byte base }.withCtl e)
  | .recfl base e => some ({ lw 0x209 with vb := SReg.byte base }.withCtl e)
  | .beamq a base q list e =>
    some ({ lw 0x20a with va := SReg.byte a, vb := SReg.byte base, ext := 0#15 ++ list ++ q }.withCtl e)
  | .covq q list e => some ({ lw 0x20b with ext := 0#15 ++ list ++ q }.withCtl e)
  | .rayq a base q e => some ({ lw 0x20c with va := a, vb := SReg.byte base, ext := 0#28 ++ q, cls := 3 }.withCtl e)
  | .ellq a base k1 cont q e =>
    some ({ lw 0x20d with
      va := a, vb := SReg.byte base, modi := 0#4 ++ bit cont ++ k1, ext := 0#28 ++ q,
      cls := 3 }.withCtl e)
  | .ringst a b w64 e => some ({ lw 0x20e with va := a, vb := SReg.byte b, modi := 0#7 ++ bit w64 }.withCtl e)
  | .ringld d b w64 line c e =>
    some ({ lw 0x20f with
      vd := d, vb := SReg.byte b, modi := 0#7 ++ bit w64, ext := 0#22 ++ line,
      cls := c }.withCtl e)
  | .oprdy => some (lw 0x240)
  | .mfence d => some { lw 0x241 with vd := SReg.byte d }
  | .mwait src =>
    match src with
    | .imm n => some { lw 0x242 with ext := 0#22 ++ n }
    | .scal r => some { lw 0x242 with va := SReg.byte r, modi := 1 }
  | .cbtst d a b acq w =>
    some { lw 0x243 with
      vd := SReg.byte d, va := SReg.byte a, vb := SReg.byte b, modi := 0#7 ++ bit acq,
      ext := 0#28 ++ w }
  | .cbwait d a b w =>
    some { lw 0x244 with vd := SReg.byte d, va := SReg.byte a, vb := SReg.byte b, ext := 0#28 ++ w }
  | .cpsts d a => some { lw 0x245 with vd := SReg.byte d, va := SReg.byte a }
  | .mcnt form =>
    match form with
    | .opn nv np aw1 => some { lw 0x246 with va := SReg.byte nv, vb := SReg.byte np, ext := 0#26 ++ aw1 }
    | .close => some { lw 0x246 with modi := 1 }
  | .mvtx a vc => some { lw 0x247 with va := a, vc := vc }
  | .mprim a vc => some { lw 0x248 with va := a, vc := vc }
  | .qrd d q w c => some { lw 0x249 with vd := d, ext := 0#23 ++ w ++ q, cls := c }
  | .qwait q => some { lw 0x24a with ext := 0#28 ++ q }
  | .srate d a => some { lw 0x24b with vd := SReg.byte d, va := SReg.byte a }
  | .vfpush nb a =>
    match nb with
    | none => some { lw 0x280 with va := a }
    | some r => some { lw 0x280 with vd := SReg.byte r, va := a, modi := 1 }
  | .vfpop d nb =>
    match nb with
    | none => some { lw 0x281 with vd := d }
    | some r => some { lw 0x281 with vd := d, vb := SReg.byte r, modi := 1 }
  | .vfcnt d => some { lw 0x282 with vd := SReg.byte d }
  | .pgreq d ptn => some { lw 0x283 with vd := SReg.byte d, modi := 0#6 ++ 0#1 ++ bit ptn }
  | .pgreqCan d ptn => some { lw 0x283 with vd := SReg.byte d, modi := 0#6 ++ 1#1 ++ bit ptn }
  | .laneReservedNop k rest => some (LWord.ofBits (0b111111#6 ++ k ++ rest))
  | _ => none

/-- The bytes of an instruction in ascending address: 4 for a scalar word, 13 for a lane instruction in its full form
(R69, R70); none for a step of the device. -/
def encode (i : Instr) : List Byte :=
  match encodeScalar i with
  | some w => leBytes 4 w.toNat
  | none =>
    match encodeLWord i with
    | some w => 0xE0#8 :: leBytes 12 w.toBits.toNat
    | none => []

/-- Every selector bound, system privilege: the context under which an encoding alone is judged. -/
def LaneCtx.any : LaneCtx := ⟨true, true, true, true⟩

/-- The instruction read from a row's bits: 32 bits are a scalar word; more are a lane item's bytes, the first in bits
[7:0]. -/
def decodeTableWord (nbits w : Nat) : Option Instr :=
  if nbits ≤ 32 then some (decodeScalar (BitVec.ofNat 32 w))
  else if nbits ≤ 104 then some (decodeLaneItem LaneCtx.any (leBytes 13 w)).1
  else none

end Sys2Proof
end

