-- ==== Sys2Proof/Machine/PortLink.lean ====
section
/-! DEFINITION. The sending side of the peer ports (28 R411, R412): which port an access takes, its flit, and what the transmit buffer
sends. -/

namespace Sys2Proof.Machine

/-- The port, 1 to 8, of a peer. Assumption 60: DESIGN CHOICE. -/
def portOf (peer : Nat) : Nat := 1 + Config.peerPort peer % 8
/-- The window of a stream, 16 to 1,024 flits. Assumption 60: DESIGN CHOICE. -/
def windowOf (stream : Nat) : Nat := 16 + Config.streamWindow stream % 1009
/-- Flits of the replay buffer (R411). -/
abbrev replaySize : Nat := 4096
def State.port (s : State) (n : Nat) : Port := FMap.get s.ports n
def State.setPort (s : State) (n : Nat) (p : Port) : State := { s with ports := FMap.put s.ports n p }

/-- The first flit of the transmit buffer may go (R411): the port is UP, the replay buffer has room, and its stream's window too. -/
def Port.ready (p : Port) : Bool :=
  match p.wait with
  | f :: _ => p.st == 1 && decide (p.replay.length < replaySize) &&
      decide ((p.replay.filter fun x => x.stream == f.stream).length < windowOf f.stream)
  | [] => false
/-- Flits leave the transmit buffer in its order; at most `k` of them. -/
def State.pump : Nat → State → Nat → State
  | 0, s, _ => s
  | k + 1, s, n =>
    let p := s.port n
    match p.wait with
    | f :: r =>
      if p.ready then
        let f1 := { f with seq := p.txSeq }
        State.pump k ({ s with outs := s.outs ++ [Output.flit n f1] }.setPort n { p with
          wait := r, replay := p.replay ++ [f1], txSeq := p.txSeq + 1, since := if p.replay.isEmpty then s.ns else p.since }) n
      else s
    | [] => s
/-- Everything that may leave a port's transmit buffer leaves. -/
def State.pumpAll (s : State) (n : Nat) : State := s.pump ((s.port n).wait.length + 1) n
/-- An access of an interface to a peer's aperture (R412): it travels on the ordered stream of the pair and reaches EXP plus its offset.
Assumption 60: DESIGN CHOICE. -/
def State.sendPeer (s : State) (vi peer off : Nat) (body : Dword → FlitBody) : State :=
  let exp := match s.iface? vi with
    | some i => (FMap.get i.peers peer).getD 0
    | none => 0
  let n := portOf peer
  let p := s.port n
  (s.setPort n { p with wait := p.wait ++ [{ seq := 0, stream := 256 * vi + peer, body := body (exp + BitVec.ofNat 64 off) }] }).pumpAll n
/-- The interface whose context an ASID is. Assumption 60: DESIGN CHOICE. -/
def State.viOf (s : State) (asid : Word) : Nat :=
  match s.ifaces.find? fun e => match e.2 with
    | some i => i.asid == asid
    | none => false with
  | some e => e.1
  | none => 0

end Sys2Proof.Machine
end

