-- ==== Sys2Proof/Machine/Mem.lean ====
section
/-! DEFINITION. Memory behind the instructions: DRAM through the L2, the store path and the L1 of each core (12 R212,
R213), page walks and leases (12 R221 to R225, 21 R343), scratchpads (12 R210). -/

namespace Sys2Proof.Machine

/-! ### DRAM (12 R206, R213, R216, R226) -/

/-- End of DRAM (R206). -/
abbrev dramEnd : Nat := 0xC000000000
/-- A byte range lies wholly in DRAM. -/
def inDram (a n : Nat) : Bool := decide (a + n ≤ dramEnd)
/-- 64-byte line number. -/
def lineOf (a : Nat) : Nat := a / 64

/-- One byte of a memory; an unlisted byte reads zero. Assumption 5: DESIGN CHOICE. -/
def Memory.read (m : Memory) (a : Nat) : Byte := FMap.get m a
/-- Write one byte, keeping the canonical form. -/
def Memory.write (m : Memory) (a : Nat) (b : Byte) : Memory := FMap.put m a b
/-- Write bytes at rising addresses. -/
def Memory.writeAt (m : Memory) (a : Nat) : List Byte → Memory
  | [] => m
  | b :: r => Memory.writeAt (Memory.write m a b) (a + 1) r
/-- The canonical form. -/
def Memory.wf (m : Memory) : Bool := FMap.wf m
/-- Bytes from an address. -/
def Memory.bytes (m : Memory) (a n : Nat) : List Byte := (List.range n).map fun i => Memory.read m (a + i)

/-- Keys of poisoned units (R216) outside DRAM's lines: `kind` 1 a 64-bit unit of the L2, 2 of the ring region, 3 of a scratchpad, 4 of a
template table. -/
def unitKey (kind n : Nat) : Nat := kind * 2 ^ 40 + n
/-- A byte of DRAM is poisoned, by its line or by its 64-bit unit in the L2 (R216). -/
def State.badByte (s : State) (a : Nat) : Bool := FMap.get s.poison (lineOf a) || FMap.get s.poison (unitKey 1 (a / 8))
/-- Keys of the 64-bit units that a write of `n` bytes at `a` covers whole. -/
def wholeUnits (kind a n : Nat) : List Nat :=
  ((List.range (n / 8 + 1)).filter fun i => decide (a ≤ 8 * (a / 8 + i)) && decide (8 * (a / 8 + i) + 8 ≤ a + n)).map fun i =>
    unitKey kind (a / 8 + i)
/-- A write clears the poison of every 64-bit unit that it covers whole (R216). -/
def State.clearUnits (s : State) (kind a n : Nat) : State :=
  if s.poison.isEmpty then s else { s with poison := (wholeUnits kind a n).foldl (fun p k => FMap.put p k false) s.poison }
/-- Write cells into DRAM through the L2: the lines turn dirty (R226); a write that covers a whole line, or a whole 64-bit unit, clears its
poison (R216). -/
def State.l2Write (s : State) (cs : List Host.Cell) : State :=
  let lines := (cs.map fun c => lineOf c.1).eraseDups
  { s with
    mem := cs.foldl (fun m c => Memory.write m c.1 c.2) s.mem
    dirty := lines.foldl (fun d l => FMap.put d l true) s.dirty
    poison := if s.poison.isEmpty then s.poison else lines.foldl (fun p l =>
      let has := fun i => cs.any fun c => c.1 == 64 * l + i
      let p1 := (List.range 8).foldl (fun p u =>
        if (List.range 8).all fun i => has (8 * u + i) then FMap.put p (unitKey 1 (8 * l + u)) false else p) p
      if (List.range 64).all has then FMap.put p1 l false else p1) s.poison }

/-- Runs of cells at rising addresses, each with its first address. -/
def runsOf (cs : List Host.Cell) : List (Nat × List Byte) :=
  (cs.foldl (fun (acc : List (Nat × List Byte)) c => match acc with
    | (a, bs) :: r => if c.1 = a + bs.length then (a, bs ++ [c.2]) :: r else (c.1, [c.2]) :: acc
    | [] => [(c.1, [c.2])]) []).reverse
/-- An address of the map lies in no reserved range (R206). -/
def mapped (a : Nat) : Bool :=
  decide (a < dramEnd) || a / 2 ^ 48 == 4 || a / 2 ^ 48 == 5 || (decide (0x8000000000000 ≤ a) && decide (a < 0x8000150000000)) ||
    (decide (0xF000000000000 ≤ a) && decide (a < 0xF000100000000))
/-- Writes outside DRAM wait for the clock's end, when the window, control register or aperture takes them; reserved ranges discard theirs
(R206). -/
def State.post (s : State) (vi : Nat) (cs : List Host.Cell) : State :=
  { s with posted := s.posted ++ (runsOf (cs.filter fun c => decide (dramEnd ≤ c.1) && mapped c.1)).map fun r => (vi, r.1, r.2) }
/-- A hardware write at a region a register names (R206). -/
def State.hwWrite (s : State) (a : Nat) (bs : List Byte) : State :=
  let cs := bs.zipIdx.map fun e => (a + e.2, e.1)
  (s.l2Write (cs.filter fun c => decide (c.1 < dramEnd))).post 0 cs
/-- A hardware read of DRAM at a region a register names (R206); bytes outside DRAM read zero here (`State.hwReadAll` reads windows too). -/
def State.hwRead (s : State) (a n : Nat) : List Byte :=
  (List.range n).map fun i => if a + i < dramEnd then Memory.read s.mem (a + i) else 0
/-- One 8-byte read through the L2. -/
def State.read64 (s : State) (a : Nat) : Dword := BitVec.ofNat 64 (leVal (s.hwRead a 8))
/-- Some byte of the range is poisoned (R216): the line of the first such byte. -/
def State.poisoned (s : State) (a n : Nat) : Option Nat := ((List.range n).find? fun i => s.badByte (a + i)).map fun i => lineOf (a + i)

/-- The L2 writes a line back to DRAM (R226): the line's bit is set in the dirty bitmap, but for lines of the side table. -/
def State.writeBack (s : State) (line : Nat) : State :=
  if FMap.get s.dirty line then
    let s1 := { s with dirty := FMap.put s.dirty line false }
    let db := s.dirtyBase.toNat
    let a := 64 * line
    if db = 0 || (decide (db ≤ a) && decide (a < db + 24 * 2 ^ 20)) then s1
    else
      let j := a / 4096 % 512
      let b := db + 64 * (a / 2 ^ 21) + j / 8
      s1.hwWrite b [Memory.read s1.mem b ||| (1#8 <<< (j % 8))]
  else s

/-! ### L1 and the store path (12 R212, 13 R229, R230) -/

/-- Key of an L1 line. -/
def l1Key (core line : Nat) : Nat := core * 2 ^ 46 + line

/-- The newest byte of a core's stores on their way to the L2. -/
def pathByte (core a : Nat) (p : List (Nat × List Host.Cell)) : Option Byte :=
  p.foldl (fun acc e => if e.1 == core then (match e.2.reverse.find? fun c => c.1 == a with
    | some c => some c.2
    | none => acc) else acc) none

/-- What a core sees of a DRAM byte past its L1: its newest store not yet in the L2, else the L2. -/
def State.coreByte (s : State) (core a : Nat) : Byte :=
  match pathByte core a s.path with
  | some b => b
  | none => Memory.read s.mem a

/-- Every store of a core reaches the L2 (13 R231). -/
def State.drain (s : State) (core : Nat) : State :=
  let mine := s.path.filter fun e => e.1 == core
  let s1 := mine.foldl (fun s e => s.l2Write e.2) s
  { s1 with path := s.path.filter fun e => e.1 != core }

/-- Every store on its way reaches the L2: an access that used a dropped translation has reached it (12 R227). -/
def State.drainAll (s : State) : State := { s.path.foldl (fun (s : State) e => s.l2Write e.2) s with path := [] }

/-- The store at a place of the path reaches the L2 when no earlier store of its core to its lines is on its way (13 R229). -/
def State.storeArrives (s : State) (i : Nat) : State :=
  match s.path[i]? with
  | none => s
  | some e =>
    if (s.path.take i).any fun x => x.1 == e.1 && x.2.any fun c => e.2.any fun y => lineOf y.1 == lineOf c.1 then s
    else { s.l2Write e.2 with path := s.path.eraseIdx i }

/-- Drop lines of a core's L1. -/
def State.l1Drop (s : State) (core : Nat) (p : Nat → Bool) : State :=
  { s with l1 := FMap.keep s.l1 fun k => k / 2 ^ 46 != core || !p (k % 2 ^ 46) }

/-- A core's plain store to DRAM (R212): it takes its place in the core's store path, and updates a present L1 line. -/
def State.coreStore (s : State) (core : Nat) (cs : List Host.Cell) : State :=
  { s with
    path := s.path ++ [(core, cs)]
    l1 := cs.foldl (fun (m : FMap (Option (List Byte))) c =>
      match FMap.get m (l1Key core (lineOf c.1)) with
      | none => m
      | some bs => FMap.put m (l1Key core (lineOf c.1)) (some (bs.set (c.1 % 64) c.2))) s.l1 }

/-- A line leaves a core's L1 to make room (R212: 256 sets of 8 ways): when its set holds 8 lines, one of them, which is free.
Assumption 82: DESIGN CHOICE. -/
def State.l1Room (s : State) (core line : Nat) : State :=
  let mine := s.l1.filter fun e => e.1 / 2 ^ 46 == core
  if mine.length < 8 then s
  else
    let set := mine.filter fun e => Config.l1Set (e.1 % 2 ^ 46) % 256 == Config.l1Set line % 256
    if set.length < 8 then s
    else match set[(Config.freeWord s.clk line).toNat % set.length]? with
      | some e => { s with l1 := FMap.put s.l1 e.1 none }
      | none => s
/-- Fill a line into a core's L1 (R212). -/
def State.l1Fill (s : State) (core line : Nat) : State :=
  match FMap.get s.l1 (l1Key core line) with
  | some _ => s
  | none =>
    let bs := (List.range 64).map fun i => s.coreByte core (64 * line + i)
    let s1 := s.l1Room core line
    { s1 with l1 := FMap.put s1.l1 (l1Key core line) (some bs) }

/-- A core's plain load of one DRAM byte (R230), its core's stores to the line having arrived where the leaf is not cached in the L1: from
the L1 where the leaf is and the L1 holds the line, else what the core's own stores and the L2 hold. -/
def State.loadByte (s : State) (core ca a : Nat) : Byte :=
  if ca = 0 then
    match FMap.get s.l1 (l1Key core (lineOf a)) with
    | some bs => bs.getD (a % 64) 0
    | none => s.coreByte core a
  else s.coreByte core a

/-- A store of a core on its way to a line reaches the L2 ahead of the core's later access to that line (13 R229). -/
def State.drainLines (s : State) (core : Nat) (p : Nat → Bool) : State :=
  let mine := fun (e : Nat × List Host.Cell) => e.1 == core && e.2.any fun c => p (lineOf c.1)
  let s1 := (s.path.filter mine).foldl (fun s e => s.l2Write e.2) s
  { s1 with path := s.path.filter fun e => !mine e }

/-- A write that bypasses the L1s (R212): atomics, copies, MSEND and agents other than a core's plain stores; present
lines of the issuing core that it writes are invalidated. -/
def State.l2Direct (s : State) (core : Option Nat) (cs : List Host.Cell) : State :=
  let s1 := match core with
    | some c => (s.drainLines c fun l => cs.any fun x => lineOf x.1 == l).l1Drop c fun l => cs.any fun x => lineOf x.1 == l
    | none => s
  s1.l2Write cs

/-- A scope of cluster or wider (13 R228). -/
def wideScope : MScope → Bool
  | .gang | .block => false
  | _ => true

/-- An acquire performed on a core (13 R231): at cluster scope or wider its stores reach the L2 and its L1 is invalidated. -/
def State.acquire (s : State) (core : Nat) (ms : MScope) : State :=
  if wideScope ms then (s.drain core).l1Drop core fun _ => true else s
/-- A release performed on a core (13 R231, R234). Assumption 23: DEDUCED. -/
def State.release (s : State) (core : Nat) (ms : MScope) : State :=
  if wideScope ms then s.drain core else s

/-! ### Page tables (12 R221 to R225) -/

/-- Kinds of access checked. -/
inductive Acc where | load | store | fetch
  deriving DecidableEq, Repr

/-- Outcome of a translation: a physical address with the leaf's CA and its place, a park (21 R345), a leaf that is a
migratable absent page, or a failure with the kind of 21 R336. -/
inductive Xlate where
  | ok (pa ca : Nat) (leafAt : Nat) (leaf : Dword) (vbase size : Nat)
  | absent (leafAt : Nat)
  | fail (kind : Nat)
  deriving DecidableEq, Repr

/-- Field ADDR of an entry as an address (R222). -/
def pteAddr (e : Dword) : Nat := bitsOf e.toNat 51 8 * 256
/-- CA of an entry (R222). -/
def pteCa (e : Dword) : Nat := bitsOf e.toNat 53 52
/-- A leaf over `size` bytes is malformed (R223). -/
def leafBad (e : Dword) (size : Nat) : Bool :=
  let a := pteAddr e
  let dram := inDram a size
  let host := a / 2 ^ 48 == 4 && (a + size - 1) / 2 ^ 42 == a / 2 ^ 42
  let peer := a / 2 ^ 48 == 5 && (a + size - 1) / 2 ^ 40 == a / 2 ^ 40
  let win := decide (0x8000000000000 ≤ a) && decide (a + size ≤ 0x8000150000000) && (a + size - 1) / 2 ^ 22 == a / 2 ^ 22
  let ctrl := decide (0xF000000000000 ≤ a) && decide (a + size ≤ 0xF000100000000)
  a % size != 0 || (e.getLsbD 3 && !e.getLsbD 2) || pteCa e == 3 ||
  (pteCa e == 0 && !dram) || (pteCa e == 1 && !dram && !host && !peer) ||
  (pteCa e == 2 && !dram && !host && !peer && !win && !ctrl) ||
  (pteCa e == 2 && e.getLsbD 5 && (win || ctrl))

/-- Rights of a leaf (R223, checks 5 and 6). -/
def leafRight (e : Dword) (acc : Acc) (sys : Bool) : Option Nat :=
  if !sys && !e.getLsbD 5 then some 4
  else
    let ok := match acc with
      | .load => e.getLsbD 2
      | .store => e.getLsbD 3
      | .fetch => e.getLsbD 4
    if ok then none else some 5

/-- Levels of the walk below an entry's table (R221): index high and low bit, next table's size, leaf size. -/
def walkLevels : List (Nat × Nat × Nat × Nat) :=
  [(55, 39, 4096, 0), (38, 30, 4096, 2 ^ 30), (29, 21, 256, 2 ^ 21), (20, 16, 0, 2 ^ 16)]

/-- The entry that a walk uses at a level: as it stands in memory, or a pointer that a walker cache still holds (R227), where they differ
either. Assumption 82: DESIGN CHOICE. -/
def State.walkEntry (s : State) (asid : Word) (lo va at_ : Nat) : Dword :=
  let now := s.read64 at_
  match s.walker.find? fun e => e.1 == asid && e.2.1 == lo && e.2.2.1 == va / 2 ^ lo with
  | none => now
  | some e => if e.2.2.2 = now then now else if Config.freeBit s.clk at_ then e.2.2.2 else now
/-- Walk the levels from a table (R223). `demand` launches see an absent migratable leaf. -/
def State.walkFrom (s : State) (asid : Word) (demand : Bool) (va : Nat) (acc : Acc) (sys : Bool) :
    List (Nat × Nat × Nat × Nat) → Nat → Xlate
  | [], _ => .fail 3
  | (hi, lo, next, leafSize) :: r, table =>
    let at_ := table + 8 * bitsOf va hi lo
    let e := s.walkEntry asid lo va at_
    if !e.getLsbD 0 then
      (if demand && e.getLsbD 7 && !e.getLsbD 1 && leafSize != 0 then .absent at_ else .fail 2)
    else if e.getLsbD 1 then
      if next = 0 then .fail 3
      else if pteAddr e % next != 0 || !inDram (pteAddr e) next then .fail 3
      else s.walkFrom asid demand va acc sys r (pteAddr e)
    else if leafSize = 0 then .fail 3
    else if leafBad e leafSize then .fail 3
    else match leafRight e acc sys with
      | some k => .fail k
      | none => .ok (pteAddr e + va % leafSize) (pteCa e) at_ e (va / leafSize * leafSize) leafSize

/-- The pointer entries that a walk from a table uses, as the walker caches keep them. -/
def State.walkPtrs (s : State) (asid : Word) (va : Nat) : List (Nat × Nat × Nat × Nat) → Nat → List (Word × Nat × Nat × Dword)
  | [], _ => []
  | (hi, lo, next, _) :: r, table =>
    let e := s.walkEntry asid lo va (table + 8 * bitsOf va hi lo)
    if e.getLsbD 0 && e.getLsbD 1 && next != 0 then (asid, lo, va / 2 ^ lo, e) :: s.walkPtrs asid va r (pteAddr e) else []

/-- The unit that makes an access, by which TLBs serve it (R224). -/
inductive TlbUser where | core | bte | dde | front
  deriving DecidableEq, Repr
/-- Who makes an access: its core, context, privilege, demand flag, leases (`none`: not leased) and unit. -/
structure Who where
  core   : Nat
  asid   : Word
  root   : Dword
  sys    : Bool
  demand : Bool
  leases : Option (List (Bool × Nat × Nat))
  user   : TlbUser := .core
  deriving Repr

/-- Leases of a launch (21 R343): its ranges and, read-only, its scalar and lane code. -/
def Launch.leaseList (l : Launch) : Option (List (Bool × Nat × Nat)) :=
  if l.kd.demand then none
  else some ([(false, l.kd.scbase.toNat, l.kd.scsize.toNat), (false, l.kd.lcbase.toNat, l.kd.lcsize.toNat)] ++
    l.kd.leases.map fun e => (e.1, e.2.1.toNat, e.2.2.toNat))

/-- A byte is inside a lease that allows the access (R343). -/
def leaseOk (ls : Option (List (Bool × Nat × Nat))) (acc : Acc) (a : Nat) : Bool :=
  match ls with
  | none => true
  | some l => l.any fun e => (e.1 || acc != .store) && decide (e.2.1 ≤ a) && decide (a < e.2.1 + e.2.2)

/-- The requester that a gang is. -/
def State.whoGang (s : State) (g : Gang) : Who :=
  let l := (s.launch? g.launch).getD {}
  let root := match s.iface? g.vi with
    | some i => i.ptroot
    | none => 0
  { core := g.core, asid := g.asid, root := root, sys := g.priv, demand := l.kd.demand, leases := l.leaseList }

/-- Local engine range (16 R277). -/
def localRange (va : Nat) : Bool := decide (0xFFFFFFFFFE0000 ≤ va) && decide (va < 2 ^ 56)

/-- The TLBs that serve a requester, nearest first (R224): a core's, its cluster's, the last level of the core's layer; a BTE has no
first, the DDE's last level is layer 0's, and the front end has one of its own. Assumption 82: DESIGN CHOICE. -/
def Who.tlbs (w : Who) : List Nat :=
  match w.user with
  | .core => if w.core < 2000 then [w.core, 4000 + clusterOf w.core, 5000 + layerOf w.core] else [2000]
  | .bte => [4000 + clusterOf w.core, 5000 + layerOf w.core]
  | .dde => [4000 + clusterOf w.core, 5000]
  | .front => [2000]
/-- Entries of a TLB (R224). -/
def tlbSize (t : Nat) : Nat := if t < 4000 then 64 else if t < 5000 then 2048 else 524288
/-- A cached translation that covers the address, in the first of some TLBs that has one (R224, R227). -/
def State.tlbHit (s : State) (ts : List Nat) (asid : Word) (va : Nat) : Option (Nat × Nat × Dword) :=
  ts.findSome? fun t => (s.tlb.find? fun e => e.1 == t && e.2.1 == asid && decide (e.2.2.1 ≤ va) && decide (va < e.2.2.1 + e.2.2.2.1)).map
    fun e => (e.2.2.1, e.2.2.2.1, e.2.2.2.2)
/-- A translation enters a TLB that does not hold it; a full one loses an entry, which is free (R224). Assumption 82: DESIGN CHOICE. -/
def State.tlbFill (s : State) (t : Nat) (asid : Word) (vb size : Nat) (leaf : Dword) : State :=
  if s.tlb.any fun e => e.1 == t && e.2.1 == asid && e.2.2.1 == vb && e.2.2.2.1 == size then s
  else
    let mine := s.tlb.filter fun e => e.1 == t
    let rest := if mine.length < tlbSize t then s.tlb
      else match mine[(Config.freeWord s.clk t).toNat % mine.length]? with
        | some e => s.tlb.erase e
        | none => s.tlb
    { s with tlb := (t, asid, vb, size, leaf) :: rest }

/-- Check and translate one byte's address (R223): lease, bits [63:56], then the leaf the core's TLB holds or a walk.
A range of another kind is named by `kind` 10 (lease) to 1. -/
def State.xlate (s : State) (w : Who) (acc : Acc) (va : Nat) : Xlate :=
  if !leaseOk w.leases acc va then .fail 10
  else if 2 ^ 56 ≤ va then .fail 1
  else match s.tlbHit w.tlbs w.asid va with
    | some (vb, size, leaf) =>
      (match leafRight leaf acc w.sys with
        | some k => .fail k
        | none => .ok (pteAddr leaf + (va - vb)) (pteCa leaf) 0 leaf vb size)
    | none =>
      if inDram w.root.toNat (2 ^ 20) && w.root.toNat % 2 ^ 20 == 0
      then s.walkFrom w.asid w.demand va acc w.sys walkLevels w.root.toNat else .fail 3

/-- Use a translation (R224, R225): a walk sets A in the leaf and leaves its pointers in the walker caches, and the translation enters
every TLB that serves the requester. -/
def State.install (s : State) (w : Who) (va : Nat) (x : Xlate) : State :=
  match x with
  | .ok _ _ leafAt leaf vb size =>
    let leaf' := leaf ||| 0x40
    let s1 := if leafAt = 0 || leaf.getLsbD 6 then s else s.l2Write [(leafAt, BitVec.ofNat 8 (leaf'.toNat % 256))]
    let s2 := if leafAt = 0 then s1
      else
        let ps := s.walkPtrs w.asid va walkLevels w.root.toNat
        { s1 with walker := ps ++ s1.walker.filter fun e => !ps.any fun p => p.1 == e.1 && p.2.1 == e.2.1 && p.2.2.1 == e.2.2.1 }
    w.tlbs.foldl (fun (s : State) t => s.tlbFill t w.asid vb size leaf') s2
  | _ => s

/-- First addresses of the parts of `n` bytes from `va` in distinct 64 KiB granuleStarts. -/
def granuleStarts (va n : Nat) : List Nat :=
  (List.range ((va + n - 1) / 65536 - va / 65536 + 1)).map fun i => if i = 0 then va else (va / 65536 + i) * 65536
/-- Translate and install every granule of an access; meant for one that has passed its checks. -/
def State.installAll (s : State) (w : Who) (acc : Acc) (va n : Nat) : State :=
  if n = 0 then s else (granuleStarts va n).foldl (fun (s : State) a => s.install w a (s.xlate w acc a)) s

/-- What checking an access finds. -/
inductive Chk where
  | ok
  | park (va : Nat)
  | bad (kind : Nat) (va : Nat)
  deriving DecidableEq, Repr

/-- Host and peer apertures answer for their registered ranges (27 R397), and for a peer that the context's interface is bound to, whose
port is not DOWN (28 R412, R413): a physical byte the transport can carry. Assumption 60: DESIGN CHOICE. -/
def State.remoteOk (s : State) (asid : Word) (pa : Nat) : Bool :=
  if pa / 2 ^ 48 = 4 then
    match s.iface? (pa % 2 ^ 48 / 2 ^ 42) with
    | some i => i.regions.any fun r => decide (r.1.toNat ≤ pa % 2 ^ 42) && decide (pa % 2 ^ 42 < r.1.toNat + r.2)
    | none => false
  else if pa / 2 ^ 48 = 5 then
    let peer := pa % 2 ^ 48 / 2 ^ 40
    (match s.iface? (s.viOf asid) with
      | some i => i.asid == asid && (FMap.get i.peers peer).isSome
      | none => false) && (s.port (portOf peer)).st != 0
  else true

/-- Check one byte of a virtual access by R223, R277 and the apertures. -/
def State.chkByte (s : State) (w : Who) (acc : Acc) (va : Nat) : Chk :=
  if localRange va then (if acc == .fetch then .bad 5 va else .ok)
  else match s.xlate w acc va with
    | .ok pa _ _ _ _ _ => if s.remoteOk w.asid pa then .ok else .bad 5 va
    | .absent _ => .park va
    | .fail k => .bad k va

/-- Check every byte of an access; the first failing byte decides. Assumption 21: DEDUCED. -/
def State.chk (s : State) (w : Who) (acc : Acc) (va n : Nat) : Chk :=
  (List.range n).foldl (fun c i => match c with
    | .ok => s.chkByte w acc ((va + i) % 2 ^ 64)
    | c => c) .ok

/-- The physical address of a checked byte; zero where it has none. -/
def State.paOf (s : State) (w : Who) (acc : Acc) (va : Nat) : Nat × Nat :=
  match s.xlate w acc va with
  | .ok pa ca _ _ _ _ => (pa, ca)
  | _ => (0, 0)

/-! ### Scratchpads (12 R210, R211) -/

/-- Key of a scratchpad byte of a core. -/
def spKey (core off : Nat) : Nat := core * 2 ^ 19 + off
/-- `n` bytes of a core's scratchpad become zero, and nothing of them is poisoned (R210, R216). -/
def State.spClear (s : State) (core off n : Nat) : State :=
  { s.clearUnits 3 (spKey core off) n with
    sp := FMap.keep s.sp fun a => !(decide (spKey core off ≤ a) && decide (a < spKey core off + n)) }
/-- Bytes of a block's scratchpad. -/
def State.spRead (s : State) (b : Block) (off n : Nat) : List Byte :=
  Memory.bytes s.sp (spKey b.core (256 * b.spbase + off)) n
/-- A word of a block's scratchpad under its key in `Gang.hist`. -/
def State.spWord (s : State) (b : Block) (k : Nat) : Word := BitVec.ofNat 32 (leVal (s.spRead b (4 * (k - 2 ^ 19)) 4))
/-- Query commands of a gang, waiting or in flight, that own a byte of a range of the scratchpad (18 R324). -/
def Gang.owners (g : Gang) (off n : Nat) : List Nat :=
  ((g.rq ++ g.queries.filterMap fun q => q.2.cmd).filter fun (c : Cmd) =>
    c.own.any fun r => decide (r.1 < off + n) && decide (off < r.1 + r.2)).map (·.id)
/-- Bytes of a block's scratchpad are about to be written: the engine knows what they held (15 R273), and a query that owns one of them is
spoilt (18 R324). -/
def State.spNote (s : State) (b : Block) (off n : Nat) : State :=
  ((s.blockGangs b).filter fun e => !(e.2.owners off n).isEmpty).foldl (fun (s : State) e => match s.gang? e.1 with
    | some g => s.updGang e.1 { g with spoilt := (g.spoilt ++ g.owners off n).eraseDups }
    | none => s) (s.spTouched b (s.spWord b) (spKeys off n))
def State.spWrite (s0 : State) (b : Block) (off : Nat) (bs : List Byte) : State :=
  let s := (s0.spNote b off bs.length).clearUnits 3 (spKey b.core (256 * b.spbase + off)) bs.length
  { s with sp := Memory.writeAt s.sp (spKey b.core (256 * b.spbase + off)) bs }
/-- The block a cluster access reaches (R211): on the core at a position of the issuing core's cluster, the block of
the same launch with the lowest linear index. -/
def State.reachBlock (s : State) (g : Gang) (pos : Nat) : Option Block :=
  if pos = posOf g.core then s.block? g.block
  else
    let c := 8 * clusterOf g.core + pos
    (s.blockList.filter fun e => e.2.core == c && e.2.launch == g.launch && !e.2.desched).foldl
      (fun acc e => match acc with
        | none => some e.2
        | some b => if e.2.idx < b.idx then some e.2 else some b) none

/-! ### Core windows: holders of a register (12 R208) and storage regions (12 R207) -/

/-- The gang of a core that holds a physical vector register, and its number in that gang. -/
def State.holderV (s : State) (core part phys : Nat) : Option (Nat × Gang × Nat) :=
  (s.gangList.find? fun e => e.2.core == core && e.2.part == part && !e.2.desched && decide (e.2.vbase ≤ phys) &&
    decide (phys < e.2.vbase + e.2.regs)).map fun e => (e.1, e.2, phys - e.2.vbase)
/-- The gang of a core that holds a physical accumulator, numbered 16·partition + n. -/
def State.holderA (s : State) (core phys : Nat) : Option (Nat × Gang × Nat) :=
  (s.gangList.find? fun e => e.2.core == core && !e.2.desched && decide (16 * e.2.part + e.2.abase ≤ phys) &&
    decide (phys < 16 * e.2.part + e.2.abase + e.2.accs)).map fun e => (e.1, e.2, phys - 16 * e.2.part - e.2.abase)
/-- The block of a core that holds a physical tile. -/
def State.holderT (s : State) (core phys : Nat) : Option (Nat × Block × Nat) :=
  (s.blockList.find? fun e => e.2.core == core && !e.2.desched && decide (e.2.tbase ≤ phys) &&
    decide (phys < e.2.tbase + e.2.tiles)).map fun e => (e.1, e.2, phys - e.2.tbase)
/-- The gang in a residency slot of a core (10 R190). -/
def State.atSlot (s : State) (core slot : Nat) : Option (Nat × Gang) :=
  s.gangList.find? fun e => e.2.core == core && e.2.slotNo == slot && !e.2.desched

/-- A place in a window's storage (R207, R208). -/
inductive Place where
  | sp (off : Nat)
  | vreg (part phys lane byte : Nat)
  | acc (phys row col byte : Nat)
  | tile (phys byte : Nat)
  | side (phys byte : Nat)
  | vtag (part phys : Nat)
  | atag (phys : Nat)
  | ttag (phys : Nat)
  | bte (off : Nat)
  | tpl (off : Nat)
  | mirror (slot k byte : Nat)
  | rsv
  deriving DecidableEq, Repr

/-- The place at a window offset (R207, R208). -/
def placeOf (off : Nat) : Place :=
  if off < 0x80000 then .sp off
  else if off < 0xE0000 then
    let o := off - 0x80000
    .vreg (o / 0x18000) (o % 0x18000 / 128) (o % 128 / 4) (o % 4)
  else if off < 0x120000 then
    let o := off - 0xE0000
    .acc (o / 0x1000) (o % 0x1000 / 128) (o % 128 / 4) (o % 4)
  else if off < 0x140000 then .tile ((off - 0x120000) / 0x800) ((off - 0x120000) % 0x800)
  else if off < 0x148000 then .side ((off - 0x140000) / 0x200) ((off - 0x140000) % 0x200)
  else if off < 0x150000 then .rsv
  else if off < 0x150C00 then .vtag ((off - 0x150000) / 768) ((off - 0x150000) % 768)
  else if off < 0x150C40 then .atag (off - 0x150C00)
  else if off < 0x150C80 then .ttag (off - 0x150C40)
  else if off < 0x160000 then .rsv
  else if off < 0x170000 then .bte (off - 0x160000)
  else if off < 0x174000 then .tpl (off - 0x170000)
  else if off < 0x180000 then .rsv
  else if off < 0x190000 then .mirror ((off - 0x180000) / 0x400) ((off - 0x180000) % 0x400 / 4) (off % 4)
  else .rsv

/-- A core without power (24 R378, 26 R385): its window reads zero and discards writes. Assumption 40: DEDUCED. -/
def State.coreDark (s : State) (core : Nat) : Bool :=
  (s.core core).gate == 2 || (FMap.get s.domains (domainOf core)).idle == 3

/-! ### Poison that a read consumes (12 R216, 21 R336, R349) -/

/-- The source of the machine check of a read that consumes a poisoned byte of a window. The table of R336 names none for the template
table; the model takes 5. Assumption 83: DESIGN CHOICE. -/
def State.winBad (s : State) (core off : Nat) : Option Nat :=
  if s.coreDark core then none
  else match placeOf off with
    | .sp o => if FMap.get s.poison (unitKey 3 (spKey core o / 8)) then some 4 else none
    | .vreg p r l _ => match s.holderV core p r with
      | some (_, g, n) => if FMap.get g.bad (32 * n + l) && !g.busyV n then some 0 else none
      | none => none
    | .acc r row col _ => match s.holderA core r with
      | some (_, g, n) => if FMap.get g.bad (8192 + 1024 * n + 32 * row + col) && !g.busyV (256 + n) then some 1 else none
      | none => none
    | .tile t b => match s.holderT core t with
      | some (_, k, n) => if FMap.get k.bad ((2048 * n + b) / 8) then some 3 else none
      | none => none
    | .side t b => match s.holderT core t with
      | some (_, k, n) => if FMap.get k.bad (16384 + (512 * n + b) / 8) then some 3 else none
      | none => none
    | .vtag p r => match s.holderV core p r with
      | some (_, g, n) => if FMap.get g.bad (16384 + n) && !g.busyV n then some 2 else none
      | none => none
    | .atag r => match s.holderA core r with
      | some (_, g, n) => if FMap.get g.bad (16640 + n) && !g.busyV (256 + n) then some 2 else none
      | none => none
    | .ttag t => match s.holderT core t with
      | some (_, k, n) => if FMap.get k.bad (32768 + n) then some 2 else none
      | none => none
    | .tpl o => if FMap.get s.poison (unitKey 4 ((0x4000 * core + o) / 8)) then some 5 else none
    | _ => none
/-- Source and TADDR of the machine check of a read that consumes a poisoned byte at a physical address: a DRAM line's address, a
scratchpad's or a template's physical address, else zero. -/
def State.physBad (s : State) (pa : Nat) : Option (Nat × Nat) :=
  if pa < dramEnd then (if s.badByte pa then some (5, 64 * lineOf pa) else none)
  else if 0x8000000000000 ≤ pa && pa < 0x8000150000000 then
    (s.winBad ((pa - 0x8000000000000) / 2 ^ 22) (pa % 2 ^ 22)).map fun n => (n, if 4 ≤ n then pa / 8 * 8 else 0)
  else none
/-- Source and TADDR of the machine check of a virtual load of `n` bytes, if it would consume poison; the local engine range is the core's
own table. -/
def State.poisonAt (s : State) (w : Who) (va n : Nat) : Option (Nat × Nat) :=
  (List.range n).findSome? fun i =>
    if localRange (va + i) then
      (let o := va + i - 0xFFFFFFFFFE0000
       if 0x10000 ≤ o && o < 0x14000 then s.physBad (0x8000000000000 + w.core * 2 ^ 22 + 0x170000 + (o - 0x10000)) else none)
    else s.physBad (s.paOf w .load (va + i)).1
/-- The same of a read of a block's scratchpad. -/
def State.spPoison (s : State) (b : Block) (off n : Nat) : Option (Nat × Nat) :=
  if s.poison.isEmpty then none
  else (List.range n).findSome? fun i => s.physBad (0x8000000000000 + b.core * 2 ^ 22 + 256 * b.spbase + off + i)

end Sys2Proof.Machine
end

