-- ==== Sys2Proof/Machine/Trace.lean ====
section
/-! DEFINITION. The Chronograph's packets (10 R192 to R197): what each event of a traced fragment writes. -/

namespace Sys2Proof.Machine

/-- Tracing is on and selects the gang (R190, R191). -/
def State.traced (s : State) (g : Gang) : Bool :=
  let c := (s.core g.core).cg
  c.ctl.getLsbD 0 && c.sel.getLsbD g.slotNo

/-- First two bytes of a per-fragment packet (R192). -/
def pktHead (ty : Nat) (m : BitVec 4) (g : Gang) : List Byte :=
  [BitVec.ofNat 8 (ty + 16 * m.toNat), BitVec.ofNat 8 g.slotNo]

/-- A BRANCH (2) or GUARD (10) packet (R192). -/
def pktBits (ty : Nat) (m : BitVec 4) (g : Gang) (bits : List Bool) : List Byte :=
  pktHead ty m g ++ [BitVec.ofNat 8 bits.length] ++
    leOf 4 (bits.zipIdx.foldl (fun a e => a + b2n e.1 * 2 ^ e.2) 0)

/-- The SYNC of a fragment (R192, R195); masks show the fragment's slices. -/
def pktSync (s : State) (g : Gang) (f : Frag) : List Byte :=
  pktHead 1 f.slices g ++ leOf 8 f.spc.toNat ++ leOf 4 f.lpc.toNat ++ leOf 6 s.ns ++
    leOf 4 (g.xm &&& sliceMask f.slices).toNat ++ leOf 4 (g.lm &&& sliceMask f.slices).toNat

/-- Bytes in the ring not yet read (R196). -/
def Chrono.used (c : Chrono) : Nat := (c.wr - c.rd).toNat
/-- The ring can take `n` bytes (R196). -/
def Chrono.fits (c : Chrono) (n : Nat) : Bool := decide ((c.used + n) % 2 ^ 32 ≤ c.size.toNat)
/-- TGRAN in ns (R191). -/
def Chrono.gran (c : Chrono) : Nat := 4 ^ (2 + bitsOf c.ctl.toNat 9 8)
/-- Sync interval in bytes (R191). -/
def Chrono.interval (c : Chrono) : Nat := 2 ^ (8 + bitsOf c.ctl.toNat 5 2)

/-- Write bytes at CGWR, wrapping byte by byte, past translation and leases (R190, 12 R206). -/
def State.cgBytes (s : State) (core : Nat) (bs : List Byte) : State :=
  let c := (s.core core).cg
  let cs := bs.zipIdx.map fun e => (c.base.toNat + (c.wr.toNat + e.2) % 2 ^ 32 % c.size.toNat, e.1)
  let s1 := (s.l2Write (cs.filter fun x => decide (x.1 < dramEnd))).post 0 cs
  s1.updCore core fun k => { k with cg := { k.cg with wr := k.cg.wr + BitVec.ofNat 32 bs.length, full := false } }

/-- What a group needs ahead of the fragment's own packets (R194, R195, R197): a TIME, a pending LOSS, a SYNC. -/
structure Lead where
  time : Option (List Byte)
  loss : Option (List Byte)
  sync : Option (List Byte)

/-- The packets that must go ahead of a group (R197), by the fragment's last SYNC. -/
def Chrono.lead (c : Chrono) (g : CgGroup) (last : Option (Nat × Nat)) : Lead :=
  let time := if g.ns / c.gran = c.timeNs / c.gran then none
    else some ([8, 0] ++ leOf 2 (min (g.ns - c.timeNs) 65535))
  let loss := if c.loss = 0 then none else some ([9, 0] ++ leOf 2 (min c.loss 65535))
  let pos := c.wr.toNat + (time.getD []).length + (loss.getD []).length
  let due := match last with
    | none => true
    | some (w, l) => loss.isSome || l != c.lossAt || decide (c.interval ≤ (pos + 2 ^ 32 - w) % 2 ^ 32)
  { time := time, loss := loss, sync := if due then some g.sync else none }

/-- The last SYNC of a fragment of a gang (R195). -/
def Chrono.last (c : Chrono) (gid key : Nat) : Option (Nat × Nat) := (c.syncs.find? fun e => e.1 == (gid, key)).map (·.2)
/-- Some fragments of a gang take a last SYNC, and whether their packets are undefined. -/
def Chrono.setLast (c : Chrono) (gid : Nat) (keys : List Nat) (v : Option (Nat × Nat)) (undef : Bool) : Chrono :=
  let mine := fun (e : Nat × Nat) => e.1 == gid && keys.contains e.2
  { c with
    syncs := (match v with
      | some x => keys.map fun k => ((gid, k), x)
      | none => []) ++ c.syncs.filter fun e => !mine e.1
    undef := (if undef then keys.map fun k => (gid, k) else []) ++ c.undef.filter fun e => !mine e }
/-- The last SYNC of a re-ganged fragment (R195): the earliest of those that merged, when each had one and no LOSS has been written since
any of them. -/
def Chrono.joined (c : Chrono) (gid : Nat) (keys : List Nat) : Option (Nat × Nat) :=
  let ls := keys.map fun k => c.last gid k
  let age := fun (x : Nat × Nat) => (c.wr.toNat + 2 ^ 32 - x.1) % 2 ^ 32
  if ls.all fun l => match l with
    | some x => x.2 == c.lossAt
    | none => false
  then (ls.filterMap id).foldl (fun acc x => match acc with
    | none => some x
    | some y => if age y < age x then some x else some y) none
  else none

/-- Pending BRANCH and GUARD packets of a fragment, the one whose first bit arose first going first (R193). -/
def pendPkts (g : Gang) (f : Frag) : List (List Byte) :=
  let b := if f.tr.branch.isEmpty then [] else [pktBits 2 f.slices g f.tr.branch]
  let q := if f.tr.guard.isEmpty then [] else [pktBits 10 f.slices g f.tr.guard]
  if f.tr.branchFirst then b ++ q else q ++ b

/-- Bytes that the ring holds undefined (R196). Assumption 3: DESIGN CHOICE. -/
def freeBytes (n : Nat) (bs : List Byte) : List Byte := bs.mapIdx fun i _ => Config.freeByte n i
/-- Write a group if it fits (R197), keeping the references of R194 and R195; what the fragment, or while any fragment awaits its SYNC
the core itself, writes after a bad CGRD is undefined (R196). -/
def State.cgWrite (s : State) (core : Nat) (x : CgGroup) : Option State :=
  let c := (s.core core).cg
  let l := c.lead x (c.last x.gang x.key)
  let pre := (l.time.getD []) ++ (l.loss.getD [])
  let own := (l.sync.getD []) ++ x.pkts.flatten
  if c.fits (pre ++ own).length then
    let lost := c.undef.contains (x.gang, x.key) && l.sync.isNone
    let s1 := s.cgBytes core (if c.undef.isEmpty then pre else freeBytes s.clk pre)
    let s2 := s1.updCore core fun k => { k with cg := { k.cg with
      loss := 0, lossAt := k.cg.lossAt + (if l.loss.isSome then 1 else 0),
      timeNs := if l.time.isSome || l.sync.isSome then x.ns else k.cg.timeNs } }
    let s3 := if l.sync.isSome then s2.updCore core fun k =>
        { k with cg := k.cg.setLast x.gang [x.key] (some (k.cg.wr.toNat, k.cg.lossAt)) false } else s2
    some (s3.cgBytes core (if lost then freeBytes s.clk own else own))
  else none

/-- Discard a group (R197): FULL is set and the event's packet and its BRANCH and GUARD count. -/
def State.cgLose (s : State) (core n : Nat) : State :=
  s.updCore core fun k => { k with cg := { k.cg with full := true, drops := min (k.cg.drops + n) 65535, loss := k.cg.loss + n } }

/-- A group of a gang that a pre-emption request targets is never held (R197). -/
def State.cgTargeted (s : State) (x : CgGroup) : Bool :=
  match s.gang? x.gang with
  | some g => g.target
  | none => false
/-- A group reaches the ring (R195, R197): a re-ganged fragment takes its last SYNC, the group is written, or dropped, and a split's
fragments inherit; none when stall mode holds it. Assumption 15: DEDUCED. -/
def State.cgTake (s : State) (core : Nat) (x : CgGroup) : Option State :=
  let set := fun (f : Chrono → Chrono) (s : State) => s.updCore core fun k => { k with cg := f k.cg }
  let s1 := if x.olds.isEmpty then s else set (fun c =>
    c.setLast x.gang [x.key] (c.joined x.gang x.olds) (x.olds.any fun k => c.undef.contains (x.gang, k))) s
  let kids := fun (s : State) => if x.kids.isEmpty then s else set (fun c =>
    c.setLast x.gang x.kids (c.last x.gang x.key) (c.undef.contains (x.gang, x.key))) s
  match s1.cgWrite core x with
  | some s2 => some (kids s2)
  | none => if (s.core core).cg.ctl.getLsbD 1 && !s.cgTargeted x then none else some (kids (s1.cgLose core x.pkts.length))
/-- Groups in the order in which one clock's enter the ring (R194): by partition, the lane stream's ahead of the scalar's. -/
def cgOrder (l : List CgGroup) : List CgGroup :=
  l.mergeSort fun a b => decide (a.part < b.part) || (decide (a.part = b.part) && (a.lane || !b.lane))
/-- The clock's end (R194, R197): the groups that wait and those of the clock go to the ring in order; from the first that stall mode holds,
the others wait behind it. Assumption 15: DEDUCED. -/
def State.cgFlush (s : State) (core : Nat) : State :=
  let c := (s.core core).cg
  if c.clockQ.isEmpty && c.waiting.isEmpty then s
  else
    let (s1, kept) := (c.waiting ++ cgOrder c.clockQ).foldl (fun (acc : State × List CgGroup) x =>
      if !acc.2.isEmpty && !acc.1.cgTargeted x then (acc.1, acc.2 ++ [x])
      else match acc.1.cgTake core x with
        | some t => (t, acc.2)
        | none => (acc.1, acc.2 ++ [x])) (s, [])
    s1.updCore core fun k => { k with cg := { k.cg with clockQ := [], waiting := kept, full := k.cg.full || !kept.isEmpty } }
/-- Discard the groups that wait and pass a test, counted as lost (R197). -/
def State.cgDiscard (s : State) (core : Nat) (p : CgGroup → Bool) : State :=
  let gone := (s.core core).cg.waiting.filter p
  let s1 := gone.foldl (fun (s : State) x => s.cgLose core x.pkts.length) s
  s1.updCore core fun k => { k with cg := { k.cg with waiting := k.cg.waiting.filter fun x => !p x } }

/-- The number of the gang on a core's residency slot. -/
def State.slotGang (s : State) (g : Gang) : Nat :=
  ((s.gangList.find? fun e => e.2.core == g.core && e.2.slotNo == g.slotNo && !e.2.desched).map fun e => e.1).getD 0

/-- The group that an event makes, with the fragment as it stood before the event (R197, R199). -/
def State.cgGroup (s : State) (g : Gang) (f : Frag) (lane : Bool) (own : List (List Byte)) : CgGroup :=
  { gang := s.slotGang g, key := f.tr.key, part := g.part, lane := lane, ns := s.ns, sync := pktSync s g f, pkts := pendPkts g f ++ own }
/-- A group joins those of its core's clock, and the fragment's pending bits go with it. -/
def State.cgPut (s : State) (g : Gang) (f : Frag) (x : CgGroup) : State × Frag :=
  if x.pkts.isEmpty then (s, f)
  else (s.updCore g.core fun k => { k with cg := { k.cg with clockQ := k.cg.clockQ ++ [x] } },
    { f with tr := { f.tr with branch := [], guard := [], branchFirst := true } })
/-- The pending bits of a fragment are flushed (R193), where its gang is traced. -/
def State.traceFlush (s : State) (g : Gang) (f : Frag) (lane : Bool) : State × Frag :=
  if s.traced g then s.cgPut g f (s.cgGroup g f lane []) else (s, f)
/-- A packet of the fragment, where its gang is traced (R193). -/
def State.trace (s : State) (g : Gang) (f : Frag) (lane : Bool) (pkt : List Byte) : State × Frag :=
  if s.traced g then s.cgPut g f (s.cgGroup g f lane [pkt]) else (s, f)

/-- One outcome of BC, BZM or LOOP (R193). -/
def State.traceBranch (s : State) (g : Gang) (f : Frag) (taken : Bool) : State × Frag :=
  if s.traced g then
    let tr := { f.tr with branch := f.tr.branch ++ [taken],
                          branchFirst := if f.tr.branch.isEmpty then f.tr.guard.isEmpty else f.tr.branchFirst }
    if tr.branch.length = 32 then s.traceFlush g { f with tr := tr } false else (s, { f with tr := tr })
  else (s, f)

/-- One outcome of a guarded VRUN at the head of the queue (R193). -/
def State.traceGuard (s : State) (g : Gang) (f : Frag) (entered : Bool) : State × Frag :=
  if s.traced g then
    let tr := { f.tr with guard := f.tr.guard ++ [entered],
                          branchFirst := if f.tr.guard.isEmpty then !f.tr.branch.isEmpty else f.tr.branchFirst }
    if tr.guard.length = 32 then s.traceFlush g { f with tr := tr } true else (s, { f with tr := tr })
  else (s, f)

/-- TARGET (R192): 0 JR, 1 RET, 2 trap entry, 3 TRET. -/
def State.traceTarget (s : State) (g : Gang) (f : Frag) (lane : Bool) (reason : Nat) (spc : Dword) : State × Frag :=
  s.trace g f lane (pktHead 3 f.slices g ++ [BitVec.ofNat 8 reason] ++ leOf 8 spc.toNat)

/-- MASK (R192, R193): one per changed mask, in the fragment's slices. -/
def State.traceMask (s : State) (g : Gang) (f : Frag) (lane : Bool) (m : MaskName) (old new : Word) : State × Frag :=
  let x := (old ^^^ new) &&& sliceMask f.slices
  if x = 0 then (s, f)
  else s.trace g f lane (pktHead 4 f.slices g ++ [match m with | .xm => 0#8 | .lm => 1#8 | .hm => 2#8] ++ leOf 4 x.toNat)

/-- SPLIT (R192): under the parent's mask, one byte per new fragment, which inherit the parent's last SYNC (R195) under the numbers that
`Gang.replaceFrag` gives them; cause 0 branch, 1 guard, 2 other scalar. Assumption 15: DEDUCED. -/
def State.traceSplit (s : State) (g : Gang) (f : Frag) (cause : Nat) (parts : List (BitVec 4 × Bool)) : State × Frag :=
  if s.traced g then
    let x := s.cgGroup g f (cause == 1) [pktHead 5 f.slices g ++ [BitVec.ofNat 8 parts.length] ++
      parts.map fun p => BitVec.ofNat 8 (p.1.toNat + 16 * b2n p.2 + 32 * cause)]
    s.cgPut g f { x with kids := (List.range parts.length).map fun i => g.trNext + i }
  else (s, f)

/-- EXIT (R192): 0 slice left, 1 fragment ended, 2 gang ended, 3 descheduled at PDONE. -/
def State.traceExit (s : State) (g : Gang) (f : Frag) (lane : Bool) (kind : Nat) : State × Frag :=
  s.trace g f lane (pktHead 7 f.slices g ++ [BitVec.ofNat 8 kind])

/-- REGANG (R192, R195): every merging fragment's pending bits go first, under its own mask; the merged fragment is named by the number that
it has been given. -/
def State.traceRegang (s : State) (g : Gang) (fs : List Frag) (merged : Frag) : State × Frag :=
  if s.traced g then
    let s1 := fs.foldl (fun s f => (s.traceFlush g f true).1) s
    let m := { merged with tr := { key := merged.tr.key } }
    s1.cgPut g m { s1.cgGroup g m true [pktHead 6 merged.slices g] with olds := fs.map fun f => f.tr.key }
  else (s, merged)

/-- Stall mode holds every traced fragment of a core on both streams while a group waits (R197); a targeted gang is not held. -/
def State.cgHeld (s : State) (g : Gang) : Bool := s.traced g && !g.target && !(s.core g.core).cg.waiting.isEmpty

/-! ### A scalar instruction whose sources differ (07 R141) -/

/-- Parts of a split in the order their packet lists them (10 R200). -/
def sortMasks (ms : List (BitVec 4)) : List (BitVec 4) := ms.mergeSort fun a b => decide (a.toNat ≤ b.toNat)

/-- Any other scalar instruction (R141): it stalls on a pending mark (R16); where the slices of the fragment disagree on
its sources it splits the fragment before it executes, one fragment for each distinct tuple of source values, each with the
instruction in execution (07 R144) and a SPLIT of cause 2 (10 R192); else it executes once. Assumptions 15, 70: DEDUCED. -/
def scalarOnce {α : Type} [DecidableEq α] (rs : List SReg) (src : SliceCopy → α) (s : State)
    (run : Gang → Frag → Result) : Result :=
  withCur s fun g fr =>
    if fr.free rs then
      match g.groups fr src with
      | [] | [_] => run g fr
      | ms =>
        let ms := sortMasks ms
        let (s1, f1) := s.traceSplit g fr 2 (ms.map fun m => (m, false))
        .next (s1.updGang s.gang (g.replaceFrag fr (ms.map fun m => { f1 with slices := m, swait := true })))
    else .next s

end Sys2Proof.Machine
end

