-- ==== Sys2Proof/Machine/Life.lean ====
section
/-! DEFINITION. Ends and cancellations: strips that are substituted and their log (22 R366, R368), block reports (09
R185), blocks and gangs that end (01 R33, 12 R218, 24 R373), and launches that are cancelled (21 R344). -/

namespace Sys2Proof.Machine

/-! ### Base-layer registers -/

/-- A plain register of the base-layer control range, by offset from 0xF_0000_0000_0000. -/
def State.breg (s : State) (off : Nat) : Word := FMap.get s.base (off / 4)
def State.setBreg (s : State) (off : Nat) (v : Word) : State := { s with base := FMap.put s.base (off / 4) v }
/-- Word `w` of a ring slot's descriptor (18 R312), without its STATE. -/
def State.sdesc (s : State) (slot w : Nat) : Word := s.breg (0x400000 + 16 * slot + 4 * w)
/-- State of a ring slot (18 R315): 0 EMPTY, 1 RENDERING, 2 DONE, 3 SCANNING, 4 SUBSTITUTED. -/
def State.slotState (s : State) (slot : Nat) : Nat := FMap.get s.slotSt slot
def State.setSlotState (s : State) (slot st : Nat) : State := { s with slotSt := FMap.put s.slotSt slot st }

/-! ### Meridian's log (22 R368) -/

/-- The log can take records: MLSIZE is a power of two from 64 to 65,536 and MLBASE is 4 KiB aligned. -/
def State.logOn (s : State) : Bool :=
  let n := (s.breg 0x402010).toNat
  let a := (s.breg 0x402008).toNat
  decide (64 ≤ n) && decide (n ≤ 65536) && n == 2 ^ Nat.log2 n && a % 4096 == 0

/-- A 32-byte record goes to the ring at MLWR (R368). -/
def State.logWrite (s : State) (bs : List Byte) : State :=
  if s.logOn then
    let base := (s.breg 0x402008).toNat + 2 ^ 32 * (s.breg 0x40200C).toNat
    let s1 := s.hwWrite (base + 32 * (s.mlwr.toNat % (s.breg 0x402010).toNat)) bs
    { s1 with mlwr := s.mlwr + 1 }
  else s
/-- An event is recorded (R368) while the log can take records; its nanosecond's records are written together. Assumption 49: DEDUCED. -/
def State.mlog (s : State) (event slot : Nat) (rate q : Nat) (frame : Word) (pred core : Nat) : State :=
  if s.logOn then
    let bs := leOf 8 s.ns ++ leOf 1 event ++ leOf 1 slot ++ leOf 1 (rate + 4 * q) ++ [0] ++ leOf 4 frame.toNat ++
      leOf 8 pred ++ leOf 4 core ++ [0, 0, 0, 0]
    { s with mlq := s.mlq ++ [(s.ns, event, slot, bs)] }
  else s
/-- The order of the records of one nanosecond (R369): by event code, then by slot. Assumption 49: DEDUCED. -/
def logOrder (l : List (Nat × Nat × Nat × List Byte)) : List (Nat × Nat × Nat × List Byte) :=
  l.mergeSort fun a b => decide (a.1 < b.1) || (decide (a.1 = b.1) && (decide (a.2.1 < b.2.1) ||
    (decide (a.2.1 = b.2.1) && decide (a.2.2.1 ≤ b.2.2.1))))
/-- The records of nanoseconds that have passed are written. -/
def State.logFlush (s : State) : State :=
  if s.mlq.isEmpty then s
  else (logOrder (s.mlq.filter fun e => e.1 != s.ns)).foldl (fun (s : State) e => s.logWrite e.2.2.2)
    { s with mlq := s.mlq.filter fun e => e.1 == s.ns }

def State.chain? (s : State) (id : Nat) : Option Chain := s.chains.find? fun c => c.id == id
def State.setChain (s : State) (c : Chain) : State :=
  { s with chains := s.chains.map fun x => if x.id == c.id then c else x }

/-! ### Front-end accesses in a launch's context -/

/-- The requester that a launch's front-end work is; the front end has no core of its own (number 2,000). -/
def State.whoLaunch (s : State) (l : Launch) : Who :=
  let i := (s.iface? l.vi).getD {}
  { core := 2000, asid := i.asid, root := i.ptroot, sys := l.kd.priv, demand := l.kd.demand, leases := l.leaseList, user := .front }

/-- A store goes out to a host or a peer aperture (27 R397, 28 R412), and awaits its acknowledgement. Assumption 75: DEDUCED. -/
def State.remoteStore (s : State) (vi pa : Nat) (bs : List Byte) (gid op : Option Nat) (va : Nat) : State :=
  if pa / 2 ^ 48 = 4 then
    { s with outs := s.outs ++ [.hostWrite (pa % 2 ^ 48 / 2 ^ 42) (pa % 2 ^ 42) bs],
             remote := s.remote ++ [{ peer := false, gang := gid, op := op, va := va }] }
  else if pa / 2 ^ 48 = 5 then
    let peer := pa % 2 ^ 48 / 2 ^ 40
    let s1 := s.sendPeer vi peer (pa % 2 ^ 40) fun a => .store vi a bs
    { s1 with remote := s1.remote ++ [{ peer := true, port := portOf peer, gang := gid, op := op, va := va }] }
  else s

/-- A load goes out to an aperture. Assumption 75: DEDUCED. -/
def State.remoteLoad (s : State) (vi pa n : Nat) : State :=
  if pa / 2 ^ 48 = 4 then { s with outs := s.outs ++ [.hostRead (pa % 2 ^ 48 / 2 ^ 42) (pa % 2 ^ 42) n] }
  else if pa / 2 ^ 48 = 5 then s.sendPeer vi (pa % 2 ^ 48 / 2 ^ 40) (pa % 2 ^ 40) fun a => .load vi a n
  else s

/-- Physical address of a byte of a virtual access that translates. -/
def State.pa? (s : State) (w : Who) (acc : Acc) (va : Nat) : Option Nat :=
  match s.xlate w acc va with
  | .ok pa _ _ _ _ _ => some pa
  | _ => none
/-- Write bytes at virtual addresses through the L2 for an agent that is no core: every byte goes where its own address lies, to DRAM, to an
aperture's transport, or to a window or a control register. -/
def State.agentWrite (s : State) (w : Who) (va : Nat) (bs : List Byte) : State :=
  let s1 := s.installAll w .store va bs.length
  let pas := bs.zipIdx.filterMap fun e => (s1.pa? w .store (va + e.2)).map fun pa => (pa, e.1)
  let s2 := s1.l2Write (pas.filter fun c => decide (c.1 < dramEnd))
  let vi := s2.viOf w.asid
  let aper := fun (c : Host.Cell) => c.1 / 2 ^ 48 == 4 || c.1 / 2 ^ 48 == 5
  let s3 := (runsOf (pas.filter aper)).foldl (fun (s : State) r => s.remoteStore vi r.1 r.2 none none va) s2
  s3.post vi (pas.filter fun c => !aper c)

/-! ### Error and block reports -/

/-- The record of a cause in a fragment (21 R342). Assumption 14: DEDUCED. -/
def State.mkErr (s : State) (g : Gang) (f : Frag) (code : Nat) (tval : Word) (taddr : Dword) (source : Nat) : ErrRec :=
  let b := (s.block? g.block).getD {}
  { time := s.ns, taddr := taddr, tval := tval, code := code, source := source, core := g.core, block := b.idx,
    gang := g.idx, slices := f.slices }

/-- The earlier of two records in station time; of two of one time the one kept first (21 R342). -/
def earlier (old : Option ErrRec) (e : ErrRec) : Option ErrRec :=
  match old with
  | none => some e
  | some x => if e.time < x.time then some e else some x
/-- The block that a record names has faulted (R185); a record of the report ring is about no block. -/
def State.markFaulted (s : State) (lid : Nat) (e : ErrRec) : State :=
  if e.source = 6 then s
  else { s with blocks := s.blocks.map fun (x : Nat × Option Block) => (x.1, x.2.map fun (b : Block) =>
      if b.launch = lid && b.idx = e.block then { b with faulted := true } else b) }
/-- Keep the earliest record of a launch and of its tree (09 R182, 21 R342), and note the block that faulted. -/
def State.addErr (s : State) (lid : Nat) (e : ErrRec) : State :=
  match s.launch? lid with
  | none => s
  | some l =>
    let t := FMap.get s.trees l.tree
    let s1 := (s.setLaunch lid { l with errRec := earlier l.errRec e }).markFaulted lid e
    { s1 with trees := FMap.put s1.trees l.tree { t with errRec := earlier t.errRec e } }

/-- Blocks of a launch (09 R179). -/
def Launch.blocks (l : Launch) : Nat := l.nx * l.ny * l.nz

/-- Write one block report record (09 R185); one that fails its checks is not written and leaves an error record. -/
def State.writeReport (s : State) (lid : Nat) (l : Launch) (idx status core ns : Nat) : State :=
  if l.brep = 0 then s
  else
    let w := s.whoLaunch l
    let va := l.brep.toNat + 16 * (idx % l.brepn)
    match s.chk w .store va 16 with
    | .ok => s.agentWrite w va (leOf 4 idx ++ leOf 2 status ++ leOf 2 core ++ leOf 8 ns)
    | .park a => s.addErr lid { time := s.ns, taddr := BitVec.ofNat 64 a, tval := 0x200, code := 12, source := 6 }
    | .bad k a => s.addErr lid { time := s.ns, taddr := BitVec.ofNat 64 a, tval := BitVec.ofNat 32 (256 * k), code := 12,
                                 source := 6 }

/-- Reports leave the reorder window in ascending order (R185): a record is a release of the core its block ran on (13 R232), and a block
that was never dispatched ended, as its record says, when the record is written. -/
def State.reportInOrder : Nat → State → Nat → State
  | 0, s, _ => s
  | n + 1, s, lid =>
    match s.launch? lid with
    | none => s
    | some l =>
      match FMap.get l.ended l.h with
      | none => s
      | some (status, core, ns) =>
        let s1 := (if core < nCores then s.release core .device else s).writeReport lid l l.h status core (if core < nCores then ns else s.ns)
        let l1 := (s1.launch? lid).getD l
        State.reportInOrder n (s1.setLaunch lid { l1 with h := l.h + 1, ended := FMap.put l1.ended l.h none }) lid

/-- A block's completion enters the window (R185). -/
def State.blockDone (s : State) (lid idx status core : Nat) : State :=
  match s.launch? lid with
  | none => s
  | some l =>
    State.reportInOrder (l.ended.length + 1)
      (s.setLaunch lid { l with ended := FMap.put l.ended idx (some (status, core, s.ns)) }) lid

/-! ### Blocks and gangs that end -/

/-- Disable a message queue (12 R220): HEAD takes TAIL, and every credit for it in the cluster becomes zero. -/
def State.mqOff (s : State) (core q : Nat) : State :=
  let s1 := s.updCore core fun k =>
    let m := FMap.get k.mqs q
    { k with mqs := FMap.put k.mqs q { m with cfg := m.cfg &&& 0x7FFFFFFF, head := m.tail, owner := none, senders := [] } }
  (List.range 8).foldl (fun s p => s.updCore (8 * clusterOf core + p) fun k =>
    { k with credits := FMap.put k.credits (8 * posOf core + q) 0 }) s1

/-- A block leaves its core (12 R218, 21 R353): its message queues are disabled. -/
def State.blockLeaves (s : State) (bid core : Nat) : State :=
  (List.range 8).foldl (fun s q =>
    if (FMap.get (s.core core).mqs q).owner == some bid then s.mqOff core q else s) s

/-- When the last block of a context has left both cores of a pair, its entries in either FIFO are dropped (24 R373). -/
def State.fifoSweep (s : State) (core : Nat) (asid : Word) : State :=
  let p := partnerOf core
  if s.gangList.any fun e => (e.2.core == core || e.2.core == p) && e.2.asid == asid && !e.2.desched then s
  else
    let drop := fun (k : Core) => { k with fifo := k.fifo.filter fun x => x.asid != asid }
    (s.updCore core drop).updCore p drop

/-- A gang's open mesh record is submitted to binning (17 R300, 18 R319). -/
def State.submitMesh (s : State) (gid : Nat) (g : Gang) : State :=
  match g.mesh with
  | none => s
  | some m => if g.binbase = 0 then s else { s with bins := s.bins ++ [(gid, g.launch, g.binbase, m)] }

/-- Remove EVWAIT registrations of a gang; they consume nothing (09 R188), and a clear event left without waiters frees its table entry (09
R187). Assumption 16: DEDUCED. -/
def State.dropWaiters (s : State) (gid : Nat) (p : Waiter → Bool) : State :=
  match s.gang? gid with
  | none => s
  | some g =>
    match s.iface? g.vi with
    | none => s
    | some i => s.setIface g.vi { i with events := i.events.foldl (fun (m : FMap Event) e =>
        let ws := e.2.waiters.filter fun w => !(w.gang == gid && p w)
        FMap.put m e.1 { e.2 with waiters := ws, inTable := e.2.inTable && (e.2.isSet || !ws.isEmpty) }) i.events }

/-- Remove an ended gang (01 R33), and with its last gang the block, whose report enters the window (09 R185). Assumption 41: DEDUCED. -/
def State.removeGang (s : State) (gid : Nat) : State :=
  match s.gang? gid with
  | none => s
  | some g =>
    let s0 := s.updCore g.core fun k => { k with held := k.held.filter fun (h : HeldStart) => h.gang != some gid }
    let s1 := (s0.dropWaiters gid fun _ => true).submitMesh gid g
    let s2 := { s1 with gangs := FMap.put s1.gangs gid none }
    match s2.block? g.block with
    | none => s2
    | some b =>
      let rest := b.gangs.filter fun x => x != gid
      if rest.isEmpty then
        let l := (s2.launch? g.launch).getD {}
        let status := if b.faulted then 1 else if l.cancelled then 2 else 0
        let s3 := s2.blockLeaves g.block b.core
        let s4 := { s3 with blocks := FMap.put s3.blocks g.block none,
                            sp := FMap.keep s3.sp fun a =>
                              !(decide (spKey b.core (256 * b.spbase) ≤ a) &&
                                decide (a < spKey b.core (256 * b.spbase) + b.scratch)) }
        (s4.blockDone g.launch b.idx status b.core).fifoSweep b.core g.asid
      else s2.setBlock g.block { b with gangs := rest }

/-- A gang without fragments ends once the commands that it has issued to the engines have completed (05 R109, 15 R272). Assumption 41:
DEDUCED. -/
def State.tryEnd (s : State) (gid : Nat) : State :=
  match s.gang? gid with
  | none => s
  | some g =>
    if g.frags.isEmpty && g.mq.isEmpty && g.running.isNone && g.cq.isEmpty && g.rq.isEmpty then s.removeGang gid else s

/-- A fragment's slices leave the gang with it, and its queued clauses are discarded (07 R154, 21 R344). They no longer count among the
gang's live slices, GWID's included: the spec tells slices that have left from slices that have ended, and does not say which of the
two GANG counts (07 R145, 08 R171). Assumption 85: DESIGN CHOICE. -/
def State.dropFrag (s : State) (gid : Nat) (f : Frag) : State :=
  match s.gang? gid with
  | none => s
  | some g => (s.updGang gid { g with
      frags := g.frags.filter fun x => x.slices &&& f.slices == 0
      live := g.live &&& ~~~f.slices
      lm := g.lm &&& ~~~(sliceMask f.slices) }).tryEnd gid
/-- End a fragment where it stands (21 R344), with its EXIT packet, which tells the gang's end from its own. -/
def State.endFrag (s : State) (gid : Nat) (f : Frag) (kind : Nat) : State :=
  match s.gang? gid with
  | none => s
  | some g =>
    let last := g.frags.all fun x => x.slices &&& f.slices != 0
    (s.traceExit g f true (if last then 2 else kind)).1.dropFrag gid f

/-! ### Cancellation (21 R344) -/

/-- An engine command whose guard is not decided yet, so that its engine has not accepted it (01 R25). -/
def Gang.heldCmd (g : Gang) (c : Cmd) : Bool :=
  match c.guard with
  | some n => (setBits 4 (c.mates.headD {}).slices).any fun sl => (FMap.get (g.copy sl).guards n.toNat).st == .unresolved
  | none => false
/-- End every fragment of a gang that is not in its handler; the others run on under the limit. Matrix commands that the engine has accepted
complete. -/
def State.cancelGang (s : State) (gid : Nat) : State :=
  match s.gang? gid with
  | none => s
  | some g =>
    let s0 := s.dropWaiters gid fun _ => true
    let g1 := { g with frags := g.frags.map fun (f : Frag) => if f.inHandler && !f.done then { f with cancelled := some s.ns } else f }
    let s1 := s0.updGang gid { g1 with cq := [], rq := [], mq := g1.mq.filter fun c => !g.heldCmd c }
    ((g1.frags.filter fun (f : Frag) => !f.inHandler || f.done).foldl (fun s f => s.endFrag gid f 1) s1).tryEnd gid

/-- Copies the launch started end with ERR 9 (16 R283). -/
def State.cancelCopies (s : State) (lid : Nat) : State :=
  { s with cores := s.cores.map fun e =>
      let mine := e.2.copies.filter fun c => c.launch == some lid
      (e.1, { e.2 with
        copies := e.2.copies.filter fun c => c.launch != some lid
        slots := mine.foldl (fun m c => FMap.put m c.slot { FMap.get m c.slot with st := 3, err := 9 }) e.2.slots }) }

/-- A launch leaves its interface's spawn queue (09 R181). -/
def State.unspawn (s : State) (lid vi : Nat) : State :=
  let s1 := { s with feq := s.feq.filter fun e => e != FeEvent.spawn lid }
  match s1.iface? vi with
  | none => s1
  | some i => s1.setIface vi { i with spawns := i.spawns.filter fun x => x != lid }

/-- Cancel one launch, leaving its chain to the caller. -/
def State.cancelOne (s : State) (lid : Nat) : State :=
  match s.launch? lid with
  | none => s
  | some l =>
    if l.cancelled then s
    else
      let s1 := (s.unspawn lid l.vi).setLaunch lid { l with cancelled := true }
      let s2 := (s1.gangsOf lid).foldl (fun s e => s.cancelGang e.1) s1
      let s3 := s2.cancelCopies lid
      ((List.range l.blocks).filter fun i => !l.dispatched.contains i).foldl
        (fun s i => s.blockDone lid i 2 0xFFFF) s3

/-- A chain's slot turns SUBSTITUTED (22 R366): logged, its WORK slot turns EMPTY, its launches are cancelled, and the
chain has ended with rate 2×2. -/
def State.substitute (s : State) (c : Chain) (event : Nat) : State :=
  let s1 := (s.setSlotState c.slot 4).mlog event c.slot c.rate 0 c.frame 0 0
  let s2 := match c.wslot with
    | some w => s1.setSlotState w 0
    | none => s1
  let s3 := { s2.setChain { c with ended := true } with
    rateLast := FMap.put s2.rateLast c.rgrp (some (2, false)) }
  c.launches.foldl (fun s l => s.cancelOne l) s3

/-- Cancel a launch (R344); the strip chain that contains it faults (18 R315, 22 R366). -/
def State.cancelLaunch (s : State) (lid : Nat) : State :=
  let s1 := s.cancelOne lid
  match s1.launch? lid with
  | none => s1
  | some l =>
    match l.chain with
    | none => s1
    | some cid =>
      match s1.chain? cid with
      | none => s1
      | some c => if s1.slotState c.slot = 1 && c.admitted && !c.ended then s1.substitute c 6 else s1

/-- A cause ends the gang at once (21 R340, R341): the error record, and the launch is cancelled. -/
def State.dieWith (s : State) (gid : Nat) (f : Frag) (e : ErrRec) : State :=
  match s.gang? gid with
  | none => s
  | some g =>
    let s1 := s.addErr g.launch e
    let s2 := (g.frags.filter fun x => x.slices &&& f.slices == 0).foldl (fun s x => s.endFrag gid x 1) s1
    (s2.endFrag gid f 1).cancelLaunch g.launch

end Sys2Proof.Machine
end

