-- ==== Sys2Proof/Machine/Operands.lean ====
section
/-! DEFINITION. Operand forms of the lane instructions: the registers each names (01 R13, 03 R64), the scalar registers
it writes (01 R18) and reads (06 R112), the B operand (06 R111), addresses (06 R135, 14 R244), and tag checks
(02 R36, 06 R114). -/

namespace Sys2Proof

/-! ### Spans -/

/-- Registers VLDX and VSTX move (14 R245). -/
def Span.count : Span → Nat
  | .x2 => 2 | .x4 => 4 | .x8 => 8
/-- Bytes of an access (06 R134). -/
def Size.bytes : Size → Nat
  | .byte => 1 | .half => 2 | .word => 4 | .dword => 8
/-- Registers of an access: a dword takes two (06 R135). -/
def Size.regs : Size → Nat
  | .dword => 2 | _ => 1
/-- Bytes of a message (12 R218). -/
def MsgSize.bytes : MsgSize → Nat
  | .s16 => 16 | .s32 => 32 | .s64 => 64 | .s128 => 128 | .s256 => 256
/-- Vector registers of a message (14 R253). -/
def MsgSize.regs : MsgSize → Nat
  | .s256 => 2 | _ => 1
end Sys2Proof

namespace Sys2Proof.Machine

/-- A run of register numbers. -/
def span (r : VReg) (n : Nat) : List Nat := (List.range n).map fun k => r.toNat + k
/-- Source and destination registers of CVT (06 R130). -/
def cvtSpans (c dst : Nat) : Nat × Nat :=
  let m := elemsPerWord c
  let n := elemsPerWord dst
  if m < n then (n / m, 1) else (1, m / n)

/-- Vector registers of data, ATOM (14 R248, R249): the data and, for cas, the new value. -/
def atomData (op : AtomOp) (dw : Bool) : Nat := (if dw then 2 else 1) * (if op = .cas then 2 else 1)

/-! ### Registers an instruction names (01 R13) -/

/-- Named vector registers, in the order vd, va, vb, vc; `aw` is the open mesh record's attribute words (17 R301), and MVTX names va at
the least. -/
def vregsOf (aw : Nat) (i : Instr) : List Nat :=
  let b : BSrc → List Nat := fun x => match x with
    | .vec r => [r.toNat]
    | _ => []
  let rd : RedDst → List Nat := fun x => match x with
    | .vec d => [d.toNat]
    | .scal _ _ => []
  match i with
  | .vadd d a x _ _ | .vsub d a x _ _ | .vmul d a x _ _ | .vmin d a x _ | .vmax d a x _ => [d.toNat, a.toNat] ++ b x
  | .vmad d a x c _ | .vprmb d a x c | .vsel d a x c => [d.toNat, a.toNat] ++ b x ++ [c.toNat]
  | .vand d a x | .vor d a x | .vxor d a x | .vandn d a x | .vshl d a x | .vshr d a x | .vsra d a x =>
    [d.toNat, a.toNat] ++ b x
  | .vabs d a _ _ | .vclz d a | .vpopc d a | .vbfx d a _ _ _ | .vbfi d a _ _ | .vmov d a => [d.toNat, a.toNat]
  | .vcmp dst a x _ _ => (match dst with
      | .vec d => [d.toNat]
      | _ => []) ++ [a.toNat] ++ b x
  | .vmovTos _ a _ => [a.toNat]
  | .vbcs d _ _ | .vli d _ _ _ | .vspc d _ => [d.toNat]
  | .fadd d a x _ _ | .fsub d a x _ _ | .fmul d a x _ _ | .fmin d a x _ | .fmax d a x _ => [d.toNat, a.toNat] ++ b x
  | .ffma d a x c _ _ => [d.toNat, a.toNat] ++ b x ++ [c.toNat]
  | .frnd d a _ _ | .fcls d a _ | .frcp d a | .frsq d a | .fsqrt d a _ | .fex2 d a | .flg2 d a | .fsin d a
  | .fcos d a => [d.toNat, a.toNat]
  | .padd d a x _ _ _ | .pmul d a x _ _ | .pmin d a x _ | .pmax d a x _ => [d.toNat, a.toNat] ++ b x
  | .pfma d a x c _ _ _ | .pdot2 d a x c _ _ | .idot4 d a x c _ _ _ => [d.toNat, a.toNat] ++ b x ++ [c.toNat]
  | .cvt d a c dst _ _ =>
    let (ns, nd) := cvtSpans c.fcode dst.toNat
    span d nd ++ span a ns
  | .cvth d a dst _ h32 _ =>
    let n := if h32 then 32 else 16
    span d (n / elemsPerWord dst.toNat) ++ span a n
  | .cvtp d a _ _ _ _ _ => [d.toNat, a.toNat]
  | .tagw t _ | .tagr _ t => match t with
    | .v r => [r.toNat]
    | _ => []
  | .vld d _ o sz _ _ _ _ _ _ => span d sz.regs ++ [o.toNat]
  | .vst a _ o sz _ _ _ _ => span a sz.regs ++ [o.toNat]
  | .qxch d a _ | .qbc d a _ | .qddx d a _ _ _ | .qddy d a _ _ _ => [d.toNat, a.toNat]
  | .vote _ dst a _ => rd dst ++ [a.toNat]
  | .shfl _ d a x _ => [d.toNat, a.toNat] ++ b x
  | .vred _ dst a _ _ _ => rd dst ++ [a.toNat]
  | .vscan _ d a _ _ _ _ => [d.toNat, a.toNat]
  | .refill d => [d.toNat]
  | .spawn d a _ _ => [d.toNat] ++ span a 2
  | .vldx d _ o n _ _ _ _ _ _ => span d n.count ++ [o.toNat]
  | .vstx a _ o n _ _ _ _ => span a n.count ++ [o.toNat]
  | .spld d _ o sz _ _ _ _ _ _ _ => span d sz.regs ++ [o.toNat]
  | .spst a _ o sz _ _ _ _ _ => span a sz.regs ++ [o.toNat]
  | .atom d a _ o op dw _ _ _ _ _ _ => span d (if dw then 2 else 1) ++ span a (atomData op dw) ++ [o.toNat]
  | .msend a _ sz _ => span a sz.regs
  | .mrecv d _ sz _ _ _ _ => span d sz.regs
  | .pref _ o _ _ _ _ => [o.toNat]
  | .mma _ _ a _ _ _ _ _ => span a 16
  | .mvm _ a h _ _ _ _ _ => span a 16 ++ (match h with
      | .vec r => [r.toNat]
      | _ => [])
  | .accrd d _ n _ _ => span d n.count
  | .accwr _ a n _ _ => span a n.count
  | .rayq a _ _ _ | .ellq a _ _ _ _ _ => span a 8
  | .ringst a _ w64 _ => span a (if w64 then 2 else 1)
  | .ringld d _ w64 _ _ _ => span d (if w64 then 2 else 1)
  | .mvtx a c => span a (max 1 aw) ++ [c.toNat]
  | .mprim a c => [a.toNat, c.toNat]
  | .qrd d _ _ _ => [d.toNat]
  | .vfpush _ a => [a.toNat]
  | .vfpop d _ => [d.toNat]
  | _ => []

/-- How many of the vector registers that `vregsOf` lists, from the first, an instruction only writes. -/
def vecDsts (i : Instr) : Nat :=
  let rd : RedDst → Nat := fun x => match x with
    | .vec _ => 1
    | .scal _ _ => 0
  match i with
  | .vcmp (.vec _) _ _ _ _ => 1
  | .vcmp _ _ _ _ _ | .vmovTos _ _ _ | .vbfi _ _ _ _ | .cvtp _ _ _ _ _ _ _ | .tagw _ _ | .tagr _ _ | .vst _ _ _ _ _ _ _ _
  | .vstx _ _ _ _ _ _ _ _ | .spst _ _ _ _ _ _ _ _ _ | .msend _ _ _ _ | .pref _ _ _ _ _ _ | .ringst _ _ _ _ | .rayq _ _ _ _
  | .ellq _ _ _ _ _ _ | .mvtx _ _ | .mprim _ _ | .vfpush _ _ => 0
  | .cvt _ _ c dst _ _ => (cvtSpans c.fcode dst.toNat).2
  | .cvth _ _ dst _ h32 _ => (if h32 then 32 else 16) / elemsPerWord dst.toNat
  | .vld _ _ _ sz _ _ _ _ _ _ | .spld _ _ _ sz _ _ _ _ _ _ _ => sz.regs
  | .vldx _ _ _ n _ _ _ _ _ _ => n.count
  | .atom _ _ _ _ _ dw _ _ _ _ _ _ => if dw then 2 else 1
  | .mrecv _ _ sz _ _ _ _ => sz.regs
  | .vote _ dst _ _ | .vred _ dst _ _ _ _ => rd dst
  | .accrd _ _ n _ _ => n.count
  | .ringld _ _ w64 _ _ _ => if w64 then 2 else 1
  | _ => 1
/-- Vector registers whose words an instruction reads as it issues; a matrix command reads its own later (15 R269). -/
def vecReads (i : Instr) : List Nat :=
  match i with
  | .mvm _ _ (.vec r) _ _ _ _ _ => [r.toNat]
  | .mma _ _ _ _ _ _ _ _ | .mvm _ _ _ _ _ _ _ _ | .accwr _ _ _ _ _ | .tagw _ _ | .tagr _ _ => []
  | _ => (vregsOf 1 i).drop (vecDsts i)
/-- The source of a machine check (21 R336) that a lane instruction raises over poisoned words or tags of the gang's registers (12 R216,
21 R349): words of the taking lanes, of a message those it sends (14 R253), and tags of the registers read. A register in flight is undefined and raises nothing (00 R1). -/
def Gang.poisonSrc (g : Gang) (f : Frag) (i : Instr) : Option Nat :=
  if g.bad.isEmpty then none
  else
    let rs := (vecReads i).filter fun r => !g.busyV r
    let ts := rs ++ (match i with
      | .tagr _ (.v r) => [r.toNat]
      | .tagr _ (.a r) => [256 + r.toNat]
      | _ => [])
    let ws := match i with
      | .msend a _ sz _ => if g.taking f = 0 then [] else (List.range (sz.bytes / 4)).map fun w => 32 * a.toNat + w
      | _ => rs.flatMap fun r => (lanesOf (g.taking f)).map fun l => 32 * r + l
    if ws.any fun k => !g.busyV (k / 32) && FMap.get g.bad k then some 0
    else if ts.any fun r => FMap.get g.bad (16384 + r) then some 2 else none

/-- Named accumulators. -/
def aregsOf : Instr → List Nat
  | .tagw (.a r) _ | .tagr _ (.a r) => [r.toNat]
  | .mma _ d _ _ _ _ _ _ | .mvm d _ _ _ _ _ _ _ | .accz d _ _ | .accwr d _ _ _ _ => [d.toNat]
  | .accrd _ a _ _ _ => [a.toNat]
  | _ => []
/-- Named tiles. -/
def tregsOf : Instr → List Nat
  | .tagw (.t r) _ | .tagr _ (.t r) => [r.toNat]
  | .mma _ _ _ t _ _ _ _ => [t.toNat]
  | .tld d _ _ _ _ _ | .tzr d _ _ => [d.toNat]
  | .tst a _ _ _ _ => [a.toNat]
  | _ => []

/-- Check 11 (R13): TVAL of the first register at or above its allocation: class in [9:8], number in [7:0]. The order in which registers are
looked at (vd, va, vb, vc, each span by rising number, then the accumulator, then the tile) and the number modulo 256 of a span's register
past v255 are the model's. Assumption 80: DESIGN CHOICE. -/
def overAlloc (regs accs tiles aw : Nat) (i : Instr) : Option Word :=
  match (vregsOf aw i).find? fun r => decide (regs ≤ r) with
  | some r => some (BitVec.ofNat 32 (r % 256))
  | none => match (aregsOf i).find? fun r => decide (accs ≤ r) with
    | some r => some (BitVec.ofNat 32 (0x100 + r))
    | none => match (tregsOf i).find? fun r => decide (tiles ≤ r) with
      | some r => some (BitVec.ofNat 32 (0x200 + r))
      | none => none

/-- Scalar registers a lane instruction writes, one per pending mark (01 R18); s0 is never marked. -/
def scalarDsts (i : Instr) : List SReg :=
  let l : List SReg := match i with
    | .vmovTos d _ _ | .tagr d _ | .vote _ (.scal d _) _ _ | .vred _ (.scal d _) _ _ _ _ | .gwid d => [d]
    | .satom d _ _ _ _ dw _ _ _ _ => if dw then [d, d + 1] else [d]
    | .waita d _ _ _ _ _ | .mrecv _ d _ _ _ _ _ | .mqst d _ _ _ | .mfence d | .cbtst d _ _ _ _ | .cbwait d _ _ _
    | .cpsts d _ | .srate d _ | .vfpush (some d) _ | .vfpop _ (some d) | .vfcnt d | .pgreq d _ | .pgreqCan d _ => [d]
    | _ => []
  l.filter fun r => r != 0

/-- Scalar registers a lane instruction reads (06 R112). -/
def scalarSrcs (i : Instr) : List SReg :=
  let b : BSrc → List SReg := fun x => match x with
    | .scal r => [r]
    | _ => []
  let bs : Base → List SReg := fun x => match x with
    | .glob r => [r, r + 1]
    | .sp r => [r]
  match i with
  | .vadd _ _ x _ _ | .vsub _ _ x _ _ | .vmul _ _ x _ _ | .vmin _ _ x _ | .vmax _ _ x _ | .vmad _ _ x _ _
  | .vprmb _ _ x _ | .vsel _ _ x _ | .vand _ _ x | .vor _ _ x | .vxor _ _ x | .vandn _ _ x | .vshl _ _ x
  | .vshr _ _ x | .vsra _ _ x | .vcmp _ _ x _ _ | .fadd _ _ x _ _ | .fsub _ _ x _ _ | .fmul _ _ x _ _
  | .fmin _ _ x _ | .fmax _ _ x _ | .ffma _ _ x _ _ _ | .padd _ _ x _ _ _ | .pmul _ _ x _ _ | .pmin _ _ x _
  | .pmax _ _ x _ | .pfma _ _ x _ _ _ _ | .pdot2 _ _ x _ _ _ | .idot4 _ _ x _ _ _ _ | .shfl _ _ _ x _
  | .evsig x | .evclr x | .evwait x _ _ => b x
  | .vbcs _ a _ => [a]
  | .tagw _ (.scal r) => [r]
  | .vld _ r _ _ _ _ _ _ _ _ | .vst _ r _ _ _ _ _ _ | .vldx _ r _ _ _ _ _ _ _ _ | .vstx _ r _ _ _ _ _ _
  | .pref r _ _ _ _ _ | .spawn _ _ r _ => [r, r + 1]
  | .spld _ r _ _ _ _ _ _ _ _ _ | .spst _ r _ _ _ _ _ _ _ => [r]
  | .atom _ _ x _ _ _ _ _ _ _ _ _ => bs x
  | .satom _ a x c op dw _ _ _ _ =>
    bs x ++ (if dw then [a, a + 1] else [a]) ++ (if op = .cas then (if dw then [c, c + 1] else [c]) else [])
  | .waita _ a x _ _ _ => a :: bs x
  | .msend _ (.scal r) _ _ => [r]
  | .cmaintL1inv l r _ | .cmaintWb l r _ | .cmaintWbinv l r _ | .cmaintIcinv l r _ | .cmaintTlbinv l r _ => [l, r, r + 1]
  | .mvm _ _ (.scal r) _ _ _ _ _ => [r]
  | .tld _ x _ _ _ _ | .tst _ x _ _ _ => bs x
  | .dsub r _ | .recfl r _ | .rayq _ r _ _ | .ellq _ r _ _ _ _ => [r, r + 1]
  | .beamq a r _ _ _ => [a, r, r + 1]
  | .ringst _ r _ _ | .ringld _ r _ _ _ _ => [r]
  | .mwait (.scal r) => [r]
  | .cbtst _ a x _ _ | .cbwait _ a x _ => [a, x]
  | .cpsts _ a | .srate _ a => [a]
  | .mcnt (.opn a x _) => [a, x]
  | _ => []

/-! ### Reading operands -/

/-- The scalar value a lane instruction reads in a slice: the value captured at its VRUN and kept up to date by the
earlier lane writes that have landed since (06 R112); s0 reads zero. Assumption 22: DEDUCED. -/
def Frag.captured (f : Frag) (sl : Nat) (r : SReg) : Word :=
  match f.entered with
  | some e => if r = 0 then 0 else FMap.get (FMap.get e.cap sl) r.toNat
  | none => 0
/-- A pair of captured values (01 R12). Assumption 22: DEDUCED. -/
def Frag.capturedPair (f : Frag) (sl : Nat) (r : SReg) : Dword := f.captured sl (r + 1) ++ f.captured sl r

/-- A mark placed before the item in issue on a register the item reads: its value is to come from an earlier lane write
(R112), so the lane stream waits for it. -/
def Frag.laneStall (f : Frag) (i : Instr) : Bool :=
  match f.entered with
  | some e => f.marks.any fun m =>
      (decide (m.clause < e.id) || (m.clause == e.id && decide (m.item < e.idx))) && (scalarSrcs i).contains m.reg
  | none => false

/-- The B operand of lane `i` (R111), at clock `n`. -/
def bVal (n : Nat) (g : Gang) (f : Frag) (b : BSrc) (i : Nat) : Word :=
  match b with
  | .vec r => g.vget n r.toNat i
  | .scal r => f.captured (i / 8) r
  | .imm v => v.signExtend 32

/-- Offset of a lane, scaled (06 R135, 14 R244). -/
def laneOff (u : Bool) (scale : Nat) (w : Word) : Dword :=
  (if u then w.setWidth 64 else w.signExtend 64) <<< scale
/-- A global address (R135, R244). -/
def globAddr (base : Dword) (off : Dword) (disp : BitVec 26) : Nat := (base + off + disp.signExtend 64).toNat
/-- A scratchpad offset (R244). -/
def spAddr (base : Word) (off : Dword) (disp : BitVec 64) : Nat := ((base.setWidth 64 + off + disp).setWidth 32).toNat

/-! ### Tag checks (01 R27, 02 R36, 21 R336) -/

/-- TVAL of a format fault on a checked register (R336). Assumption 31: DEDUCED. -/
def fmtTval (cls r : Nat) (found expect : Tag) : Word :=
  BitVec.ofNat 32 (r % 256 + 256 * cls + 2 ^ 16 * found.toNat + 2 ^ 24 * expect.toNat)
/-- Check vector registers against a class; the first mismatch in the order given (va, then vb, then vc, a span by rising number) gives
the fault's TVAL. A register that outstanding work will write is undefined, tag and all, and raises nothing (01 R21, 00 R1). Assumptions 31,
80: DEDUCED, DESIGN CHOICE. -/
def tagCheck (g : Gang) (expect : Tag) (rs : List Nat) : Option Word :=
  (rs.find? fun r => !g.busyV r && !tagPass expect (g.tagOf r)).map fun r => fmtTval 0 r (g.tagOf r) expect
/-- An undefined tag that a vector register can carry (01 R21, R27, 02 R35), a free value of the clock `n`. Assumption 3: DESIGN CHOICE. -/
def freeTag (n r : Nat) : Tag :=
  let t : Tag := (Config.freeWord n (0x20000 + r)).setWidth 7
  if vecTagOk t then t else Tag.raw
/-- The tag an instruction takes over from a source register: undefined where outstanding work will write the register (01 R21). -/
def Gang.srcTag (g : Gang) (n r : Nat) : Tag := if g.busyV r then freeTag n r else g.tagOf r
/-- The B operand's tag is checked only where it is a vector (R111, 06 R124). -/
def bRegs : BSrc → List Nat
  | .vec r => [r.toNat]
  | _ => []

end Sys2Proof.Machine
end

