-- ==== Sys2Proof/Machine/Clause.lean ====
section
/-! DEFINITION. Fetching code (03 R74, R78), pending marks and captured values of clauses (01 R18, 06 R112), guards that
resolve (01 R24), and the end of an issued lane instruction (01 R19, R31). -/

namespace Sys2Proof.Machine

/-! ### Fetching code -/

/-- A byte of a code line: what the instruction cache may still hold of it (R78), or what memory holds. A line that no fetch has brought
in (one only decoded at a VRUN, say) always reads as memory stands, one of the mixes that R78 allows. Assumption 73: DEDUCED, DESIGN CHOICE. -/
def State.icPick (s : State) (asid : Word) (line i : Nat) (now : Byte) : Byte :=
  match s.icache.find? fun e => e.1 == asid && e.2.1 == line with
  | none => now
  | some e => if e.2.2.getD i now = now then now else if Config.freeBit s.clk line then now else e.2.2.getD i now

/-- A byte of memory as a code fetch finds it; a byte of an aperture is the device's beyond it. -/
def State.codeMem (s : State) (pa : Nat) : Byte :=
  if pa < dramEnd then Memory.read s.mem pa else Config.freeByte s.clk pa

/-- One byte of code at a virtual address, when the address is executable (R15). Assumption 75: DEDUCED. -/
def State.codeByte (s : State) (w : Who) (va : Nat) : Option Byte :=
  if localRange va then none
  else match s.xlate w .fetch va with
    | .ok pa _ _ _ _ _ => if s.remoteOk w.asid pa then some (s.icPick w.asid (va / 64) (va % 64) (s.codeMem pa)) else none
    | _ => none

/-- The bytes from an address up to the first that cannot be fetched. -/
def State.codeBytes (s : State) (w : Who) (va : Nat) : Nat → List Byte
  | 0 => []
  | n + 1 => match s.codeByte w (va % 2 ^ 64) with
    | some b => b :: s.codeBytes w (va + 1) n
    | none => []

/-- The instruction cache holds a fetched line (R78): a line not held is filled, a held one is filled again when the
fetch took it from memory. Assumption 73: DEDUCED. -/
def State.icFill (s : State) (w : Who) (va : Nat) : State :=
  match s.xlate w .fetch va with
  | .ok pa _ _ _ _ _ =>
    let line := va / 64
    let now := (List.range 64).map fun i => s.codeMem (pa / 64 * 64 + i)
    match s.icache.find? fun e => e.1 == w.asid && e.2.1 == line with
    | none => { s with icache := (w.asid, line, now) :: s.icache }
    | some e =>
      if e.2.2 = now || !Config.freeBit s.clk line then s
      else { s with icache := (w.asid, line, now) :: s.icache.erase e }
  | _ => s

/-- Bytes of the lane code section from an offset, at most one full form, none at or beyond LCSIZE (R17, R74). -/
def State.laneBytes (s : State) (g : Gang) (base : Dword) (limit : Word) (off : Nat) : List Byte :=
  s.codeBytes (s.whoGang g) (base.toNat + off) (min 13 (limit.toNat - off))

/-- Length of the item that begins with a byte (R69). -/
def itemLength (b : Byte) : Nat :=
  let n := b.toNat
  if n < 0x40 then 4 else if n < 0x80 then 6 else if n < 0xC0 then 8
  else if n = 0xE0 then 13 else if 0xF0 ≤ n && n < 0xF8 then 4 else 1

/-- Whether an item's bytes could not all be fetched, although LCSIZE holds them: the offset of the first such byte. -/
def fetchGap (got : List Byte) (limit off : Nat) : Option Nat :=
  match got with
  | [] => if off < limit then some off else none
  | b :: _ => if got.length < min (itemLength b) (limit - off) then some (off + got.length) else none

/-- Size of a gang's declared set (08 R170); 0 for none. -/
def State.setSize (s : State) (g : Gang) : Nat :=
  match s.block? g.block with
  | some b => b.setSize
  | none => 0
/-- The context an item is checked in (R22, R76, 07 R147). -/
def State.laneCtx (s : State) (g : Gang) (fa fb : BitVec 4) : LaneCtx := ⟨fa != 15, fb != 15, g.priv, s.setSize g != 0⟩

/-- Attribute words of the gang's open mesh record (17 R301). -/
def Gang.aw (g : Gang) : Nat := match g.mesh with
  | some m => m.aw
  | none => 0
/-- Tiles of the gang's block. -/
def State.tilesOf (s : State) (g : Gang) : Nat := match s.block? g.block with
  | some b => b.tiles
  | none => 0

/-! ### Marks (R18, R75) -/

/-- Marks of the items from an offset: one per scalar destination; an item that fails a check marks nothing. -/
def State.marksFrom (s : State) (g : Gang) (fa fb : BitVec 4) (base : Dword) (limit : Word) (id : Nat) :
    Nat → Nat → Nat → List Mark
  | 0, _, _ => []
  | n + 1, idx, off =>
    let (i, len) := decodeLaneItem (s.laneCtx g fa fb) (s.laneBytes g base limit off)
    if len = 0 then []
    else
      let here := match overAlloc g.regs g.accs (s.tilesOf g) g.aw i with
        | some _ => []
        | none => (scalarDsts i).map fun r => { clause := id, item := idx, reg := r : Mark }
      here ++ s.marksFrom g fa fb base limit id n (idx + 1) (off + len)

/-- Marks of the clause at an offset, as decoded now (R75). -/
def State.clauseMarks (s : State) (g : Gang) (id : Nat) (off : Nat) : List Mark :=
  match readItem (s.laneBytes g g.lcbase g.lcsize off) with
  | .header q => match headerCheck q with
    | none => s.marksFrom g (hdrFA q) (hdrFB q) g.lcbase g.lcsize id (hdrN q + 1) 0 (off + 4)
    | some _ => []
  | _ => []

/-- The scalar registers a clause captures at its VRUN (R112). -/
def Gang.capture (g : Gang) (f : Frag) : Captured := f.sliceList.map fun sl => (sl, (g.copy sl).s)

/-! ### Landing (R18, R24, R112) -/

/-- The value a lane write gives a slice, if it writes that slice's copy (07 R141). -/
def wrAt (wr : FMap Word) (sl : Nat) : Option Word := (wr.find? fun e => e.1 == sl).map (·.2)

/-- Write a register's copies in the slices a lane write names. -/
def Gang.wrCopies (g : Gang) (sls : List Nat) (r : SReg) (wr : FMap Word) : Gang :=
  sls.foldl (fun g sl => match wrAt wr sl with
    | some v => g.setCopy sl ((g.copy sl).set r v)
    | none => g) g

/-- Values of a register become those a set of captured values reads. -/
def Captured.write (c : Captured) (sls : List Nat) (r : SReg) (wr : FMap Word) : Captured :=
  sls.foldl (fun c sl => match wrAt wr sl with
    | some v => FMap.put c sl (FMap.put (FMap.get c sl) r.toNat v)
    | none => c) c

/-- Unresolved guard slots of a register whose awaited writes have all landed (R24). Assumption 18: DEDUCED. -/
def Gang.guardReady (g : Gang) (f : Frag) (n : Nat) : Bool :=
  f.sliceList.any fun sl =>
    let gd := FMap.get (g.copy sl).guards n
    gd.st == .unresolved && (match gd.bound with
      | some (r, _) => !(f.marks ++ f.savedM).any fun m => m.reg == r && decide (m.clause < gd.before)
      | none => false)
/-- A ready guard of the register keeps a later write from landing (R24). -/
def Gang.guardHolds (g : Gang) (f : Frag) (r : SReg) : Bool :=
  (List.range 16).any fun n => g.guardReady f n && f.sliceList.any fun sl =>
    match (FMap.get (g.copy sl).guards n).bound with
    | some (q, _) => q == r
    | none => false

/-- The first mark of a register in program order. -/
def Frag.firstMark (f : Frag) (r : SReg) : Option Mark :=
  (f.marks.filter fun m => m.reg == r).foldl (fun acc m => match acc with
    | none => some m
    | some x => if m.clause < x.clause || (m.clause == x.clause && decide (m.item < x.item)) then some m else some x) none

/-- The earliest write of a register can land (R18, R24). -/
def Gang.canLand (g : Gang) (f : Frag) (r : SReg) : Bool :=
  match f.firstMark r with
  | some m => m.issued && m.done && !g.guardHolds f r
  | none => false

/-- A write of a register by an instruction of a clause reaches the values captured by the work that follows it: the rest of that clause
and every later one (R112). -/
def Frag.writeLater (f : Frag) (id : Nat) (r : SReg) (wr : FMap Word) : Frag :=
  let later := fun (e : Entered) => if id ≤ e.id then { e with cap := e.cap.write f.sliceList r wr } else e
  let laterQ := fun (e : QEntry) => if id < e.id then { e with cap := e.cap.write f.sliceList r wr } else e
  { f with entered := f.entered.map later, saved := f.saved.map later, queue := f.queue.map laterQ, savedQ := f.savedQ.map laterQ }
/-- The earliest write of a register lands in every slice copy of the fragment, and in the captured values of the work
that follows it (R18, R112). -/
def Gang.land (g : Gang) (f : Frag) (m : Mark) : Gang × Frag :=
  let f1 := { f with marks := f.marks.erase m }
  match m.wr with
  | none => (g, f1)
  | some wr =>
    (g.wrCopies f.sliceList m.reg wr, f1.writeLater m.clause m.reg wr)

/-! ### Guards (R24) -/

/-- A guard condition on a value (R24). -/
def condHolds (c : GCond) (x : Word) : Bool :=
  match c with
  | .eq => x == 0
  | .ne => x != 0
  | .lt => x.slt 0
  | .ge => !x.slt 0
  | .gt => (0 : Word).slt x
  | .le => !(0 : Word).slt x
  | .bs => x.getLsbD 0
  | .bc => !x.getLsbD 0

/-- Resolve a slot in every slice copy on that copy's register (R24, R142). -/
def Gang.resolve (g : Gang) (f : Frag) (n : Nat) : Gang :=
  g.mapCopies f.sliceList fun c =>
    let gd := FMap.get c.guards n
    match gd.st, gd.bound with
    | .unresolved, some (r, k) => { c with guards := FMap.put c.guards n { gd with st := if condHolds k (c.get r) then .tru else .fals } }
    | _, _ => c

/-- State of a slot in the fragment's lowest slice. -/
def Gang.guardSt (g : Gang) (sl n : Nat) : GState := (FMap.get (g.copy sl).guards n).st

/-! ### The end of an issued lane instruction -/

/-- The sequencer moves past the item (R19); after the clause's last item the marks that nothing cleared go (R18). -/
def Frag.pass (f : Frag) : Frag :=
  let f1 := { f with lpc := f.lpc + BitVec.ofNat 32 f.itemLen, item := [], lwait := .none, parkL := none }
  match f.entered with
  | none => f1
  | some e =>
    if e.rem ≤ 1 then { f1 with entered := none, marks := f1.marks.filter fun m => m.issued || m.clause != e.id }
    else { f1 with entered := some { e with rem := e.rem - 1, idx := e.idx + 1 } }

/-- The marks of the item in issue. -/
def Frag.itemMark (f : Frag) (m : Mark) : Bool :=
  match f.entered with
  | some e => !m.issued && m.clause == e.id && m.item == e.idx
  | none => false

/-- The number of the clause in issue. -/
def Frag.clauseId (f : Frag) : Nat :=
  match f.entered with
  | some e => e.id
  | none => f.nextId
/-- Writes of scalar registers without a mark (R78): they land at once, as writes of the clause `id`. -/
def Gang.landLoose (g : Gang) (f : Frag) (id : Nat) (wrs : List (SReg × FMap Word)) : Gang × Frag :=
  wrs.foldl (fun (p : Gang × Frag) w => (p.1.wrCopies f.sliceList w.1 w.2, p.2.writeLater id w.1 w.2)) (g, f)
/-- The item in issue has completed and its scalar destinations take the given values, or none (R18). A write without a
mark (R78) lands at once. -/
def Gang.completeItem (g : Gang) (f : Frag) (wrs : List (SReg × FMap Word)) : Gang × Frag :=
  let marks := f.marks.map fun m =>
    if f.itemMark m then { m with issued := true, done := true, wr := (wrs.find? fun w => w.1 == m.reg).map (·.2) } else m
  let loose := wrs.filter fun w => !f.marks.any fun m => f.itemMark m && m.reg == w.1
  g.landLoose { f with marks := marks } f.clauseId loose

/-- The item in issue completes later, with a flagged operation (R22). -/
def Frag.deferItem (f : Frag) (op : Nat) : Frag :=
  { f with marks := f.marks.map fun m => if f.itemMark m then { m with issued := true, op := op + 1 } else m }

/-- A flagged operation has completed with its scalar results (R18); a result without a mark (R78) lands at once, as a write of the clause
that issued the operation. -/
def Gang.opDone (g : Gang) (f : Frag) (o : AsyncOp) : Gang × Frag :=
  let mine := fun (m : Mark) => m.issued && m.op == o.id + 1
  let marks := f.marks.map fun m => if mine m then { m with done := true, wr := (o.wr.find? fun w => w.1 == m.reg).map (·.2) } else m
  let loose := o.wr.filter fun w => !f.marks.any fun m => mine m && m.reg == w.1
  g.landLoose { f with marks := marks } o.clause loose

/-- One value for every slice copy of the fragment. -/
def Frag.all (f : Frag) (v : Word) : FMap Word := f.sliceList.map fun sl => (sl, v)

/-- End of a lane instruction that completes as it issues. -/
def State.finish (s : State) (g : Gang) (f : Frag) (wrs : List (SReg × FMap Word)) : Result :=
  let (g1, f1) := g.completeItem f wrs
  .next (s.setCur g1 f1.pass)

end Sys2Proof.Machine
end

