-- ==== Sys2Proof/Machine/Traps.lean ====
section
/-! DEFINITION. Taking a trap (21 R335 to R341, 01 R31), returning from one (05 R107), parks (21 R345), and the checks an
access meets before it is made (21 R336, R349). -/

namespace Sys2Proof

/-- CODE of a cause (21 R335). Assumption 76: DEDUCED. -/
def Cause.code : Cause → Nat
  | .illegal => 1 | .format => 2 | .lease => 3 | .demandParked => 4 | .rdvTimeout => 5 | .setMember => 6
  | .preempt => 7 | .softTrap => 8 | .brk => 9 | .ringSlot => 10 | .machineCheck => 11 | .memory => 12

end Sys2Proof

namespace Sys2Proof.Machine

/-- One PCQ entry (01 R29). -/
def pcqEntry (e : Option QEntry) : Dword :=
  match e with
  | none => 0
  | some q => match q.guard with
    | none => 0x8000000000000000#64 ||| q.off.setWidth 64
    | some g => 0xC000000000000000#64 ||| (g.setWidth 64 <<< 58) ||| q.off.setWidth 64

/-- TLPC at a trap (R31). -/
def Frag.trapLpc (f : Frag) : Word :=
  match f.entered, f.queue with
  | none, e :: _ => e.off
  | _, _ => f.lpc
/-- TSTAT at a trap, PRIV apart (R30). -/
def Frag.trapStat (f : Frag) (lane : Bool) : Word :=
  (match f.entered with
    | none => 0
    | some e => BitVec.ofNat 32 (1 + 16 * ((e.rem - 1) % 32))) ||| (if lane then 2 else 0)

/-- PP of TCAUSE (R335). -/
def Gang.ppSet (g : Gang) (f : Frag) : Bool := ((g.low f).kget 2).getLsbD 15
def Gang.setPP (g : Gang) (f : Frag) (b : Bool) : Gang :=
  g.mapCopies f.sliceList fun c => c.kset 2 (putBit (c.kget 2) 15 b)
/-- A wait at a rendezvous, or at launch level, is withdrawn (07 R150). -/
def LaneWait.withdrawn (w : LaneWait) : LaneWait :=
  match w with
  | .rendezvous _ => .none
  | .lbar _ => .none
  | w => w

/-- Handler entry (R338) of a fragment outside its handler, whose THBASE is not zero; a pre-emption request that loses to another cause of
a draining fragment becomes pending (R339). Assumption 76: DEDUCED. -/
def State.enterHandler (s : State) (gid : Nat) (g : Gang) (f : Frag) (c : Cause) (tval : Word) (taddr : Dword)
    (lane : Bool) : State :=
  let th := (g.low f).kget64 0
  let alone := !g.frags.any fun o => o.slices != f.slices && o.lwait == f.lwait
  let s0 := match f.lwait with
    | .evwait op => if alone then s.dropWaiters gid fun w => w.op == op else s
    | _ => s
  let ga := match f.lwait with
    | .evwait op => if alone then { g with asyncs := g.asyncs.filter fun (o : AsyncOp) => o.id != op } else g
    | _ => g
  let q := (List.range 8).map fun n => pcqEntry f.queue[n]?
  let gb := if f.draining && c != .preempt then ga.setPP f true else ga
  let g1 := gb.mapCopies f.sliceList fun k =>
    let k1 := (((((k.kset 2 ((k.kget 2 &&& 0x8000) ||| BitVec.ofNat 32 c.code)).kset 3 tval).kset64 102 taddr).kset64 4
      f.spc).kset 6 f.trapLpc).kset 7 (f.trapStat lane)
    q.zipIdx.foldl (fun k e => k.kset64 (8 + 2 * e.2) e.1) k1
  let (s1, ft) := s0.traceTarget g f lane 2 (th &&& ~~~3#64)
  let f1 := { ft with
    spc := th &&& ~~~3#64, queue := [], savedQ := f.queue, entered := none, saved := f.entered
    marks := f.marks.filter fun m => m.issued
    savedM := f.marks.filter fun m => !m.issued
    inHandler := true, entry := c.code, cls := 0, ready := 0, item := [], lwait := .none, swait := false, parkS := none
    parkL := none, draining := false, done := false
    pend := if c = .lease then some (s.mkErr g f c.code tval taddr 1) else none }
  s1.updGang gid (g1.dropLatch.putFrag f1)

/-- A fragment takes a trap (R338 to R341): a gang in its handler keeps a pre-emption request pending and dies of any
other cause, a gang without a handler is saved by the hardware or dies, any other enters its handler; a machine check is told to
the host (27 R406). -/
def State.trapIn (s0 : State) (gid : Nat) (g : Gang) (f : Frag) (c : Cause) (tval : Word) (taddr : Dword) (lane : Bool) :
    State :=
  let s := if c = .machineCheck then s0.notify 2 g.vi taddr else s0
  if f.inHandler then
    if c = .preempt then s.updGang gid (g.setPP f true)
    else s.dieWith gid f (s.mkErr g f c.code tval taddr 2)
  else if (g.low f).kget64 0 = 0 then
    if c = .preempt then s.updGang gid { g with
      saveNow := true, frags := g.frags.map fun (x : Frag) => { x with lwait := x.lwait.withdrawn } }
    else s.dieWith gid f (s.mkErr g f c.code tval taddr 0)
  else s.enterHandler gid g f c tval taddr lane

/-- The current fragment takes a trap. Assumption 76: DEDUCED. -/
def takeTrap (s : State) (g : Gang) (f : Frag) (c : Cause) (tval : Word) (taddr : Dword) (lane : Bool) : Result :=
  .next (s.trapIn s.gang g f c tval taddr lane)

/-- An illegal-encoding fault of the scalar stream: TVAL is the word (05 R92). -/
def illegalWord (s : State) (g : Gang) (f : Frag) (w : Word) : Result := takeTrap s g f .illegal w 0 false
/-- An illegal-encoding fault of the lane stream under a check of R76. -/
def illegalLane (s : State) (g : Gang) (f : Frag) (check : Nat) : Result :=
  takeTrap s g f .illegal (BitVec.ofNat 32 (0x80000000 + check)) 0 true

/-! ### Return from a trap (05 R107) -/

/-- A saved queue entry that TRET restores: captured values are kept unless a KWR discarded them. -/
def Gang.restoreEntry (g : Gang) (f : Frag) (n : Nat) : Option QEntry :=
  let p := (g.low f).kget64 (8 + 2 * n)
  if p.getLsbD 63 then
    let sv := (f.savedQ[n]?).getD { id := f.nextId + n, capOk := false }
    some { id := sv.id, off := p.setWidth 32, guard := if p.getLsbD 62 then some (p.extractLsb' 58 4) else none,
           cap := if sv.capOk then sv.cap else g.capture f, capOk := true }
  else none

/-- A clause number, or a guard's bound on them, once a clause has taken the number `p`. -/
def shiftId (p id : Nat) : Nat := if p ≤ id then id + 1 else id
/-- A handler has set TSTAT.ENT where no clause stood entered at the trap: TRET enters one all the same, ahead of every queued clause, with
neither selector bound and with the section that LCBASE and LCSIZE name at the TRET. Assumption 81: DESIGN CHOICE. -/
def Gang.enterEdited (g : Gang) (f : Frag) : Gang × Frag :=
  if !((g.low f).kget 7).getLsbD 0 || f.saved.isSome then (g, f)
  else
    let p := (f.savedQ.head?.map (·.id)).getD f.nextId
    let g1 := g.mapCopies f.sliceList fun c =>
      { c with guards := c.guards.map fun (e : Nat × Guard) => (e.1, { e.2 with before := shiftId p e.2.before }) }
    (g1, { f with
      saved := some { id := p, base := g.lcbase, limit := g.lcsize, capOk := false }
      savedQ := f.savedQ.map fun (q : QEntry) => { q with id := shiftId p q.id }
      savedM := f.savedM.map fun (m : Mark) => { m with clause := shiftId p m.clause }, nextId := f.nextId + 1 })
/-- The clause TRET continues, when TSTAT.ENT is set. -/
def Gang.restoreEntered (g : Gang) (f : Frag) : Option Entered :=
  let st := (g.low f).kget 7
  if st.getLsbD 0 then
    f.saved.map fun (e : Entered) =>
      { e with rem := bitsOf st.toNat 8 4 + 1, cap := if e.capOk then e.cap else g.capture f, capOk := true }
  else none

/-- The fragment as TRET leaves it (R107): stream positions, queue, clause and marks restored, class back to the base. -/
def State.returned (s : State) (g : Gang) (f : Frag) : Frag :=
  let k := g.low f
  let q := (List.range 8).filterMap fun n => g.restoreEntry f n
  let ent := g.restoreEntered f
  let marks := (match ent with
      | some e => s.marksFrom g e.fa e.fb e.base e.limit e.id e.rem e.idx (k.kget 6).toNat
      | none => []) ++ q.flatMap fun e => s.clauseMarks g e.id e.off.toNat
  { f with
    spc := k.kget64 4 &&& ~~~3#64, lpc := k.kget 6, queue := q, entered := ent, saved := none, savedQ := []
    marks := (f.marks.filter fun m => m.issued) ++ marks
    savedM := [], nextId := f.nextId + 9, inHandler := false, entry := 0, cls := g.cls, ready := 0
    item := [], lwait := .none, swait := false, done := false, pend := none }

/-- What a fragment's handler returns to: the values TRET reads (R107, R341, 07 R141), PP, TSPC, TLPC, ENT with REM, and the valid queue
entries. -/
def SliceCopy.resumption (c : SliceCopy) : List Dword :=
  let st := c.kget 7
  [(c.kget 2 &&& 0x8000).setWidth 64, c.kget64 4 &&& ~~~3#64, (c.kget 6).setWidth 64,
    if st.getLsbD 0 then 1 + 2 * BitVec.ofNat 64 (bitsOf st.toNat 8 4) else 0] ++
  ((List.range 8).map fun n => c.kget64 (8 + 2 * n)).filterMap fun p =>
    if p.getLsbD 63 then some (if p.getLsbD 62 then (p &&& 0x7C000000FFFFFFFF#64) ||| 0x8000000000000000#64 else p &&& 0xFFFFFFFF#64) else none

/-- TRET in a handler (R107, R341, R343, R344). Assumption 14: DEDUCED. -/
def State.doTret (s : State) (g : Gang) (f : Frag) : State :=
  match f.cancelled with
  | some _ => s.endFrag s.gang f 1
  | none =>
    match f.pend with
    | some e => s.dieWith s.gang f e
    | none =>
      let (ga, fa) := g.enterEdited f
      let f1 := s.returned ga fa
      let (s1, f2) := s.traceTarget g f false 3 f1.spc
      let f3 := { f1 with tr := f2.tr }
      if g.ppSet f then
        let g1 := (ga.setPP f false).putFrag f3
        let cl := match (s.core g.core).preempt with
          | some p => p.classes.setWidth 32
          | none => 0
        (s1.updGang s.gang g1).trapIn s.gang g1 f3 .preempt cl 0 false
      else s1.updGang s.gang (ga.putFrag f3)

/-! ### Parks (21 R345) -/

/-- Access kinds in a park record. -/
def Acc.code : Acc → Nat
  | .load => 0 | .store => 1 | .fetch => 2

/-- Post a park record, one per granule. -/
def State.postPark (s : State) (asid : Word) (va : Nat) (acc : Acc) (core : Nat) : State :=
  if s.parks.contains (asid, va / 65536) then s
  else { s with parks := (asid, va / 65536) :: s.parks, feq := s.feq ++ [.park asid (va / 65536) acc.code core s.ns] }

/-- Park the current fragment's stream (R345). Assumption 21: DEDUCED. -/
def parkAt (s : State) (g : Gang) (f : Frag) (acc : Acc) (lane : Bool) (ps : List (Nat × Nat)) : Result :=
  let s1 := ps.foldl (fun s p => s.postPark g.asid p.2 acc g.core) s
  let p : Park := match ps with
    | (ln, va) :: _ => { since := s.clk, lane := ln, addr := va }
    | [] => { since := s.clk }
  .next (s1.setCur g (if lane then { f with parkL := some p } else { f with parkS := some p }))

/-! ### Checking accesses -/

/-- A memory fault or a lease fault (R336, R343). Assumption 21: DEDUCED. -/
def memFault (s : State) (g : Gang) (f : Frag) (stream : Bool) (lane kind va : Nat) : Result :=
  takeTrap s g f (if kind = 10 then .lease else .memory) (BitVec.ofNat 32 (lane + 256 * kind)) (BitVec.ofNat 64 va) stream

/-- The first lane whose access does not pass a check. Assumption 21: DEDUCED. -/
def firstBad (c : Nat → Chk) (l : List (Nat × Nat)) : Option (Nat × Chk) :=
  l.findSome? fun e => match c e.2 with
    | .ok => none
    | x => some (e.1, x)

/-- The lanes whose access parks. Assumption 21: DEDUCED. -/
def parkedOf (c : Nat → Chk) (l : List (Nat × Nat)) : List (Nat × Nat) :=
  l.filterMap fun e => match c e.2 with
    | .park va => some (e.1, va)
    | _ => none

/-- The poison that an access at an address would consume: source and TADDR of its machine check (12 R216, R336). -/
abbrev Bad := Nat → Option (Nat × Nat)
/-- An access that reads nothing. -/
def noBad : Bad := fun _ => none
/-- A load of `n` bytes of a gang. -/
def State.loadBad (s : State) (g : Gang) (n : Nat) : Bad := fun va => s.poisonAt (s.whoGang g) va n
/-- A read of `n` bytes of a scratchpad. -/
def State.spBad (s : State) (b : Option Block) (n : Nat) : Bad := fun o => b.bind fun x => s.spPoison x o n

/-- Check the accesses of an instruction, (lane, address) pairs, before it issues (06 R137, 21 R345, R349): a failure traps, a
parked access parks the stream, a read that would consume poison is a machine check; else go on. -/
def checkedBy (c : Nat → Chk) (bad : Bad) (s : State) (g : Gang) (f : Frag) (stream : Bool) (acc : Acc) (l : List (Nat × Nat)) (k : Result) :
    Result :=
  match firstBad c l with
  | some (ln, .bad kind va) => memFault s g f stream ln kind va
  | some (_, _) => parkAt s g f acc stream (parkedOf c l)
  | none =>
    match l.findSome? fun e => bad e.2 with
    | some (src, a) => takeTrap s g f .machineCheck (BitVec.ofNat 32 src) (BitVec.ofNat 64 a) stream
    | none => k

/-- Check plain accesses of `n` bytes. -/
def checked (s : State) (g : Gang) (f : Frag) (stream : Bool) (acc : Acc) (rd : Bool) (n : Nat) (l : List (Nat × Nat))
    (k : Result) : Result :=
  checkedBy (fun va => s.chk (s.whoGang g) acc va n) (if rd then s.loadBad g n else noBad) s g f stream acc l k

/-- The accesses of an instruction whose lane addresses come from vector register `off`: where that register is one that outstanding work
will write, its words are undefined (01 R21), and an access that its checks would stop is not made, for an undefined value raises no
fault (00 R1). -/
def Gang.definite (g : Gang) (off : Nat) (c : Nat → Chk) (bad : Bad) (l : List (Nat × Nat)) : List (Nat × Nat) :=
  if g.busyV off then l.filter fun e => c e.2 == .ok && (bad e.2).isNone else l

/-- A fetch of `n` bytes of code fails at its first byte that cannot be fetched (05 R15, R92). -/
def fetchFault (s : State) (g : Gang) (f : Frag) (stream : Bool) (va n : Nat) : Result :=
  match s.chk (s.whoGang g) .fetch va n with
  | .bad kind a => memFault s g f stream 0 kind a
  | .park a => parkAt s g f .fetch stream [(0, a)]
  | .ok => .next s

/-- A machine check over a lane instruction's poisoned registers (12 R216, 21 R336, R349): its source, a tile's tag included. -/
def State.poisonSrc (s : State) (g : Gang) (f : Frag) (i : Instr) : Option Nat :=
  match g.poisonSrc f i with
  | some n => some n
  | none => match i with
    | .tagr _ (.t r) => if g.taking f != 0 && (match s.block? g.block with
        | some b => FMap.get b.bad (32768 + r.toNat)
        | none => false) then some 2 else none
    | _ => none
/-- What the check of a member's operands finds: a format fault of its tags, or a machine check of its poisoned registers. -/
def State.operandCause (s : State) (i : Instr) (tags : Gang → Frag → Option Word) (g : Gang) (f : Frag) : Option (Cause × Word) :=
  match tags g f with
  | some t => some (.format, t)
  | none => (s.poisonSrc g f i).map fun n => (.machineCheck, BitVec.ofNat 32 n)

/-- The checks that every lane instruction meets first: check 11 (01 R13), and a scalar source that an earlier lane write is still to give
(06 R112). -/
def laneGate (s : State) (i : Instr) (k : Gang → Frag → Result) : Result :=
  withCur s fun g f =>
    match overAlloc g.regs g.accs (s.tilesOf g) g.aw i with
    | some t => takeTrap s g f .illegal t 0 true
    | none => if f.laneStall i then .next s else k g f
/-- The shape of a lane instruction: its first checks, then the tags it checks (01 R27) and the poison of its registers (21 R349), then its
effect. -/
def laneRun (s : State) (i : Instr) (tags : Gang → Frag → Option Word) (k : Gang → Frag → Result) : Result :=
  laneGate s i fun g f =>
    match s.operandCause i tags g f with
    | some (c, t) => takeTrap s g f c t 0 true
    | none => k g f

/-- No tag is checked. -/
def noTags : Gang → Frag → Option Word := fun _ _ => none

end Sys2Proof.Machine
end

