-- ==== Sys2Proof/Machine/KRegs.lean ====
section
/-! DEFINITION. The k-registers (01 R28 to R30, 10 R190, R191, 12 R204, R205, R218, 15 R271, R276, 17 R302, 18 R318, 21
R335, R337): what each number reads, what a read clears, and what a write does. -/

namespace Sys2Proof.Machine

/-- Replace the low or the high word of a 64-bit register. -/
def putLo (d : Dword) (w : Word) : Dword := d.extractLsb' 32 32 ++ w
def putHi (d : Dword) (w : Word) : Dword := w ++ d.extractLsb' 0 32
def loW (d : Dword) : Word := d.extractLsb' 0 32
def hiW (d : Dword) : Word := d.extractLsb' 32 32

/-! ### Registers kept per slice copy (R28, R140, R337) -/

/-- Registers held in one copy per slice: k0 to k29, TADDR and PARKLIM. -/
def perSlice (k : Nat) : Bool := k ≤ 29 || k == 102 || k == 103 || k == 110

/-- Numbers a user gang may not touch (R28, R190, R204, R337). -/
def userNone (k : Nat) : Bool := [68, 69, 74, 75, 78, 79, 106, 107, 108, 109].contains k

/-- FLAGS (R28): a flag reads as set in a fragment while its count is non-zero in any of its slices (07 R143). Assumption 37: DEDUCED. -/
def Gang.flagsWord (g : Gang) (f : Frag) : Word :=
  BitVec.ofNat 32 ((List.range 12).foldl (fun a n => a + b2n (g.flagSet f n) * 2 ^ n) 0)
/-- GUARDS (R28). Assumption 37: DEDUCED. -/
def guardsWord (c : SliceCopy) : Word :=
  BitVec.ofNat 32 ((List.range 16).foldl (fun a n => a + (match (FMap.get c.guards n).st with
    | .fals => 0 | .tru => 1 | .unresolved => 2) * 4 ^ n) 0)
/-- SPEND (R28). -/
def spendWord (f : Frag) : Dword :=
  BitVec.ofNat 64 ((List.range 64).foldl (fun a n => a + b2n (f.marked (BitVec.ofNat 6 n)) * 2 ^ n) 0)

/-- Value of a per-slice register in a slice copy of a fragment. -/
def Gang.kslice (g : Gang) (f : Frag) (c : SliceCopy) (k : Nat) : Word :=
  match k with
  | 7 => c.kget 7 ||| (if g.priv then 4 else 0)
  | 26 => g.flagsWord f
  | 27 => guardsWord c
  | 28 => loW (spendWord f)
  | 29 => hiW (spendWord f)
  | _ => c.kget k

/-- A write to a per-slice register under its access code: TCAUSE stores CODE, TSTAT its RW fields, PCQ for the system
alone. -/
def SliceCopy.kstore (c : SliceCopy) (sys : Bool) (k : Nat) (v : Word) : SliceCopy :=
  if k = 2 then c.kset 2 ((c.kget 2 &&& 0x8000) ||| (v &&& 0xFF))
  else if k = 7 then c.kset 7 (v &&& 0x1F3)
  else if 8 ≤ k && k ≤ 23 then
    (if sys then c.kset k (if k % 2 = 0 then v else v &&& 0xFC000000) else c)
  else if 26 ≤ k && k ≤ 29 then c
  else c.kset k v

/-- A KWR to a PCQ entry discards its captured values, and one to TLPC or TSTAT those of the entered clause (05 R107). -/
def Frag.kwrote (f : Frag) (sys : Bool) (k : Nat) : Frag :=
  if k = 6 || k = 7 then { f with saved := f.saved.map fun e => { e with capOk := false } }
  else if sys && 8 ≤ k && k ≤ 23 then
    { f with savedQ := f.savedQ.mapIdx fun i e => if i = (k - 8) / 2 then { e with capOk := false } else e }
  else f

/-- A KWR to STSEED seeds the generators of the lanes of a slice (02 R45). -/
def Gang.reseed (g : Gang) (sl : Nat) (z : Word) : Gang :=
  { g with rng := (List.range 8).foldl (fun m j => FMap.put m (8 * sl + j) (rngSeed z (8 * sl + j))) g.rng }

/-! ### Message queues (12 R218 to R220) -/

/-- Fields of MQCFG (R218). -/
def mqEn (w : Word) : Bool := w.getLsbD 31
def mqEsz (w : Word) : Nat := bitsOf w.toNat 30 28
def mqCount (w : Word) : Nat := bitsOf w.toNat 27 18 + 1
def mqBase (w : Word) : Nat := 16 * bitsOf w.toNat 14 0

/-- Credits a position holds when a queue of `e` entries is enabled (R219). -/
def mqShare (e p : Nat) : Nat := e / 8 + (if p < e % 8 then 1 else 0)

/-- Set every position's credits for a queue (R219). -/
def State.mqCredits (s : State) (core q e : Nat) : State :=
  (List.range 8).foldl (fun s p => s.updCore (8 * clusterOf core + p) fun k =>
    { k with credits := FMap.put k.credits (8 * posOf core + q) (mqShare e p) }) s

/-- A write to MQCFG (R218): by a user only when EN is clear or the writer's block owns the queue; clearing EN disables
the queue (R220); a write that sets EN enables it unless the entry size is reserved or the region runs past the writer's
block. Assumption 37: DEDUCED. -/
def State.mqcfg (s : State) (core q : Nat) (v : Word) (blk : Option Nat) (sys : Bool) : State :=
  let m := FMap.get (s.core core).mqs q
  if mqEn m.cfg && !sys && m.owner != blk then s
  else
    let v := v &&& 0xFFFC7FFF
    let s1 := if mqEn m.cfg then s.mqOff core q else s
    let fits := match blk.bind s.block? with
      | some b => b.core == core && decide (mqBase v + mqCount v * 2 ^ (4 + mqEsz v) ≤ b.scratch)
      | none => false
    if mqEn v && decide (mqEsz v ≤ 4) && fits then
      (s1.updCore core fun k =>
        let m1 := FMap.get k.mqs q
        { k with mqs := FMap.put k.mqs q { m1 with cfg := v, owner := blk, senders := [] } }).mqCredits core q (mqCount v)
    else s1.updCore core fun k =>
        let m1 := FMap.get k.mqs q
        { k with mqs := FMap.put k.mqs q { m1 with cfg := v &&& 0x7FFFFFFF } }

/-! ### The Chronograph (10 R190, R191, R195, R196) -/

/-- A ring size the Chronograph takes (R190). -/
def cgSizeOk (n : Nat) : Bool := decide (4096 ≤ n) && decide (n ≤ 2 ^ 30) && n == 2 ^ Nat.log2 n

/-- Forget what fragments owe and when they last synced, for the gangs of a core that pass, with their groups that wait (R195). Assumption
15: DEDUCED. -/
def State.cgForget (s0 : State) (core : Nat) (p : Gang → Bool) : State :=
  let gone := fun (gid : Nat) => match s0.gang? gid with
    | some g => g.core == core && p g
    | none => false
  let s := s0.updCore core fun k => { k with cg := { k.cg with
    syncs := k.cg.syncs.filter fun e => !gone e.1.1, undef := k.cg.undef.filter fun e => !gone e.1 } }
  { s with gangs := s.gangs.map fun e => (e.1, e.2.map fun (g : Gang) =>
      if g.core == core && p g then { g with frags := g.frags.map fun (f : Frag) => { f with tr := { key := f.tr.key } } } else g) }

/-- A write to CGCTL (R191): EN is refused while the ring's size or base is illegal; SYNCLOG above 8 is stored as 8. Groups on their way
go when tracing stops (R195). -/
def State.cgctl (s : State) (core : Nat) (v : Word) : State :=
  let c := (s.core core).cg
  let bad := v.getLsbD 0 && !(cgSizeOk c.size.toNat && c.base.toNat % 4096 == 0)
  let sl := min 8 (bitsOf v.toNat 5 2)
  let ctl := (v &&& 0x303) &&& (if bad then ~~~1#32 else ~~~0#32) ||| BitVec.ofNat 32 (4 * sl)
  let s1 := s.updCore core fun k => { k with cg := { k.cg with ctl := ctl }, cfgBad := k.cfgBad || bad }
  let s2 := if ctl.getLsbD 0 then s1 else s1.updCore core fun k => { k with cg := { k.cg with clockQ := [], waiting := [] } }
  if ctl.getLsbD 0 == c.ctl.getLsbD 0 then s2 else s2.cgForget core fun _ => true

/-- A write to CGSEL: gangs whose bit changed lose their sync and what is pending (R195). -/
def State.cgsel (s : State) (core : Nat) (sel : Dword) : State :=
  let old := (s.core core).cg.sel
  let off := s.gangList.filter fun e => e.2.core == core && !e.2.desched && !sel.getLsbD e.2.slotNo
  let keep := fun (l : List CgGroup) => l.filter fun x => !off.any fun e => e.1 == x.gang
  let s1 := s.updCore core fun k => { k with cg := { k.cg with sel := sel, clockQ := keep k.cg.clockQ, waiting := keep k.cg.waiting } }
  s1.cgForget core fun g => sel.getLsbD g.slotNo != old.getLsbD g.slotNo

/-- A write to CGRD (R196); a value outside the ring's bytes makes the ring's contents undefined, and what is written up to the next SYNC
of each of the core's traced fragments. -/
def State.cgrd (s : State) (core : Nat) (v : Word) : State :=
  let s1 := s.updCore core fun k => { k with cg := { k.cg with rd := v } }
  let c := (s1.core core).cg
  if c.used ≤ c.size.toNat then s1
  else
    let keys := s1.gangList.flatMap fun e => if e.2.core = core && s1.traced e.2 then e.2.frags.map fun f => (e.1, f.tr.key) else []
    (s1.hwWrite c.base.toNat (freeBytes s.clk (List.replicate c.size.toNat 0))).updCore core fun k => { k with cg := { k.cg with undef := keys } }

/-- CGSTAT (R191). -/
def Chrono.stat (c : Chrono) : Word :=
  (if c.full then 0x80000000 else 0) ||| (if c.cfgerr then 0x40000000 else 0) ||| BitVec.ofNat 32 (min c.drops 65535)

/-! ### Views of the other registers -/

/-- GRLOC (12 R205). -/
def State.grloc (s : State) (g : Gang) : Word :=
  let tb := match s.block? g.block with
    | some b => b.tbase
    | none => 0
  BitVec.ofNat 32 (2 ^ 26 * tb + 2 ^ 24 * g.part + 2 ^ 20 * g.abase + 2 ^ 16 * g.slot + g.vbase)

/-- MBSTAT (15 R271). -/
def Gang.mbstat (g : Gang) : Word :=
  let out := (List.range 16).foldl (fun a i =>
    a + b2n (g.batches.any fun b => b.num == g.nextN - 16 + BitVec.ofNat 8 i) * 2 ^ i) 0
  BitVec.ofNat 32 (b2n (decide (0 < (g.openB.getD {}).n)) * 2 ^ 31 + g.nextN.toNat * 2 ^ 16 + out)

/-- RATION (07 R158). -/
def Core.ration (c : Core) : Word := BitVec.ofNat 32 (16 * c.floor.toNat + c.level.toNat)

/-- Registers held per core or per device. -/
def State.kcore (s : State) (core k : Nat) : Word :=
  let c := s.core core
  if 84 ≤ k && k ≤ 91 then (FMap.get c.mqs (k - 84)).cfg
  else if 92 ≤ k && k ≤ 99 then
    let m := FMap.get c.mqs (k - 92)
    m.tail.setWidth 16 ++ m.head
  else match k with
  | 40 => c.ration
  | 41 => c.mgbudget.setWidth 32
  | 42 => c.mgstall
  | 48 => c.meshovf
  | 49 => c.hintdrop
  | 56 => s.sguard
  | 57 => s.tband
  | 64 => c.cg.ctl
  | 65 => c.cg.stat
  | 66 => loW c.cg.sel
  | 67 => hiW c.cg.sel
  | 68 => loW c.cg.base
  | 69 => hiW c.cg.base
  | 70 => c.cg.size
  | 71 => c.cg.wr
  | 72 => c.cg.rd
  | 78 => loW s.dirtyBase
  | 79 => hiW s.dirtyBase
  | 81 => s.eccce
  | 82 => s.eccue
  | 101 => c.mgcap.setWidth 32
  | 111 => c.hfcnt
  | _ => 0

/-- Registers held per gang, launch, block or virtual interface, for a gang; per-slice registers apart. -/
def State.kgang (s : State) (g : Gang) (k : Nat) : Word :=
  let b := (s.block? g.block).getD {}
  let i := (s.iface? g.vi).getD {}
  match k with
  | 32 => g.asid
  | 34 => loW g.lcbase
  | 35 => hiW g.lcbase
  | 36 => g.lcsize
  | 74 => loW i.ptroot
  | 75 => hiW i.ptroot
  | 76 => s.grloc g
  | 77 => BitVec.ofNat 32 b.spbase
  | 100 => g.mbstat
  | 104 => loW g.binbase
  | 105 => hiW g.binbase
  | 106 => loW g.csbase
  | 107 => hiW g.csbase
  | 108 => loW b.bsbase
  | 109 => hiW b.bsbase
  | _ => 0

/-- Numbers of registers held for a gang's sake, which need a gang in the slot (12 R209). -/
def gangHeld (k : Nat) : Bool := perSlice k || [32, 34, 35, 36, 74, 75, 76, 77, 100, 104, 105, 106, 107, 108, 109].contains k

/-- What a system read of an RC register clears (00 R8). -/
def State.kclear (s : State) (core k : Nat) : State :=
  match k with
  | 42 => s.updCore core fun c => { c with mgstall := 0 }
  | 65 => s.updCore core fun c => { c with cg := { c.cg with drops := 0 } }
  | 81 => { s with eccce := 0 }
  | 82 => { s with eccue := 0 }
  | 111 => s.updCore core fun c => { c with hfcnt := 0 }
  | _ => s

/-- The hardware's sets of a clock land at its end (00 R8): over a software write of the clock an update of MESHOVF or HINTDROP wins, both
saturate (17 R302, 14 R256), and CFGERR stays set over a write of 1. -/
def Core.hwSets (k : Core) : Core :=
  let o := (k.ovf0.getD k.meshovf).toNat
  { k with
    meshovf := if k.ovfAdd = (0, 0) then k.meshovf
      else BitVec.ofNat 32 (2 ^ 16 * min (bitsOf o 31 16 + k.ovfAdd.1) 0xFFFF + min (bitsOf o 15 0 + k.ovfAdd.2) 0xFFFF)
    hintdrop := if k.hintAdd = 0 then k.hintdrop else BitVec.ofNat 32 (min ((k.hint0.getD k.hintdrop).toNat + k.hintAdd) 0xFFFFFFFF)
    cg := { k.cg with cfgerr := k.cg.cfgerr || k.cfgBad }
    ovf0 := none, hint0 := none, ovfAdd := (0, 0), hintAdd := 0, cfgBad := false, tpl0 := none }

/-- Drop every cached translation of a context (12 R204, R227). -/
def State.tlbDrop (s : State) (asid : Word) : State :=
  { s with
    tlb := s.tlb.filter fun (e : Nat × Word × Nat × Nat × Dword) => e.2.1 != asid
    walker := s.walker.filter fun (e : Word × Nat × Nat × Dword) => e.1 != asid }
/-- An invalidation of a whole context completes (12 R227): its translations are dropped, and every access that used one has reached the
L2. -/
def State.tlbCtx (s : State) (asid : Word) : State := s.drainAll.tlbDrop asid

/-- A write to PTROOT (12 R204, R222), an invalidation of its context. -/
def State.setPtroot (s : State) (vi : Nat) (v : Dword) : State :=
  match s.iface? vi with
  | none => s
  | some i => (s.setIface vi { i with ptroot := v &&& ~~~0xFFFFF#64 }).tlbCtx i.asid

/-- A write to MGBUDGET (15 R275, R276). -/
def State.setMgbudget (s : State) (core : Nat) (v : Word) : State :=
  s.updCore core fun c => { c with mgbudget := v.extractLsb' 0 9 }

/-- A write to a register held per core or per device; `blk` is the writer's block. Assumption 77: DEDUCED. -/
def State.kwcore (s : State) (core k : Nat) (v : Word) (blk : Option Nat) (sys : Bool) : State :=
  if 84 ≤ k && k ≤ 91 then s.mqcfg core (k - 84) v blk sys
  else match k with
  | 48 => s.updCore core fun c => { c with meshovf := v, ovf0 := some (c.ovf0.getD c.meshovf) }
  | 49 => s.updCore core fun c => { c with hintdrop := v, hint0 := some (c.hint0.getD c.hintdrop) }
  | _ =>
    if !sys then s
    else match k with
    | 40 => s.updCore core fun c => { c with level := v.extractLsb' 0 3 }
    | 41 => s.setMgbudget core v
    | 56 => { s with sguard := v &&& 0xFFFFFF }
    | 64 => s.cgctl core v
    | 65 => if v.getLsbD 30 then s.updCore core fun c => { c with cg := { c.cg with cfgerr := false } } else s
    | 66 => s.cgsel core (putLo (s.core core).cg.sel v)
    | 67 => s.cgsel core (putHi (s.core core).cg.sel v)
    | 68 => s.updCore core fun c => { c with cg := { c.cg with base := putLo c.cg.base v } }
    | 69 => s.updCore core fun c => { c with cg := { c.cg with base := putHi c.cg.base v } }
    | 70 => s.updCore core fun c => { c with cg := { c.cg with size := v } }
    | 72 => s.cgrd core v
    | 78 => { s with dirtyBase := putLo s.dirtyBase v &&& ~~~0x3F#64 }
    | 79 => { s with dirtyBase := putHi s.dirtyBase v }
    | _ => s

/-- A write at system privilege to a register held for a gang, per-slice registers apart. Assumption 77: DEDUCED. -/
def State.kwgang (s : State) (gid : Nat) (g : Gang) (k : Nat) (v : Word) : State :=
  let up := fun (g' : Gang) => s.updGang gid g'
  let blk := fun (h : Block → Block) => match s.block? g.block with
    | some b => s.setBlock g.block (h b)
    | none => s
  match k with
  | 32 =>
    let s1 := match s.iface? g.vi with
      | some i => s.setIface g.vi { i with asid := v }
      | none => s
    { s1 with gangs := s1.gangs.map fun e => (e.1, e.2.map fun (x : Gang) => if x.vi == g.vi then { x with asid := v } else x) }
  | 34 => up { g with lcbase := putLo g.lcbase v }
  | 35 => up { g with lcbase := putHi g.lcbase v }
  | 36 => up { g with lcsize := v }
  | 74 => s.setPtroot g.vi (putLo ((s.iface? g.vi).getD {}).ptroot v)
  | 75 => s.setPtroot g.vi (putHi ((s.iface? g.vi).getD {}).ptroot v)
  | 104 => up { g with binbase := putLo g.binbase v }
  | 105 => up { g with binbase := putHi g.binbase v }
  | 106 => up { g with csbase := putLo g.csbase v }
  | 107 => up { g with csbase := putHi g.csbase v }
  | 108 => blk fun b => { b with bsbase := putLo b.bsbase v }
  | 109 => blk fun b => { b with bsbase := putHi b.bsbase v }
  | _ => s

/-- The register serves other gangs too: it is held per core, per device, per virtual interface or per block (01 R28). -/
def kShared (k : Nat) : Bool := !gangHeld k || [32, 74, 75, 108, 109].contains k
/-- A change that waited for the end of its clock takes effect (01 R28, 24 R378, R379). -/
def State.applyLate (s : State) (w : Late) : State :=
  match w with
  | .kreg gid core k v blk sys =>
    if gangHeld k then (match s.gang? gid with
      | some g => s.kwgang gid g k v
      | none => s)
    else s.kwcore core k v blk sys
  | .gate core st => s.updCore core fun k => { k with gate := st, wakeAt := if st = 3 then s.ns + 10000 else k.wakeAt }
/-- A change is to take effect at the end of the clock. -/
def State.later (s : State) (w : Late) : State := { s with late := s.late ++ [w] }
/-- The clock's changes take effect. -/
def State.landLate (s : State) : State := s.late.foldl (fun (s : State) w => s.applyLate w) { s with late := [] }

/-- Write a per-slice register in the copies of a fragment, each with its own value. A write of STSEED (k25) reseeds the lanes of the
fragment's slices alone, each from its own slice's value: R45 says every lane, R140 and R141 hold k25 for each slice. Assumption 89: DESIGN
CHOICE. -/
def Gang.kwslices (g : Gang) (f : Frag) (sys : Bool) (k : Nat) (v : SliceCopy → Word) : Gang :=
  let g1 := g.mapCopies f.sliceList fun c => c.kstore sys k (v c)
  if k = 25 then f.sliceList.foldl (fun g sl => g.reseed sl ((g.copy sl).kget 25)) g1 else g1

end Sys2Proof.Machine
end

