-- ==== Sys2Proof/Machine/Window.lean ====
section
/-! DEFINITION. The core windows (12 R207 to R209), byte by byte, their k-register mirror, and the base-layer control range
(18 R312, R327, 22 R357, R367, R368, 26 R382, R392, 28 R413, R414, R417). -/

namespace Sys2Proof.Machine

/-! ### Storage regions -/

/-- A byte of a word. -/
def byteOf (w : Word) (i : Nat) : Byte := w.extractLsb' (8 * i) 8
/-- A word with one byte replaced. -/
def setByte (w : Word) (i : Nat) (b : Byte) : Word :=
  (w &&& ~~~(0xFF#32 <<< (8 * i))) ||| (b.setWidth 32 <<< (8 * i))

/-- An undefined tag that a register can carry (01 R21, 02 R35), a free value of the clock `n`. Assumption 3: DESIGN CHOICE. -/
def freeTagOf (ok : Tag → Bool) (n key : Nat) : Tag :=
  let t : Tag := (Config.freeWord n key).setWidth 7
  if ok t then t else Tag.raw
/-- Read one byte of a window's storage (R207 to R209); the aperture reads zero (16 R277), and what outstanding work will write is undefined
(01 R21). Assumption 40: DEDUCED. -/
def State.winByte (s : State) (core off : Nat) : Byte :=
  if s.coreDark core then 0
  else match placeOf off with
  | .sp o => Memory.read s.sp (spKey core o)
  | .vreg p r l b => match s.holderV core p r with
    | some (_, g, n) => byteOf (g.vget s.clk n l) b
    | none => 0
  | .acc r row col b => match s.holderA core r with
    | some (_, g, n) => byteOf (if g.busyV (256 + n) then Config.freeWord s.clk (32 * row + col) else g.aget n row col) b
    | none => 0
  | .tile t b => match s.holderT core t with
    | some (_, k, n) => if s.tileNamed k n then Config.freeByte s.clk (2048 * n + b) else FMap.get k.tdata (2048 * n + b)
    | none => 0
  | .side t b => match s.holderT core t with
    | some (_, k, n) => if s.tileNamed k n then Config.freeByte s.clk (0x8000 + 512 * n + b) else FMap.get k.tside (512 * n + b)
    | none => 0
  | .vtag p r => match s.holderV core p r with
    | some (_, g, n) => (g.srcTag s.clk n).setWidth 8
    | none => 0
  | .atag r => match s.holderA core r with
    | some (_, g, n) => (if g.busyV (256 + n) then freeTagOf accTagOk s.clk (0x20100 + n) else g.atagOf n).setWidth 8
    | none => 0
  | .ttag t => match s.holderT core t with
    | some (_, k, n) => (if s.tileNamed k n then freeTagOf tileTagOk s.clk (0x20200 + n) else FMap.get k.ttag n).setWidth 8
    | none => 0
  | .tpl o => FMap.get (s.core core).tpl o
  | _ => 0

/-- A write to a template byte gives its entry an owner (16 R278); what the table held at the clock's start stays known (16 R279). -/
def Core.tplPut (k : Core) (o : Nat) (b : Byte) (w : Owner) : Core :=
  { k with tpl0 := some (k.tpl0.getD (k.tpl, k.towner)), tpl := FMap.put k.tpl o b, towner := FMap.put k.towner (o / 64) w }
/-- Write one byte of a window's storage; a tag byte that breaks R35 is discarded (R209). A template byte written this way
is the system's (16 R278). A unit's poison stays, for the byte is but a part of it (R216), a tag's apart. Assumption 40: DEDUCED. -/
def State.winPut (s : State) (core off : Nat) (b : Byte) : State :=
  if s.coreDark core then s
  else match placeOf off with
  | .sp o =>
    let s1 := (s.blockList.filter fun e => e.2.core == core && !e.2.desched && decide (256 * e.2.spbase ≤ o) &&
        decide (o < 256 * e.2.spbase + e.2.scratch)).foldl
      (fun (s : State) e => s.spNote e.2 (o - 256 * e.2.spbase) 1) s
    { s1 with sp := Memory.write s1.sp (spKey core o) b }
  | .vreg p r l i => match s.holderV core p r with
    | some (gid, g, n) =>
      s.updGang gid { ((g.vput n l (setByte (g.vraw n l) i b)).unlatch n).touch n with
        bad := g.bad, hist := Held.add g.hist none (32 * n + l) (g.vraw n l) }
    | none => s
  | .acc r row col i => match s.holderA core r with
    | some (gid, g, n) => s.updGang gid { (g.aput n row col (setByte (g.aget n row col) i b)).touch (256 + n) with
        bad := g.bad, hist := Held.add g.hist none (8192 + 1024 * n + 32 * row + col) (g.aget n row col) }
    | none => s
  | .tile t i => match s.holderT core t with
    | some (bid, k, n) => (s.tileTouched bid none false n [2 ^ 16 + 512 * n + i / 4]).setBlock bid { k with tdata := FMap.put k.tdata (2048 * n + i) b }
    | none => s
  | .side t i => match s.holderT core t with
    | some (bid, k, n) => (s.tileTouched bid none false n [2 ^ 17 + 128 * n + i / 4]).setBlock bid { k with tside := FMap.put k.tside (512 * n + i) b }
    | none => s
  | .vtag p r => match s.holderV core p r with
    | some (gid, g, n) => if vecTagOk (b.setWidth 7) then s.updGang gid ((g.setTag n (b.setWidth 7)).unlatch n) else s
    | none => s
  | .atag r => match s.holderA core r with
    | some (gid, g, n) => if accTagOk (b.setWidth 7) then s.updGang gid (g.setAtag n (b.setWidth 7)) else s
    | none => s
  | .ttag t => match s.holderT core t with
    | some (bid, k, n) =>
      if tileTagOk (b.setWidth 7) then
        (s.tileTouched bid none false n [2 ^ 18 + n]).setBlock bid { k with ttag := FMap.put k.ttag n (b.setWidth 7), bad := FMap.put k.bad (32768 + n) false } else s
    | none => s
  | .tpl o => s.updCore core fun k => k.tplPut o b {}
  | _ => s
/-- A write that covers whole units of a window's storage clears their poison (R216): 32 bits of a register file, 64 of the others. -/
def State.winClear (s : State) (core off n : Nat) : State :=
  if s.coreDark core then s
  else (List.range n).foldl (fun (s : State) i =>
    let o := off + i
    match placeOf o with
    | .vreg p r l _ => (match s.holderV core p r with
      | some (gid, g, k) => if o % 4 = 0 && i + 4 ≤ n then s.updGang gid { g with bad := FMap.put g.bad (32 * k + l) false } else s
      | none => s)
    | .acc r row col _ => (match s.holderA core r with
      | some (gid, g, k) =>
        if o % 4 = 0 && i + 4 ≤ n then s.updGang gid { g with bad := FMap.put g.bad (8192 + 1024 * k + 32 * row + col) false } else s
      | none => s)
    | .tile t b => (match s.holderT core t with
      | some (bid, x, k) => if o % 8 = 0 && i + 8 ≤ n then s.setBlock bid { x with bad := FMap.put x.bad ((2048 * k + b) / 8) false } else s
      | none => s)
    | .side t b => (match s.holderT core t with
      | some (bid, x, k) =>
        if o % 8 = 0 && i + 8 ≤ n then s.setBlock bid { x with bad := FMap.put x.bad (16384 + (512 * k + b) / 8) false } else s
      | none => s)
    | .sp a => if o % 8 = 0 && i + 8 ≤ n then s.clearUnits 3 (spKey core a) 8 else s
    | .tpl a => if o % 8 = 0 && i + 8 ≤ n then s.clearUnits 4 (0x4000 * core + a) 8 else s
    | _ => s) s

/-- A write to a template by a program sets its owner to the writer (16 R278). -/
def State.tplWrite (s : State) (core off : Nat) (bs : List Byte) (owner : Owner) : State :=
  (s.updCore core fun k => bs.zipIdx.foldl (fun k e => if off + e.2 < 0x4000 then k.tplPut (off + e.2) e.1 owner else k) k).clearUnits
    4 (0x4000 * core + off) bs.length

/-! ### The mirror (R209) -/

/-- A register of the mirror, read at system privilege without its clearing. -/
def State.mirrorWord (s : State) (core slot k : Nat) : Word :=
  if s.coreDark core then 0
  else if gangHeld k then
    match s.atSlot core slot with
    | none => 0
    | some (_, g) =>
      if perSlice k then
        match g.frags.head? with
        | some f => g.kslice f (g.low f) k
        | none => 0
      else s.kgang g k
  else s.kcore core k

/-- Write a register of the mirror at system privilege. Assumption 37: DEDUCED. -/
def State.mirrorPut (s : State) (core slot k : Nat) (v : Word) : State :=
  if s.coreDark core then s
  else if gangHeld k then
    match s.atSlot core slot with
    | none => s
    | some (gid, g) =>
      if perSlice k then
        let g1 := g.frags.foldl (fun (g : Gang) f => (g.kwslices f true k fun _ => v).putFrag (f.kwrote true k)) g
        s.updGang gid g1
      else s.kwgang gid g k v
  else s.kwcore core k v none true

/-! ### The base-layer control range, by offset from 0xF_0000_0000_0000 -/

/-- Threshold words of R389, in 1/8 K. -/
def thresholds : List Nat := [576, 616, 656, 680, 880, 960]

/-- STSTAT (22 R357). -/
def State.ststat (s : State) : Word :=
  let o : Int := max (-524287) (min 524287 s.offset)
  BitVec.ofNat 32 (b2n (decide (16 ≤ s.syncs)) * 2 ^ 31 + b2n (s.slew != 0) * 2 ^ 30) |||
    (BitVec.ofInt 20 o).setWidth 32
/-- LOCKED of STSTAT. Assumption 63: DEDUCED. -/
def State.stLocked (s : State) : Bool := decide (16 ≤ s.syncs)
/-- FLSTAT (28 R414). Assumption 63: DEDUCED. -/
def State.flstat (s : State) : Word :=
  let mid := bitsOf (s.breg 0x405100).toNat 15 8
  BitVec.ofNat 32 (b2n (s.lock.agreeing && s.stLocked) * 2 ^ 31 + b2n (s.lock.members.getLsbD mid) * 2 ^ 30 +
    b2n (s.lock.acting && s.stLocked) * 2 ^ 29) |||
    s.lock.members.setWidth 32
/-- PPSTAT (28 R413). -/
def Port.stat (p : Port) : Word := BitVec.ofNat 32 (p.st * 2 ^ 30 + p.lanes * 2 ^ 28 + min p.sheds 65535)
/-- DOMST (26 R382). -/
def Domain.stat (d : Domain) : Word := BitVec.ofNat 32 (d.idle * 2 ^ 30 + d.level * 2 ^ 27 + min d.pwr 4095)

/-- A control register's word. Assumption 7: DESIGN CHOICE. -/
def State.ctrlWord (s : State) (off : Nat) : Word :=
  if 0x400000 ≤ off && off < 0x401000 then
    (if off % 16 = 0 then BitVec.ofNat 32 (s.slotState ((off - 0x400000) / 16) * 2 ^ 29) else 0) ||| s.breg off
  else if 0x403000 ≤ off && off < 0x403300 then (if off % 64 < 40 then s.breg off else 0)
  else if 0x404010 ≤ off && off < 0x404030 then (FMap.get s.domains ((off - 0x404010) / 4)).stat
  else if 0x404080 ≤ off && off < 0x4040A8 then BitVec.ofNat 32 (FMap.get s.sensors ((off - 0x404080) / 4) % 4096)
  else if 0x4040C0 ≤ off && off < 0x4040D8 then BitVec.ofNat 32 (thresholds.getD ((off - 0x4040C0) / 4) 0)
  else if 0x405000 ≤ off && off < 0x405020 then (FMap.get s.ports ((off - 0x405000) / 4 + 1)).stat
  else if 0x405020 ≤ off && off < 0x405040 then b2w (FMap.get s.ports ((off - 0x405020) / 4 + 1)).en
  else match off with
  | 0x402004 => s.ststat
  | 0x402014 => s.mlwr
  | 0x404004 => BitVec.ofNat 32 (s.callot % 4096)
  | 0x405118 => s.flstat
  | _ => s.breg off

/-- What a read of an RC register of the range clears: SHEDS of PPSTAT (28 R413). -/
def State.ctrlClear (s : State) (off : Nat) : State :=
  if 0x405000 ≤ off && off < 0x405020 then
    let n := (off - 0x405000) / 4 + 1
    { s with ports := FMap.put s.ports n { FMap.get s.ports n with sheds := 0 } }
  else s

/-- The step of its own that a write to a register makes, in the same clock. -/
def State.soon (s : State) (i : Instr) (subject : Nat) : State :=
  { s with prompt := s.prompt ++ [.event i s.gang s.slice subject] }

/-- A copy of words 0 to 9 of a reprojection bank into its active copy (22 R367). -/
def State.commitBank (s : State) (b : Nat) : State :=
  { s with active := FMap.put s.active b ((List.range 10).map fun w => s.breg (0x403000 + 64 * b + 4 * w)) }

/-- Write a control register's word under its access code (00 R8, R9). Assumption 39: DEDUCED. -/
def State.ctrlPut (s : State) (off : Nat) (v : Word) : State :=
  if 0x400000 ≤ off && off < 0x401000 then
    match off % 16 with
    | 0 => s.setBreg off (v &&& 0x1E0F03FF)
    | 4 => s.setBreg off (v &&& 0xFFFFE000)
    | 8 => s.setBreg off (v &&& 0x3FFFFF)
    | _ => s
  else if 0x403000 ≤ off && off < 0x403300 then
    if off % 64 < 40 then s.setBreg off v
    else if off % 64 = 40 then s.commitBank ((off - 0x403000) / 64) else s
  else if 0x405020 ≤ off && off < 0x405040 then
    let n := (off - 0x405020) / 4 + 1
    let p := FMap.get s.ports n
    let en := v.getLsbD 0
    let p1 := { p with en := en, st := if en then (if p.en then p.st else 1) else 0 }
    let s1 := { s with ports := FMap.put s.ports n p1 }
    if !en then s1.soon .shedRetrainTimeout n else if v.getLsbD 1 then s1.soon .ppctlWiden n else s1
  else if 0x405200 ≤ off && off < 0x405400 then s.setBreg off v
  else match off with
  | 0x401000 => s.setBreg off (v &&& 0x1FFFFFF)
  | 0x401004 => s.setBreg off (v &&& 0x3FFFFF)
  | 0x402000 => s.setBreg off (if 9 ≤ bitsOf v.toNat 3 0 then v &&& 0xF else v &&& 0x1F)
  | 0x402008 | 0x40200C | 0x402010 => s.setBreg off v
  | 0x404000 => s.setBreg off (v &&& 0xFFF)
  | 0x404008 => s.soon (.ltolWrite v) 0
  | 0x404040 =>
    if v = 1 then s.soon .cryocmdCool 0 else if v = 2 then s.soon .cryocmdWarm 0
    else if v = 4 then s.soon .cryocmdService 0 else s
  | 0x405100 => { s with lock := { s.lock with leave := [], agreed := 0 } }.setBreg off (if 24 ≤ bitsOf v.toNat 15 8 then v &&& 0xFFFFFF02 else v &&& 0xFFFFFF03)
  | 0x405104 | 0x405110 | 0x405114 => s.setBreg off v
  | 0x405108 => s.setBreg off (v &&& 0xFFFF)
  | _ => s

/-- A register whose write is a pulse or clears bits: bytes an access does not name are merged as zero (R209). -/
def ctrlPulse (off : Nat) : Bool :=
  off == 0x404040 || (decide (0x403000 ≤ off) && decide (off < 0x403300) && off % 64 == 40)

/-! ### By physical address -/

def inWindow (pa : Nat) : Bool := decide (0x8000000000000 ≤ pa) && decide (pa < 0x8000150000000)
def inCtrl (pa : Nat) : Bool := decide (0xF000000000000 ≤ pa) && decide (pa < 0xF000100000000)
/-- Core and offset of a window address (R206). -/
def winCore (pa : Nat) : Nat := (pa - 0x8000000000000) / 2 ^ 22
def winOff (pa : Nat) : Nat := pa % 2 ^ 22

/-- One byte at a physical address, without the clearing of a read (R209); what a remote aperture returns is the other
side's. Assumption 75: DEDUCED. -/
def State.physByte (s : State) (pa : Nat) : Byte :=
  if pa < dramEnd then Memory.read s.mem pa
  else if inWindow pa then
    match placeOf (winOff pa) with
    | .mirror slot k b => byteOf (s.mirrorWord (winCore pa) slot k) b
    | _ => s.winByte (winCore pa) (winOff pa)
  else if inCtrl pa then byteOf (s.ctrlWord ((pa - 0xF000000000000) / 4 * 4)) (pa % 4)
  else if pa / 2 ^ 48 = 4 || pa / 2 ^ 48 = 5 then Config.freeByte s.clk pa
  else 0

/-- What a read of physical bytes clears (00 R8, 12 R209). -/
def State.physClear (s : State) (pas : List Nat) : State :=
  ((pas.map fun pa => pa / 4 * 4).eraseDups).foldl (fun s pa =>
    if inWindow pa then
      match placeOf (winOff pa) with
      | .mirror _ k _ => if s.coreDark (winCore pa) then s else s.kclear (winCore pa) k
      | _ => s
    else if inCtrl pa then s.ctrlClear (pa - 0xF000000000000) else s) s

/-- A hardware read at a region that a register names (R206): reserved ranges read zero. -/
def State.hwReadAll (s : State) (a n : Nat) : List Byte := (List.range n).map fun i => s.physByte (a + i)
/-- Bytes that an agent that is no core reads at virtual addresses, through the L2; a byte that does not translate reads zero. -/
def State.agentRead (s : State) (w : Who) (va n : Nat) : List Byte :=
  (List.range n).map fun i => match s.pa? w .load (va + i) with
    | some pa => s.physByte pa
    | none => 0
/-- Such a read with what it leaves: the translations it used (R225), what a read clears, and loads that went out to apertures. -/
def State.agentGet (s : State) (w : Who) (va n : Nat) : List Byte × State :=
  let s1 := s.installAll w .load va n
  let pas := (List.range n).filterMap fun i => s1.pa? w .load (va + i)
  let out := pas.filter fun pa => pa / 2 ^ 48 == 4 || pa / 2 ^ 48 == 5
  let s2 := s1.physClear (pas.filter fun pa => decide (dramEnd ≤ pa))
  (s1.agentRead w va n, (runsOf (out.map fun pa => (pa, (0 : Byte)))).foldl (fun (s : State) r => s.remoteLoad (s.viOf w.asid) r.1 r.2.length) s2)

end Sys2Proof.Machine
end

