-- ==== Sys2Proof/Machine/Copy.lean ====
section
/-! DEFINITION. Starting a copy (16 R278 to R280, R282, R284, R285): templates, layout records, the check of the whole copy
and its acceptance. -/

namespace Sys2Proof.Machine

/-! ### Templates (R278) -/

/-- The template table and its owners as they stood at the start of the clock (R279). -/
def Core.tplStart (k : Core) : FMap Byte × FMap Owner := k.tpl0.getD (k.tpl, k.towner)
/-- The 64 bytes of a template at the start of the clock. -/
def State.template (s : State) (core t : Nat) : List Byte :=
  (List.range 64).map fun i => FMap.get (s.core core).tplStart.1 (64 * t + i)

namespace Tpl
def src (t : List Byte) : Nat := field t 0 8
def dst (t : List Byte) : Nat := field t 8 8
def size (t : List Byte) : Nat := field t 16 4
def ctl (t : List Byte) : Nat := field t 20 4
def faddr (t : List Byte) : Nat := field t 24 8
def fval (t : List Byte) : Nat := field t 32 8
def recAt (t : List Byte) : Nat := field t 40 8
def ssp (t : List Byte) : Nat := bitsOf (ctl t) 2 0
def dsp (t : List Byte) : Nat := bitsOf (ctl t) 5 3
def red (t : List Byte) : Nat := bitsOf (ctl t) 8 6
def rty (t : List Byte) : Nat := bitsOf (ctl t) 10 9
def fen (t : List Byte) : Bool := bitsOf (ctl t) 11 11 == 1
def fsize (t : List Byte) : Nat := if bitsOf (ctl t) 12 12 = 1 then 8 else 4
def len (t : List Byte) : Bool := bitsOf (ctl t) 13 13 == 1
def ten (t : List Byte) : Bool := bitsOf (ctl t) 14 14 == 1
def tag (t : List Byte) : Tag := BitVec.ofNat 7 (bitsOf (ctl t) 21 15)
end Tpl

/-! ### Layout records (R284) -/

/-- A record obeys R284. -/
def recOk (r : List Byte) : Bool :=
  let nd := field r 1 1
  decide (field r 0 1 ≤ 4) && decide (1 ≤ nd) && decide (nd ≤ 5) && decide (field r 2 1 ≤ 1) && field r 3 1 == 0 &&
    field r 8 8 == 0 && field r 176 16 == 0 &&
    (List.range nd).all (fun d => field r (16 + 32 * d) 4 != 0 && field r (28 + 32 * d) 4 == 0) &&
    decide ((List.range nd).foldl (fun a d => a * field r (16 + 32 * d) 4) 1 ≤ 2 ^ 32)

/-- One element of a copy: destination, source or none for a filled element, its size, and the fill word. -/
structure Elem where
  dst  : Nat
  src  : Option Nat
  size : Nat
  fill : Nat
  deriving DecidableEq, Repr

/-- Elements of the dimensions below `n`, index 0 varying fastest (R284): offsets of destination and source and whether every
index is in bounds. -/
def recIndex (r : List Byte) : Nat → List (Int × Int × Bool)
  | 0 => [(0, 0, true)]
  | n + 1 =>
    let o := 16 + 32 * n
    let st := sextNat 32 (field r (o + 8) 4)
    let ss := sextNat 64 (field r (o + 16) 8)
    let ds := sextNat 64 (field r (o + 24) 8)
    (List.range (field r o 4)).flatMap fun (i : Nat) => (recIndex r n).map fun e =>
      let j : Int := st + Int.ofNat i
      (e.1 + Int.ofNat i * ds, e.2.1 + j * ss, e.2.2 && decide (0 ≤ j) && decide (j < (field r (o + 4) 4 : Int)))

/-- The elements of a copy in order (R283, R284); `rcd` is empty without a record. Without one, and without a reduction, the bytes move by the
words of the destination, so that a register takes one write (12 R209). -/
def copyElems (t rcd : List Byte) : List Elem :=
  if Tpl.len t then
    let sz := 2 ^ field rcd 0 1
    let fill := field rcd 2 1 == 1
    (recIndex rcd (field rcd 1 1)).filterMap fun e =>
      let d := (((Tpl.dst t : Nat) : Int) + e.1).emod (2 ^ 64)
      let s := (((Tpl.src t : Nat) : Int) + e.2.1).emod (2 ^ 64)
      if e.2.2 then some ⟨d.toNat, some s.toNat, sz, 0⟩
      else if fill then some ⟨d.toNat, none, sz, field rcd 4 4⟩ else none
  else
    if Tpl.red t = 0 then
      let lead := min (Tpl.size t) ((4 - Tpl.dst t % 4) % 4)
      let at_ := fun (o n : Nat) => if n = 0 then [] else [(⟨(Tpl.dst t + o) % 2 ^ 64, some ((Tpl.src t + o) % 2 ^ 64), n, 0⟩ : Elem)]
      at_ 0 lead ++ (List.range ((Tpl.size t - lead + 3) / 4)).flatMap fun k => at_ (lead + 4 * k) (min 4 (Tpl.size t - lead - 4 * k))
    else (List.range (Tpl.size t / 4)).map fun k => ⟨(Tpl.dst t + 4 * k) % 2 ^ 64, some ((Tpl.src t + 4 * k) % 2 ^ 64), 4, 0⟩

/-- Chunk of a destination address (R282). -/
def chunkOf (t : List Byte) (a : Nat) : Nat := min 127 ((a + 2 ^ 64 - Tpl.dst t) % 2 ^ 64 / 512)

/-- Bits of chunks the copy writes no byte in (R282). -/
def idleBits (t rcd : List Byte) : BitVec 128 :=
  let es := copyElems t rcd
  es.foldl (fun b e => putBit (putBit b (chunkOf t e.dst) false) (chunkOf t (e.dst + e.size - 1)) false) (BitVec.allOnes 128)

/-! ### The starter -/

/-- Who starts a copy: its launch, block and gang, its privilege and context; a store through a core window has none (R279). `again` tells a
parked copy that checks at a replay, when its block may be gone. -/
structure Starter where
  gang   : Option Nat
  launch : Option Nat
  block  : Option Nat
  sys    : Bool
  asid   : Option Word
  again  : Bool := false
  deriving DecidableEq, Repr

/-- The starter a store's gang makes; without a gang, a system agent's store through the window. -/
def State.starter (s : State) (gid : Option Nat) : Starter :=
  match gid with
  | none => ⟨none, none, none, true, none, false⟩
  | some i => match s.gang? i with
    | some g => ⟨gid, some g.launch, some g.block, g.priv, some g.asid, false⟩
    | none => ⟨gid, none, none, false, none, false⟩

/-- The requester in the context of a launch, from a core's engine. Assumption 35: DEDUCED. -/
def State.whoEngine (s : State) (core : Nat) (launch : Option Nat) (sys : Bool) : Who :=
  match launch.bind s.launch? with
  | some l => { s.whoLaunch l with core := core, sys := sys, user := .bte }
  | none => { core := core, asid := 0, root := 1, sys := true, demand := false, leases := none, user := .bte }

/-! ### The check (R280) -/

/-- What one byte of a copy meets. -/
inductive CopyByte where
  | ok
  | park (va : Nat)
  | lease (va : Nat)
  | bad
  deriving DecidableEq, Repr

/-- A physical byte that is not in a reserved range (R206, R207) and that its transport can carry, for a context, or for some
interface where system software started the copy without one. -/
def State.physOk (s : State) (asid : Option Word) (pa : Nat) : Bool :=
  if pa < dramEnd then true
  else if pa / 2 ^ 48 = 4 || pa / 2 ^ 48 = 5 then
    (match asid with
    | some a => s.remoteOk a pa
    | none => s.ifaces.any fun e => match e.2 with
      | some i => s.remoteOk i.asid pa
      | none => false)
  else if 0x8000000000000 ≤ pa && pa < 0x8000150000000 then placeOf (pa % 2 ^ 22) != .rsv
  else decide (0xF000000000000 ≤ pa) && decide (pa < 0xF000100000000)

/-- A window offset that a gang's copy may name in space 3 (R278). -/
def State.ownPlace (s : State) (core : Nat) (blk : Nat) (off : Nat) : Bool :=
  let mine := fun (g : Gang) => g.block == blk
  match placeOf off with
  | .sp o => match s.block? blk with
    | some b => decide (256 * b.spbase ≤ o) && decide (o < 256 * b.spbase + b.scratch)
    | none => false
  | .vreg p r _ _ | .vtag p r => match s.holderV core p r with
    | some (_, g, _) => mine g
    | none => false
  | .acc r _ _ _ | .atag r => match s.holderA core r with
    | some (_, g, _) => mine g
    | none => false
  | .tile t _ | .side t _ | .ttag t => match s.holderT core t with
    | some (bid, _, _) => bid == blk
    | none => false
  | _ => false

/-- Check one byte in a space (R280, codes 4 and 5). -/
def State.copyByte (s : State) (core : Nat) (st : Starter) (acc : Acc) (sp a : Nat) : CopyByte :=
  match sp with
  | 0 =>
    if localRange a then .bad
    else match s.chkByte (s.whoEngine core st.launch st.sys) acc a with
      | .ok => .ok
      | .park va => .park va
      | .bad k va => if k = 10 then .lease va else .bad
  | 1 => match st.block.bind s.block? with
    | some b => if a < b.scratch then .ok else .bad
    | none => if st.again then .ok else .bad
  | 2 => if s.physOk st.asid a then .ok else .bad
  | _ => if a < 2 ^ 22 && placeOf a != .rsv then .ok else .bad

/-- The first byte of a list that does not pass. -/
def State.copyBytes (s : State) (core : Nat) (st : Starter) (acc : Acc) (sp : Nat) (as : List Nat) : CopyByte :=
  (as.map fun a => s.copyByte core st acc sp a).foldl (fun c x => if c = .ok then x else c) .ok

/-- Bytes of an element. -/
def span64 (a n : Nat) : List Nat := (List.range n).map fun i => (a + i) % 2 ^ 64

/-- Result of the check of a whole copy: it passes, parks, or ends with a code, `lease` telling a lease failure. -/
inductive CopyCheck where
  | pass
  | park (va : Nat) (acc : Acc)
  | err (code : Nat) (lease : Option Nat)
  deriving DecidableEq, Repr

/-- The outcome of one byte check under its code. -/
def CopyByte.out (c : CopyByte) (code : Nat) (acc : Acc) (rest : CopyCheck) : CopyCheck :=
  match c with
  | .ok => rest
  | .park va => .park va acc
  | .lease va => .err code (some va)
  | .bad => .err code none

/-- Space 3 outside the regions of R278 (code 2). -/
def State.space3Bad (s : State) (core : Nat) (st : Starter) (sp : Nat) (as : List Nat) : Bool :=
  match st.block with
  | some b => sp == 3 && as.any fun a => !(decide (a < 2 ^ 22) && s.ownPlace core b a)
  | none => false

/-- What reading a layout record gives (R280, R285, 12 R216). -/
inductive RecRead where
  | got (bs : List Byte)
  | park (va : Nat)
  | poison
  | bad
  deriving DecidableEq, Repr
/-- The bytes of a record that was read. -/
def RecRead.raw : RecRead → Option (List Byte)
  | .got bs => some bs
  | _ => none

/-- Physical addresses that a byte list of a copy names in spaces 0 and 2. -/
def State.reachPa (s : State) (core : Nat) (st : Starter) (sp a : Nat) : Option Nat :=
  if sp = 2 then some a else s.pa? (s.whoEngine core st.launch st.sys) .load a
/-- The bytes of a record as memory holds them, when they can be read. Assumption 38: DESIGN CHOICE. -/
def State.readRecord (s : State) (core : Nat) (st : Starter) (a : Nat) : RecRead :=
  let sp := if st.block.isNone then 2 else 0
  if a % 64 ≠ 0 then .bad
  else match s.copyBytes core st .load sp (span64 a 192) with
    | .ok =>
      let pas := (span64 a 192).map fun x => (s.reachPa core st sp x).getD dramEnd
      if pas.any fun pa => (s.physBad pa).isSome then .poison else .got (pas.map s.physByte)
    | .park va => .park va
    | _ => .bad
/-- Look a record up in the cluster's cache of 256, or read it (R285), which sets A for its page (12 R225). Assumption 38: DESIGN CHOICE. -/
def State.getRecord (s : State) (core : Nat) (st : Starter) (a : Nat) : RecRead × State :=
  let cl := FMap.get s.clusters (clusterOf core)
  let asid := st.asid.getD 0
  match cl.records.find? fun r => r.1 == asid && r.2.1 == BitVec.ofNat 64 a with
  | some r => (.got r.2.2, s)
  | none => match s.readRecord core st a with
    | .got b =>
      let cl1 := { cl with records := ((asid, BitVec.ofNat 64 a, b) :: cl.records).take 256 }
      (.got b, ({ s with clusters := FMap.put s.clusters (clusterOf core) cl1 } : State).installAll (s.whoEngine core st.launch st.sys) .load a 192)
    | r => (r, s)

/-- Check 1 of R280: the template's owner. -/
def ownerBad (ow : Owner) (st : Starter) : Bool :=
  (ow.sys && !st.sys) || (ow.asid.isSome && ow.asid != st.asid) || (st.asid.isNone && !(ow.sys && ow.asid.isNone))
/-- The elements that a copy moves, as far as its record is known. -/
def knownElems (t : List Byte) (r : RecRead) : List Elem :=
  if Tpl.len t then (match r.raw.filter recOk with
    | some b => copyElems t b
    | none => []) else copyElems t []
/-- Bytes that elements read. -/
def srcBytes (es : List Elem) : List Nat := es.flatMap fun e => match e.src with
  | some a => span64 a e.size
  | none => []
/-- Bytes that elements write. -/
def dstBytes (es : List Elem) : List Nat := es.flatMap fun e => span64 e.dst e.size
/-- The template would set a tag that a register it writes cannot carry (02 R35), or that has a code or a rotation that no register takes. -/
def State.tagBad (s : State) (core : Nat) (st : Starter) (t : List Byte) (es : List Elem) : Bool :=
  Tpl.ten t && (dstBytes es).any fun a =>
    let pa := match Tpl.dsp t with
      | 0 => s.pa? (s.whoEngine core st.launch st.sys) .store a
      | 2 => some a
      | 3 => some (0x8000000000000 + 2 ^ 22 * core + a % 2 ^ 22)
      | _ => none
    match pa with
    | some p => decide (0x8000000000000 ≤ p) && decide (p < 0x8000150000000) && (match placeOf (p % 2 ^ 22) with
      | .vreg _ _ _ _ => !vecTagOk (Tpl.tag t)
      | .acc _ _ _ _ => !accTagOk (Tpl.tag t)
      | .tile _ _ | .side _ _ => !tileTagOk (Tpl.tag t)
      | _ => false)
    | none => false
/-- Checks 2 and 3 of R280, the code of the first that fails; check 3 looks at ESZ of a record that could be read, well formed or not. A tag
that the copy may not set (02 R35) is a malformed code of check 2. Assumption 35: DEDUCED. -/
def State.formBad (s : State) (core : Nat) (st : Starter) (word : Word) (t : List Byte) (r : RecRead) : Option Nat :=
  let es := knownElems t r
  let sp := Tpl.ssp t
  let dp := Tpl.dsp t
  if word.toNat / 2 ^ 17 ≠ 0 || bitsOf (Tpl.ctl t) 31 22 ≠ 0 || field t 48 16 ≠ 0 || 4 ≤ sp || 4 ≤ dp ||
    6 ≤ Tpl.red t || Tpl.rty t = 3 || (!st.sys && (sp = 2 || dp = 2)) || (st.block.isNone && (sp < 2 || dp < 2)) ||
    s.space3Bad core st sp (srcBytes es) || s.space3Bad core st dp (dstBytes es) || s.tagBad core st t es then some 2
  else if Tpl.red t ≠ 0 && (dp ≠ 0 || Tpl.dst t % 4 ≠ 0 || Tpl.src t % 4 ≠ 0 || (!Tpl.len t && Tpl.size t % 4 ≠ 0) ||
    (Tpl.rty t = 2 && (Tpl.red t = 4 || Tpl.red t = 5)) ||
    (Tpl.len t && (match r.raw with
      | some b => field b 0 1 != 2
      | none => false))) then some 3
  else none
/-- Checks 4 to 7 of R280, which a record whose page is away lets wait, and code 8 of a record that is poisoned (R283). -/
def State.copyReach (s : State) (core : Nat) (st : Starter) (t : List Byte) (r : RecRead) : CopyCheck :=
  let es := knownElems t r
  let rest : CopyCheck := if !Tpl.len t then .pass else match r with
    | .got b => if recOk b then .pass else .err 7 none
    | .poison => .err 8 none
    | _ => .err 7 none
  match Tpl.len t, r with
  | true, .park va => .park va .load
  | _, _ =>
    (s.copyBytes core st .load (Tpl.ssp t) (srcBytes es)).out 4 .load <|
    (s.copyBytes core st .store (Tpl.dsp t) (dstBytes es)).out 5 .store <|
    (if Tpl.fen t then
      (if Tpl.faddr t % Tpl.fsize t ≠ 0 then .bad
       else s.copyBytes core st .store (if st.block.isNone then 2 else 0) (span64 (Tpl.faddr t) (Tpl.fsize t)))
     else .ok).out 6 .store rest
/-- The checks of R280 in order. Assumption 35: DEDUCED. -/
def State.copyCheck (s : State) (core : Nat) (st : Starter) (word : Word) (ow : Owner) (t : List Byte) (r : RecRead) : CopyCheck :=
  if ownerBad ow st then .err 1 none
  else match s.formBad core st word t r with
    | some n => .err n none
    | none => s.copyReach core st t r
/-- The translations that a copy uses are made (12 R224, R225). -/
def State.installCopy (s : State) (core : Nat) (st : Starter) (t : List Byte) (es : List Elem) : State :=
  let w := s.whoEngine core st.launch st.sys
  let at_ := fun (acc : Acc) (as : List Nat) (s : State) =>
    (((as.map fun a => a / 65536 * 65536).eraseDups)).foldl (fun (s : State) a => s.install w a (s.xlate w acc a)) s
  let s1 := if Tpl.ssp t = 0 then at_ .load (srcBytes es) s else s
  let s2 := if Tpl.dsp t = 0 then at_ .store (dstBytes es) s1 else s1
  if Tpl.fen t && st.block.isSome then at_ .store [Tpl.faddr t] s2 else s2

/-! ### Acceptance (R279) -/

/-- Slot of an aperture word. -/
def wordSlot (w : Word) : Nat := bitsOf w.toNat 16 8

/-- End a copy in ERROR (R280, R283); a lease failure cancels the launch with a record of source 3 (21 R343). -/
def State.copyFail (s : State) (core slot code : Nat) (st : Starter) (lease : Option Nat) : State :=
  let s1 := s.updCore core fun k => { k with
    slots := FMap.put k.slots slot { FMap.get k.slots slot with st := 3, err := code }
    copies := k.copies.filter fun c => c.slot != slot }
  match lease, st.launch with
  | some va, some l =>
    let b := (st.block.bind s.block?).getD {}
    (s1.addErr l { time := s.ns, taddr := BitVec.ofNat 64 va, tval := 0xA00, code := 3, source := 3, core := core,
                   block := b.idx }).cancelLaunch l
  | _, _ => s1

/-- What a check's outcome does to a copy (R280): it runs, with its translations made, parks, or ends in ERROR. -/
def State.judged (s : State) (core : Nat) (c : Copy) (st : Starter) (r : RecRead) : CopyCheck → State
  | .pass =>
    let b := (r.raw.filter recOk).getD []
    let s1 := s.installCopy core st c.tpl (knownElems c.tpl r)
    s1.updCore core fun k => { k with
      copies := k.copies.map fun (x : Copy) => if x.slot = c.slot then { x with recd := b, parked := false, unread := false } else x
      slots := if c.parked && !c.unread then k.slots else FMap.put k.slots c.slot { FMap.get k.slots c.slot with bits := idleBits c.tpl b } }
  | .park va acc =>
    let un := Tpl.len c.tpl && r.raw.isNone
    (s.postPark (c.asid.getD 0) va acc core).updCore core fun k => { k with
      copies := k.copies.map fun (x : Copy) => if x.slot = c.slot then
        { x with recd := (r.raw.filter recOk).getD [], parked := true, unread := un } else x
      slots := if un || (c.parked && !c.unread) then k.slots
        else FMap.put k.slots c.slot { FMap.get k.slots c.slot with bits := idleBits c.tpl ((r.raw.filter recOk).getD []) } }
  | .err code lease => s.copyFail core c.slot code st lease
/-- Accept a copy on a slot that is not BUSY (R279): its template stands as it did at the clock's start. -/
def State.acceptCopy (s : State) (core chan : Nat) (word : Word) (gid : Option Nat) : State :=
  let slot := wordSlot word
  let tidx := bitsOf word.toNat 7 0
  let st := s.starter gid
  let t := s.template core tidx
  let (r, s0) := if Tpl.len t then s.getRecord core st (Tpl.recAt t) else (.bad, s)
  let bits := if Tpl.len t && (r.raw.filter recOk).isNone then 0 else idleBits t ((r.raw.filter recOk).getD [])
  let sl : CopySlot := { st := 1, err := 0, tidx := tidx, chan := chan, bits := bits }
  let c : Copy := { slot := slot, chan := chan, tpl := t, launch := st.launch, block := st.block, gang := st.gang, sys := st.sys, asid := st.asid }
  let s1 := s0.updCore core fun k => { k with slots := FMap.put k.slots slot sl, copies := k.copies ++ [c] }
  s1.judged core c st r (s1.copyCheck core st word (FMap.get (s1.core core).tplStart.2 tidx) t r)

/-- The release that a gang's start of a copy is (R279, 13 R239), at device scope. -/
def State.startRelease (s : State) (gid : Option Nat) : State :=
  match gid.bind s.gang? with
  | some g => s.release g.core .device
  | none => s
/-- A 4-byte store to the BTE aperture (R279), by a gang or none, in the local range or through a window (`win`), which gives its copy no
starting gang: held while its slot is BUSY, else accepted. -/
def State.bteStore (s : State) (core chan : Nat) (word : Word) (gid op : Option Nat) (win : Bool) : State :=
  if (FMap.get (s.core core).slots (wordSlot word)).st = 1 then
    s.updCore core fun k => { k with held := k.held ++ [{ chan := chan, word := word, gang := gid, op := op, win := win }] }
  else (s.startRelease gid).acceptCopy core chan word (if win then none else gid)

/-- The held store that a slot's leaving BUSY lets in, the first that names it (R279). -/
def State.acceptHeld (s : State) (core slot : Nat) : State :=
  match (s.core core).held.find? fun (h : HeldStart) => wordSlot h.word == slot with
  | none => s
  | some h =>
    if (FMap.get (s.core core).slots slot).st = 1 then s
    else
      let s1 := s.updCore core fun k => { k with held := k.held.erase h }
      let s2 := match h.gang, h.op with
        | some gid, some op => match s1.gang? gid with
          | some g => s1.updGang gid { g with asyncs := g.asyncs.map fun (o : AsyncOp) => if o.id = op then { o with hold := o.hold - 1 } else o }
          | none => s1
        | _, _ => s1
      (s2.startRelease h.gang).acceptCopy core h.chan h.word (if h.win then none else h.gang)
/-- Held stores of a slot are accepted one after another while the slot is not BUSY; at most `n`. -/
def State.acceptHelds : Nat → State → Nat → Nat → State
  | 0, s, _, _ => s
  | n + 1, s, core, slot =>
    if ((s.core core).held.any fun (h : HeldStart) => wordSlot h.word == slot) && (FMap.get (s.core core).slots slot).st != 1
    then State.acceptHelds n (s.acceptHeld core slot) core slot else s

end Sys2Proof.Machine
end

