-- ==== Sys2Proof/Machine/Access.lean ====
section
/-! DEFINITION. Plain loads and stores wherever they lead (12 R206, R209, R212, 16 R277, 27 R397, 28 R412): DRAM through the
L1 and the store path, the local engine range, core windows, control registers, and the host and peer apertures. -/

namespace Sys2Proof.Machine

/-! ### Stores by physical address -/

/-- Replace the bytes of a word that an access names; (byte number, byte) pairs. -/
def mergeWord (w : Word) (bs : List (Nat × Byte)) : Word := bs.foldl (fun w e => setByte w e.1 e.2) w

/-- Write the bytes an access names in one word of a mirror or of the control range (R209). -/
def State.wordPut (s : State) (pa : Nat) (bs : List (Nat × Byte)) : State :=
  if inWindow pa then
    match placeOf (winOff pa) with
    | .mirror slot k _ =>
      s.mirrorPut (winCore pa) slot k (mergeWord (if k = 65 then 0 else s.mirrorWord (winCore pa) slot k) bs)
    | _ => s
  else
    let off := pa - 0xF000000000000
    s.ctrlPut off (mergeWord (if ctrlPulse off then 0 else s.ctrlWord off) bs)

/-- Bytes of an access grouped by their word. -/
def byWord (cs : List Host.Cell) : List (Nat × List (Nat × Byte)) :=
  ((cs.map fun c => c.1 / 4 * 4).eraseDups).map fun a =>
    (a, (cs.filter fun c => c.1 / 4 * 4 == a).map fun c => (c.1 % 4, c.2))

/-- Aperture bytes of a store go out, one run after another (27 R397, 28 R412). -/
def State.remotePut (s : State) (vi : Nat) (gid op : Option Nat) (va : Nat) (cs : List Host.Cell) : State :=
  (runsOf (cs.filter fun c => c.1 / 2 ^ 48 == 4 || c.1 / 2 ^ 48 == 5)).foldl (fun (s : State) r => s.remoteStore vi r.1 r.2 gid op va) s
/-- Store bytes at physical addresses outside DRAM (R209, R277, 27 R397, 28 R412), for a gang's operation or none, in an interface's context.
A 4-byte store at a multiple of 4 in an aperture starts a copy of the system's (16 R279). -/
def State.physPut (s : State) (vi : Nat) (gid op : Option Nat) (va : Nat) (cs : List Host.Cell) : State :=
  let win := cs.filter fun c => inWindow c.1
  let regs := (win.filter fun c => match placeOf (winOff c.1) with
      | .mirror _ _ _ => true
      | _ => false) ++ cs.filter fun c => inCtrl c.1
  let s1 := win.foldl (fun s c => s.winPut (winCore c.1) (winOff c.1) c.2) s
  let s2 := (runsOf win).foldl (fun (s : State) r => s.winClear (winCore r.1) (winOff r.1) r.2.length) s1
  let s3 := match cs with
    | (pa, _) :: _ => if inWindow pa && cs.length == 4 && pa % 4 == 0 && !s2.coreDark (winCore pa) then
        (match placeOf (winOff pa) with
          | .bte o => s2.bteStore (winCore pa) (o / 0x1000) (BitVec.ofNat 32 (leVal (cs.map fun c => c.2))) gid op true
          | _ => s2)
      else s2
    | [] => s2
  ((byWord regs).foldl (fun (s : State) e => s.wordPut e.1 e.2) s3).remotePut vi gid op va cs

/-! ### The local engine range (16 R277) -/

/-- Offset in the local engine range. -/
def localOff (va : Nat) : Nat := va - 0xFFFFFFFFFE0000

/-- One byte of the range: the template table's, else zero. -/
def State.localByte (s : State) (core va : Nat) : Byte :=
  let o := localOff va
  if 0x10000 ≤ o && o < 0x14000 then FMap.get (s.core core).tpl (o - 0x10000) else 0

/-- Store into the range for a gang (16 R277, R278, R279): a 4-byte store at a multiple of 4 in the aperture starts a copy, bytes in the
template table are stored, and all others are discarded. -/
def State.localPut (s : State) (g : Gang) (gid op : Option Nat) (va : Nat) (bs : List Byte) : State :=
  let o := localOff va
  if o < 0x10000 && bs.length == 4 && o % 4 == 0 then s.bteStore g.core (o / 0x1000) (BitVec.ofNat 32 (leVal bs)) gid op false
  else
    let k := 0x10000 - o
    if (bs.drop k).isEmpty || 0x14000 ≤ o then s
    else s.tplWrite g.core (o - 0x10000) (bs.drop k) { sys := g.priv, asid := some g.asid }

/-- The core and the slot of the copy that a 4-byte store of the gang starts, in the local engine range or through a window (16 R277, R279). -/
def State.startsCopy (s : State) (g : Gang) (va : Nat) (bs : List Byte) : Option (Nat × Nat) :=
  let slot := wordSlot (BitVec.ofNat 32 (leVal bs))
  if bs.length ≠ 4 then none
  else if localRange va then (if localOff va < 0x10000 && localOff va % 4 == 0 then some (g.core, slot) else none)
  else match s.pa? (s.whoGang g) .store va with
    | some pa => if inWindow pa && pa % 4 == 0 && !s.coreDark (winCore pa) then
        (match placeOf (winOff pa) with
          | .bte _ => some (winCore pa, slot)
          | _ => none) else none
    | none => none
/-- A store of the gang would be held, for its slot is BUSY (16 R279). -/
def State.wouldHold (s : State) (g : Gang) (va : Nat) (bs : List Byte) : Bool :=
  match s.startsCopy g va bs with
  | some (core, slot) => (FMap.get (s.core core).slots slot).st == 1
  | none => false

/-! ### Plain accesses of a gang, already checked -/

/-- Bytes of an access outside the local engine range, with their offsets in it: the physical address and the caching of each. -/
def State.paList (s : State) (w : Who) (acc : Acc) (va n : Nat) : List (Nat × Nat × Nat) :=
  ((List.range n).filter fun i => !localRange (va + i)).map fun i => (i, s.paOf w acc ((va + i) % 2 ^ 64))

/-- Load `n` bytes (12 R212, 13 R229, R230): each byte from where it lies. A line of a leaf that is cached in the L1 enters it, unless `na`;
of another leaf it is read in the L2, where its core's own stores to it have arrived, and an older copy of it leaves the L1. -/
def State.loadV (s : State) (g : Gang) (na : Bool) (va n : Nat) : List Byte × State :=
  let w := s.whoGang g
  let s0 := s.installAll w .load va n
  let pas := s0.paList w .load va n
  let dram := pas.filter fun p => decide (p.2.1 < dramEnd)
  let past := (dram.filter fun p => p.2.2 != 0).map fun p => lineOf p.2.1
  let s1 := if past.isEmpty then s0 else (s0.drainLines g.core past.contains).l1Drop g.core past.contains
  let byte := fun i => match pas.find? fun p => p.1 == i with
    | some p => if p.2.1 < dramEnd then s1.loadByte g.core p.2.2 p.2.1 else s1.physByte p.2.1
    | none => s1.localByte g.core (va + i)
  let lines := (dram.filter fun p => p.2.2 == 0).map fun p => lineOf p.2.1
  let s2 := if na then s1 else lines.eraseDups.foldl (fun s l => s.l1Fill g.core l) s1
  let rest := (pas.filter fun p => !decide (p.2.1 < dramEnd)).map (·.2.1)
  let out := rest.filter fun pa => pa / 2 ^ 48 == 4 || pa / 2 ^ 48 == 5
  ((List.range n).map byte,
    (runsOf (out.map fun pa => (pa, (0 : Byte)))).foldl (fun (s : State) r => s.remoteLoad g.vi r.1 r.2.length) (s2.physClear rest))

/-- Store bytes (12 R212, 13 R229): DRAM bytes take their place in the core's store path, one part for each `unit` bytes, which are 64 for
a plain access and 16 for a span (05 R103, 06 R136, 14 R246). -/
def State.storeV (s : State) (g : Gang) (gid op : Option Nat) (unit va : Nat) (bs : List Byte) : State :=
  let w := s.whoGang g
  let s1 := s.installAll w .store va bs.length
  let cells := (s1.paList w .store va bs.length).map fun p => (p.2.1, bs.getD p.1 0)
  let dram := cells.filter fun c => decide (c.1 < dramEnd)
  let parts := (dram.map fun c => c.1 / unit).eraseDups
  let s2 := parts.foldl (fun s k => s.coreStore g.core (dram.filter fun c => c.1 / unit == k)) s1
  let rest := cells.filter fun c => !decide (c.1 < dramEnd)
  let s3 := if rest.isEmpty then s2 else s2.physPut g.vi gid op va rest
  match (List.range bs.length).find? fun i => localRange (va + i) with
  | some i => s3.localPut g gid op (va + i) (bs.drop i)
  | none => s3

end Sys2Proof.Machine
end

