-- ==== Sys2Proof/Machine/Flags.lean ====
section
/-! DEFINITION. Completion flags (01 R21, R22): issuing an operation with or without a flag, and the landing of a flagged one.
The machine has no arithmetic flags. -/

namespace Sys2Proof.Machine

/-- What an operation writes: words keyed 32·register + lane, and the tag of each register it writes in some lane. -/
structure Landing where
  vw   : List (Nat × Word) := []
  tags : List (Nat × Tag) := []
  deriving DecidableEq, Repr

/-- The landing of `n` registers from `r`, whose words a function gives, in the listed lanes, with one tag. -/
def landing (r n : Nat) (t : Tag) (lanes : List Nat) (w : Nat → Nat → Word) : Landing :=
  if lanes.isEmpty then {}
  else { vw := (List.range n).flatMap fun k => lanes.map fun l => (32 * (r + k) + l, w k l)
         tags := (List.range n).map fun k => (r + k, t) }

/-- Write a landing into the registers. -/
def Gang.landAll (g : Gang) (l : Landing) : Gang :=
  l.tags.foldl (fun g t => g.vwrite t.1 t.2
    ((l.vw.filter fun w => w.1 / 32 == t.1).map fun w => (w.1 % 32, w.2))) g

/-- Registers of a landing that were written while their operation was outstanding hold undefined values (01 R21).
Assumption 3: DESIGN CHOICE. -/
def Gang.spoil (g : Gang) (n : Nat) (l : Landing) : Gang :=
  (l.tags.filter fun t => g.clash.contains t.1).foldl (fun (g : Gang) t =>
    let g1 := (List.range 32).foldl (fun g i => g.vput t.1 i (Config.freeWord n (32 * t.1 + i))) g
    if g1.busyV t.1 then g1 else { g1 with clash := g1.clash.filter fun r => r != t.1 }) g

/-- An issue that would take a flag's count above 255 stalls (R22). -/
def Gang.flagStall (g : Gang) (f : Frag) (sel : FlagSel) : Bool := g.flagFull f (f.boundFlag sel)

/-- End of a memory operation (01 R22, 06 R113, 14 R243): without a flag its writes land before the next lane instruction
issues; with one they land when it completes. `hold` counts what it still waits for (held copy starts). -/
def State.opFinish (s : State) (sel : FlagSel) (l : Landing) (wr : List (SReg × FMap Word)) (hold : Nat) : Result :=
  match s.cur with
  | none => .next s
  | some (g, f) =>
    match f.boundFlag sel with
    | none =>
      if hold = 0 then s.finish (g.landAll l) f wr
      else
        let o : AsyncOp := { id := s.nextOp, clause := f.clauseId, slices := f.slices, vw := l.vw, tags := l.tags, wr := wr, hold := hold }
        let s1 := { s with nextOp := s.nextOp + 1 }
        .next (s1.setCur { g with asyncs := g.asyncs ++ [o] } { (f.deferItem o.id).pass with lwait := .op [o.id] })
    | some n =>
      let o : AsyncOp := { id := s.nextOp, clause := f.clauseId, slices := f.slices, flag := some n, vw := l.vw, tags := l.tags, wr := wr, hold := hold }
      let s1 := { s with nextOp := s.nextOp + 1 }
      let g1 := g.raiseFlag f.slices n
      .next (s1.setCur { g1 with asyncs := g1.asyncs ++ [o] } (f.deferItem o.id).pass)

/-- Change the batch of a number (15 R270), the open one when it is the next number. -/
def Gang.onBatch (g : Gang) (n : Byte) (u : Batch → Batch) : Gang :=
  if n = g.nextN then { g with openB := g.openB.map u }
  else { g with batches := g.batches.map fun (b : Batch) => if b.num = n then u b else b }
/-- A flagged operation completes (R22): its writes land, its marks complete, its batch is done with it, and its flag's count falls in every
slice that was in the issuing fragment. -/
def State.opComplete (s : State) (gid op : Nat) : State :=
  match s.gang? gid with
  | none => s
  | some g =>
    match g.asyncs.find? fun o => o.id == op with
    | none => s
    | some o =>
      if o.hold ≠ 0 then s
      else
        let l : Landing := { vw := o.vw, tags := o.tags }
        let g1 := { g with asyncs := g.asyncs.filter fun x => x.id != op }
        let g2 := if g1.desched then g1 else (g1.landAll l).spoil s.clk l
        let g2 := match o.batch with
          | some n => g2.onBatch n fun b => { b with left := b.left - 1 }
          | none => g2
        let g3 := match o.flag with
          | some n => g2.lowerFlag o.slices n
          | none => g2
        s.updGang gid (g3.frags.foldl (fun (g : Gang) x =>
          let (g1, x1) := if x.slices &&& o.slices = 0 then (g, x) else g.opDone x o
          g1.putFrag { x1 with lwait := x1.lwait.without op }) g3)

/-- FLAGGED_OPERATION_COMPLETE for the current gang. -/
def execFlaggedOperationComplete (op : Nat) (s : State) : Result := .next (s.opComplete s.gang op)

end Sys2Proof.Machine
end

