-- ==== Sys2Proof/Machine/ScalarAlu.lean ====
section
/-! DEFINITION. Scalar integer arithmetic, logic and addresses (05 R93 to R96). Each executes once in each slice on that
slice's copies (07 R141), after the pending marks of its registers have cleared (05 R90). -/

namespace Sys2Proof.Machine

/-! ### Shared computations -/

/-- Shift left by a whole register (R93). -/
def shl32 (a n : Word) : Word := if n.toNat < 32 then a <<< n.toNat else 0
/-- Logical shift right by a whole register (R93). -/
def shr32 (a n : Word) : Word := if n.toNat < 32 then a >>> n.toNat else 0
/-- Arithmetic shift right by a whole register (R93). -/
def sra32 (a n : Word) : Word := if n.toNat < 32 then a.sshiftRight n.toNat else if a.msb then 0xFFFFFFFF else 0
/-- Leading zeros among the low `n` bits. -/
def clzFrom (a : Word) : Nat → Nat
  | 0 => 0
  | n + 1 => if a.getLsbD n then 0 else clzFrom a n + 1
/-- Number of leading zero bits; 32 for zero (R93). -/
def clz32 (a : Word) : Word := BitVec.ofNat 32 (clzFrom a 32)
/-- SDIV (R94). -/
def sdiv32 (a b : Word) : Word :=
  if b = 0 then 0xFFFFFFFF else BitVec.ofInt 32 (a.toInt.tdiv b.toInt)
/-- SREM (R94). -/
def srem32 (a b : Word) : Word := if b = 0 then a else BitVec.ofInt 32 (a.toInt.tmod b.toInt)
/-- The low `len` bits set (R95). -/
def lowMask (len : Nat) : Word := BitVec.ofNat 32 (2 ^ len - 1)
/-- Bit-field extract (R95). -/
def bfx (a : Word) (len pos : Nat) : Word := (a >>> pos) &&& lowMask len
/-- Bit-field insert (R95). -/
def bfi (d a : Word) (len pos : Nat) : Word := (d &&& ~~~(lowMask len <<< pos)) ||| ((a &&& lowMask len) <<< pos)
/-- SCMP conditions (R95). -/
def scmpTest (c : SCond) (a b : Word) : Bool :=
  match c with
  | .eq => a == b
  | .ne => a != b
  | .lt => a.slt b
  | .ge => !a.slt b
  | .ltu => a.ult b
  | .geu => !a.ult b

/-- rd := f(ra, rb). -/
def alu2 (d a b : SReg) (f : Word → Word → Word) (s : State) : Result :=
  scalarPure [d, a, b] (fun c => c.set d (f (c.get a) (c.get b))) s
/-- rd := f(ra). -/
def alu1 (d a : SReg) (f : Word → Word) (s : State) : Result :=
  scalarPure [d, a] (fun c => c.set d (f (c.get a))) s

/-! ### Register forms (R93, R94) -/

def execSaddReg (d a b : SReg) (s : State) : Result := alu2 d a b (fun x y => x + y) s
def execSsub (d a b : SReg) (s : State) : Result := alu2 d a b (fun x y => x - y) s
def execSmul (d a b : SReg) (s : State) : Result := alu2 d a b (fun x y => x * y) s
def execSdiv (d a b : SReg) (s : State) : Result := alu2 d a b sdiv32 s
def execSrem (d a b : SReg) (s : State) : Result := alu2 d a b srem32 s
def execSandReg (d a b : SReg) (s : State) : Result := alu2 d a b (fun x y => x &&& y) s
def execSorReg (d a b : SReg) (s : State) : Result := alu2 d a b (fun x y => x ||| y) s
def execSxorReg (d a b : SReg) (s : State) : Result := alu2 d a b (fun x y => x ^^^ y) s
def execSandn (d a b : SReg) (s : State) : Result := alu2 d a b (fun x y => x &&& ~~~y) s
def execSshlReg (d a b : SReg) (s : State) : Result := alu2 d a b shl32 s
def execSshrReg (d a b : SReg) (s : State) : Result := alu2 d a b shr32 s
def execSsraReg (d a b : SReg) (s : State) : Result := alu2 d a b sra32 s
def execSmin (d a b : SReg) (s : State) : Result := alu2 d a b (fun x y => if x.slt y then x else y) s
def execSmax (d a b : SReg) (s : State) : Result := alu2 d a b (fun x y => if x.slt y then y else x) s
def execSclz (d a : SReg) (s : State) : Result := alu1 d a clz32 s
def execSpopc (d a : SReg) (s : State) : Result := alu1 d a (fun x => BitVec.ofNat 32 (popcount x)) s

/-! ### Immediate forms (R93) -/

def execSaddImm (d a : SReg) (i : BitVec 14) (s : State) : Result := alu1 d a (fun x => x + i.signExtend 32) s
def execSandImm (d a : SReg) (i : BitVec 14) (s : State) : Result := alu1 d a (fun x => x &&& i.setWidth 32) s
def execSorImm (d a : SReg) (i : BitVec 14) (s : State) : Result := alu1 d a (fun x => x ||| i.setWidth 32) s
def execSxorImm (d a : SReg) (i : BitVec 14) (s : State) : Result := alu1 d a (fun x => x ^^^ i.setWidth 32) s
def execSshlImm (d a : SReg) (n : BitVec 5) (s : State) : Result := alu1 d a (fun x => x <<< n.toNat) s
def execSshrImm (d a : SReg) (n : BitVec 5) (s : State) : Result := alu1 d a (fun x => x >>> n.toNat) s
def execSsraImm (d a : SReg) (n : BitVec 5) (s : State) : Result := alu1 d a (fun x => x.sshiftRight n.toNat) s

/-! ### Fields, constants, comparison, selection (R95) -/

def execSbfx (d a : SReg) (len1 pos : BitVec 5) (s : State) : Result :=
  alu1 d a (fun x => bfx x (len1.toNat + 1) pos.toNat) s
/-- SBFI reads and writes rd (R95). -/
def execSbfi (d a : SReg) (len1 pos : BitVec 5) (s : State) : Result :=
  scalarPure [d, a] (fun c => c.set d (bfi (c.get d) (c.get a) (len1.toNat + 1) pos.toNat)) s
def execSlui (d : SReg) (i : BitVec 20) (s : State) : Result :=
  scalarPure [d] (fun c => c.set d (i.setWidth 32 <<< 12)) s
def execScmp (c : SCond) (d a b : SReg) (s : State) : Result := alu2 d a b (fun x y => b2w (scmpTest c x y)) s
def execSsel (d a b sel : SReg) (s : State) : Result :=
  scalarPure [d, a, b, sel] (fun c => c.set d (if c.get sel ≠ 0 then c.get a else c.get b)) s

/-! ### 64-bit addresses (R96) -/

def execSaddpReg (d a b : SReg) (s : State) : Result :=
  scalarPure [d, d + 1, a, a + 1, b, b + 1] (fun c => c.setPair d (c.getPair a + c.getPair b)) s
def execSaddpImm (d a : SReg) (i : BitVec 14) (s : State) : Result :=
  scalarPure [d, d + 1, a, a + 1] (fun c => c.setPair d (c.getPair a + i.signExtend 64)) s
/-- SLEA's result is the address of its own word plus the scaled offset (R96); the slices of a fragment share SPC. -/
def execSlea (d : SReg) (i : BitVec 20) (s : State) : Result :=
  withCur s fun _ f => scalarPure [d, d + 1] (fun c => c.setPair d (f.spc + (i.signExtend 64 <<< 2))) s

end Sys2Proof.Machine
end

