-- ==== Sys2Proof/Machine/LaneInt.lean ====
section
/-! DEFINITION. Integer, logic and move lane instructions (06 R116 to R123). -/

namespace Sys2Proof.Machine

/-! ### Shapes -/

/-- Tag check of vector sources against a class (06 R114). -/
def tagsOf (c : Tag) (rs : List Nat) : Gang → Frag → Option Word := fun g _ => tagCheck g c rs

/-- A lane instruction that writes one register in its taking lanes: the result tag and the value of each lane. -/
def laneMap (s : State) (i : Instr) (tags : Gang → Frag → Option Word) (d : VReg) (t : Gang → Tag)
    (v : Gang → Frag → Nat → Word) : Result :=
  laneRun s i tags fun g f =>
    s.finish (g.vwrite d.toNat (t g) ((lanesOf (g.taking f)).map fun l => (l, v g f l))) f []

/-- Two sources, checked against a class, that is the result tag. -/
def laneCls2 (s : State) (i : Instr) (d a : VReg) (b : BSrc) (c : Tag) (op : Word → Word → Word) : Result :=
  laneMap s i (tagsOf c (a.toNat :: bRegs b)) d (fun _ => c) fun g f l => op (g.vget s.clk a.toNat l) (bVal s.clk g f b l)
/-- Two sources without a tag check; the result carries the tag of va. -/
def laneBit2 (s : State) (i : Instr) (d a : VReg) (b : BSrc) (op : Word → Word → Word) : Result :=
  laneMap s i noTags d (fun g => g.srcTag s.clk a.toNat) fun g f l => op (g.vget s.clk a.toNat l) (bVal s.clk g f b l)

/-- An integer operation on every element of two words of a class (R117). -/
def intElems (c : Tag) (op : Int → Int → Int) (nar : Int → Nat) (x y : Word) : Word :=
  packElems c.fcode ((elems c.fcode x).zipWith (fun a b => nar (op (elemInt c.fcode a) (elemInt c.fcode b))) (elems c.fcode y))

/-! ### Arithmetic (R117) -/

def execVadd (d a : VReg) (b : BSrc) (c : Tag) (sat : Bool) (s : State) : Result :=
  laneCls2 s (.vadd d a b c sat) d a b c (intElems c (· + ·) (narrowInt c.fcode sat))
def execVsub (d a : VReg) (b : BSrc) (c : Tag) (sat : Bool) (s : State) : Result :=
  laneCls2 s (.vsub d a b c sat) d a b c (intElems c (· - ·) (narrowInt c.fcode sat))
/-- Low or high half of a product: HI is signed for I32 and unsigned for N32. -/
def mul32 (c : Tag) (hi : Bool) (x y : Word) : Word :=
  if !hi then x * y
  else if c.fcode = 1 then BitVec.ofInt 32 (x.toInt * y.toInt / 2 ^ 32)
  else BitVec.ofNat 32 (x.toNat * y.toNat / 2 ^ 32)
def execVmul (d a : VReg) (b : BSrc) (c : Tag) (hi : Bool) (s : State) : Result :=
  laneCls2 s (.vmul d a b c hi) d a b c (mul32 c hi)
def execVmad (d a : VReg) (b : BSrc) (vc : VReg) (c : Tag) (s : State) : Result :=
  laneMap s (.vmad d a b vc c) (tagsOf c ([a.toNat] ++ bRegs b ++ [vc.toNat])) d (fun _ => c) fun g f l =>
    g.vget s.clk a.toNat l * bVal s.clk g f b l + g.vget s.clk vc.toNat l
def execVmin (d a : VReg) (b : BSrc) (c : Tag) (s : State) : Result :=
  laneCls2 s (.vmin d a b c) d a b c (intElems c min (wrapInt c.fcode))
def execVmax (d a : VReg) (b : BSrc) (c : Tag) (s : State) : Result :=
  laneCls2 s (.vmax d a b c) d a b c (intElems c max (wrapInt c.fcode))
def execVabs (d a : VReg) (c : Tag) (sat : Bool) (s : State) : Result :=
  laneMap s (.vabs d a c sat) (tagsOf c [a.toNat]) d (fun _ => c) fun g _ l =>
    packElems c.fcode ((elems c.fcode (g.vget s.clk a.toNat l)).map fun x =>
      narrowInt c.fcode sat (elemInt c.fcode x).natAbs)

/-! ### Bits (R118, R119) -/

def execVand (d a : VReg) (b : BSrc) (s : State) : Result := laneBit2 s (.vand d a b) d a b fun x y => x &&& y
def execVor (d a : VReg) (b : BSrc) (s : State) : Result := laneBit2 s (.vor d a b) d a b fun x y => x ||| y
def execVxor (d a : VReg) (b : BSrc) (s : State) : Result := laneBit2 s (.vxor d a b) d a b fun x y => x ^^^ y
def execVandn (d a : VReg) (b : BSrc) (s : State) : Result := laneBit2 s (.vandn d a b) d a b fun x y => x &&& ~~~y
def execVshl (d a : VReg) (b : BSrc) (s : State) : Result := laneBit2 s (.vshl d a b) d a b shl32
def execVshr (d a : VReg) (b : BSrc) (s : State) : Result := laneBit2 s (.vshr d a b) d a b shr32
def execVsra (d a : VReg) (b : BSrc) (s : State) : Result := laneBit2 s (.vsra d a b) d a b sra32
def execVclz (d a : VReg) (s : State) : Result :=
  laneMap s (.vclz d a) noTags d (fun _ => Tag.i32) fun g _ l => clz32 (g.vget s.clk a.toNat l)
def execVpopc (d a : VReg) (s : State) : Result :=
  laneMap s (.vpopc d a) noTags d (fun _ => Tag.i32) fun g _ l => BitVec.ofNat 32 (popcount (g.vget s.clk a.toNat l))
/-- VBFX; with SX the field is sign-extended from its top bit. -/
def execVbfx (d a : VReg) (pos len1 : BitVec 5) (sx : Bool) (s : State) : Result :=
  laneMap s (.vbfx d a pos len1 sx) noTags d (fun _ => Tag.i32) fun g _ l =>
    let y := bfx (g.vget s.clk a.toNat l) (len1.toNat + 1) pos.toNat
    if sx then BitVec.ofInt 32 (sextNat (len1.toNat + 1) y.toNat) else y
def execVbfi (d a : VReg) (pos len1 : BitVec 5) (s : State) : Result :=
  laneMap s (.vbfi d a pos len1) noTags d (fun g => g.srcTag s.clk d.toNat) fun g _ l =>
    bfi (g.vget s.clk d.toNat l) (g.vget s.clk a.toNat l) (len1.toNat + 1) pos.toNat
/-- A byte of VPRMB's pool of eight (R119). -/
def poolByte (x y : Word) (sel : Nat) : Byte :=
  if 8 ≤ sel then 0 else if sel < 4 then byteOf x sel else byteOf y (sel - 4)
def prmb (x b y : Word) : Word :=
  poolByte x y (bitsOf b.toNat 15 12) ++ poolByte x y (bitsOf b.toNat 11 8) ++ poolByte x y (bitsOf b.toNat 7 4) ++
    poolByte x y (bitsOf b.toNat 3 0)
def execVprmb (d a : VReg) (b : BSrc) (vc : VReg) (s : State) : Result :=
  laneMap s (.vprmb d a b vc) noTags d (fun _ => Tag.raw) fun g f l =>
    prmb (g.vget s.clk a.toNat l) (bVal s.clk g f b l) (g.vget s.clk vc.toNat l)

/-! ### Comparison, selection, moves (R120 to R123) -/

/-- A VCMP condition: signed for I32, unsigned for N32, IEEE 754 for F32 (R120). -/
def vcmpTest (c : Tag) (k : VCond) (x y : Word) : Bool :=
  let (lt, eq, gt) :=
    if c.fcode = 3 then ((f32v x).lt (f32v y), (f32v x).eq (f32v y), (f32v y).lt (f32v x))
    else if c.fcode = 1 then (x.slt y, x == y, y.slt x)
    else (x.ult y, x == y, y.ult x)
  match k with
  | .eq => eq
  | .ne => !eq
  | .lt => lt
  | .ge => gt || eq
  | .gt => gt
  | .le => lt || eq

/-- Bits of a mask written by lanes: (lane, bit) pairs. -/
def maskBits (m : Word) (l : List (Nat × Bool)) : Word := l.foldl (fun m e => putBit m e.1 e.2) m

/-- VCMP into a vector register or into the taking lanes' bits of xm or hm (R120). -/
def execVcmp (dst : CmpDst) (a : VReg) (b : BSrc) (c : Tag) (k : VCond) (s : State) : Result :=
  laneRun s (.vcmp dst a b c k) (tagsOf c (a.toNat :: bRegs b)) fun g f =>
    let r := (lanesOf (g.taking f)).map fun l => (l, vcmpTest c k (g.vget s.clk a.toNat l) (bVal s.clk g f b l))
    let mask := fun (m : MaskName) =>
      let v := maskBits (g.mask m) r
      let (s1, f1) := s.traceMask g f true m (g.mask m) v
      s1.finish (g.setMask m v) f1 []
    match dst with
    | .vec d => s.finish (g.vwrite d.toNat Tag.i32 (r.map fun e => (e.1, if e.2 then 0xFFFFFFFF#32 else 0))) f []
    | .xm => mask .xm
    | .hm => mask .hm

def execVsel (d a : VReg) (b : BSrc) (vc : VReg) (s : State) : Result :=
  laneMap s (.vsel d a b vc) noTags d (fun g => g.srcTag s.clk a.toNat) fun g f l =>
    if g.vget s.clk vc.toNat l ≠ 0 then g.vget s.clk a.toNat l else bVal s.clk g f b l
def execVmov (d a : VReg) (s : State) : Result :=
  laneMap s (.vmov d a) noTags d (fun g => g.srcTag s.clk a.toNat) fun g _ l => g.vget s.clk a.toNat l

/-- Lanes that exist in a fragment (01 R14, 06 R121). -/
def Frag.hasLane (f : Frag) (l : Nat) : Bool := f.slices.getLsbD (l / 8)

/-- A scalar result of a lane instruction that completes as it issues: written to every slice copy when a lane takes part,
else not at all (06 R110). -/
def State.finishScalar (s : State) (g : Gang) (f : Frag) (d : SReg) (v : Word) : Result :=
  s.finish g f (if g.taking f = 0 then [] else [(d, f.all v)])

/-- VMOV.tos writes lane `n` once if any lane takes part; a lane outside the fragment reads 0 (R121). -/
def execVmovTos (d : SReg) (a : VReg) (lane : BitVec 5) (s : State) : Result :=
  laneRun s (.vmovTos d a lane) noTags fun g f =>
    s.finishScalar g f d (if f.hasLane lane.toNat then g.vget s.clk a.toNat lane.toNat else 0)

def execVbcs (d : VReg) (a : SReg) (code : BitVec 5) (s : State) : Result :=
  laneMap s (.vbcs d a code) noTags d (fun _ => Tag.ofCode code) fun _ f l => f.captured (l / 8) a
def execVli (d : VReg) (i : BitVec 26) (code : BitVec 5) (hi : Bool) (s : State) : Result :=
  laneMap s (.vli d i code hi) noTags d (fun _ => Tag.ofCode code) fun _ _ _ =>
    if hi then i.setWidth 32 <<< 6 else i.signExtend 32

/-- Special values (R123, 07 R138, 24 R371). -/
def specialVal (s : State) (g : Gang) (sel : Special) (l : Nat) : Word :=
  let b := (s.block? g.block).getD {}
  let k := (s.launch? g.launch).getD {}
  BitVec.ofNat 32 (match sel with
    | .lane => l
    | .quad => l / 4
    | .slice => l / 8
    | .gang => g.idx
    | .blkx => b.idx % k.nx
    | .blky => b.idx / k.nx % k.ny
    | .blkz => b.idx / (k.nx * k.ny)
    | .nblkx => k.nx
    | .nblky => k.ny
    | .nblkz => k.nz
    | .core => g.core
    | .cluster => clusterOf g.core
    | .layer => layerOf g.core)
def execVspc (d : VReg) (sel : Special) (s : State) : Result :=
  laneMap s (.vspc d sel) noTags d (fun _ => Tag.i32) fun g _ l => specialVal s g sel l

/-- A reserved-as-NOP opcode issues with no effect (03 R68). -/
def execLaneReservedNop (_ : BitVec 4) (_ : BitVec 86) (s : State) : Result := withCur s fun g f => s.finish g f []

end Sys2Proof.Machine
end

