-- ==== Sys2Proof/Machine/LaneFloat.lean ====
section
/-! DEFINITION. Floating lane instructions (06 R124 to R126) and the packed and dot-product instructions (06 R127, R128). -/

namespace Sys2Proof.Machine

/-! ### Element-wise operations (R125, 02 R55) -/

/-- Round a value to an element of a class, SAT clear. -/
def encElem (c : Nat) (r : Round) (v : Val) : Nat :=
  match fmtOf c with
  | some f => f.encode r false 0 v
  | none => 0
/-- One operand. -/
def float1 (c : Nat) (r : Round) (op : Val → Val) (x : Word) : Word :=
  packElems c ((elems c x).map fun a => encElem c r (op (elemVal c a)))
/-- Two operands. -/
def float2 (c : Nat) (r : Round) (op : Val → Val → Val) (x y : Word) : Word :=
  packElems c ((elems c x).zipWith (fun a b => encElem c r (op (elemVal c a) (elemVal c b))) (elems c y))
/-- Three operands. -/
def float3 (c : Nat) (r : Round) (op : Val → Val → Val → Val) (x y z : Word) : Word :=
  packElems c ((List.range (elemsPerWord c)).map fun j =>
    encElem c r (op (elemVal c (elem c x j)) (elemVal c (elem c y j)) (elemVal c (elem c z j))))

/-- A floating instruction of three vector sources. -/
def laneCls3 (s : State) (i : Instr) (d a : VReg) (b : BSrc) (vc : VReg) (c : Tag) (op : Word → Word → Word → Word) :
    Result :=
  laneMap s i (tagsOf c ([a.toNat] ++ bRegs b ++ [vc.toNat])) d (fun _ => c) fun g f l =>
    op (g.vget s.clk a.toNat l) (bVal s.clk g f b l) (g.vget s.clk vc.toNat l)
/-- A floating instruction of one vector source. -/
def laneCls1 (s : State) (i : Instr) (d a : VReg) (c t : Tag) (op : Word → Word) : Result :=
  laneMap s i (tagsOf c [a.toNat]) d (fun _ => t) fun g _ l => op (g.vget s.clk a.toNat l)

def execFadd (d a : VReg) (b : BSrc) (c : Tag) (r : Round) (s : State) : Result :=
  laneCls2 s (.fadd d a b c r) d a b c (float2 c.fcode r (Val.add r))
def execFsub (d a : VReg) (b : BSrc) (c : Tag) (r : Round) (s : State) : Result :=
  laneCls2 s (.fsub d a b c r) d a b c (float2 c.fcode r fun x y => Val.add r x y.neg)
def execFmul (d a : VReg) (b : BSrc) (c : Tag) (r : Round) (s : State) : Result :=
  laneCls2 s (.fmul d a b c r) d a b c (float2 c.fcode r Val.mul)
def execFfma (d a : VReg) (b : BSrc) (vc : VReg) (c : Tag) (r : Round) (s : State) : Result :=
  laneCls3 s (.ffma d a b vc c r) d a b vc c (float3 c.fcode r fun x y z => Val.add r (x.mul y) z)
def execFmin (d a : VReg) (b : BSrc) (c : Tag) (s : State) : Result :=
  laneCls2 s (.fmin d a b c) d a b c (float2 c.fcode .rne (Val.minmax false))
def execFmax (d a : VReg) (b : BSrc) (c : Tag) (s : State) : Result :=
  laneCls2 s (.fmax d a b c) d a b c (float2 c.fcode .rne (Val.minmax true))
def execFrnd (d a : VReg) (c : Tag) (r : Round) (s : State) : Result :=
  laneCls1 s (.frnd d a c r) d a c c (float1 c.fcode r (Val.toIntegral r 0))

/-- Class number of an element (R125). -/
def classOf (f : Fmt) (x : Nat) : Nat :=
  let neg := x / 2 ^ (f.e + f.m) % 2 == 1
  match f.decode x with
  | .nan => 8
  | .inf n => if n then 0 else 7
  | .fin _ m _ =>
    if m = 0 then (if neg then 3 else 4)
    else if x / 2 ^ f.m % 2 ^ f.e = 0 then (if neg then 2 else 5) else (if neg then 1 else 6)
def execFcls (d a : VReg) (c : Tag) (s : State) : Result :=
  laneCls1 s (.fcls d a c) d a c Tag.i32 fun x =>
    match fmtOf c.fcode with
    | some f => 1#32 <<< classOf f (elem c.fcode x 0)
    | none => 0
def execFsqrt (d a : VReg) (r : Round) (s : State) : Result :=
  laneCls1 s (.fsqrt d a r) d a Tag.f32 Tag.f32 (float1 3 r Val.sqrt)
def execFrcp (d a : VReg) (s : State) : Result := laneCls1 s (.frcp d a) d a Tag.f32 Tag.f32 frcpVal
def execFrsq (d a : VReg) (s : State) : Result := laneCls1 s (.frsq d a) d a Tag.f32 Tag.f32 frsqVal
def execFex2 (d a : VReg) (s : State) : Result := laneCls1 s (.fex2 d a) d a Tag.f32 Tag.f32 fex2Val
def execFlg2 (d a : VReg) (s : State) : Result := laneCls1 s (.flg2 d a) d a Tag.f32 Tag.f32 flg2Val
def execFsin (d a : VReg) (s : State) : Result := laneCls1 s (.fsin d a) d a Tag.f32 Tag.f32 fsinVal
def execFcos (d a : VReg) (s : State) : Result := laneCls1 s (.fcos d a) d a Tag.f32 Tag.f32 fcosVal

/-! ### Packed (R127) -/

/-- Negate a value when NEG is set; the negation is exact. -/
def Val.negIf (n : Bool) (v : Val) : Val := if n then v.neg else v

def execPadd (d a : VReg) (b : BSrc) (c : Tag) (neg : Bool) (r : Round) (s : State) : Result :=
  laneCls2 s (.padd d a b c neg r) d a b c (float2 c.fcode r fun x y => Val.add r x (y.negIf neg))
def execPmul (d a : VReg) (b : BSrc) (c : Tag) (r : Round) (s : State) : Result :=
  laneCls2 s (.pmul d a b c r) d a b c (float2 c.fcode r Val.mul)
def execPfma (d a : VReg) (b : BSrc) (vc : VReg) (c : Tag) (neg : Bool) (r : Round) (s : State) : Result :=
  laneCls3 s (.pfma d a b vc c neg r) d a b vc c (float3 c.fcode r fun x y z => Val.add r ((x.mul y).negIf neg) z)
def execPmin (d a : VReg) (b : BSrc) (c : Tag) (s : State) : Result :=
  laneCls2 s (.pmin d a b c) d a b c (float2 c.fcode .rne (Val.minmax false))
def execPmax (d a : VReg) (b : BSrc) (c : Tag) (s : State) : Result :=
  laneCls2 s (.pmax d a b c) d a b c (float2 c.fcode .rne (Val.minmax true))

/-! ### Dot products (R128) -/

/-- Exact sum of a list of values; an exactly zero sum of several terms takes R128's sign. -/
def sumVals (r : Round) (vs : List Val) : Val :=
  if vs.any Val.isNan then .nan
  else
    let infs := vs.filterMap fun v => match v with
      | .inf n => some n
      | _ => none
    if infs.contains true && infs.contains false then .nan
    else match infs with
      | n :: _ => .inf n
      | [] =>
        let e0 := vs.foldl (fun e v => match v with
          | .fin _ _ x => min e x
          | _ => e) 0
        let i := vs.foldl (fun a v => match v with
          | .fin n m e => a + finInt n m e e0
          | _ => a) 0
        if i = 0 then
          .fin (if r = .rdn then !(vs.all fun v => v.isZero && !v.sign) else vs.all fun v => v.isZero && v.sign) 0 e0
        else ofInt i e0

/-- PDOT2 of three words. -/
def pdot2 (c : Nat) (r : Round) (x y z : Word) : Word :=
  toF32 r (sumVals r [(elemVal c (elem c x 0)).mul (elemVal c (elem c y 0)),
    (elemVal c (elem c x 1)).mul (elemVal c (elem c y 1)), f32v z])
def execPdot2 (d a : VReg) (b : BSrc) (vc : VReg) (c : Tag) (r : Round) (s : State) : Result :=
  laneMap s (.pdot2 d a b vc c r)
    (fun g _ => (tagCheck g c (a.toNat :: bRegs b)).or (tagCheck g Tag.f32 [vc.toNat])) d (fun _ => Tag.f32) fun g f l =>
    pdot2 c.fcode r (g.vget s.clk a.toNat l) (bVal s.clk g f b l) (g.vget s.clk vc.toNat l)

/-- IDOT4 of three words. -/
def idot4 (c : Nat) (sat bu : Bool) (x y z : Word) : Word :=
  let cb := if bu then 13 else 12
  BitVec.ofNat 32 (narrowInt 1 sat ((((elems c x).zipWith (fun a b => elemInt c a * elemInt cb b) (elems cb y)).foldl
    (· + ·) 0) + z.toInt))
def execIdot4 (d a : VReg) (b : BSrc) (vc : VReg) (c : Tag) (sat bu : Bool) (s : State) : Result :=
  laneMap s (.idot4 d a b vc c sat bu)
    (fun g _ => (tagCheck g c [a.toNat]).or (tagCheck g (if bu then Tag.n8x4 else Tag.i8x4) (bRegs b))) d
    (fun _ => Tag.i32) fun g f l =>
    idot4 c.fcode sat bu (g.vget s.clk a.toNat l) (bVal s.clk g f b l) (g.vget s.clk vc.toNat l)

end Sys2Proof.Machine
end

