-- ==== Sys2Proof/Machine/LaneConvert.lean ====
section
/-! DEFINITION. Conversions and tags (06 R129 to R133). -/

namespace Sys2Proof.Machine

/-! ### Conversions -/

/-- Cut a list into `n` parts of `k`. -/
def chunks {α : Type} (k : Nat) : Nat → List α → List (List α)
  | 0, _ => []
  | n + 1, l => l.take k :: chunks k n (l.drop k)

/-- Elements to destination words, with the generator's next state (R130, 02 R45). -/
def convWords (src dst : Nat) (r : Round) (sat : Bool) (nd : Nat) (es : List Nat) (st : Word) : List Word × Word :=
  let (ys, st') := convMany src dst r sat es st
  ((chunks (elemsPerWord dst) nd ys).map (packElems dst), st')

/-- A conversion of a span of source registers to a span of destination registers, lane by lane, all sources read before any
write (R130, R131). -/
def convLanes (g : Gang) (f : Frag) (d nd : Nat) (t : Tag) (conv : Nat → Word → List Word × Word) : Gang :=
  let rs := (lanesOf (g.taking f)).map fun l => (l, conv l (FMap.get g.rng l))
  let g1 := (List.range nd).foldl (fun (g : Gang) k =>
    g.vwrite (d + k) t (rs.map fun e => (e.1, e.2.1.getD k 0))) g
  { g1 with rng := rs.foldl (fun m e => FMap.put m e.1 e.2.2) g1.rng }

/-- CVT (R130). -/
def execCvt (d a : VReg) (c : Tag) (dst : BitVec 5) (sat : Bool) (r : Round) (s : State) : Result :=
  let (ns, nd) := cvtSpans c.fcode dst.toNat
  laneRun s (.cvt d a c dst sat r) (tagsOf c (span a ns)) fun g f =>
    s.finish (convLanes g f d.toNat nd (BitVec.ofNat 7 (dst.toNat + 32 * c.rot)) fun l st =>
      convWords c.fcode dst.toNat r sat nd
        ((span a ns).flatMap fun k => elems c.fcode (g.vget s.clk k l)) st) f []

/-- CVTH (R131, 02 R50). -/
def execCvth (d a : VReg) (dst : BitVec 5) (sat h32 : Bool) (r : Round) (s : State) : Result :=
  let n := if h32 then 32 else 16
  let nd := n / elemsPerWord dst.toNat
  laneRun s (.cvth d a dst sat h32 r) (tagsOf Tag.f32 (span a n)) fun g f =>
    s.finish (convLanes g f d.toNat nd (BitVec.ofNat 7 (dst.toNat + (if h32 then 64 else 32))) fun l st =>
      convWords 3 dst.toNat r sat nd ((hadamard ((span a n).map fun k => g.vget s.clk k l)).map BitVec.toNat) st) f []

/-- The bits of a word that a code's elements fill (02 R34). -/
def elemBits (c : Nat) : Word := if c = 4 then 0xFFFFE000 else BitVec.ofNat 32 (2 ^ (elemsPerWord c * elemWidth c) - 1)
/-- A word with one element replaced (R132): the other elements stay, and the bits that no element fills are written zero (02 R34). -/
def putElem (c : Nat) (w : Word) (j x : Nat) : Word :=
  let n := if c = 4 then 19 else elemWidth c
  let at_ := if c = 4 then 13 else n * j
  let m : Word := BitVec.ofNat 32 (2 ^ n - 1) <<< at_
  ((w &&& ~~~m) ||| (BitVec.ofNat 32 (x % 2 ^ n) <<< at_)) &&& elemBits c

/-- Tag check of CVTP's destination: the code with rotation none, or RAW (R132). -/
def cvtpDst (g : Gang) (d : VReg) (dst : BitVec 5) : Option Word :=
  let t := g.tagOf d.toNat
  if t = Tag.ofCode dst || t = Tag.raw || g.busyV d.toNat then none else some (fmtTval 0 d.toNat t (Tag.ofCode dst))
/-- CVTP (R132). -/
def execCvtp (d a : VReg) (c : Tag) (dst : BitVec 5) (sat : Bool) (slot : BitVec 4) (r : Round) (s : State) : Result :=
  laneRun s (.cvtp d a c dst sat slot r) (fun g _ => (tagCheck g c [a.toNat]).or (cvtpDst g d dst)) fun g f =>
    s.finish (convLanes g f d.toNat 1 (Tag.ofCode dst) fun l st =>
      let (ys, st') := convMany c.fcode dst.toNat r sat [elem c.fcode (g.vget s.clk a.toNat l) 0] st
      ([putElem dst.toNat (g.vget s.clk d.toNat l) slot.toNat (ys.headD 0)], st')) f []

/-! ### Tags (R133) -/

/-- The slice whose scalar copies an instruction that acts once reads: the lowest with a taking lane (14 R243). -/
def Gang.actSlice (g : Gang) (f : Frag) : Nat :=
  (f.sliceList.find? fun sl => g.taking f &&& sliceMask (putBit 0 sl true) != 0).getD (lowSlice f.slices)

/-- The tag a TAGW writes. -/
def tagwTag (g : Gang) (f : Frag) : TagSrc → Tag
  | .imm t => t
  | .scal r => (f.captured (g.actSlice f) r).setWidth 7
/-- Class number and register number of a tag instruction's register (R336). -/
def TagReg.num : TagReg → Nat × Nat
  | .v r => (0, r.toNat)
  | .a r => (1, r.toNat)
  | .t r => (2, r.toNat)
/-- The name of a register among those outstanding work names (01 R21). -/
def TagReg.key : TagReg → Nat
  | .v r => r.toNat
  | .a r => 256 + r.toNat
  | .t r => 512 + r.toNat
/-- A tag the register can carry (02 R35). -/
def TagReg.takes (r : TagReg) (t : Tag) : Bool :=
  match r with
  | .v _ => vecTagOk t
  | .a _ => accTagOk t
  | .t _ => tileTagOk t
/-- The format fault of a tag that breaks R35. -/
def tagwCheck (t : TagReg) (src : TagSrc) : Gang → Frag → Option Word := fun g f =>
  let x := tagwTag g f src
  if TagReg.takes t x then none
  else
    let (cls, n) := match src with
      | .imm _ => TagReg.num t
      | .scal r => (3, r.toNat)
    some (BitVec.ofNat 32 (n + 256 * cls + 1024 + 2 ^ 16 * x.toNat))
/-- TAGW writes the tag when a lane takes part; a tile's tag is the block's. -/
def execTagw (t : TagReg) (src : TagSrc) (s : State) : Result :=
  laneRun s (.tagw t src) (tagwCheck t src) fun g f =>
    if g.taking f = 0 then s.finish g f []
    else
      let x := tagwTag g f src
      let g0 := if g.busyV (TagReg.key t) then { g with clash := TagReg.key t :: g.clash.erase (TagReg.key t) } else g
      match t with
      | .v r => s.finish ((g0.setTag r.toNat x).unlatch r.toNat) f []
      | .a r => s.finish (g0.setAtag r.toNat x) f []
      | .t r =>
        let s2 := match s.block? g.block with
          | some b => (s.tileTouched g.block (some s.gang) false r.toNat [2 ^ 18 + r.toNat]).setBlock g.block { b with
              ttag := FMap.put b.ttag r.toNat x, bad := FMap.put b.bad (32768 + r.toNat) false }
          | none => s
        withCur s2 fun g2 f2 => s2.finish g2 f2 []
/-- The tag a TAGR reads; of a register that outstanding work names it is a free value (R133, 01 R21). -/
def State.tagRead (s : State) (g : Gang) (t : TagReg) : Tag :=
  if g.busyV (TagReg.key t) then (Config.freeWord s.clk (TagReg.key t)).setWidth 7
  else match t with
    | .v r => g.tagOf r.toNat
    | .a r => g.atagOf r.toNat
    | .t r => match s.block? g.block with
      | some b => FMap.get b.ttag r.toNat
      | none => 0
def execTagr (d : SReg) (t : TagReg) (s : State) : Result :=
  laneRun s (.tagr d t) noTags fun g f => s.finishScalar g f d ((s.tagRead g t).setWidth 32)

end Sys2Proof.Machine
end

