-- ==== Sys2Proof/Machine/LaneMem.lean ====
section
/-! DEFINITION. Memory accesses of lanes: plain (06 R134 to R137), wide (14 R245, R246) and scratchpad (14 R247). -/

namespace Sys2Proof.Machine

/-! ### Lanes and addresses -/

/-- Lanes that make a store, atomic or message access: the taking lanes that are no helpers (07 R146). -/
def Gang.storing (g : Gang) (f : Frag) : Word := g.taking f &&& ~~~g.helpers

/-- Global addresses of lanes (06 R135, 14 R244). -/
def globAddrs (n : Nat) (g : Gang) (f : Frag) (ls : Word) (base : SReg) (off : VReg) (u : Bool) (scale : Nat)
    (disp : BitVec 26) : List (Nat × Nat) :=
  (lanesOf ls).map fun l =>
    (l, globAddr (f.capturedPair (l / 8) base) (laneOff u scale (g.vget n off.toNat l)) disp)
/-- Scratchpad offsets of lanes (14 R244). -/
def spAddrs (n : Nat) (g : Gang) (f : Frag) (ls : Word) (base : SReg) (off : VReg) (u : Bool) (scale : Nat)
    (disp : Dword) : List (Nat × Nat) :=
  (lanesOf ls).map fun l => (l, spAddr (f.captured (l / 8) base) (laneOff u scale (g.vget n off.toNat l)) disp)

/-- Held copy starts and remote stores that an operation waits for (16 R279, 27 R397, 28 R412). -/
def State.opHolds (s : State) (gid op : Nat) : Nat :=
  (s.cores.flatMap fun e => e.2.held.filter fun (h : HeldStart) => h.gang == some gid && h.op == some op).length +
    (s.remote.filter fun (r : RemoteStore) => r.gang == some gid && r.op == some op).length

/-- Load the bytes of every lane, in ascending lane order. -/
def loadLanes (s : State) (g : Gang) (na : Bool) (n : Nat) (l : List (Nat × Nat)) : List (Nat × List Byte) × State :=
  l.foldl (fun acc e =>
    let (bs, s') := acc.2.loadV g na e.2 n
    (acc.1 ++ [(e.1, bs)], s')) ([], s)
/-- Store the bytes of every lane in ascending lane order, so that the higher lane's byte stands (06 R136). -/
def storeLanes (s : State) (g : Gang) (unit : Nat) (l : List (Nat × Nat)) (bs : Nat → List Byte) : State :=
  l.foldl (fun s' e => s'.storeV g (some s.gang) (some s.nextOp) unit e.2 (bs e.1)) s

/-- Bytes of a lane's value as the word of destination register `k`: a byte or half is extended (06 R135). -/
def loadWord (sz : Size) (sx : Bool) (bs : List Byte) (k : Nat) : Word :=
  match sz with
  | .byte => if sx then BitVec.ofInt 32 (sextNat 8 (leVal bs)) else BitVec.ofNat 32 (leVal bs)
  | .half => if sx then BitVec.ofInt 32 (sextNat 16 (leVal bs)) else BitVec.ofNat 32 (leVal bs)
  | _ => BitVec.ofNat 32 (field bs (4 * k) 4)
/-- Bytes of a list of lanes' values. -/
def bytesOf (l : List (Nat × List Byte)) (lane : Nat) : List Byte :=
  match l.find? fun e => e.1 == lane with
  | some e => e.2
  | none => []
/-- A word that a lane loads: from its access's bytes, or undefined where the lane's undefined address made none (01 R21). Assumption 3:
DESIGN CHOICE. -/
def gotWord (clk : Nat) (got : List (Nat × List Byte)) (w : List Byte → Nat → Word) (d r lane : Nat) : Word :=
  match got.find? fun e => e.1 == lane with
  | some e => w e.2 r
  | none => Config.freeWord clk (0x10000 + 32 * (d + r) + lane)
/-- Bytes a lane stores from consecutive registers. -/
def regBytes (n : Nat) (g : Gang) (a : VReg) (size lane : Nat) : List Byte :=
  ((List.range ((size + 3) / 4)).flatMap fun k => leOf 4 (g.vget n (a.toNat + k) lane).toNat).take size

/-! ### VLD, VST, VLDX, VSTX -/

/-- A load of `n` bytes a lane into `k` registers (06 R135, 14 R245). It reads at issue, so that of an SST that executes before the load has
completed it returns the old bytes in every part, one of the outcomes of 05 R104; a lane store is visible to the gang's own SLD from its
issue on. Assumption 84: DESIGN CHOICE. -/
def globLoad (s : State) (i : Instr) (d : VReg) (base : SReg) (off : VReg) (u na : Bool) (scale : Nat) (disp : BitVec 26)
    (c : Tag) (flag : FlagSel) (n k : Nat) (w : List Byte → Nat → Word) : Result :=
  laneRun s i noTags fun g f =>
    if g.flagStall f flag then .next s
    else
      let c' := fun va => s.chk (s.whoGang g) .load va n
      let l := g.definite off.toNat c' (s.loadBad g n) (globAddrs s.clk g f (g.taking f) base off u scale disp)
      checkedBy c' (s.loadBad g n) s g f true .load l <|
        let (bs, s1) := loadLanes s g na n l
        s1.opFinish flag (landing d.toNat k c (lanesOf (g.taking f)) fun r lane => gotWord s.clk bs w d.toNat r lane) [] 0
/-- A store of `n` bytes a lane from consecutive registers, in parts of `unit` bytes (06 R136, 14 R246). -/
def globStore (s : State) (i : Instr) (a : VReg) (base : SReg) (off : VReg) (u : Bool) (scale : Nat) (disp : BitVec 26)
    (flag : FlagSel) (unit n : Nat) : Result :=
  laneRun s i noTags fun g f =>
    if g.flagStall f flag then .next s
    else
      let c := fun va => s.chk (s.whoGang g) .store va n
      let l := g.definite off.toNat c noBad (globAddrs s.clk g f (g.storing f) base off u scale disp)
      checkedBy c noBad s g f true .store l <|
        let s1 := storeLanes s g unit l (regBytes s.clk g a n)
        s1.opFinish flag {} [] (s1.opHolds s.gang s.nextOp)

def execVld (d : VReg) (base : SReg) (off : VReg) (sz : Size) (sx : Bool) (scale : BitVec 2) (u : Bool)
    (disp : BitVec 26) (c : Tag) (flag : FlagSel) (s : State) : Result :=
  globLoad s (.vld d base off sz sx scale u disp c flag) d base off u false scale.toNat disp c flag sz.bytes sz.regs
    (loadWord sz sx)
def execVst (a : VReg) (base : SReg) (off : VReg) (sz : Size) (scale : BitVec 2) (u : Bool) (disp : BitVec 26)
    (flag : FlagSel) (s : State) : Result :=
  globStore s (.vst a base off sz scale u disp flag) a base off u scale.toNat disp flag 64 sz.bytes
def execVldx (d : VReg) (base : SReg) (off : VReg) (cnt : Span) (scale : BitVec 3) (u na : Bool) (disp : BitVec 26)
    (c : Tag) (flag : FlagSel) (s : State) : Result :=
  globLoad s (.vldx d base off cnt scale u na disp c flag) d base off u na scale.toNat disp c flag (4 * cnt.count)
    cnt.count (loadWord .word false)
def execVstx (a : VReg) (base : SReg) (off : VReg) (cnt : Span) (scale : BitVec 3) (u : Bool) (disp : BitVec 26)
    (flag : FlagSel) (s : State) : Result :=
  globStore s (.vstx a base off cnt scale u disp flag) a base off u scale.toNat disp flag 16 (4 * cnt.count)

/-! ### SPLD and SPST (14 R247) -/

/-- Check of a scratchpad access of `n` bytes within an allocation (12 R210). -/
def spChk (b : Option Block) (n o : Nat) : Chk :=
  match b with
  | none => .bad 8 o
  | some x => if o + n ≤ x.scratch then .ok else .bad 6 o
/-- The block a scratchpad access reaches (12 R211). -/
def State.spTarget (s : State) (g : Gang) (rem : Option (BitVec 3)) : Option Block :=
  match rem with
  | none => s.block? g.block
  | some p => s.reachBlock g p.toNat

def execSpld (d : VReg) (base : SReg) (off : VReg) (sz : Size) (sx : Bool) (scale : BitVec 2) (u : Bool)
    (rem : Option (BitVec 3)) (disp : BitVec 19) (c : Tag) (flag : FlagSel) (s : State) : Result :=
  laneRun s (.spld d base off sz sx scale u rem disp c flag) noTags fun g f =>
    if g.flagStall f flag then .next s
    else
      let b := s.spTarget g rem
      let l := g.definite off.toNat (spChk b sz.bytes) (s.spBad b sz.bytes)
        (spAddrs s.clk g f (g.taking f) base off u scale.toNat (disp.signExtend 64))
      checkedBy (spChk b sz.bytes) (s.spBad b sz.bytes) s g f true .load l <|
        let bs := l.map fun e => (e.1, s.spRead (b.getD {}) e.2 sz.bytes)
        s.opFinish flag (landing d.toNat sz.regs c (lanesOf (g.taking f)) fun r lane =>
          gotWord s.clk bs (loadWord sz sx) d.toNat r lane) [] 0
/-- Only MSEND writes another core's scratchpad (12 R211). -/
def execSpst (a : VReg) (base : SReg) (off : VReg) (sz : Size) (scale : BitVec 2) (u : Bool) (rem : Option (BitVec 3))
    (disp : BitVec 19) (flag : FlagSel) (s : State) : Result :=
  laneRun s (.spst a base off sz scale u rem disp flag) noTags fun g f =>
    if g.flagStall f flag then .next s
    else
      let b := match rem with
        | some p => if p.toNat = posOf g.core then s.block? g.block else none
        | none => s.block? g.block
      let l := g.definite off.toNat (spChk b sz.bytes) noBad
        (spAddrs s.clk g f (g.storing f) base off u scale.toNat (disp.signExtend 64))
      checkedBy (spChk b sz.bytes) noBad s g f true .store l <|
        let s1 := l.foldl (fun (s' : State) e => s'.spWrite (b.getD {}) e.2 (regBytes s.clk g a sz.bytes e.1)) s
        s1.opFinish flag {} [] 0

end Sys2Proof.Machine
end

