-- ==== Sys2Proof/Machine/MemHier.lean ====
section
/-! DEFINITION. Atomics, fences, waiting on memory, scratchpad messages, hints and cache maintenance (14 R248 to R258). -/

namespace Sys2Proof.Machine

/-! ### Atomics (R248 to R250) -/

/-- The new memory value of an operation on operands of `w` bits (R248). -/
def atomNew (op : AtomOp) (w m d n : Nat) : Nat :=
  let sgn := fun x => sextNat w x
  match op with
  | .add => (m + d) % 2 ^ w
  | .and => m &&& d
  | .or => m ||| d
  | .xor => m ^^^ d
  | .smin => if sgn d < sgn m then d else m
  | .smax => if sgn m < sgn d then d else m
  | .umin => min m d
  | .umax => max m d
  | .xchg => d
  | .cas => if m = d then n else m
  | .fadd => (f32Add .rne (BitVec.ofNat 32 m) (BitVec.ofNat 32 d)).toNat

/-- Check of a global atomic or a WAITA read at an address (R248, 16 R277): aligned, outside the local engine range, and, byte by byte in
the order of 12 R223, inside a lease that allows all of it, readable, and writable for an atomic. -/
def State.chkAtom (s : State) (w : Who) (wr : Bool) (n va : Nat) : Chk :=
  if va % n ≠ 0 then .bad 7 va
  else if localRange va then .bad 5 va
  else (List.range n).foldl (fun c i => match c with
    | .ok =>
      if wr && !leaseOk w.leases .store (va + i) then .bad 10 (va + i)
      else match s.chkByte w .load (va + i) with
        | .ok => if wr then s.chkByte w .store (va + i) else .ok
        | c => c
    | c => c) .ok
/-- Check of a scratchpad atomic (R248, 12 R210). -/
def spChkAtom (b : Option Block) (n o : Nat) : Chk := if o % n ≠ 0 then .bad 7 o else spChk b n o

/-- One atomic on global memory (R249, 13 R235): in the L2 for DRAM, at its register for a window or a control register,
carried by the transport for an aperture. -/
def State.atomGlob (s : State) (g : Gang) (va n : Nat) (op : AtomOp) (d nw : Nat) : Nat × State :=
  let w := s.whoGang g
  let s1 := s.installAll w .store va n
  let pa := (s1.paOf w .store va).1
  if pa < dramEnd then
    let s2 := s1.drainLines g.core fun l => l == lineOf pa
    let m := leVal (Memory.bytes s2.mem pa n)
    (m, s2.l2Direct (some g.core) ((leOf n (atomNew op (8 * n) m d nw)).zipIdx.map fun e => (pa + e.2, e.1)))
  else
    let m := leVal ((List.range n).map fun i => s1.physByte (pa + i))
    if pa / 2 ^ 48 = 4 then
      (m, { s1 with outs := s1.outs ++ [.hostAtomic (pa % 2 ^ 48 / 2 ^ 42) (pa % 2 ^ 42) op (n == 8) (BitVec.ofNat 64 d)
        (BitVec.ofNat 64 nw)] })
    else if pa / 2 ^ 48 = 5 then
      (m, s1.sendPeer g.vi (pa % 2 ^ 48 / 2 ^ 40) (pa % 2 ^ 40) fun a => .atomic g.vi a op (n == 8) (BitVec.ofNat 64 d) (BitVec.ofNat 64 nw))
    else
      (m, (s1.physClear ((List.range n).map fun i => pa + i)).physPut g.vi none none va
        ((leOf n (atomNew op (8 * n) m d nw)).zipIdx.map fun e => (pa + e.2, e.1)))
/-- One atomic on the block's scratchpad. -/
def State.atomSp (s : State) (b : Block) (o n : Nat) (op : AtomOp) (d nw : Nat) : Nat × State :=
  let m := leVal (s.spRead b o n)
  (m, s.spWrite b o (leOf n (atomNew op (8 * n) m d nw)))

/-- Whether an ordering releases or acquires. -/
def ordRel : Ord → Bool
  | .rel | .acqrel => true
  | _ => false
def ordAcq : Ord → Bool
  | .acq | .acqrel => true
  | _ => false
/-- A release at system scope waits for the acknowledgement of the stores to apertures that are out (13 R228), its own and those that an
earlier synchronisation may have made visible to it (13 R234). Assumption 23: DEDUCED. -/
def State.remotePending (s : State) (ms : MScope) : Bool := ms == .system && !s.remote.isEmpty
/-- The lane sequencer waits at its item under a wait that the instruction's entry names. -/
def hold (s : State) (g : Gang) (f : Frag) : Result := .next (s.setCur g { f with lwait := .held })

/-- A lane's data operand from consecutive registers, `n` bytes. -/
def laneData (clk : Nat) (g : Gang) (r n lane : Nat) : Nat :=
  leVal ((List.range (n / 4)).flatMap fun k => leOf 4 (g.vget clk (r + k) lane).toNat)

/-- ATOM (R249). -/
def execAtom (d a : VReg) (base : Base) (off : VReg) (op : AtomOp) (dw : Bool) (ord : Ord) (ms : MScope) (u : Bool)
    (scale : BitVec 2) (c : Tag) (flag : FlagSel) (s : State) : Result :=
  let n := if dw then 8 else 4
  laneRun s (.atom d a base off op dw ord ms u scale c flag) (tagsOf c (span a (atomData op dw))) fun g f =>
    if g.flagStall f flag then .next s
    else
      let b := s.block? g.block
      let (l0, chk, bad) := match base with
        | .glob r => (globAddrs s.clk g f (g.storing f) r off u scale.toNat 0, s.chkAtom (s.whoGang g) true n, s.loadBad g n)
        | .sp r => (spAddrs s.clk g f (g.storing f) r off u scale.toNat 0, spChkAtom b n, s.spBad b n)
      let l := g.definite off.toNat chk bad l0
      checkedBy chk bad s g f true .store l <|
        if ordRel ord && s.remotePending ms && !l.isEmpty then .next s
        else
          let s0 := if ordRel ord && !l.isEmpty then s.release g.core ms else s
          let (ms', s1) := l.foldl (fun (acc : List (Nat × Nat) × State) e =>
            let dv := laneData s.clk g a.toNat n e.1
            let nv := laneData s.clk g (a.toNat + n / 4) n e.1
            let (m, s') := match base with
              | .glob _ => acc.2.atomGlob g e.2 n op dv nv
              | .sp _ => acc.2.atomSp (b.getD {}) e.2 n op dv nv
            (acc.1 ++ [(e.1, m)], s')) ([], s0)
          let s2 := if ordAcq ord && !l.isEmpty then s1.acquire g.core ms else s1
          s2.opFinish flag (landing d.toNat (n / 4) c (lanesOf (g.taking f)) fun r lane =>
            match ms'.find? fun e => e.1 == lane with
            | some e => BitVec.ofNat 32 (e.2 / 2 ^ (32 * r))
            | none => if (g.storing f).getLsbD lane then Config.freeWord s.clk (0x10000 + 32 * (d.toNat + r) + lane) else 0) [] 0

/-- Scalar results of an instruction that acts once: one word, or two for a pair. -/
def scalarRes (f : Frag) (d : SReg) (dw : Bool) (v : Nat) : List (SReg × FMap Word) :=
  (d, f.all (BitVec.ofNat 32 v)) :: (if dw then [(d + 1, f.all (BitVec.ofNat 32 (v / 2 ^ 32)))] else [])

/-- Address of an instruction that acts once (R244 with off = 0). Assumption 22: DEDUCED. -/
def onceAddr (f : Frag) (sl : Nat) (base : Base) (disp : Dword) : Nat :=
  match base with
  | .glob r => (f.capturedPair sl r + disp).toNat
  | .sp r => spAddr (f.captured sl r) 0 disp

/-- SATOM (R250). -/
def execSatom (d a : SReg) (base : Base) (c : SReg) (op : AtomOp) (dw : Bool) (ord : Ord) (ms : MScope) (disp : BitVec 20)
    (flag : FlagSel) (s : State) : Result :=
  let n := if dw then 8 else 4
  laneRun s (.satom d a base c op dw ord ms disp flag) noTags fun g f =>
    if g.flagStall f flag then .next s
    else if g.taking f = 0 then s.opFinish flag {} [] 0
    else if g.storing f = 0 then s.opFinish flag {} (scalarRes f d dw 0) 0
    else
      let sl := g.actSlice f
      let ad := onceAddr f sl base (disp.signExtend 64)
      let b := s.block? g.block
      let (chk, bad) := match base with
        | .glob _ => (s.chkAtom (s.whoGang g) true n, s.loadBad g n)
        | .sp _ => (spChkAtom b n, s.spBad b n)
      checkedBy chk bad s g f true .store [(0, ad)] <|
        if ordRel ord && s.remotePending ms then .next s
        else
          let s0 := if ordRel ord then s.release g.core ms else s
          let val := fun (r : SReg) => if dw then (f.capturedPair sl r).toNat else (f.captured sl r).toNat
          let (m, s1) := match base with
            | .glob _ => s0.atomGlob g ad n op (val a) (val c)
            | .sp _ => s0.atomSp (b.getD {}) ad n op (val a) (val c)
          let s2 := if ordAcq ord then s1.acquire g.core ms else s1
          s2.opFinish flag {} (scalarRes f d dw m) 0

/-! ### Fences and WAITA (R251, R252) -/

/-- FENCE takes effect whatever the masks; a release at system scope waits for acknowledgements. Assumption 23: DEDUCED. -/
def execFence (kind : FenceKind) (ms : MScope) (s : State) : Result :=
  laneRun s (.fence kind ms) noTags fun g f =>
    if kind != .acq && s.remotePending ms then .next s
    else
      let s1 := if kind != .acq then s.release g.core ms else s
      let s2 := if kind != .rel then s1.acquire g.core ms else s1
      s2.finish g f []

/-- The word a WAITA reads (R252): an atomic read at its point of coherence, the L2 or the scratchpad. A line that the core's L1 holds leaves
it, so that no later load of the gang returns an older value (13 R229). -/
def State.waitaRead (s : State) (g : Gang) (base : Base) (ad : Nat) : Word × State :=
  match base with
  | .glob _ =>
    let s1 := s.installAll (s.whoGang g) .load ad 4
    let pa := (s1.paOf (s.whoGang g) .load ad).1
    let s2 := (s1.drainLines g.core fun l => l == lineOf pa).l1Drop g.core fun l => l == lineOf pa
    (BitVec.ofNat 32 (leVal ((List.range 4).map fun i => s2.physByte (pa + i))), s2.physClear ((List.range 4).map fun i => pa + i))
  | .sp _ => (BitVec.ofNat 32 (leVal (s.spRead ((s.block? g.block).getD {}) ad 4)), s)

/-- WAITA at its item: it completes when its condition holds or its time limit has passed, else it waits. -/
def execWaita (d a : SReg) (base : Base) (ne : Bool) (ms : MScope) (tmo : Half) (s : State) : Result :=
  laneRun s (.waita d a base ne ms tmo) noTags fun g f =>
    if g.taking f = 0 then s.finish g f []
    else
      let sl := g.actSlice f
      let ad := onceAddr f sl base 0
      let (chk, bad) := match base with
        | .glob _ => (s.chkAtom (s.whoGang g) false 4, s.loadBad g 4)
        | .sp _ => (spChkAtom (s.block? g.block) 4, s.spBad (s.block? g.block) 4)
      checkedBy chk bad s g f true .load [(0, ad)] <|
        let (x, s0) := s.waitaRead g base ad
        let since := match f.lwait with
          | .waita t => t
          | _ => s.clk
        if ((x == f.captured sl a) != ne) || (tmo != 0 && decide (256 * tmo.toNat ≤ s.clk - since)) then
          (s0.acquire g.core ms).finish g f [(d, f.all x)]
        else .next (s0.setCur g { f with lwait := .waita since })

/-- The item at a fragment's LPC, decoded under its clause: as the sequencer fetched it, once it has (03 R78). Assumption 24: DEDUCED. -/
def State.itemAt (s : State) (g : Gang) (f : Frag) : Option (Instr × Nat) :=
  match f.entered with
  | none => none
  | some e =>
    let bs := if f.item.isEmpty then s.laneBytes g e.base e.limit f.lpc.toNat else f.item
    let (i, n) := decodeLaneItem (s.laneCtx g e.fa e.fb) bs
    if n = 0 then none else some (i, n)

/-- Run a waiting WAITA of the current fragment again (R252). Assumption 24: DEDUCED. -/
def waitaAgain (s : State) : Result :=
  withCur s fun g f =>
    match f.lwait, s.itemAt g f with
    | .waita _, some (.waita d a base ne ms tmo, _) => execWaita d a base ne ms tmo s
    | _, _ => .next s
/-- WAITA_COMPLETE: a write has satisfied the condition. -/
def execWaitaComplete (s : State) : Result := waitaAgain s
/-- WAITA_TIMEOUT: 256 × TMO clk have passed since issue; a write that satisfies the condition in the same clock is the value
it completes with. -/
def execWaitaTimeout (s : State) : Result := waitaAgain s

/-! ### Messages (R253 to R255) -/

/-- Bytes of an MSEND's entry (R253), read whatever the masks. -/
def entryBytes (clk : Nat) (g : Gang) (a : VReg) (n : Nat) : List Byte :=
  (List.range (n / 4)).flatMap fun w => leOf 4 (g.vget clk (a.toNat + w / 32) (w % 32)).toNat

def execMsend (a : VReg) (dst : MsgDst) (size : MsgSize) (flag : FlagSel) (s : State) : Result :=
  laneRun s (.msend a dst size flag) noTags fun g f =>
    if g.flagStall f flag then .next s
    else if g.storing f = 0 then s.opFinish flag {} [] 0
    else
      let (pos, q) := match dst with
        | .imm p k => (p.toNat, k.toNat)
        | .scal r =>
          let w := (f.captured (g.actSlice f) r).toNat
          (bitsOf w 2 0, bitsOf w 5 3)
      match s.reachBlock g pos with
      | none => memFault s g f true 0 8 0
      | some _ =>
        let n := FMap.get (s.core g.core).credits (8 * pos + q)
        if n = 0 then hold s g f
        else
          let s1 := (s.release g.core .cluster).updCore g.core fun k =>
            { k with credits := FMap.put k.credits (8 * pos + q) (n - 1) }
          let e : MsgEntry := { pos := posOf g.core, gang := s.gang, op := s.nextOp, bytes := entryBytes s.clk g a size.bytes }
          let s2 := s1.updCore (8 * clusterOf g.core + pos) fun k =>
            let m := FMap.get k.mqs q
            { k with mqs := FMap.put k.mqs q { m with arrived := m.arrived ++ [e] } }
          s2.opFinish flag {} [] 1

/-- The operation that an event has been awaited by waits for one thing less. -/
def State.unhold (s : State) (gid op : Nat) : State :=
  match s.gang? gid with
  | some g => s.updGang gid { g with asyncs := g.asyncs.map fun (o : AsyncOp) => if o.id = op then { o with hold := o.hold - 1 } else o }
  | none => s

/-- Entries on their way to a queue in the order they are appended: ascending sender position, each sender's in order (12
R220). -/
def firstEntry (es : List MsgEntry) : Option MsgEntry :=
  es.foldl (fun acc e => match acc with
    | none => some e
    | some x => if e.pos < x.pos then some e else acc) none

/-- MQ_ENTRY_ARRIVE (12 R220): one entry is written to its slot and TAIL advances; at a disabled queue it is discarded. -/
def execMqEntryArrive (core : Nat) (q : BitVec 3) (s : State) : Result :=
  let m := FMap.get (s.core core).mqs q.toNat
  match firstEntry m.arrived with
  | none => .next s
  | some e =>
    let m1 := { m with arrived := m.arrived.erase e }
    let s0 := s.unhold e.gang e.op
    if mqEn m.cfg then
      let sz := 2 ^ (4 + mqEsz m.cfg)
      let bs := (e.bytes ++ List.replicate sz 0).take sz
      let o := mqBase m.cfg + m.tail.toNat % mqCount m.cfg * sz
      let s1 := match m.owner.bind s0.block? with
        | some b => s0.spWrite b o bs
        | none => s0
      let m2 := { m1 with tail := m1.tail + 1, senders := m1.senders ++ [e.pos] }
      .next (s1.updCore core fun k => { k with mqs := FMap.put k.mqs q.toNat m2 })
    else .next (s0.updCore core fun k => { k with mqs := FMap.put k.mqs q.toNat m1 })

/-- MRECV (R254). -/
def execMrecv (d : VReg) (b : SReg) (size : MsgSize) (wait : Bool) (q : BitVec 3) (c : Tag) (flag : FlagSel) (s : State) :
    Result :=
  laneRun s (.mrecv d b size wait q c flag) noTags fun g f =>
    if g.flagStall f flag then .next s
    else if g.taking f = 0 then s.opFinish flag {} [] 0
    else
      let m := FMap.get (s.core g.core).mqs q.toNat
      if !mqEn m.cfg || m.owner != some g.block then memFault s g f true 0 9 0
      else if m.head = m.tail then
        (if wait then hold s g f else s.opFinish flag {} [(b, f.all 0)] 0)
      else
        let esz := 2 ^ (4 + mqEsz m.cfg)
        let o := mqBase m.cfg + m.head.toNat % mqCount m.cfg * esz
        let take := fun (k : Result) => match s.spBad (s.block? g.block) (min size.bytes esz) o with
          | some (src, a) => takeTrap s g f .machineCheck (BitVec.ofNat 32 src) (BitVec.ofNat 64 a) true
          | none => k
        let bs := s.spRead ((s.block? g.block).getD {}) o esz ++ List.replicate 256 0
        let from_ := 8 * clusterOf g.core + m.senders.headD 0
        let m1 := { m with head := m.head + 1, senders := m.senders.tail }
        let s1 := s.updCore g.core fun k => { k with mqs := FMap.put k.mqs q.toNat m1 }
        let cq := 8 * posOf g.core + q.toNat
        let s2 := s1.updCore from_ fun k => { k with credits := FMap.put k.credits cq (FMap.get k.credits cq + 1) }
        let nw := size.bytes / 4
        let lanes := lanesOf (g.taking f)
        let l : Landing := (List.range size.regs).foldl (fun (acc : Landing) r =>
          let ls := lanes.filter fun x => decide (32 * r + x < nw)
          let p := landing (d.toNat + r) 1 c ls fun _ x => BitVec.ofNat 32 (field bs (4 * (32 * r + x)) 4)
          { vw := acc.vw ++ p.vw, tags := acc.tags ++ p.tags }) {}
        take ((s2.acquire g.core .cluster).opFinish flag l [(b, f.all 1)] 0)

/-- MQST (R255). -/
def execMqst (d : SReg) (kind : MqstKind) (pos q : BitVec 3) (s : State) : Result :=
  laneRun s (.mqst d kind pos q) noTags fun g f =>
    let m := FMap.get (s.core g.core).mqs q.toNat
    s.finishScalar g f d (BitVec.ofNat 32 (match kind with
      | .occ => b2n (mqEn m.cfg) * 2 ^ 31 + mqCount m.cfg * 2 ^ 16 + (m.tail - m.head).toNat
      | .cred => FMap.get (s.core g.core).credits (8 * pos.toNat + q.toNat)))

/-! ### PREF and CMAINT (R256 to R258, 21 R348) -/

/-- HINTDROP gains one for each granule dropped, and saturates (21 R337). Assumption 74: DEDUCED. -/
def State.hintDrops (s : State) (core n : Nat) : State :=
  s.updCore core fun k => { k with hintAdd := k.hintAdd + n }

/-- PREF (R256). Assumption 74: DEDUCED. -/
def execPref (base : SReg) (off : VReg) (kind : PrefKind) (scale : BitVec 2) (u : Bool) (disp : BitVec 26) (s : State) :
    Result :=
  laneRun s (.pref base off kind scale u disp) noTags fun g f =>
    let w := s.whoGang g
    let l := globAddrs s.clk g f (g.taking f) base off u scale.toNat disp
    let (s1, bad) := l.foldl (fun (acc : State × List Nat) e =>
      let va := e.2
      if localRange va then (acc.1, va / 65536 :: acc.2)
      else match acc.1.xlate w .load va with
        | .ok pa ca a lf vb sz =>
          let s' := acc.1.install w va (.ok pa ca a lf vb sz)
          (if kind = .l1 && ca = 0 then s'.l1Fill g.core (lineOf pa) else s', acc.2)
        | .absent _ =>
          if kind = .res then
            ({ acc.1 with feq := acc.1.feq ++ [.residency g.asid (va / 65536)] }, acc.2)
          else (acc.1, va / 65536 :: acc.2)
        | .fail _ => (acc.1, va / 65536 :: acc.2)) (s, [])
    (s1.hintDrops g.core bad.eraseDups.length).finish g f []

/-- The parts of a range in its 64 KiB granules: (address, bytes). -/
def granules (b e : Nat) : List (Nat × Nat) :=
  let g0 := b / 65536
  (List.range ((e + 65535) / 65536 - g0)).map fun i =>
    let lo := max b ((g0 + i) * 65536)
    (lo, min e ((g0 + i + 1) * 65536) - lo)

/-- The parts of a range that translate (R258), a walk setting A (12 R225): virtual and physical address and bytes of those not of CA 2,
the number that fail, and the state. -/
def State.maintParts (s : State) (w : Who) (b e : Nat) : List (Nat × Nat × Nat) × Nat × State :=
  (granules b e).foldl (fun acc p =>
    if localRange p.1 then (acc.1, acc.2.1 + 1, acc.2.2)
    else match acc.2.2.xlate w .load p.1 with
      | .ok pa ca a lf vb sz =>
        (if ca = 2 then acc.1 else acc.1 ++ [(p.1, pa, p.2)], acc.2.1, acc.2.2.install w p.1 (.ok pa ca a lf vb sz))
      | _ => (acc.1, acc.2.1 + 1, acc.2.2)) ([], 0, s)

/-- The shape of CMAINT (R257): it acts once over [b, b + len) widened to lines; a length of 0 does nothing. -/
def cmaintRange (s : State) (i : Instr) (len base : SReg) (flag : FlagSel)
    (act : State → Gang → List (Nat × Nat × Nat) → State) : Result :=
  laneRun s i noTags fun g f =>
    if g.flagStall f flag then .next s
    else
      let sl := g.actSlice f
      let n := (f.captured sl len).toNat
      let b := (f.capturedPair sl base).toNat
      if g.taking f = 0 || n = 0 then s.opFinish flag {} [] 0
      else
        let (ps, bad, s1) := s.maintParts (s.whoGang g) (b / 64 * 64) ((b + n + 63) / 64 * 64)
        ((act s1 g ps).hintDrops g.core bad).opFinish flag {} [] 0

/-- A line lies in one of the physical parts. -/
def inParts (ps : List (Nat × Nat × Nat)) (line : Nat) : Bool :=
  ps.any fun p => decide (p.2.1 ≤ 64 * line) && decide (64 * line < p.2.1 + p.2.2)
/-- Write back the dirty lines of the parts (R257, 12 R226). -/
def State.wbParts (s : State) (ps : List (Nat × Nat × Nat)) : State :=
  ((s.dirty.map (·.1)).filter fun l => inParts ps l).foldl (fun s l => s.writeBack l) s

def execCmaintL1inv (len base : SReg) (flag : FlagSel) (s : State) : Result :=
  cmaintRange s (.cmaintL1inv len base flag) len base flag fun s g ps => s.l1Drop g.core (inParts ps)
def execCmaintWb (len base : SReg) (flag : FlagSel) (s : State) : Result :=
  cmaintRange s (.cmaintWb len base flag) len base flag fun s _ ps => s.wbParts ps
/-- The invalidation that follows the write-back changes no byte any agent reads: the L2 fetches the line again from DRAM. -/
def execCmaintWbinv (len base : SReg) (flag : FlagSel) (s : State) : Result :=
  cmaintRange s (.cmaintWbinv len base flag) len base flag fun s _ ps => s.wbParts ps
def execCmaintIcinv (len base : SReg) (flag : FlagSel) (s : State) : Result :=
  cmaintRange s (.cmaintIcinv len base flag) len base flag fun s g ps =>
    { s with icache := s.icache.filter fun (e : Word × Nat × List Byte) =>
        !(e.1 == g.asid && ps.any fun p => decide (p.1 ≤ 64 * e.2.1) && decide (64 * e.2.1 < p.1 + p.2.2)) }

/-- Drop the translations and pointer entries of a context that overlap a range, once the accesses that used them have reached the L2
(12 R227). -/
def State.tlbInv (s : State) (asid : Word) (b e : Nat) : State :=
  { s.drainAll with
    tlb := s.tlb.filter fun (x : Nat × Word × Nat × Nat × Dword) =>
      !(x.2.1 == asid && decide (x.2.2.1 < e) && decide (b < x.2.2.1 + x.2.2.2.1))
    walker := s.walker.filter fun (x : Word × Nat × Nat × Dword) =>
      !(x.1 == asid && decide (x.2.2.1 * 2 ^ x.2.1 < e) && decide (b < (x.2.2.1 + 1) * 2 ^ x.2.1)) }

/-- CMAINT.tlbinv: the range is widened to whole granules. -/
def execCmaintTlbinv (len base : SReg) (flag : FlagSel) (s : State) : Result :=
  laneRun s (.cmaintTlbinv len base flag) noTags fun g f =>
    if g.flagStall f flag then .next s
    else
      let sl := g.actSlice f
      let n := (f.captured sl len).toNat
      let b := (f.capturedPair sl base).toNat
      if g.taking f = 0 || n = 0 then s.opFinish flag {} [] 0
      else (s.tlbInv g.asid (b / 65536 * 65536) ((b + n + 65535) / 65536 * 65536)).opFinish flag {} [] 0
def execCmaintTlbctx (flag : FlagSel) (s : State) : Result :=
  laneRun s (.cmaintTlbctx flag) noTags fun g f =>
    if g.flagStall f flag then .next s
    else if g.taking f = 0 then s.opFinish flag {} [] 0
    else (s.tlbCtx g.asid).opFinish flag {} [] 0

/-! ### Steps of the memory system -/

/-- STORE_REACHES_L2 (12 R212, 13 R229, R230): the store at the subject's place of the path. -/
def execStoreReachesL2 (s : State) : Result := .next (s.storeArrives s.subject)
/-- L2_WRITEBACK (12 R213, R226). -/
def execL2Writeback (line : Nat) (s : State) : Result := .next (s.writeBack line)
/-- PATROL_SCRUB (12 R216, R217): while COLD with refresh off, a line is read; a corrected one is counted, an uncorrectable
one is poisoned, counted and told to the host (27 R406). -/
def execPatrolScrub (line : Nat) (r : ScrubResult) (s : State) : Result :=
  if s.cryo = .cold && !s.refresh && decide (64 * line < dramEnd) then
    match r with
    | .clean => .next s
    | .corrected => .next { s with eccce := if s.eccce = 0xFFFFFFFF then s.eccce else s.eccce + 1 }
    | .uncorrectable =>
      let s1 := { s with eccue := if s.eccue = 0xFFFFFFFF then s.eccue else s.eccue + 1
                         poison := FMap.put s.poison line true }
      .next (s1.notify 1 0 (BitVec.ofNat 64 (64 * line)))
  else .next s
/-- MQCFG_WRITE (12 R218) by a gang, or by system software through the window. Assumption 77: DEDUCED. -/
def execMqcfgWrite (core : Nat) (q : BitVec 3) (v : Word) (gang : Option Nat) (s : State) : Result :=
  match gang.bind s.gang? with
  | some g => .next (s.mqcfg core q.toNat v (some g.block) g.priv)
  | none => .next (s.mqcfg core q.toNat v none true)
/-- PTROOT_WRITE (12 R204). Assumption 77: DEDUCED. -/
def execPtrootWrite (vi : Nat) (v : Dword) (s : State) : Result := .next (s.setPtroot vi v)

end Sys2Proof.Machine
end

