-- ==== Sys2Proof/Machine/Parallel.lean ====
section
/-! DEFINITION. Parallel instructions (08 R160 to R174), the rendezvous (07 R147 to R152), re-ganging (07 R144, 08 R172) and
slices that leave (07 R153). -/

namespace Sys2Proof.Machine

/-! ### Slices that leave (07 R153, R154) -/

/-- The EXIT packet of a fragment that slices are about to leave (10 R192, R193), under the mask and with the state it has before (R199). -/
def State.traceLeave (s : State) (g : Gang) (f : Frag) : State × Frag :=
  let out := f.slices &&& g.exiting
  if out = 0 then (s, f)
  else s.traceExit g f true (if out ≠ f.slices then 0 else if g.frags.all fun x => x.slices &&& f.slices != 0 then 2 else 1)
/-- The exiting slices of a fragment leave the gang: their copies are discarded and their lm bits read zero; a fragment left
without slices ends, its clauses discarded. -/
def State.sliceLeave (s : State) (gid sl : Nat) : State :=
  match s.gang? gid with
  | none => s
  | some g =>
    match g.fragOf sl with
    | none => s
    | some f =>
      let out := f.slices &&& g.exiting
      let g1 := { g with exiting := g.exiting &&& ~~~out, copies := (setBits 4 out).foldl (fun m x => FMap.put m x {}) g.copies }
      if out = 0 then s
      else if out = f.slices then (s.updGang gid g1).dropFrag gid f
      else s.updGang gid ({ g1 with live := g.live &&& ~~~out, lm := g.lm &&& ~~~(sliceMask out) }.putFrag { f with slices := f.slices &&& ~~~out })

/-- The exiting slices of every fragment of a gang leave. -/
def State.exitSlices (s : State) (gid : Nat) : State := (List.range 4).foldl (fun s sl => s.sliceLeave gid sl) s

/-! ### Merging fragments (07 R144, 08 R172) -/

/-- New clause numbers of a fragment that merges: its entered clause and its queue take numbers from `base` on. Assumption 26: DEDUCED. -/
def Frag.renum (f : Frag) (base : Nat) : Nat → Nat :=
  let ids := (f.entered.map (·.id)).toList ++ f.queue.map (·.id)
  fun id => match ids.idxOf? id with
    | some k => base + k
    | none => id
/-- The clause number before which a guard's awaited writes lie, renumbered. -/
def Frag.renumBefore (f : Frag) (base b : Nat) : Nat :=
  let k := (((f.entered.map (·.id)).toList ++ f.queue.map (·.id)).filter fun id => decide (id < b)).length
  if k = 0 then min b base else base + k
/-- A fragment with clause numbers from `base`, its marks writing its own slices alone. -/
def Frag.rebased (f : Frag) (base : Nat) : Frag :=
  let r := f.renum base
  let own := fun (wr : FMap Word) => wr.filter fun e => f.slices.getLsbD e.1
  { f with
    entered := f.entered.map fun (e : Entered) => { e with id := r e.id }
    queue := f.queue.map fun (e : QEntry) => { e with id := r e.id }
    marks := f.marks.map fun (m : Mark) => { m with clause := r m.clause, wr := m.wr.map own } }

/-- Two marks of the same instruction on one register, in fragments that merge. -/
def markKey (a b : Mark) : Bool :=
  a.clause == b.clause && a.item == b.item && a.reg == b.reg && a.issued == b.issued && a.op == b.op && a.done == b.done
/-- The marks of two fragments together. -/
def joinMarks (a b : List Mark) : List Mark :=
  b.foldl (fun l m =>
    if l.any fun x => markKey x m && x.wr.isSome == m.wr.isSome then
      l.map fun (x : Mark) => if markKey x m && x.wr.isSome == m.wr.isSome then
          { x with wr := x.wr.map fun w => w ++ (m.wr.getD []).filter fun e => !w.any fun y => y.1 == e.1 }
        else x
    else l ++ [m]) a
/-- Captured values of two fragments together: each slice keeps its own. -/
def joinCap (f : Frag) (a b : Captured) : Captured :=
  b.foldl (fun c e => if f.slices.getLsbD e.1 then FMap.put c e.1 e.2 else c) a

/-- What still holds the sequencer of a merged fragment: the operations of both, or the admission after an LBAR. -/
def joinWait (a b : LaneWait) : LaneWait :=
  match a, b with
  | .op x, .op y => .op (x ++ y)
  | .none, w => w
  | w, _ => w
/-- Two fragments as one (R144): scalar copies keep their values. The class, the ageing count and the last issues of the new fragment the
spec does not give: the model takes the lower class, the larger count and the later issues. Assumption 86: DESIGN CHOICE. -/
def joinFrag (a b : Frag) : Frag :=
  { a with
    slices := a.slices ||| b.slices
    entered := match a.entered, b.entered with
      | some x, some y => some { x with cap := joinCap b x.cap y.cap, capOk := x.capOk && y.capOk }
      | x, _ => x
    queue := a.queue.zipWith (fun (x y : QEntry) => { x with cap := joinCap b x.cap y.cap, capOk := x.capOk && y.capOk }) b.queue
    marks := joinMarks a.marks b.marks, lwait := joinWait a.lwait b.lwait, draining := a.draining || b.draining
    cls := min a.cls b.cls, ready := max a.ready b.ready, lastS := max a.lastS b.lastS, lastL := max a.lastL b.lastL }

/-- Merge fragments of a gang into one; their guards' clause numbers move with the clauses. Assumption 26: DEDUCED. -/
def Gang.merge (g : Gang) (fs : List Frag) : Gang × Frag :=
  let base := fs.foldl (fun m f => max m f.nextId) 0
  let g1 := fs.foldl (fun (g : Gang) f => g.mapCopies f.sliceList fun c =>
    { c with guards := c.guards.map fun e => (e.1, { e.2 with before := f.renumBefore base e.2.before }) }) g
  let g1 := { g1 with asyncs := fs.foldl (fun (l : List AsyncOp) (f : Frag) => l.map fun (o : AsyncOp) =>
    if o.slices &&& f.slices = 0 || base ≤ o.clause then o else { o with clause := f.renum base o.clause }) g1.asyncs }
  let m := match fs.map fun f => f.rebased base with
    | [] => ({} : Frag)
    | x :: r => r.foldl joinFrag x
  let m := { m with nextId := base + 9, tr := { key := g.trNext } }
  let frags := m :: g1.frags.filter fun f => f.slices &&& m.slices == 0
  ({ g1 with
    frags := frags.mergeSort fun a b => decide (lowSlice a.slices ≤ lowSlice b.slices), latch := g.latch.filter fun l => l.1 != g.idx, trNext := g.trNext + 1 }, m)

/-- Queue entries are equal (R144, R172). -/
def sameQueue (a b : Frag) : Bool :=
  a.queue.map (fun e => (e.off, e.guard)) == b.queue.map fun e => (e.off, e.guard)
/-- Guard slots have equal states and bindings (R144). -/
def Gang.sameGuards (g : Gang) (a b : Frag) : Bool :=
  (a.sliceList ++ b.sliceList).all fun sl => (List.range 16).all fun n =>
    let x := FMap.get (g.low a).guards n
    let y := FMap.get (g.copy sl).guards n
    x.st == y.st && x.bound == y.bound
/-- A fragment that may meet another (R144): outside its handler, no scalar instruction in execution, no item held at a wait of the list. -/
def Frag.free144 (f : Frag) : Bool :=
  !f.inHandler && !f.swait && f.parkS.isNone && f.parkL.isNone && (match f.lwait with
    | .none | .op _ | .lbarReleased => true
    | _ => false)
/-- Two fragments meet (R144). -/
def Gang.meets (g : Gang) (a b : Frag) : Bool :=
  a.free144 && b.free144 && a.spc == b.spc && sameQueue a b &&
    (match a.entered, b.entered with
      | none, none => a.lpc == b.lpc
      | some x, some y => a.lpc == b.lpc && x.idx == y.idx && x.base == y.base && x.rem == y.rem && x.fa == y.fa && x.fb == y.fb
      | _, _ => false) && g.sameGuards a b

/-- FRAGMENT_REGANG (R144) for the current gang: all fragments that meet its current one merge with it, and exiting slices
of the merged fragment leave (R153). -/
def execFragmentRegang (s : State) : Result :=
  withCur s fun g f =>
    let fs := g.frags.filter fun x => x.slices == f.slices || g.meets f x
    if fs.length ≤ 1 then .next s
    else
      let (g1, m) := g.merge fs
      let (s1, m1) := s.traceRegang g fs m
      let (s2, m2) := s1.traceLeave g1 m1
      .next ((s2.updGang s.gang (g1.putFrag m2)).sliceLeave s.gang (lowSlice m.slices))

/-! ### Members of a scope (07 R147) -/

/-- A gang at a scoped instruction, with the fragments of it that are members, and the number of its first row over 32. -/
structure Party where
  gid : Nat
  pos : Nat
  g   : Gang
  fs  : List Frag
  deriving DecidableEq, Repr

/-- The member gangs of a scope, in ascending %gang, each with its fragments in the order of their lowest slices. -/
def State.parties (s : State) (sc : Scope) (gid : Nat) (g : Gang) : List Party :=
  let live := fun (p : Nat × Gang) => !p.2.frags.isEmpty
  let fs := fun (x : Gang) => x.frags.mergeSort fun a b => decide (lowSlice a.slices ≤ lowSlice b.slices)
  let blk := (((s.block? g.block).getD {}).gangs.filterMap fun i => (s.gang? i).map fun x => (i, x)).mergeSort
    fun a b => decide (a.2.idx ≤ b.2.idx)
  match sc with
  | .l | .g => [⟨gid, 0, g, fs g⟩]
  | .s =>
    let k := max 1 (s.setSize g)
    (blk.filter fun p => live p && p.2.idx / k == g.idx / k).map fun p => ⟨p.1, p.2.idx % k, p.2, fs p.2⟩
  | .b => (blk.filter live).map fun p => ⟨p.1, p.2.idx, p.2, fs p.2⟩

/-- A fragment stands at a rendezvous or at launch level (R148, 08 R169). -/
def Frag.atRdv (f : Frag) : Bool :=
  match f.lwait with
  | .rendezvous _ | .lbar _ => true
  | _ => false
/-- A gang arrives when every one of its live fragments has (R147). -/
def Party.arrived (p : Party) : Bool := p.fs.all Frag.atRdv

/-- The fragments of some members, each with its gang. -/
def fragsOf (ps : List Party) : List (Nat × Frag) := ps.flatMap fun p => p.fs.map fun f => (p.gid, f)

/-- A fragment, named by a slice, takes a trap from its lane stream. -/
def State.trapFrag (s : State) (gid sl : Nat) (c : Cause) (tval : Word) : State :=
  match s.gang? gid with
  | none => s
  | some g => match g.fragOf sl with
    | none => s
    | some f => s.trapIn gid g f c tval 0 true
/-- Every member traps (R148, R172). -/
def State.trapAll (s : State) (ps : List Party) (c : Cause) (tval : Word) : State :=
  (fragsOf ps).foldl (fun s e => s.trapFrag e.1 (lowSlice e.2.slices) c tval) s

/-! ### The rendezvous (07 R148, R151) -/

/-- A check made after the rendezvous fails in a member (R151, R152): that member takes the fault, every other one
set-member fault. Assumption 54: DEDUCED. -/
def State.memberFault (s : State) (ps : List Party) (gid : Nat) (f : Frag) (c : Cause) (tval : Word) : State :=
  let idx := ((s.gang? gid).getD {}).idx
  (fragsOf ps).foldl (fun s e =>
    if e.1 = gid && e.2.slices = f.slices then s.trapFrag e.1 (lowSlice e.2.slices) c tval
    else s.trapFrag e.1 (lowSlice e.2.slices) .setMember (BitVec.ofNat 32 (idx % 65536 + 2 ^ 16 * f.slices.toNat))) s

/-- A member's launch has been cancelled: no rendezvous of it issues any more (21 R344). Assumption 25: DEDUCED. -/
def State.partyCancelled (s : State) (ps : List Party) : Bool :=
  ps.any fun p => match s.launch? p.g.launch with
    | some l => l.cancelled
    | none => false

/-- The instruction issues once for all members when every one waits at one offset, and stall mode holds none (10 R197); at unequal offsets
every member traps; what a check finds in members is the fault of the lowest gang's lowest fragment among them (R151). Assumption 25: DEDUCED. -/
def State.rendezvous (s : State) (ps : List Party) (cause : Gang → Frag → Option (Cause × Word))
    (issue : State → List Party → State) : State :=
  if !ps.all Party.arrived || s.partyCancelled ps || ps.any fun p => s.cgHeld p.g then s
  else
    let fs := fragsOf ps
    if fs.any fun e => fs.any fun x => e.2.lpc != x.2.lpc then s.trapAll ps .rdvTimeout 1
    else
      match ps.findSome? fun p => (p.fs.findSome? fun f => (cause p.g f).map fun c => (p.gid, f, c)) with
      | some (gid, f, c) => s.memberFault ps gid f c.1 c.2
      | none => issue s ps

/-- A fragment arrives (R148). Assumption 25: DEDUCED. -/
def Frag.arrive (f : Frag) (n : Nat) : Frag := if f.atRdv then f else { f with lwait := .rendezvous n }

/-- Tags are checked after the rendezvous, in every member: under scope S (R152), and for MMA (15 R267). -/
def lateTags (i : Instr) (sc : Scope) : Bool :=
  match i with
  | .mma _ _ _ _ _ _ _ _ => sc != .l
  | _ => sc == .s

/-- An instruction of a scope: its issue checks and the arrival of the current fragment, then the rendezvous, after which late tags and the
poison of its registers are checked in every member (R151, 21 R349); scope L issues at once (R145, R147). -/
def scopedRun (s : State) (i : Instr) (sc : Scope) (tags : Gang → Frag → Option Word) (issue : State → List Party → State) :
    Result :=
  match sc with
  | .l => laneRun s i tags fun g f => .next (issue s [⟨s.gang, 0, g, [f]⟩])
  | _ =>
    laneGate s i fun g f =>
      match if f.atRdv || lateTags i sc then none else tags g f with
      | some t => takeTrap s g f .format t 0 true
      | none =>
        let g1 := g.putFrag (f.arrive s.clk)
        let s1 := s.updGang s.gang g1
        .next (s1.rendezvous (s1.parties sc s.gang g1) (s1.operandCause i (if lateTags i sc then tags else fun _ _ => none)) issue)

/-- After issue every member fragment passes the item with its scalar results, and under scope G exiting slices leave
(R148, R153). -/
def finishAll (s : State) (sc : Scope) (ps : List Party) (upd : Party → Gang)
    (wrs : Party → Frag → List (SReg × FMap Word)) : State :=
  let one := fun (p : Party) (acc : State × Gang) (f : Frag) =>
    let (s1, f1) := if sc = .g then acc.1.traceLeave p.g f else (acc.1, f)
    let (g1, f2) := acc.2.completeItem f1 (wrs p f)
    (s1, g1.putFrag f2.pass)
  let s1 := ps.foldl (fun (s : State) p =>
    let (s1, g1) := p.fs.foldl (one p) (s, upd p)
    s1.updGang p.gid g1) s
  match sc, ps with
  | .g, p :: _ => s1.exitSlices p.gid
  | _, _ => s1

/-! ### Rows (R161) -/

/-- Lanes of a member that take part. -/
def Party.lanes (p : Party) : List Nat := lanesOf (p.fs.foldl (fun m f => m ||| p.g.taking f) 0)
/-- The fragment of a member that holds a lane. -/
def Party.fragAt (p : Party) (l : Nat) : Frag := (p.fs.find? fun f => f.slices.getLsbD (l / 8)).getD {}
/-- The present rows with the values of a register. -/
def rowsOf (clk : Nat) (ps : List Party) (r : VReg) : List (Nat × Word) :=
  ps.flatMap fun p => p.lanes.map fun l => (32 * p.pos + l, p.g.vget clk r.toNat l)
/-- The value of a row; a row that is not present supplies 0. -/
def rowVal (rows : List (Nat × Word)) (j : Nat) : Word :=
  match rows.find? fun e => e.1 == j with
  | some e => e.2
  | none => 0
/-- Number of rows of a scope: the gangs of a block are rounded up to a power of two. -/
def rowCount (sc : Scope) (setSize gangs : Nat) : Nat :=
  match sc with
  | .l | .g => 32
  | .s => 32 * max 1 setSize
  | .b => 32 * 2 ^ (if gangs ≤ 1 then 0 else Nat.log2 (gangs - 1) + 1)
/-- Rows of the instruction that a party's gang issues. -/
def State.rowN (s : State) (sc : Scope) (ps : List Party) : Nat :=
  match ps with
  | p :: _ => rowCount sc (s.setSize p.g) (match s.launch? p.g.launch with
    | some l => l.kd.gangs
    | none => 1)
  | [] => 32

/-- Issue with a vector result: each member writes its present lanes. -/
def issueVec (sc : Scope) (d : VReg) (tag : Gang → Tag) (v : Nat → Word) (s : State) (ps : List Party) : State :=
  finishAll s sc ps (fun p => p.g.vwrite d.toNat (tag p.g) (p.lanes.map fun l => (l, v (32 * p.pos + l)))) fun _ _ => []
/-- Issue with a scalar result for every slice copy of every member, unless no row is present (R161). -/
def issueScal (sc : Scope) (d : SReg) (rows : List (Nat × Word)) (v : Word) (s : State) (ps : List Party) : State :=
  finishAll s sc ps (fun p => p.g) fun _ f => if rows.isEmpty then [] else [(d, f.all v)]
/-- Issue with the per-slice form: each slice's copy from that slice's rows; `v` gives nothing for a slice not written. -/
def issuePs (sc : Scope) (d : SReg) (rows : List (Nat × Word)) (v : List (Nat × Word) → Option Word) (s : State)
    (ps : List Party) : State :=
  finishAll s sc ps (fun p => p.g) fun _ f =>
    if rows.isEmpty then []
    else [(d, f.sliceList.filterMap fun sl => (v (rows.filter fun e => e.1 % 32 / 8 == sl)).map fun x => (sl, x))]

/-! ### Quads (R162, R163) -/

/-- A quad lane's value when it is present. -/
def quadVal (clk : Nat) (g : Gang) (f : Frag) (a : VReg) (src : Nat) : Word :=
  if (g.taking f).getLsbD src then g.vget clk a.toNat src else 0
def execQxch (d a : VReg) (pat : BitVec 2) (s : State) : Result :=
  laneMap s (.qxch d a pat) noTags d (fun g => g.srcTag s.clk a.toNat) fun g f l =>
    quadVal s.clk g f a (l / 4 * 4 + (l % 4 ^^^ pat.toNat))
def execQbc (d a : VReg) (n : BitVec 2) (s : State) : Result :=
  laneMap s (.qbc d a n) noTags d (fun g => g.srcTag s.clk a.toNat) fun g f l => quadVal s.clk g f a (l / 4 * 4 + n.toNat)
/-- A difference of two lanes of a quad. -/
def quadDiff (s : State) (i : Instr) (d a : VReg) (c : Tag) (r : Round) (pair : Nat → Nat × Nat) : Result :=
  laneMap s i (tagsOf c [a.toNat]) d (fun _ => c) fun g f l =>
    let (x, y) := pair (l % 4)
    float2 c.fcode r (fun u v => Val.add r u v.neg) (quadVal s.clk g f a (l / 4 * 4 + x)) (quadVal s.clk g f a (l / 4 * 4 + y))
def execQddx (d a : VReg) (fine : Bool) (c : Tag) (r : Round) (s : State) : Result :=
  quadDiff s (.qddx d a fine c r) d a c r fun q => if fine && 2 ≤ q then (3, 2) else (1, 0)
def execQddy (d a : VReg) (fine : Bool) (c : Tag) (r : Round) (s : State) : Result :=
  quadDiff s (.qddy d a fine c r) d a c r fun q => if fine && q % 2 == 1 then (3, 1) else (2, 0)

/-! ### Votes, shuffles, reductions, scans (R164 to R167) -/

/-- Result of a vote over present rows. -/
def voteOf (k : VoteKind) (rows : List (Nat × Word)) : Word :=
  match k with
  | .ballot => rows.foldl (fun m e => if e.2 != 0 then putBit m (e.1 % 32) true else m) 0
  | .any => b2w (rows.any fun e => e.2 != 0)
  | .all => b2w (rows.all fun e => e.2 != 0)
  | .eq => b2w (match rows with
    | [] => true
    | x :: r => r.all fun e => e.2 == x.2)
def execVote (sc : Scope) (dst : RedDst) (a : VReg) (k : VoteKind) (s : State) : Result :=
  scopedRun s (.vote sc dst a k) sc noTags fun s ps =>
    let rows := rowsOf s.clk ps a
    match dst with
    | .vec d => issueVec sc d (fun _ => Tag.i32) (fun _ => voteOf k rows) s ps
    | .scal d false => issueScal sc d rows (voteOf k rows) s ps
    | .scal d true => issuePs sc d rows (fun r => some (voteOf k r)) s ps

/-- Source row of a shuffle. -/
def shflSrc (m : ShflMode) (n j b : Nat) : Nat :=
  match m with
  | .idx => b % n
  | .up => if j < b then j else j - b
  | .down => if n ≤ j + b then j else j + b
  | .xor => j ^^^ (b % n)
def execShfl (sc : Scope) (d a : VReg) (b : BSrc) (m : ShflMode) (s : State) : Result :=
  scopedRun s (.shfl sc d a b m) sc noTags fun s ps =>
    let rows := rowsOf s.clk ps a
    let n := s.rowN sc ps
    finishAll s sc ps (fun p => p.g.vwrite d.toNat (p.g.srcTag s.clk a.toNat) (p.lanes.map fun l =>
      (l, rowVal rows (shflSrc m n (32 * p.pos + l) (bVal s.clk p.g (p.fragAt l) b l).toNat)))) fun _ _ => []

/-- The combination of two values (R166). -/
def redComb (op : RedOp) (c : Tag) (r : Round) (x y : Word) : Word :=
  match op with
  | .add => if c.fcode = 3 then f32Add r x y else x + y
  | .min => if c.fcode = 3 then toF32 .rne (Val.minmax false (f32v x) (f32v y))
    else if c.fcode = 1 then (if y.slt x then y else x) else (if y.ult x then y else x)
  | .max => if c.fcode = 3 then toF32 .rne (Val.minmax true (f32v x) (f32v y))
    else if c.fcode = 1 then (if x.slt y then y else x) else (if x.ult y then y else x)
  | .and => x &&& y
  | .or => x ||| y
  | .xor => x ^^^ y
/-- Combine values that may be absent. -/
def optComb (f : Word → Word → Word) (x y : Option Word) : Option Word :=
  match x, y with
  | some a, some b => some (f a b)
  | some a, none => some a
  | none, y => y
/-- One level of the tree: neighbours combine. -/
def pairUp (f : Word → Word → Word) : List (Option Word) → List (Option Word)
  | x :: y :: r => optComb f x y :: pairUp f r
  | l => l
/-- The fixed tree (R166) over `2^k` rows. -/
def tree (f : Word → Word → Word) : Nat → List (Option Word) → Option Word
  | 0, l => (l.headD none)
  | k + 1, l => tree f k (pairUp f l)
/-- The reduction of the present rows of a row space. -/
def reduce (f : Word → Word → Word) (n : Nat) (rows : List (Nat × Word)) : Option Word :=
  tree f (Nat.log2 n) ((List.range n).map fun j => (rows.find? fun e => e.1 == j).map (·.2))
def execVred (sc : Scope) (dst : RedDst) (a : VReg) (op : RedOp) (c : Tag) (r : Round) (s : State) : Result :=
  scopedRun s (.vred sc dst a op c r) sc (tagsOf c [a.toNat]) fun s ps =>
    let rows := rowsOf s.clk ps a
    let red := reduce (redComb op c r) (s.rowN sc ps)
    match dst with
    | .vec d => issueVec sc d (fun _ => c) (fun _ => (red rows).getD 0) s ps
    | .scal d false => issueScal sc d rows ((red rows).getD 0) s ps
    | .scal d true => issuePs sc d rows red s ps

/-- The value an exclusive scan gives its first row (R167). -/
def scanIdent (op : RedOp) (c : Tag) : Word :=
  match op with
  | .add | .or | .xor => 0
  | .and => 0xFFFFFFFF
  | .min => if c.fcode = 3 then 0x7F800000 else if c.fcode = 1 then 0x7FFFFFFF else 0xFFFFFFFF
  | .max => if c.fcode = 3 then 0xFF800000 else if c.fcode = 1 then 0x80000000 else 0
/-- The running combination over present rows. -/
def scanRows (f : Word → Word → Word) (ident : Word) (excl : Bool) : Option Word → List (Nat × Word) → List (Nat × Word)
  | _, [] => []
  | acc, (j, x) :: r =>
    let nxt := (optComb f acc (some x)).getD 0
    (j, if excl then acc.getD ident else nxt) :: scanRows f ident excl (some nxt) r
def execVscan (sc : Scope) (d a : VReg) (op : RedOp) (excl : Bool) (c : Tag) (r : Round) (s : State) : Result :=
  scopedRun s (.vscan sc d a op excl c r) sc (tagsOf c [a.toNat]) fun s ps =>
    let out := scanRows (redComb op c r) (scanIdent op c) excl none (rowsOf s.clk ps a)
    issueVec sc d (fun _ => c) (rowVal out) s ps

/-! ### Barriers and sets (R168 to R170) -/

/-- Tile writes of the other members are ordered before a barrier that includes both gangs (15 R274). -/
def Gang.joined (g : Gang) (ps : List Party) : Gang :=
  { g with hist := g.hist.map fun e => if ps.any fun p => some p.gid == e.1 then (none, e.2) else e }
/-- BAR: the fence it is has gang or block scope, whose point of coherence is the core's own (13 R228, R231). -/
def execBar (sc : Scope) (s : State) : Result :=
  scopedRun s (.bar sc) sc noTags fun s ps => finishAll s sc ps (fun p => p.g.joined ps) fun _ _ => []

/-- SETDCL replaces the block's set declaration. -/
def execSetdcl (size : BitVec 2) (s : State) : Result :=
  scopedRun s (.setdcl size) .b noTags fun s ps =>
    let k := if size = 0 then 0 else 2 ^ size.toNat
    let s1 := match ps with
      | p :: _ => (match s.block? p.g.block with
        | some b => s.setBlock p.g.block { b with setSize := k }
        | none => s)
      | [] => s
    finishAll s1 .b ps (fun p => p.g) fun _ _ => []

/-- Every live fragment of a block stands at launch level, at one offset. -/
def State.atLaunchLevel (s : State) (b : Block) : Bool :=
  let fs := b.gangs.flatMap fun i => match s.gang? i with
    | some g => g.frags
    | none => []
  (fs.all fun f => match f.lwait with
    | .lbar _ => true
    | _ => false) && fs.all fun f => f.lpc == (fs.headD {}).lpc
/-- The barrier of a launch can release (R169): every block has arrived or ended. -/
def State.lbarReady (s : State) (lid : Nat) : Bool :=
  let bs := (s.blockList.filter fun e => e.2.launch == lid)
  !bs.isEmpty && bs.all (fun e => s.atLaunchLevel e.2)

/-- LBAR arrives; outside a coop launch it is an illegal encoding. It issues at LBAR_RELEASE. Assumption 26: DEDUCED. -/
def execLbar (s : State) : Result :=
  laneRun s .lbar noTags fun g f =>
    match s.launch? g.launch with
    | some l =>
      if !l.kd.coop then illegalLane s g f 3
      else
        let f1 := if f.atRdv then f else { f with lwait := .lbar s.clk }
        let g1 := g.putFrag f1
        let s1 := s.updGang s.gang g1
        .next (s1.rendezvous (s1.parties .b s.gang g1) (fun _ _ => none) fun s _ => s)
    | none => illegalLane s g f 3

/-- Clusters that hold blocks of a launch, ascending. -/
def State.launchClusters (s : State) (lid : Nat) : List Nat :=
  (((s.blockList.filter fun e => e.2.launch == lid).map fun e => clusterOf e.2.core).eraseDups).mergeSort fun a b => decide (a ≤ b)

/-- LBAR_RELEASE (R169, 09 R189) of the launch that is the subject: the fence of device scope, every gang past the item, and the
order in which its clusters are admitted, the first no sooner after the last admission than any other. Assumption 26: DEDUCED. -/
def execLbarRelease (s : State) : Result :=
  let lid := s.subject
  match s.launch? lid with
  | none => .next s
  | some l =>
    if !s.lbarReady lid then .next s
    else
      let cl := s.launchClusters lid
      let start := match l.lastStart with
        | none => cl.headD 0
        | some c => (cl.find? fun x => decide (c < x)).getD (cl.headD 0)
      let order := (cl.filter fun x => decide (start ≤ x)) ++ cl.filter fun x => decide (x < start)
      let gs := s.gangsOf lid
      let s1 := ((gs.map fun e => e.2.core).eraseDups).foldl (fun (s : State) c => s.acquire c .device) s
      let s2 := gs.foldl (fun (s : State) e =>
        s.updGang e.1 { e.2 with frags := e.2.frags.map fun (f : Frag) => { f.pass with lwait := .lbarReleased } }) s1
      .next (s2.setLaunch lid { l with admitting := order, nextAdmit := max s.time l.nextAdmit, lastStart := some start })

/-- CLUSTER_ADMIT (09 R189) of the launch that is the subject: the next cluster's gangs resume, one cluster at most every 12.5
ns. Assumption 26: DEDUCED. -/
def execClusterAdmit (s : State) : Result :=
  let lid := s.subject
  match s.launch? lid with
  | none => .next s
  | some l =>
    match l.admitting with
    | [] => .next s
    | c :: r =>
      if s.time < l.nextAdmit then .next s
      else
        let s1 := (s.gangsOf lid).foldl (fun (s : State) e =>
          if clusterOf e.2.core = c then
            s.updGang e.1 { e.2 with frags := e.2.frags.map fun (f : Frag) =>
              if f.lwait = LaneWait.lbarReleased then { f with lwait := LaneWait.none } else f }
          else s) s
        .next (s1.setLaunch lid { l with admitting := r, nextAdmit := s.time + 819200 })

/-! ### Width, re-ganging, exit, refill (R171 to R174) -/

def execGwid (d : SReg) (s : State) : Result :=
  laneRun s (.gwid d) noTags fun g f =>
    s.finishScalar g f d (BitVec.ofNat 32 (g.exiting.toNat * 2 ^ 12 + g.live.toNat * 2 ^ 8 + f.slices.toNat * 2 ^ 4 +
      popcount g.live))

/-- The scalar instruction at a fragment's SPC. -/
def State.scalarAt (s : State) (g : Gang) (f : Frag) : Option Instr :=
  let bs := s.codeBytes (s.whoGang g) f.spc.toNat 4
  if bs.length = 4 then some (decodeScalar (BitVec.ofNat 32 (leVal bs))) else none

/-- The scalar stream stands at a WAITF, VDRAIN or GEND (R172). -/
def State.stoppedForRegang (s : State) (g : Gang) (f : Frag) : Bool :=
  f.swait && match s.scalarAt g f with
    | some (.waitf _) | some .vdrain | some .gend => true
    | _ => false
/-- What else a fragment needs to arrive at a REGANG (R172). -/
def State.regangReady (s : State) (g : Gang) (f : Frag) : Bool :=
  g.flagsClear f 0xFFF && s.stoppedForRegang g f && (match f.entered with
    | some e => !f.marks.any fun m => decide (m.clause < e.id) || (m.clause == e.id && decide (m.item < e.idx))
    | none => true)

/-- Guard slots that differ between fragments become false and unbound in every slice (R172). -/
def Gang.levelGuards (g : Gang) (f : Frag) : Gang :=
  (List.range 16).foldl (fun (g : Gang) n =>
    let x := FMap.get (g.low f).guards n
    if f.sliceList.all fun sl =>
        let y := FMap.get (g.copy sl).guards n
        y.st == x.st && y.bound == x.bound
    then g else g.mapCopies f.sliceList fun c => { c with guards := FMap.put c.guards n {} }) g

/-- REGANG issues for all fragments of the gang (R172). -/
def regangIssue (s : State) (ps : List Party) : State :=
  match ps with
  | p :: _ =>
    let x := p.fs.headD {}
    if p.fs.any fun f => f.spc != x.spc || !sameQueue f x then s.trapAll ps .rdvTimeout 2
    else
      let (g1, m) := p.g.merge p.fs
      let g2 := g1.levelGuards m
      let (s1, m1) := s.traceRegang p.g p.fs m
      let (s2, m2) := s1.traceLeave g2 m1
      let (g3, m3) := g2.completeItem m2 []
      (s2.updGang p.gid (g3.putFrag m3.pass)).exitSlices p.gid
  | [] => s
/-- REGANG.g; a gang that is one fragment passes at once. -/
def execRegang (s : State) : Result :=
  laneRun s .regang noTags fun g f =>
    if g.frags.length ≤ 1 then
      let (s1, f1) := s.traceLeave g f
      let (g1, f2) := g.completeItem f1 []
      .next ((s1.setCur g1 f2.pass).exitSlices s.gang)
    else if !f.atRdv && !s.regangReady g f then .next s
    else
      let g1 := g.putFrag (f.arrive s.clk)
      let s1 := s.updGang s.gang g1
      .next (s1.rendezvous (s1.parties .g s.gang g1) (fun _ _ => none) regangIssue)

/-- LEXIT clears lm of each present lane; it never marks a slice exiting. -/
def execLexit (s : State) : Result :=
  laneRun s .lexit noTags fun g f =>
    let lm := g.lm &&& ~~~(g.taking f)
    let (s1, f1) := s.traceMask g f true .lm g.lm lm
    s1.finish { g with lm := lm } f1 []

/-- Queue of work items in a cluster (09 R186). -/
def Launch.itemQueue (l : Launch) (c : Nat) : List Word := FMap.get l.queues c
/-- REFILL (R174): it waits while its queue is empty and the list has items left (09 R186), and then marks every slice of the fragment that
is left with vacant lanes alone. -/
def execRefill (d : VReg) (s : State) : Result :=
  laneRun s (.refill d) noTags fun g f =>
    let l := (s.launch? g.launch).getD {}
    let cl := clusterOf g.core
    let q := l.itemQueue cl
    let vacant := lanesOf (~~~g.lm &&& sliceMask (f.slices &&& ~~~g.exiting))
    let left := decide (l.itemsTaken < l.nitems)
    if !vacant.isEmpty && q.isEmpty && left then .next s
    else
      let pairs := vacant.zip q
      let bits := pairs.foldl (fun (m : Word) e => putBit m e.1 true) 0
      let g1 := g.vwrite d.toNat Tag.n32 pairs
      let lm := g.lm ||| bits
      let xm := g.xm ||| bits
      let hm := g.hm &&& ~~~bits
      let (s1, f1) := s.traceMask g f true .xm g.xm xm
      let (s2, f2) := s1.traceMask g f1 true .lm g.lm lm
      let (s3, f3) := s2.traceMask g f2 true .hm g.hm hm
      let out := (f.sliceList.filter fun sl => lm &&& sliceMask (putBit 0 sl true) == 0).foldl
        (fun (m : BitVec 4) sl => putBit m sl true) g.exiting
      let s4 := match s3.launch? g.launch with
        | some x => s3.setLaunch g.launch { x with queues := FMap.put x.queues cl (q.drop pairs.length) }
        | none => s3
      s4.finish { g1 with lm := lm, xm := xm, hm := hm, exiting := out } f3 []

end Sys2Proof.Machine
end

