-- ==== Sys2Proof/Machine/Work.lean ====
section
/-! DEFINITION. Kernel descriptors (04 R87), launches and spawn trees (09 R179 to R184), SPAWN (08 R175), work items (09
R186), named events (08 R176, R177, 09 R187, R188), and the end of launches (09 R182, 27 R401). -/

namespace Sys2Proof.Machine

/-! ### Reading and writing for the front end -/

/-- The requester that the front end is in an interface's context. Assumption 28: DEDUCED. -/
def Iface.who (i : Iface) : Who :=
  { core := 2000, asid := i.asid, root := i.ptroot, sys := false, demand := false, leases := none, user := .front }
/-- Bytes at a virtual address, when every one passes its checks. -/
def State.tryRead (s : State) (w : Who) (va n : Nat) : Option (List Byte) :=
  if s.chk w .load va n = .ok then some (s.agentRead w va n) else none
/-- Such bytes with what reading them leaves (12 R225, 00 R8). -/
def State.tryGet (s : State) (w : Who) (va n : Nat) : Option (List Byte × State) :=
  if s.chk w .load va n = .ok then some (s.agentGet w va n) else none
/-- Write bytes at a virtual address when every one passes its checks. -/
def State.tryWrite (s : State) (w : Who) (va : Nat) (bs : List Byte) : State :=
  if s.chk w .store va bs.length = .ok then s.agentWrite w va bs else s

/-! ### Kernel descriptors (04 R87, 07 R139, 21 R343, 27 R399) -/

/-- Gangs of a kernel that fit in one partition (R139). -/
def perPart (regs accs : Nat) : Nat := min 16 (min (768 / max 1 regs) (if accs = 0 then 16 else 16 / accs))

/-- Bytes of a descriptor that are read: lease entries past NLEASE are not (R87). -/
def kdescBytes (nlease : Nat) : Nat := 64 + 16 * min nlease 16
/-- Read a kernel descriptor (R87), its 64 bytes and the lease entries it names; none when one of them fails its checks. -/
def State.readKdesc (s : State) (w : Who) (va : Nat) : Option (List Byte × State) :=
  match s.tryGet w va 64 with
  | none => none
  | some (b, s1) => s1.tryGet w va (kdescBytes (field b 45 1))
/-- Launches of an interface that have not completed are at its quota (09 R181, 27 R399). The manual gives the quota no quantity; the model
lets the management endpoint set one. Assumption 28: DESIGN CHOICE. -/
def State.jobsFull (s : State) (vi : Nat) : Bool :=
  decide (((s.iface? vi).getD {}).jobQuota ≤ (s.launchList.filter fun e => e.2.vi == vi && !e.2.complete).length)

/-- A lease entry obeys R343. -/
def leaseEntryOk (b : List Byte) (i : Nat) : Bool :=
  let base := field b (64 + 16 * i) 8
  let size := field b (72 + 16 * i) 8
  bitsOf base 62 56 == 0 && decide (1 ≤ size) && decide (size ≤ 2 ^ 40) && decide (base % 2 ^ 56 + size ≤ 2 ^ 56)

/-- The descriptor's own fields are valid (R87). -/
def kdescOk (b : List Byte) : Bool :=
  let f := field b 4 4
  let entry := field b 8 8
  let sc := field b 16 8
  let n := field b 45 1
  let regs := 32 * field b 42 1
  field b 0 4 == 0x10000 && f / 64 == 0 && bitsOf f 2 1 != 0 && entry % 4 == 0 &&
    decide (sc ≤ entry) && decide (entry < sc + field b 24 4) && decide (4 ≤ field b 24 4) &&
    decide (1 ≤ field b 40 1) && decide (field b 40 1 ≤ 32) && decide (1 ≤ field b 41 1) && decide (field b 41 1 ≤ 4) &&
    decide (1 ≤ field b 42 1) && decide (field b 42 1 ≤ 8) && decide (field b 43 1 ≤ 8) && decide (field b 44 1 ≤ 16) &&
    decide (n ≤ 16) && decide (field b 46 2 ≤ 2048) && field b 56 8 == 0 &&
    (List.range n).all (leaseEntryOk b) && !(bitsOf f 3 3 == 1 && n != 0) &&
    decide (field b 40 1 ≤ 4 * perPart regs (field b 43 1))

/-- A descriptor's values. -/
def kdescOf (b : List Byte) : KDesc :=
  let f := field b 4 4
  { priv := bitsOf f 0 0 == 1, cls := bitsOf f 2 1, demand := bitsOf f 3 3 == 1, coop := bitsOf f 4 4 == 1
    pair := bitsOf f 5 5 == 1, entry := BitVec.ofNat 64 (field b 8 8), scbase := BitVec.ofNat 64 (field b 16 8)
    scsize := BitVec.ofNat 32 (field b 24 4), lcsize := BitVec.ofNat 32 (field b 28 4)
    lcbase := BitVec.ofNat 64 (field b 32 8), gangs := field b 40 1, width := field b 41 1, regs := 32 * field b 42 1
    accs := field b 43 1, tiles := field b 44 1, scratch := 256 * field b 46 2, binbase := BitVec.ofNat 64 (field b 48 8)
    leases := (List.range (field b 45 1)).map fun i =>
      let base := field b (64 + 16 * i) 8
      (base / 2 ^ 63 == 1, BitVec.ofNat 64 (base % 2 ^ 56), BitVec.ofNat 64 (field b (72 + 16 * i) 8)) }

/-- The checks on extents, shape, items and report ring (R181, R399 reason 2). -/
def shapeOk (nx ny nz : Nat) (seed : Bool) (items nitems brep brepn : Nat) : Bool :=
  nx != 0 && ny != 0 && nz != 0 && decide (nx * ny * nz ≤ 2 ^ 32) && !(seed && nx * ny * nz != 1) &&
    !(items == 0 && nitems != 0) &&
    !(brep != 0 && !(decide (16 ≤ brepn) && decide (brepn ≤ 65536) && brepn == 2 ^ Nat.log2 brepn))
/-- The checks that join descriptor and shape: a seed is one gang, a pair kernel has an even block count (24 R380). -/
def kernelFits (k : KDesc) (blocks : Nat) (seed : Bool) : Bool := !(seed && k.gangs != 1) && !(k.pair && blocks % 2 == 1)

/-! ### Enqueueing a launch -/

/-- Add a launch under a new number. -/
def State.addLaunch (s : State) (l : Launch) : State :=
  { s with launches := FMap.put s.launches s.nextLaunch (some l), nextLaunch := s.nextLaunch + 1 }

/-- A launch can join an open group (09 R183). -/
def AggGroup.fits (a : AggGroup) (l : Launch) (ns : Nat) : Bool :=
  !a.closed && a.vi == l.vi && a.tree == l.tree && a.kdesc == l.kdesc && decide (ns ≤ a.since + 1000) &&
    decide (a.members.length < 256) && decide (a.blocks + l.blocks ≤ 4096)
/-- Add a member to the first group that fits. -/
def joinFirst (lid : Nat) (l : Launch) (ns : Nat) : List AggGroup → Option (List AggGroup)
  | [] => none
  | a :: r => if a.fits l ns then some ({ a with members := a.members ++ [lid], blocks := a.blocks + l.blocks } :: r)
    else (joinFirst lid l ns r).map fun x => a :: x
/-- Join an aggregation group, or open one (09 R183). -/
def State.joinGroup (s : State) (lid : Nat) (l : Launch) : State :=
  if l.agg && !l.seed && decide (l.blocks ≤ 64) then
    { s with groups := match joinFirst lid l s.ns s.groups with
        | some gs => gs
        | none => s.groups ++ [{ vi := l.vi, tree := l.tree, kdesc := l.kdesc, since := s.ns, members := [lid], blocks := l.blocks }] }
  else s
/-- A launch stands in an open group. -/
def State.grouped (s : State) (lid : Nat) : Bool := s.groups.any fun a => !a.closed && a.members.contains lid
/-- Members that stand ahead of a launch in its merged grid (R183). -/
def State.mergedAhead (s : State) (lid : Nat) : List Nat :=
  match s.groups.find? fun a => a.closed && a.members.contains lid with
  | some a => a.members.takeWhile fun x => x != lid
  | none => []
/-- The indirection table of a merged grid (R183): the members' blocks one after another in enqueue order. -/
def State.mergedTable (s : State) (ms : List Nat) : List (Dword × Nat × Nat) :=
  (ms.foldl (fun (acc : Nat × List (Dword × Nat × Nat)) m => match s.launch? m with
    | some l => (acc.1 + l.blocks, acc.2 ++ [(l.param, acc.1, l.blocks)])
    | none => acc) (0, [])).2

/-- AGGREGATION_GROUP_CLOSE (R183): the group at the subject's place closes after 1 µs or at its limits, and its merged grid goes to the
dispatcher. -/
def execAggregationGroupClose (s : State) : Result :=
  match s.groups[s.subject]? with
  | none => .next s
  | some a =>
    if !a.closed && (decide (a.since + 1000 ≤ s.ns) || decide (256 ≤ a.members.length) || decide (4096 ≤ a.blocks))
    then .next { s with groups := s.groups.set s.subject { a with closed := true, table := s.mergedTable a.members } } else .next s

/-! ### SPAWN (08 R175, 09 R180 to R182) -/

/-- A range of bytes lies inside the leases for loads. -/
def inLeases (ls : Option (List (Bool × Nat × Nat))) (acc : Acc) (a n : Nat) : Bool :=
  (List.range n).all fun i => leaseOk ls acc (a + i)

/-- The child that a descriptor makes, or the status that refuses it (R180, R181). It belongs to no strip chain: its class and privilege are
its kernel's. Assumption 28: DEDUCED. -/
def State.spawnChild (s : State) (g : Gang) (va : Nat) (param : Dword) : Nat × State :=
  let w := s.whoGang g
  let (b, s) := s.agentGet w va 64
  let pl := (s.launch? g.launch).getD {}
  let nx := field b 8 4
  let ny := field b 12 4
  let nz := field b 16 4
  let fl := field b 20 4
  let seed := bitsOf fl 0 0 == 1
  let kd := field b 0 8
  if va % 64 ≠ 0 || fl / 16 ≠ 0 || field b 48 16 ≠ 0 ||
    !shapeOk nx ny nz seed (field b 24 8) (field b 32 4) (field b 36 8) (field b 44 4) ||
    !inLeases w.leases .load kd 64 || (field b 24 8 ≠ 0 && !inLeases w.leases .load (field b 24 8) (4 * field b 32 4)) ||
    (field b 36 8 ≠ 0 && !inLeases w.leases .store (field b 36 8) (16 * field b 44 4))
  then (2, s)
  else
    match s.readKdesc w kd with
    | none => (2, s)
    | some (d, s) =>
      let k := kdescOf d
      if !kdescOk d || !kernelFits k (nx * ny * nz) seed then (2, s)
      else
        let i := (s.iface? g.vi).getD {}
        let t := FMap.get s.trees pl.tree
        if 1024 ≤ i.spawns.length || s.jobsFull g.vi || t.c = 2 ^ 24 - 1 then (1, s)
        else
          let cls := bitsOf fl 3 2
          let l : Launch := { vi := g.vi, kd := { k with cls := if cls = 0 then k.cls else cls }, kdesc := BitVec.ofNat 64 kd
                              param := param, nx := nx, ny := ny, nz := nz, seed := seed, agg := bitsOf fl 1 1 == 1
                              items := BitVec.ofNat 64 (field b 24 8), nitems := field b 32 4
                              brep := BitVec.ofNat 64 (field b 36 8), brepn := field b 44 4, tree := pl.tree }
          let lid := s.nextLaunch
          let s1 := (s.addLaunch l).setIface g.vi { i with spawns := i.spawns ++ [lid] }
          let s2 := { s1 with trees := FMap.put s1.trees pl.tree { t with c := t.c + 1 }, feq := s1.feq ++ [FeEvent.spawn lid] }
          (0, s2.joinGroup lid l)

def execSpawn (d a : VReg) (base : SReg) (flag : FlagSel) (s : State) : Result :=
  laneRun s (.spawn d a base flag) noTags fun g f =>
    if g.flagStall f flag then .next s
    else
      let act := (lanesOf (g.storing f)).map fun l => (l, (f.capturedPair (l / 8) base).toNat)
      checked s g f true .load true 64 act <|
        let (st, s1) := act.foldl (fun (acc : List (Nat × Nat) × State) e =>
          let (r, s') := acc.2.spawnChild g e.2 (g.vget s.clk (a.toNat + 1) e.1 ++ g.vget s.clk a.toNat e.1)
          (acc.1 ++ [(e.1, r)], s')) ([], s)
        s1.opFinish flag (landing d.toNat 1 Tag.i32 (lanesOf (g.taking f)) fun _ l =>
          BitVec.ofNat 32 (match st.find? fun e => e.1 == l with
            | some e => e.2
            | none => 3)) [] 0

/-! ### Work items (09 R186) -/

/-- WORK_ITEM_CHUNK_MOVE: the next 64 items of a launch's list go to a cluster's queue that holds fewer than 64. -/
def execWorkItemChunkMove (launch cluster : Nat) (s : State) : Result :=
  match s.launch? launch with
  | none => .next s
  | some l =>
    let q := l.itemQueue cluster
    if 64 ≤ q.length || l.nitems ≤ l.itemsTaken || !(s.launchClusters launch).contains cluster then .next s
    else
      let n := min 64 (l.nitems - l.itemsTaken)
      let (bs, s) := s.agentGet (s.whoLaunch l) (l.items.toNat + 4 * l.itemsTaken) (4 * n)
      let ws := (List.range n).map fun i => BitVec.ofNat 32 (field bs (4 * i) 4)
      .next (s.setLaunch launch { l with queues := FMap.put l.queues cluster (q ++ ws), itemsTaken := l.itemsTaken + n })

/-! ### Named events -/

/-- Scheduler table entries in use (09 R187). -/
def State.eventEntries (s : State) : Nat :=
  s.ifaces.foldl (fun n e => match e.2 with
    | some i => n + (i.events.filter fun x => x.2.inTable).length
    | none => n) 0
/-- Store an event, in the scheduler table when it is there already or there is room. -/
def State.putEvent (s : State) (vi name : Nat) (e : Event) : State :=
  match s.iface? vi with
  | none => s
  | some i =>
    let live := e.isSet || !e.waiters.isEmpty
    let tab := live && (e.inTable || decide (s.eventEntries < 4096))
    s.setIface vi { i with events := FMap.put i.events name { e with inTable := tab } }
def State.event (s : State) (vi name : Nat) : Event :=
  match s.iface? vi with
  | some i => FMap.get i.events name
  | none => {}

/-- An EVWAIT all of whose names are taken completes (R177): an acquire of device scope, then its flag, or its item, in every
part of a fragment that has split at it (07 R143). Assumption 16: DEDUCED. -/
def State.evDone (s : State) (gid op : Nat) : State :=
  match s.gang? gid with
  | none => s
  | some g =>
    match g.asyncs.find? fun (o : AsyncOp) => o.id == op with
    | none => s
    | some o =>
      if o.hold ≠ 0 then s
      else
        let s1 := s.acquire g.core .device
        match g.frags.filter fun f => f.lwait == .evwait op with
        | [] => s1.opComplete gid op
        | fs =>
          let g1 := { g with asyncs := g.asyncs.filter fun (x : AsyncOp) => x.id != op }
          s1.updGang gid (fs.foldl (fun (g : Gang) f =>
            let (g2, f1) := g.completeItem f []
            g2.putFrag f1.pass) g1)
/-- One name of a waiter is taken. Assumption 27: DEDUCED. -/
def State.wake (s : State) (w : Waiter) : State := (s.unhold w.gang w.op).evDone w.gang w.op

/-- The waiters that an EVSIG completes (R188): every non-consuming one, and the first consuming one, with its place.
Assumption 27: DEDUCED. -/
def chosenWaiters (ws : List Waiter) : List (Waiter × Nat) :=
  let z := ws.zipIdx
  (z.filter fun e => !e.1.cons) ++ ((z.find? fun e => e.1.cons).toList)
/-- EVSIG sets a clear event (R176, R188): the chosen waiters complete, spilled ones through the front end. Assumption 27: DEDUCED. -/
def State.signal (s : State) (vi name : Nat) : State :=
  let e := s.event vi name
  if e.isSet then s
  else
    let ch := chosenWaiters e.waiters
    let rest := (e.waiters.zipIdx.filter fun x => !ch.any fun y => y.2 == x.2).map (·.1)
    let s1 := s.putEvent vi name { e with isSet := !ch.any fun x => x.1.cons, waiters := rest }
    ch.foldl (fun (s : State) x =>
      if x.2 < 8 && e.inTable then s.wake x.1 else { s with feq := s.feq ++ [.spilled x.1] }) s1

/-- The distinct names that an event instruction's present lanes read, ascending (R176). -/
def eventNames (clk : Nat) (g : Gang) (f : Frag) (b : BSrc) : List Nat :=
  (((lanesOf (g.taking f)).map fun l => (bVal clk g f b l).toNat % 65536).eraseDups).mergeSort fun x y => decide (x ≤ y)

def execEvsig (name : BSrc) (s : State) : Result :=
  laneRun s (.evsig name) noTags fun g f =>
    let ns := eventNames s.clk g f name
    let (g1, f1) := g.completeItem f []
    let s1 := s.setCur g1 f1.pass
    .next (ns.foldl (fun (s : State) n => s.signal g.vi n) (if ns.isEmpty then s1 else s1.release g.core .device))
def execEvclr (name : BSrc) (s : State) : Result :=
  laneRun s (.evclr name) noTags fun g f =>
    ((eventNames s.clk g f name).foldl (fun (s : State) n => s.putEvent g.vi n { s.event g.vi n with isSet := false }) s).finish g f []

/-- EVWAIT (R177): names that are set are taken at once, the others register; with every name taken it completes in its own clock, and a flag
that it names is raised and clears in it. Assumption 16: DEDUCED. -/
def execEvwait (name : BSrc) (cons : Bool) (flag : FlagSel) (s : State) : Result :=
  laneRun s (.evwait name cons flag) noTags fun g f =>
    match f.lwait with
    | .evwait _ => .next s
    | _ =>
      if g.flagStall f flag then .next s
      else
        let ns := eventNames s.clk g f name
        let (s1, n) := ns.foldl (fun (acc : State × Nat) nm =>
          let e := acc.1.event g.vi nm
          if e.isSet then (if cons then acc.1.putEvent g.vi nm { e with isSet := false } else acc.1, acc.2)
          else (acc.1.putEvent g.vi nm { e with waiters := e.waiters ++ [{ gang := s.gang, op := s.nextOp, cons := cons }] },
                acc.2 + 1)) (s, 0)
        if n = 0 then (if ns.isEmpty then s1 else s1.acquire g.core .device).finish g f []
        else if (f.boundFlag flag).isSome then s1.opFinish flag {} [] n
        else
          let o : AsyncOp := { id := s.nextOp, slices := f.slices, hold := n }
          let s2 := { s1 with nextOp := s1.nextOp + 1 }
          .next (s2.setCur { g with asyncs := g.asyncs ++ [o] } { f with lwait := .evwait o.id })

/-- SPILLED_WAITER_COMPLETE (R188): the front end completes the next spilled waiter. Assumption 27: DEDUCED. -/
def execSpilledWaiterComplete (s : State) : Result :=
  match s.feq.findSome? fun e => match e with
    | .spilled w => some w
    | _ => none with
  | none => .next s
  | some w => .next (State.wake { s with feq := s.feq.erase (.spilled w) } w)

/-! ### Completion reports (27 R400, R401) -/

/-- The 32 bytes of an error record (21 R342). -/
def ErrRec.bytes (e : ErrRec) : List Byte :=
  leOf 8 e.time ++ leOf 8 e.taddr.toNat ++ leOf 4 e.tval.toNat ++ leOf 1 e.code ++ leOf 1 e.source ++ leOf 2 e.core ++
    leOf 4 e.block ++ leOf 1 e.gang ++ leOf 1 e.slices.toNat ++ [0, 0]
/-- A completion report. -/
def reportBytes (ns : Nat) (seq status reason dropped : Nat) (e : Option ErrRec) : List Byte :=
  leOf 8 ns ++ leOf 4 seq ++ leOf 1 status ++ leOf 1 reason ++ [0, 0] ++ leOf 8 dropped ++ leOf 8 0 ++
    (match e with
      | some r => r.bytes
      | none => List.replicate 32 0)
/-- Reports leave in ring order while the queue is mapped (R400, R403); at most `n` of them. -/
def State.flushReports : Nat → State → Nat → State
  | 0, s, _ => s
  | n + 1, s, qn =>
    match s.queue? qn with
    | none => s
    | some q =>
      match q.mapped, q.packets with
      | some _, p :: r =>
        (match p.report with
          | none => s
          | some bs =>
            let s1 := match s.iface? q.vi with
              | some i => s.tryWrite i.who (q.cring.toNat + 64 * (q.reports.toNat % q.csize)) bs
              | none => s
            State.flushReports n (s1.setQueue qn { q with reports := q.reports + 1, packets := r }) qn)
      | _, _ => s
/-- A packet completes with its report. -/
def State.packetDone (s : State) (qn idx : Nat) (bs : List Byte) : State :=
  match s.queue? qn with
  | none => s
  | some q =>
    let q1 := { q with packets := q.packets.map fun (p : Packet) => if p.idx = idx then { p with report := some bs } else p }
    State.flushReports (q.packets.length + 1) (s.setQueue qn q1) qn

/-- A packet completes with a status and a reason and no error record (R399, R401). -/
def State.packetReply (s : State) (qn idx status reason : Nat) : State :=
  let seq := match s.queue? qn with
    | some q => (match q.packets.find? fun (p : Packet) => p.idx == idx with
      | some p => field p.bytes 4 4
      | none => 0)
    | none => 0
  s.packetDone qn idx (reportBytes s.ns seq status reason 0 none)

/-- Items that no lane took (09 R186). -/
def Launch.dropped (l : Launch) : Nat := l.nitems - l.itemsTaken + l.queues.foldl (fun n e => n + e.2.length) 0

/-- The root launch of a completed tree reports (09 R182, R401). -/
def State.treeDone (s : State) (tree : Nat) : State :=
  let t := FMap.get s.trees tree
  match s.launch? t.root with
  | none => s
  | some l =>
    match l.packet with
    | none => s
    | some (qn, idx) =>
      let seq := match s.queue? qn with
        | some q => (match q.packets.find? fun (p : Packet) => p.idx == idx with
          | some p => field p.bytes 4 4
          | none => 0)
        | none => 0
      let status := if t.errRec.isSome then 1 else if l.cancelled then 3 else 0
      s.packetDone qn idx (reportBytes s.ns seq status 0 l.dropped t.errRec)

/-- LAUNCH_COMPLETE (09 R182) of the launch that is the subject: once every block has ended and been reported, the tree's
counter falls, and at zero the root reports. -/
def execLaunchComplete (s : State) : Result :=
  let lid := s.subject
  match s.launch? lid with
  | none => .next s
  | some l =>
    if l.complete || l.h < l.blocks then .next s
    else
      let t := FMap.get s.trees l.tree
      let s0 := s.setLaunch lid { l with complete := true }
      let s1 := { s0 with groups := s0.groups.filter fun a => !(a.closed && a.members.all fun m => match s0.launch? m with
        | some x => x.complete
        | none => true) }
      let s2 := { s1 with trees := FMap.put s1.trees l.tree { t with c := t.c - 1 } }
      .next (if t.c = 1 then s2.treeDone l.tree else s2)

/-- LAUNCH_CANCEL (21 R344) of the launch that is the subject. -/
def execLaunchCancel (s : State) : Result := .next (s.cancelLaunch s.subject)
/-- HANDLER_CANCEL_TIMEOUT (21 R344): a handler of a cancelled launch still running after 4,000 ns is ended where it stands. -/
def execHandlerCancelTimeout (s : State) : Result :=
  withCur s fun _ f =>
    match f.cancelled with
    | some t => if t + 4000 ≤ s.ns then .next (s.endFrag s.gang f 1) else .next s
    | none => .next s

end Sys2Proof.Machine
end

