-- ==== Sys2Proof/Machine/Strip.lean ====
section
/-! DEFINITION. The strip ring: slots and their geometry (18 R311 to R314), pixels that land and are read (17 R307, R308), the
shading rate (22 R363, R364), and chains that leave their slots (22 R362, R365). -/

namespace Sys2Proof.Machine

/-! ### Slots (18 R311 to R314) -/

/-- The geometry a slot's descriptor words give (R312). -/
structure Geom where
  work : Bool
  w64  : Bool
  halo : Nat
  h    : Nat
  wb   : Nat
  ser  : Option Nat
  enc  : Option Nat
  fl   : Nat
  base : Nat
  deriving DecidableEq, Repr

/-- Geometry of three descriptor words. -/
def geomOf (d : Word × Word × Word) : Geom :=
  let (a, b, c) := (d.1.toNat, d.2.1.toNat, d.2.2.toNat)
  { work := bitsOf a 28 28 == 1, w64 := bitsOf a 27 27 == 1, halo := 4 * bitsOf a 26 25, h := 4 * (bitsOf a 19 16 + 1)
    wb := bitsOf a 9 0 + 1, ser := if bitsOf b 31 31 = 1 then some (bitsOf b 30 28) else none
    enc := if bitsOf b 27 27 = 1 then some (bitsOf b 26 25) else none, fl := 4 * bitsOf b 24 13, base := 64 * bitsOf c 21 0 }
/-- Strip width in pixels. -/
def Geom.w (g : Geom) : Nat := 8 * g.wb
/-- Bytes of a pixel (R313). -/
def Geom.ps (g : Geom) : Nat := if g.w64 then 8 else 4
/-- Stored lines (R311). -/
def Geom.rows (g : Geom) : Nat := g.h + 2 * g.halo
/-- Bytes a slot takes in the ring. -/
def Geom.bytes (g : Geom) : Nat := g.rows * g.w * g.ps
/-- Blocks of a strip (22 R363). -/
def Geom.blocks (g : Geom) : Nat := g.rows / 4 * g.wb
/-- Ring offset of a pixel of a stored line (R313). -/
def Geom.at (g : Geom) (row x : Nat) : Nat := g.base + (row * g.w + x) * g.ps

/-- Geometry of a slot as its descriptor stands. -/
def State.geom (s : State) (slot : Nat) : Geom := geomOf (s.sdesc slot 0, s.sdesc slot 1, s.sdesc slot 2)

/-- The registered chain that holds a slot, as its SCAN or its WORK slot. -/
def State.slotChain (s : State) (slot : Nat) : Option Chain :=
  s.chains.find? fun c => !c.behind && (c.slot == slot || c.wslot == some slot)

/-- A pixel of the ring as two words, the second zero for a 32-bit pixel. -/
def State.ringPixel (s : State) (a : Nat) (w64 : Bool) : Word × Word :=
  (BitVec.ofNat 32 (leVal (Memory.bytes s.ring a 4)), if w64 then BitVec.ofNat 32 (leVal (Memory.bytes s.ring (a + 4) 4)) else 0)

/-- Fields of a locator (17 R304). -/
def locSlot (w : Word) : Nat := bitsOf w.toNat 31 24
def locRow (w : Word) : Nat := bitsOf w.toNat 13 10
def locCol (w : Word) : Nat := bitsOf w.toNat 9 0
/-- A locator's block lies within the strip (R314). -/
def Geom.hasBlock (g : Geom) (loc : Word) : Bool := decide (locRow loc < g.rows / 4) && decide (locCol loc < g.wb)

/-- Key of a stored line of a chain's slot. -/
def Chain.lineKey (c : Chain) (slot row : Nat) : Nat := if c.slot = slot then row else 64 + row

/-! ### RINGLD (17 R308) -/

/-- Ring address of the pixel that a lane of a RINGLD reads in a slot of a geometry; none at or past the width. -/
def Geom.laneAddr (g : Geom) (loc : Word) (line : Byte) (lane : Nat) : Option Nat :=
  let x := bitsOf loc.toNat 12 0 + lane
  if g.w ≤ x then none else some (g.at (line.toInt + (g.halo : Int)).toNat x)
/-- A line of a locator's slot has been written, as its chain stands. -/
def State.ringKnown (s : State) (loc : Word) (line : Byte) : Bool :=
  match s.slotChain (locSlot loc) with
  | some c => c.written.contains (c.lineKey (locSlot loc) (line.toInt + ((s.geom (locSlot loc)).halo : Int)).toNat)
  | none => false
/-- The pixel that a lane of a RINGLD reads: zero at or past the width, undefined in a kept line not yet written.
Assumption 44: DEDUCED. -/
def State.ringLanePixel (s : State) (g : Geom) (known : Bool) (loc : Word) (line : Byte) (w64 : Bool) (lane : Nat) : Word × Word :=
  match g.laneAddr loc line lane with
  | none => (0, 0)
  | some a => if known then s.ringPixel a w64 else (Config.freeWord s.clk a, if w64 then Config.freeWord s.clk (a + 4) else 0)

/-! ### Progress and the shading rate (22 R363, R364) -/

/-- Guard of Meridian's prediction (R364). -/
def State.guardNs (s : State) : Nat := s.sguard.toNat % 2 ^ 24
/-- Geometry of a chain's progress slot (R359). -/
def State.progGeom (s : State) (c : Chain) : Geom := s.geom (if c.psrc then c.wslot.getD c.slot else c.slot)

/-- The decision at one quarter point (R364). -/
def State.quarter (s : State) (c : Chain) (n nb q : Nat) : State :=
  if c.deadline ≤ s.ns then s.setChain { c with quarters := q }
  else
    let pred := s.ns + ((s.ns - c.start) * (nb - n) + n - 1) / n
    if c.deadline < pred + s.guardNs && c.rate < 2 then
      (s.setChain { c with quarters := q, rate := c.rate + 1 }).mlog 3 c.slot (c.rate + 1) q c.frame pred 0
    else s.setChain { c with quarters := q }
/-- Every quarter point that the chain's progress has reached, at most `k`. -/
def State.quarters : Nat → State → Nat → State
  | 0, s, _ => s
  | k + 1, s, cid =>
    match s.chain? cid with
    | none => s
    | some c =>
      let nb := (s.progGeom c).blocks
      let q := c.quarters + 1
      if c.quarters < 3 && (q * nb + 3) / 4 ≤ c.blocks.length then State.quarters k (s.quarter c c.blocks.length nb q) cid else s

/-- A block of a chain's progress slot has a landed pixel: its tile starts with the rate in force (R363, R364). -/
def State.blockLanded (s : State) (cid : Nat) (loc : Word) : State :=
  match s.chain? cid with
  | none => s
  | some c =>
    let key := 1024 * locRow loc + locCol loc
    if c.blocks.contains key then s
    else
      let t := locCol loc / 4
      let tiles := if FMap.get c.tiles t = 0 then FMap.put c.tiles t (c.rate + 1) else c.tiles
      State.quarters 3 (s.setChain { c with blocks := key :: c.blocks, tiles := tiles }) cid

/-- One pixel arrives (17 R307, 18 R316): it lands while its slot is RENDERING for the chain that stored it. -/
def State.pixelLands (s : State) (w64 : Bool) (cid : Nat) (p : Nat × Word × Word × Word) : State :=
  let (lane, loc, lo, hi) := p
  let slot := locSlot loc
  match s.slotChain slot with
  | none => s
  | some c =>
    if c.id ≠ cid || s.slotState slot ≠ 1 then s
    else
      let g := s.geom slot
      let row := 4 * locRow loc + lane / 8
      let bs := leOf 4 lo.toNat ++ (if w64 then leOf 4 hi.toNat else [])
      let key := c.lineKey slot row
      let a := g.at row (8 * locCol loc + lane % 8)
      let s1 := { s.clearUnits 2 a bs.length with ring := Memory.writeAt s.ring a bs }
      let s2 := s1.setChain { c with written := if c.written.contains key then c.written else key :: c.written }
      if slot = (if c.psrc then c.wslot.getD c.slot else c.slot) then s2.blockLanded cid loc else s2

/-! ### Chains that leave (22 R362, R365) -/

/-- Firmware writes a slot's descriptor (18 R312). -/
def State.putDesc (s : State) (slot : Nat) (d : Word × Word × Word) : State :=
  let o := 0x400000 + 16 * slot
  ((s.ctrlPut o d.1).ctrlPut (o + 4) d.2.1).ctrlPut (o + 8) d.2.2
/-- A chain takes its slots: firmware writes their descriptors. -/
def State.takeSlots (s : State) (c : Chain) : State :=
  let s1 := s.putDesc c.slot c.sdesc
  match c.wslot with
  | some w => s1.putDesc w c.wdesc
  | none => s1
/-- Meridian deregisters a chain (R365): its descriptors are cleared, the chain behind it takes the slot, and the last one
returns the ring ways to the L2 (12 R214). -/
def State.deregister (s : State) (c : Chain) : State :=
  let s1 := { s with chains := s.chains.filter fun (x : Chain) => x.id != c.id }
  let s2 :=
    if c.behind then s1
    else
      let s3 := s1.putDesc c.slot (0, 0, 0)
      let s4 := match c.wslot with
        | some w => s3.putDesc w (0, 0, 0)
        | none => s3
      match s4.chains.find? fun (x : Chain) => x.slot == c.slot && x.behind && !x.missed with
      | some x => (s4.setChain { x with behind := false }).takeSlots x
      | none => s4
  if s2.chains.isEmpty then { s2 with ringOwn := 0 } else s2

end Sys2Proof.Machine
end

