-- ==== Sys2Proof/Machine/Engine.lean ====
section
/-! DEFINITION. Engine queues (17 R291), guarded commands (17 R292, 01 R25, 07 R142), flags and batches of commands (01 R22,
15 R270). -/

namespace Sys2Proof.Machine

/-- The three engine queues of a gang (17 R291). -/
inductive EngQ where | matrix | copy | render
  deriving DecidableEq, Repr

def Gang.cmds (g : Gang) : EngQ → List Cmd
  | .matrix => g.mq
  | .copy => g.cq
  | .render => g.rq
def Gang.setCmds (g : Gang) (q : EngQ) (l : List Cmd) : Gang :=
  match q with
  | .matrix => { g with mq := l }
  | .copy => { g with cq := l }
  | .render => { g with rq := l }
/-- Entries of a queue (R291). -/
def EngQ.size : EngQ → Nat
  | .copy => 8
  | _ => 16
/-- The queue is full (R291). -/
def Gang.engFull (g : Gang) (q : EngQ) : Bool := decide (q.size ≤ (g.cmds q).length)

/-- The one member of a command of scope L. -/
def Cmd.mate (c : Cmd) : Mate := c.mates.headD {}

/-! ### Batches (15 R270) -/

/-- A command joins the open batch. Assumption 30: DEDUCED. -/
def Gang.joinBatch (g : Gang) : Gang :=
  let b := g.openB.getD {}
  { g with openB := some { b with num := g.nextN, n := b.n + 1, left := b.left + 1 } }

/-! ### Ends of commands -/

/-- The flags of a command fall (01 R22, 17 R291). -/
def State.lowerMates (s : State) (c : Cmd) : State :=
  c.mates.foldl (fun (s : State) m =>
    match s.gang? m.gid, m.flag with
    | some g, some n => s.updGang m.gid (g.lowerFlag m.slices n)
    | _, _ => s) s
/-- A matrix command has finished all its effects (15 R270, 17 R293). Assumption 41: DEDUCED. -/
def State.matrixDone (s : State) (c : Cmd) : State :=
  (c.mates.map fun m => (m.gid, m.batch)).eraseDups.foldl (fun (s : State) e =>
    match s.gang? e.1 with
    | some g => s.updGang e.1 (g.onBatch e.2 fun b => { b with left := b.left - 1 })
    | none => s) (s.lowerMates c)
/-- Registers that a command names: its A run or span, its tile, its accumulator (13 R238). -/
def cmdNames (i : Instr) : List Nat :=
  (match i with
    | .mvm _ a _ _ _ _ _ _ => span a 16
    | _ => vregsOf 0 i) ++ (aregsOf i).map (256 + ·) ++ (tregsOf i).map (512 + ·)

/-- A vector register that a flagged operation, or an ACCRD that the engine has yet to perform, will write (01 R21): what it holds when a
later command performs is not settled at that command's issue. -/
def Gang.inFlight (g : Gang) (r : Nat) : Bool :=
  (g.asyncs.any fun o => o.tags.any fun t => t.1 == r) || (g.running.toList ++ g.mq).any fun (c : Cmd) => match c.instr with
    | .accrd d _ n _ _ => decide (d.toNat ≤ r) && decide (r < d.toNat + n.count)
    | _ => false

/-! ### Guards (01 R25, 07 R142) -/

/-- What a guard decides for a command's slices: nothing while it is unresolved in any, else those it is true in.
Assumption 20: DEDUCED. -/
def Gang.guardOut (g : Gang) (slices : BitVec 4) (n : GSlot) : Option (BitVec 4) :=
  let l := setBits 4 slices
  if l.any fun sl => g.guardSt sl n.toNat == .unresolved then none
  else some (l.foldl (fun m sl => if g.guardSt sl n.toNat = GState.tru then putBit m sl true else m) 0)
/-- The command at a queue's head is discarded: its guard is false in every slice. -/
def Gang.headFalse (g : Gang) (c : Cmd) : Bool :=
  match c.guard with
  | some n => g.guardOut c.mate.slices n == some 0
  | none => false
/-- The command at a queue's head is still held by its guard. -/
def Gang.headHeld (g : Gang) (c : Cmd) : Bool :=
  match c.guard with
  | some n => g.guardOut c.mate.slices n == none
  | none => false
/-- Commands without an effect per lane (17 R289). -/
def actsOnce : Instr → Bool
  | .tld _ _ _ _ _ _ | .tst _ _ _ _ _ | .tzr _ _ _ | .dsub _ _ | .recfl _ _ | .beamq _ _ _ _ _ => true
  | _ => false
/-- Lanes of a command once its guard has resolved (R142): those of the slices it is true in; a command without an effect per lane acts for
all of its lanes where it is true in any slice. Assumption 20: DEDUCED. -/
def Gang.guardedLanes (g : Gang) (c : Cmd) : Word :=
  match c.guard with
  | some n =>
    let m := (g.guardOut c.mate.slices n).getD 0
    if actsOnce c.instr then (if m = 0 then 0 else c.mate.lanes) else c.mate.lanes &&& sliceMask m
  | none => c.mate.lanes

/-- What only discarded work named was never written twice (01 R21, R25): of the registers it named, those that nothing outstanding names
any more hold what was written. -/
def Gang.forget (g : Gang) (keys : List Nat) : Gang :=
  { g with clash := g.clash.filter fun k => !keys.contains k || g.busyV k }
/-- A discarded matrix command leaves its batch as if it had never joined (R25). -/
def State.dropMatrix (s : State) (gid : Nat) (c : Cmd) : State :=
  match (s.lowerMates c).gang? gid with
  | none => s
  | some g =>
    let g1 := { g with mq := g.mq.erase c }
    let g2 := g1.onBatch c.mate.batch fun b => { b with n := b.n - 1, left := b.left - 1 }
    let tag := if c.mate.batch = g2.nextN then none else some c.mate.batch
    let named := (cmdNames c.instr).foldl (fun (l : List (Option Byte × Nat)) k => l.erase (tag, k)) g2.named
    let g3 : Gang := { g2 with named := named }
    (s.lowerMates c).updGang gid (g3.forget (cmdNames c.instr))

/-- Matrix commands at the head of a gang's queue whose guard is false are discarded; at most `n`. -/
def State.sweepMatrix : Nat → State → Nat → State
  | 0, s, _ => s
  | n + 1, s, gid =>
    match s.gang? gid with
    | none => s
    | some g => match g.mq with
      | c :: _ => if g.headFalse c then State.sweepMatrix n (s.dropMatrix gid c) gid else s
      | [] => s

/-- Flush a layout record from a cluster's cache (16 R285). -/
def State.flushRecord (s : State) (core : Nat) (asid : Word) (a : Dword) : State :=
  let c := clusterOf core
  let cl := FMap.get s.clusters c
  { s with clusters := FMap.put s.clusters c { cl with records := cl.records.filter fun (r : Word × Dword × List Byte) => !(r.1 == asid && r.2.1 == a) } }

/-- The head of the copy queue goes while it is discarded, acts for no lane, or is a RECFL, which flushes its record (17
R298). -/
def State.sweepCopy : Nat → State → Nat → State
  | 0, s, _ => s
  | n + 1, s, gid =>
    match s.gang? gid with
    | none => s
    | some g => match g.cq with
      | c :: r =>
        let s1 := s.updGang gid { g with cq := r }
        if g.headFalse c then State.sweepCopy n (s1.lowerMates c) gid
        else if g.headHeld c then s
        else if g.guardedLanes c = 0 then State.sweepCopy n (s1.lowerMates c) gid
        else match c.instr with
          | .recfl _ _ => State.sweepCopy n ((s1.lowerMates c).flushRecord g.core g.asid c.addr) gid
          | _ => s
      | [] => s

/-- Query slot that a query command names (17 R303). -/
def queryOf : Instr → Option Nat
  | .beamq _ _ q _ _ | .covq q _ _ | .rayq _ _ q _ | .ellq _ _ _ _ q _ => some q.toNat
  | _ => none

/-- The pixels of a RINGST command over a mask of lanes (17 R307); its data hold the low words, the high words and the locators,
lane by lane, and `addr2` its chain. -/
def Cmd.ringStore (c : Cmd) (gid : Nat) (lanes : Word) (w64 : Bool) : RingStore :=
  { gang := gid, chain := c.addr2.toNat, w64 := w64
    pixels := (lanesOf lanes).map fun l => (l, c.data.getD (64 + l) 0, c.data.getD l 0, c.data.getD (32 + l) 0)
    id := c.id, slices := c.mate.slices, flag := c.mate.flag }

/-- What a RINGLD captures beside its locators (17 R291, 18 R316): the slots' descriptors, and whether its line was written at issue. -/
def State.ringCapture (s : State) (line : Byte) (locs : List Word) : List Word :=
  locs ++ (locs.map fun loc => b2w (s.ringKnown loc line)) ++
    locs.flatMap fun loc => [s.sdesc (locSlot loc) 0, s.sdesc (locSlot loc) 1, s.sdesc (locSlot loc) 2]
/-- The geometry of a lane's slot as a RINGLD command captured it. -/
def Cmd.geom (c : Cmd) (l : Nat) : Geom := geomOf (c.data.getD (64 + 3 * l) 0, c.data.getD (65 + 3 * l) 0, c.data.getD (66 + 3 * l) 0)
/-- A line that a RINGLD command reads (17 R308), fetched over a mask of lanes for the operation it is: where its slot was when it issued, and
so the old or the new pixels of a slot that has changed hands (18 R316). Assumption 44: DEDUCED. -/
def State.ringFetch (s : State) (c : Cmd) (lanes : Word) (d : VReg) (w64 : Bool) (line : Byte) : List (Nat × Word) :=
  (lanesOf lanes).flatMap fun l =>
    let loc := c.data.getD l 0
    let (lo, hi) := s.ringLanePixel (c.geom l) (c.data.getD (32 + l) 0 == 1 || s.ringKnown loc line) loc line w64 l
    (32 * d.toNat + l, lo) :: (if w64 then [(32 * (d.toNat + 1) + l, hi)] else [])

/-- The operation of a discarded RINGLD goes with its flag's raise (17 R292). -/
def State.dropOp (s : State) (gid op : Nat) : State :=
  match s.gang? gid with
  | none => s
  | some g => match g.asyncs.find? fun o => o.id == op with
    | none => s
    | some o =>
      let g0 := { g with asyncs := g.asyncs.filter fun x => x.id != op }
      let g1 := g0.forget (o.tags.map (·.1))
      let g2 := match o.flag with
        | some n => g1.lowerFlag o.slices n
        | none => g1
      s.updGang gid { g2 with frags := g2.frags.map fun x => { x with lwait := x.lwait.without op } }

/-- The ring bytes a RINGLD reads hold poison (12 R216, 17 R310). -/
def State.ringBad (s : State) (c : Cmd) (lanes : Word) (w64 : Bool) (line : Byte) : Bool :=
  !s.poison.isEmpty && (lanesOf lanes).any fun l =>
    match (c.geom l).laneAddr (c.data.getD l 0) line l with
    | some a => (List.range (if w64 then 8 else 4)).any fun i => FMap.get s.poison (unitKey 2 ((a + i) / 8))
    | none => false
/-- A machine check that an engine finds in a gang's work is taken in its lowest fragment (21 R349). Assumption 30: DEDUCED. -/
def State.engineCheck (s : State) (gid : Nat) (tval : Word) (taddr : Nat) : State :=
  match s.gang? gid with
  | none => s
  | some g => match g.frags with
    | f :: _ => s.trapIn gid g f .machineCheck tval (BitVec.ofNat 64 taddr) true
    | [] => s
/-- A RINGLD is performed (17 R308): its operation takes the values it read; without a flag it completes at once. -/
def State.ringLoaded (s : State) (gid : Nat) (c : Cmd) (vw : List (Nat × Word)) (tags : List (Nat × Tag)) : State :=
  match s.gang? gid with
  | none => s
  | some g =>
    let s1 := s.updGang gid { g with asyncs := g.asyncs.map fun (o : AsyncOp) =>
      if o.id = c.id then { o with vw := vw, tags := tags, hold := 0 } else o }
    match (g.asyncs.find? fun o => o.id == c.id).bind (·.flag) with
    | some _ => s1
    | none => s1.opComplete gid c.id

/-- Ring stores that a RINGLD waits for: its gang's, which have set out ahead of it, and those of its chain's other gangs that issued ahead of
it and that no unresolved guard holds, whose barrier or event it may follow (18 R317). -/
def State.ringAhead (s : State) (gid : Nat) (c : Cmd) : Bool :=
  (s.stores.any fun (x : RingStore) => x.gang == gid || (x.chain == c.addr2.toNat && decide (x.id < c.id))) ||
    s.gangList.any fun e => e.1 != gid && (e.2.rq.takeWhile fun y => !e.2.headHeld y).any fun y => match y.instr with
      | .ringst _ _ _ _ => y.addr2 == c.addr2 && decide (y.id < c.id)
      | _ => false
/-- The head of the render queue goes while it is discarded, is a RINGST, whose pixels set out, is a RINGLD that no
earlier store holds, or is a query whose slot has no earlier query in flight (17 R291, R303). Assumption 44: DEDUCED. -/
def State.sweepRender : Nat → State → Nat → State
  | 0, s, _ => s
  | n + 1, s, gid =>
    match s.gang? gid with
    | none => s
    | some g => match g.rq with
      | c :: r =>
        let s1 := s.updGang gid { g with rq := r }
        let lanes := g.guardedLanes c
        if g.headFalse c then State.sweepRender n ((s1.lowerMates c).dropOp gid c.id) gid
        else if g.headHeld c then s
        else match c.instr, queryOf c.instr with
          | .ringld d _ w64 line cl _, _ =>
            if s.ringAhead gid c then s
            else
              let regs := if lanes = 0 then [] else if w64 then [d.toNat, d.toNat + 1] else [d.toNat]
              let s2 := if s.ringBad c lanes w64 line then s1.engineCheck gid 5 0 else s1
              State.sweepRender n (s2.ringLoaded gid c (s.ringFetch c lanes d w64 line) (regs.map fun r => (r, cl))) gid
          | .ringst _ _ w64 _, _ =>
            State.sweepRender n { s1 with stores := s1.stores ++ [c.ringStore gid lanes w64] } gid
          | _, some q =>
            let sl := FMap.get g.queries q
            if sl.cmd.isSome then s
            else
              let c1 : Cmd := { c with guard := none, mates := [{ c.mate with lanes := lanes }] }
              State.sweepRender n (s.updGang gid { g with rq := r, queries := FMap.put g.queries q { sl with cmd := some c1 } }) gid
          | _, none => s
      | [] => s

/-- What can leave the heads of a gang's engine queues leaves them. Assumption 18: DEDUCED. -/
def State.sweep (s : State) (gid : Nat) : State :=
  ((s.sweepMatrix 17 gid).sweepCopy 9 gid).sweepRender 17 gid

/-- The render queues that hold commands go on, for a store of theirs or of another gang has landed. -/
def State.sweepRings (s : State) : State :=
  (s.gangList.filter fun e => !e.2.rq.isEmpty).foldl (fun (s : State) e => s.sweep e.1) s

/-! ### Issue (17 R291, R292) -/

/-- The checks of a command under its guard (R292): without one a failure is raised; with one the sequencer waits until the
slot has resolved in every slice, and the checks are made again over the slices it is true in. The command goes on with the
lanes last checked, and acts for no other: a command without an effect per lane whose check failed, and which no lane of those slices takes
part in, so moves nothing. Assumption 20: DEDUCED. -/
def guardedCheck (s : State) (g : Gang) (f : Frag) (guard : Option GSlot) (chk : Word → Option Result) (go : Word → Result) :
    Result :=
  match chk (g.taking f) with
  | none => go (g.taking f)
  | some r => match guard with
    | none => r
    | some n => match g.guardOut f.slices n with
      | none => hold s g f
      | some m =>
        if m = 0 then go 0
        else match chk (g.taking f &&& sliceMask m) with
          | none => go (g.taking f &&& sliceMask m)
          | some r' => r'

/-- A command as it issues, without its captured data. -/
def State.newCmd (s : State) (g : Gang) (f : Frag) (i : Instr) (e : EngCtl) : Cmd :=
  { id := s.nextOp, instr := i, data := [], addr := 0, addr2 := 0, guard := e.guard
    mates := [{ gid := s.gang, lanes := g.taking f, slices := f.slices, flag := f.boundFlag e.flag, batch := g.nextN }] }

/-- A command of scope L over the lanes that its checks passed for. -/
def Cmd.over (c : Cmd) (w : Word) : Cmd := { c with mates := c.mates.map fun (m : Mate) => { m with lanes := w } }
/-- Raise a flag of a fragment, if it has one. -/
def Gang.raiseOpt (g : Gang) (sls : BitVec 4) (n : Option Nat) : Gang :=
  match n with
  | some k => g.raiseFlag sls k
  | none => g

/-- Put a command into its queue: it raises its flag, the item passes, and what can leave the queues at once leaves. -/
def State.enqueueCmd (s : State) (g : Gang) (f : Frag) (q : EngQ) (c : Cmd) : State :=
  let g1 := g.raiseOpt f.slices c.mate.flag
  let g2 := g1.setCmds q (g1.cmds q ++ [c])
  let g3 := match q with
    | .matrix => { g2.joinBatch with named := g2.named ++ (cmdNames c.instr).map fun k => (none, k) }
    | _ => g2
  let (g4, f1) := g3.completeItem f []
  (State.setCur { s with nextOp := s.nextOp + 1 } g4 f1.pass).sweep s.gang

/-- The shape of an engine command of scope L: check 11 and the command's own checks under its guard, a stall while its
queue is full or its flag's count cannot rise, then its entry into the queue with what it captures. -/
def engineRun (s : State) (i : Instr) (e : EngCtl) (q : EngQ) (chk : Gang → Frag → Word → Option Result)
    (cap : Gang → Frag → Word → Cmd → Cmd) : Result :=
  withCur s fun g f =>
    if f.laneStall i then .next s
    else
      let all := fun w => match overAlloc g.regs g.accs (s.tilesOf g) g.aw i with
        | some t => some (takeTrap s g f .illegal t 0 true)
        | none => chk g f w
      guardedCheck s g f e.guard all fun w =>
        if g.engFull q || g.flagStall f e.flag then .next s
        else .next (s.enqueueCmd g f q (cap g f w ((s.newCmd g f i e).over w)))

/-- An address check as a command's check: a failing lane traps, a parked one parks. -/
def addrCheck (s : State) (g : Gang) (f : Frag) (acc : Acc) (c : Nat → Chk) (l : List (Nat × Nat)) : Option Result :=
  match firstBad c l with
  | none => none
  | some (ln, .bad kind va) => some (memFault s g f true ln kind va)
  | some (_, _) => some (parkAt s g f acc true (parkedOf c l))

end Sys2Proof.Machine
end

