-- ==== Sys2Proof/Machine/Matrix.lean ====
section
/-! DEFINITION. The matrix engine: its values (02 R48 to R54), its operand layouts (15 R260 to R263), its commands (17 R293 to
R297), batches (15 R270, R272), the operand-ready fence (15 R273) and the governor (15 R275). -/

namespace Sys2Proof.Machine

/-! ### Pairs (15 R260, 02 R51) -/

/-- B codes accepted with an A code (R260). Assumption 31: DEDUCED. -/
def pairOk (a b : Nat) : Bool :=
  match a with
  | 4 => b == 4
  | 5 => [5, 20, 21].contains b
  | 6 => b == 6
  | 7 | 8 => [7, 8, 19, 17, 18, 16, 20, 21].contains b
  | 9 | 10 => [9, 10, 11, 17, 18, 16].contains b
  | 11 => b == 11
  | 12 | 13 => b == 12 || b == 13
  | _ => false
/-- Integer path (02 R54). Assumption 31: DEDUCED. -/
def intPath (a : Nat) : Bool := a == 12 || a == 13
/-- Depth K of an A code (R260, R261). -/
def depthOf (a : Nat) : Nat := 16 * elemsPerWord a
/-- Steps of a 32-row operation (R260). -/
def stepsOf (a : Nat) : Nat := if a == 9 || a == 10 then 16 else 32
/-- Tag of a result (R260). -/
def resultTag (a : Nat) : Tag := if intPath a then Tag.i32 else Tag.f32

/-! ### Values -/

/-- Little-endian words of a B panel's data and of its sidecar (15 R262, R263), as the read of their element of a number finds them. -/
structure Panel where
  data : Nat → Nat → Word
  side : Nat → Nat → Word

/-- Words of a column of a panel that an operation reads (R262). -/
def panelWords (ac bc : Nat) : Nat := (depthOf ac + elemsPerWord bc - 1) / elemsPerWord bc
/-- Raw element of the panel at depth `j` of column `c` (R262). -/
def Panel.raw (p : Panel) (code j c : Nat) : Nat :=
  let e := elemsPerWord code
  elem code (p.data (16 * c + j / e) (j % e)) (j % e)
/-- Value of an element without its group scale (02 R48, R49). -/
def Panel.val (p : Panel) (code j c : Nat) : Val :=
  let x := p.raw code j c
  if code = 20 || code = 21 then
    ofInt (elemInt code x * 2 ^ bitsOf (p.side (4 * c + 1) (j / 4)).toNat (2 * (j / 4) + 1) (2 * (j / 4))) 0
  else if 16 ≤ code && code ≤ 19 then
    let sc := (byteOf (p.side (4 * c + j / 16) (j / 4 % 4)) (j / 4 % 4)).toNat
    if sc = 0xFF then .nan else (elemVal code x).mul (.fin false 1 ((sc : Int) - 127))
  else elemVal code x
/-- Group scale of a chunk (02 R49, R52). -/
def Panel.scale (p : Panel) (code q c : Nat) : Val :=
  if code = 20 || code = 21 then Fmt.bf16.decode (bitsOf (p.side (4 * c + q / 4) (q / 2 % 2)).toNat (16 * (q / 2 % 2) + 15) (16 * (q / 2 % 2))) else .fin false 1 0

/-- A scaled chunk sum, rounded (02 R52, R53): any NaN, ∞ × 0 or opposite infinities give the canonical NaN; an exactly zero
sum is −0 only if every scaled product is −0. -/
def chunkSum (p : Panel) (ac bc : Nat) (hn : Int) (a : Nat → Nat) (q c : Nat) : Word :=
  let prods := (List.range 16).map fun i =>
    let j := 16 * q + i
    (((elemVal ac (a j)).mul (p.val bc j c)).mul (p.scale bc q c)).mul (.fin false 1 hn)
  toF32 .rne (match prods with
    | [] => .fin false 0 0
    | x :: r => r.foldl (Val.add .rne) x)
/-- One element of a result row (02 R52 to R54) from the row's A elements. -/
def matElem (p : Panel) (ac bc : Nat) (hn : Int) (a : Nat → Nat) (acc : Word) (c : Nat) : Word :=
  if intPath ac then
    BitVec.ofInt 32 ((acc.toInt) + (List.range (depthOf ac)).foldl (fun (s : Int) j =>
      s + elemInt ac (a j) * elemInt bc (p.raw bc j c)) 0)
  else (List.range (depthOf ac / 16)).foldl (fun acc q => f32Add .rne acc (chunkSum p ac bc hn a q c)) acc
/-- Normalisation exponent of a rotation (02 R51). -/
def hnExp (rot : Nat) : Int := if rot = 1 then -4 else if rot = 2 then -5 else 0

/-! ### What the engine reads (13 R238, 15 R273) -/

/-- What outstanding work writes, or what was written while a batch named it, the engine reads as undefined (01 R21). -/
def Gang.engOpen (g : Gang) (k : Nat) : Bool := g.clash.contains k || g.asyncs.any fun o => o.tags.any fun t => t.1 == k
/-- A word of a vector register, for its element `i`. -/
def Gang.engV (g : Gang) (n r lane i : Nat) : Word :=
  if g.engOpen r then Config.freeWord n (32 * r + lane) else Held.pick g.hist n (32 * r + lane) i (g.vraw r lane)
/-- A word of an accumulator. -/
def Gang.engA (g : Gang) (n a row col : Nat) : Word :=
  if g.engOpen (256 + a) then Config.freeWord n (1024 * a + 32 * row + col)
  else Held.pick g.hist n (8192 + 1024 * a + 32 * row + col) 0 (g.aget a row col)
/-- A panel of undefined bytes. Assumption 3: DESIGN CHOICE. -/
def freePanel (n k : Nat) : Panel := ⟨fun w _ => Config.freeWord n (k + w), fun w _ => Config.freeWord n (k + 512 + w)⟩
/-- A tile as a panel. -/
def tilePanel (n : Nat) (g : Gang) (b : Block) (t : Nat) : Panel :=
  if g.engOpen (512 + t) then freePanel n (0x40000 + 1024 * t)
  else
    let rd := fun k i => Held.pick g.hist n k i (b.tileWord k)
    ⟨fun w i => rd (2 ^ 16 + 512 * t + w) i, fun w i => rd (2 ^ 17 + 128 * t + w) i⟩
/-- Element of its word, of a class, that a byte belongs to. -/
def byteElem (code i : Nat) : Nat := i % 4 * elemsPerWord code / 4
/-- Byte `i` of a panel's data and sidecar, in the order of memory. -/
def Panel.byte (p : Panel) (code i : Nat) : Byte :=
  if i < 2048 then byteOf (p.data (i / 4) (byteElem code i)) (i % 4) else byteOf (p.side ((i - 2048) / 4) (i % 4)) (i % 4)
/-- A word of the block's scratchpad as the engine reads it. -/
def State.engSp (s : State) (g : Gang) (b : Block) (w i : Nat) : Word := Held.pick g.hist s.clk (2 ^ 19 + w) i (s.spWord b (2 ^ 19 + w))
/-- A scratchpad panel (15 R268). -/
def State.spPanel (s : State) (g : Gang) (b : Block) (h : Nat) : Panel :=
  ⟨fun w i => s.engSp g b (h / 4 + w) i, fun w i => s.engSp g b (h / 4 + 512 + w) i⟩

/-! ### Checks at issue (15 R264, R268, 17 R294 to R296) -/

/-- The number of a gang of a block. -/
def State.gidOf (s : State) (g : Gang) : Nat := match s.block? g.block with
  | some b => b.gangs.getD g.idx s.gang
  | none => s.gang
/-- Matrix commands that a gang has issued and the engine has not yet performed for it, oldest first; those under a guard that is false
go without effect. -/
def State.cmdsAhead (s : State) (gid : Nat) (g : Gang) : List Cmd :=
  (s.gangList.filterMap fun e => e.2.running).filter (fun (c : Cmd) => c.mates.any fun m => m.gid == gid) ++ g.mq.filter fun c => !g.headFalse c
/-- A command writes a row, or a tile, of a gang. -/
def Cmd.writesFor (c : Cmd) (gid : Nat) : Bool := c.mates.any fun m => m.gid == gid && m.lanes != 0
/-- The tag of a tile once the commands ahead have been performed (15 R269); a tag that another gang has written is visible only after a
barrier of both and an operand-ready fence (R274). Assumption 20: DEDUCED. -/
def State.tileTagAhead (s : State) (gid : Nat) (g : Gang) (t : Nat) : Tag :=
  (s.cmdsAhead gid g).foldl (fun (x : Tag) c =>
    if !c.writesFor gid then x
    else match c.instr with
      | .tld d _ _ _ cl _ => if d.toNat = t then cl else x
      | .tzr d cl _ => if d.toNat = t then cl else x
      | _ => x)
    (match s.block? g.block with
      | some b => (Held.pick g.hist s.clk (2 ^ 18 + t) 0 ((FMap.get b.ttag t).setWidth 32)).setWidth 7
      | none => 0)
/-- The tag of an accumulator once the commands ahead have been performed (15 R269). -/
def State.accTagAhead (s : State) (gid : Nat) (g : Gang) (a : Nat) : Tag :=
  (s.cmdsAhead gid g).foldl (fun (x : Tag) c =>
    if !c.writesFor gid then x
    else match c.instr with
      | .mma _ d _ _ _ _ cl _ => if d.toNat = a then resultTag cl.fcode else x
      | .mvm d _ _ _ _ _ cl _ => if d.toNat = a then resultTag cl.fcode else x
      | .accz d cl _ => if d.toNat = a then cl else x
      | .accwr d _ _ _ _ => if d.toNat = a then c.addr2.setWidth 7 else x
      | _ => x) (g.atagOf a)
/-- The registers of a span whose tags are settled: one that an operation in flight will write is undefined and raises nothing (01 R21,
00 R1). -/
def Gang.settled (g : Gang) (a : VReg) (n : Nat) : List Nat := (span a n).filter fun r => !g.inFlight r
/-- The A run, the pair and the accumulator, which will carry the tag `at_`, of an operation (R264). -/
def matTags (g : Gang) (at_ : Tag) (a : VReg) (c : Tag) (bcode brot : Nat) (d : AReg) : Option Word :=
  let rs := g.settled a 16
  let r0 := rs.headD a.toNat
  let rot := if rs.isEmpty then brot else (g.tagOf r0).rot
  match rs.find? fun r => (g.tagOf r).fcode != c.fcode with
  | some r => some (fmtTval 0 r (g.tagOf r) c)
  | none => match rs.find? fun r => g.tagOf r != g.tagOf r0 with
    | some r => some (fmtTval 0 r (g.tagOf r) (g.tagOf r0))
    | none =>
      if !pairOk c.fcode bcode || rot != brot || (rot == 2 && c.fcode == 4) then
        some (fmtTval 0 r0 (g.tagOf r0) 0)
      else
        if at_ == resultTag c.fcode || (intPath c.fcode && at_ == Tag.raw) then none
        else some (fmtTval 1 d.toNat at_ (resultTag c.fcode))
/-- The tile's tag, then the rest. Assumption 20: DEDUCED. -/
def State.mmaTags (s : State) (gid : Nat) (g : Gang) (a : VReg) (t : TReg) (c : Tag) (bcode : BitVec 5) (d : AReg) : Option Word :=
  let tt := s.tileTagAhead gid g t.toNat
  match (g.settled a 16).find? fun r => (g.tagOf r).fcode != c.fcode with
  | some r => some (fmtTval 0 r (g.tagOf r) c)
  | none => if tt.fcode ≠ bcode.toNat then some (fmtTval 2 t.toNat tt (Tag.ofCode bcode))
    else matTags g (s.accTagAhead gid g d.toNat) a c bcode.toNat tt.rot d
/-- A tag failure as a command's check. -/
def fmtCheck (s : State) (g : Gang) (f : Frag) (t : Option Word) : Option Result := t.map fun w => takeTrap s g f .format w 0 true

/-- The slice whose scalars an acts-once command reads among lanes `w` (14 R243). Assumption 22: DEDUCED. -/
def lowTaking (f : Frag) (w : Word) : Nat :=
  (f.sliceList.find? fun sl => w &&& sliceMask (putBit 0 sl true) != 0).getD (lowSlice f.slices)

/-! ### Issue -/

/-- MMA under scope G or S issues after its rendezvous for all members (R267): it enters each member gang's queue and joins
each one's open batch; while a queue is full, or a flag cannot rise, it waits. Assumption 31: DEDUCED. -/
def mmaIssue (i : Instr) (e : EngCtl) (sc : Scope) (s : State) (ps : List Party) : State :=
  if ps.any fun p => p.g.engFull .matrix || p.fs.any fun f => p.g.flagStall f e.flag then s
  else
    let mates := ps.flatMap fun p => p.fs.map fun f =>
      { gid := p.gid, lanes := p.g.taking f, slices := f.slices, flag := f.boundFlag e.flag, batch := p.g.nextN : Mate }
    let c : Cmd := { id := s.nextOp, instr := i, mates := mates, data := [], addr := 0, addr2 := 0, guard := none }
    finishAll { s with nextOp := s.nextOp + 1 } sc ps (fun p =>
      let g1 := p.fs.foldl (fun (g : Gang) f => g.raiseOpt f.slices (f.boundFlag e.flag)) p.g
      { g1.joinBatch with mq := g1.mq ++ [c], named := g1.named ++ (cmdNames i).map fun k => (none, k) }) fun _ _ => []

def execMma (sc : Scope) (d : AReg) (a : VReg) (t : TReg) (bcode : BitVec 5) (reuse : Bool) (c : Tag) (e : EngCtl) (s : State) :
    Result :=
  let i := Instr.mma sc d a t bcode reuse c e
  match sc with
  | .l => engineRun s i e .matrix (fun g f _ => fmtCheck s g f (s.mmaTags s.gang g a t c bcode d)) fun _ _ _ c => c
  | _ => scopedRun s i sc (fun g _ => s.mmaTags (s.gidOf g) g a t c bcode d) (mmaIssue i e sc)

/-- Check of a handle (R268). -/
def handleChk (b : Option Block) (h : Nat) : Chk := if h % 256 ≠ 0 then .bad 7 h else spChk b 2560 h
/-- What stands for a handle that is undefined and names no panel (01 R21): its operation reads an undefined panel. -/
abbrev noHandle : Nat := 0xFFFFFFFF
/-- Handles of lanes (R294); an undefined one raises nothing (00 R1). Assumption 32: DEDUCED. -/
def mvmHandle (n : Nat) (g : Gang) (b : Option Block) (f : Frag) (h : Handle) (l : Nat) : Nat :=
  match h with
  | .scal r => (f.captured (l / 8) r).toNat
  | .vec r =>
    let x := (g.vget n r.toNat l).toNat
    if g.busyV r.toNat && handleChk b x != .ok then noHandle else x
def execMvm (d : AReg) (a : VReg) (h : Handle) (bcode : BitVec 5) (brot : BitVec 2) (reuse : Bool) (c : Tag) (e : EngCtl)
    (s : State) : Result :=
  engineRun s (.mvm d a h bcode brot reuse c e) e .matrix
    (fun g f w =>
      let hv := match h with
        | .vec r => if g.busyV r.toNat || intTagPass Tag.i32 (g.tagOf r.toNat) then none else some (fmtTval 0 r.toNat (g.tagOf r.toNat) Tag.i32)
        | .scal _ => none
      match fmtCheck s g f (match hv with
        | some t => some t
        | none => matTags g (s.accTagAhead s.gang g d.toNat) a c bcode.toNat brot.toNat d) with
      | some r => some r
      | none => addrCheck s g f .load (handleChk (s.block? g.block)) (((lanesOf w).map fun l => (l, mvmHandle s.clk g (s.block? g.block) f h l)).filter fun e => match h with
          | .vec r => !(g.busyV r.toNat && e.2 == noHandle)
          | .scal _ => true))
    fun g f _ c => { c with data := (List.range 32).map fun l => BitVec.ofNat 32 (mvmHandle s.clk g (s.block? g.block) f h l) }

/-- Address of a tile move (R295). -/
def tileAddr (f : Frag) (sl : Nat) (base : Base) (disp : BitVec 26) : Nat := onceAddr f sl base (disp.signExtend 64)
/-- Check of a tile move of `n` bytes. -/
def State.tileChk (s : State) (g : Gang) (base : Base) (acc : Acc) (n a : Nat) : Chk :=
  if a % 64 ≠ 0 then .bad 7 a
  else match base with
    | .glob _ => s.chk (s.whoGang g) acc a n
    | .sp _ => spChk (s.block? g.block) n a
/-- Bytes of a tile move. -/
def tileBytes (sc : Bool) : Nat := if sc then 2560 else 2048
/-- TLD and TST. -/
def tileMove (s : State) (i : Instr) (base : Base) (sc : Bool) (disp : BitVec 26) (acc : Acc) (e : EngCtl) : Result :=
  engineRun s i e .matrix
    (fun g f w => if w = 0 then none
      else addrCheck s g f acc (s.tileChk g base acc (tileBytes sc)) [(0, tileAddr f (lowTaking f w) base disp)])
    fun _ f w c => { c with addr := BitVec.ofNat 64 (tileAddr f (lowTaking f w) base disp) }
def execTld (d : TReg) (base : Base) (sc : Bool) (disp : BitVec 26) (c : Tag) (e : EngCtl) (s : State) : Result :=
  tileMove s (.tld d base sc disp c e) base sc disp .load e
def execTst (a : TReg) (base : Base) (sc : Bool) (disp : BitVec 26) (e : EngCtl) (s : State) : Result :=
  tileMove s (.tst a base sc disp e) base sc disp .store e
def execTzr (d : TReg) (c : Tag) (e : EngCtl) (s : State) : Result :=
  engineRun s (.tzr d c e) e .matrix (fun _ _ _ => none) fun _ _ _ c => c
def execAccz (d : AReg) (c : Tag) (e : EngCtl) (s : State) : Result :=
  engineRun s (.accz d c e) e .matrix (fun _ _ _ => none) fun _ _ _ c => c
def execAccrd (d : VReg) (a : AReg) (n : NCols) (c0 : BitVec 5) (e : EngCtl) (s : State) : Result :=
  engineRun s (.accrd d a n c0 e) e .matrix (fun _ _ _ => none) fun _ _ _ c => c
/-- Tags of an ACCWR's span (R296): one common tag that an accumulator can carry. -/
def accwrTags (g : Gang) (a : VReg) (n : Nat) : Option Word :=
  match g.settled a n with
  | [] => none
  | r0 :: rs =>
    let t := g.tagOf r0
    match rs.find? fun r => g.tagOf r != t with
    | some r => some (fmtTval 0 r (g.tagOf r) t)
    | none => if accTagOk t then none else some (BitVec.ofNat 32 (r0 + 1024 + 2 ^ 16 * t.toNat))
/-- The tag an ACCWR takes over: its settled registers', and for a span that is undefined one that an accumulator can carry. -/
def accwrTag (clk : Nat) (g : Gang) (a : VReg) (n : Nat) : Tag :=
  match g.settled a n with
  | r0 :: _ => g.tagOf r0
  | [] => let t := freeTag clk a.toNat
          if accTagOk t then t else Tag.raw
def execAccwr (d : AReg) (a : VReg) (n : NCols) (c0 : BitVec 5) (e : EngCtl) (s : State) : Result :=
  engineRun s (.accwr d a n c0 e) e .matrix (fun g f _ => fmtCheck s g f (accwrTags g a n.count))
    fun g _ _ c => { c with addr2 := (accwrTag s.clk g a n.count).setWidth 64 }

/-! ### What a command does (15 R265, R269) -/

/-- The first poisoned memory that a command of a gang's batch consumed, or zero where it was no memory, is kept with the batch (R272). -/
def State.notePoison (s : State) (gid : Nat) (n : Byte) (bad : Option Nat) : State :=
  match bad, s.gang? gid with
  | some pa, some g => s.updGang gid (g.onBatch n fun b => if b.poison.isSome then b else { b with poison := some pa })
  | _, _ => s
/-- Words of rows of a gang's accumulator, written by its engine (15 R269). -/
def Gang.engPutA (g : Gang) (d : Nat) (ws : List (Nat × Nat × Word)) : Gang :=
  { ws.foldl (fun (g : Gang) u => g.aput d u.1 u.2.1 u.2.2) g with
    hist := Held.drop g.hist (ws.map fun u => 8192 + 1024 * d + 32 * u.1 + u.2.1) }
/-- A panel of a block's tiles, or of its scratchpad, holds poison in what an operation on a pair of classes reads (12 R216). -/
def Block.panelBad (b : Block) (t ac bc : Nat) : Bool :=
  !b.bad.isEmpty && (FMap.get b.bad (32768 + t) || (List.range 32).any fun c =>
    ((List.range (panelWords ac bc)).any fun w => FMap.get b.bad ((2048 * t + 64 * c + 4 * w) / 8)) ||
      (decide (16 ≤ bc) && (FMap.get b.bad (16384 + (512 * t + 16 * c) / 8) || FMap.get b.bad (16384 + (512 * t + 16 * c) / 8 + 1))))
/-- Where an operation consumes poison in a scratchpad panel. -/
def State.spPanelBad (s : State) (b : Block) (h ac bc : Nat) : Option Nat :=
  if s.poison.isEmpty then none
  else ((List.range 32).findSome? fun c => match s.spPoison b (h + 64 * c) (4 * panelWords ac bc) with
    | some x => some x
    | none => if 16 ≤ bc then s.spPoison b (h + 2048 + 16 * c) 16 else none).map (·.2)
/-- The A run's rows, or the accumulator's, hold poison (12 R216). -/
def Gang.rowsBad (g : Gang) (rows : List Nat) (d : AReg) (a : VReg) : Bool :=
  !g.bad.isEmpty && !rows.isEmpty && (FMap.get g.bad (16640 + d.toNat) ||
    (List.range 16).any (fun k => FMap.get g.bad (16384 + a.toNat + k) || rows.any fun r => FMap.get g.bad (32 * (a.toNat + k) + r)) ||
    rows.any fun r => (List.range 32).any fun c => FMap.get g.bad (8192 + 1024 * d.toNat + 32 * r + c))
/-- Rows of one gang, and the result tag once a row is written. Rows of an operation that consumed poison, in them or in its panel, hold
undefined values (15 R272). -/
def State.matRows (s : State) (gid : Nat) (n : Byte) (rows : List Nat) (d : AReg) (a : VReg) (ac bc : Nat)
    (p : Gang → Block → Panel × Option Nat) : State :=
  match s.gang? gid with
  | none => s
  | some g =>
    let (pn, pbad) := p g ((s.block? g.block).getD {})
    let bad := if rows.isEmpty then none else match pbad with
      | some pa => some pa
      | none => if g.rowsBad rows d a then some 0 else none
    let e := elemsPerWord ac
    let hn := hnExp (g.tagOf a.toNat).rot
    let upd := rows.flatMap fun r => (List.range 32).map fun c =>
      (r, c, if bad.isSome then Config.freeWord s.clk (0x50000 + 1024 * d.toNat + 32 * r + c)
        else matElem pn ac bc hn (fun j => elem ac (g.engV s.clk (a.toNat + j / e) r (j % e)) (j % e)) (g.engA s.clk d.toNat r c) c)
    let g1 := g.engPutA d.toNat upd
    (s.updGang gid (if rows.isEmpty then g1 else g1.setAtag d.toNat (resultTag ac))).notePoison gid n bad
/-- The reuse latch after an operation of a gang (15 R266): with the reuse bit it covers the run in every member's file; without, or of another
run, it is released. -/
def State.latchAfter (s : State) (gid : Nat) (c : Cmd) (a : VReg) (cl : Tag) (reuse : Bool) : State :=
  match s.gang? gid with
  | none => s
  | some g =>
    let ms := (c.mates.map (·.gid)).eraseDups
    let files := ms.filterMap fun m => (s.gang? m).map (·.idx)
    s.updGang gid { g.dropLatch with
      latch := g.dropLatch.latch ++ (if reuse then ms.filterMap fun m => (s.gang? m).map fun x =>
        (x.idx, { run := a, cls := cl, op := c.id, files := files }) else []) }
/-- The reuse latch of a gang: it stands while it covers every member file. -/
def State.latched (s : State) (g : Gang) : Option Latch :=
  match g.latch.find? fun l => l.1 == g.idx with
  | none => none
  | some l =>
    let held := fun (i : Nat) => match s.block? g.block with
      | some b => match (b.gangs[i]?).bind s.gang? with
        | some x => x.latch.contains (g.idx, l.2)
        | none => false
      | none => false
    if l.2.files.all held then some l.2 else none

/-- Bytes a tile move reads for a tile of a class, and the first poisoned memory (15 R272). Assumption 32: DEDUCED. -/
def State.tileFetch (s : State) (g : Gang) (base : Base) (a n code : Nat) : List Byte × State × Option Nat :=
  match base with
  | .glob _ =>
    let (bs, s1) := s.loadV g true a n
    (bs, s1, (s.poisonAt (s.whoGang g) a n).map (·.2))
  | .sp _ =>
    let b := (s.block? g.block).getD {}
    ((List.range n).map fun i => (s.spPanel g b a).byte code i, s, (s.spPoison b a n).map (·.2))
/-- Write a tile's data, and its sidecar when there are bytes for it; whole units clear their poison (12 R216). -/
def Block.putTile (b : Block) (t : Nat) (bs : List Byte) : Block :=
  let b1 := bs.zipIdx.foldl (fun (b : Block) e =>
    if e.2 < 2048 then { b with tdata := FMap.put b.tdata (2048 * t + e.2) e.1 }
    else { b with tside := FMap.put b.tside (512 * t + (e.2 - 2048)) e.1 }) b
  { b1 with bad := FMap.keep b1.bad fun k => !(k / 256 == t && decide (k < 16384)) && k != 32768 + t &&
      !(decide (2048 < bs.length) && decide (16384 ≤ k) && decide (k < 32768) && (k - 16384) / 64 == t) }
/-- A tile takes bytes and a tag from the engine of a gang; a tile written meanwhile by others holds undefined values.
Assumption 32: DEDUCED. -/
def State.loadTile (s0 : State) (gid : Nat) (g : Gang) (t : Nat) (bs : List Byte) (tag : Tag) (bad : Bool) : State :=
  let s := s0.tileTouched g.block (some gid) true t (tileKeys t ++ (if bs.length ≤ 2048 then [] else sideKeys t) ++ [2 ^ 18 + t])
  match s.block? g.block with
  | none => s
  | some b =>
    let b1 := { b.putTile t bs with ttag := FMap.put b.ttag t tag }
    s.setBlock g.block (if bad || g.clash.contains (512 + t) then b1.spoilTile s.clk t else b1)
/-- The bytes a TST stores, undefined where the tile's units are poisoned, and whether any is (15 R272). Assumption 32: DEDUCED. -/
def State.tileOut (s : State) (g : Gang) (b : Block) (t n : Nat) : List Byte × Bool :=
  let p := tilePanel s.clk g b t
  let bad := fun i => if i < 2048 then FMap.get b.bad ((2048 * t + i) / 8) else FMap.get b.bad (16384 + (512 * t + (i - 2048)) / 8)
  ((List.range n).map fun i => if bad i then Config.freeByte s.clk (0x60000 + i) else p.byte (FMap.get b.ttag t).fcode i, (List.range n).any bad)

/-- The effect of a matrix command other than MVM, of `gid`'s queue. Assumption 30: DEDUCED. -/
def State.matrixEffect (s : State) (c : Cmd) : State :=
  let gid := c.mate.gid
  let n := c.mate.batch
  let rows := lanesOf c.mate.lanes
  match s.gang? gid with
  | none => s
  | some g => match c.instr with
    | .mma _ d a t bc reuse cl _ =>
      let s1 := c.mates.foldl (fun (s : State) m =>
        s.matRows m.gid m.batch (lanesOf m.lanes) d a cl.fcode bc.toNat fun g b =>
          (tilePanel s.clk g b t.toNat, if b.panelBad t.toNat cl.fcode bc.toNat then some 0 else none)) s
      ((c.mates.map (·.gid)).eraseDups).foldl (fun (s : State) m => s.latchAfter m c a cl reuse) s1
    | .tld d base sc _ cl _ =>
      if rows.isEmpty then s
      else
        let (bs, s1, bad) := s.tileFetch g base c.addr.toNat (tileBytes sc) cl.fcode
        (s1.loadTile gid g d.toNat bs cl bad.isSome).notePoison gid n bad
    | .tst a base sc _ _ =>
      if rows.isEmpty then s
      else
        let b := (s.block? g.block).getD {}
        let (bs, bad) := s.tileOut g b a.toNat (tileBytes sc)
        let s0 := s.notePoison gid n (if bad then some 0 else none)
        (match base with
          | .glob _ => s0.storeV g (some gid) (some c.id) 64 c.addr.toNat bs
          | .sp _ =>
            let s1 := s0.spWrite b c.addr.toNat bs
            (match s1.gang? gid with
              | some g1 => s1.updGang gid { g1 with hist := Held.drop g.hist (spKeys c.addr.toNat bs.length) }
              | none => s1))
    | .tzr d cl _ => if rows.isEmpty then s else s.loadTile gid g d.toNat (List.replicate 2560 0) cl false
    | .accz d cl _ =>
      let g1 := g.engPutA d.toNat (rows.flatMap fun r => (List.range 32).map fun c => (r, c, 0))
      s.updGang gid (if rows.isEmpty then g1 else g1.setAtag d.toNat cl)
    | .accrd d a m c0 _ =>
      let src := fun k r => 8192 + 1024 * a.toNat + 32 * r + c0.toNat + k
      let bad := !rows.isEmpty && (FMap.get g.bad (16640 + a.toNat) || rows.any fun r => (List.range m.count).any fun k => FMap.get g.bad (src k r))
      let g1 := (List.range m.count).foldl (fun (g' : Gang) k =>
        let g2 := rows.foldl (fun (g' : Gang) r => g'.vput (d.toNat + k) r
          (if bad then Config.freeWord s.clk (32 * (d.toNat + k) + r) else g.engA s.clk a.toNat r (c0.toNat + k))) g'
        (g2.setTag (d.toNat + k) (g.atagOf a.toNat)).unlatch (d.toNat + k)) g
      let ks := (List.range m.count).flatMap fun k => rows.map fun r => 32 * (d.toNat + k) + r
      if rows.isEmpty then s
      else (s.updGang gid { g1 with hist := Held.drop g.hist ks }).notePoison gid n (if bad then some 0 else none)
    | .accwr d a m c0 _ =>
      let bad := !rows.isEmpty && (List.range m.count).any fun k =>
        FMap.get g.bad (16384 + a.toNat + k) || rows.any fun r => FMap.get g.bad (32 * (a.toNat + k) + r)
      let g1 := g.engPutA d.toNat (rows.flatMap fun r => (List.range m.count).map fun k =>
        (r, c0.toNat + k, if bad then Config.freeWord s.clk (0x50000 + 1024 * d.toNat + 32 * r + c0.toNat + k) else g.engV s.clk (a.toNat + k) r 0))
      (s.updGang gid (if rows.isEmpty then g1 else g1.setAtag d.toNat (c.addr2.setWidth 7))).notePoison gid n (if bad then some 0 else none)
    | _ => s
/-- A command has performed: it is done at once, or, a TST whose stores are on their way to an aperture, once their transport has acknowledged
them (15 R270, 27 R397). -/
def State.performed (s : State) (c : Cmd) : State :=
  let gid := c.mate.gid
  let n := s.opHolds gid c.id
  match s.gang? gid with
  | none => s.matrixDone c
  | some g =>
    if n = 0 then s.matrixDone c
    else s.updGang gid { g with asyncs := g.asyncs ++ [{ id := c.id, slices := c.mate.slices, flag := c.mate.flag, hold := n, batch := some c.mate.batch }] }

/-! ### The engine's steps (15 R269, R275) -/

/-- Steps of the next operation of a command (R260, R267, R268). Assumption 32: DEDUCED. -/
def opSteps (c : Cmd) : Nat :=
  match c.instr with
  | .mma _ _ _ _ _ _ cl _ =>
    stepsOf cl.fcode * (((c.mates.filter fun m => m.lanes != 0).map fun m => m.gid).eraseDups).length
  | .mvm _ _ _ _ _ _ cl _ => if c.mate.lanes = 0 then 0 else stepsOf cl.fcode
  | _ => 0
/-- The next command of a gang can start: its guard has resolved, and it heads every member's queue. -/
def State.canStart (s : State) (g : Gang) : Bool :=
  match g.mq with
  | c :: _ => !g.headHeld c && !g.headFalse c && (c.mates.all fun m => match s.gang? m.gid with
      | some x => (x.mq.head?.map fun y => y.id) == some c.id
      | none => true)
  | [] => false
/-- The gang the engine of a core takes next: round-robin by partition and residency slot (R269). Assumption 32: DEDUCED. -/
def State.nextMatrix (s : State) (core : Nat) : Option Nat :=
  let cs := (s.gangList.filter fun e => e.2.core == core && !e.2.desched && s.canStart e.2).mergeSort fun a b => decide (a.2.slotNo ≤ b.2.slotNo)
  match cs.find? fun e => decide ((s.core core).lastMx ≤ e.2.slotNo) with
  | some e => some e.1
  | none => cs.head?.map fun e => e.1

/-- MATRIX_COMMAND_START (R269) of the gang that is the subject. -/
def execMatrixCommandStart (s : State) : Result :=
  let gid := s.subject
  let s := s.sweepMatrix 17 gid
  match s.gang? gid with
  | none => .next s
  | some g =>
    if (s.gangList.any fun e => e.2.core == g.core && e.2.running.isSome) || s.nextMatrix g.core != some gid then .next s
    else match g.mq with
      | [] => .next s
      | c :: _ =>
        let c1 := match c.guard with
          | some _ => { c with guard := none, mates := [{ c.mate with lanes := g.guardedLanes c }] }
          | none => c
        let s1 := ((c.mates.map fun m => m.gid).eraseDups).foldl (fun (s : State) m => match s.gang? m with
          | some x => s.updGang m { x with mq := x.mq.erase c }
          | none => s) s
        let s2 := match s1.gang? gid with
          | some x => s1.updGang gid { x with running := some c1, steps := opSteps c1 }
          | none => s1
        .next (s2.updCore g.core fun k => { k with lastMx := g.slotNo + 1 })

/-- MATRIX_OPERATION_COMPLETE (R265, R268, R269) of the gang that is the subject, once every step has started: a command's
effect, or MVM's operation on the lowest handle left. -/
def execMatrixOperationComplete (s : State) : Result :=
  let gid := s.subject
  match s.gang? gid with
  | none => .next s
  | some g => match g.running with
    | none => .next s
    | some c =>
      if g.steps ≠ 0 then .next s
      else
        let s0 := s.updGang gid { g with running := none }
        match c.instr with
        | .mvm d a _ bc _ reuse cl _ =>
          let ls := lanesOf c.mate.lanes
          let hs := ls.map fun l => (l, (c.data.getD l 0).toNat)
          let h := hs.foldl (fun m e => min m e.2) (2 ^ 32)
          let now := (hs.filter fun e => e.2 == h).map (·.1)
          let s1 := s0.matRows gid c.mate.batch now d a cl.fcode bc.toNat fun g b =>
            if h = noHandle then (freePanel s.clk (2 ^ 20), none) else (s.spPanel g b h, s.spPanelBad b h cl.fcode bc.toNat)
          let rest := now.foldl (fun (m : Word) l => putBit m l false) c.mate.lanes
          let c1 := { c with mates := [{ c.mate with lanes := rest }] }
          if rest = 0 then .next (((s1.latchAfter gid c a cl reuse).matrixDone c).tryEnd gid)
          else (match s1.gang? gid with
            | some x => .next (s1.updGang gid { x with mq := c1 :: x.mq })
            | none => .next s1)
        | _ => .next ((c.mates.map fun m => m.gid).eraseDups.foldl (fun (s : State) m => s.tryEnd m)
            (((s0.matrixEffect c).performed c).sweep gid))

/-- Release what a batch named (13 R238): a register written meanwhile holds undefined values. Assumption 30: DEDUCED. -/
def State.unname (s : State) (gid : Nat) (n : Byte) : State :=
  match s.gang? gid with
  | none => s
  | some g =>
    let g1 := { g with named := g.named.filter fun x => x.1 != some n }
    let free := g1.clash.filter fun k => !g1.busyV k
    let g2 := { g1 with clash := g1.clash.filter fun k => g1.busyV k }
    let g3 := free.foldl (fun (g : Gang) k =>
      if k < 256 then (List.range 32).foldl (fun g i => g.vput k i (Config.freeWord s.clk (32 * k + i))) g
      else if k < 512 then
        (List.range 1024).foldl (fun g i => { g with a := FMap.put g.a (1024 * (k - 256) + i) (Config.freeWord s.clk (8192 + 1024 * (k - 256) + i)) }) g
      else g) g2
    let s1 := s.updGang gid g3
    match s1.block? g.block with
    | some b => s1.setBlock g.block ((free.filter fun k => decide (512 ≤ k)).foldl (fun (b : Block) k => b.spoilTile s.clk (k - 512)) b)
    | none => s1

/-- BATCH_COMPLETE (15 R270, R272) of the gang that is the subject: the lowest outstanding batch, once all its commands have
finished; poison that a command of it read is a machine check of the gang's lowest fragment. -/
def execBatchComplete (s : State) : Result :=
  let gid := s.subject
  match s.gang? gid with
  | none => .next s
  | some g => match g.batches with
    | b :: r =>
      if b.left ≠ 0 then .next s
      else
        let g1 := { g with batches := r }
        let s1 := s.updGang gid g1
        (match b.poison with
          | some pa => .next ((s1.engineCheck gid (BitVec.ofNat 32 (6 + 256 * b.num.toNat)) pa).tryEnd gid)
          | none => .next (s1.tryEnd gid))
    | [] => .next s

/-- Steps a window may start (R275): the lower of both limits, each 256 when it reads 0 or more than 256. Assumption 33: DESIGN CHOICE. -/
def Core.stepLimit (c : Core) : Nat :=
  let lim := fun (x : BitVec 9) => if x = 0 || 256 < x.toNat then 256 else x.toNat
  min (lim c.mgbudget) (lim c.mgcap)
/-- A new window of 256 clocks, counted from module reset, begins for a core (R275). -/
def State.openWindow (s : State) (core : Nat) : State :=
  let w := (s.clk - s.clk0) / 256
  if (s.core core).window = w then s else s.updCore core fun k => { k with window := w, started := 0 }
/-- GOVERNOR_WINDOW for the core that is the subject. Assumption 33: DESIGN CHOICE. -/
def execGovernorWindow (s : State) : Result := .next (s.openWindow s.subject)
/-- One clock of every engine (R275): a ready step starts, or is held; a core's clock with a held step counts once in MGSTALL, over a read
that clears it in the clock (00 R8). Assumption 33: DESIGN CHOICE. -/
def State.engineClock (s : State) : State :=
  let (s1, held) := (s.gangList.filter fun e => e.2.running.isSome && e.2.steps != 0).foldl (fun (acc : State × List Nat) e =>
    let s1 := acc.1.openWindow e.2.core
    let k := s1.core e.2.core
    if k.started < k.stepLimit then
      ((s1.setCore e.2.core { k with started := k.started + 1 }).updGang e.1 { e.2 with steps := e.2.steps - 1 }, acc.2)
    else (s1, e.2.core :: acc.2)) (s, [])
  held.eraseDups.foldl (fun (s : State) c => s.updCore c fun k =>
    { k with mgstall := if k.mgstall = 0xFFFFFFFF then k.mgstall else k.mgstall + 1 }) s1

/-- MGBUDGET_WRITE (15 R275, R276) by system software. Assumptions 33, 77: DESIGN CHOICE, DEDUCED. -/
def execMgbudgetWrite (core : Nat) (v : Word) (s : State) : Result := .next (s.setMgbudget core v)

/-! ### OPRDY, MFENCE, MWAIT (17 R297) -/

/-- OPRDY (R273): what the gang wrote before is what its engine reads; a tile write of another gang stays open until a barrier of both
(R274). -/
def execOprdy (s : State) : Result := laneRun s .oprdy noTags fun g f => s.finish { g with hist := g.hist.filter fun e => e.1.isSome } f []
/-- MFENCE closes the open batch; it waits while 16 are outstanding (R270). -/
def execMfence (d : SReg) (s : State) : Result :=
  laneRun s (.mfence d) noTags fun g f =>
    if 16 ≤ g.batches.length then hold s g f
    else
      let n := g.nextN
      let b := { g.openB.getD {} with num := n }
      let g1 := { g with batches := g.batches ++ [b], openB := none, nextN := n + 1
                         named := g.named.map fun x => (some (x.1.getD n), x.2) }
      s.finish g1 f [(d, f.all (n.setWidth 32))]
/-- The batch number of an MWAIT, read in the fragment's lowest slice (R289). -/
def batchNum (f : Frag) (b : BatchSrc) : Byte :=
  match b with
  | .imm n => n
  | .scal r => (f.captured (lowSlice f.slices) r).setWidth 8
def execMwait (b : BatchSrc) (s : State) : Result :=
  laneRun s (.mwait b) noTags fun g f =>
    let n := batchNum f b
    if g.batches.any fun x => x.num == n then hold s g f
    else
      let s1 := s.unname s.gang n
      withCur s1 fun g1 f1 => s1.finish g1 f1 []

end Sys2Proof.Machine
end

