-- ==== Sys2Proof/Machine/Ring.lean ====
section
/-! DEFINITION. The strip ring's instructions (17 R307 to R309) and the landing of ring stores (18 R316, 22 R363). -/

namespace Sys2Proof.Machine

/-- A ring-slot violation (21 R336). -/
def ringViolation (s : State) (g : Gang) (f : Frag) (slot reason : Nat) : Result :=
  takeTrap s g f .ringSlot (BitVec.ofNat 32 (slot + 256 * reason)) 0 true

/-- The chain of a gang's launch. -/
def State.gangChain (s : State) (g : Gang) : Option Nat := (s.launch? g.launch).bind (·.chain)
/-- A slot belongs to the chain of a gang's launch. -/
def State.ownSlot (s : State) (g : Gang) (slot : Nat) : Bool :=
  match s.slotChain slot, s.gangChain g with
  | some c, some id => c.id == id
  | _, _ => false

/-- Why a RINGST to a locator's block is a violation (R307). Assumption 44: DEDUCED. -/
def State.ringstBad (s : State) (g : Gang) (loc : Word) (w64 : Bool) : Option Nat :=
  let slot := locSlot loc
  let geo := s.geom slot
  if s.slotState slot ≠ 1 then some 0
  else if !s.ownSlot g slot then some 1
  else if !geo.hasBlock loc then some 2
  else if geo.w64 != w64 then some 3 else none

/-- The first lane whose locator is a violation. Assumption 44: DEDUCED. -/
def firstViolation (bad : Word → Option Nat) (loc : Nat → Word) (w : Word) : Option (Nat × Nat) :=
  (lanesOf w).findSome? fun l => (bad (loc l)).map fun r => (locSlot (loc l), r)

/-- RINGST (R307): helper lanes write nothing. -/
def execRingst (a : VReg) (b : SReg) (w64 : Bool) (e : EngCtl) (s : State) : Result :=
  engineRun s (.ringst a b w64 e) e .render
    (fun g f w => (firstViolation (fun loc => s.ringstBad g loc w64) (fun l => f.captured (l / 8) b) (w &&& ~~~g.helpers)).map fun v =>
      ringViolation s g f v.1 v.2)
    fun g f _ c =>
      let lanes := List.range 32
      { c with
        mates := c.mates.map fun (m : Mate) => { m with lanes := m.lanes &&& ~~~g.helpers }
        data := (lanes.map fun l => g.vget s.clk a.toNat l) ++
          (lanes.map fun l => if w64 then g.vget s.clk (a.toNat + 1) l else 0) ++ lanes.map fun l => f.captured (l / 8) b
        addr2 := BitVec.ofNat 64 ((s.gangChain g).getD 0) }

/-- Why a RINGLD of a line is a violation (R308). Assumption 44: DEDUCED. -/
def State.ringldBad (s : State) (g : Gang) (loc : Word) (w64 : Bool) (line : Byte) : Option Nat :=
  let slot := locSlot loc
  let geo := s.geom slot
  let x0 := bitsOf loc.toNat 12 0
  let st := s.slotState slot
  let row := line.toInt + (geo.halo : Int)
  if x0 % 8 ≠ 0 || geo.w ≤ x0 then some 6
  else if geo.w64 != w64 then some 3
  else if st ≠ 1 && st ≠ 2 && st ≠ 3 then some 0
  else if st = 1 && !s.ownSlot g slot then some 1
  else if row < 0 || (geo.rows : Int) ≤ row then some 4 else none

/-- RINGLD (R308): the read is performed in the gang's order of ring commands (R291); without a flag the lane stream waits for it. -/
def execRingld (d : VReg) (b : SReg) (w64 : Bool) (line : Byte) (cls : Tag) (e : EngCtl) (s : State) : Result :=
  let i := Instr.ringld d b w64 line cls e
  withCur s fun g f =>
    if f.laneStall i then .next s
    else
      let all := fun w => match overAlloc g.regs g.accs (s.tilesOf g) g.aw i with
        | some t => some (takeTrap s g f .illegal t 0 true)
        | none => (firstViolation (fun loc => s.ringldBad g loc w64 line) (fun l => f.captured (l / 8) b) w).map fun v =>
            ringViolation s g f v.1 v.2
      guardedCheck s g f e.guard all fun w =>
        if g.engFull .render || g.flagStall f e.flag then .next s
        else
          let c0 := (s.newCmd g f i e).over w
          let c : Cmd := { c0 with
            mates := c0.mates.map fun (m : Mate) => { m with flag := none }
            data := s.ringCapture line ((List.range 32).map fun l => f.captured (l / 8) b)
            addr2 := BitVec.ofNat 64 ((s.gangChain g).getD 0) }
          let fl := f.boundFlag e.flag
          let regs := if w64 then [d.toNat, d.toNat + 1] else [d.toNat]
          let o : AsyncOp := { id := s.nextOp, slices := f.slices, flag := fl, tags := regs.map fun r => (r, cls), hold := 1 }
          let g1 := g.raiseOpt f.slices fl
          let g2 := { g1 with asyncs := g1.asyncs ++ [o], rq := g1.rq ++ [c] }
          let (g3, f1) := g2.completeItem f []
          let f2 := f1.pass
          let f3 := if fl.isSome then f2 else { f2 with lwait := .op [o.id] }
          .next ((State.setCur { s with nextOp := s.nextOp + 1 } g3 f3).sweep s.gang)

/-- SRATE (R309): the rate in force for a tile, and whether it is coarser than the chain's first rate. -/
def execSrate (d a : SReg) (s : State) : Result :=
  laneRun s (.srate d a) noTags fun g f =>
    if g.taking f = 0 then s.finish g f []
    else
      let loc := f.captured (g.actSlice f) a
      match s.slotChain (locSlot loc) with
      | none => ringViolation s g f (locSlot loc) 5
      | some c =>
        if s.gangChain g ≠ some c.id then ringViolation s g f (locSlot loc) 5
        else
          let t := FMap.get c.tiles (locCol loc / 4)
          let r := if t = 0 then c.rate else t - 1
          s.finish g f [(d, f.all (BitVec.ofNat 32 (r + 4 * b2n (decide (c.rate0 < r)))))]

/-- RING_STORE_LAND (R307, 22 R363) of the store at the subject's place, the first of its gang: its pixels land or are
discarded, and its flag falls. -/
def execRingStoreLand (s : State) : Result :=
  match s.stores[s.subject]? with
  | none => .next s
  | some r =>
    if (s.stores.take s.subject).any fun (x : RingStore) => x.gang == r.gang then .next s
    else
      let s1 := r.pixels.foldl (fun (s : State) p => s.pixelLands r.w64 r.chain p) { s with stores := s.stores.eraseIdx s.subject }
      let s2 := match s1.gang? r.gang, r.flag with
        | some g, some n => s1.updGang r.gang (g.lowerFlag r.slices n)
        | _, _ => s1
      .next s2.sweepRings

end Sys2Proof.Machine
end

