-- ==== Sys2Proof/Machine/Save.lean ====
section
/-! DEFINITION. Pre-emption requests and the hardware save (21 R350 to R356, 05 R108): the context save layout, what leaves a core
with a gang, and what comes back. -/

namespace Sys2Proof.Machine

/-! ### The gang area (R354, R355) -/

/-- Bytes of the gang area. -/
abbrev gangAreaSize : Nat := 0x18000
/-- Bytes of words. -/
def wordsBytes (l : List Word) : List Byte := l.flatMap fun w => leOf 4 w.toNat

/-- The clause that captured set 0 belongs to, and the entries of sets 1 to 8: of the interrupted code while in the handler. -/
def Frag.saveEntered (f : Frag) : Option Entered := if f.inHandler then f.saved else f.entered
def Frag.saveQueue (f : Frag) : List QEntry := if f.inHandler then f.savedQ else f.queue
/-- The captured values of a set in a slice, a register that an earlier lane write is still to give being zero (R354). -/
def Frag.capSet (f : Frag) (sl id : Nat) (cap : Captured) : List Word :=
  (List.range 64).map fun r =>
    if (f.marks ++ f.savedM).any fun m => m.reg.toNat == r && decide (m.clause < id) then 0 else FMap.get (FMap.get cap sl) r
/-- One guard slot (R355). -/
def guardHalf (g : Guard) : Nat :=
  (match g.st with
    | .fals => 0 | .tru => 1 | .unresolved => 2) +
  (match g.bound with
    | none => 0
    | some (r, c) => 0x8000 + 32 * r.toNat + 4 * (match c with
      | .eq => 0 | .ne => 1 | .lt => 2 | .ge => 3 | .gt => 4 | .le => 5 | .bs => 6 | .bc => 7))

/-- A slice's record as (offset, bytes) (R355). -/
def Gang.sliceRecord (g : Gang) (f : Frag) (sl : Nat) : List (Nat × List Byte) :=
  let c := g.copy sl
  let e := f.entered
  [ (0x000, wordsBytes ((List.range 64).map fun n => FMap.get c.s n)),
    (0x100, leOf 8 f.spc.toNat), (0x108, leOf 4 f.lpc.toNat),
    (0x10C, leOf 4 (3 * b2n e.isSome + 16 * (e.map fun x => x.fa.toNat).getD 0 + 256 * (e.map fun x => x.fb.toNat).getD 0 +
      65536 * f.slices.toNat)),
    (0x110, (List.range 8).flatMap fun n => leOf 8 (pcqEntry f.queue[n]?).toNat),
    (0x150, leOf 8 (spendWord f).toNat),
    (0x158, (List.range 12).map fun n => BitVec.ofNat 8 (FMap.get c.flags n)),
    (0x170, (List.range 16).flatMap fun n => leOf 2 (guardHalf (FMap.get c.guards n))),
    (0x190, wordsBytes ((List.range 30).map fun n => g.kslice f c n)),
    (0x208, leOf 8 (c.kget64 102).toNat), (0x210, leOf 4 (c.kget 110).toNat) ]

/-- The gang area as (offset, bytes) (R354). Assumption 42: DEDUCED. -/
def State.gangArea (s : State) (g : Gang) : List (Nat × List Byte) :=
  let inh := g.frags.any fun f => f.inHandler
  let pp := g.frags.any fun f => g.ppSet f
  [ (0x0000, leOf 4 0x10000),
    (0x0004, leOf 4 (b2n inh + 2 * b2n pp + 4 * (g.cls % 4) + 16 * g.live.toNat + 256 * g.exiting.toNat)),
    (0x0008, wordsBytes [g.xm, g.lm, g.hm]), (0x0014, leOf 4 (g.mbstat &&& 0xFFFF0000).toNat), (0x0018, leOf 8 s.ns),
    (0x1400, wordsBytes ((List.range 32).map fun i => FMap.get g.rng i)),
    (0x1480, (List.range 256).map fun n => (g.tagOf n).setWidth 8), (0x1580, (List.range 8).map fun n => (g.atagOf n).setWidth 8),
    (0x2000, (List.range 4).flatMap fun q => (List.range 544).flatMap fun i =>
      leOf 4 (FMap.get (FMap.get g.queries q).words i).toNat),
    (0x8000, wordsBytes ((List.range (32 * g.regs)).map fun i => FMap.get g.v i)),
    (0x10000, wordsBytes ((List.range (1024 * g.accs)).map fun i => FMap.get g.a i)) ] ++
  g.frags.flatMap fun f => f.sliceList.flatMap fun sl =>
    ((g.sliceRecord f sl).map fun p => (0x400 + 0x400 * sl + p.1, p.2)) ++
    ((f.saveEntered.map fun e => (0x4400 + 0x900 * sl, wordsBytes (f.capSet sl e.id e.cap))).toList) ++
    (f.saveQueue.zipIdx.map fun e => (0x4400 + 0x900 * sl + 0x100 * (e.2 + 1), wordsBytes (f.capSet sl e.1.id e.1.cap)))

/-- Write pieces of an area over zeros. -/
def State.writeArea (s : State) (base size : Nat) (ps : List (Nat × List Byte)) : State :=
  ps.foldl (fun (s : State) p => s.hwWrite (base + p.1) p.2) (s.hwWrite base (List.replicate size 0))

/-! ### The block area (R356) -/

/-- Code of a set declaration (08 R170). -/
def setCode (n : Nat) : Nat := if n ≤ 1 then 0 else Nat.log2 n
/-- The block area as (offset, bytes). Assumption 42: DEDUCED. -/
def State.blockArea (s : State) (b : Block) : List (Nat × List Byte) :=
  [ (0x0, (List.range (2048 * b.tiles)).map fun i => FMap.get b.tdata i),
    (0x8000, (List.range (512 * b.tiles)).map fun i => FMap.get b.tside i),
    (0xA000, (List.range 16).map fun n => (FMap.get b.ttag n).setWidth 8),
    (0xA010, leOf 4 (setCode b.setSize)),
    (0x10000, s.spRead b 0 b.scratch) ]

/-! ### Leaving a core (05 R108, R352, R353) -/

/-- A gang leaves its core: vector registers and accumulators are not kept there, and its block leaves once all its gangs have, its
area written when a gang of it was saved by the hardware. -/
def State.deschedule (s : State) (gid : Nat) (hw : Bool) : State :=
  match s.gang? gid with
  | none => s
  | some g =>
    let g1 := { g with
      v := [], vtag := [], a := [], atag := [], desched := true, hwSaved := hw, target := false, saveNow := false
      bad := if hw then g.bad else []
      latch := [], hist := [], named := if hw then g.named else [], openB := if hw then g.openB else none
      queries := g.queries.map fun (q : Nat × QuerySlot) => (q.1, { q.2 with last := [] }) }
    let s1 := s.updGang gid g1
    match s1.block? g.block with
    | none => s1
    | some b =>
      let all := b.gangs.all fun i => match s1.gang? i with
        | some x => x.desched
        | none => true
      let b1 := { b with hwSaved := b.hwSaved || hw }
      if all then
        let s2 := if b1.hwSaved then s1.writeArea b.bsbase.toNat 0x90000 (s1.blockArea b) else s1
        let forChain := g.target && ((s2.core b.core).preempt.bind fun (p : Preempt) => p.chain).isSome
        let s3 := (s2.setBlock g.block { b1 with
          desched := true, byChain := b1.byChain || forChain, tdata := [], tside := [], ttag := [], bad := if b1.hwSaved then b1.bad else [] }).blockLeaves g.block b.core
        (State.fifoSweep { s3 with sp := FMap.keep s3.sp fun a =>
          !(decide (spKey b.core (256 * b.spbase) ≤ a) && decide (a < spKey b.core (256 * b.spbase) + b.scratch)) }
          b.core g.asid)
      else s1.setBlock g.block b1

/-! ### Pre-emption requests (R350, R351) -/

/-- One target fragment of a request: in its handler PP is set, without a handler the hardware saves it at once, at a wait it enters
its handler, and otherwise its scalar stream stops and its lane stream drains. -/
def State.targetFrag (s : State) (gid sl : Nat) (classes : BitVec 4) : State :=
  match s.gang? gid with
  | none => s
  | some g => match g.fragOf sl with
    | none => s
    | some f =>
      let waits := match f.lwait with
        | .none | .op _ => f.parkL.isSome
        | _ => true
      if f.inHandler || (g.low f).kget64 0 = 0 || waits then
        s.trapIn gid g f .preempt (classes.setWidth 32) 0 false
      else s.updGang gid (g.putFrag { f with draining := true })

/-- A pre-emption request on a core with a set of base classes (R350); a second one joins the first under its budget. The trace groups
of a target that wait are discarded (10 R197). Assumption 43: DEDUCED. -/
def State.preempt (s : State) (core : Nat) (classes : BitVec 4) (chain : Option Nat) : State :=
  let here := s.gangList.filter fun e => e.2.core == core && !e.2.desched
  let p : Preempt := match (s.core core).preempt with
    | some p => if here.any fun e => e.2.target then { p with classes := p.classes ||| classes, chain := p.chain <|> chain }
                else { classes := classes, since := s.ns, chain := chain }
    | none => { classes := classes, since := s.ns, chain := chain }
  let s1 := s.updCore core fun k => { k with preempt := some p }
  (here.filter fun e => classes.getLsbD e.2.cls && !e.2.target).foldl (fun (s : State) e =>
    let s2 := match s.gang? e.1 with
      | some g => (s.updGang e.1 { g with target := true }).cgDiscard core fun x => x.gang == e.1
      | none => s
    e.2.frags.foldl (fun (s : State) f => s.targetFrag e.1 (lowSlice f.slices) p.classes) s2) s1

/-- PREEMPTION_REQUEST (R350). Assumption 43: DEDUCED. -/
def execPreemptionRequest (core : Nat) (classes : BitVec 4) (s : State) : Result := .next (s.preempt core classes none)

/-! ### The hardware save (R352) -/

/-- The engine has nothing of the gang left that it has accepted, in another gang's set-wide command neither: batches complete, but for
commands that stand behind an unresolved guard, which the engine has not accepted (15 R270, R272). Assumption 42: DEDUCED. -/
def Gang.engineQuiet (g : Gang) : Bool :=
  g.running.isNone && (match g.mq with
    | c :: _ => g.heldCmd c
    | [] => true) && ((g.batches.map (·.left)).foldl (· + ·) ((g.openB.getD {}).left)) == g.mq.length && g.batches.all fun b => b.left != 0

/-- Every operation in flight that waits for nothing completes. -/
def State.settle (s : State) (gid : Nat) : State :=
  match s.gang? gid with
  | none => s
  | some g => (g.asyncs.filter fun o => o.hold == 0).foldl (fun (s : State) o => s.opComplete gid o.id) s

/-- EVWAITs that fragments stand at are abandoned; they register again when they issue again. Assumption 16: DEDUCED. -/
def State.dropEvwaits (s : State) (gid : Nat) : State :=
  match s.gang? gid with
  | none => s
  | some g =>
    let ops := g.frags.filterMap fun f => match f.lwait with
      | .evwait op => some op
      | _ => none
    (s.dropWaiters gid fun w => ops.contains w.op).updGang gid { g with
      asyncs := g.asyncs.filter fun (o : AsyncOp) => !ops.contains o.id }

/-- The save of a gang whose engine work is done; pending trace bits are flushed (10 R193). Assumption 42: DEDUCED. -/
def State.saveGang (s : State) (gid : Nat) : State :=
  let s1 := (s.dropEvwaits gid).settle gid
  match s1.gang? gid with
  | none => s1
  | some g =>
    let s2 := g.frags.foldl (fun (s : State) f => (s.traceFlush g f false).1) (s1.writeArea g.csbase.toNat gangAreaSize (s1.gangArea g))
    let s3 := s2.updCore g.core fun k => { k with hfcnt := if k.hfcnt = 0xFFFFFFFF then k.hfcnt else k.hfcnt + 1 }
    let s4 := match (s3.core g.core).preempt.bind (·.chain) with
      | some cid => (match s3.chain? cid with
        | some c => s3.mlog 7 c.slot c.rate 0 c.frame 0 g.core
        | none => s3)
      | none => s3
    ((s4.drain g.core).notify 4 g.vi 0).deschedule gid true

/-- HARDWARE_SAVE (R340, R352) of the gang that is the subject, a target whose budget of 4,000 ns has expired or that has no handler:
it stops at once, and is saved once its batches have completed. -/
def execHardwareSave (s : State) : Result :=
  let gid := s.subject
  match s.gang? gid with
  | none => .next s
  | some g =>
    let late := match (s.core g.core).preempt with
      | some p => g.target && decide (p.since + 4000 ≤ s.ns)
      | none => false
    if g.desched || g.frags.isEmpty || !(late || g.saveNow) then .next s
    else if g.engineQuiet then .next (s.saveGang gid)
    else .next (s.updGang gid { g with saveNow := true })

/-! ### The restore (R353) -/

/-- A number of an area (R352: past translation and leases). -/
def State.areaNum (s : State) (base off n : Nat) : Nat := leVal (s.hwReadAll (base + off) n)
/-- A tag byte of an area; one that breaks R35 is not taken (01 R27), as in a window (12 R209), and the register reads as RAW. Assumption
87: DESIGN CHOICE. -/
def State.areaTag (s : State) (base off : Nat) (ok : Tag → Bool) : Tag :=
  let t := BitVec.ofNat 7 (s.areaNum base off 1)
  if ok t then t else Tag.raw
/-- Words of an area into a sparse map, the `n` keys from `key`. -/
def State.areaWords (s : State) (base off key n : Nat) (m : FMap Word) : FMap Word :=
  FMap.putAll m ((List.range n).map fun i => (key + i, BitVec.ofNat 32 (s.areaNum base (off + 4 * i) 4)))
/-- A guard slot from its saved half; a slot still bound as it was keeps the place of its GSET. -/
def guardOf (h : Nat) (old : Guard) : Guard :=
  { st := if h % 4 = 1 then .tru else if h % 4 = 2 then .unresolved else .fals
    bound := if h / 2 ^ 15 % 2 = 1 then
        some (BitVec.ofNat 6 (bitsOf h 10 5), (match bitsOf h 4 2 with
          | 0 => .eq | 1 => .ne | 2 => .lt | 3 => .ge | 4 => .gt | 5 => .le | 6 => .bs | _ => .bc))
      else none
    before := old.before }

/-- A slice's copies from its record. -/
def State.restoreCopy (s : State) (g : Gang) (sl : Nat) : SliceCopy :=
  let base := g.csbase.toNat + 0x400 + 0x400 * sl
  let c := g.copy sl
  let ks := (List.range 26).map fun n => (n, BitVec.ofNat 32 (s.areaNum base (0x190 + 4 * n) 4))
  { c with
    s := s.areaWords base 0 0 64 []
    guards := FMap.putAll [] ((List.range 16).map fun n => (n, guardOf (s.areaNum base (0x170 + 2 * n) 2) (FMap.get c.guards n)))
    k := FMap.putAll [] (ks ++ [(102, BitVec.ofNat 32 (s.areaNum base 0x208 4)), (103, BitVec.ofNat 32 (s.areaNum base 0x20C 4)),
      (110, BitVec.ofNat 32 (s.areaNum base 0x210 4))]) }

/-- Captured values of a set from the area, in the slices of a fragment. -/
def State.restoreCap (s : State) (g : Gang) (f : Frag) (e : Nat) : Captured :=
  FMap.putAll [] (f.sliceList.map fun sl => (sl, s.areaWords (g.csbase.toNat + 0x4400 + 0x900 * sl + 0x100 * e) 0 0 64 []))

/-- A fragment at its saved point: what the layout holds comes from the area, the rest the device kept. -/
def State.restoreFrag (s : State) (g : Gang) (f : Frag) : Frag :=
  let base := g.csbase.toNat + 0x400 + 0x400 * lowSlice f.slices
  let st := s.areaNum base 0x10C 4
  let q := (List.range 8).filterMap fun n =>
    let p := BitVec.ofNat 64 (s.areaNum base (0x110 + 8 * n) 8)
    if p.getLsbD 63 then
      let old := (f.queue[n]?).getD { id := f.nextId + n }
      some { old with off := p.setWidth 32, guard := if p.getLsbD 62 then some (p.extractLsb' 58 4) else none
                      cap := if f.inHandler then old.cap else s.restoreCap g f (n + 1) }
    else none
  let inh := f.inHandler && s.areaNum g.csbase.toNat 4 4 % 2 == 1
  let f1 := { f with
    spc := BitVec.ofNat 64 (s.areaNum base 0x100 8), lpc := BitVec.ofNat 32 (s.areaNum base 0x108 4), queue := q, inHandler := inh
    entered := if st % 2 = 1 then f.entered.map fun (e : Entered) => { e with
        fa := BitVec.ofNat 4 (bitsOf st 7 4), fb := BitVec.ofNat 4 (bitsOf st 11 8)
        cap := if f.inHandler then e.cap else s.restoreCap g f 0 } else none
    cls := if inh then 0 else g.cls, ready := 0, draining := false, parkS := none, parkL := none, swait := false
    lwait := match f.lwait with
      | .op ns => .op ns
      | _ => .none }
  if f.inHandler then
    { f1 with saved := f.saved.map fun (e : Entered) => { e with cap := s.restoreCap g f 0 }
              savedQ := f.savedQ.mapIdx fun i (e : QEntry) => { e with cap := s.restoreCap g f (i + 1) } }
  else f1

/-- Resume a descheduled gang on a core it has been placed on (R353); a SYNC is due before its fragments' next packets, which go under new
numbers (10 R195). Assumption 42: DEDUCED. -/
def State.resumeGang (s : State) (g0 : Gang) : Gang :=
  let g := { g0 with
    frags := g0.frags.mapIdx fun i (f : Frag) => { f with tr := { key := g0.trNext + i } }, trNext := g0.trNext + g0.frags.length }
  if g.hwSaved then
    let base := g.csbase.toNat
    let w := s.areaNum base 4 4
    let g1 := { g with
      xm := BitVec.ofNat 32 (s.areaNum base 8 4), lm := BitVec.ofNat 32 (s.areaNum base 12 4)
      hm := BitVec.ofNat 32 (s.areaNum base 16 4), exiting := BitVec.ofNat 4 (bitsOf w 11 8)
      nextN := BitVec.ofNat 8 (s.areaNum base 0x16 1), rng := s.areaWords base 0x1400 0 32 []
      v := s.areaWords base 0x8000 0 (32 * g.regs) [], a := s.areaWords base 0x10000 0 (1024 * g.accs) []
      vtag := FMap.putAll [] ((List.range g.regs).map fun n => (n, s.areaTag base (0x1480 + n) vecTagOk))
      atag := FMap.putAll [] ((List.range g.accs).map fun n => (n, s.areaTag base (0x1580 + n) accTagOk))
      queries := FMap.putAll [] ((List.range 4).map fun q =>
        (q, { FMap.get g.queries q with words := s.areaWords base (0x2000 + 2176 * q) 0 544 [] }))
      copies := FMap.putAll g.copies ((setBits 4 g.live).map fun sl => (sl, s.restoreCopy g sl))
      frags := g.frags.map fun f => s.restoreFrag g f }
    { g1 with desched := false, hwSaved := false, target := false, saveNow := false }
  else
    { g with
      desched := false, target := false, saveNow := false
      frags := g.frags.map fun (f : Frag) => { f with done := false, cls := 0, ready := 0, draining := false } }

/-- The tiles and scratchpad of a block that resumes: from its area when the hardware saved a gang of it, else zero.
Assumption 42: DEDUCED. -/
def State.resumeBlock (s : State) (bid : Nat) (b : Block) : State :=
  if b.hwSaved then
    let base := b.bsbase.toNat
    let bytes := fun (off n : Nat) => FMap.putAll ([] : FMap Byte) ((List.range n).map fun i => (i, BitVec.ofNat 8 (s.areaNum base (off + i) 1)))
    let code := s.areaNum base 0xA010 4 % 4
    let b1 := { b with
      desched := false, hwSaved := false, tdata := bytes 0 (2048 * b.tiles), tside := bytes 0x8000 (512 * b.tiles)
      ttag := FMap.putAll [] ((List.range b.tiles).map fun n => (n, s.areaTag base (0xA000 + n) tileTagOk))
      setSize := if code = 0 then 0 else 2 ^ code }
    let s1 := (s.setBlock bid b1).spClear b.core (256 * b.spbase) b.scratch
    { s1 with sp := Memory.writeAt s1.sp (spKey b.core (256 * b.spbase)) (s.hwReadAll (base + 0x10000) b.scratch) }
  else (s.setBlock bid { b with desched := false }).spClear b.core (256 * b.spbase) b.scratch

end Sys2Proof.Machine
end

