-- ==== Sys2Proof/Machine/Meridian.lean ====
section
/-! DEFINITION. Meridian (22 R357 to R369): admission, completion and the watchdog of strip chains; scan-out, the fallback plane
and reprojection (18 R327 to R330, 22 R367); the ring hand-over (12 R214); and the disciplining of station time (R358). -/

namespace Sys2Proof.Machine

/-! ### Admission, completion, the deadline -/

/-- Cores of a chain's clusters (R359). -/
def Chain.cores (c : Chain) : List Nat := (setBits 168 c.clu).flatMap fun k => (List.range 8).map fun p => 8 * k + p
/-- The first rate of a chain (R365). -/
def State.firstRate (s : State) (rgrp : Nat) : Nat :=
  match FMap.get s.rateLast rgrp with
  | none => 0
  | some (_, true) => 0
  | some (r, false) => r - 1
/-- None of a chain's launches is dispatched; each completes with report status 3 (R362). -/
def State.turnAway (s : State) (c : Chain) : State := c.launches.foldl (fun s l => s.cancelOne l) s

/-- CHAIN_ADMIT (R361, R362, R365) of the chain that is the subject, at S(k): it is admitted when its slot is EMPTY, and is not
admitted while another chain still holds the slot. Assumption 46: DEDUCED. -/
def execChainAdmit (s : State) : Result :=
  match s.chain? s.subject with
  | none => .next s
  | some c =>
    if c.admitted || c.missed || s.ns < c.start then .next s
    else if c.behind then
      .next (((s.setChain { c with missed := true }).mlog 2 c.slot c.rate 0 c.frame 0 0).turnAway c)
    else if !c.ready || s.slotState c.slot ≠ 0 then .next s
    else
      let r := s.firstRate c.rgrp
      let s1 := s.setChain { c with admitted := true, rate := r, rate0 := r }
      let s2 := s1.setSlotState c.slot 1
      let s3 := match c.wslot with
        | some w => s2.setSlotState w 1
        | none => s2
      let s4 := s3.mlog 1 c.slot r 0 c.frame 0 0
      .next (c.cores.foldl (fun (s : State) k =>
        if s.gangList.any fun e => e.2.core == k && !e.2.desched && e.2.cls == 3 then s.preempt k 8 (some c.id) else s) s4)

/-- Every ring store of the chain has landed. (Its launches have completed, so no gang of theirs has one queued, 05 R109.) -/
def State.storesLanded (s : State) (cid : Nat) : Bool := s.stores.all fun (r : RingStore) => r.chain != cid
/-- The chain has at least one launch, and every one has completed (18 R315). -/
def State.launchesDone (s : State) (c : Chain) : Bool :=
  !c.launches.isEmpty && c.launches.all fun l => match s.launch? l with
    | some x => x.complete
    | none => true

/-- STRIP_DONE (18 R315, R365) of the chain that is the subject. -/
def execStripDone (s : State) : Result :=
  match s.chain? s.subject with
  | none => .next s
  | some c =>
    if !c.admitted || c.ended || s.slotState c.slot ≠ 1 || c.deadline ≤ s.ns || !s.launchesDone c || !s.storesLanded c.id then .next s
    else
      let s1 := (s.setSlotState c.slot 2).mlog 4 c.slot c.rate 0 c.frame 0 0
      let s2 := match c.wslot with
        | some w => s1.setSlotState w 0
        | none => s1
      let slack := decide (c.deadline - c.start ≤ 5 * (c.deadline - s.ns))
      .next { s2.setChain { c with ended := true } with
        rateLast := FMap.put s2.rateLast c.rgrp (some (c.rate, slack)) }

/-- STRIP_DEADLINE (R362, R366) of the chain that is the subject, at D(k): a slot still RENDERING turns SUBSTITUTED; a chain that was
not admitted ends, its strip still to be sent from the fallback plane. Assumption 46: DEDUCED. -/
def execStripDeadline (s : State) : Result :=
  match s.chain? s.subject with
  | none => .next s
  | some c =>
    if c.ended || s.ns < c.deadline then .next s
    else if c.admitted then (if s.slotState c.slot = 1 then .next (s.substitute c 5) else .next s)
    else
      let s1 := (s.turnAway c).mlog 5 c.slot 2 0 c.frame 0 0
      let s2 := { s1 with rateLast := FMap.put s1.rateLast c.rgrp (some (2, false)), owed := s1.owed ++ [{ c with ended := true }] }
      .next (s2.deregister c)

/-! ### Consumers (18 R329, R330) -/

/-- Reprojection bank of a consumer (R367). -/
def bankOf : Consumer → Nat
  | .stream n => n.toNat
  | .enc n => 8 + n.toNat
/-- Banks of the consumers that a strip's descriptor enables. -/
def Geom.banks (g : Geom) : List Nat := (g.ser.map fun n => n).toList ++ (g.enc.map fun n => 8 + n).toList
/-- A chain's strip geometry, from its record. -/
def Chain.geo (c : Chain) : Geom := geomOf c.sdesc
/-- A consumer has read the strip's last line. -/
def Chain.lastRead (c : Chain) (bank : Nat) : Bool := decide (c.geo.h < FMap.get c.lines bank)
/-- Another strip of the same tile row of the same encoder and frame (18 R330). -/
def Chain.rowMate (c x : Chain) : Bool :=
  x.geo.enc == c.geo.enc && x.geo.fl / 64 == c.geo.fl / 64 && x.frame == c.frame
/-- A consumer's part of a strip has ended: the serialiser's with the strip's last line (18 R329), an encoder's with the last line of
the row, when every strip that it began with this one has been read (18 R330). -/
def State.partEnded (s : State) (c : Chain) (bank : Nat) : Bool :=
  c.lastRead bank && (decide (bank < 8) || (s.chains ++ s.owed).all fun (x : Chain) =>
    !c.rowMate x || FMap.get x.lines bank == 0 || x.lastRead bank)
/-- Every enabled consumer has finished with the strip (18 R315, R330). -/
def State.allRead (s : State) (c : Chain) : Bool := c.geo.banks.all fun b => s.partEnded c b

/-- A consumer begins a strip; a substituted one latches the pose (R367). -/
def State.beginScan (s : State) (c : Chain) (bank : Nat) (sub : Bool) : Chain :=
  { c with lines := FMap.put c.lines bank 1
           latched := if sub then FMap.put c.latched bank (FMap.get s.active bank) else c.latched }
/-- A chain whose strip a consumer has yet to begin and whose D(k) has passed. -/
def State.toBegin (s : State) (c : Chain) (bank : Nat) : Bool :=
  c.geo.banks.contains bank && FMap.get c.lines bank == 0 && decide (c.deadline ≤ s.ns)
/-- Begin the strip of a chain that holds its slot. Assumption 47: DEDUCED. -/
def State.beginOwner (s : State) (c : Chain) (bank : Nat) : State :=
  let st := s.slotState c.slot
  if st < 2 then s
  else
    let s1 := s.setChain (s.beginScan c bank (st == 4))
    if st = 2 then s1.setSlotState c.slot 3 else s1
/-- Begin the strip of a chain that is owed. -/
def State.beginOwed (s : State) (c : Chain) (bank : Nat) : State :=
  { s with owed := s.owed.map fun (x : Chain) => if x.id = c.id then s.beginScan c bank true else x }

/-- SCANOUT_START (18 R329, R362): the earliest strip of a slot that the consumer has yet to begin. An encoder begins at its
row. Assumption 46: DEDUCED. -/
def execScanoutStart (slot : Byte) (c : Consumer) (s : State) : Result :=
  match c with
  | .enc _ => .next s
  | .stream _ =>
    let own := (s.slotChain slot.toNat).filter fun x => x.slot == slot.toNat && s.toBegin x (bankOf c) && decide (2 ≤ s.slotState x.slot)
    let owed := s.owed.find? fun x => x.slot == slot.toNat && s.toBegin x (bankOf c)
    match own, owed with
    | some x, some y => .next (if x.deadline ≤ y.deadline then s.beginOwner x (bankOf c) else s.beginOwed y (bankOf c))
    | some x, none => .next (s.beginOwner x (bankOf c))
    | none, some y => .next (s.beginOwed y (bankOf c))
    | none, none => .next s

/-- The strips of a row that an encoder has yet to begin: of chains that hold their slots, and owed ones. -/
def State.rowStrips (s : State) (enc row : Nat) : List Chain × List Chain :=
  let inRow := fun (c : Chain) => c.geo.enc == some enc && c.geo.fl / 64 == row && FMap.get c.lines (8 + enc) == 0
  (s.chains.filter fun c => inRow c && !c.behind, s.owed.filter inRow)
/-- Every strip of one frame's row is DONE, SCANNING or SUBSTITUTED, and they hold every line of the row. -/
def State.rowReady (s : State) (row : Nat) (own owed : List Chain) : Bool :=
  let fh := 4 * bitsOf (s.breg 0x401000).toNat 23 12
  own.all (fun c => decide (2 ≤ s.slotState c.slot)) && (List.range 64).all fun k =>
    decide (fh ≤ 64 * row + k) || (own ++ owed).any fun c =>
      decide (c.geo.fl ≤ 64 * row + k) && decide (64 * row + k < c.geo.fl + c.geo.h)

/-- ENCODER_ROW_START (18 R330): once every strip of the 64-line row of one frame is DONE, SCANNING or SUBSTITUTED; of several such
frames, the one with the earliest deadline. Assumption 47: DEDUCED. -/
def execEncoderRowStart (enc : BitVec 2) (row : Nat) (s : State) : Result :=
  let (own, owed) := s.rowStrips enc.toNat row
  let of := fun (l : List Chain) (c : Chain) => l.filter fun (x : Chain) => x.frame == c.frame
  let ready := (own ++ owed).filter fun c => s.rowReady row (of own c) (of owed c)
  match ready.find? fun c => ready.all fun x => decide (c.deadline ≤ x.deadline) with
  | none => .next s
  | some c =>
    let s1 := (of own c).foldl (fun (s : State) x => s.beginOwner x (8 + enc.toNat)) s
    .next ((of owed c).foldl (fun (s : State) x => s.beginOwed x (8 + enc.toNat)) s1)

/-! ### The fallback plane and reprojection (18 R327, R328, 22 R367) -/

/-- Width, height, pixel size and start of the plane (R327). -/
def State.plane (s : State) : Nat × Nat × Nat × Nat :=
  let w := (s.breg 0x401000).toNat
  (bitsOf w 11 0, bitsOf w 23 12, if bitsOf w 24 24 = 1 then 8 else 4, 64 * bitsOf (s.breg 0x401004).toNat 21 0)
/-- Ring offset of a plane pixel. -/
def State.planeAt (s : State) (x y : Nat) : Nat :=
  let (fw, _, ps, base) := s.plane
  base + (y * fw + x) * ps
/-- A pixel of the ring as a dword. -/
def State.ringDword (s : State) (a ps : Nat) : Dword := BitVec.ofNat 64 (leVal (Memory.bytes s.ring a ps))

/-- Mean of 16 channel values of 10 bits. -/
def mean10 (l : List Nat) : Nat := (l.foldl (· + ·) 0 + 8) / 16
/-- Exact mean of 16 F16 values, rounded once. -/
def meanF16 (l : List Nat) : Nat :=
  let sum := match l.map Fmt.f16.decode with
    | [] => Val.fin false 0 0
    | x :: r => r.foldl (fun a b => Val.add .rne a b) x
  Fmt.f16.encode .rne false 0 (sum.mul (.fin false 1 (-4)))
/-- A plane pixel from the 16 pixels of its block (R328). -/
def meanPixel (w64 : Bool) (px : List Nat) : List Byte :=
  if w64 then (List.range 4).flatMap fun k => leOf 2 (meanF16 (px.map fun p => bitsOf p (16 * k + 15) (16 * k)))
  else leOf 4 ((List.range 3).foldl (fun a k => a + 2 ^ (10 * k) * mean10 (px.map fun p => bitsOf p (10 * k + 9) (10 * k))) 0)
/-- The strip of a slot that leaves SCANNING goes into the plane (R328). -/
def State.planeWrite (s : State) (g : Geom) : State :=
  let (fw, fh, _, _) := s.plane
  let cells := (List.range (g.h / 4)).flatMap fun r => (List.range (g.w / 4)).filterMap fun q =>
    let y := g.fl / 4 + r
    if fw ≤ q || fh ≤ y then none
    else
      let px := (List.range 16).map fun k => (s.ringDword (g.at (g.halo + 4 * r + k / 4) (4 * q + k % 4)) g.ps).toNat
      some (s.planeAt q y, meanPixel g.w64 px)
  { s with ring := cells.foldl (fun (m : Memory) e => Memory.writeAt m e.1 e.2) s.ring }

/-- Half a pixel past a coordinate, as an F32. Assumption 47: DEDUCED. -/
def half (x : Nat) : Word := toF32 .rne (.fin false (2 * x + 1) (-1))
/-- One component of the pose: a row of M on (x, y, 1) by FFMA in column order (R367). Assumption 47: DEDUCED. -/
def poseRow (m : List Word) (r x y : Nat) : Word :=
  f32Fma (m.getD (3 * r + 2) 0) 0x3F800000 (f32Fma (m.getD (3 * r + 1) 0) (half y) (f32Fma (m.getD (3 * r) 0) (half x) 0))
/-- clamp(floor(u / w / 4), 0, n − 1); none where u / w is a NaN. -/
def poseIndex (u w : Word) (n : Nat) : Option Nat :=
  let q := toF32 .rne ((f32v u).div (f32v w))
  match f32v (toF32 .rne ((f32v q).div (.fin false 4 0))) with
  | .nan => none
  | .inf neg => some (if neg then 0 else n - 1)
  | .fin neg m e => some (if neg then 0 else min (n - 1) (if 0 ≤ e then m * 2 ^ e.toNat else m / 2 ^ (-e).toNat))
/-- A pixel of a substituted strip (R367). -/
def State.posePixel (s : State) (m : List Word) (x y : Nat) : Dword :=
  let (fw, fh, ps, _) := s.plane
  let w := poseRow m 2 x y
  if fw = 0 || fh = 0 || (f32v w).isNan || !(Val.lt (.fin false 0 0) (f32v w)) then 0
  else match poseIndex (poseRow m 0 x y) w fw, poseIndex (poseRow m 1 x y) w fh with
    | some a, some b => s.ringDword (s.planeAt a b) ps
    | _, _ => 0

/-- The pixels of a strip's line: of the slot, or substituted ones. Assumption 46: DEDUCED. -/
def State.linePixels (s : State) (c : Chain) (bank l : Nat) (sub : Bool) : List Dword :=
  let g := c.geo
  (List.range g.w).map fun x =>
    if sub then s.posePixel (FMap.get c.latched bank) x (g.fl + l) else s.ringDword (g.at (g.halo + l) x) g.ps
/-- A consumer is in the middle of a chain's strip. -/
def Chain.reading (c : Chain) (bank : Nat) : Bool :=
  decide (1 ≤ FMap.get c.lines bank) && decide (FMap.get c.lines bank ≤ c.geo.h)
/-- The chain with one more line read by a consumer. -/
def Chain.readLine (c : Chain) (bank : Nat) : Chain := { c with lines := FMap.put c.lines bank (FMap.get c.lines bank + 1) }

/-- The owed strips that every consumer has finished with are gone. -/
def State.dropOwed (s : State) : State := { s with owed := s.owed.filter fun (x : Chain) => !s.allRead x }

/-- SCAN_LINE_SEND (18 R329, R330): the next line of the strip that a consumer reads. -/
def execScanLineSend (slot : Byte) (k : Consumer) (s : State) : Result :=
  let b := bankOf k
  match s.owed.find? fun c => c.slot == slot.toNat && c.reading b with
  | some c =>
    let px := s.linePixels c b (FMap.get c.lines b - 1) true
    .next (State.dropOwed { s with
      outs := s.outs ++ [Output.line slot k px]
      owed := s.owed.map fun (x : Chain) => if x.id = c.id then c.readLine b else x })
  | none => match (s.slotChain slot.toNat).filter fun c => c.slot == slot.toNat && c.reading b with
    | some c =>
      let px := s.linePixels c b (FMap.get c.lines b - 1) (s.slotState slot.toNat == 4)
      .next (State.dropOwed { s.setChain (c.readLine b) with outs := s.outs ++ [Output.line slot k px] })
    | none => .next s

/-- SCAN_END (18 R315, R328, R365) of the slot that is the subject: every enabled consumer has finished with it. -/
def execScanEnd (s : State) : Result :=
  match s.slotChain s.subject with
  | none => .next s
  | some c =>
    let st := s.slotState c.slot
    if c.slot ≠ s.subject || st < 3 || !s.allRead c then .next s
    else
      let s1 := if st = 3 then s.planeWrite c.geo else s
      .next ((s1.setSlotState c.slot 0).deregister c)

/-- REPROJECTION_COMMIT (R367). -/
def execReprojectionCommit (bank : Nat) (s : State) : Result := .next (if bank < 12 then s.commitBank bank else s)

/-! ### The ring hand-over and station time -/

/-- RING_HANDOVER_COMPLETE (12 R214): the dirty lines in the ring's ways have been written back, the ring reads zero, and the waiting
registrations complete. Which lines stood in those ways is the L2's. Assumption 48: DESIGN CHOICE. -/
def execRingHandoverComplete (s : State) : Result :=
  if s.ringOwn ≠ 1 then .next s
  else
    let lines := (s.dirty.filter fun e => Config.freeBit s.clk e.1).map (·.1)
    let s1 := lines.foldl (fun (s : State) l => s.writeBack l) s
    let done := s1.chains.filterMap fun c => if c.ready then none else c.packet
    let s2 := { s1 with
      ringOwn := 2, ring := [], chains := s1.chains.map fun (c : Chain) => { c with ready := true, packet := none } }
    .next (done.foldl (fun (s : State) p => s.packetReply p.1 p.2 0 0) s2)

/-- PTP_SYNC (R357, R358): the offset measured at a sync; a large forward one is stepped at once while no chain is registered, any
other is slewed until it falls below 100 ns. -/
def execPtpSync (offset : Int) (s : State) : Result :=
  if !(s.breg 0x402000).getLsbD 4 then .next s
  else
    let s1 := { s with offset := offset, syncs := if offset.natAbs < 100 then min 16 (s.syncs + 1) else 0 }
    if 1000000 ≤ offset && s.chains.isEmpty then .next { s1 with time := s1.time + 65536 * offset.toNat, slew := 0 }
    else .next { s1 with slew := if offset.natAbs < 100 then 0 else 65536 * offset }

end Sys2Proof.Machine
end

