-- ==== Sys2Proof/Machine/HostPort.lean ====
section
/-! DEFINITION. The host port (27 R394 to R406, R420): host RDMA, kicks, the queue scheduler, packets, chain registration (22 R359,
R360), interfaces, acknowledgements of remote stores, firmware invalidation, and accesses of system software to registers and core
windows. -/

namespace Sys2Proof.Machine

/-! ### Host RDMA (R396) -/

/-- Checks 2 to 6 of R223 on every byte, as a user access in the interface's context. Assumption 53: DEDUCED. -/
def State.rdmaOk (s : State) (i : Iface) (acc : Acc) (va n : Nat) : Bool :=
  (List.range n).all fun k => match s.xlate i.who acc (va + k) with
    | .ok pa _ _ _ _ _ => s.remoteOk i.asid pa
    | _ => false
/-- Send an answer on a queue pair. -/
def State.send (s : State) (o : Output) : State := { s with outs := s.outs ++ [o] }

/-- RDMA_WRITE: it writes every byte, or none and answers with a remote access error. A write with immediate is a release for the
queue pair's earlier writes, which stand in the L2 already. Assumption 53: DEDUCED. -/
def execRdmaWrite (vi qp : Nat) (va : Dword) (bytes : List Byte) (_immediate : Bool) (s : State) : Result :=
  match s.iface? vi with
  | none => .next s
  | some i =>
    if 64 ≤ qp then .next s
    else if s.rdmaOk i .store va.toNat bytes.length then .next ((s.agentWrite i.who va.toNat bytes).send (.rdmaAck vi qp))
    else .next (s.send (.rdmaNak vi qp))
/-- RDMA_READ: a byte that cannot be read, or is poisoned, answers with a remote access error (12 R216). Assumption 53: DEDUCED. -/
def execRdmaRead (vi qp : Nat) (va : Dword) (len : Nat) (s : State) : Result :=
  match s.iface? vi with
  | none => .next s
  | some i =>
    if 64 ≤ qp then .next s
    else if s.rdmaOk i .load va.toNat len && (s.poisonAt i.who va.toNat len).isNone then
      let (b, s1) := s.agentGet i.who va.toNat len
      .next (s1.send (.rdmaData vi qp b))
    else .next (s.send (.rdmaNak vi qp))
/-- SEND: a release for the queue pair's earlier writes. Assumption 53: DEDUCED. -/
def execRdmaSend (vi qp : Nat) (s : State) : Result :=
  match s.iface? vi with
  | none => .next s
  | some _ => if 64 ≤ qp then .next s else .next (s.send (.rdmaAck vi qp))
/-- An RDMA atomic on eight aligned bytes: it answers with the value it found. Assumption 53: DEDUCED. -/
def execRdmaAtomic (vi qp : Nat) (va : Dword) (op : RdmaAtomic) (s : State) : Result :=
  match s.iface? vi with
  | none => .next s
  | some i =>
    let a := va.toNat
    if 64 ≤ qp then .next s
    else if a % 8 = 0 && s.rdmaOk i .load a 8 && s.rdmaOk i .store a 8 && (s.poisonAt i.who a 8).isNone then
      let (old, s1) := s.agentGet i.who a 8
      let m := BitVec.ofNat 64 (leVal old)
      let new := match op with
        | .fetchAdd v => m + v
        | .cas c n => if m = c then n else m
      .next ((s1.agentWrite i.who a (leOf 8 new.toNat)).send (.rdmaData vi qp old))
    else .next (s.send (.rdmaNak vi qp))

/-! ### Kicks and the queue scheduler (R402, R403) -/

/-- Queues of an interface, with their numbers. -/
def State.queuesOf (s : State) (vi : Nat) : List (Nat × Queue) :=
  s.queues.filterMap fun e => e.2.bind fun q => if q.vi = vi then some (e.1, q) else none
/-- Effective priority after the time spent unmapped with the pending bit set. -/
def Queue.aged (q : Queue) (ns : Nat) : Queue :=
  if q.mapped.isSome || !q.pending then q
  else
    let k := (ns - q.ageNs) / 10000000
    { q with eff := min 7 (q.eff + k), ageNs := q.ageNs + 10000000 * k }
/-- Map a queue onto a slot: its priority returns to the base, and reports that wait are written. -/
def State.mapQueue (s : State) (qn slot : Nat) : State :=
  match s.queue? qn with
  | none => s
  | some q =>
    State.flushReports (q.packets.length + 1)
      (s.setQueue qn { q with mapped := some slot, mappedNs := s.ns, eff := q.base, pending := false }) qn
/-- The mapped queue that is displaced first: of lowest effective priority, then mapped longest. -/
def victim (l : List (Nat × Queue)) : Option (Nat × Queue) :=
  l.foldl (fun acc e => match acc with
    | none => some e
    | some x => if e.2.eff < x.2.eff || (e.2.eff == x.2.eff && decide (e.2.mappedNs < x.2.mappedNs)) then some e else some x) none
/-- The pending queue that is mapped first: of highest effective priority. -/
def foremost (l : List (Nat × Queue)) : Option (Nat × Queue) :=
  l.foldl (fun acc e => match acc with
    | none => some e
    | some x => if x.2.eff < e.2.eff then some e else some x) none
/-- One decision of the scheduler for an interface. -/
def State.schedOnce (s : State) (vi : Nat) : State :=
  match s.iface? vi with
  | none => s
  | some i =>
    let qs := s.queuesOf vi
    let mapped := qs.filter fun e => e.2.mapped.isSome
    match foremost (qs.filter fun e => e.2.pending && e.2.mapped.isNone) with
    | none => s
    | some p =>
      if mapped.length < i.slots then
        let used := mapped.filterMap fun e => e.2.mapped
        s.mapQueue p.1 (((List.range i.slots).find? fun k => !used.contains k).getD 0)
      else match victim mapped with
        | none => s
        | some v =>
          if v.2.eff < p.2.eff then
            (s.setQueue v.1 { v.2 with mapped := none, ageNs := s.ns, pending := v.2.rd != v.2.wr }).mapQueue p.1 (v.2.mapped.getD 0)
          else s
/-- The scheduler runs for an interface until nothing more changes place. Assumption 54: DEDUCED. -/
def State.schedQueues (s : State) (vi : Nat) : State :=
  (s.queuesOf vi).foldl (fun (s : State) _ => s.schedOnce vi) s

/-- A queue with a kick's write index: of kicks in one clock the larger stays, compared within half the ring of 2^32. -/
def Queue.kick (q : Queue) (clk : Nat) (idx : Word) : Queue :=
  { q with wr := if q.kicked = some clk && decide (2 ^ 31 ≤ (idx - q.wr).toNat) then q.wr else idx, kicked := some clk }
/-- The 256 bytes of a queue's control block (R404). -/
def Queue.block (q : Queue) (qn : Nat) : List Byte :=
  leOf 8 q.ring.toNat ++ leOf 4 q.size ++ leOf 4 q.rd.toNat ++ leOf 4 q.wr.toNat ++ leOf 8 q.cring.toNat ++ leOf 4 q.csize ++
    leOf 4 q.reports.toNat ++ leOf 4 ((q.packets.filter fun p => p.report.isSome).length) ++ leOf 2 qn ++ leOf 1 q.vi ++
    leOf 1 (q.base % 8 + if q.error then 8 else 0) ++ leOf 1 q.eff ++ leOf 3 0 ++ leOf 8 q.ageNs ++ q.fw ++ leOf 4 0x00010000

/-- KICK (R402): an identity that the interface does not own discards it. Assumption 54: DEDUCED. -/
def execKick (vi q : Nat) (idx : Word) (s : State) : Result :=
  match s.iface? vi, s.queue? q with
  | some i, some x =>
    if !i.queues.contains q || 4096 ≤ q then .next s
    else if x.mapped.isSome then
      .next { s.setQueue q (x.kick s.clk idx) with feq := s.feq ++ [FeEvent.kick q] }
    else
      let x1 := { x.kick s.clk idx with pending := true, ageNs := if x.pending then x.ageNs else s.ns }
      .next ({ s.setQueue q x1 with feq := s.feq ++ [FeEvent.wake q] : State }.schedQueues vi)
  | _, _ => .next s

/-- QUEUE_AGEING (R403) for the interface that is the subject: priorities rise with the time spent waiting, and the scheduler runs. -/
def execQueueAgeing (s : State) : Result :=
  let vi := s.subject
  let s1 := (s.queuesOf vi).foldl (fun (s : State) e => s.setQueue e.1 (e.2.aged s.ns)) s
  let s2 := { s1 with feq := s1.feq.filter fun e => match e with
    | .wake q => !((s1.queuesOf vi).any fun x => x.1 == q)
    | _ => true }
  .next (s2.schedQueues vi)

/-! ### Taking packets (R398 to R400) -/

/-- Fields of a packet. -/
def pktType (b : List Byte) : Nat := field b 0 1
def pktReservedOk (b : List Byte) : Bool :=
  field b 1 1 / 16 == 0 && field b 2 2 == 0 && field b 61 1 / 2 == 0 && field b 62 2 == 0

/-- The packet at the head of a mapped queue, with what reading it leaves, when it may start: a BARRIER waits for every earlier packet. -/
def State.headPacket (s : State) (qn : Nat) : Option (Queue × Iface × Option (List Byte × State)) :=
  match s.queue? qn with
  | none => none
  | some q =>
    match s.iface? q.vi with
    | none => none
    | some i =>
      if q.mapped.isNone || q.error || q.rd = q.wr || s.boot.resetReq.isSome then none
      else match s.tryGet i.who (q.ring.toNat + 64 * (q.rd.toNat % q.size)) 64 with
        | none => some (q, i, none)
        | some (b, s1) =>
          if (field b 1 1) % 2 = 1 && q.packets.any fun p => p.report.isNone then none else some (q, i, some (b, s1))

/-- Take the head packet. -/
def State.takePacket (s : State) (qn : Nat) (q : Queue) (b : List Byte) : State × Nat :=
  let idx := q.rd.toNat
  let q1 := { q with rd := q.rd + 1, packets := q.packets ++ [{ idx := idx, bytes := b }] }
  let s1 := s.setQueue qn q1
  (if q1.rd = q1.wr then { s1 with feq := s1.feq.filter fun e => e != .kick qn } else s1, idx)

/-- Take the head packet of the queue that is the subject if it is of a kind; a ring that cannot be read sets ERROR (R404). -/
def packetStep (s : State) (kind : List Byte → Bool) (run : State → Nat → Queue → Iface → List Byte → Nat → State) : Result :=
  let qn := s.subject
  match s.headPacket qn with
  | none => .next s
  | some (q, _, none) => .next (s.setQueue qn { q with error := true })
  | some (q, i, some (b, s0)) =>
    if kind b then
      let (s1, idx) := s0.takePacket qn q b
      .next (run s1 qn q i b idx)
    else .next s

/-- PACKET_NOP. -/
def execPacketNop (s : State) : Result :=
  packetStep s (fun b => pktReservedOk b && pktType b == 0) fun s qn _ _ _ idx => s.packetReply qn idx 0 0
/-- INVALID_PACKET (R399, reason 1): an invalid TYPE or a reserved field that is not zero. -/
def execInvalidPacket (s : State) : Result :=
  packetStep s (fun b => !pktReservedOk b || decide (3 ≤ pktType b)) fun s qn _ _ _ idx => s.packetReply qn idx 2 1

/-- The chain that a launch packet naming a slot belongs to (R420): the one registered behind, else the owner. -/
def State.chainFor (s : State) (slot : Nat) : Option Chain :=
  match s.chains.find? fun c => c.slot == slot && c.behind with
  | some c => some c
  | none => s.chains.find? fun c => c.slot == slot

/-- The launch a packet describes, with its kernel's values. -/
def launchOf (vi qn idx tree : Nat) (b : List Byte) (k : KDesc) (chain : Option Nat) : Launch :=
  let cls := bitsOf (field b 1 1) 3 2
  { vi := vi, kd := { k with cls := if cls = 0 then k.cls else cls }, kdesc := BitVec.ofNat 64 (field b 8 8)
    param := BitVec.ofNat 64 (field b 16 8), nx := field b 24 4, ny := field b 28 4, nz := field b 32 4
    seed := bitsOf (field b 1 1) 1 1 == 1, items := BitVec.ofNat 64 (field b 36 8), nitems := field b 44 4
    brep := BitVec.ofNat 64 (field b 48 8), brepn := field b 56 4, chain := chain, tree := tree, packet := some (qn, idx) }

/-- PACKET_LAUNCH (R398, R399, R420, 09 R182): refused, or a root launch of a tree of its own. Reason 3 also answers a descriptor that the
interface's context cannot read, a case that neither 04 R87 nor R399 names; of several failing checks the lowest reason is reported.
Assumption 28: DESIGN CHOICE. A launch of a chain that has ended or was not admitted is cancelled as it is taken. -/
def execPacketLaunch (s : State) : Result :=
  packetStep s (fun b => pktReservedOk b && pktType b == 1) fun s qn _ i b idx =>
    let vi := (s.queue? qn).map (·.vi) |>.getD 0
    let nx := field b 24 4
    let ny := field b 28 4
    let nz := field b 32 4
    let seed := bitsOf (field b 1 1) 1 1 == 1
    if !shapeOk nx ny nz seed (field b 36 8) (field b 44 4) (field b 48 8) (field b 56 4) then s.packetReply qn idx 2 2
    else match s.readKdesc i.who (field b 8 8) with
      | none => s.packetReply qn idx 2 3
      | some (d, s) =>
        let k := kdescOf d
        if !kdescOk d || !kernelFits k (nx * ny * nz) seed then s.packetReply qn idx 2 3
        else
          let named := field b 61 1 % 2 == 1
          match named, s.chainFor (field b 60 1) with
          | true, none => s.packetReply qn idx 2 4
          | _, found =>
            if s.jobsFull vi then s.packetReply qn idx 2 6 else
            let c := if named then found else none
            let lid := s.nextLaunch
            let s1 := s.addLaunch (launchOf vi qn idx lid b k (c.map (·.id)))
            let s2 := { s1 with trees := FMap.put s1.trees lid { c := 1, root := lid } }
            match c with
            | none => s2
            | some c =>
              let s3 := s2.setChain { c with launches := c.launches ++ [lid] }
              if c.ended || c.missed then s3.cancelOne lid else s3

/-! ### Registering a chain (22 R359, R360) -/

/-- Descriptor words at an offset of a chain record. -/
def descAt (r : List Byte) (off : Nat) : Word × Word × Word :=
  (BitVec.ofNat 32 (field r off 4), BitVec.ofNat 32 (field r (off + 4) 4), BitVec.ofNat 32 (field r (off + 8) 4))
/-- The chain that a record describes. Assumption 45: DEDUCED. -/
def chainOf (r : List Byte) (id : Nat) : Chain :=
  let w := field r 23 1
  let ctl := field r 24 1
  { id := id, start := field r 0 8, deadline := field r 8 8, frame := BitVec.ofNat 32 (field r 16 4)
    strip := BitVec.ofNat 16 (field r 20 2), slot := field r 22 1, wslot := if w = 0xFF then none else some w, rgrp := ctl % 16
    psrc := bitsOf ctl 4 4 == 1, clu := BitVec.ofNat 168 (field r 32 21), sdesc := descAt r 64, wdesc := descAt r 76 }
/-- Reserved fields of a chain record are zero. Assumption 45: DEDUCED. -/
def chainRsvOk (r : List Byte) : Bool :=
  field r 24 1 / 32 == 0 && field r 25 7 == 0 && field r 53 11 == 0 && field r 88 40 == 0 &&
    (field r 23 1 != 0xFF || field r 76 12 == 0)
/-- Two ring ranges (start, bytes) have a byte in common. -/
def meetsRange (a b : Nat × Nat) : Bool :=
  decide (a.1 < b.1 + b.2) && decide (b.1 < a.1 + a.2) && decide (0 < a.2) && decide (0 < b.2)
/-- Ring ranges of a chain's slots. Assumption 45: DEDUCED. -/
def Chain.ranges (c : Chain) : List (Nat × Nat) :=
  let f := fun d => ((geomOf d).base, (geomOf d).bytes)
  f c.sdesc :: (c.wslot.map fun _ => f c.wdesc).toList
/-- A strip descriptor obeys R311 and its own rules of R312 and R330. Assumption 45: DEDUCED. -/
def State.descOk (s : State) (d : Word × Word × Word) (work : Bool) : Bool :=
  let g := geomOf d
  d.1.toNat / 2 ^ 29 == 0 && g.work == work && decide (g.rows ≤ 64) && decide (g.base + g.bytes ≤ 2 ^ 28) &&
    (work || ((g.ser.isSome || g.enc.isSome) && g.w64 == (s.breg 0x401000).getLsbD 24 &&
      (g.enc.isNone || ([16, 32, 64].contains g.h && g.fl % g.h == 0))))
/-- The registration is refused (R360, 18 R312, 26 R391): the fallback plane counts as one of the chain's ranges. Assumption 45: DEDUCED. -/
def State.chainRefused (s : State) (r : List Byte) (c : Chain) : Bool :=
  let (fw, fh, ps, base) := s.plane
  let owner := s.chains.find? fun x => x.slot == c.slot && !x.behind
  let others := s.chains.filter fun x => !x.missed && some x.id != owner.map (·.id)
  let mine := c.ranges
  let plane := (base, fw * fh * ps)
  !chainRsvOk r || decide (c.deadline ≤ c.start) || decide (c.start ≤ s.ns) || c.clu == 0 || (c.psrc && c.wslot.isNone) ||
    !s.descOk c.sdesc false || (c.wslot.isSome && !s.descOk c.wdesc true) || s.cryo == .hotStop ||
    (match mine with
      | [a, b] => meetsRange a b
      | _ => false) || c.wslot == some c.slot ||
    (mine.any fun a => meetsRange a plane) || decide (2 ^ 28 < plane.1 + plane.2) ||
    ((plane :: mine).any fun a => others.any fun x => x.ranges.any fun b => meetsRange a b) ||
    (s.chains.any fun x => x.slot == c.slot && x.behind) ||
    (match c.wslot with
      | some w => s.chains.any fun x => x.slot == w || (x.wslot == some w && x.slot != c.slot)
      | none => false) ||
    (s.chains.any fun x => x.wslot == some c.slot)

/-- Registering a chain returns a PEND core of its clusters to RUN (24 R379). -/
def State.unpend (s : State) (c : Chain) : State :=
  c.cores.foldl (fun (s : State) k => if (s.core k).gate = 1 then s.updCore k fun x => { x with gate := 0 } else s) s
/-- PACKET_CHAIN_REGISTER (22 R359, R360, R362, 12 R214): the first registration waits for the ring hand-over. -/
def execPacketChainRegister (s : State) : Result :=
  packetStep s (fun b => pktReservedOk b && pktType b == 2) fun s qn _ i b idx =>
    let a := field b 8 8
    match (if a % 64 = 0 then s.tryGet i.who a 128 else none) with
    | none => s.packetReply qn idx 2 5
    | some (r, s) =>
      let c := chainOf r s.nextChain
      if s.chainRefused r c then s.packetReply qn idx 2 5
      else
        let behind := s.chains.any fun x => x.slot == c.slot
        let ready := s.ringOwn == 2
        let c1 := { c with behind := behind, ready := ready, packet := if ready then none else some (qn, idx) }
        let s1 := { s with chains := s.chains ++ [c1], nextChain := s.nextChain + 1, ringOwn := if ready then 2 else 1 }
        let s2 := (if behind then s1 else s1.takeSlots c1).unpend c1
        if ready then s2.packetReply qn idx 0 0 else s2

/-! ### Interfaces (R395) -/

/-- A queue as its control block starts it (R404). -/
def queueOfParams (vi : Nat) (p : QueueParams) : Queue :=
  { vi := vi, ring := p.ring, size := p.size, cring := p.cring, csize := p.csize, base := p.base % 8, eff := p.base % 8 }
/-- A ring size of R404. -/
def ringSizeOk (n : Nat) : Bool := decide (16 ≤ n) && decide (n ≤ 65536) && n == 2 ^ Nat.log2 n
/-- INTERFACE_CREATE through the management endpoint: within the device's slot quota and on queue identities that no interface owns.
Assumption 58: DEDUCED. -/
def execInterfaceCreate (vi : Nat) (p : IfaceParams) (s : State) : Result :=
  let used := s.ifaces.foldl (fun n e => match e.2 with
    | some i => n + i.slots
    | none => n) 0
  let ids := p.queues.map (·.q)
  if s.boot.recovery then .next (s.send .mgmtError)
  else if 64 ≤ vi || (s.iface? vi).isSome || p.slots = 0 || 256 < used + p.slots || ids.eraseDups.length ≠ ids.length ||
    ids.any (fun q => decide (4096 ≤ q) || (s.queue? q).isSome) ||
    p.queues.any (fun q => q.ring.toNat % 64 != 0 || q.cring.toNat % 64 != 0 || !ringSizeOk q.size || !ringSizeOk q.csize)
  then .next s
  else
    let i : Iface := { asid := p.asid, ptroot := p.ptroot &&& ~~~0xFFFFF#64, slots := p.slots, queues := ids, memQuota := p.memQuota, jobQuota := p.jobQuota
                       share := p.share, regions := p.regions }
    .next (p.queues.foldl (fun (s : State) q => s.setQueue q.q (queueOfParams vi q)) (s.setIface vi i))
/-- INTERFACE_DESTROY: its launches are cancelled and its queues and context go. Assumptions 53, 58: DEDUCED. -/
def execInterfaceDestroy (vi : Nat) (s : State) : Result :=
  match s.iface? vi with
  | none => .next (if s.boot.recovery then s.send .mgmtError else s)
  | some i =>
    let s1 := (s.launchList.filter fun e => e.2.vi == vi && !e.2.complete).foldl (fun (s : State) e => s.cancelLaunch e.1) s
    let s2 := i.queues.foldl (fun (s : State) q => { s with queues := FMap.put s.queues q none }) s1
    .next (State.tlbCtx { s2 with ifaces := FMap.put s2.ifaces vi none } i.asid)
/-- PEER_CONTEXT_BIND (28 R412). Assumption 58: DEDUCED. -/
def execPeerContextBind (vi peer : Nat) (exp : Dword) (s : State) : Result :=
  match s.iface? vi with
  | none => .next (if s.boot.recovery then s.send .mgmtError else s)
  | some i => if 256 ≤ peer then .next s else .next (s.setIface vi { i with peers := FMap.put i.peers peer (some exp) })

/-! ### Acknowledgements of remote stores (R397, 28 R412) -/

/-- The oldest unacknowledged store of a kind is answered: its operation waits for one thing less; a refusal is a memory fault of
kind 5 in its gang's lowest fragment. Assumption 54: DEDUCED. -/
def State.remoteAck (s : State) (peer ok : Bool) : State :=
  match s.remote.find? fun (r : RemoteStore) => r.peer == peer with
  | none => s
  | some r =>
    let s1 := { s with remote := s.remote.erase r }
    let s2 := match r.gang, r.op with
      | some gid, some op => s1.unhold gid op
      | _, _ => s1
    if ok then s2
    else match r.gang with
      | none => s2
      | some gid => match s2.gang? gid with
        | none => s2
        | some g => match g.frags with
          | f :: _ => s2.trapIn gid g f .memory 0x500 (BitVec.ofNat 64 r.va) true
          | [] => s2
/-- HOST_STORE_ACK. Assumption 54: DEDUCED. -/
def execHostStoreAck (ok : Bool) (s : State) : Result := .next (s.remoteAck false ok)
/-- PEER_STORE_ACK. Assumption 54: DEDUCED. -/
def execPeerStoreAck (ok : Bool) (s : State) : Result := .next (s.remoteAck true ok)

/-! ### System software -/

/-- FIRMWARE_INVALIDATE (12 R227): the translations of a context, or of a range widened to whole granules. -/
def execFirmwareInvalidate (asid : Word) (range : Option (Dword × Nat)) (s : State) : Result :=
  match range with
  | none => .next (s.tlbCtx asid)
  | some (b, n) => .next (s.tlbInv asid (b.toNat / 65536 * 65536) ((b.toNat + n + 65535) / 65536 * 65536))
/-- REGISTER_WRITE (00 R8, R9) of a word of the base-layer control range. -/
def execRegisterWrite (off : Nat) (v : Word) (s : State) : Result :=
  .next (if off % 4 = 0 && decide (off < 2 ^ 32) then s.ctrlPut off v else s)
/-- REGISTER_READ_CLEAR (00 R8): what a read of a word of the control range clears. -/
def execRegisterReadClear (off : Nat) (s : State) : Result := .next (s.ctrlClear (off / 4 * 4))
/-- CORE_WINDOW_ACCESS (12 R206 to R209) by system software: a read clears what it clears, a store writes its bytes. -/
def execCoreWindowAccess (core off : Nat) (size : Size) (store : Option Dword) (s : State) : Result :=
  let base := 0x8000000000000 + 2 ^ 22 * core + off
  let pas := (List.range size.bytes).map fun i => base + i
  if nCores ≤ core || 2 ^ 22 < off + size.bytes then .next s
  else match store with
    | none => .next (s.physClear pas)
    | some v => .next (s.physPut 0 none none base (pas.zip (leOf size.bytes v.toNat)))

end Sys2Proof.Machine
end

