-- ==== Sys2Proof/Machine/Pair.lean ====
section
/-! DEFINITION. Vertical pairs (24 R372 to R379): the register FIFOs between two cores, and the power gating of a core. -/

namespace Sys2Proof.Machine

/-! ### Gates (R378, 26 R386) -/

/-- The core lies in a cluster of a registered chain (22 R360), whatever its progress. -/
def State.inChain (s : State) (core : Nat) : Bool := s.chains.any fun c => c.clu.getLsbD (clusterOf core)
/-- A domain is in run (26 R386). Assumption 8: DESIGN CHOICE. -/
def State.domainRuns (s : State) (d : Nat) : Bool :=
  let x := FMap.get s.domains d
  x.idle == 0 && x.exitAt.isNone
/-- Something needs a domain (26 R386): one that is not in run is to leave its idle state. Assumption 56: DEDUCED. -/
def State.needDomain (s : State) (d : Nat) : State :=
  if s.domainRuns d then s else { s with domains := FMap.put s.domains d { FMap.get s.domains d with wake := true } }
/-- A core at its module-reset contents (R378, 26 R386): scratchpad, copy slots, templates, L1 and per-core k-registers; its gate state
is given, and the FIFO toward it stays. Assumption 56: DEDUCED. -/
def State.coreContents (s : State) (core gate : Nat) : State :=
  let s1 := s.setCore core { ({} : Core) with gate := gate, fifo := (s.core core).fifo }
  { s1.l1Drop core fun _ => true with
    sp := FMap.keep s1.sp fun a => !(decide (spKey core 0 ≤ a) && decide (a < spKey (core + 1) 0))
    poison := FMap.keep s1.poison fun k =>
      let u := 8 * (k % 2 ^ 40)
      !(k / 2 ^ 40 == 3 && u / 2 ^ 19 == core) && !(k / 2 ^ 40 == 4 && u / 0x4000 == core) }
/-- A core is empty (R378, 26 R385): no resident block, no entry toward it, no BUSY copy slot, and no registered chain over its
cluster. -/
def State.coreIdle (s : State) (core : Nat) : Bool :=
  let k := s.core core
  !s.coreBusy core && k.fifo.isEmpty && !(k.slots.any fun e => e.2.st == 1) && !s.inChain core

/-- CORE_GATE (R378) of the core that is the subject. Assumption 56: DEDUCED. -/
def execCoreGate (s : State) : Result :=
  let c := s.subject
  if (s.core c).gate = 1 && s.coreIdle c then .next (s.updCore c fun k => { k with gate := 2 }) else .next s
/-- CORE_WAKE_COMPLETE (R378) of the core that is the subject, 10,000 ns after it began to wake. -/
def execCoreWakeComplete (s : State) : Result :=
  let c := s.subject
  let k := s.core c
  if k.gate = 3 && k.wakeAt ≤ s.ns then .next (s.coreContents c 0) else .next s

/-! ### FIFOs (R372 to R377) -/

/-- Entries a FIFO holds (R372). -/
abbrev fifoSize : Nat := 32
/-- The FIFO toward the partner can take a push (R375, 26 R386). Assumption 56: DEDUCED. -/
def State.pushOk (s : State) (core : Nat) : Bool :=
  let p := partnerOf core
  let k := s.core p
  decide (k.fifo.length < fifoSize) && k.gate == 0 && s.domainRuns (domainOf p)
/-- The entry a gang pushes (R375): every lane of a register, whatever the masks. -/
def Gang.pushEntry (g : Gang) (clk : Nat) (a : VReg) : FifoEntry :=
  { data := (List.range 32).map fun l => g.vget clk a.toNat l, tag := g.srcTag clk a.toNat, asid := g.asid }
/-- A scalar result where the form names one. -/
def nbRes (f : Frag) (nb : Option SReg) (v : Word) : List (SReg × FMap Word) :=
  match nb with
  | some d => [(d, f.all v)]
  | none => []

/-- VFPUSH (R375): an accepted push is a release at cluster scope; a refused one waits, or says so with NB. -/
def execVfpush (nb : Option SReg) (a : VReg) (s : State) : Result :=
  laneRun s (.vfpush nb a) noTags fun g f =>
    if g.taking f = 0 then s.finish g f []
    else if s.pushOk g.core then
      let s1 := (s.release g.core .cluster).updCore (partnerOf g.core) fun k => { k with fifo := k.fifo ++ [g.pushEntry s.clk a] }
      s1.finish g f (nbRes f nb 1)
    else
      let s1 := s.needDomain (domainOf (partnerOf g.core))
      if nb.isSome then s1.finish g f (nbRes f nb 0) else hold s1 g f

/-- FIFO_ENTRY_VISIBLE (R372) on the core that is the subject: its oldest entry that is not yet visible becomes so. -/
def execFifoEntryVisible (s : State) : Result :=
  .next (s.updCore s.subject fun k =>
    let n := (k.fifo.takeWhile fun e => e.visible).length
    { k with fifo := k.fifo.modify n fun e => { e with visible := true } })

/-- The entry a gang can pop (R372, R373). -/
def State.popEntry (s : State) (g : Gang) : Option FifoEntry :=
  match (s.core g.core).fifo with
  | e :: _ => if e.visible && e.asid == g.asid then some e else none
  | [] => none
/-- VFPOP (R376): a pop is an acquire at cluster scope; without an entry it waits, or says so with NB. -/
def execVfpop (d : VReg) (nb : Option SReg) (s : State) : Result :=
  laneRun s (.vfpop d nb) noTags fun g f =>
    if g.taking f = 0 then s.finish g f []
    else match s.popEntry g with
      | some e =>
        let s1 := (s.updCore g.core fun k => { k with fifo := k.fifo.drop 1 }).acquire g.core .cluster
        s1.finish (g.vwrite d.toNat e.tag ((lanesOf (g.taking f)).map fun l => (l, e.data.getD l 0))) f (nbRes f nb 1)
      | none => if nb.isSome then s.finish g f (nbRes f nb 0) else hold s g f

/-- The word VFCNT reads (R377). Assumption 56: DEDUCED. -/
def State.vfcnt (s : State) (g : Gang) : Word :=
  let o := s.core g.core
  let p := s.core (partnerOf g.core)
  BitVec.ofNat 32 (2 ^ 22 * p.gate + 2 ^ 20 * o.gate + 2 ^ 8 * (o.fifo.filter fun e => e.asid == g.asid).length +
    (fifoSize - p.fifo.length))
def execVfcnt (d : SReg) (s : State) : Result :=
  laneRun s (.vfcnt d) noTags fun g f => s.finishScalar g f d (s.vfcnt g)

/-! ### PGREQ (R379) -/

/-- The core a request names. -/
def gateTarget (g : Gang) (partner : Bool) : Nat := if partner then partnerOf g.core else g.core
/-- PGREQ without CAN: the gate state changes at the end of the clock (R379). -/
def execPgreq (d : SReg) (partner : Bool) (s : State) : Result :=
  laneRun s (.pgreq d partner) noTags fun g f =>
    let c := gateTarget g partner
    if g.taking f = 0 then s.finish g f []
    else if (s.core c).gate ≠ 0 then s.finish g f [(d, f.all 1)]
    else if s.inChain c then s.finish g f [(d, f.all 2)]
    else (s.later (.gate c 1)).finish g f [(d, f.all 0)]
/-- PGREQ with CAN. -/
def execPgreqCan (d : SReg) (partner : Bool) (s : State) : Result :=
  laneRun s (.pgreqCan d partner) noTags fun g f =>
    let c := gateTarget g partner
    if g.taking f = 0 then s.finish g f []
    else match (s.core c).gate with
      | 1 => (s.later (.gate c 0)).finish g f [(d, f.all 0)]
      | 2 => (s.later (.gate c 3)).finish g f [(d, f.all 0)]
      | _ => s.finish g f [(d, f.all 1)]

end Sys2Proof.Machine
end

