-- ==== Sys2Proof/Machine/Power.lean ====
section
/-! DEFINITION. The power controller (26 R381 to R387) and the cryogenic states (26 R388 to R393). -/

namespace Sys2Proof.Machine

/-! ### The shared budget (R382 to R384) -/

/-- PKG as it is used (R382). -/
def State.pkg (s : State) : Nat := max 800 (min 3200 (s.breg 0x404000).toNat)
/-- Cores of a compute domain (R381). -/
def domainCores (d : Nat) : List Nat := (List.range nCores).filter fun c => domainOf c == d
/-- Whether blocks are dispatched and domains run: COLD and EXCURSION (R388). Assumption 8: DESIGN CHOICE. -/
def Cryo.runs : Cryo → Bool
  | .cold | .excursion => true
  | _ => false

/-- The memory level of the next interval, from U and S in parts per million (R383). -/
def nextMl (ml u s : Nat) : Nat :=
  if 850000 < u && 250000 < s then min (ml + 50) 300 else if u < 500000 then max (ml - 50) 100 else ml
/-- The throttle level of the next interval, from a domain's power and the compute allotment in W (R384). -/
def nextLevel (l pwr c : Nat) : Nat := if c < 8 * pwr then min (l + 1) 7 else if 80 * pwr < 9 * c then l - 1 else l
/-- Set a domain's throttle level: its cores read RATION.FLOOR and MGCAP.CAP of it (R384). -/
def State.setLevel (s : State) (d pwr level : Nat) : State :=
  let x := FMap.get s.domains d
  let s1 := { s with domains := FMap.put s.domains d { x with level := level, pwr := pwr } }
  (domainCores d).foldl (fun (s : State) c => s.updCore c fun k =>
    { k with floor := BitVec.ofNat 3 level, mgcap := BitVec.ofNat 9 (256 - 32 * level) }) s1
/-- POWER_INTERVAL (R383, R384): U and S of the interval that ends, in parts per million, and each domain's mean power in W.
Assumption 57: DEDUCED. -/
def execPowerInterval (u sv : Nat) (pwr : List Nat) (s : State) : Result :=
  let ml := nextMl s.ml u sv
  let c := min 2600 (s.pkg - 300 - ml)
  .next ((List.range 8).foldl (fun (s : State) d =>
    let p := pwr.getD d 0
    s.setLevel d p (nextLevel (FMap.get s.domains d).level p c)) { s with ml := ml, callot := c })

/-! ### Idle states (R385 to R387) -/

/-- Exit latency of an idle state in ns. -/
def exitLatency (idle : Nat) : Nat :=
  match idle with
  | 0 => 0
  | 1 => 50
  | 2 => 2000
  | _ => 200000
/-- The deepest idle state whose exit latency LTOL allows. -/
def State.deepest (s : State) : Nat :=
  let l := (s.breg 0x404008).toNat
  if 200000 ≤ l then 3 else if 2000 ≤ l then 2 else if 50 ≤ l then 1 else 0
/-- A domain is idle (R385). -/
def State.domainIdle (s : State) (d : Nat) : Bool := (domainCores d).all fun c => s.coreIdle c
/-- A domain turns off: its cores lose their state, but for their gates (R385). -/
def State.domainOff (s : State) (d : Nat) : State :=
  let s1 := (domainCores d).foldl (fun (s : State) c => s.coreContents c (s.core c).gate) s
  { s1 with domains := FMap.put s1.domains d { FMap.get s1.domains d with idle := 3, exitAt := none, wake := false } }
/-- DOMAIN_IDLE_ENTER (R385) of the domain that is the subject. -/
def execDomainIdleEnter (s : State) : Result :=
  let d := s.subject
  let x := FMap.get s.domains d
  let t := s.deepest
  if 8 ≤ d || !s.cryo.runs || x.wake || x.exitAt.isSome || t ≤ x.idle || !s.domainIdle d then .next s
  else if t = 3 then .next (s.domainOff d)
  else .next { s with domains := FMap.put s.domains d { x with idle := t } }
/-- A domain is to leave its idle state: something needs it, or LTOL no longer allows its latency (R386, R387). -/
def State.mustExit (s : State) (x : Domain) : Bool := x.idle != 0 && (x.wake || decide (s.deepest < x.idle))
/-- DOMAIN_IDLE_EXIT (R386, R387) of the domain that is the subject: its exit begins, one from off in any 20,000 ns in ascending order,
or it ends, with module-reset contents where it comes from off. -/
def execDomainIdleExit (s : State) : Result :=
  let d := s.subject
  let x := FMap.get s.domains d
  let put := fun (s : State) (y : Domain) => { s with domains := FMap.put s.domains d y }
  match x.exitAt with
  | some t =>
    if t ≤ s.ns then .next (put s { x with idle := if x.wake then 0 else min x.idle s.deepest, wake := false, exitAt := none })
    else .next s
  | none =>
    if 8 ≤ d || !s.cryo.runs then .next s
    else if x.idle = 0 then .next (put s { x with wake := false })
    else if !s.mustExit x then .next s
    else if x.idle = 3 then
      let free := match s.offLast with
        | some t => decide (t + 20000 ≤ s.ns)
        | none => true
      let first := (List.range d).all fun e =>
        let y := FMap.get s.domains e
        !(y.idle == 3 && y.exitAt.isNone && s.mustExit y)
      if free && first then .next { put s { x with exitAt := some (s.ns + exitLatency 3) } with offLast := some s.ns } else .next s
    else .next (put s { x with exitAt := some (s.ns + exitLatency x.idle) })
/-- LTOL_WRITE (R387): the domains that no longer fit leave by DOMAIN_IDLE_EXIT. -/
def execLtolWrite (v : Word) (s : State) : Result := .next (s.setBreg 0x404008 v)

/-! ### Cryogenic states (R388 to R393) -/

/-- Code of a state (R388). -/
def cryoCode : Cryo → Nat
  | .warm => 0 | .cooling => 1 | .soak => 2 | .cold => 3 | .excursion => 4 | .hotStop => 5 | .warming => 6
/-- Enter a state: TBAND shows it, the host is told (27 R406), and refresh and timings are its own. Assumption 58: DEDUCED. -/
def State.enterCryo (s : State) (c : Cryo) : State :=
  let s1 := { s with
    cryo := c, tband := (s.tband &&& ~~~7#32) ||| BitVec.ofNat 32 (cryoCode c), coolNs := none, derated := c == Cryo.excursion
    refresh := (match c with
      | .soak | .excursion | .hotStop => true
      | .warming => s.refresh
      | .warm => s.service
      | _ => false) }
  s1.notify 3 0 0
/-- Every gang has left its core. -/
def State.allSaved (s : State) : Bool := s.gangList.all fun e => e.2.desched
/-- A pre-emption request of classes 1 to 3 on every core with a gang (R391). -/
def State.preemptAll (s : State) : State :=
  (((s.gangList.filter fun e => !e.2.desched).map fun e => e.2.core).eraseDups).foldl (fun (s : State) c => s.preempt c 14 none) s
/-- Every SCAN slot that is RENDERING turns SUBSTITUTED as event 6 (R391). -/
def State.substituteAll (s : State) : State :=
  (s.chains.filter fun c => c.admitted && !c.ended && s.slotState c.slot == 1).foldl (fun (s : State) c => s.substitute c 6) s
/-- Compute domains turn off. -/
def State.computeOff (s : State) : State := (List.range 8).foldl (fun (s : State) d => s.domainOff d) s
/-- HOT-STOP (R391): strips, the pre-emption request; the domains turn off when every gang is saved. -/
def State.enterHotStop (s : State) : State :=
  { ((s.enterCryo .hotStop).substituteAll).preemptAll with hotSaved := false }
/-- WARM (R393): every rail but management has been off, so DRAM holds no data. Assumption 57: DEDUCED. -/
def State.enterWarm (s : State) : State :=
  { s.computeOff.enterCryo .warm with
    mem := [], poison := [], dirty := [], path := [], l1 := [], warmCmd := none, warmDone := false, service := false }

/-- Highest of some values. -/
def maxOf (l : List Nat) : Nat := l.foldl max 0
/-- A sample's T and gradient, in 1/8 K (R388). -/
def bandOf (t : List Nat) : Nat × Nat :=
  let u := (List.range 9).map fun n => t.getD n 0
  (maxOf ((List.range 10).map fun n => t.getD n 0), maxOf u - u.foldl min (u.headD 0))
/-- TBAND (R392). -/
def tbandWord (t grad : Nat) (c : Cryo) : Word :=
  BitVec.ofNat 32 (2 ^ 16 * (t % 4096) + 2 ^ 4 * min grad 255 + 8 * b2n (decide (t < 576)) + cryoCode c)
/-- The change of state a sample makes (R389). Assumption 57: DEDUCED. -/
def State.cryoStep (s : State) (t grad : Nat) : State :=
  match s.cryo with
  | .soak =>
    if 880 < t then s.enterHotStop
    else if t ≤ 680 && grad ≤ 16 then s.enterCryo .cold else s
  | .cold =>
    if 880 < t then s.enterHotStop
    else if 680 < t then s.enterCryo .excursion else s
  | .excursion =>
    if 880 < t then s.enterHotStop
    else if 656 ≤ t then { s with coolNs := none }
    else match s.coolNs with
      | none => { s with coolNs := some s.ns }
      | some n => if n + 1000000000 ≤ s.ns then s.enterCryo .cold else s
  | .cooling => if t < 960 then s.enterCryo .soak else s
  | .hotStop => if s.hotSaved && t < 680 then s.enterCryo .soak else s
  | .warming => if s.warmDone && s.allSaved && Config.freeBit s.clk 0 then s.enterWarm else s
  | .warm => s
/-- The save of R391 completes when no gang is left on a core: the compute domains turn off. Assumption 57: DEDUCED. -/
def State.hotStopOff (s : State) : State :=
  if s.cryo = .hotStop && !s.hotSaved && s.allSaved then { s.computeOff with hotSaved := true } else s
/-- TEMPERATURE_SAMPLE (R388, R389, R392): the ten sensors' readings in 1/8 K. Assumption 57: DEDUCED. -/
def execTemperatureSample (t : List Nat) (s : State) : Result :=
  let (tm, grad) := bandOf (t.map fun x => x % 4096)
  let s1 := { s with
    sensors := (List.range 10).foldl (fun m n => FMap.put m n (t.getD n 0 % 4096)) s.sensors, tband := tbandWord tm grad s.cryo }
  .next ((s1.cryoStep tm grad).hotStopOff)

/-- CRYOCMD_COOL (R389, R392): cooling begins from WARM, but in recovery, where the compute domains and DRAM stay unpowered (27
R410). Assumption 58: DEDUCED. -/
def execCryocmdCool (s : State) : Result :=
  if s.cryo = .warm && !s.boot.recovery then .next ({ s with service := false }.enterCryo .cooling) else .next s
/-- CRYOCMD_WARM (R389, R393). -/
def execCryocmdWarm (s : State) : Result :=
  match s.cryo with
  | .warm | .warming => .next s
  | _ => .next { s.enterCryo .warming with warmCmd := some s.ns, warmDone := false }
/-- CRYOCMD_SERVICE (R392): in WARM, service mode is entered or left; refresh is on in it (R388). -/
def execCryocmdService (s : State) : Result :=
  if s.cryo = .warm then .next { s with service := !s.service, refresh := !s.service } else .next s
/-- WARMING_LAUNCH_TIMEOUT (R393): after 100 ms the gangs that remain are pre-empted and saved, and refresh turns on. -/
def execWarmingLaunchTimeout (s : State) : Result :=
  match s.cryo, s.warmCmd with
  | .warming, some t =>
    if s.warmDone || s.ns < t + 100000000 then .next s
    else .next { s.preemptAll with warmDone := true, refresh := true }
  | _, _ => .next s

end Sys2Proof.Machine
end

