-- ==== Sys2Proof/Machine/Fabric.lean ====
section
/-! DEFINITION. The peer ports (28 R411 to R413) and the frame lock (28 R414 to R419). -/

namespace Sys2Proof.Machine

/-! ### Receiving (R411, R412) -/

/-- The answer to a peer's access that failed (R412, 12 R216). -/
def State.peerFails (s : State) (port : Nat) : State := s.send (.peerError port)
/-- An access of a peer is made as a user access in the context that is bound to it (R412); it fails on poisoned bytes. -/
def State.deliver (s : State) (port : Nat) (body : FlitBody) : State :=
  match body with
  | .store vi va bytes => match s.iface? vi with
    | none => s.peerFails port
    | some i =>
      if s.rdmaOk i .store va.toNat bytes.length then s.agentWrite i.who va.toNat bytes else s.peerFails port
  | .load vi va len => match s.iface? vi with
    | none => s.peerFails port
    | some i =>
      if s.rdmaOk i .load va.toNat len && (s.poisonAt i.who va.toNat len).isNone then
        let (b, s1) := s.agentGet i.who va.toNat len
        s1.send (.peerData port b)
      else s.peerFails port
  | .atomic vi va op dw d n => match s.iface? vi with
    | none => s.peerFails port
    | some i =>
      let k := if dw then 8 else 4
      let a := va.toNat
      if a % k = 0 && s.rdmaOk i .load a k && s.rdmaOk i .store a k && (s.poisonAt i.who a k).isNone then
        let (old, s1) := s.agentGet i.who a k
        (s1.agentWrite i.who a (leOf k (atomNew op (8 * k) (leVal old) d.toNat n.toNat))).send (.peerData port old)
      else s.peerFails port
/-- Sequence number `a` lies before `b` on a link of 32-bit numbers. Assumption 61: DEDUCED. -/
def seqBefore (a b : Word) : Bool := (a - b).msb
/-- FLIT_RECEIVE (R411): the next flit of the link is delivered and acknowledged; one received before is acknowledged again and not
delivered again; one after a gap is reported lost up to it. A port that is not UP takes none. Assumption 61: DEDUCED. -/
def execFlitReceive (port : Nat) (f : Flit) (s : State) : Result :=
  let p := s.port port
  if port = 0 || 8 < port || p.st ≠ 1 then .next s
  else if f.seq = p.rxSeq then
    .next (((s.setPort port { p with rxSeq := p.rxSeq + 1 }).deliver port f.body).send (.flitAck port f.seq))
  else if seqBefore f.seq p.rxSeq then .next (s.send (.flitAck port (p.rxSeq - 1)))
  else .next (s.send (.flitNak port p.rxSeq))

/-! ### Replay (R411) -/

/-- FLIT_ACKNOWLEDGEMENT: the flits up to the number leave the replay buffer, and what waits may go. -/
def execFlitAcknowledgement (port : Nat) (seq : Word) (s : State) : Result :=
  let p := s.port port
  let left := p.replay.filter fun x => seqBefore seq x.seq
  .next ((s.setPort port { p with replay := left, since := s.ns }).pumpAll port)
/-- Flits are sent again in their original order. Assumption 61: DEDUCED. -/
def State.resend (s : State) (port : Nat) (l : List Flit) : State :=
  { s with outs := s.outs ++ l.map fun f => Output.flit port f }
/-- FLIT_NAK: the flits from the one reported lost are sent again. Assumption 61: DEDUCED. -/
def execFlitNak (port : Nat) (seq : Word) (s : State) : Result :=
  let p := s.port port
  if p.st ≠ 1 then .next s
  else .next ((s.resend port (p.replay.filter fun x => !seqBefore x.seq seq)).setPort port { p with since := s.ns })
/-- FLIT_REPLAY_TIMEOUT of the port that is the subject: 10 µs after its oldest flit was sent, the unacknowledged flits are sent
again. -/
def execFlitReplayTimeout (s : State) : Result :=
  let n := s.subject
  let p := s.port n
  if p.st = 1 && !p.replay.isEmpty && decide (p.since + 10000 ≤ s.ns) then
    .next ((s.resend n p.replay).setPort n { p with since := s.ns })
  else .next s

/-! ### Lane shedding (R413) -/

/-- Every unacknowledged access on a port that has gone DOWN raises a memory fault of kind 5 in its gang's lowest fragment.
Assumption 61: DEDUCED. -/
def State.portFault (s : State) (r : RemoteStore) : State :=
  let s1 := match r.gang, r.op with
    | some gid, some op => s.unhold gid op
    | _, _ => s
  match r.gang with
  | none => s1
  | some gid => match s1.gang? gid with
    | none => s1
    | some g => match g.frags with
      | f :: _ => s1.trapIn gid g f .memory 0x500 (BitVec.ofNat 64 r.va) true
      | [] => s1
/-- A port goes DOWN; a link that comes up again counts its flits from zero. Assumptions 39, 61: DEDUCED. -/
def State.portDown (s : State) (n : Nat) : State :=
  let mine := fun (r : RemoteStore) => r.peer && r.port == n
  let p := s.port n
  let s1 := { s with remote := s.remote.filter fun r => !mine r }.setPort n { p with
    st := 0, replay := [], wait := [], txSeq := 0, rxSeq := 0, widen := false }
  (s.remote.filter mine).foldl (fun (s : State) r => s.portFault r) s1
/-- LANE_SHED: the codewords counted in 1 ms. -/
def execLaneShed (port codewords : Nat) (s : State) : Result :=
  let p := s.port port
  if port = 0 || 8 < port || p.st ≠ 1 || codewords ≤ 64 then .next s
  else if p.lanes = 2 then .next (s.portDown port)
  else .next (s.setPort port { p with st := 2, lanes := p.lanes + 1, sheds := min 65535 (p.sheds + 1), since := s.ns, widen := false })
/-- SHED_RETRAIN_COMPLETE of the port that is the subject: what is unacknowledged is replayed before any new flit. -/
def execShedRetrainComplete (s : State) : Result :=
  let n := s.subject
  let p := s.port n
  if p.st ≠ 2 then .next s
  else
    let p1 := { p with st := 1, lanes := if p.widen then 0 else p.lanes, widen := false, since := s.ns }
    .next (((s.resend n p.replay).setPort n p1).pumpAll n)
/-- SHED_RETRAIN_TIMEOUT of the port that is the subject: after 2 µs it goes DOWN; a port that PPCTL has disabled goes DOWN too. -/
def execShedRetrainTimeout (s : State) : Result :=
  let n := s.subject
  let p := s.port n
  if (p.st = 2 && decide (p.since + 2000 ≤ s.ns)) || p.st = 0 then .next (s.portDown n) else .next s
/-- PPCTL_WIDEN of the port that is the subject. Assumption 39: DEDUCED. -/
def execPpctlWiden (s : State) : Result :=
  let n := s.subject
  let p := s.port n
  if p.st = 1 then .next (s.setPort n { p with st := 2, since := s.ns, widen := true }) else .next s

/-! ### Frame lock (R414 to R419) -/

/-- FLCTL fields. -/
def State.flEn (s : State) : Bool := (s.breg 0x405100).getLsbD 0
def State.flLead (s : State) : Bool := (s.breg 0x405100).getLsbD 1
def State.flMid (s : State) : Nat := bitsOf (s.breg 0x405100).toNat 15 8
def State.flGroup (s : State) : Nat := bitsOf (s.breg 0x405100).toNat 31 16
/-- The period in units of 2^-16 ns, and FLEPOCH. -/
def State.flPer (s : State) : Nat := (s.breg 0x405104).toNat * 65536 + (s.breg 0x405108).toNat
def State.flEpoch (s : State) : Nat := (s.breg 0x405110).toNat + 2 ^ 32 * (s.breg 0x405114).toNat
/-- F(f) in ns. -/
def State.frameAt (s : State) (f : Nat) : Nat := s.flEpoch + f * s.flPer / 65536
/-- Frames that have started: one more than the number of the frame in progress. -/
def State.framesStarted (s : State) : Nat :=
  if s.flPer = 0 || s.ns < s.flEpoch then 0 else ((s.ns - s.flEpoch + 1) * 65536 - 1) / s.flPer + 1
/-- The address field of a notice about a member (27 R406). Assumption 62: DEDUCED. -/
def State.memberNote (s : State) (mid : Nat) : Dword := BitVec.ofNat 64 (s.flGroup + 2 ^ 16 * mid)
/-- MEMBERS changes: a notice for each member that left and each that joined. -/
def State.setMembers (s : State) (m : BitVec 24) : State :=
  let old := s.lock.members
  let s1 := { s with lock := { s.lock with members := m } }
  let s2 := (setBits 24 (old &&& ~~~m)).foldl (fun (s : State) i => s.notify 5 0 (s.memberNote i)) s1
  (setBits 24 (m &&& ~~~old)).foldl (fun (s : State) i => s.notify 6 0 (s.memberNote i)) s2

/-- MEMBERS of the first or next beacon of the acting leader (R416, R418, R419). -/
def Lock.beaconMembers (l : Lock) (mid : Nat) (first : Bool) : BitVec 24 :=
  let gone := (l.leave ++ (List.range 24).filter (fun i => i != mid && decide (3 ≤ FMap.get l.missed i))) ++
    (if first then l.lead.toList else [])
  let come := (List.range 24).filter fun i => decide (16 ≤ FMap.get l.joining i)
  let kept := gone.foldl (fun m i => if i < 24 then putBit m i false else m) l.members
  putBit (come.foldl (fun m i => if l.leave.contains i then m else putBit m i true) kept) mid true
/-- Counts as a frame starts: every member's missing acknowledgements, and those in a row of the devices that are to join.
Assumption 62: DEDUCED. -/
def Lock.count (l : Lock) (mid : Nat) : Lock :=
  { l with
    missed := (List.range 24).foldl (fun m i => if i = mid then m else FMap.put m i (min 4 (FMap.get m i + 1))) l.missed
    joining := (List.range 24).foldl (fun m i => if FMap.get l.missed i = 0 then m else FMap.put m i 0) l.joining
    silent := min 4 (l.silent + 1), heard := none, back := l.back - 1 }
/-- This device may send beacons in the frame that starts (R416): LEAD and LOCKED are set, it has not withdrawn, no beacon of a lower
MID holds it back, and it is a member, or no one has sent for two frames. Assumption 62: DEDUCED. -/
def State.leads (s : State) : Bool :=
  let l := s.lock
  s.flLead && s.stLocked && l.back == 0 && !l.leave.contains s.flMid &&
    (l.acting || l.members.getLsbD s.flMid || decide (2 ≤ l.silent))
/-- This device enters MEMBERS by itself (R419): COLD, locked, after 16 consecutive beacons that agree. Assumption 62: DEDUCED. -/
def State.joins (s : State) : Bool :=
  decide (16 ≤ s.lock.agreed) && s.cryo == .cold && s.stLocked && !s.lock.members.getLsbD s.flMid && !s.lock.leave.contains s.flMid
/-- FRAME_START (R414 to R419). Assumption 62: DEDUCED. -/
def execFrameStart (s : State) : Result :=
  let n := s.framesStarted
  let l := s.lock
  let mid := s.flMid
  if !s.flEn || n ≤ l.frame then .next s
  else
    let lead := s.leads
    let first := lead && !l.acting && decide (2 ≤ l.silent)
    let joins := s.joins
    let m := if lead then l.beaconMembers mid first
      else
        let own := (l.members.getLsbD mid || joins) && s.stLocked && !l.leave.contains mid
        putBit l.members mid own
    let s1 := { s with lock := { l.count mid with
      frame := n, acting := lead, agreeing := lead || (l.agreeing && decide (l.silent < 3)), agreed := if joins then 0 else l.agreed
      leave := if lead then l.leave.filter fun i => i == mid else l.leave } }.setMembers m
    .next (if lead then s1.send (.beacon { group := BitVec.ofNat 16 s.flGroup, mid := BitVec.ofNat 8 mid, frame := n - 1
                                           epoch := BitVec.ofNat 64 s.flEpoch, period := s.breg 0x405104
                                           frac := BitVec.ofNat 16 (s.breg 0x405108).toNat, members := m }) else s1)

/-- A beacon agrees with the local F(f). -/
def State.beaconAgrees (s : State) (b : Beacon) : Bool :=
  b.epoch.toNat == s.flEpoch && b.period == s.breg 0x405104 && b.frac.toNat == (s.breg 0x405108).toNat &&
    b.frame + 1 == s.framesStarted
/-- BEACON_RECEIVE (R414, R416, R418, R419): a beacon of the group is acknowledged, but by a member that has withdrawn; MEMBERS comes from the lowest MID of the frame.
Assumption 62: DEDUCED. -/
def execBeaconReceive (b : Beacon) (s : State) : Result :=
  let l := s.lock
  let mid := s.flMid
  let from_ := b.mid.toNat
  if !s.flEn || b.group.toNat ≠ s.flGroup || from_ = mid || 24 ≤ from_ then .next s
  else
    let agrees := s.beaconAgrees b
    let best := (l.heard.map fun h => decide (from_ ≤ h)).getD true && (!l.acting || decide (from_ < mid))
    let l1 := { l with
      back := if from_ < mid then 2 else l.back, silent := 0, missed := FMap.put l.missed from_ 0
      heard := some (match l.heard with
        | some h => min h from_
        | none => from_)
      lead := if best then some from_ else l.lead, agreeing := if best then agrees else l.agreeing
      agreed := if best then (if agrees then (if l.heard.isSome then l.agreed else l.agreed + 1) else 0) else l.agreed
      leave := if best then l.leave.filter fun i => i == mid || b.members.getLsbD i else l.leave }
    let s1 := { s with lock := l1 }
    let own := b.members.getLsbD mid && s.stLocked && !l.leave.contains mid
    let s2 := if best then s1.setMembers (putBit b.members mid own) else s1
    .next (if l.leave.contains mid then s2 else s2.send (.beaconAck (BitVec.ofNat 8 mid)))
/-- WITHDRAW (R418): the member leaves at the next F(f); one that is this device stops sending. Assumption 63: DEDUCED. -/
def execWithdraw (mid : Byte) (s : State) : Result :=
  let l := s.lock
  if !s.flEn || 24 ≤ mid.toNat then .next s
  else .next { s with lock := { l with
    leave := l.leave ++ [mid.toNat], acting := l.acting && mid.toNat != s.flMid } }
/-- BEACON_ACKNOWLEDGEMENT (R418, R419): it keeps a member, and counts towards the joining of another. Assumption 62: DEDUCED. -/
def execBeaconAcknowledgement (mid : Byte) (s : State) : Result :=
  let l := s.lock
  let m := mid.toNat
  if !s.flEn || 24 ≤ m then .next s
  else .next { s with lock := { l with
    missed := FMap.put l.missed m 0, joining := if l.members.getLsbD m then FMap.put l.joining m 0 else FMap.put l.joining m (FMap.get l.joining m + 1) } }

end Sys2Proof.Machine
end

