-- ==== Sys2Proof/Machine/Boot.lean ====
section
/-! DEFINITION. Boot, measurement, update and recovery (27 R407 to R410). -/

namespace Sys2Proof.Machine

/-! ### Authentication (R407) -/

/-- A digest as its 32 bytes. -/
def digestBytes (d : BitVec 256) : List Byte := leOf 32 d.toNat
/-- A header's digest is that of its body, and its signature verifies under the vendor key. -/
def Image.signed (im : Image) : Bool := Config.sm3 im.body == im.digest && Config.sm2Valid im.digest im.sig
/-- The configuration records that pass; one that fails is ignored. Assumption 64: DEDUCED. -/
def Boot.records (b : Boot) : List Image := b.config.filter fun r => Image.signed r
/-- The lowest image sequence number that the records allow. Assumption 64: DEDUCED. -/
def Boot.minSeq (b : Boot) : Nat := (b.records.map fun r => r.seq.toNat).foldl max 0
/-- An image is authentic. Assumption 64: DEDUCED. -/
def Boot.authentic (b : Boot) (im : Image) : Bool := Image.signed im && decide (b.minSeq ≤ im.seq.toNat)
/-- The image in a flash slot that may boot. -/
def Boot.bootable (b : Boot) (n : Nat) : Option Image := (FMap.get b.flash n).filter fun im => b.authentic im
/-- The slot that boots, with its image: of two authentic images the higher sequence number, equal numbers slot A; one whose first boot
failed yields to the other slot (R409). -/
def Boot.choose (b : Boot) : Option (Nat × Image) :=
  match b.bootable 0, b.bootable 1 with
  | none, none => none
  | some x, none => some (0, x)
  | none, some y => some (1, y)
  | some x, some y =>
    if b.failed = some 0 then some (1, y)
    else if b.failed = some 1 then some (0, x)
    else if x.seq.toNat < y.seq.toNat then some (1, y) else some (0, x)

/-! ### Measurement (R408) -/

/-- MRn := SM3(MRn ‖ digest). Assumption 64: DEDUCED. -/
def Boot.extend (b : Boot) (n : Nat) (d : BitVec 256) : Boot :=
  { b with mr := FMap.put b.mr n (Config.sm3 (digestBytes (FMap.get b.mr n) ++ digestBytes d)) }

/-- The boot procedure of R407; without an authentic image the device enters recovery, where a staged image that authenticates boots
once (R410). `bad` tells whether an image written since the last boot fails its first one (R409).
Assumptions 6, 64: DESIGN CHOICE, DEDUCED. -/
def Boot.run (b : Boot) (bad : Bool) : Boot :=
  let b0 := { b with mr := [], running := none, recovery := false, resetReq := none, saving := false }
  let b1 := b0.records.foldl (fun (b : Boot) r => b.extend 0 r.digest) b0
  match b1.choose with
  | some (n, im) =>
    { b1.extend 1 im.digest with
      running := some n, staging := none, fresh := none, failed := if b.fresh = some n && bad then some n else none }
  | none =>
    match b1.staging with
    | some im =>
      if b1.authentic im then { b1.extend 1 im.digest with running := some 2, staging := none, fresh := none, failed := none }
      else { b1 with staging := none, fresh := none, failed := none, recovery := true }
    | none => { b1 with fresh := none, failed := none, recovery := true }

/-- The machine after module reset, boot done: what survives is flash and staging, what the device has sent, the free-value counter and
the turns to come; the governor's windows count from here (15 R275). Assumption 6: DESIGN CHOICE. -/
def State.moduleReset (s : State) : State :=
  { State.reset with
    clk := s.clk, clk0 := s.clk, turns := s.turns, gang := s.gang, slice := s.slice, subject := s.subject, outs := s.outs
    boot := s.boot.run (Config.freeBit s.clk 0) }
/-- MODULE_RESET (R407). -/
def execModuleReset (s : State) : Result := .next s.moduleReset

/-! ### Update (R409) -/

/-- The slot that did not boot; a recovery image may write either. Assumption 65: DEDUCED. -/
def State.otherSlot (s : State) : Nat :=
  match s.boot.running with
  | some 0 => 1
  | some 1 => 0
  | _ => if Config.freeBit s.clk 0 then 1 else 0
/-- MANAGEMENT_IMAGE_UPLOAD (R409, R410): an authentic image is written to the slot that did not boot. Assumption 65: DEDUCED. -/
def execManagementImageUpload (im : Image) (s : State) : Result :=
  if s.boot.recovery || !s.boot.authentic im then .next (s.send .mgmtError)
  else .next { s with boot := { s.boot with flash := FMap.put s.boot.flash s.otherSlot (some im), fresh := some s.otherSlot } }

/-- Step 2 of R409: every registered chain ends SUBSTITUTED. Assumption 66: DEDUCED. -/
def State.endChains (s : State) : State :=
  (s.chains.filter fun c => !c.ended).foldl (fun (s : State) c => s.substitute c 6) s
/-- A queue as the new image restores it: unmapped, with its pending bit. Assumption 66: DEDUCED. -/
def Queue.restored (q : Queue) : Queue :=
  { q with mapped := none, pending := q.pending || q.rd != q.wr, ageNs := 0 }
/-- Step 4 and 5 of R409: reset with the memory rail in self-refresh; queues, launches, descheduled blocks and gangs go on from what
firmware and the hardware saved in DRAM. Assumption 66: DEDUCED. -/
def State.deviceReset (s0 : State) : State :=
  let s := s0.drainAll
  { s.moduleReset with
    mem := s.mem, poison := s.poison, gangs := s.gangs, blocks := s.blocks, launches := s.launches, trees := s.trees
    groups := s.groups, nextGang := s.nextGang, nextBlock := s.nextBlock, nextLaunch := s.nextLaunch, nextOp := s.nextOp
    nextChain := s.nextChain, bins := s.bins, ifaces := s.ifaces, feq := s.feq, notices := s.notices, parks := s.parks
    migs := s.migs, remote := s.remote
    queues := s.queues.map fun (e : Nat × Option Queue) => (e.1, e.2.map Queue.restored) }
/-- Nothing runs: every launch that has started has ended, or its gangs are saved. Assumption 66: DEDUCED. -/
def State.quietForReset (s : State) : Bool := s.gangList.all fun e => e.2.desched
/-- DEVICE_RESET_REQUEST (R409): the request, and then each of its stages as it is due. Assumption 66: DEDUCED. -/
def execDeviceResetRequest (s : State) : Result :=
  if s.boot.recovery then .next (s.send .mgmtError)
  else match s.boot.resetReq with
    | none => .next ({ s with boot := { s.boot with resetReq := some s.ns } }.endChains)
    | some t =>
      if s.quietForReset then .next s.deviceReset
      else if t + 100000000 ≤ s.ns && !s.boot.saving then
        .next { s.preemptAll with boot := { s.boot with saving := true } }
      else .next s

/-! ### Attestation and recovery (R408, R410) -/

/-- What a quote signs. -/
def State.quoted (s : State) (nonce : BitVec 256) : List Byte :=
  digestBytes nonce ++ (List.range 8).flatMap (fun n => digestBytes (FMap.get s.boot.mr n)) ++ leOf 8 s.ns ++
    digestBytes (Config.sm3 Config.devicePublicKey)
/-- ATTESTATION_QUOTE (R408). -/
def execAttestationQuote (nonce : BitVec 256) (s : State) : Result :=
  .next (s.send (if s.boot.recovery then .mgmtError else .quote (Config.sm2Sign (s.quoted nonce)) Config.devicePublicKey))
/-- RECOVERY_UPLOAD (R410): into the staging buffer of 64 MiB. Assumption 65: DEDUCED. -/
def execRecoveryUpload (im : Image) (s : State) : Result :=
  if s.boot.recovery && decide (im.body.length ≤ 2 ^ 26) then .next { s with boot := { s.boot with staging := some im } }
  else .next (s.send .mgmtError)

end Sys2Proof.Machine
end

