-- ==== Sys2Proof/Machine/Placement.lean ====
section
/-! DEFINITION. The dispatcher (07 R138, R139, 09 R179, R181, R185, 22 R361, 23 R370, 25 R380, 27 R395): where a block may go, the
resources it takes there, gang start (01 R32, R28), and the placing again of a descheduled block (21 R353). -/

namespace Sys2Proof.Machine

/-! ### Room on a core (R139, 12 R205) -/

/-- Two ranges (start, size) meet. -/
def rangesMeet (a b : Nat × Nat) : Bool := decide (a.1 < b.1 + b.2) && decide (b.1 < a.1 + a.2)
/-- The first multiple of `step` where `n` units are free of some ranges below `cap`. Assumption 67: DESIGN CHOICE. -/
def firstFit (used : List (Nat × Nat)) (n step cap : Nat) : Option Nat :=
  ((List.range (cap / step + 1)).map fun k => k * step).find? fun a =>
    decide (a + n ≤ cap) && used.all fun u => !rangesMeet (a, n) u

/-- What a gang takes in its partition: partition, slot, vector registers, accumulators. Assumption 67: DESIGN CHOICE. -/
structure Seat where
  part  : Nat
  slot  : Nat
  vbase : Nat
  regs  : Nat
  abase : Nat
  accs  : Nat
  deriving DecidableEq, Repr

/-- Resident blocks of a core. -/
def State.residents (s : State) (core : Nat) : List (Nat × Block) := s.blockList.filter fun e => e.2.core == core && !e.2.desched
/-- Seats that the gangs of a core's resident blocks take. -/
def State.seats (s : State) (core : Nat) : List Seat :=
  (s.residents core).flatMap fun e => (s.blockGangs e.2).map fun x =>
    { part := x.2.part, slot := x.2.slot, vbase := x.2.vbase, regs := x.2.regs, abase := x.2.abase, accs := x.2.accs }
/-- A seat by its code: partition `code % 4` and, above that, 0 for its lowest free residency slot, or a free slot's number plus 1. -/
def seatIn (l : List Seat) (code regs accs : Nat) : Option Seat :=
  let part := code % 4
  let here := l.filter fun (x : Seat) => x.part == part
  let free := fun (n : Nat) => !here.any fun (x : Seat) => x.slot == n
  let slot := if code < 4 then (List.range 16).find? free else some (code / 4 - 1)
  match firstFit (here.map fun x => (x.vbase, x.regs)) regs 32 768, firstFit (here.map fun x => (x.abase, x.accs)) accs 1 16,
      slot.filter fun n => decide (n < 16) && free n with
  | some v, some a, some n => some { part := part, slot := n, vbase := v, regs := regs, abase := a, accs := accs }
  | _, _, _ => none
/-- Seats for a list of gangs by the codes chosen for them. -/
def seatAll (l : List Seat) (regs accs : Nat) : List Nat → Option (List Seat)
  | [] => some []
  | p :: r => match seatIn l p regs accs with
    | none => none
    | some x => (seatAll (x :: l) regs accs r).map fun xs => x :: xs

/-- The first tile and the scratchpad base of a block with `tiles` tiles and `scratch` bytes on a core, when there is room.
Assumption 67: DESIGN CHOICE. -/
def State.room (s : State) (core tiles scratch : Nat) : Option (Nat × Nat) :=
  let here := (s.residents core).map (·.2)
  if 16 ≤ here.length then none
  else match firstFit (here.map fun b => (b.tbase, b.tiles)) tiles 1 64,
      firstFit (here.map fun b => (b.spbase, b.scratch / 256)) (scratch / 256) 1 2048 with
    | some t, some p => some (t, p)
    | _, _ => none

/-! ### Whether a block may go to a core -/

/-- Blocks of a launch that a placement concerns, with their cores: one block, or both of a pair on a vertical pair, the even one on
layer 0 (R380). -/
def Launch.targets (l : Launch) (block core : Nat) : List (Nat × Nat) :=
  if l.kd.pair then
    let e := block / 2 * 2
    let c := if block = e then core else partnerOf core
    if layerOf c = 0 then [(e, c), (e + 1, partnerOf c)] else []
  else [(block, core)]
/-- The block of a launch by its index. -/
def State.blockOf (s : State) (lid idx : Nat) : Option (Nat × Block) :=
  s.blockList.find? fun e => e.2.launch == lid && e.2.idx == idx
/-- What a target needs: `none` when it has ended or stands on its core. -/
inductive Need where
  | start
  | again (bid : Nat) (b : Block)
  | nothing
  | misplaced
  deriving DecidableEq, Repr
def State.need (s : State) (lid : Nat) (l : Launch) (t : Nat × Nat) : Need :=
  match s.blockOf lid t.1 with
  | some (bid, b) => if b.desched then .again bid b else if b.core = t.2 then .nothing else .misplaced
  | none => if l.dispatched.contains t.1 then .nothing else .start

/-- Cores of an interface that hold a resident block of it. -/
def State.coresOf (s : State) (vi : Nat) : List Nat :=
  ((s.blockList.filter fun e => !e.2.desched && ((s.launch? e.2.launch).map fun l => l.vi) == some vi).map fun e => e.2.core).eraseDups
/-- An interface has work that waits for a core. Assumption 68: DEDUCED. -/
def State.waitsForCore (s : State) (vi : Nat) : Bool :=
  s.launchList.any fun e => e.2.vi == vi && !e.2.cancelled && decide (e.2.dispatched.length < e.2.blocks)
/-- The core share of R395 lets an interface have a core more. Assumption 68: DEDUCED. -/
def State.shareOk (s : State) (vi core : Nat) : Bool :=
  let mine := s.coresOf vi
  mine.contains core || decide (mine.length < ((s.iface? vi).map (·.share)).getD 0) ||
    s.ifaces.all fun e => match e.2 with
      | some i => e.1 == vi || !s.waitsForCore e.1 || decide (i.share ≤ (s.coresOf e.1).length)
      | none => true
/-- Cores of a chain contain a core. -/
def Chain.has (c : Chain) (core : Nat) : Bool := c.clu.getLsbD (clusterOf core)
/-- The chain rules of a launch and a core (22 R361, 23 R370): a chain's launches go to its own cores, in enqueue order, while it is
admitted; class 3 keeps off the cores of an admitted chain that has not ended, and a block that an admission took off keeps off the
cores of every registered chain. Assumption 68: DEDUCED. -/
def State.chainOk (s : State) (lid : Nat) (l : Launch) (byChain : Bool) (core : Nat) : Bool :=
  match l.chain with
  | some cid => (match s.chain? cid with
    | some c => c.admitted && !c.ended && c.has core && (c.launches.takeWhile fun x => x != lid).all fun x => match s.launch? x with
        | some y => y.cancelled || decide (y.blocks ≤ y.dispatched.length)
        | none => true
    | none => false)
  | none =>
    !(l.kd.cls == 3 && s.chains.any fun c => c.admitted && !c.ended && c.has core) &&
      !(byChain && s.chains.any fun c => c.has core)
/-- A launch's next block may start (09 R179, R181, R183, R185): in linear order, inside the reorder window but for coop, after the
children of its interface enqueued before it (R181), and, in a merged grid (R183), after the blocks of the children ahead of it, none
while its group is open. Assumption 67: DESIGN CHOICE. -/
def State.startOk (s : State) (lid : Nat) (l : Launch) (idx : Nat) : Bool :=
  decide (idx < l.blocks) && (List.range idx).all (fun i => l.dispatched.contains i) &&
    (l.kd.coop || decide (idx < l.h + 256)) && !s.grouped lid &&
    ((s.mergedAhead lid).all fun x => match s.launch? x with
      | some y => y.cancelled || decide (y.blocks ≤ y.dispatched.length)
      | none => true) &&
    (match s.iface? l.vi with
      | some i => !i.spawns.contains lid || i.spawns.head? == some lid
      | none => false)

/-! ### Starting and resuming -/

/-- The slices of a width. -/
def sliceSet (width : Nat) : BitVec 4 := BitVec.ofNat 4 (2 ^ width - 1)
/-- A slice copy at gang start (01 R32, R28). -/
def startCopy (l : Launch) (idx : Nat) : SliceCopy :=
  (({} : SliceCopy).setPair 2 l.param |>.set 4 (BitVec.ofNat 32 idx)).kset 24 65536
/-- A gang at gang start (01 R32, 02 R45). -/
def startGang (gid lid bid core : Nat) (l : Launch) (asid : Word) (seat : Seat) (idx : Nat) : Gang :=
  let live := sliceSet l.kd.width
  let m := sliceMask live
  { launch := lid, block := bid, idx := idx, core := core, part := seat.part, slot := seat.slot, vbase := seat.vbase, abase := seat.abase
    regs := seat.regs, accs := seat.accs, width := l.kd.width, priv := l.kd.priv, cls := if l.chain.isSome then 1 else l.kd.cls
    asid := asid, vi := l.vi, lcbase := l.kd.lcbase, lcsize := l.kd.lcsize, binbase := l.kd.binbase
    csbase := Config.gangArea gid &&& ~~~0xFFFF#64, xm := m, lm := m, live := live
    copies := FMap.putAll [] ((setBits 4 live).map fun sl => (sl, startCopy l idx))
    frags := [{ slices := live, spc := l.kd.entry, cls := if l.chain.isSome then 1 else l.kd.cls }]
    rng := FMap.putAll [] ((List.range 32).map fun i => (i, rngSeed 0 i)) }
/-- Start a block's gangs on their seats, its scratchpad zero (12 R210). -/
def State.startBlock (s : State) (lid : Nat) (l : Launch) (idx core tbase spbase : Nat) (seats : List Seat) : State :=
  let bid := s.nextBlock
  let g0 := s.nextGang
  let asid := ((s.iface? l.vi).map (·.asid)).getD 0
  let b : Block := { launch := lid, idx := idx, core := core, gangs := (List.range seats.length).map fun i => g0 + i, tiles := l.kd.tiles
                     tbase := tbase, spbase := spbase, scratch := l.kd.scratch, bsbase := Config.blockArea bid &&& ~~~0xFFFF#64 }
  let s1 := { (s.setBlock bid b).spClear core (256 * spbase) l.kd.scratch with nextBlock := bid + 1, nextGang := g0 + seats.length }
  let s2 := seats.zipIdx.foldl (fun (s : State) e => s.updGang (g0 + e.2) (startGang (g0 + e.2) lid bid core l asid e.1 e.2)) s1
  let l1 := (s2.launch? lid).getD l
  (s2.setLaunch lid { l1 with dispatched := l1.dispatched ++ [idx] }).unspawn lid l.vi
/-- Place a descheduled block's gangs again (21 R353). -/
def State.placeAgain (s : State) (bid : Nat) (b : Block) (core tbase spbase : Nat) (seats : List Seat) : State :=
  let b1 := { b with core := core, tbase := tbase, spbase := spbase, byChain := false }
  let s1 := (s.setBlock bid b1).resumeBlock bid b1
  ((s1.blockGangs b1).zip seats).foldl (fun (s : State) e =>
    let seat := e.2
    s.updGang e.1.1 (s.resumeGang { e.1.2 with
      core := core, part := seat.part, slot := seat.slot, vbase := seat.vbase, abase := seat.abase })) s1
/-- Place one target in the partitions at the head of a list; what is left of the list. Assumption 67: DESIGN CHOICE. -/
def State.placeOne (s : State) (lid : Nat) (l : Launch) (t : Nat × Nat) (parts : List Nat) : Option (State × List Nat) :=
  match s.need lid l t with
  | .misplaced => none
  | .nothing => some (s, parts)
  | .start =>
    let n := if l.seed then 1 else l.kd.gangs
    match s.room t.2 l.kd.tiles l.kd.scratch, seatAll (s.seats t.2) l.kd.regs l.kd.accs (parts.take n) with
    | some (tb, sb), some seats =>
      if seats.length = n && s.startOk lid l t.1 && s.chainOk lid l false t.2 && s.shareOk l.vi t.2
      then some (s.startBlock lid l t.1 t.2 tb sb seats, parts.drop n) else none
    | _, _ => none
  | .again bid b =>
    let n := b.gangs.length
    match s.room t.2 b.tiles b.scratch, seatAll (s.seats t.2) l.kd.regs l.kd.accs (parts.take n) with
    | some (tb, sb), some seats =>
      if seats.length = n && s.chainOk lid l b.byChain t.2 && s.shareOk l.vi t.2
      then some (s.placeAgain bid b t.2 tb sb seats, parts.drop n) else none
    | _, _ => none
/-- Place the targets in order, or none of them. -/
def State.placeAll (s : State) (lid : Nat) : List (Nat × Nat) → List Nat → Option State
  | [], _ => some s
  | t :: r, parts => match s.launch? lid with
    | none => none
    | some l => match s.placeOne lid l t parts with
      | none => none
      | some (s1, left) => s1.placeAll lid r left
/-- The device dispatches: COLD or EXCURSION (26 R388), booted, and no reset saving gangs (27 R409). Assumptions 66, 68: DEDUCED. -/
def State.dispatches (s : State) : Bool := s.cryo.runs && !s.boot.recovery && !s.boot.saving
/-- A target does not stand on its core yet. -/
def State.unplaced (s : State) (lid : Nat) (l : Launch) (t : Nat × Nat) : Bool :=
  match s.need lid l t with
  | .start => true
  | .again _ _ => true
  | _ => false
/-- BLOCK_DISPATCH: the block of a launch goes to a core, each gang to its partition. A core that is GATED begins to wake (24 R378), and a
domain that is not in run begins to leave its idle state (26 R386); the block is then placed by a later step.
Assumption 67: DESIGN CHOICE. -/
def execBlockDispatch (lid block core : Nat) (parts : List Nat) (s : State) : Result :=
  match s.launch? lid with
  | none => .next s
  | some l =>
    let ts := (l.targets block core).filter fun t => s.unplaced lid l t
    let cs := ts.map (·.2)
    if l.cancelled || l.complete || nCores ≤ core || !s.dispatches || !ts.any (fun t => t.1 == block) then .next s
    else match s.placeAll lid (l.targets block core) parts with
      | none => .next s
      | some s1 =>
        if cs.any fun c => (s.core c).gate ≠ 0 then
          .next (cs.foldl (fun (s : State) c =>
            if (s.core c).gate = 2 then s.updCore c fun k => { k with gate := 3, wakeAt := s.ns + 10000 } else s) s)
        else if cs.any fun c => !s.domainRuns (domainOf c) then .next (cs.foldl (fun (s : State) c => s.needDomain (domainOf c)) s)
        else .next s1

end Sys2Proof.Machine
end

