-- ==== Sys2Proof/Machine/Place.lean ====
section
/-! DEFINITION. An instruction's bits placed where the next step fetches: a gang of an enqueued kernel stands on core 0, as the
dispatcher starts one, with the bits in its code, and the next clock issues them. How a program comes to run is in the assumption log. -/

namespace Sys2Proof.Machine

/-- The launch of a placed gang in interface 0: scalar code of 64 bytes at 0x10000 and lane code of 64 bytes at
0x10040, both in the 64 KiB page at that address. Assumption 2: DESIGN CHOICE. -/
def placedLaunch : Launch :=
  { kd := { entry := 0x10000, scbase := 0x10000, scsize := 64, lcbase := 0x10040, lcsize := 64 }, dispatched := [0] }
/-- The leaf of the page: present, readable, executable, for users, used, cached in the L2 alone. Assumption 2: DESIGN CHOICE. -/
def placedLeaf : Dword := 0x0010000000010075#64
/-- The placed gang as it starts: one gang of four slices, 32 registers. Assumption 2: DESIGN CHOICE. -/
def placedGang (gid lid bid : Nat) (asid : Word) : Gang :=
  { startGang gid lid bid 0 placedLaunch asid { part := 0, slot := 0, vbase := 0, regs := 32, abase := 0, accs := 0 } 0 with csbase := 0 }
/-- A gang stands on core 0 with its launch, block, interface and translation; its instruction cache holds nothing of the code. -/
def State.placeGang (s : State) : State :=
  let gid := s.nextGang
  let bid := s.nextBlock
  let lid := s.nextLaunch
  let b : Block := { launch := lid, core := 0, gangs := [gid] }
  let i := (s.iface? 0).getD {}
  { (((s.updGang gid (placedGang gid lid bid i.asid)).setBlock bid b).setLaunch lid placedLaunch).setIface 0 i with
    nextGang := gid + 1, nextBlock := bid + 1, nextLaunch := lid + 1, tlb := (0, i.asid, 0x10000, 0x10000, placedLeaf) :: s.tlb
    icache := s.icache.filter fun e => e.1 != i.asid || e.2.1 / 1024 != 1 }
/-- A scalar word at the gang's SPC, the lane stream with nothing to issue in the next clock. Assumption 2: DESIGN CHOICE. -/
def State.placeScalar (s : State) (w : Nat) : State :=
  let s1 := s.placeGang
  { s1 with mem := Memory.writeAt s1.mem 0x10000 (leOf 4 w), turns := [[.busy s.nextGang 0 true]] }
/-- A clause in issue at the gang's sequencer, one item long, the scalar stream waiting for its bytes in the next clock:
the item's bytes, the first in bits [7:0].
Assumption 2: DESIGN CHOICE. -/
def State.placeLane (s : State) (w : Nat) : State :=
  let s1 := s.placeGang
  let e : Entered := { id := 0, base := 0x10040, limit := 64, fa := 1, fb := 2, rem := 1 }
  let s2 := match s1.gang? s.nextGang with
    | some g => s1.updGang s.nextGang { g with frags := g.frags.map fun (f : Frag) => { f with entered := some e, lpc := 4 } }
    | none => s1
  { s2 with mem := Memory.writeAt s2.mem 0x10044 (leOf 13 w), turns := [[.busy s.nextGang 0 false]] }

end Sys2Proof.Machine
end

