-- ==== Sys2Proof/Machine/CopyMove.lean ====
section
/-! DEFINITION. Copies in flight (16 R281 to R283, 12 R209), the decompression engine (16 R286 to R288, 20 R334), and the
instructions and steps of both (17 R298, R299). -/

namespace Sys2Proof.Machine

/-! ### Payload (R283) -/

/-- Physical address of a copy's byte in a space; none where it no longer translates, or where a gang's copy no longer reaches (19 R332). -/
def State.copyPa (s : State) (core : Nat) (c : Copy) (acc : Acc) (sp a : Nat) : Option Nat :=
  let win := 0x8000000000000 + core * 2 ^ 22
  match sp with
  | 0 => s.pa? (s.whoEngine core c.launch c.sys) acc a
  | 1 => (c.block.bind s.block?).map fun b => win + 256 * b.spbase + a
  | 2 => some a
  | _ => match c.block with
    | some b => if s.ownPlace core b a then some (win + a) else none
    | none => some (win + a)
/-- The interface whose context a copy's accesses to an aperture are in. Assumption 35: DEDUCED. -/
def State.copyVi (s : State) (c : Copy) : Nat :=
  match c.launch.bind s.launch? with
  | some l => l.vi
  | none => s.viOf (c.asid.getD 0)

/-- Bytes a copy reads, as one read of an element (12 R209), and what the read clears; a register or tile whose gang has ended reads zero (19
R332). Assumption 34: DESIGN CHOICE. -/
def State.copyLoads (s : State) (core : Nat) (c : Copy) (sp : Nat) (as : List Nat) : List Byte × State :=
  let pas := as.map fun a => s.copyPa core c .load sp a
  (pas.map fun p => match p with
    | some pa => s.physByte pa
    | none => 0,
   s.physClear ((pas.filterMap id).filter fun pa => decide (dramEnd ≤ pa)))
/-- Bytes a copy writes, as one write of an element (12 R212): DRAM through the L2, past the L1s. Assumption 34: DESIGN CHOICE. -/
def State.copyStore (s : State) (core : Nat) (c : Copy) (sp a : Nat) (bs : List Byte) : State :=
  let cells := bs.zipIdx.filterMap fun e => (s.copyPa core c .store sp ((a + e.2) % 2 ^ 64)).map fun pa => (pa, e.1)
  let dram := cells.filter fun x => decide (x.1 < dramEnd)
  let rest := cells.filter fun x => !decide (x.1 < dramEnd)
  let s1 := if dram.isEmpty then s else s.l2Direct (some core) dram
  if rest.isEmpty then s1 else s1.physPut (s1.copyVi c) none none a rest

/-- The combination of a reduction (R283). -/
def redWord (red rty : Nat) (m x : Word) : Word :=
  let sgn := rty == 0
  match red with
  | 1 => if rty = 2 then f32Add .rne m x else m + x
  | 2 => if rty = 2 then toF32 .rne (Val.minmax false (f32v m) (f32v x))
    else if (if sgn then x.slt m else x.ult m) then x else m
  | 3 => if rty = 2 then toF32 .rne (Val.minmax true (f32v m) (f32v x))
    else if (if sgn then m.slt x else m.ult x) then x else m
  | 4 => m &&& x
  | 5 => m ||| x
  | _ => x

/-- Bytes of an element, or of the part of it in a chunk: offsets in the element. -/
def Elem.part (t : List Byte) (e : Elem) (chunk : Nat) : List Nat :=
  (List.range e.size).filter fun i => chunkOf t ((e.dst + i) % 2 ^ 64) == chunk
/-- Fill byte of an element (R284). -/
def fillByte (w i : Nat) : Byte := BitVec.ofNat 8 (w / 2 ^ (8 * (i % 4)))

/-- Stores of the core on their way to the lines that a copy is about to combine into reach the slice ahead of it (12 R213). -/
def State.copyDrain (s : State) (core : Nat) (c : Copy) (sp : Nat) (as : List Nat) : State :=
  let ls := (as.filterMap fun a => s.copyPa core c .store sp a).map lineOf
  s.drainLines core fun l => ls.contains l
/-- One element, as far as it lies in the chunk; a reduction combines the whole element that begins there, in one operation of its slice (12
R213, 13 R239). Assumption 34: DESIGN CHOICE. -/
def State.moveElem (s : State) (core : Nat) (c : Copy) (chunk : Nat) (e : Elem) : State :=
  let sp := Tpl.ssp c.tpl
  let dp := Tpl.dsp c.tpl
  if Tpl.red c.tpl ≠ 0 then
    if chunkOf c.tpl e.dst ≠ chunk then s
    else
      let (x, s1) := match e.src with
        | some a => s.copyLoads core c sp (span64 a 4)
        | none => ((List.range 4).map (fillByte e.fill), s)
      let (m, s2) := (s1.copyDrain core c dp (span64 e.dst 4)).copyLoads core c dp (span64 e.dst 4)
      s2.copyStore core c dp e.dst (leOf 4 (redWord (Tpl.red c.tpl) (Tpl.rty c.tpl) (BitVec.ofNat 32 (leVal m)) (BitVec.ofNat 32 (leVal x))).toNat)
  else
    match e.part c.tpl chunk with
    | [] => s
    | i :: r =>
      let is := i :: r
      let (bs, s1) := match e.src with
        | some a => s.copyLoads core c sp (is.map fun k => (a + k) % 2 ^ 64)
        | none => (is.map (fillByte e.fill), s)
      s1.copyStore core c dp ((e.dst + i) % 2 ^ 64) bs

/-- What a copy reads in a chunk, of memory or of a window, is poisoned (12 R216); a reduction reads its destination too. -/
def State.copyPoison (s : State) (core : Nat) (c : Copy) (es : List Elem) (chunk : Nat) : Bool :=
  let bad := fun (acc : Acc) (sp a : Nat) => match s.copyPa core c acc sp (a % 2 ^ 64) with
    | some pa => (s.physBad pa).isSome
    | none => false
  es.any fun e => (e.part c.tpl chunk).any fun i => (match e.src with
    | some a => bad .load (Tpl.ssp c.tpl) (a + i)
    | none => false) || (Tpl.red c.tpl != 0 && bad .store (Tpl.dsp c.tpl) (e.dst + i))

/-- Window offset of the tag byte of the register a place lies in, with a key for the register. -/
def tagPlace : Place → Option Nat
  | .vreg p r _ _ => some (0x150000 + 768 * p + r)
  | .acc r _ _ _ => some (0x150C00 + r)
  | .tile t _ | .side t _ => some (0x150C40 + t)
  | _ => none
/-- Core and tag place of a byte the copy writes in a window. -/
def State.copyTagAt (s : State) (core : Nat) (c : Copy) (a : Nat) : Option (Nat × Nat) :=
  match s.copyPa core c .store (Tpl.dsp c.tpl) a with
  | some pa => if inWindow pa then (tagPlace (placeOf (winOff pa))).map fun o => (winCore pa, o) else none
  | none => none
/-- Registers whose last byte has landed with a chunk take the template's tag (12 R209). Assumption 35: DEDUCED. -/
def State.copyTags (s : State) (core : Nat) (c : Copy) (es : List Elem) (chunk : Nat) (bits : BitVec 128) : State :=
  if !Tpl.ten c.tpl then s
  else
    let all := es.flatMap fun e => (span64 e.dst e.size).filterMap fun a =>
      (s.copyTagAt core c a).map fun k => (k, chunkOf c.tpl a)
    let now := ((all.filter fun x => x.2 == chunk).map (·.1)).eraseDups
    (now.filter fun k => all.all fun x => x.1 != k || bits.getLsbD x.2).foldl
      (fun (s : State) k => s.winPut k.1 k.2 ((Tpl.tag c.tpl).setWidth 8)) s

/-- Words of tiles that the copy is about to write in a chunk, and a tag it sets: what they held stays known to the engines, to those of other
gangs of the tile's block until a barrier of both (15 R273, R274). -/
def State.copyTiles (s : State) (core : Nat) (c : Copy) (es : List Elem) (chunk : Nat) : State :=
  match c.gang with
  | none => s
  | some gid =>
    let hit := fun (a : Nat) => match s.copyPa core c .store (Tpl.dsp c.tpl) (a % 2 ^ 64) with
      | some pa => if inWindow pa then (match placeOf (winOff pa) with
          | .tile t b => (s.holderT (winCore pa) t).map fun h => (h.1, h.2.2, 2 ^ 16 + 512 * h.2.2 + b / 4)
          | .side t b => (s.holderT (winCore pa) t).map fun h => (h.1, h.2.2, 2 ^ 17 + 128 * h.2.2 + b / 4)
          | _ => none) else none
      | none => none
    let ws := (es.flatMap fun e => (e.part c.tpl chunk).filterMap fun i => hit (e.dst + i)).eraseDups
    ((ws.map fun w => (w.1, w.2.1)).eraseDups).foldl (fun (s : State) t =>
      s.tileTouched t.1 (some gid) false t.2 (((ws.filter fun w => w.1 == t.1 && w.2.1 == t.2).map fun w => w.2.2) ++
        (if Tpl.ten c.tpl then [2 ^ 18 + t.2] else []))) s

/-- Copies of a channel are performed in acceptance order (R281): this one is the first of its channel. -/
def Core.firstOfChannel (k : Core) (c : Copy) : Bool :=
  (k.copies.find? fun x => x.chan == c.chan) == some c

/-- COPY_CHUNK_COMPLETE (R282): the bytes of one chunk land, and its bit is set; poisoned bytes end the copy with code 8.
Assumption 34: DESIGN CHOICE. -/
def execCopyChunkComplete (core slot chunk : Nat) (s : State) : Result :=
  let k := s.core core
  let sl := FMap.get k.slots slot
  match k.copies.find? fun c => c.slot == slot with
  | none => .next s
  | some c =>
    let es := copyElems c.tpl c.recd
    let ahead := Tpl.red c.tpl ≠ 0 && es.any fun e =>
      chunkOf c.tpl e.dst != chunk && !(e.part c.tpl chunk).isEmpty && !sl.bits.getLsbD (chunkOf c.tpl e.dst)
    if c.parked || !k.firstOfChannel c || sl.st ≠ 1 || 128 ≤ chunk || sl.bits.getLsbD chunk || ahead then .next s
    else if s.copyPoison core c es chunk then
      .next ((s.copyFail core slot 8 (s.starter c.gang) none).acceptHelds 600 core slot)
    else
      let s1 := es.foldl (fun (s : State) e => s.moveElem core c chunk e) (s.copyTiles core c es chunk)
      let bits := putBit sl.bits chunk true
      let s2 := s1.updCore core fun k => { k with slots := FMap.put k.slots slot { sl with bits := bits } }
      .next (s2.copyTags core c es chunk bits)

/-- COPY_COMPLETE (R281, R283, 13 R239): once every chunk has landed the flag word is written and the slot is DONE; a held store
is accepted once its slot is not BUSY. -/
def execCopyComplete (core slot : Nat) (s : State) : Result :=
  let k := s.core core
  let sl := FMap.get k.slots slot
  match k.copies.find? fun c => c.slot == slot with
  | none => .next (s.acceptHelds 600 core slot)
  | some c =>
    if c.parked || !k.firstOfChannel c || sl.bits != BitVec.allOnes 128 then .next s
    else
      let fsp := if c.block.isNone && c.launch.isNone then 2 else 0
      let s1 := if Tpl.fen c.tpl then s.copyStore core c fsp (Tpl.faddr c.tpl) (leOf (Tpl.fsize c.tpl) (Tpl.fval c.tpl)) else s
      let s2 := s1.updCore core fun k => { k with
        copies := k.copies.filter fun (x : Copy) => x.slot != slot
        slots := FMap.put k.slots slot { FMap.get k.slots slot with st := 2 } }
      .next (s2.acceptHelds 600 core slot)

/-- A parked copy checks again at a replay (R280, 21 R346), as its starter did, whether or not its gang still runs (R281); a record that was
away is read first. -/
def State.replayCopy (s : State) (core : Nat) (c : Copy) : State :=
  let st : Starter := { gang := c.gang, launch := c.launch, block := c.block, sys := c.sys, asid := c.asid, again := true }
  let (r, s0) := if !Tpl.len c.tpl then (.bad, s) else if c.unread then s.getRecord core st (Tpl.recAt c.tpl) else (.got c.recd, s)
  let res := match (if c.unread then s0.formBad core st 0 c.tpl r else none) with
    | some n => .err n none
    | none => s0.copyReach core st c.tpl r
  (s0.judged core c st r res).acceptHelds 600 core c.slot

/-- BTE_APERTURE_STORE (R279), by a gang or, through a core window, by a system agent. -/
def execBteApertureStore (core : Nat) (chan : BitVec 4) (w : Word) (gang : Option Nat) (s : State) : Result :=
  .next (s.bteStore core chan.toNat w gang none gang.isNone)
/-- TEMPLATE_WRITE (R278). -/
def execTemplateWrite (core off : Nat) (bytes : List Byte) (gang : Option Nat) (s : State) : Result :=
  .next (s.tplWrite core off bytes (match gang.bind s.gang? with
    | some g => { sys := g.priv, asid := some g.asid }
    | none => {}))

/-! ### CBTST, CBWAIT, CPSTS (17 R299) -/

/-- Slot that a slot instruction names. -/
def slotOf (g : Gang) (f : Frag) (r : SReg) : Nat := bitsOf (f.captured (g.actSlice f) r).toNat 8 0
/-- A word of a slot's bitmap. -/
def CopySlot.word (c : CopySlot) (w : Nat) : Word := c.bits.extractLsb' (32 * w) 32
/-- A slot's status word (16 R281). -/
def CopySlot.status (c : CopySlot) : Word := BitVec.ofNat 32 (c.st * 2 ^ 30 + c.err * 2 ^ 24 + c.tidx * 2 ^ 16 + c.chan * 2 ^ 12)

/-- CBTST; the acquire is of block scope, which the core's own order gives (13 R231, R239). -/
def execCbtst (d a b : SReg) (acq : Bool) (w : BitVec 2) (s : State) : Result :=
  laneRun s (.cbtst d a b acq w) noTags fun g f =>
    s.finishScalar g f d ((FMap.get (s.core g.core).slots (slotOf g f a)).word w.toNat &&& f.captured (g.actSlice f) b)
def execCbwait (d a b : SReg) (w : BitVec 2) (s : State) : Result :=
  laneRun s (.cbwait d a b w) noTags fun g f =>
    let sl := FMap.get (s.core g.core).slots (slotOf g f a)
    let m := f.captured (g.actSlice f) b
    let x := sl.word w.toNat &&& m
    if g.taking f = 0 || x = m || sl.st = 3 || sl.st = 0 then s.finishScalar g f d x else hold s g f
def execCpsts (d a : SReg) (s : State) : Result :=
  laneRun s (.cpsts d a) noTags fun g f =>
    s.finishScalar g f d (FMap.get (s.core g.core).slots (slotOf g f a)).status

/-! ### DSUB and RECFL (17 R298) -/

/-- Address pair of a copy command, in the lowest slice with a taking lane. -/
def cmdAddr (f : Frag) (w : Word) (r : SReg) : Dword := f.capturedPair (lowTaking f w) r
/-- Check of a job card's address: 64 bytes at a multiple of 64, as a load. -/
def State.cardChk (s : State) (g : Gang) (a : Nat) : Chk := if a % 64 ≠ 0 then .bad 7 a else s.chk (s.whoGang g) .load a 64
def execDsub (base : SReg) (e : EngCtl) (s : State) : Result :=
  engineRun s (.dsub base e) e .copy
    (fun g f w => if w = 0 then none else addrCheck s g f .load (s.cardChk g) [(0, (cmdAddr f w base).toNat)])
    fun _ f w c => { c with addr := cmdAddr f w base }
def execRecfl (base : SReg) (e : EngCtl) (s : State) : Result :=
  engineRun s (.recfl base e) e .copy (fun _ _ _ => none) fun _ f w c => { c with addr := cmdAddr f w base }

/-! ### The decompression engine (16 R286 to R288) -/

/-- DDE_JOB_ACCEPT (17 R298) of the gang that is the subject: the DSUB at its copy queue's head, while fewer than 64 cards
wait; a release at device scope, the card read whole, and the flag falls. Assumption 36: DEDUCED. -/
def execDdeJobAccept (s : State) : Result :=
  let gid := s.subject
  match s.gang? gid with
  | none => .next s
  | some g => match g.cq with
    | c :: r => match c.instr with
      | .dsub _ _ =>
        let cl := FMap.get s.clusters (clusterOf g.core)
        if g.headHeld c || g.headFalse c || 64 ≤ cl.cards.length then .next s
        else
          let w := { (s.release g.core .device).whoGang g with user := .dde }
          let (bytes, s0) := (s.release g.core .device).agentGet w c.addr.toNat 64
          let card : DdeCard := { core := g.core, launch := g.launch, block := g.block, gang := gid, sys := g.priv, bytes := bytes,
                                  bad := (s.poisonAt w c.addr.toNat 64).isSome }
          let cl1 := match cl.job with
            | none => { cl with job := some card }
            | some _ => { cl with cards := cl.cards ++ [card] }
          let s1 := { s0 with clusters := FMap.put s0.clusters (clusterOf g.core) cl1 }
          .next (((s1.updGang gid { g with cq := r }).lowerMates c).sweep gid)
      | _ => .next (s.sweep gid)
    | [] => .next s

/-- Fields of a card (R286). -/
structure CardFields where
  src   : Nat
  slen  : Nat
  dst   : Nat
  dcap  : Nat
  fen   : Bool
  fsize : Nat
  faddr : Nat
  fval  : Nat
  stat  : Nat
  bad   : Bool

def cardFields (b : List Byte) : CardFields :=
  { src := field b 0 8, slen := field b 8 4, dst := field b 16 8, dcap := field b 24 4
    fen := bitsOf (field b 28 4) 0 0 == 1, fsize := if bitsOf (field b 28 4) 1 1 = 1 then 8 else 4
    faddr := field b 32 8, fval := field b 40 8, stat := field b 48 8
    bad := field b 12 4 != 0 || bitsOf (field b 28 4) 31 2 != 0 || field b 56 8 != 0 }

/-- How a job ends: status, output bytes, stream bytes consumed. -/
structure DdeEnd where
  status : Nat
  out    : List Byte
  used   : Nat
  deriving DecidableEq, Repr

/-- Bytes that a match repeats, one by one (R287). -/
def matchBytes : Nat → Nat → List Byte → List Byte
  | 0, _, out => out
  | n + 1, d, out => matchBytes n d (out ++ [out.getD (out.length - d) 0])

/-- The bytes of a token; none where one of them is poisoned. -/
def tokenBytes (rd : Nat → Option Byte) (p n : Nat) : Option (List Byte) := (List.range n).mapM fun i => rd (p + i)

/-- Run a stream of `slen` bytes from position `p` (R287, R288, 20 R334). Assumption 36: DEDUCED. -/
def ddeRun (rd : Nat → Option Byte) (slen dcap : Nat) : Nat → Nat → List Byte → DdeEnd
  | 0, p, out => ⟨3, out, p⟩
  | n + 1, p, out =>
    if slen ≤ p then ⟨3, out, p⟩
    else match rd p with
      | none => ⟨4, out, p⟩
      | some b =>
        let t := b.toNat
        if t = 0xFF then ⟨0, out, p + 1⟩
        else if 0xC0 ≤ t then ⟨1, out, p⟩
        else
          let extra := if t < 0x40 then t + 1 else if t < 0x80 then 1 else 2
          if slen < p + 1 + extra then ⟨3, out, p⟩
          else match tokenBytes rd (p + 1) extra with
            | none => ⟨4, out, p⟩
            | some bs =>
              let v := leVal bs
              let (l, d) := if t < 0x80 then (t / 8 % 8 + 3, t % 8 * 256 + v + 1) else (t % 64 + 3, v + 1)
              if t ≥ 0x40 && out.length < d then ⟨1, out, p⟩
              else
                let next := if t < 0x40 then out ++ bs else matchBytes l d out
                if dcap < next.length then ⟨2, next.take dcap, p⟩
                else ddeRun rd slen dcap n (p + 1 + extra) next

/-- Check the accesses of a job in the order of R280. Assumption 36: DEDUCED. -/
def State.jobCheck (s : State) (core : Nat) (st : Starter) (c : CardFields) : CopyCheck :=
  if c.bad || (c.stat ≠ 0 && c.stat % 16 ≠ 0) then .err 2 none
  else
    (s.copyBytes core st .load 0 (span64 c.src c.slen)).out 4 .load <|
    (s.copyBytes core st .store 0 (span64 c.dst c.dcap)).out 5 .store <|
    (if c.fen then
      (if c.faddr % c.fsize ≠ 0 then .bad else s.copyBytes core st .store 0 (span64 c.faddr c.fsize))
     else .ok).out 6 .store <|
    (if c.stat ≠ 0 then s.copyBytes core st .store 0 (span64 c.stat 16) else .ok).out 5 .store .pass
/-- Whether the status record's own checks pass. Assumption 36: DEDUCED. -/
def State.statOk (s : State) (core : Nat) (st : Starter) (c : CardFields) : Bool :=
  c.stat ≠ 0 && c.stat % 16 == 0 && s.copyBytes core st .store 0 (span64 c.stat 16) == .ok

/-- A job's output, its record, and on status 0 its flag word (R288, 20 R333). -/
def State.jobWrite (s : State) (core : Nat) (st : Starter) (c : CardFields) (r : DdeEnd) : State :=
  let w := { s.whoEngine core st.launch st.sys with user := .dde }
  let s1 := if r.out.isEmpty then s else s.agentWrite w c.dst r.out
  let s2 := if s1.statOk core st c then
      s1.agentWrite w c.stat (leOf 4 r.out.length ++ leOf 4 r.used ++ leOf 2 r.status ++ List.replicate 6 0) else s1
  if c.fen && r.status == 0 then s2.agentWrite w c.faddr (leOf c.fsize c.fval) else s2

/-- DDE_JOB_END (R286 to R288) of the cluster that is the subject: its running job, from its first check to its end; then
the next card's job runs. A job whose card was poisoned fails (status 4, R288) with nothing written, for the card's own fields say where its
record would go. Assumption 36: DEDUCED. -/
def execDdeJobEnd (s : State) : Result :=
  let cn := s.subject
  let cl := FMap.get s.clusters cn
  match cl.job with
  | none => .next s
  | some j =>
    if j.parked then .next s
    else if j.bad then .next { s with clusters := FMap.put s.clusters cn { cl with job := cl.cards.head?, cards := cl.cards.tail } }
    else
      let asid := match s.launch? j.launch with
        | some l => (s.whoLaunch l).asid
        | none => 0
      let st : Starter := { gang := some j.gang, launch := some j.launch, block := some j.block, sys := j.sys, asid := some asid }
      let c := cardFields j.bytes
      let done := fun (s : State) =>
        { s with clusters := FMap.put s.clusters cn (let x := FMap.get s.clusters cn; { x with job := x.cards.head?, cards := x.cards.tail }) }
      match s.jobCheck j.core st c with
      | .park va acc =>
        let s1 := s.postPark asid va acc j.core
        .next { s1 with clusters := FMap.put s1.clusters cn { cl with job := some { j with parked := true } } }
      | .err _ lease =>
        let s1 := done (s.jobWrite j.core st c ⟨4, [], 0⟩)
        (match lease with
          | some va =>
            let b := (s1.block? j.block).getD {}
            .next ((s1.addErr j.launch { time := s.ns, taddr := BitVec.ofNat 64 va, tval := 0xA00, code := 3, source := 4, core := j.core,
                                         block := b.idx }).cancelLaunch j.launch)
          | none => .next s1)
      | .pass =>
        let w := { s.whoEngine j.core st.launch st.sys with user := .dde }
        let rd := fun p => if (s.poisonAt w (c.src + p) 1).isSome then none else (s.agentRead w (c.src + p) 1).head?
        let r := ddeRun rd c.slen c.dcap (c.slen + 1) 0 []
        .next (done ((s.installAll w .load c.src (min c.slen (r.used + 3))).jobWrite j.core st c r))

end Sys2Proof.Machine
end

