-- ==== Sys2Proof/Machine/Sequencer.lean ====
section
/-! DEFINITION. Steps of a fragment's sequencer: entering a clause (01 R19, R25, 07 R142), guards and lane writes that land (01
R18, R24), traps (21 R338), rendezvous that complete or time out (07 R148, R149), ageing (07 R157), parks and replays (21 R345, R346),
migrations (21 R347), and register writes that are steps of their own (02 R45, 10 R191, R196). -/

namespace Sys2Proof.Machine

/-! ### Fetching an item -/

/-- A fetch of code uses its translations and fills the instruction cache (03 R78, 12 R225). -/
def State.fetched (s : State) (w : Who) (va n : Nat) : State :=
  if n = 0 then s
  else
    let s1 := s.installAll w .fetch va n
    let s2 := s1.icFill w va
    if va / 64 = (va + n - 1) / 64 then s2 else s2.icFill w (va + n - 1)
/-- Fetch the item at an offset of the lane code section (01 R17): a byte of it that cannot be fetched faults or parks. -/
def laneFetch (s : State) (g : Gang) (f : Frag) (base : Dword) (limit : Word) (off : Nat) (k : State → List Byte → Result) : Result :=
  let bs := s.laneBytes g base limit off
  match fetchGap bs limit.toNat off with
  | some o => fetchFault s g f true (base.toNat + o) 1
  | none => k (s.fetched (s.whoGang g) (base.toNat + off) (match bs with
      | b :: _ => min bs.length (itemLength b)
      | [] => 0)) bs

/-! ### Entering a clause (R19) -/

/-- The clause at the queue's head is discarded (R25): its marks clear. -/
def Frag.discardHead (f : Frag) : Frag :=
  match f.queue with
  | [] => f
  | e :: q => { f with queue := q, marks := f.marks.filter fun m => m.clause != e.id || m.issued, lwait := .none, parkL := none }
/-- The head's guard is consumed: the entry goes on unguarded. -/
def Frag.consumeGuard (f : Frag) : Frag :=
  match f.queue with
  | [] => f
  | e :: q => { f with queue := { e with guard := none } :: q }
/-- The head's guard holds in some slices only (07 R142): the fragment splits, and the parts that discard come without the clause. -/
def guardSplit (s : State) (g : Gang) (f : Frag) (m : BitVec 4) : State :=
  let no := f.slices &&& ~~~m
  let parts := [m, no].mergeSort fun a b => decide (a.toNat ≤ b.toNat)
  let (s1, f1) := s.traceSplit g f 1 (parts.map fun p => (p, p == m))
  let mk := fun (p : BitVec 4) =>
    let x := { f1 with slices := p }
    if p = m then x.consumeGuard else x.discardHead
  let byLow := [m, no].mergeSort fun a b => decide (lowSlice a ≤ lowSlice b)
  s1.updGang s.gang (g.replaceFrag f (byLow.map mk))
/-- The wait and set steps of an unguarded head (R19): its wait mask, its checks, its flags, and it is entered. Assumption 19: DEDUCED. -/
def clauseSet (s : State) (g : Gang) (f : Frag) (e : QEntry) (rest : List QEntry) : Result :=
  laneFetch s g f g.lcbase g.lcsize e.off.toNat fun s1 bs =>
    match readItem bs with
    | .header q =>
      if !g.flagsClear f (hdrWait q) then .next (s.setCur g f)
      else (match headerCheck q with
        | some n => illegalLane s1 g f n.toNat
        | none =>
          .next (s1.setCur g { f with
            queue := rest, lpc := e.off + 4, lwait := .none, parkL := none
            entered := some { id := e.id, base := g.lcbase, limit := g.lcsize, fa := hdrFA q, fb := hdrFB q, rem := hdrN q + 1, idx := 0
                              cap := e.cap, capOk := e.capOk } }))
    | _ => illegalLane s1 g f 1

/-- CLAUSE_ENTER (R19): the sequencer of the current fragment takes the queue's head. Assumption 19: DEDUCED. -/
def execClauseEnter (s : State) : Result :=
  withCur s fun g f =>
    match f.entered, f.queue with
    | none, e :: rest =>
      (match e.guard with
        | none => clauseSet s g f e rest
        | some n => match g.guardOut f.slices n with
          | none => .next s
          | some m =>
            if m = 0 then
              let (s1, f1) := s.traceGuard g f false
              .next (s1.setCur g f1.discardHead)
            else if m = f.slices then
              let (s1, f1) := s.traceGuard g f true
              let f2 := f1.consumeGuard
              clauseSet s1 (g.putFrag f2) f2 { e with guard := none } rest
            else .next (guardSplit s g f m))
    | _, _ => .next s

/-! ### Guards and lane writes (R18, R24) -/

/-- A fragment between clauses discards the head whose guard is false in all its slices (R25). Assumption 18: DEDUCED. -/
def State.discardFalse (s : State) (gid sl : Nat) : State :=
  match s.gang? gid with
  | none => s
  | some g => match g.fragOf sl with
    | none => s
    | some f => match f.entered, f.queue with
      | none, e :: _ =>
        (match e.guard with
          | some n => if g.guardOut f.slices n = some 0 then
              let (s1, f1) := s.traceGuard g f false
              s1.updGang gid (g.putFrag f1.discardHead)
            else s
          | none => s)
      | _, _ => s
/-- Every guard of a fragment whose awaited writes have landed or been discarded resolves (R24), and what they decide leaves its queue. -/
def State.settleGuards (s : State) (gid sl : Nat) : State :=
  match s.gang? gid with
  | none => s
  | some g => match g.fragOf sl with
    | none => s
    | some f =>
      let ns := (List.range 16).filter fun n => g.guardReady f n
      if ns.isEmpty then s
      else ((s.updGang gid (ns.foldl (fun (g : Gang) n => g.resolve f n) g)).discardFalse gid sl).sweep gid
/-- GUARD_RESOLVE (R24): the slot resolves in every slice of the current fragment, and what it decides leaves its queue.
Assumption 18: DEDUCED. -/
def execGuardResolve (slot : GSlot) (s : State) : Result :=
  withCur s fun g f =>
    if g.guardReady f slot.toNat then
      .next (((s.updGang s.gang (g.resolve f slot.toNat)).discardFalse s.gang (lowSlice f.slices)).sweep s.gang)
    else .next s
/-- LANE_SCALAR_WRITE_LAND (R18): the earliest write of a register of the current fragment lands, and the guards that waited for it
resolve in the same clock, before anything else can write the register (R24). Assumption 18: DEDUCED. -/
def execLaneScalarWriteLand (r : SReg) (s : State) : Result :=
  withCur s fun g f =>
    match f.firstMark r with
    | none => .next s
    | some m =>
      if g.canLand f r then
        let (g1, f1) := g.land f m
        .next ((s.setCur g1 f1).settleGuards s.gang (lowSlice f.slices))
      else .next s

/-! ### Traps -/

/-- TRAP_ENTRY (21 R338) of the current fragment. -/
def execTrapEntry (c : Cause) (tval : Word) (taddr : Dword) (lane : Bool) (s : State) : Result :=
  withCur s fun g f => takeTrap s g f c tval taddr lane
/-- An item that fails a check of 03 R76. A guarded engine command that fails one after the second waits for its slot (17 R292): where it
is false in every slice the item goes as if it had never issued (01 R25). -/
def execIllegalLaneItem (check : BitVec 4) (s : State) : Result :=
  withCur s fun g f =>
    let slot : Option GSlot := match f.entered with
      | some e => (match readItem (if f.item.isEmpty then s.laneBytes g e.base e.limit f.lpc.toNat else f.item) with
        | .lane w _ _ => if w.guard = 1 && w.opcode.toNat / 16 = 0x20 && 3 ≤ check.toNat then some (w.ext.extractLsb' 26 4) else none
        | _ => none)
      | none => none
    match slot with
    | none => illegalLane s g f check.toNat
    | some n => match g.guardOut f.slices n with
      | none => hold s g f
      | some m => if m = 0 then s.finish g f [] else illegalLane s g f check.toNat

/-! ### Rendezvous (07 R148, R149) -/

/-- Run the scoped item that the current fragment waits at again: its rendezvous is judged anew. Assumption 24: DEDUCED. -/
def scopedAgain (i : Instr) (s : State) : Result :=
  match i with
  | .vote sc d a k => execVote sc d a k s
  | .shfl sc d a b m => execShfl sc d a b m s
  | .vred sc d a op c r => execVred sc d a op c r s
  | .vscan sc d a op x c r => execVscan sc d a op x c r s
  | .bar sc => execBar sc s
  | .setdcl z => execSetdcl z s
  | .regang => execRegang s
  | .lbar => execLbar s
  | .mma sc d a t b u c e => execMma sc d a t b u c e s
  | _ => .next s
/-- RENDEZVOUS_ISSUE (R148): the last member has arrived or exited. Assumption 25: DEDUCED. -/
def execRendezvousIssue (s : State) : Result :=
  withCur s fun g f =>
    match f.lwait, s.itemAt g f with
    | .rendezvous _, some (i, _) => scopedAgain i s
    | .lbar _, some (i, _) => scopedAgain i s
    | _, _ => .next s

/-- Scope of a scoped item. -/
def scopeOf : Instr → Option Scope
  | .vote sc _ _ _ | .shfl sc _ _ _ _ | .vred sc _ _ _ _ _ | .vscan sc _ _ _ _ _ _ | .bar sc | .mma sc _ _ _ _ _ _ _ => some sc
  | .setdcl _ => some .b
  | .regang => some .g
  | _ => none
/-- A waiting fragment's rendezvous is complete, so that it issues (R149). Assumption 25: DEDUCED. -/
def State.rdvReady (s : State) (g : Gang) (f : Frag) : Bool :=
  match s.itemAt g f with
  | some (.lbar, _) => s.lbarReady g.launch
  | some (i, _) => (match scopeOf i with
    | some sc => let ps := s.parties sc s.gang g
                 ps.all Party.arrived && !s.partyCancelled ps
    | none => false)
  | none => false
/-- RENDEZVOUS_TIMEOUT (R149) of the current fragment: its count has reached the RDVLIMIT of its lowest slice, and the rendezvous is not
complete. Assumption 25: DEDUCED. -/
def execRendezvousTimeout (s : State) : Result :=
  withCur s fun g f =>
    let lim := ((g.low f).kget 24).toNat
    let since : Option Nat := match f.lwait with
      | .rendezvous n => some n
      | .lbar n => some n
      | _ => none
    match since with
    | none => .next s
    | some n =>
      if lim ≠ 0 && n + lim ≤ s.clk && !s.rdvReady g f then takeTrap s g f .rdvTimeout 0 0 true else .next s

/-- CLASS_AGEING (07 R157) of the current fragment. -/
def execClassAgeing (s : State) : Result :=
  withCur s fun g f =>
    if f.ready < 4096 then .next s
    else .next (s.setCur g { f with ready := 0, cls := if 1 < f.cls then f.cls - 1 else f.cls })

/-! ### Parks (21 R345, R346) -/

/-- PARK_TIMEOUT (R346) of the current fragment: its park, the lane stream's first, has lasted PARKLIM × 256 clk. -/
def execParkTimeout (s : State) : Result :=
  withCur s fun g f =>
    let lim := 256 * ((g.low f).kget 110).toNat
    let late := fun (p : Option Park) => match p with
      | some p => lim != 0 && decide (p.since + lim ≤ s.clk)
      | none => false
    let trap := fun (p : Option Park) (lane : Bool) =>
      let x := p.getD {}
      takeTrap s g f .demandParked (BitVec.ofNat 32 x.lane) (BitVec.ofNat 64 x.addr) lane
    if late f.parkL then trap f.parkL true else if late f.parkS then trap f.parkS false else .next s
/-- Copies and jobs that are parked retry. -/
def State.replayEngines (s : State) : State :=
  let s1 := s.cores.foldl (fun (s : State) e =>
    (e.2.copies.filter fun c => c.parked).foldl (fun (s : State) c => s.replayCopy e.1 c) s) s
  { s1 with clusters := s1.clusters.map fun (e : Nat × Cluster) => (e.1, { e.2 with job := e.2.job.map fun (j : DdeCard) => { j with parked := false } }) }
/-- GLOBAL_REPLAY (R346): every parked access on the device retries; the records of the parks have been serviced.
Assumption 24: DEDUCED. -/
def execGlobalReplay (s : State) : Result :=
  let free := fun (f : Frag) => { f with parkS := none, parkL := none }
  let s1 := { s with
    parks := [], feq := s.feq.filter fun e => match e with
      | .park _ _ _ _ _ => false
      | _ => true
    gangs := s.gangs.map fun (e : Nat × Option Gang) => (e.1, e.2.map fun (g : Gang) => { g with frags := g.frags.map free }) }
  .next s1.replayEngines

/-! ### Migrations (21 R347) -/

/-- Change a leaf in the L2. Assumption 59: DEDUCED. -/
def State.leafPut (s : State) (leaf : Nat) (f : Dword → Dword) : State := s.hwWrite leaf (leOf 8 (f (s.read64 leaf)).toNat)
/-- A leaf that maps the host's copy through its aperture with CA 1; where the copy lies there is the host's. Assumption 59: DEDUCED. -/
def remoteLeaf (clk leaf : Nat) (e : Dword) : Dword :=
  let pa := 2 ^ 50 + 2 ^ 30 * ((Config.freeWord clk leaf).toNat % 2 ^ 18)
  (e &&& 0xFFC00000000000FC#64) ||| BitVec.ofNat 64 (2 ^ 52 + pa + 1)
/-- MIGRATION_REQUEST (R347): the first request sets LK; one that meets another before it completes is decided by the lower stamp, an
equal one for the host, and the loser receives a remote mapping. Assumption 59: DEDUCED. -/
def execMigrationRequest (side : Side) (leaf : Nat) (ns : Dword) (frac : Half) (s : State) : Result :=
  let m := FMap.get s.migs leaf
  let stamp := ns.toNat * 2 ^ 16 + frac.toNat
  let host := side == .host
  let s1 := s.leafPut leaf fun e => e ||| (1#64 <<< 54)
  if !m.live then .next { s1 with migs := FMap.put s1.migs leaf { m with stamp := stamp, host := host, live := true } }
  else if m.host = host then .next { s1 with migs := FMap.put s1.migs leaf { m with stamp := min m.stamp stamp } }
  else
    let (hs, ds) := if host then (stamp, m.stamp) else (m.stamp, stamp)
    let hostWins := decide (hs ≤ ds)
    let m1 : Migration := { stamp := min hs ds, host := hostWins, live := true, expiry := some (s.ns + 2000000) }
    let s2 := { s1 with migs := FMap.put s1.migs leaf m1 }
    .next (if hostWins then s2.leafPut leaf (remoteLeaf s.clk leaf) else s2)
/-- MIGRATION_COMPLETE (R347) of the leaf that is the subject: the winner clears LK. Assumption 59: DEDUCED. -/
def execMigrationComplete (s : State) : Result :=
  let leaf := s.subject
  let m := FMap.get s.migs leaf
  if m.live then
    let s1 := s.leafPut leaf fun e => e &&& ~~~(1#64 <<< 54)
    .next { s1 with migs := FMap.put s1.migs leaf (if m.expiry.isSome then { m with live := false } else {}) }
  else .next s
/-- REMOTE_MAPPING_EXPIRY (R347) of the leaf that is the subject: the device's remote mapping reverts; one on the host is the host's.
Assumption 59: DEDUCED. -/
def execRemoteMappingExpiry (s : State) : Result :=
  let leaf := s.subject
  let m := FMap.get s.migs leaf
  match m.expiry with
  | none => .next s
  | some t =>
    if s.ns < t then .next s
    else
      let s1 := { s with migs := FMap.put s.migs leaf (if m.live then { m with expiry := none } else {}) }
      .next (if m.host then s1.leafPut leaf fun e => (e &&& ~~~1#64) ||| 0x80#64 else s1)

/-! ### Register writes -/

/-- STSEED_WRITE (02 R45): a KWR to STSEED of the current fragment takes effect. Assumption 77: DEDUCED. -/
def execStseedWrite (v : Word) (s : State) : Result :=
  withCur s fun g f => .next (s.setCur (g.kwslices f g.priv 25 fun _ => v) f)
/-- CGCTL_WRITE (10 R191). Assumption 77: DEDUCED. -/
def execCgctlWrite (core : Nat) (v : Word) (s : State) : Result := .next (if core < nCores then s.cgctl core v else s)
/-- CGRD_WRITE (10 R196). Assumption 77: DEDUCED. -/
def execCgrdWrite (core : Nat) (v : Word) (s : State) : Result := .next (if core < nCores then s.cgrd core v else s)

end Sys2Proof.Machine
end

