-- ==== Sys2Proof/Machine/Clock.lean ====
section
/-! DEFINITION. A clock passing (00 R6, 22 R357, R358), who may issue in it, what an issue does to a fragment's class and its place in line
(07 R156, R157), and the clock's end (07 R144, R148, R149). -/

namespace Sys2Proof.Machine

/-! ### Time -/

/-- A main-clock period in 1/36 of 2^-16 ns: 2.4 GHz, and 1.8 GHz in EXCURSION (26 R390). Assumption 12: DESIGN CHOICE. -/
def State.clkPeriod (s : State) : Nat := 65536 * (if s.cryo == Cryo.excursion then 20 else 15)
/-- Station time advances by one clock; a slewed correction changes its rate by at most 200 parts per million, until less than
100 ns are left (R358). Time never falls. Assumption 12: DESIGN CHOICE. -/
def State.advanceTime (s : State) : State :=
  let n := s.clkPeriod + s.timeRem
  let dt := n / 36
  let s1 := { s with time := s.time + dt, timeRem := n % 36 }
  if s.slew = 0 then s1
  else
    let k := 200 * dt + s.slewRem
    let a := k / 1000000
    if s.slew.natAbs < 100 * 65536 then { s1 with slew := 0, slewRem := 0 }
    else if 0 < s.slew then { s1 with time := s1.time + a, slew := s.slew - a, slewRem := k % 1000000 }
    else { s1 with time := s1.time - min a dt, slew := s.slew + a, slewRem := k % 1000000 }
/-- A clock of the device begins: the clock count, station time, and the log records of a nanosecond that has passed (22 R369).
Assumption 12: DESIGN CHOICE. -/
def State.tick (s : State) : State := State.logFlush { s.advanceTime with clk := s.clk + 1 }

/-! ### Running a meaning about a fragment or a subject -/

/-- Set what a turn names. -/
def State.naming (s : State) (gang slice subject : Nat) : State := { s with gang := gang, slice := slice, subject := subject }
/-- The state of an outcome that goes on. -/
def Result.state (r : Result) (s : State) : State :=
  match r with
  | .next t => t
  | _ => s
/-- A step of a fragment, with what is named left as it was. -/
def State.runOn (s : State) (gid sl : Nat) (k : State → Result) : State :=
  (Result.state (k (s.naming gid sl s.subject)) s).naming s.gang s.slice s.subject
/-- A step about a subject. -/
def State.runAbout (s : State) (subject : Nat) (k : State → Result) : State :=
  (Result.state (k (s.naming s.gang s.slice subject)) s).naming s.gang s.slice s.subject
/-- A fragment by its gang and a slice of it. -/
def State.fragAt (s : State) (gid sl : Nat) : Option Frag := (s.gang? gid).bind fun g => g.fragOf sl
/-- Every fragment on a core, by its gang and its lowest slice. -/
def State.streams (s : State) : List (Nat × Nat) :=
  (s.gangList.filter fun e => !e.2.desched).flatMap fun e => e.2.frags.map fun f => (e.1, lowSlice f.slices)

/-! ### Who may issue -/

/-- A gang's fragments may issue: it stands on its core, the hardware does not save it, a coop launch has begun (07 R139), and stall mode
does not hold it (10 R197). Assumption 72: DEDUCED. -/
def State.mayRun (s : State) (g : Gang) : Bool :=
  !g.desched && !g.saveNow && !s.cgHeld g &&
    (match s.launch? g.launch with
      | some l => !l.kd.coop || l.begun
      | none => true)
/-- A fragment's scalar stream may issue: no PDONE has stopped it, no pre-emption drains it (21 R351), and it is not parked. -/
def Frag.mayScalar (f : Frag) : Bool := !f.draining && !f.done && f.parkS.isNone
/-- A fragment's sequencer may issue: it is not parked, and no wait that an event ends holds it. -/
def Frag.mayLane (f : Frag) : Bool :=
  f.parkL.isNone && (match f.lwait with
    | .none => true
    | .held => true
    | _ => false)
/-- A fragment as an issue leaves it (R157): its count restarts and its class is the base class again, in a handler class 0.
Assumption 13: DEDUCED. -/
def Frag.didIssue (f : Frag) (base clk : Nat) (lane : Bool) : Frag :=
  let f1 := { f with ready := 0, cls := if f.inHandler then 0 else base }
  if lane then { f1 with lastL := clk } else { f1 with lastS := clk }
/-- The fragments of a slice set have issued. -/
def State.issued (s : State) (gid : Nat) (m : BitVec 4) (lane : Bool) : State :=
  match s.gang? gid with
  | none => s
  | some g => s.updGang gid { g with frags := g.frags.map fun (f : Frag) =>
      if f.slices &&& m = 0 then f else f.didIssue g.cls s.clk lane }
/-- A fragment counts a clock in which it was ready and did not issue, and ages at 4,096 (R157). Assumptions 12, 13: DESIGN CHOICE,
DEDUCED. -/
def State.waited (s : State) (gid sl : Nat) : State :=
  match s.gang? gid with
  | none => s
  | some g => match g.fragOf sl with
    | none => s
    | some f =>
      let s1 := s.updGang gid (g.putFrag { f with ready := f.ready + 1 })
      if f.ready + 1 < 4096 then s1 else s1.runOn gid sl execClassAgeing
/-- The other members of a rendezvous that an issue has completed have issued too (R148). -/
def State.membersIssued (t s : State) : State :=
  s.streams.foldl (fun (t : State) e => match s.fragAt e.1 e.2, t.fragAt e.1 e.2 with
    | some f, some x => if f.atRdv && !x.atRdv && !x.inHandler then t.issued e.1 f.slices true else t
    | _, _ => t) t

/-! ### The end of a clock (07 R144, R148, R149) -/

/-- A rendezvous whose last missing member has exited issues in the clock of the exit (R148). -/
def State.endRendezvous (s : State) : State :=
  s.streams.foldl (fun (s : State) e => match s.fragAt e.1 e.2 with
    | some f => if f.atRdv then (s.runOn e.1 e.2 execRendezvousIssue).membersIssued s else s
    | none => s) s
/-- A barrier of a launch releases, and its clusters are admitted in turn (08 R169, 09 R189). -/
def State.endBarriers (s : State) : State :=
  (s.launchList.filter fun e => e.2.kd.coop).foldl (fun (s : State) e =>
    (s.runAbout e.1 execLbarRelease).runAbout e.1 execClusterAdmit) s
/-- Limits that run out: of a rendezvous, a WAITA, a park, a cancelled handler (R149, 14 R252, 21 R344, R346), and the budget of a
pre-emption (21 R352). -/
def State.endLimits (s : State) : State :=
  let s1 := s.streams.foldl (fun (s : State) e => [execRendezvousTimeout, execWaitaTimeout, execParkTimeout,
    execHandlerCancelTimeout].foldl (fun (s : State) k => s.runOn e.1 e.2 k) s) s
  (s1.gangList.filter fun e => e.2.target || e.2.saveNow).foldl (fun (s : State) e => s.runAbout e.1 execHardwareSave) s1
/-- Meridian acts at S(k), and at D(k), before which a strip that is complete is done (18 R315, 22 R361, R366). -/
def State.endStrips (s : State) : State :=
  (s.chains.map fun c => c.id).foldl (fun (s : State) c =>
    [execStripDone, execStripDeadline, execChainAdmit].foldl (fun (s : State) k => s.runAbout c k) s) s
/-- What the device does at a time of its own: gates and domains (24 R378, 26 R385 to R387), frames (28 R414), replays and retraining (28
R411, R413), the end of a migration's mapping (21 R347), of WARMING's grace (26 R393) and of an aggregation group (09 R183). -/
def State.endTimers (s : State) : State :=
  let s1 := s.cores.foldl (fun (s : State) e => if e.2.gate = 0 then s else (s.runAbout e.1 execCoreWakeComplete).runAbout e.1 execCoreGate) s
  let s2 := if s1.deepest = 0 && s1.domains.all (fun e => e.2.idle == 0 && !e.2.wake) then s1
    else (List.range 8).foldl (fun (s : State) d => (s.runAbout d execDomainIdleEnter).runAbout d execDomainIdleExit) s1
  let s3 := if s2.flEn then s2.runAbout 0 execFrameStart else s2
  let s4 := s3.ports.foldl (fun (s : State) e => (s.runAbout e.1 execFlitReplayTimeout).runAbout e.1 execShedRetrainTimeout) s3
  let s5 := s4.migs.foldl (fun (s : State) e => s.runAbout e.1 execRemoteMappingExpiry) s4
  let s6 := s5.runAbout 0 execWarmingLaunchTimeout
  (List.range s6.groups.length).foldl (fun (s : State) n => s.runAbout n execAggregationGroupClose) s6
/-- Fragments of a gang that meet merge. -/
def State.regangGang (s : State) (gid : Nat) : State :=
  match s.gang? gid with
  | none => s
  | some g => if g.frags.length ≤ 1 then s
    else g.frags.foldl (fun (s : State) f => s.runOn gid (lowSlice f.slices) execFragmentRegang) s
/-- A coop launch begins once every block of it is resident at one time (07 R139). -/
def State.beginCoop (s : State) : State :=
  (s.launchList.filter fun e => e.2.kd.coop && !e.2.begun).foldl (fun (s : State) e =>
    if e.2.blocks ≤ (s.blockList.filter fun b => b.2.launch == e.1 && !b.2.desched).length
    then s.setLaunch e.1 { e.2 with begun := true } else s) s
/-- What the hardware itself writes in the clock: counters (00 R8), regions outside DRAM (12 R206), the Chronographs' rings (10 R197). -/
def State.endWrites (s : State) : State :=
  let s1 := s.cores.foldl (fun (s : State) e => (s.updCore e.1 Core.hwSets).cgFlush e.1) s
  s1.posted.foldl (fun (s : State) p => s.physPut p.1 none none 0 (p.2.2.zipIdx.map fun b => (p.2.1 + b.2, b.1))) { s1 with posted := [] }
/-- The end of a clock: what is due in it whatever the turns named (R148: a rendezvous that completes comes before an expiry, R149), the
merging of fragments that meet (R144), and the hardware's writes. -/
def State.endClock (s : State) : State :=
  let s1 := s.endRendezvous.endBarriers.endLimits.endStrips.endTimers
  (s1.gangList.foldl (fun (s : State) e => s.regangGang e.1) s1).beginCoop.endWrites

end Sys2Proof.Machine
end

