-- ==== Sys2Proof/Machine/Mesh.lean ====
section
/-! DEFINITION. Mesh records (17 R300 to R302) and the binner (18 R318, R319). -/

namespace Sys2Proof.Machine

/-! ### Mesh records (17 R300, R301) -/

/-- MCNT (R300): any open record is submitted to binning; a new one opens, or none with CLOSE. -/
def execMcnt (form : McntForm) (s : State) : Result :=
  laneRun s (.mcnt form) noTags fun g f =>
    if g.taking f = 0 then s.finish g f []
    else
      let s1 := s.submitMesh s.gang g
      let get := fun (r : SReg) => (f.captured (g.actSlice f) r).toNat
      let m : Option MeshRec := match form with
        | .close => none
        | .opn nv np aw1 => some { nv := min (get nv) 256, np := min (get np) 512, aw := aw1.toNat + 1 }
      s1.finish { g with mesh := m } f []

/-- Discarded vertices and primitives are counted in MESHOVF at the clock's end (R302, 00 R8). Assumption 55: DEDUCED. -/
def State.meshDrops (s : State) (core v p : Nat) : State :=
  if v = 0 && p = 0 then s
  else s.updCore core fun k => { k with ovfAdd := (k.ovfAdd.1 + p, k.ovfAdd.2 + v) }

/-- Lanes that write into the open record: the taking lanes that are no helpers (R301, 07 R146). -/
def Gang.meshLanes (g : Gang) (f : Frag) : List Nat := lanesOf (g.taking f &&& ~~~g.helpers)

/-- MVTX (R301). -/
def execMvtx (a vc : VReg) (s : State) : Result :=
  laneRun s (.mvtx a vc) noTags fun g f =>
    let key := fun (l : Nat) => (g.vget s.clk vc.toNat l).toNat
    let (ok, bad) := (g.meshLanes f).partition fun l => match g.mesh with
      | some m => decide (key l < m.nv)
      | none => false
    let put := fun (m : MeshRec) (l : Nat) => { m with
      verts := FMap.putAll m.verts ((List.range m.aw).map fun w => (16 * key l + w, some (g.vget s.clk (a.toNat + w) l))) }
    (s.meshDrops g.core bad.length 0).finish { g with mesh := g.mesh.map fun m => ok.foldl put m } f []

/-- MPRIM (R301). -/
def execMprim (a vc : VReg) (s : State) : Result :=
  laneRun s (.mprim a vc) noTags fun g f =>
    let p := fun (l : Nat) => (g.vget s.clk vc.toNat l).toNat
    let x := fun (l : Nat) =>
      let w := (g.vget s.clk a.toNat l).toNat
      (bitsOf w 7 0, bitsOf w 15 8, bitsOf w 23 16)
    let (ok, bad) := (g.meshLanes f).partition fun l => match g.mesh with
      | some m => decide (p l < m.np) && decide ((x l).1 < m.nv) && decide ((x l).2.1 < m.nv) && decide ((x l).2.2 < m.nv)
      | none => false
    let put := fun (m : MeshRec) (l : Nat) => { m with prims := FMap.put m.prims (p l) (some (x l)) }
    (s.meshDrops g.core 0 bad.length).finish { g with mesh := g.mesh.map fun m => ok.foldl put m } f []

/-! ### The binner (18 R318, R319) -/

/-- Fields of a bin block's header (R318). -/
structure BinHead where
  fl0  : Nat
  h    : Nat
  halo : Nat
  ns   : Nat
  deriving DecidableEq, Repr

/-- The header of a bin block's bytes. -/
def binHead (b : List Byte) : BinHead := { fl0 := field b 0 4, h := field b 4 2, halo := field b 6 2, ns := field b 8 2 }
/-- A word of a vertex; a vertex never written holds undefined values (R301). Assumption 55: DEDUCED. -/
def MeshRec.word (m : MeshRec) (clk j w : Nat) : Word :=
  match FMap.get m.verts (16 * j + w) with
  | some x => x
  | none => Config.freeWord clk (16 * j + w)
/-- The nine words of a primitive, three to a vertex. -/
def MeshRec.nine (m : MeshRec) (clk : Nat) (p : Nat × Nat × Nat) : List Word :=
  [p.1, p.2.1, p.2.2].flatMap fun j => (List.range 3).map fun w => m.word clk j w
/-- An integer as a value. -/
def intVal (i : Int) : Val := .fin (decide (i < 0)) i.natAbs 0
/-- The extent of a primitive meets the lines of strip `k` (R319). -/
def BinHead.meets (h : BinHead) (ys : List Val) (k : Nat) : Bool :=
  let lo : Int := (h.fl0 + k * h.h : Nat) - (h.halo : Int)
  let hi : Int := (h.fl0 + (k + 1) * h.h + h.halo : Nat)
  (ys.any fun y => !y.lt (intVal lo)) && ys.any fun y => y.lt (intVal hi)
/-- A word of the bin block rises by one, where it can be written. Assumption 55: DEDUCED. -/
def State.binBump (s : State) (w : Who) (va : Nat) : State :=
  match s.tryRead w va 4 with
  | some b => s.tryWrite w va (leOf 4 (leVal b + 1))
  | none => s
/-- One entry (R318): the nine words, the primitive's index, and zeros. -/
def binEntry (ws : List Word) (p : Nat) : List Byte := wordsBytes ws ++ leOf 4 p ++ List.replicate 8 0
/-- Append a primitive to strip `k`; a failed append adds 1 to DROPS and writes nothing (R319). Assumption 55: DEDUCED. -/
def State.binAppend (s : State) (w : Who) (base k : Nat) (e : List Byte) : State :=
  let at_ := base + 64 + 16 * k
  let drop := s.binBump w (base + 12)
  match s.tryRead w at_ 16 with
  | none => drop
  | some b =>
    let cnt := field b 12 4
    let va := field b 0 8 + 48 * cnt
    if cnt < field b 8 4 && s.chk w .store va 48 = .ok && s.chk w .store (at_ + 12) 4 = .ok then
      (s.agentWrite w va e).agentWrite w (at_ + 12) (leOf 4 (cnt + 1))
    else drop
/-- Bin one primitive, to its strips in ascending order (R319). Assumption 55: DEDUCED. -/
def State.binPrim (s : State) (w : Who) (base : Nat) (h : BinHead) (m : MeshRec) (p : Nat) : State :=
  match FMap.get m.prims p with
  | none => s
  | some x =>
    let ws := m.nine s.clk x
    if m.aw < 3 || ws.any fun v => (f32v v).isNan then s.binBump w (base + 12)
    else
      let ys := [ws.getD 1 0, ws.getD 4 0, ws.getD 7 0].map f32v
      ((List.range h.ns).filter fun k => h.meets ys k).foldl (fun (s : State) k => s.binAppend w base k (binEntry ws p)) s

/-- BINNER_RECORD (R319) of the submitted record at the subject's place, the first of its gang; where the bin block's header fails its checks
each primitive counts in DROPS, as far as that word passes its own. Assumption 55: DEDUCED. -/
def execBinnerRecord (s : State) : Result :=
  match s.bins[s.subject]? with
  | none => .next s
  | some (gid, lid, base, m) =>
    if (s.bins.take s.subject).any fun x => x.1 == gid then .next s
    else
      let s1 := { s with bins := s.bins.eraseIdx s.subject }
      match s1.launch? lid with
      | none => .next s1
      | some l =>
        let w := s1.whoLaunch l
        let s2 := s1.binBump w (base.toNat + 16)
        match s2.tryRead w base.toNat 10 with
        | none =>
          .next (((List.range m.np).filter fun p => (FMap.get m.prims p).isSome).foldl (fun (s : State) _ => s.binBump w (base.toNat + 12)) s2
            |>.binBump w (base.toNat + 20))
        | some b =>
          let s3 := (List.range m.np).foldl (fun (s : State) p => s.binPrim w base.toNat (binHead b) m p) s2
          .next (s3.binBump w (base.toNat + 20))

end Sys2Proof.Machine
end

