-- ==== Sys2Proof/Machine/Query.lean ====
section
/-! DEFINITION. Render queries (17 R303 to R306): scene structures and rays (18 R320 to R324), beams and coverage (18 R325, R326),
ellipsoids (18 R323, 17 R305), and the result slots. -/

namespace Sys2Proof.Machine

/-! ### Exact rationals on F32 words -/

/-- A finite F32 as an integer times 2^-149. -/
def fix (w : Word) : Option Int :=
  match f32v w with
  | .fin n m e => some (finInt n m e (-149))
  | _ => none
/-- Three finite words. -/
def fix3 (l : List Word) : Option (Int × Int × Int) :=
  match l with
  | [x, y, z] => match fix x, fix y, fix z with
    | some a, some b, some c => some (a, b, c)
    | _, _, _ => none
  | _ => none

abbrev V3 := Int × Int × Int
def V3.sub (a b : V3) : V3 := (a.1 - b.1, a.2.1 - b.2.1, a.2.2 - b.2.2)
def V3.dot (a b : V3) : Int := a.1 * b.1 + a.2.1 * b.2.1 + a.2.2 * b.2.2
def V3.cross (a b : V3) : V3 :=
  (a.2.1 * b.2.2 - a.2.2 * b.2.1, a.2.2 * b.1 - a.1 * b.2.2, a.1 * b.2.1 - a.2.1 * b.1)
/-- A quotient rounded once to F32 under round to nearest; the denominator is positive. -/
def ratF32 (num den : Int) : Word := toF32 .rne (ratio (decide (num < 0)) num.natAbs den.natAbs 0)
/-- num / den (den above 0) is at or above an F32 bound, or at or below it; a NaN bounds nothing. -/
def atLeast (num den : Int) (b : Word) : Bool :=
  match f32v b with
  | .nan => false
  | .inf n => n
  | .fin n m e => decide (finInt n m e (-149) * den ≤ num * 2 ^ 149)
def atMost (num den : Int) (b : Word) : Bool :=
  match f32v b with
  | .nan => false
  | .inf n => !n
  | .fin n m e => decide (num * 2 ^ 149 ≤ finInt n m e (-149) * den)

/-! ### Rays (R322) -/

/-- A ray: origin, direction, interval. -/
structure Ray where
  o    : List Word
  d    : List Word
  tmin : Word
  tmax : Word
  deriving DecidableEq, Repr
def Ray.words (r : Ray) : List Word := r.o ++ [r.tmin] ++ r.d ++ [r.tmax]

/-- Words of a record. -/
def recWord (b : List Byte) (off : Nat) : Word := BitVec.ofNat 32 (field b off 4)
def recWords (b : List Byte) (off n : Nat) : List Word := (List.range n).map fun i => recWord b (off + 4 * i)

/-- A row of an instance's transform on a point (`one` is 1.0) or a direction (0.0), by FFMA in column order (R322). -/
def instRow (b : List Byte) (r : Nat) (v : List Word) (point : Bool) : Word :=
  let m := recWords b (16 * r) 4
  let acc := (List.range 3).foldl (fun a k => f32Fma (m.getD k 0) (v.getD k 0) a) 0
  if point then f32Fma (m.getD 3 0) 0x3F800000 acc else acc
/-- The ray in an instance's object space. Assumption 50: DEDUCED. -/
def instRay (b : List Byte) (r : Ray) : Ray :=
  { r with o := (List.range 3).map fun k => instRow b k r.o true, d := (List.range 3).map fun k => instRow b k r.d false }

/-- A hit: the returned t, the identifiers that order equal ones, the barycentrics. -/
structure Hit where
  t    : Word
  prim : Word
  iid  : Word
  addr : Nat
  inst : Nat
  u    : Word
  v    : Word
  deriving DecidableEq, Repr
/-- The order of hits (R322): smaller t, then IID, PRIM, record address. Assumption 50: DEDUCED. -/
def Hit.before (a b : Hit) : Bool :=
  Val.lt (f32v a.t) (f32v b.t) || (Val.eq (f32v a.t) (f32v b.t) && (decide (a.iid.toNat < b.iid.toNat) || (a.iid == b.iid &&
    (decide (a.prim.toNat < b.prim.toNat) || (a.prim == b.prim && decide (a.addr < b.addr))))))

/-- A value of t lies in the ray's interval. -/
def inInterval (t : Word) (r : Ray) : Bool :=
  !(f32v t).isNan && !Val.lt (f32v t) (f32v r.tmin) && !Val.lt (f32v r.tmax) (f32v t)
/-- A ray against a triangle's 48 bytes (R322), decided exactly: t, u (weight of P1) and v (weight of P2). Where a coordinate is
not finite, or the ray lies in the triangle's plane, the manual states no result: a free one, a function of the inputs alone, with t in the
ray's interval.
Assumptions 51, 52: PRESUMED, DESIGN CHOICE. -/
def triHit (r : Ray) (b : List Byte) : Option (Word × Word × Word) :=
  let free := (Config.triFree r.words (recWords b 0 9)).filter fun x => inInterval x.1 r
  match fix3 r.o, fix3 r.d, fix3 (recWords b 0 3), fix3 (recWords b 12 3), fix3 (recWords b 24 3) with
  | some o, some d, some p0, some p1, some p2 =>
    let e1 := V3.sub p1 p0
    let e2 := V3.sub p2 p0
    let w := V3.sub o p0
    let p := V3.cross d e2
    let det := V3.dot e1 p
    let q := V3.cross w e1
    if det = 0 then (if V3.dot (V3.cross e1 e2) w = 0 then free else none)
    else
      let sg : Int := if det < 0 then -1 else 1
      let dn := det * sg
      let un := V3.dot w p * sg
      let vn := V3.dot d q * sg
      let tn := V3.dot e2 q * sg
      if 0 ≤ un && 0 ≤ vn && un + vn ≤ dn && atLeast tn dn r.tmin && atMost tn dn r.tmax
      then some (ratF32 tn dn, ratF32 un dn, ratF32 vn dn) else none
  | _, _, _, _, _ => free

/-- A ray against an ellipsoid's 64 bytes (R323), exact: its depth. Assumption 52: DESIGN CHOICE. -/
def ellHit (r : Ray) (cut : Word) (b : List Byte) : Option Word :=
  let m := recWords b 12 9
  match fix3 r.o, fix3 r.d, fix3 (recWords b 0 3), fix3 (m.take 3), fix3 ((m.drop 3).take 3), fix3 (m.drop 6), fix cut with
  | some o, some d, some c, some m0, some m1, some m2, some k =>
    let mul := fun (x : V3) => ((V3.dot m0 x, V3.dot m1 x, V3.dot m2 x) : V3)
    let w := mul (V3.sub o c)
    let e := mul d
    let ee := V3.dot e e
    let we := V3.dot w e
    if 0 < ee && atLeast (-we) ee r.tmin && atMost (-we) ee r.tmax && V3.dot w w * ee - we * we ≤ k * ee * 2 ^ 447
    then some (ratF32 (-we) ee) else none
  | _, _, _, _, _, _, _ => (Config.ellFree r.words (recWords b 0 12)).filter fun t => inInterval t r

/-- Bounds on t that a box puts on one axis: lower and upper, as quotients with positive denominators; none for a miss.
Assumption 52: DESIGN CHOICE. -/
def slab (o d mn mx : Int) : Option (List (Int × Int) × List (Int × Int)) :=
  if d = 0 then (if mn ≤ o && o ≤ mx then some ([], []) else none)
  else if 0 < d then some ([(mn - o, d)], [(mx - o, d)]) else some ([(o - mx, -d)], [(o - mn, -d)])
/-- The exact ray meets a box within [tmin, tend] (R322); where a word is not finite the box is not rejected. -/
def boxMeets (r : Ray) (tend : Word) (b : List Byte) (off : Nat) : Bool :=
  match fix3 r.o, fix3 r.d, fix3 (recWords b off 3), fix3 (recWords b (off + 12) 3) with
  | some o, some d, some mn, some mx =>
    (match slab o.1 d.1 mn.1 mx.1, slab o.2.1 d.2.1 mn.2.1 mx.2.1, slab o.2.2 d.2.2 mn.2.2 mx.2.2 with
      | some x, some y, some z =>
        let los := x.1 ++ y.1 ++ z.1
        let his := x.2 ++ y.2 ++ z.2
        los.all (fun l => his.all (fun h => decide (l.1 * h.2 ≤ h.1 * l.2)) && atMost l.1 l.2 tend) &&
          his.all fun h => atLeast h.1 h.2 r.tmin
      | _, _, _ => false)
  | _, _, _, _ => true

/-! ### Traversal (R321, R324) -/

/-- What a query reads through: the gang's context, its block, the spill slot of the lane, and whether the tree is of
ellipsoids, with their threshold. -/
structure Scene where
  who   : Who
  blk   : Option Block
  spill : Nat
  ell   : Bool
  cut   : Word
  deriving Repr

/-- A record as a query reads it; none when it fails its checks or is poisoned. Assumption 50: DEDUCED. -/
def State.readScene (s : State) (w : Who) (a n : Nat) : Option (List Byte) :=
  if localRange a || localRange (a + n - 1) || s.chk w .load a n ≠ .ok || (s.poisonAt w a n).isSome then none
  else some (s.agentRead w a n)

/-- An entry of the traversal stack: a reference, and the instance it lies inside. -/
abbrev StackEntry := Dword × Option Nat
/-- Traversal of one ray: on-chip entries, top first; spilled ones, bottom first; hits so far. -/
structure Trav where
  chip  : List StackEntry := []
  spill : List StackEntry := []
  hits  : List Hit := []
  deriving Repr
/-- How a push or a whole traversal ends. -/
inductive TravEnd where | ok | overflow | error
  deriving DecidableEq, Repr

/-- Bytes of a spilled entry (R324). -/
def spillBytes (e : StackEntry) : List Byte :=
  leOf 8 e.1.toNat ++ leOf 8 (match e.2 with
    | none => 0
    | some a => 2 ^ 63 + a % 2 ^ 56 / 64 * 64)
/-- Push an entry (R324). -/
def State.push (s : State) (sc : Scene) (t : Trav) (e : StackEntry) : State × Trav × TravEnd :=
  if t.chip.length + t.spill.length = 80 then (s, t, .overflow)
  else if t.chip.length < 16 then (s, { t with chip := e :: t.chip }, .ok)
  else
    let low := (t.chip.drop 8).reverse
    match sc.blk with
    | none => (s, t, .error)
    | some b =>
      if b.scratch < sc.spill + 1024 then (s, t, .error)
      else
        let s1 := s.spWrite b (sc.spill + 16 * t.spill.length) (low.flatMap spillBytes)
        (s1, { t with chip := e :: t.chip.take 8, spill := t.spill ++ low }, .ok)
/-- Pop an entry (R324). -/
def Trav.pop (t : Trav) : Option (StackEntry × Trav) :=
  match t.chip with
  | e :: r => some (e, { t with chip := r })
  | [] =>
    let k := t.spill.length - 8
    match (t.spill.drop k).reverse with
    | e :: r => some (e, { t with chip := r, spill := t.spill.take k })
    | [] => none

/-- Kind, leaf count and record address of a reference (R321); none where it breaks the table. -/
def refOf (r : Dword) : Option (Nat × Nat × Nat) :=
  let k := r.toNat % 4
  let n := bitsOf r.toNat 5 2 + 1
  if (k = 1 || k = 3) && n ≠ 1 then none else some (k, n, r.toNat / 64 * 64)

/-- The hits of a leaf's records. -/
def State.leafHits (s : State) (sc : Scene) (r : Ray) (inst : Nat) (iid : Word) (a : Nat) : Nat → Option (List Hit)
  | 0 => some []
  | n + 1 =>
    let sz := if sc.ell then 64 else 48
    match s.readScene sc.who a sz, s.leafHits sc r inst iid (a + sz) n with
    | some b, some rest =>
      if sc.ell then
        if field b 52 12 ≠ 0 then none
        else some ((match ellHit r sc.cut b with
          | some t => [{ t := t, prim := recWord b 48, iid := iid, addr := a, inst := inst, u := 0, v := 0 : Hit }]
          | none => []) ++ rest)
      else if field b 40 8 ≠ 0 then none
      else some ((match triHit r b with
          | some (t, u, v) => [{ t := t, prim := recWord b 36, iid := iid, addr := a, inst := inst, u := u, v := v : Hit }]
          | none => []) ++ rest)
    | _, _ => none

/-- The F32 value next above another (a NaN stays). -/
def nextUp (w : Word) : Word :=
  if (f32v w).isNan || w = 0x7F800000 then w
  else if w &&& 0x7FFFFFFF = 0 then 1 else if w.getLsbD 31 then w - 1 else w + 1
/-- Up to where a box may hold a hit that counts: the nearest triangle hit so far, whose t was rounded, so that another hit of the same t,
which an identifier may put ahead (R322), lies below the next value. -/
def Trav.tend (t : Trav) (sc : Scene) (r : Ray) : Word :=
  if sc.ell then r.tmax else match t.hits with
    | h :: _ => nextUp h.t
    | [] => r.tmax
/-- Keep the nearest triangle hit, or every ellipsoid hit. -/
def Trav.add (t : Trav) (sc : Scene) (hs : List Hit) : Trav :=
  if sc.ell then { t with hits := t.hits ++ hs }
  else { t with hits := (hs.foldl (fun (acc : Option Hit) h => match acc with
    | none => some h
    | some x => if h.before x then some h else some x) t.hits.head?).toList }

/-- One ray through its tree; none when the steps do not suffice. Assumption 52: DESIGN CHOICE. -/
def State.traverse (sc : Scene) (ray : Ray) : Nat → State → Trav → Option (State × Trav × TravEnd)
  | 0, _, _ => none
  | k + 1, s, t =>
    match t.pop with
    | none => some (s, t, .ok)
    | some ((rf, inst), t1) =>
      let ib := match inst with
        | none => some ([] : List Byte)
        | some a => s.readScene sc.who a 64
      match refOf rf, ib with
      | some (kind, n, a), some ibytes =>
        let r := match inst with
          | none => ray
          | some _ => instRay ibytes ray
        let iid := match inst with
          | none => 0xFFFFFFFF
          | some _ => recWord ibytes 56
        let s := match kind, inst with
          | 0, _ => s
          | 2, _ => s.installAll sc.who .load a (n * (if sc.ell then 64 else 48))
          | _, _ => s.installAll sc.who .load a 64
        (match kind with
        | 0 => State.traverse sc ray k s t1
        | 1 => (match s.readScene sc.who a 64 with
          | none => some (s, t1, .error)
          | some b =>
            let tend := t1.tend sc r
            let kid := fun (c : Nat) => boxMeets r tend b (24 * c) || Config.boxExtra r.words a c
            let ref := fun (c : Nat) => (BitVec.ofNat 64 (field b (48 + 8 * c) 8), inst)
            let order := if Config.childFirst r.words a then [1, 0] else [0, 1]
            let (s2, t2, e) := (order.filter kid).foldl (fun (acc : State × Trav × TravEnd) c =>
              if acc.2.2 = .ok then acc.1.push sc acc.2.1 (ref c) else acc) (s, t1, TravEnd.ok)
            if e = .ok then State.traverse sc ray k s2 t2 else some (s2, t2, e))
        | 2 => (match s.leafHits sc r (inst.getD 0) iid a n with
          | none => some (s, t1, .error)
          | some hs => State.traverse sc ray k s (t1.add sc hs))
        | _ => (match inst, s.readScene sc.who a 64 with
          | none, some b =>
            if field b 60 4 ≠ 0 then some (s, t1, .error)
            else
              let (s2, t2, e) := s.push sc t1 (BitVec.ofNat 64 (field b 48 8), some a)
              if e = .ok then State.traverse sc ray k s2 t2 else some (s2, t2, e)
          | _, _ => some (s, t1, .error)))
      | _, _ => some (s, t1, .error)

/-- A bound on the steps of one traversal; a query that needs more stays in flight. -/
abbrev travFuel : Nat := 2 ^ 64
/-- Trace one ray from a root reference. Assumption 50: DEDUCED. -/
def State.trace1 (s : State) (sc : Scene) (ray : Ray) (root : Dword) : Option (State × Trav × TravEnd) :=
  State.traverse sc ray travFuel s { chip := [(root, none)] }

/-! ### The scene descriptor (R320) -/

/-- The descriptor at an address, when it can be read and obeys its limits. -/
def State.sceneAt (s : State) (w : Who) (a : Nat) : Option (List Byte) :=
  if a % 64 ≠ 0 then none
  else match s.readScene w a 128 with
    | none => none
    | some b =>
      let cut := f32v (recWord b 64)
      let finite := match cut with
        | .fin n m _ => !n && m != 0
        | _ => false
      if finite && field b 68 4 % 1024 == 0 && field b 72 4 % 8 == 0 && decide (32 ≤ field b 72 4) && field b 76 52 == 0 then some b else none

/-- The scene a lane of a query slot traces. -/
def State.scene (s : State) (g : Gang) (b : List Byte) (q lane : Nat) (ell : Bool) : Scene :=
  { who := s.whoGang g, blk := s.block? g.block, spill := field b 68 4 + 1024 * (32 * q + lane), ell := ell, cut := recWord b 64 }

/-! ### RAYQ and ELLQ -/

/-- The ray that a lane's captured words give (17 R304). -/
def laneRay (c : Cmd) (l : Nat) : Ray :=
  let w := fun k => c.data.getD (32 * k + l) 0
  { o := [w 0, w 1, w 2], tmin := w 3, d := [w 4, w 5, w 6], tmax := w 7 }
/-- The descriptor address that a lane's captured words give. -/
def laneScene (c : Cmd) (l : Nat) : Nat := (c.data.getD (257 + 2 * l) 0 ++ c.data.getD (256 + 2 * l) 0).toNat

/-- Result words of a RAYQ lane (17 R303). -/
def rayWords (h : Option Hit) (e : TravEnd) : List Word :=
  let st : Word := match e with
    | .ok => b2w h.isSome
    | .overflow => 2
    | .error => 3
  match e, h with
  | .error, _ => [3]
  | _, some x => [st, x.t, x.prim, x.iid, x.u, x.v]
  | _, none => [st]
def State.rayLane (s : State) (g : Gang) (c : Cmd) (q l : Nat) : Option (State × List Word) :=
  match s.sceneAt (s.whoGang g) (laneScene c l) with
  | none => some (s, [3])
  | some b => (s.trace1 (s.scene g b q l false) (laneRay c l) (BitVec.ofNat 64 (field b 0 8))).map fun e =>
      (e.1, rayWords e.2.1.hits.head? e.2.2)

/-- Ellipsoid hits in ascending depth, equal depths in ascending ID (17 R305). -/
def ellSort (hs : List Hit) : List Hit :=
  hs.mergeSort fun a b => !(Val.lt (f32v b.t) (f32v a.t) || (Val.eq (f32v b.t) (f32v a.t) && decide (b.prim.toNat < a.prim.toNat)))
/-- The hits that follow the last one of an earlier round. -/
def ellAfter (last : Option (Word × Word)) (hs : List Hit) : List Hit :=
  match last with
  | none => hs
  | some (t, id) => hs.filter fun h => Val.lt (f32v t) (f32v h.t) || (Val.eq (f32v t) (f32v h.t) && decide (id.toNat < h.prim.toNat))
/-- Result words of an ELLQ lane, and the hit that a CONT round goes on from. -/
def ellWords (hs : List Hit) (e : TravEnd) (last : Option (Word × Word)) : List Word × Option (Word × Word) :=
  match e with
  | .error => ([3], last)
  | _ =>
    let st := if e = .overflow then 2 else if hs.isEmpty then 0 else 1
    (BitVec.ofNat 32 (st + 256 * hs.length) :: hs.flatMap (fun h => [h.t, h.prim]), match hs.getLast? with
      | some h => some (h.t, h.prim)
      | none => last)
def State.ellLane (s : State) (g : Gang) (c : Cmd) (q l k : Nat) (last : Option (Word × Word)) :
    Option (State × List Word × Option (Word × Word)) :=
  match s.sceneAt (s.whoGang g) (laneScene c l) with
  | none => some (s, [3], last)
  | some b => (s.trace1 (s.scene g b q l true) (laneRay c l) (BitVec.ofNat 64 (field b 8 8))).map fun e =>
      (e.1, ellWords ((ellAfter last (ellSort e.2.1.hits)).take k) e.2.2 last)

/-! ### BEAMQ and COVQ (R325, R326) -/

/-- The pixel position of a lane of a block, doubled: centres lie at odd numbers. -/
def pixelAt (g : Geom) (loc : Word) (l : Nat) : Int × Int :=
  (2 * ((8 * locCol loc + l % 8 : Nat) : Int) + 1, 2 * (((g.fl + 4 * locRow loc + l / 8 : Nat) : Int) - (g.halo : Int)) + 1)
/-- Half an integer as an F32. -/
def halfInt (i : Int) : Word := toF32 .rne (.fin (decide (i < 0)) i.natAbs (-1))
/-- The pixel-centre ray of a lane (R325). -/
def State.beamRay (s : State) (b : List Byte) (loc : Word) (l : Nat) : Ray :=
  let (x, y) := pixelAt (s.geom (locSlot loc)) loc l
  let d := (List.range 3).map fun k =>
    f32Fma (halfInt y) (recWord b (52 + 4 * k)) (f32Fma (halfInt x) (recWord b (40 + 4 * k)) (recWord b (28 + 4 * k)))
  { o := recWords b 16 3, d := d, tmin := 0, tmax := 0x7F800000 }

/-- A candidate: triangle and instance address, PRIM and IID. -/
structure Cand where
  tri  : Nat
  inst : Nat
  prim : Word
  iid  : Word
  deriving DecidableEq, Repr
def Hit.cand (h : Hit) : Cand := { tri := h.addr, inst := h.inst, prim := h.prim, iid := h.iid }
/-- The order of a list (R325): ascending (IID, PRIM, record address). -/
def Cand.le (a b : Cand) : Bool :=
  decide (a.iid.toNat < b.iid.toNat) || (a.iid == b.iid && (decide (a.prim.toNat < b.prim.toNat) ||
    (a.prim == b.prim && decide (a.tri ≤ b.tri))))
def Cand.bytes (c : Cand) : List Byte := leOf 8 c.tri ++ leOf 8 c.inst ++ leOf 4 c.prim.toNat ++ leOf 4 c.iid.toNat

/-- Every triangle below a list of references, readable ones alone, in the tree's order. -/
def State.allTris (s : State) (w : Who) : Nat → List StackEntry → List Cand
  | 0, _ => []
  | _, [] => []
  | k + 1, (rf, inst) :: rest =>
    match refOf rf with
    | none => s.allTris w k rest
    | some (kind, n, a) =>
      let iid := match inst with
        | none => 0xFFFFFFFF
        | some i => (match s.readScene w i 64 with
          | some b => recWord b 56
          | none => 0)
      (match kind with
      | 1 => (match s.readScene w a 64 with
        | some b => s.allTris w k ((BitVec.ofNat 64 (field b 48 8), inst) :: (BitVec.ofNat 64 (field b 56 8), inst) :: rest)
        | none => s.allTris w k rest)
      | 2 => ((List.range n).filterMap fun i => (s.readScene w (a + 48 * i) 48).map fun b =>
          { tri := a + 48 * i, inst := inst.getD 0, prim := recWord b 36, iid := iid : Cand }) ++ s.allTris w k rest
      | 3 => (match inst, s.readScene w a 64 with
        | none, some b => s.allTris w k ((BitVec.ofNat 64 (field b 48 8), some a) :: rest)
        | _, _ => s.allTris w k rest)
      | _ => s.allTris w k rest)

/-- Trace the pixel-centre rays of some lanes: their nearest hits, and whether one overflowed or met an error. -/
def State.beamRays (g : Gang) (b : List Byte) (q : Nat) (loc : Word) : List Nat → State → Option (State × List Cand × Bool × Bool)
  | [], s => some (s, [], false, false)
  | l :: r, s =>
    match s.trace1 (s.scene g b q l false) (s.beamRay b loc l) (BitVec.ofNat 64 (field b 0 8)) with
    | none => none
    | some (s1, t, e) => (State.beamRays g b q loc r s1).map fun x =>
        (x.1, (t.hits.map Hit.cand) ++ x.2.1, x.2.2.1 || e == .overflow, x.2.2.2 || e == .error)

/-- BEAMQ's result words; its candidate list is written at 64 × LIST. Assumption 52: DESIGN CHOICE. -/
def State.beam (s : State) (g : Gang) (c : Cmd) (q list : Nat) : Option (State × List Word) :=
  let loc := c.data.headD 0
  match s.sceneAt (s.whoGang g) c.addr.toNat, s.block? g.block with
  | some b, some k =>
    let cap := field b 72 4
    if k.scratch < 64 * list + cap then some (s, [3])
    else match State.beamRays g b q loc (List.range 32) s with
      | none => none
      | some (s1, hits, more, err) =>
        if err then some (s1, [3])
        else
          let tris := s1.allTris (s1.whoGang g) travFuel [(BitVec.ofNat 64 (field b 0 8), none)]
          let extra := (tris.zipIdx.filter fun e => Config.beamExtra c.addr loc e.2).map (·.1)
          let all := ((hits ++ extra).eraseDups).mergeSort Cand.le
          let fit := all.take ((cap - 32) / 24)
          let inc := more || decide (fit.length < all.length)
          let head := leOf 4 loc.toNat ++ leOf 4 fit.length ++ leOf 4 (b2n inc) ++ leOf 4 0 ++ leOf 8 c.addr.toNat ++ leOf 8 0
          let s2 := s1.spWrite k (64 * list) (head ++ fit.flatMap Cand.bytes)
          some (s2, [if inc then 2 else if fit.isEmpty then 0 else 1, BitVec.ofNat 32 fit.length, BitVec.ofNat 32 (32 + 24 * fit.length)])
  | _, _ => some (s, [3])

/-- A list's header (R325): locator, count, INC, KIND, and the scene descriptor's address; none for a list R326 turns away. -/
def State.covList (s : State) (b : Block) (list : Nat) : Option (Word × Nat × Nat × Nat) :=
  let o := 64 * list
  if b.scratch < o + 32 then none
  else
    let h := s.spRead b o 32
    let fl := field h 8 4
    let kind := bitsOf fl 1 1
    let n := field h 4 4
    if bitsOf fl 0 0 = 1 || fl / 4 ≠ 0 || field h 12 4 ≠ 0 || field h 24 8 ≠ 0 || b.scratch < o + 32 + n * (if kind = 0 then 24 else 48)
    then none else some (recWord h 0, n, kind, field h 16 8)

/-- The nearest of some hits. -/
def nearest (hs : List Hit) : Option Hit :=
  hs.foldl (fun acc h => match acc with
    | none => some h
    | some x => if h.before x then some h else some x) none
/-- A candidate entry against a lane's ray (R326, KIND 0): its hits, or none when its records cannot be read. -/
def State.candHit (s : State) (w : Who) (r : Ray) (e : List Byte) : Option (List Hit) :=
  let inst := field e 8 8
  match (if inst = 0 then some r else (s.readScene w inst 64).map fun b => instRay b r), s.readScene w (field e 0 8) 48 with
  | some r1, some b => some ((triHit r1 b).toList.map fun x =>
      { t := x.1, prim := recWord e 16, iid := recWord e 20, addr := field e 0 8, inst := inst, u := x.2.1, v := x.2.2 })
  | _, _ => none
/-- A bin entry against a pixel centre, given doubled (R326, KIND 1): z interpolated exactly, u and v the weights of P1 and P2. -/
def binHit (x y : Int) (e : List Byte) (idx : Nat) : Option Hit :=
  match fix3 (recWords e 0 3), fix3 (recWords e 12 3), fix3 (recWords e 24 3) with
  | some p0, some p1, some p2 =>
    let px := x * 2 ^ 148
    let py := y * 2 ^ 148
    let area := (p1.1 - p0.1) * (p2.2.1 - p0.2.1) - (p2.1 - p0.1) * (p1.2.1 - p0.2.1)
    let sg : Int := if area < 0 then -1 else 1
    let un := ((px - p0.1) * (p2.2.1 - p0.2.1) - (p2.1 - p0.1) * (py - p0.2.1)) * sg
    let vn := ((p1.1 - p0.1) * (py - p0.2.1) - (px - p0.1) * (p1.2.1 - p0.2.1)) * sg
    let dn := area * sg
    if area = 0 || un < 0 || vn < 0 || dn < un + vn then none
    else
      let zn := p0.2.2 * (dn - un - vn) + p1.2.2 * un + p2.2.2 * vn
      some { t := ratF32 zn (dn * 2 ^ 149), prim := recWord e 36, iid := BitVec.ofNat 32 idx, addr := idx, inst := 0
             u := ratF32 un dn, v := ratF32 vn dn }
  | _, _, _ => (Config.binFree x y (recWords e 0 9)).map fun f =>
      { t := f.1, prim := recWord e 36, iid := BitVec.ofNat 32 idx, addr := idx, inst := 0, u := f.2.1, v := f.2.2 }
/-- Result words of a COVQ lane. Assumption 50: DEDUCED. -/
def State.cover (s : State) (g : Gang) (list l : Nat) : List Word :=
  match s.block? g.block with
  | none => [3]
  | some b => match s.covList b list with
    | none => [3]
    | some (loc, n, kind, sd) =>
      let o := 64 * list + 32
      let out := fun (h : Option Hit) => match h with
        | some h => [1, h.prim, h.t, h.u, h.v]
        | none => [0]
      if kind = 1 then
        let (x, y) := pixelAt (s.geom (locSlot loc)) loc l
        let es := (List.range n).map fun i => s.spRead b (o + 48 * i) 48
        if es.any fun e => field e 40 8 != 0 then [3]
        else out (nearest ((es.zipIdx).filterMap fun e => binHit x y e.1 e.2))
      else match s.sceneAt (s.whoGang g) sd with
        | none => [3]
        | some d =>
          let r := s.beamRay d loc l
          match ((List.range n).mapM fun i => s.candHit (s.whoGang g) r (s.spRead b (o + 24 * i) 24)) with
          | none => [3]
          | some hs => out (nearest hs.flatten)

/-! ### Result slots (17 R303) -/

/-- Write a lane's 17 words, the ones its row leaves undefined zero. -/
def QuerySlot.putLane (q : QuerySlot) (l : Nat) (ws : List Word) : QuerySlot :=
  { q with words := (List.range 17).foldl (fun m w => FMap.put m (17 * l + w) (ws.getD w 0)) q.words }

/-- The lanes of RAYQ or ELLQ one after another. -/
def State.queryLanes (gid qn : Nat) (c : Cmd) (k : Option (Nat × Bool)) : List Nat → State → QuerySlot → Option (State × QuerySlot)
  | [], s, q => some (s, q)
  | l :: r, s, q =>
    match s.gang? gid with
    | none => some (s, q)
    | some g => match k with
      | none => (match s.rayLane g c qn l with
        | none => none
        | some (s1, ws) => State.queryLanes gid qn c k r s1 (q.putLane l ws))
      | some (n, cont) => (match s.ellLane g c qn l n (if cont then FMap.get q.last l else none) with
        | none => none
        | some (s1, ws, last) =>
          State.queryLanes gid qn c k r s1 { (q.putLane l ws) with last := FMap.put q.last l last })

/-- The translations that a query's reads outside its traversal use (12 R225): scene descriptors, and the records of a list's candidates. -/
def State.queryReads (s : State) (g : Gang) (c : Cmd) : State :=
  let w := s.whoGang g
  match c.instr with
  | .rayq _ _ _ _ | .ellq _ _ _ _ _ _ => (lanesOf c.mate.lanes).foldl (fun (s : State) l => s.installAll w .load (laneScene c l) 128) s
  | .beamq _ _ _ _ _ => if c.mate.lanes = 0 then s else s.installAll w .load c.addr.toNat 128
  | .covq _ list _ => match (s.block? g.block).bind fun b => (s.covList b list.toNat).map fun x => (b, x) with
    | some (b, _, n, 0, sd) => (List.range n).foldl (fun (s : State) i =>
        let e := s.spRead b (64 * list.toNat + 32 + 24 * i) 24
        let s1 := s.installAll w .load (field e 0 8) 48
        if field e 8 8 = 0 then s1 else s1.installAll w .load (field e 8 8) 64) (s.installAll w .load sd 128)
    | _ => s
  | _ => s
/-- What the query in flight on a slot gives its lanes; none while its traversal has not ended. -/
def State.queryResult (s0 : State) (gid qn : Nat) (g : Gang) (q : QuerySlot) (c : Cmd) : Option (State × QuerySlot) :=
  let s := s0.queryReads g c
  let lanes := lanesOf c.mate.lanes
  match c.instr with
  | .rayq _ _ _ _ => State.queryLanes gid qn c none lanes s q
  | .ellq _ _ k1 cont _ _ => State.queryLanes gid qn c (some (k1.toNat + 1, cont)) lanes s q
  | .covq _ list _ => some (s, lanes.foldl (fun q l => q.putLane l (s.cover g list.toNat l)) q)
  | .beamq _ _ _ list _ =>
    if lanes.isEmpty then some (s, q)
    else (s.beam g c qn list.toNat).map fun e =>
      (e.1, (lanesOf (sliceMask c.mate.slices)).foldl (fun q l => q.putLane l e.2) q)
  | _ => some (s, q)

/-- A query whose spill slots a program wrote returns undefined words in the lanes it serves (R324). Assumption 3: DESIGN CHOICE. -/
def QuerySlot.spoil (q : QuerySlot) (n : Nat) (c : Cmd) : QuerySlot :=
  let lanes := match c.instr with
    | .beamq _ _ _ _ _ => sliceMask c.mate.slices
    | _ => c.mate.lanes
  (lanesOf lanes).foldl (fun (q : QuerySlot) l =>
    { (q.putLane l ((List.range 17).map fun w => Config.freeWord n (0x70000 + 17 * l + w))) with
      last := FMap.put q.last l (some (Config.freeWord n (0x71000 + l), Config.freeWord n (0x72000 + l))) }) q
/-- QUERY_COMPLETE (R303): the query in flight on a slot completes once those issued ahead of it have (R291), and its flag falls. -/
def execQueryComplete (gang : Nat) (qn : BitVec 2) (s : State) : Result :=
  match s.gang? gang with
  | none => .next s
  | some g =>
    let q := FMap.get g.queries qn.toNat
    match q.cmd with
    | none => .next s
    | some c =>
      if g.queries.any fun x => (x.2.cmd.map fun (y : Cmd) => decide (y.id < c.id)) == some true then .next s
      else match s.queryResult gang qn.toNat g q c with
      | none => .next s
      | some (s1, q1) =>
        let q2 := if g.spoilt.contains c.id then q1.spoil s.clk c else q1
        let s2 := match s1.gang? gang with
          | some g1 => s1.updGang gang { g1 with
              queries := FMap.put g1.queries qn.toNat { q2 with cmd := none }, spoilt := g1.spoilt.filter fun i => i != c.id }
          | none => s1
        .next ((s2.lowerMates c).sweep gang)

/-! ### The instructions (17 R304 to R306) -/

/-- Check of a scene descriptor at issue (R304). Assumption 50: DEDUCED. -/
def State.sceneChk (s : State) (g : Gang) (a : Nat) : Chk :=
  if localRange a || localRange (a + 127) then .bad 5 a else s.chk (s.whoGang g) .load a 128
/-- Check of a candidate list's region at issue (R304, 12 R210): of the header, or of the capacity that a scene descriptor gives. Assumption 50:
DEDUCED. -/
def State.listChk (s : State) (g : Gang) (n o : Nat) : Chk := spChk (s.block? g.block) n o
/-- Bytes of BEAMQ's list region: LCAP of a descriptor that obeys its limits (18 R320), else the header alone. -/
def State.listBytes (s : State) (g : Gang) (a : Nat) : Nat :=
  match s.sceneAt (s.whoGang g) a with
  | some b => field b 72 4
  | none => 32
/-- Spill slots that a query owns in the scratchpad for some lanes, whose descriptors are given (18 R324). -/
def State.spillSlots (s : State) (g : Gang) (q : Nat) (ls : List (Nat × Nat)) : List (Nat × Nat) :=
  ls.filterMap fun e => (s.sceneAt (s.whoGang g) e.2).map fun b => (field b 68 4 + 1024 * (32 * q + e.1), 1024)
/-- Two checks in order. -/
def firstOf (a b : Option Result) : Option Result :=
  match a with
  | some r => some r
  | none => b

def execBeamq (a base : SReg) (q : BitVec 2) (list : BitVec 13) (e : EngCtl) (s : State) : Result :=
  engineRun s (.beamq a base q list e) e .render
    (fun g f w =>
      if w = 0 then none
      else firstOf (addrCheck s g f .load (s.sceneChk g) [(0, (cmdAddr f w base).toNat)])
        (addrCheck s g f .load (s.listChk g (s.listBytes g (cmdAddr f w base).toNat)) [(0, 64 * list.toNat)]))
    fun g f w c => { c with
      data := [f.captured (lowTaking f w) a], addr := cmdAddr f w base
      own := s.spillSlots g q.toNat ((List.range 32).map fun l => (l, (cmdAddr f w base).toNat)) }
def execCovq (q : BitVec 2) (list : BitVec 13) (e : EngCtl) (s : State) : Result :=
  engineRun s (.covq q list e) e .render
    (fun g f w => addrCheck s g f .load (s.listChk g 32) ((lanesOf w).map fun l => (l, 64 * list.toNat)))
    fun _ _ _ c => c
/-- Lanes' rays and descriptor addresses as captured data. -/
def rayData (clk : Nat) (g : Gang) (f : Frag) (a : VReg) (base : SReg) : List Word :=
  ((List.range 8).flatMap fun k => (List.range 32).map fun l => g.vget clk (a.toNat + k) l) ++
    (List.range 32).flatMap fun l => [f.captured (l / 8) base, f.captured (l / 8) (base + 1)]
/-- Checks of RAYQ and ELLQ: the tags of the eight registers, then the descriptors. -/
def State.rayChk (s : State) (a : VReg) (base : SReg) (g : Gang) (f : Frag) (w : Word) : Option Result :=
  firstOf (fmtCheck s g f (tagCheck g Tag.f32 (span a 8)))
    (addrCheck s g f .load (s.sceneChk g) ((lanesOf w).map fun l => (l, (f.capturedPair (l / 8) base).toNat)))
/-- What RAYQ and ELLQ capture, and the spill slots their lanes own. -/
def State.rayCapture (s : State) (a : VReg) (base : SReg) (q : BitVec 2) (g : Gang) (f : Frag) (w : Word) (c : Cmd) : Cmd :=
  { c with
    data := rayData s.clk g f a base
    own := s.spillSlots g q.toNat ((lanesOf w).map fun l => (l, (f.capturedPair (l / 8) base).toNat)) }
def execRayq (a : VReg) (base : SReg) (q : BitVec 2) (e : EngCtl) (s : State) : Result :=
  engineRun s (.rayq a base q e) e .render (s.rayChk a base) (s.rayCapture a base q)
def execEllq (a : VReg) (base : SReg) (k1 : BitVec 3) (cont : Bool) (q : BitVec 2) (e : EngCtl) (s : State) : Result :=
  engineRun s (.ellq a base k1 cont q e) e .render (s.rayChk a base) (s.rayCapture a base q)

/-- A slot has a query in flight or waiting at its queue. -/
def Gang.queryBusy (g : Gang) (q : Nat) : Bool :=
  (FMap.get g.queries q).cmd.isSome || g.rq.any fun c => queryOf c.instr == some q
/-- QRD (R306): the words of a slot that has not completed are undefined. -/
def execQrd (d : VReg) (q : BitVec 2) (w : BitVec 5) (cl : Tag) (s : State) : Result :=
  laneMap s (.qrd d q w cl) noTags d (fun _ => cl) fun g _ l =>
    if g.queryBusy q.toNat then Config.freeWord s.clk (17 * l + w.toNat) else FMap.get (FMap.get g.queries q.toNat).words (17 * l + w.toNat)
/-- QWAIT (R306). -/
def execQwait (q : BitVec 2) (s : State) : Result :=
  laneRun s (.qwait q) noTags fun g f => if g.queryBusy q.toNat then hold s g f else s.finish g f []

end Sys2Proof.Machine
end

