-- ==== Sys2Proof/Machine/ScalarMem.lean ====
section
/-! DEFINITION. Scalar loads and stores (05 R103), the k-registers (05 R105) and the masks (05 R98) as instructions. -/

namespace Sys2Proof.Machine

/-- The current fragment advances past its word (01 R15). -/
def State.advCur (s : State) : State :=
  match s.cur with
  | none => s
  | some (g, f) => s.setCur g f.advance

/-- Address of a scalar access (R103). -/
def scalarAddr (c : SliceCopy) (a : SReg) (i : BitVec 14) : Nat := (c.getPair a + i.signExtend 64).toNat

/-- A scalar load of `n` bytes (R103): checks, then the data goes to every slice copy. -/
def scalarLoad (rs : List SReg) (a : SReg) (i : BitVec 14) (n : Nat) (wr : SliceCopy → Nat → SliceCopy) (s : State) :
    Result :=
  scalarOnce rs (fun c => scalarAddr c a i) s fun g f =>
    let va := scalarAddr (g.low f) a i
    checked s g f false .load true n [(0, va)] <|
      let (bs, s1) := s.loadV g false va n
      .next (s1.setCur (g.mapCopies f.sliceList fun c => wr c (leVal bs)) f.advance)

/-- A scalar store of `n` bytes (R103); a store to the BTE aperture whose slot is BUSY is held (16 R279). -/
def scalarStore (rs : List SReg) (a : SReg) (i : BitVec 14) (n : Nat) (data : SliceCopy → Nat) (s : State) : Result :=
  scalarOnce rs (fun c => (scalarAddr c a i, data c)) s fun g f =>
    let va := scalarAddr (g.low f) a i
    let bs := leOf n (data (g.low f))
    checked s g f false .store false n [(0, va)] <|
      if s.wouldHold g va bs then .next (s.setCur g { f with swait := true })
      else .next ((s.storeV g (some s.gang) none 64 va bs).advCur)

def execSld (d a : SReg) (i : BitVec 14) (s : State) : Result :=
  scalarLoad [d, a, a + 1] a i 4 (fun c v => c.set d (BitVec.ofNat 32 v)) s
def execSldD (d a : SReg) (i : BitVec 14) (s : State) : Result :=
  scalarLoad [d, d + 1, a, a + 1] a i 8 (fun c v => c.setPair d (BitVec.ofNat 64 v)) s
def execSst (d a : SReg) (i : BitVec 14) (s : State) : Result :=
  scalarStore [d, a, a + 1] a i 4 (fun c => (c.get d).toNat) s
def execSstD (d a : SReg) (i : BitVec 14) (s : State) : Result :=
  scalarStore [d, d + 1, a, a + 1] a i 8 (fun c => (c.getPair d).toNat) s

/-! ### k-registers (R105, 01 R28) -/

/-- KRD: a user gang may not read a register whose user access is none; a per-slice register is read in each slice copy, any
other once; a system read of an RC register clears it. -/
def execKrd (d : SReg) (k : Byte) (s : State) : Result :=
  withCur s fun g f =>
    if !g.priv && userNone k.toNat then takeTrap s g f .illegal (k.setWidth 32) 0 false
    else if !f.free [d] then .next s
    else if perSlice k.toNat then
      .next (s.setCur (g.mapCopies f.sliceList fun c => c.set d (g.kslice f c k.toNat)) f.advance)
    else
      let v := if gangHeld k.toNat then s.kgang g k.toNat else s.kcore g.core k.toNat
      let s1 := if g.priv then s.kclear g.core k.toNat else s
      .next (s1.setCur (g.mapCopies f.sliceList fun c => c.set d v) f.advance)

/-- KWR: a per-slice register takes each slice copy's own value, any other one value, from the next clock where it serves other gangs too
(R28); an access that is RO for the gang's privilege changes nothing. -/
def execKwr (d : SReg) (k : Byte) (s : State) : Result :=
  withCur s fun g f =>
    if !g.priv && userNone k.toNat then takeTrap s g f .illegal (k.setWidth 32) 0 false
    else if perSlice k.toNat then
      if f.free [d] then
        .next (s.setCur (g.kwslices f g.priv k.toNat fun c => c.get d) (f.kwrote g.priv k.toNat).advance)
      else .next s
    else
      scalarOnce [d] (fun c => c.get d) s fun g f =>
        let v := (g.low f).get d
        if gangHeld k.toNat && !g.priv then .next s.advCur
        else if kShared k.toNat then .next (s.later (.kreg s.gang g.core k.toNat v (some g.block) g.priv)).advCur
        else .next (s.kwgang s.gang g k.toNat v).advCur

/-! ### Masks (R98) -/

/-- A scalar mask write in a fragment (R98): bits of other slices ignore it, and lm can only clear. -/
def writeMask (g : Gang) (f : Frag) (m : MaskName) (v : Word) : Gang :=
  let sm := sliceMask f.slices
  let v := if m = .lm then v &&& g.lm else v
  g.setMask m ((g.mask m &&& ~~~sm) ||| (v &&& sm))

/-- Apply a mask write with its packet (10 R193). -/
def State.maskTo (s : State) (g : Gang) (f : Frag) (m : MaskName) (v : Word) : Gang × Frag × State :=
  let g1 := writeMask g f m v
  let (s1, f1) := s.traceMask g f false m (g.mask m) (g1.mask m)
  (g1, f1, s1)

/-- The shape of MWR and MOP. -/
def maskOp (a : SReg) (m : MaskName) (op : Word → Word → Word) (s : State) : Result :=
  scalarOnce [a] (fun c => c.get a) s fun g f =>
    let (g1, f1, s1) := s.maskTo g f m (op (g.mask m) ((g.low f).get a))
    .next (s1.setCur g1 f1.advance)

def execMrd (d : SReg) (m : MaskName) (s : State) : Result :=
  withCur s fun g f =>
    if f.free [d] then
      .next (s.setCur (g.mapCopies f.sliceList fun c => c.set d (g.mask m &&& sliceMask f.slices)) f.advance)
    else .next s
def execMwr (a : SReg) (m : MaskName) (s : State) : Result := maskOp a m (fun _ v => v) s
def execMopAnd (a : SReg) (m : MaskName) (s : State) : Result := maskOp a m (fun x v => x &&& v) s
def execMopOr (a : SReg) (m : MaskName) (s : State) : Result := maskOp a m (fun x v => x ||| v) s
def execMopAndn (a : SReg) (m : MaskName) (s : State) : Result := maskOp a m (fun x v => x &&& ~~~v) s
def execMopXor (a : SReg) (m : MaskName) (s : State) : Result := maskOp a m (fun x v => x ^^^ v) s

end Sys2Proof.Machine
end

