-- ==== Sys2Proof/Machine/ScalarCtl.lean ====
section
/-! DEFINITION. Control transfer (05 R97), clauses, guards and flags (05 R100 to R102), and the system group (05 R106 to
R109). -/

namespace Sys2Proof.Machine

/-! ### Control transfer (R97, 07 R141, R143) -/

/-- Offset in words (R61). -/
def wordOff {n : Nat} (o : BitVec n) : Dword := o.signExtend 64 <<< 2

/-- A branch as each slice decides it: next SPC. With one next SPC the fragment goes there; else it splits, one fragment for
each (R141). `cond` is a conditional branch's condition, whose unsplit outcome is one BRANCH bit (10 R193). -/
def branchTo (s : State) (g : Gang) (f : Frag) (cond : Option (SliceCopy → Bool)) (next : SliceCopy → Dword) : State × Gang :=
  match g.groups f next with
  | [] | [_] =>
    let n := next (g.low f)
    let (s1, f1) := match cond with
      | some c => s.traceBranch g f (c (g.low f))
      | none => (s, f)
    (s1, g.putFrag { f1.advance with spc := n })
  | ms =>
    let ms := sortMasks ms
    let (s1, f1) := s.traceSplit g f 0 (ms.map fun m => (m, next (g.copy (lowSlice m)) != f.spc + 4))
    (s1, g.replaceFrag f (ms.map fun m => { f1.advance with slices := m, spc := next (g.copy (lowSlice m)) }))

/-- A conditional branch on the slices' registers. -/
def condBranch (rs : List SReg) (c : SliceCopy → Bool) (off : BitVec 12) (s : State) : Result :=
  withCur s fun g f =>
    if f.free rs then
      let (s1, g1) := branchTo s g f (some c) fun k => if c k then f.spc + wordOff off else f.spc + 4
      .next (s1.updGang s.gang g1)
    else .next s

def execBr (off : BitVec 26) (s : State) : Result :=
  withCur s fun g f => .next (s.setCur g { f.advance with spc := f.spc + wordOff off })
def execCall (off : BitVec 26) (s : State) : Result :=
  withCur s fun g f =>
    if f.free [62, 63] then
      .next (s.setCur (g.mapCopies f.sliceList fun c => c.setPair 62 (f.spc + 4))
        { f.advance with spc := f.spc + wordOff off })
    else .next s
def execBcSigned (c : BCond) (a b : SReg) (off : BitVec 12) (s : State) : Result :=
  condBranch [a, b] (fun k => match c with
    | .eq => k.get a == k.get b
    | .ne => k.get a != k.get b
    | .lt => (k.get a).slt (k.get b)
    | .ge => !(k.get a).slt (k.get b)) off s
def execBcUnsigned (geu : Bool) (a b : SReg) (off : BitVec 12) (s : State) : Result :=
  condBranch [a, b] (fun k => (k.get a).ult (k.get b) != geu) off s
/-- BZM tests xm AND lm, lm, or hm AND lm over the fragment's lanes (R97). -/
def execBzm (m : MaskName) (off : BitVec 12) (s : State) : Result :=
  withCur s fun g f =>
    let z := g.mask m &&& g.lm &&& sliceMask f.slices = 0
    let (s1, f1) := s.traceBranch g f (decide z)
    .next (s1.setCur g { f1.advance with spc := if z then f.spc + wordOff off else f.spc + 4 })
/-- LOOP decrements in each slice and branches while the result is not zero (R97); on s0 it is an illegal encoding (R92).
Assumption 69: DEDUCED. -/
def execLoop (a : SReg) (off : BitVec 12) (s : State) : Result :=
  withCur s fun g f =>
    if a = 0 then illegalWord s g f (0xB4000000#32 ||| off.setWidth 32)
    else if f.free [a] then
      let g1 := g.mapCopies f.sliceList fun c => c.set a (c.get a - 1)
      let (s1, g2) := branchTo s g1 f (some fun (k : SliceCopy) => k.get a != 0) fun k => if k.get a ≠ 0 then f.spc + wordOff off else f.spc + 4
      .next (s1.updGang s.gang g2)
    else .next s

/-- JR and RET (R97): the target is a register pair with bits [1:0] cleared (01 R15); every resulting fragment writes its
TARGET (10 R193). -/
def jumpReg (a : SReg) (reason : Nat) (s : State) : Result :=
  withCur s fun g f =>
    if f.free [a, a + 1] then
      let t := fun (c : SliceCopy) => c.getPair a &&& ~~~3#64
      let (s1, g1) := branchTo s g f none t
      let (s2, g2) := (g1.frags.filter fun x => x.slices &&& f.slices != 0).foldl
        (fun (st : State × Gang) x =>
          let (s', x') := st.1.traceTarget g { x with spc := f.spc } false reason x.spc
          (s', st.2.putFrag { x' with spc := x.spc })) (s1, g1)
      .next (s2.updGang s.gang g2)
    else .next s
def execJr (a : SReg) (s : State) : Result := jumpReg a 0 s
def execRet (s : State) : Result := jumpReg 62 1 s

/-! ### Clauses (R100) -/

/-- Append a clause to the queue with its marks and captured values; a full queue stalls (01 R16). -/
def enqueue (s : State) (g : Gang) (f : Frag) (guard : Option GSlot) (off : Word) : Result :=
  if 8 ≤ f.queue.length then .next s
  else
    let e : QEntry := { id := f.nextId, off := off, guard := guard, cap := g.capture f }
    .next (s.setCur g { f.advance with
      queue := f.queue ++ [e], marks := f.marks ++ s.clauseMarks g f.nextId off.toNat, nextId := f.nextId + 1 })

def execVrunOffset (guard : Option GSlot) (off : BitVec 20) (s : State) : Result :=
  withCur s fun g f => enqueue s g f guard (off.setWidth 32)
def execVrunRegister (guard : Option GSlot) (a : SReg) (s : State) : Result :=
  scalarOnce [a] (fun c => c.get a) s fun g f => enqueue s g f guard ((g.low f).get a)

/-! ### Guards (R101) -/

/-- A command was issued by slices of the fragment. -/
def Cmd.of (c : Cmd) (gid : Nat) (f : Frag) : Bool := c.mates.any fun m => m.gid == gid && m.slices &&& f.slices != 0
/-- A consumer in the clause queue or in an engine queue names the slot (01 R16). -/
def Gang.consumer (g : Gang) (gid : Nat) (f : Frag) (slot : GSlot) : Bool :=
  f.queue.any (fun e => e.guard == some slot) ||
    (g.mq ++ g.cq ++ g.rq).any fun c => c.guard == some slot && c.of gid f

/-- GSET binds the slot, and resolves it at once in each slice when the register has no pending mark (01 R24). Assumption 18: DEDUCED. -/
def execGset (slot : GSlot) (c : GCond) (a : SReg) (s : State) : Result :=
  withCur s fun g f =>
    if g.consumer s.gang f slot then .next s
    else
      let st := fun (k : SliceCopy) =>
        if f.marked a then GState.unresolved else if condHolds c (k.get a) then .tru else .fals
      .next (s.setCur (g.mapCopies f.sliceList fun k => { k with
        guards := FMap.put k.guards slot.toNat { st := st k, bound := some (a, c), before := f.nextId } }) f.advance)
/-- GCLR makes the slot false and unbound; the commands that wait for it at the heads of the engine queues are discarded (01 R24, R25). -/
def execGclr (slot : GSlot) (s : State) : Result :=
  withCur s fun g f =>
    .next ((s.setCur (g.mapCopies f.sliceList fun k => { k with guards := FMap.put k.guards slot.toNat {} }) f.advance).sweep s.gang)

/-! ### Waits (R102) -/

/-- Every clause enqueued so far has issued or has been discarded (01 R23). -/
def Frag.clausesDone (f : Frag) : Bool := f.queue.isEmpty && f.entered.isNone
/-- The conditions of VDRAIN (R102). -/
def Gang.drained (g : Gang) (f : Frag) : Bool := f.clausesDone && f.marks.isEmpty && g.flagsClear f 0xFFF

/-- Advance once a condition holds, else wait (R102). -/
def waitFor (s : State) (g : Gang) (f : Frag) (c : Bool) : Result :=
  .next (s.setCur g (if c then f.advance else { f with swait := true }))

def execWaitf (mask : BitVec 12) (s : State) : Result :=
  withCur s fun g f => waitFor s g f (f.clausesDone && g.flagsClear f mask)
def execVdrain (s : State) : Result := withCur s fun g f => waitFor s g f (g.drained f)

/-! ### System group (R106 to R109) -/

def execNop (s : State) : Result := withCur s fun g f => .next (s.setCur g f.advance)
def execScalarReservedNop3D (_ : BitVec 26) (s : State) : Result := withCur s fun g f => .next (s.setCur g f.advance)
def execScalarReservedNop3E (_ : BitVec 26) (s : State) : Result := withCur s fun g f => .next (s.setCur g f.advance)

/-- TIME reads the nanosecond count of station time (R106, 22 R357). -/
def execTime (d : SReg) (s : State) : Result :=
  scalarPure [d, d + 1] (fun c => c.setPair d (BitVec.ofNat 64 s.ns)) s
/-- TRAP completes and traps with its code (R92, R106). -/
def execTrap (code : BitVec 12) (s : State) : Result :=
  withCur s fun g f => takeTrap s g f.advance .softTrap (code.setWidth 32) 0 false
/-- BRK traps without completing (R92, R106). -/
def execBrk (s : State) : Result := withCur s fun g f => takeTrap s g f .brk 0 0 false
def execIllegalScalarWord (w : Word) (s : State) : Result := withCur s fun g f => illegalWord s g f w
/-- A fetch at SPC that is not executable (R92, 01 R15). -/
def execScalarFetchFault (s : State) : Result := withCur s fun g f => fetchFault s g f false f.spc.toNat 4

/-- TRET (R107); outside a handler it is an illegal encoding; slices that disagree on what it reads split (07 R141).
Assumption 14: DEDUCED. -/
def execTret (s : State) : Result :=
  withCur s fun g f =>
    if f.inHandler then
      scalarOnce [] (fun c => c.resumption) s fun g f => .next (s.doTret g f)
    else illegalWord s g f 0xF0000002

/-- Every engine command that the gang has issued, slices that have left included, has left its queue, and no batch of it is outstanding
(R109, 15 R272). -/
def Gang.engineIdle (g : Gang) : Bool :=
  (g.mq ++ g.cq ++ g.rq).isEmpty && g.running.isNone && g.batches.isEmpty && (g.openB.getD {}).left == 0

/-- PDONE (R108): legal in a handler entered with CODE 7 or while PP is set; it ends a cancelled fragment (21 R344), waits
for the gang's batches (15 R272), answers PP, and stops the fragment. Assumption 37: DEDUCED. -/
def execPdone (s : State) : Result :=
  withCur s fun g f =>
    if !(f.inHandler && (f.entry == 7 || g.ppSet f)) then illegalWord s g f 0xF0000003
    else if f.cancelled.isSome then .next (s.endFrag s.gang f 1)
    else if !(g.mq.isEmpty && g.running.isNone && g.batches.isEmpty && (g.openB.getD {}).left == 0) then
      .next (s.setCur g { f with swait := true })
    else
      let g1 := g.dropLatch.setPP f false
      let f1 := { f.advance with done := true }
      let g2 := g1.putFrag f1
      if g2.frags.all fun x => x.done then
        let s1 := g2.frags.foldl (fun (s : State) x =>
          let (s', x') := s.traceExit g (if x.slices = f1.slices then { x with spc := f.spc } else x) false 3
          match s'.gang? s.gang with
          | some h => s'.updGang s.gang (h.putFrag { x' with spc := x.spc })
          | none => s') (s.updGang s.gang g2)
        .next (s1.deschedule s.gang false)
      else .next (s.updGang s.gang g2)

/-- GEND (R109, 07 R154): it waits for the fragment's lane work, engine commands and batches, then ends the fragment; after a failed
access outside the leases it ends the task with that error record (21 R343), and it ends a cancelled fragment at once (R344).
Assumption 14: DEDUCED. -/
def execGend (s : State) : Result :=
  withCur s fun g f =>
    if f.cancelled.isSome then .next (s.endFrag s.gang f 1)
    else if g.drained f && g.engineIdle then
      match f.pend with
      | some e => .next (s.dieWith s.gang f e)
      | none => .next (s.endFrag s.gang f 1)
    else .next (s.setCur g { f with swait := true })

end Sys2Proof.Machine
end

