-- ==== Sys2Proof/Machine/Dispatch.lean ====
section
/-! DEFINITION. One arm per constructor of `Instr`: each calls the meaning of its row. -/

namespace Sys2Proof.Machine

/-- The meaning of every row of the opcode table. -/
def exec (i : Instr) (s : State) : Host.Outcome State Fault Refusal :=
  match i with
  | .saddReg d a b => Sys2Proof.Machine.execSaddReg d a b s
  | .ssub d a b => Sys2Proof.Machine.execSsub d a b s
  | .smul d a b => Sys2Proof.Machine.execSmul d a b s
  | .sdiv d a b => Sys2Proof.Machine.execSdiv d a b s
  | .srem d a b => Sys2Proof.Machine.execSrem d a b s
  | .sandReg d a b => Sys2Proof.Machine.execSandReg d a b s
  | .sorReg d a b => Sys2Proof.Machine.execSorReg d a b s
  | .sxorReg d a b => Sys2Proof.Machine.execSxorReg d a b s
  | .sandn d a b => Sys2Proof.Machine.execSandn d a b s
  | .sshlReg d a b => Sys2Proof.Machine.execSshlReg d a b s
  | .sshrReg d a b => Sys2Proof.Machine.execSshrReg d a b s
  | .ssraReg d a b => Sys2Proof.Machine.execSsraReg d a b s
  | .smin d a b => Sys2Proof.Machine.execSmin d a b s
  | .smax d a b => Sys2Proof.Machine.execSmax d a b s
  | .sclz d a => Sys2Proof.Machine.execSclz d a s
  | .spopc d a => Sys2Proof.Machine.execSpopc d a s
  | .saddpReg d a b => Sys2Proof.Machine.execSaddpReg d a b s
  | .scmp c d a b => Sys2Proof.Machine.execScmp c d a b s
  | .ssel d a b src => Sys2Proof.Machine.execSsel d a b src s
  | .saddImm d a imm => Sys2Proof.Machine.execSaddImm d a imm s
  | .sandImm d a imm => Sys2Proof.Machine.execSandImm d a imm s
  | .sorImm d a imm => Sys2Proof.Machine.execSorImm d a imm s
  | .sxorImm d a imm => Sys2Proof.Machine.execSxorImm d a imm s
  | .sshlImm d a n => Sys2Proof.Machine.execSshlImm d a n s
  | .sshrImm d a n => Sys2Proof.Machine.execSshrImm d a n s
  | .ssraImm d a n => Sys2Proof.Machine.execSsraImm d a n s
  | .sbfx d a len1 pos => Sys2Proof.Machine.execSbfx d a len1 pos s
  | .sbfi d a len1 pos => Sys2Proof.Machine.execSbfi d a len1 pos s
  | .saddpImm d a imm => Sys2Proof.Machine.execSaddpImm d a imm s
  | .slui d imm => Sys2Proof.Machine.execSlui d imm s
  | .slea d imm => Sys2Proof.Machine.execSlea d imm s
  | .sld d a imm => Sys2Proof.Machine.execSld d a imm s
  | .sldD d a imm => Sys2Proof.Machine.execSldD d a imm s
  | .sst d a imm => Sys2Proof.Machine.execSst d a imm s
  | .sstD d a imm => Sys2Proof.Machine.execSstD d a imm s
  | .krd d k => Sys2Proof.Machine.execKrd d k s
  | .kwr d k => Sys2Proof.Machine.execKwr d k s
  | .mrd d m => Sys2Proof.Machine.execMrd d m s
  | .mwr a m => Sys2Proof.Machine.execMwr a m s
  | .mopAnd a m => Sys2Proof.Machine.execMopAnd a m s
  | .mopOr a m => Sys2Proof.Machine.execMopOr a m s
  | .mopAndn a m => Sys2Proof.Machine.execMopAndn a m s
  | .mopXor a m => Sys2Proof.Machine.execMopXor a m s
  | .vrunOffset guard off => Sys2Proof.Machine.execVrunOffset guard off s
  | .vrunRegister guard a => Sys2Proof.Machine.execVrunRegister guard a s
  | .gset slot c a => Sys2Proof.Machine.execGset slot c a s
  | .gclr slot => Sys2Proof.Machine.execGclr slot s
  | .waitf mask => Sys2Proof.Machine.execWaitf mask s
  | .br off => Sys2Proof.Machine.execBr off s
  | .call off => Sys2Proof.Machine.execCall off s
  | .bcSigned c a b off => Sys2Proof.Machine.execBcSigned c a b off s
  | .bcUnsigned geu a b off => Sys2Proof.Machine.execBcUnsigned geu a b off s
  | .bzm m off => Sys2Proof.Machine.execBzm m off s
  | .loop a off => Sys2Proof.Machine.execLoop a off s
  | .jr a => Sys2Proof.Machine.execJr a s
  | .time d => Sys2Proof.Machine.execTime d s
  | .trap code => Sys2Proof.Machine.execTrap code s
  | .scalarReservedNop3D x => Sys2Proof.Machine.execScalarReservedNop3D x s
  | .scalarReservedNop3E x => Sys2Proof.Machine.execScalarReservedNop3E x s
  | .vadd d a b c sat => Sys2Proof.Machine.execVadd d a b c sat s
  | .vsub d a b c sat => Sys2Proof.Machine.execVsub d a b c sat s
  | .vmul d a b c hi => Sys2Proof.Machine.execVmul d a b c hi s
  | .vmad d a b vc c => Sys2Proof.Machine.execVmad d a b vc c s
  | .vand d a b => Sys2Proof.Machine.execVand d a b s
  | .vor d a b => Sys2Proof.Machine.execVor d a b s
  | .vxor d a b => Sys2Proof.Machine.execVxor d a b s
  | .vandn d a b => Sys2Proof.Machine.execVandn d a b s
  | .vshl d a b => Sys2Proof.Machine.execVshl d a b s
  | .vshr d a b => Sys2Proof.Machine.execVshr d a b s
  | .vsra d a b => Sys2Proof.Machine.execVsra d a b s
  | .vmin d a b c => Sys2Proof.Machine.execVmin d a b c s
  | .vmax d a b c => Sys2Proof.Machine.execVmax d a b c s
  | .vabs d a c sat => Sys2Proof.Machine.execVabs d a c sat s
  | .vclz d a => Sys2Proof.Machine.execVclz d a s
  | .vpopc d a => Sys2Proof.Machine.execVpopc d a s
  | .vbfx d a pos len1 sx => Sys2Proof.Machine.execVbfx d a pos len1 sx s
  | .vbfi d a pos len1 => Sys2Proof.Machine.execVbfi d a pos len1 s
  | .vprmb d a b vc => Sys2Proof.Machine.execVprmb d a b vc s
  | .vcmp dst a b c cond => Sys2Proof.Machine.execVcmp dst a b c cond s
  | .vsel d a b vc => Sys2Proof.Machine.execVsel d a b vc s
  | .vmov d a => Sys2Proof.Machine.execVmov d a s
  | .vmovTos d a lane => Sys2Proof.Machine.execVmovTos d a lane s
  | .vbcs d a code => Sys2Proof.Machine.execVbcs d a code s
  | .vli d imm code hi => Sys2Proof.Machine.execVli d imm code hi s
  | .vspc d sel => Sys2Proof.Machine.execVspc d sel s
  | .fadd d a b c r => Sys2Proof.Machine.execFadd d a b c r s
  | .fsub d a b c r => Sys2Proof.Machine.execFsub d a b c r s
  | .fmul d a b c r => Sys2Proof.Machine.execFmul d a b c r s
  | .ffma d a b vc c r => Sys2Proof.Machine.execFfma d a b vc c r s
  | .fmin d a b c => Sys2Proof.Machine.execFmin d a b c s
  | .fmax d a b c => Sys2Proof.Machine.execFmax d a b c s
  | .frnd d a c r => Sys2Proof.Machine.execFrnd d a c r s
  | .fcls d a c => Sys2Proof.Machine.execFcls d a c s
  | .frcp d a => Sys2Proof.Machine.execFrcp d a s
  | .frsq d a => Sys2Proof.Machine.execFrsq d a s
  | .fsqrt d a r => Sys2Proof.Machine.execFsqrt d a r s
  | .fex2 d a => Sys2Proof.Machine.execFex2 d a s
  | .flg2 d a => Sys2Proof.Machine.execFlg2 d a s
  | .fsin d a => Sys2Proof.Machine.execFsin d a s
  | .fcos d a => Sys2Proof.Machine.execFcos d a s
  | .padd d a b c neg r => Sys2Proof.Machine.execPadd d a b c neg r s
  | .pmul d a b c r => Sys2Proof.Machine.execPmul d a b c r s
  | .pfma d a b vc c neg r => Sys2Proof.Machine.execPfma d a b vc c neg r s
  | .pmin d a b c => Sys2Proof.Machine.execPmin d a b c s
  | .pmax d a b c => Sys2Proof.Machine.execPmax d a b c s
  | .pdot2 d a b vc c r => Sys2Proof.Machine.execPdot2 d a b vc c r s
  | .idot4 d a b vc c sat bu => Sys2Proof.Machine.execIdot4 d a b vc c sat bu s
  | .cvt d a c dst sat r => Sys2Proof.Machine.execCvt d a c dst sat r s
  | .cvth d a dst sat h32 r => Sys2Proof.Machine.execCvth d a dst sat h32 r s
  | .cvtp d a c dst sat slot r => Sys2Proof.Machine.execCvtp d a c dst sat slot r s
  | .tagw t src => Sys2Proof.Machine.execTagw t src s
  | .tagr d t => Sys2Proof.Machine.execTagr d t s
  | .vld d base off size sx scale u disp c flag => Sys2Proof.Machine.execVld d base off size sx scale u disp c flag s
  | .vst a base off size scale u disp flag => Sys2Proof.Machine.execVst a base off size scale u disp flag s
  | .qxch d a pat => Sys2Proof.Machine.execQxch d a pat s
  | .qbc d a n => Sys2Proof.Machine.execQbc d a n s
  | .qddx d a fine c r => Sys2Proof.Machine.execQddx d a fine c r s
  | .qddy d a fine c r => Sys2Proof.Machine.execQddy d a fine c r s
  | .vote sc dst a kind => Sys2Proof.Machine.execVote sc dst a kind s
  | .shfl sc d a b mode => Sys2Proof.Machine.execShfl sc d a b mode s
  | .vred sc dst a op c r => Sys2Proof.Machine.execVred sc dst a op c r s
  | .vscan sc d a op excl c r => Sys2Proof.Machine.execVscan sc d a op excl c r s
  | .bar sc => Sys2Proof.Machine.execBar sc s
  | .setdcl size => Sys2Proof.Machine.execSetdcl size s
  | .gwid d => Sys2Proof.Machine.execGwid d s
  | .refill d => Sys2Proof.Machine.execRefill d s
  | .spawn d a base flag => Sys2Proof.Machine.execSpawn d a base flag s
  | .evsig name => Sys2Proof.Machine.execEvsig name s
  | .evwait name cons flag => Sys2Proof.Machine.execEvwait name cons flag s
  | .evclr name => Sys2Proof.Machine.execEvclr name s
  | .vldx d base off cnt scale u na disp c flag => Sys2Proof.Machine.execVldx d base off cnt scale u na disp c flag s
  | .vstx a base off cnt scale u disp flag => Sys2Proof.Machine.execVstx a base off cnt scale u disp flag s
  | .spld d base off size sx scale u rem disp c flag => Sys2Proof.Machine.execSpld d base off size sx scale u rem disp c flag s
  | .spst a base off size scale u rem disp flag => Sys2Proof.Machine.execSpst a base off size scale u rem disp flag s
  | .atom d a base off op dw ord ms u scale c flag => Sys2Proof.Machine.execAtom d a base off op dw ord ms u scale c flag s
  | .satom d a base c op dw ord ms disp flag => Sys2Proof.Machine.execSatom d a base c op dw ord ms disp flag s
  | .fence kind ms => Sys2Proof.Machine.execFence kind ms s
  | .waita d a base ne ms tmo => Sys2Proof.Machine.execWaita d a base ne ms tmo s
  | .msend a dst size flag => Sys2Proof.Machine.execMsend a dst size flag s
  | .mrecv d b size wait q c flag => Sys2Proof.Machine.execMrecv d b size wait q c flag s
  | .mqst d kind pos q => Sys2Proof.Machine.execMqst d kind pos q s
  | .pref base off kind scale u disp => Sys2Proof.Machine.execPref base off kind scale u disp s
  | .cmaintL1inv len base flag => Sys2Proof.Machine.execCmaintL1inv len base flag s
  | .cmaintWb len base flag => Sys2Proof.Machine.execCmaintWb len base flag s
  | .cmaintWbinv len base flag => Sys2Proof.Machine.execCmaintWbinv len base flag s
  | .cmaintIcinv len base flag => Sys2Proof.Machine.execCmaintIcinv len base flag s
  | .cmaintTlbinv len base flag => Sys2Proof.Machine.execCmaintTlbinv len base flag s
  | .cmaintTlbctx flag => Sys2Proof.Machine.execCmaintTlbctx flag s
  | .mma sc d a t bcode reuse c e => Sys2Proof.Machine.execMma sc d a t bcode reuse c e s
  | .mvm d a h bcode brot reuse c e => Sys2Proof.Machine.execMvm d a h bcode brot reuse c e s
  | .tld d base sc disp c e => Sys2Proof.Machine.execTld d base sc disp c e s
  | .tst a base sc disp e => Sys2Proof.Machine.execTst a base sc disp e s
  | .tzr d c e => Sys2Proof.Machine.execTzr d c e s
  | .accz d c e => Sys2Proof.Machine.execAccz d c e s
  | .accrd d a n c0 e => Sys2Proof.Machine.execAccrd d a n c0 e s
  | .accwr d a n c0 e => Sys2Proof.Machine.execAccwr d a n c0 e s
  | .dsub base e => Sys2Proof.Machine.execDsub base e s
  | .recfl base e => Sys2Proof.Machine.execRecfl base e s
  | .beamq a base q list e => Sys2Proof.Machine.execBeamq a base q list e s
  | .covq q list e => Sys2Proof.Machine.execCovq q list e s
  | .rayq a base q e => Sys2Proof.Machine.execRayq a base q e s
  | .ellq a base k1 cont q e => Sys2Proof.Machine.execEllq a base k1 cont q e s
  | .ringst a b w64 e => Sys2Proof.Machine.execRingst a b w64 e s
  | .ringld d b w64 line c e => Sys2Proof.Machine.execRingld d b w64 line c e s
  | .mfence d => Sys2Proof.Machine.execMfence d s
  | .mwait src => Sys2Proof.Machine.execMwait src s
  | .cbtst d a b acq w => Sys2Proof.Machine.execCbtst d a b acq w s
  | .cbwait d a b w => Sys2Proof.Machine.execCbwait d a b w s
  | .cpsts d a => Sys2Proof.Machine.execCpsts d a s
  | .mcnt form => Sys2Proof.Machine.execMcnt form s
  | .mvtx a vc => Sys2Proof.Machine.execMvtx a vc s
  | .mprim a vc => Sys2Proof.Machine.execMprim a vc s
  | .qrd d q w c => Sys2Proof.Machine.execQrd d q w c s
  | .qwait q => Sys2Proof.Machine.execQwait q s
  | .srate d a => Sys2Proof.Machine.execSrate d a s
  | .vfpush nb a => Sys2Proof.Machine.execVfpush nb a s
  | .vfpop d nb => Sys2Proof.Machine.execVfpop d nb s
  | .vfcnt d => Sys2Proof.Machine.execVfcnt d s
  | .pgreq d partner => Sys2Proof.Machine.execPgreq d partner s
  | .pgreqCan d partner => Sys2Proof.Machine.execPgreqCan d partner s
  | .laneReservedNop k rest => Sys2Proof.Machine.execLaneReservedNop k rest s
  | .guardResolve slot => Sys2Proof.Machine.execGuardResolve slot s
  | .laneScalarWriteLand r => Sys2Proof.Machine.execLaneScalarWriteLand r s
  | .flaggedOperationComplete op => Sys2Proof.Machine.execFlaggedOperationComplete op s
  | .trapEntry c tval taddr lane => Sys2Proof.Machine.execTrapEntry c tval taddr lane s
  | .blockDispatch launch block core parts => Sys2Proof.Machine.execBlockDispatch launch block core parts s
  | .preemptionRequest core classes => Sys2Proof.Machine.execPreemptionRequest core classes s
  | .migrationRequest side leaf ns frac => Sys2Proof.Machine.execMigrationRequest side leaf ns frac s
  | .bteApertureStore core chan w gang => Sys2Proof.Machine.execBteApertureStore core chan w gang s
  | .templateWrite core off bytes gang => Sys2Proof.Machine.execTemplateWrite core off bytes gang s
  | .copyChunkComplete core slot chunk => Sys2Proof.Machine.execCopyChunkComplete core slot chunk s
  | .copyComplete core slot => Sys2Proof.Machine.execCopyComplete core slot s
  | .mqcfgWrite core q v gang => Sys2Proof.Machine.execMqcfgWrite core q v gang s
  | .mqEntryArrive core q => Sys2Proof.Machine.execMqEntryArrive core q s
  | .queryComplete gang q => Sys2Proof.Machine.execQueryComplete gang q s
  | .cgctlWrite core v => Sys2Proof.Machine.execCgctlWrite core v s
  | .cgrdWrite core v => Sys2Proof.Machine.execCgrdWrite core v s
  | .coreWindowAccess core off size store => Sys2Proof.Machine.execCoreWindowAccess core off size store s
  | .l2Writeback line => Sys2Proof.Machine.execL2Writeback line s
  | .patrolScrub line res => Sys2Proof.Machine.execPatrolScrub line res s
  | .scanoutStart slot c => Sys2Proof.Machine.execScanoutStart slot c s
  | .scanLineSend slot c => Sys2Proof.Machine.execScanLineSend slot c s
  | .encoderRowStart enc row => Sys2Proof.Machine.execEncoderRowStart enc row s
  | .reprojectionCommit bank => Sys2Proof.Machine.execReprojectionCommit bank s
  | .ptpSync offset => Sys2Proof.Machine.execPtpSync offset s
  | .beaconReceive b => Sys2Proof.Machine.execBeaconReceive b s
  | .withdraw mid => Sys2Proof.Machine.execWithdraw mid s
  | .flitReceive port f => Sys2Proof.Machine.execFlitReceive port f s
  | .flitNak port seq => Sys2Proof.Machine.execFlitNak port seq s
  | .laneShed port codewords => Sys2Proof.Machine.execLaneShed port codewords s
  | .rdmaWrite vi qp va bytes immediate => Sys2Proof.Machine.execRdmaWrite vi qp va bytes immediate s
  | .rdmaRead vi qp va len => Sys2Proof.Machine.execRdmaRead vi qp va len s
  | .rdmaSend vi qp => Sys2Proof.Machine.execRdmaSend vi qp s
  | .rdmaAtomic vi qp va op => Sys2Proof.Machine.execRdmaAtomic vi qp va op s
  | .kick vi q idx => Sys2Proof.Machine.execKick vi q idx s
  | .hostStoreAck ok => Sys2Proof.Machine.execHostStoreAck ok s
  | .peerStoreAck ok => Sys2Proof.Machine.execPeerStoreAck ok s
  | .workItemChunkMove launch cluster => Sys2Proof.Machine.execWorkItemChunkMove launch cluster s
  | .stseedWrite v => Sys2Proof.Machine.execStseedWrite v s
  | .ptrootWrite vi v => Sys2Proof.Machine.execPtrootWrite vi v s
  | .mgbudgetWrite core v => Sys2Proof.Machine.execMgbudgetWrite core v s
  | .powerInterval u src pwr => Sys2Proof.Machine.execPowerInterval u src pwr s
  | .ltolWrite v => Sys2Proof.Machine.execLtolWrite v s
  | .temperatureSample t => Sys2Proof.Machine.execTemperatureSample t s
  | .managementImageUpload im => Sys2Proof.Machine.execManagementImageUpload im s
  | .attestationQuote nonce => Sys2Proof.Machine.execAttestationQuote nonce s
  | .recoveryUpload im => Sys2Proof.Machine.execRecoveryUpload im s
  | .interfaceCreate vi p => Sys2Proof.Machine.execInterfaceCreate vi p s
  | .interfaceDestroy vi => Sys2Proof.Machine.execInterfaceDestroy vi s
  | .peerContextBind vi peer exp => Sys2Proof.Machine.execPeerContextBind vi peer exp s
  | .firmwareInvalidate asid range => Sys2Proof.Machine.execFirmwareInvalidate asid range s
  | .registerWrite off v => Sys2Proof.Machine.execRegisterWrite off v s
  | .illegalScalarWord w => Sys2Proof.Machine.execIllegalScalarWord w s
  | .illegalLaneItem check => Sys2Proof.Machine.execIllegalLaneItem check s
  | .flitAcknowledgement port seq => Sys2Proof.Machine.execFlitAcknowledgement port seq s
  | .beaconAcknowledgement mid => Sys2Proof.Machine.execBeaconAcknowledgement mid s
  | .registerReadClear off => Sys2Proof.Machine.execRegisterReadClear off s
  | .ret => Sys2Proof.Machine.execRet s
  | .nop => Sys2Proof.Machine.execNop s
  | .vdrain => Sys2Proof.Machine.execVdrain s
  | .tret => Sys2Proof.Machine.execTret s
  | .pdone => Sys2Proof.Machine.execPdone s
  | .gend => Sys2Proof.Machine.execGend s
  | .brk => Sys2Proof.Machine.execBrk s
  | .lbar => Sys2Proof.Machine.execLbar s
  | .regang => Sys2Proof.Machine.execRegang s
  | .lexit => Sys2Proof.Machine.execLexit s
  | .oprdy => Sys2Proof.Machine.execOprdy s
  | .clauseEnter => Sys2Proof.Machine.execClauseEnter s
  | .rendezvousIssue => Sys2Proof.Machine.execRendezvousIssue s
  | .rendezvousTimeout => Sys2Proof.Machine.execRendezvousTimeout s
  | .fragmentRegang => Sys2Proof.Machine.execFragmentRegang s
  | .classAgeing => Sys2Proof.Machine.execClassAgeing s
  | .hardwareSave => Sys2Proof.Machine.execHardwareSave s
  | .launchCancel => Sys2Proof.Machine.execLaunchCancel s
  | .handlerCancelTimeout => Sys2Proof.Machine.execHandlerCancelTimeout s
  | .globalReplay => Sys2Proof.Machine.execGlobalReplay s
  | .parkTimeout => Sys2Proof.Machine.execParkTimeout s
  | .migrationComplete => Sys2Proof.Machine.execMigrationComplete s
  | .remoteMappingExpiry => Sys2Proof.Machine.execRemoteMappingExpiry s
  | .matrixCommandStart => Sys2Proof.Machine.execMatrixCommandStart s
  | .matrixOperationComplete => Sys2Proof.Machine.execMatrixOperationComplete s
  | .batchComplete => Sys2Proof.Machine.execBatchComplete s
  | .governorWindow => Sys2Proof.Machine.execGovernorWindow s
  | .ddeJobAccept => Sys2Proof.Machine.execDdeJobAccept s
  | .ddeJobEnd => Sys2Proof.Machine.execDdeJobEnd s
  | .binnerRecord => Sys2Proof.Machine.execBinnerRecord s
  | .ringStoreLand => Sys2Proof.Machine.execRingStoreLand s
  | .ringHandoverComplete => Sys2Proof.Machine.execRingHandoverComplete s
  | .packetNop => Sys2Proof.Machine.execPacketNop s
  | .packetLaunch => Sys2Proof.Machine.execPacketLaunch s
  | .packetChainRegister => Sys2Proof.Machine.execPacketChainRegister s
  | .chainAdmit => Sys2Proof.Machine.execChainAdmit s
  | .stripDone => Sys2Proof.Machine.execStripDone s
  | .stripDeadline => Sys2Proof.Machine.execStripDeadline s
  | .scanEnd => Sys2Proof.Machine.execScanEnd s
  | .frameStart => Sys2Proof.Machine.execFrameStart s
  | .flitReplayTimeout => Sys2Proof.Machine.execFlitReplayTimeout s
  | .shedRetrainComplete => Sys2Proof.Machine.execShedRetrainComplete s
  | .shedRetrainTimeout => Sys2Proof.Machine.execShedRetrainTimeout s
  | .ppctlWiden => Sys2Proof.Machine.execPpctlWiden s
  | .queueAgeing => Sys2Proof.Machine.execQueueAgeing s
  | .launchComplete => Sys2Proof.Machine.execLaunchComplete s
  | .aggregationGroupClose => Sys2Proof.Machine.execAggregationGroupClose s
  | .lbarRelease => Sys2Proof.Machine.execLbarRelease s
  | .clusterAdmit => Sys2Proof.Machine.execClusterAdmit s
  | .spilledWaiterComplete => Sys2Proof.Machine.execSpilledWaiterComplete s
  | .waitaComplete => Sys2Proof.Machine.execWaitaComplete s
  | .waitaTimeout => Sys2Proof.Machine.execWaitaTimeout s
  | .domainIdleEnter => Sys2Proof.Machine.execDomainIdleEnter s
  | .domainIdleExit => Sys2Proof.Machine.execDomainIdleExit s
  | .coreGate => Sys2Proof.Machine.execCoreGate s
  | .coreWakeComplete => Sys2Proof.Machine.execCoreWakeComplete s
  | .cryocmdCool => Sys2Proof.Machine.execCryocmdCool s
  | .cryocmdWarm => Sys2Proof.Machine.execCryocmdWarm s
  | .cryocmdService => Sys2Proof.Machine.execCryocmdService s
  | .warmingLaunchTimeout => Sys2Proof.Machine.execWarmingLaunchTimeout s
  | .moduleReset => Sys2Proof.Machine.execModuleReset s
  | .deviceResetRequest => Sys2Proof.Machine.execDeviceResetRequest s
  | .scalarFetchFault => Sys2Proof.Machine.execScalarFetchFault s
  | .storeReachesL2 => Sys2Proof.Machine.execStoreReachesL2 s
  | .fifoEntryVisible => Sys2Proof.Machine.execFifoEntryVisible s
  | .invalidPacket => Sys2Proof.Machine.execInvalidPacket s

end Sys2Proof.Machine
end

