-- ==== Sys2Proof/Machine/Scheduler.lean ====
section
/-! DEFINITION. What one clock runs: the issues of every partition, one of the lane and one of the scalar stream at most, in the order of 07
R156; the events that the turns name, or every one that may be due; and the steps that a register write asks for. -/

namespace Sys2Proof.Machine

/-! ### The scalar stream (01 R15) -/

/-- The four bytes of the word at an address, as far as they can be fetched. -/
def State.scalarBytes (s : State) (g : Gang) (va : Nat) : List Byte := s.codeBytes (s.whoGang g) va 4
/-- The instruction of the scalar stream of a fragment, with the state that fetching it leaves. -/
def State.scalarFetch (s : State) (g : Gang) (f : Frag) : Instr × State :=
  let bs := s.scalarBytes g f.spc.toNat
  if bs.length = 4 then (decodeScalar (BitVec.ofNat 32 (leVal bs)), s.fetched (s.whoGang g) f.spc.toNat 4) else (.scalarFetchFault, s)
/-- A scalar turn: the named fragment's scalar stream executes the instruction at its SPC. -/
def scalarTurn (gang slice : Nat) (s : State) : Result :=
  let s0 := s.naming gang slice s.subject
  match s0.cur with
  | none => .next s
  | some (g, f) =>
    if s0.mayRun g && f.mayScalar then
      let (i, s1) := s0.scalarFetch g f
      exec i s1
    else .next s

/-! ### The lane stream (01 R19, 21 R351) -/

/-- The sequencer of the current fragment takes its next item, or its next clause. -/
def laneIssue (s : State) (g : Gang) (f : Frag) : Result :=
  match f.entered with
  | none => exec .clauseEnter s
  | some e =>
    let run := fun (s1 : State) bs =>
      let (i, n) := decodeLaneItem (s1.laneCtx g e.fa e.fb) bs
      exec i (s1.setCur g { f with itemLen := n, item := bs, lwait := .none })
    if f.item.isEmpty then laneFetch s g f e.base e.limit f.lpc.toNat run else run s f.item
/-- A fragment stands at a wait after an issue. Assumption 71: DEDUCED. -/
def Frag.stands (f : Frag) : Bool :=
  f.parkL.isSome || (match f.lwait with
    | .none => false
    | .op _ => false
    | .lbarReleased => false
    | _ => true)
/-- What a draining fragment does (21 R351 step 2): it issues what it can without waiting, and at the first wait, or with nothing left,
it enters its handler; a guard that the queue's head waits for resolves first, as lane writes complete. Assumption 71: DEDUCED. -/
def drainIssue (s : State) (g : Gang) (f : Frag) : Result :=
  let classes : Word := match (s.core g.core).preempt with
    | some p => p.classes.setWidth 32
    | none => 0
  let trap := takeTrap s g f .preempt classes 0 false
  let guarded := f.entered.isNone && match f.queue with
    | e :: _ => e.guard.any fun n => (g.guardOut f.slices n).isNone
    | [] => false
  match laneIssue s g f with
  | .next t =>
    (match t.cur with
      | some (_, f1) => if guarded then .next t else if f1 = f || f1.stands then trap else .next t
      | none => .next t)
  | r => r
/-- A lane turn: the named fragment's sequencer issues. Assumption 71: DEDUCED. -/
def laneTurn (gang slice : Nat) (s : State) : Result :=
  let s0 := s.naming gang slice s.subject
  match s0.cur with
  | none => .next s
  | some (g, f) =>
    if s0.mayRun g && f.mayLane then (if f.draining then drainIssue s0 g f else laneIssue s0 g f)
    else .next s

/-! ### Steps of the device -/

/-- The rows that a turn may run as steps of their own: those that no stream fetches, that no fetch reports, and that no stream's turn
runs; of the traps a turn may raise a machine check, and a pre-emption of a fragment that drains. Assumption 1: DESIGN CHOICE. -/
def eventRow (s : State) (i : Instr) : Bool :=
  match i with
  | .illegalScalarWord _ => false
  | .illegalLaneItem _ => false
  | .scalarFetchFault => false
  | .clauseEnter => false
  | .trapEntry .machineCheck _ _ _ => true
  | .trapEntry .preempt _ _ _ => (match s.cur with
    | some (_, f) => f.draining
    | none => false)
  | .trapEntry _ _ _ _ => false
  | _ => (encodeScalar i).isNone && (encodeLWord i).isNone
/-- A step of the device about a gang, a slice and a subject. -/
def eventTurn (i : Instr) (gang slice subject : Nat) (s : State) : Result :=
  let s0 := s.naming gang slice subject
  if eventRow s0 i then exec i s0 else .next s

/-! ### A turn -/

/-- An L1 line leaves by replacement (12 R212). Assumption 74: DEDUCED. -/
def State.evictLine (s : State) (core line : Nat) : State := s.l1Drop core fun l => l == line
/-- A soft error (12 R216): a corrected one is counted, any other is counted and poisons its unit. -/
def State.eccError (s : State) (u : EccUnit) (corrected : Bool) : State :=
  let up := fun (x : Word) => if x = 0xFFFFFFFF then x else x + 1
  if corrected then { s with eccce := up s.eccce }
  else
    let s1 := { s with eccue := up s.eccue }
    match u with
    | .mem k => { s1 with poison := FMap.put s1.poison k true }
    | .gang gid k => (match s1.gang? gid with
      | some g => s1.updGang gid { g with bad := FMap.put g.bad k true }
      | none => s1)
    | .block bid k => (match s1.block? bid with
      | some b => s1.setBlock bid { b with bad := FMap.put b.bad k true }
      | none => s1)
/-- Run one turn of a clock; one that names what is not there changes nothing. Assumption 1: DESIGN CHOICE. -/
def runTurn (s : State) (t : Turn) : State :=
  match t with
  | .busy _ _ _ => s
  | .event i g sl sub => Result.state (eventTurn i g sl sub s) s
  | .evict core line => s.evictLine core line
  | .ecc u corrected => s.eccError u corrected

/-! ### The issues of a clock (07 R156, R157) -/

/-- A fragment without what it notes while it waits. -/
def Frag.bare (f : Frag) : Frag := { f with item := [], itemLen := 0, lwait := .none, parkS := none, parkL := none, swait := false, tr := {} }
/-- Between two states a stream of a fragment has executed something, not only noted that it waits. Assumption 13: DEDUCED. -/
def State.moved (s t : State) (gid sl : Nat) : Bool :=
  match s.fragAt gid sl, t.fragAt gid sl with
  | some f, some x => f.bare != x.bare
  | _, _ => true
/-- The turn of a stream. -/
def streamTurn (lane : Bool) (e : Nat × Nat) (s : State) : Result := if lane then laneTurn e.1 e.2 s else scalarTurn e.1 e.2 s
/-- What a stream's turn does in a clock: it waits, or enters a clause or the handler of a draining fragment, which takes no issue slot; it
issues an instruction of a wider scope, in the clock in which the last member arrives (R148); or it issues any other. -/
inductive Doing where
  | note
  | meet
  | issue
  deriving DecidableEq, Repr
/-- Classify a turn by the state before it and its outcome. Assumption 13: DEDUCED. -/
def State.doing (s : State) (lane : Bool) (e : Nat × Nat) (r : Result) : Doing :=
  match r with
  | .next t =>
    if !s.moved t e.1 e.2 then .note
    else if !lane then .issue
    else match s.gang? e.1, s.fragAt e.1 e.2 with
      | some g, some f =>
        if f.entered.isNone || (f.draining && (t.fragAt e.1 e.2).any fun x => x.inHandler && x.entry == 7) then .note
        else (match s.itemAt g f with
          | some (.lbar, _) => .meet
          | some (i, _) => (match scopeOf i with
            | some sc => if sc = .l then .issue else .meet
            | none => .issue)
          | none => .issue)
      | _, _ => .note
  | _ => .issue

/-- An issue candidate, with what R156 orders it by: class, whether it issued in the clock before, its gang's last issue on the stream, its
SPC, its slice. -/
structure Ready where
  who    : Nat × Nat
  cls    : Nat
  greedy : Bool
  last   : Nat
  spc    : Nat
  slice  : Nat
  deriving DecidableEq, Repr
/-- The order of R156. Assumption 13: DEDUCED. -/
def Ready.before (a b : Ready) : Bool :=
  if a.cls ≠ b.cls then decide (a.cls < b.cls)
  else if a.greedy != b.greedy then a.greedy
  else if a.last ≠ b.last then decide (a.last < b.last)
  else if a.spc ≠ b.spc then decide (a.spc < b.spc) else decide (a.slice ≤ b.slice)
/-- The ready fragments of a partition, with what orders them: a gang counts by its ready fragment that has waited longest. -/
def State.rank (s : State) (lane : Bool) (es : List (Nat × Nat)) : List Ready :=
  let last := fun (f : Frag) => if lane then f.lastL else f.lastS
  es.filterMap fun e => (s.fragAt e.1 e.2).map fun f =>
    { who := e, cls := f.cls, greedy := last f + 1 == s.clk, spc := f.spc.toNat, slice := e.2
      last := ((es.filter fun x => x.1 == e.1).filterMap fun x => (s.fragAt x.1 x.2).map last).foldl min s.clk }
/-- The first of some candidates in that order. -/
def foremostReady (l : List Ready) : Option (Nat × Nat) :=
  (l.foldl (fun acc x => match acc with
    | none => some x
    | some y => if y.before x then some y else some x) none).map (·.who)

/-- An issue of a stream, with what it leaves (R157). -/
def State.issueTo (s : State) (lane : Bool) (e : Nat × Nat) : Result :=
  match streamTurn lane e s, s.fragAt e.1 e.2 with
  | .next t, some f => .next ((t.issued e.1 f.slices lane).membersIssued s)
  | r, _ => r
/-- A stream of a partition looks at its next instruction: what it notes is noted, a meeting that completes issues, any other that can issue
is a candidate. -/
structure Look where
  s     : State
  ready : List (Nat × Nat)
  met   : Bool
/-- One stream looks. -/
def Look.one (lane : Bool) (l : Look) (e : Nat × Nat) : Look :=
  let r := streamTurn lane e l.s
  match l.s.doing lane e r with
  | .note => { l with s := r.state l.s }
  | .meet => { l with s := (l.s.issueTo lane e).state l.s, met := true }
  | .issue => { l with ready := l.ready ++ [e] }
/-- The streams of one kind of a partition issue at most one instruction, by R156; what is ready beside it. -/
def State.issueOne (s : State) (lane : Bool) (es : List (Nat × Nat)) : Host.Outcome (State × List (Nat × Nat)) Fault Refusal :=
  let l := es.foldl (Look.one lane) { s := s, ready := [], met := false }
  match if l.met then none else foremostReady (l.s.rank lane l.ready) with
  | none => .next (l.s, l.ready)
  | some e => match l.s.issueTo lane e with
    | .next t => .next (t, l.ready)
    | .fault r => .fault r
    | .refused r => .refused r

/-- The fragments of a partition of a core. -/
def State.partStreams (s : State) (core part : Nat) : List (Nat × Nat) :=
  s.streams.filter fun e => match s.gang? e.1 with
    | some g => g.core == core && g.part == part
    | none => false
/-- A fragment has taken a trap, or ended, between two states. -/
def State.trapped (s t : State) (e : Nat × Nat) : Bool :=
  match s.fragAt e.1 e.2, t.fragAt e.1 e.2 with
  | some f, some x => !f.inHandler && x.inHandler
  | _, _ => true
/-- A machine check has been raised between two states (21 R349, 27 R406). -/
def State.checkRaised (s t : State) : Bool :=
  decide (s.notices.length < t.notices.length) && (t.notices.getLast?.map fun n => n.kind) == some 2
/-- Where the lane stream of a fragment has trapped, its scalar stream executes nothing in the clock, unless what it would execute raises a
machine check, which comes before the lane stream's cause (21 R339). -/
def State.checkFirst (s t : State) (es : List (Nat × Nat)) : State :=
  match es.find? fun e => s.trapped t e with
  | none => t
  | some e => match streamTurn false e s with
    | .next u => if s.checkRaised u && !s.checkRaised t then u else t
    | _ => t
/-- The fragments that were ready and issued on neither stream count the clock (R157). -/
def State.countReady (s : State) (es : List (Nat × Nat)) : State :=
  es.eraseDups.foldl (fun (s : State) e => match s.fragAt e.1 e.2 with
    | some f => if f.lastL = s.clk || f.lastS = s.clk then s else s.waited e.1 e.2
    | none => s) s
/-- A clock of one partition (R156): one lane and one scalar instruction at most. `busy` names the streams whose next instruction cannot issue in
this clock for a reason outside the model, such as its bytes. -/
def issuePart (busy : Nat × Nat → Bool → Bool) (core part : Nat) (s : State) : Result :=
  let es := s.partStreams core part
  if es.isEmpty then .next s
  else match s.issueOne true (es.filter fun e => !busy e true) with
    | .next (t, lanes) =>
      let t1 := s.checkFirst t (es.filter fun e => !busy e false)
      (match t1.issueOne false ((t1.partStreams core part).filter fun e => !busy e false && !s.trapped t1 e) with
        | .next (u, scalars) => .next (u.countReady (lanes ++ scalars))
        | .fault r => .fault r
        | .refused r => .refused r)
    | .fault r => .fault r
    | .refused r => .refused r
/-- Places where gangs stand: cores with their partitions, ascending. -/
def State.places (s : State) : List (Nat × Nat) :=
  (((s.gangList.filter fun e => !e.2.desched).map fun e => (e.2.core, e.2.part)).eraseDups).mergeSort
    fun a b => decide (a.1 < b.1) || (decide (a.1 = b.1) && decide (a.2 ≤ b.2))
/-- The issues of a clock, partition by partition: the order in which two of one clock reach what they share (14 R254, 24 R372).
Assumption 1: DESIGN CHOICE. -/
def issueClock (busy : Nat × Nat → Bool → Bool) (s : State) : Result :=
  s.places.foldl (fun (r : Result) p => match r with
    | .next t => issuePart busy p.1 p.2 t
    | r => r) (.next s)

/-! ### The events of a clock -/

/-- A step of the device about a subject. -/
def about (i : Instr) (n : Nat) : Turn := .event i 0 0 n
/-- A step of a fragment. -/
def onFrag (i : Instr) (gid : Nat) (f : Frag) : Turn := .event i gid (lowSlice f.slices) 0
/-- Steps of a gang's fragments that may be due (01 R18, R24, 14 R252). -/
def fragEvents (gid : Nat) (g : Gang) (f : Frag) : List Turn :=
  ((List.range 16).map fun n => onFrag (.guardResolve (BitVec.ofNat 4 n)) gid f) ++
    (f.marks.map fun m => onFrag (.laneScalarWriteLand m.reg) gid f) ++
    (g.asyncs.map fun o => onFrag (.flaggedOperationComplete o.id) gid f) ++
    [onFrag .waitaComplete gid f]
/-- Steps of a gang's engines. -/
def gangEvents (gid : Nat) (g : Gang) : List Turn :=
  (g.frags.flatMap fun f => fragEvents gid g f) ++
    [about .matrixOperationComplete gid, about .batchComplete gid, about .matrixCommandStart gid,
     about .ddeJobAccept gid] ++ (List.range 4).map fun q => about (.queryComplete gid (BitVec.ofNat 2 q)) 0
/-- Steps of a core: messages, copies, FIFO entries. -/
def coreEvents (c : Nat) (k : Core) : List Turn :=
  ((List.range 8).map fun q => about (.mqEntryArrive c (BitVec.ofNat 3 q)) 0) ++
    (k.copies.flatMap fun x => ((List.range 128).map fun n => about (.copyChunkComplete c x.slot n) 0) ++ [about (.copyComplete c x.slot) 0]) ++
    (k.held.map fun h => about (.copyComplete c (wordSlot h.word)) 0) ++ [about .fifoEntryVisible c]
/-- Steps of a launch. -/
def launchEvents (lid : Nat) (l : Launch) (clusters : List Nat) : List Turn :=
  [about .launchComplete lid] ++
    (if l.items = 0 then [] else clusters.map fun c => about (.workItemChunkMove lid c) 0)
/-- Steps of a queue. -/
def queueEvents (q : Nat) : List Turn :=
  [about .packetNop q, about .packetLaunch q, about .packetChainRegister q, about .invalidPacket q]
/-- Consumers of strips. -/
def consumers : List Consumer :=
  ((List.range 8).map fun n => Consumer.stream (BitVec.ofNat 3 n)) ++ (List.range 4).map fun n => Consumer.enc (BitVec.ofNat 2 n)
/-- Steps of a chain's strip, and of one still owed. -/
def chainEvents (c : Chain) : List Turn :=
    (consumers.flatMap fun k => [about (.scanoutStart (BitVec.ofNat 8 c.slot) k) 0, about (.scanLineSend (BitVec.ofNat 8 c.slot) k) 0]) ++
    ((List.range 4).map fun e => about (.encoderRowStart (BitVec.ofNat 2 e) (bitsOf c.sdesc.2.1.toNat 24 13 * 4 / 64)) 0) ++
    [about .scanEnd c.slot]
/-- Dispatch of a launch's next block, or of a descheduled one, to some core: gangs go to the partitions in turn. -/
def dispatchTurns (s : State) (lid : Nat) (l : Launch) : List Turn :=
  let again := (s.blockList.filter fun e => e.2.launch == lid && e.2.desched).map fun e => e.2.idx
  let new := if l.dispatched.length < l.blocks then [l.dispatched.length] else []
  if l.cancelled || l.complete || !s.dispatches then []
  else (again ++ new).flatMap fun b => (List.range nCores).map fun c =>
    about (.blockDispatch lid b c ((List.range 64).map fun k => k % 4)) 0
/-- Steps of the device that may be due, but for those that a clock's end takes in any case. Assumption 1: DESIGN CHOICE. -/
def State.dueTurns (s : State) : List Turn :=
  (s.chains ++ s.owed).flatMap chainEvents ++
    [about .ringHandoverComplete 0, about .spilledWaiterComplete 0] ++
    (s.gangList.flatMap fun e => gangEvents e.1 e.2) ++
    ((List.range s.path.length).map fun n => about .storeReachesL2 n) ++
    ((List.range s.stores.length).map fun n => about .ringStoreLand n) ++
    ((List.range s.bins.length).map fun n => about .binnerRecord n) ++
    (s.cores.flatMap fun e => coreEvents e.1 e.2) ++ (s.clusters.map fun e => about .ddeJobEnd e.1) ++
    (s.launchList.flatMap fun e => launchEvents e.1 e.2 (s.launchClusters e.1)) ++
    (s.ifaces.map fun e => about .queueAgeing e.1) ++ (s.queues.flatMap fun e => queueEvents e.1) ++
    (s.launchList.flatMap fun e => dispatchTurns s e.1 e.2)

/-- The events of a clock: those that the turns name for it, or every one that may be due. -/
def State.events (s : State) (named : Option (List Turn)) : List Turn := named.getD s.dueTurns
/-- The steps that register writes of the clock ask for. -/
def State.runPrompt (s : State) : State := s.prompt.foldl runTurn { s with prompt := [] }
/-- What the turns name for the clock that begins. Assumption 1: DESIGN CHOICE. -/
def State.takeTurns (s : State) : Option (List Turn) × State :=
  match s.turns with
  | l :: r => (some l, { s with turns := r })
  | [] => (none, s)
/-- The streams that a clock's turns hold. -/
def busyIn (named : Option (List Turn)) (e : Nat × Nat) (lane : Bool) : Bool := (named.getD []).contains (.busy e.1 e.2 lane)
/-- A clock after its issues: the matrix engines (15 R275), the changes that the issues asked for (01 R28), the events, and the clock's end. -/
def State.closeClock (s : State) (named : Option (List Turn)) : State :=
  let s1 := s.engineClock.landLate
  ((s1.events named).foldl runTurn s1).runPrompt.endClock

end Sys2Proof.Machine
end

