-- ==== Sys2Proof/Machine/Step.lean ====
section
/-! DEFINITION. One step of the machine: a clock passes, with the issues of every partition, its events and its end. -/

namespace Sys2Proof.Machine

/-- A step: one clock. Assumption 12: DESIGN CHOICE. -/
def step (s : State) : Host.Outcome State Fault Refusal :=
  let (named, s1) := s.tick.takeTurns
  match issueClock (busyIn named) s1 with
  | .next s2 => .next (s2.closeClock named)
  | .fault r => .fault r
  | .refused r => .refused r

/-- The state with an instruction's bits where the next step fetches: see `State.placeScalar` and `State.placeLane`.
Assumption 2: DESIGN CHOICE. -/
def State.withFetchWord (s : State) (nbits w : Nat) : State :=
  if nbits ≤ 32 then s.placeScalar w else s.placeLane w

end Sys2Proof.Machine
end

