-- ==== Sys2Proof/Machine/Assembler.lean ====
section
/-! DEFINITION. What zqas writes for the machine to read: the form of each lane statement (04 R89), a clause with its header (04 R85, 03
R73), and a kernel's descriptor (04 R86, R87). The text that it reads is not the machine's. Assumption 78: DEDUCED. -/

namespace Sys2Proof.Machine

/-- The bytes of a short form of `n` bytes: its payload around the prefix in bits [7:6] (03 R69, R70). -/
def packShort (n pre q : Nat) : List Byte := leBytes n (q % 64 + 64 * pre + 256 * (q / 64))
/-- The payload of the L4 that would hold an L-word (03 R71). -/
def packL4 (w : LWord) : Nat := w.opcode.toNat % 2 ^ 7 + 2 ^ 7 * w.vd.toNat + 2 ^ 15 * w.va.toNat + 2 ^ 23 * (w.vb.toNat % 2 ^ 7)
/-- The payload of the L6 that would hold an L-word (03 R71). -/
def packL6 (w : LWord) : Nat :=
  w.opcode.toNat + 2 ^ 10 * w.scope.toNat + 2 ^ 12 * w.vd.toNat + 2 ^ 20 * w.va.toNat + 2 ^ 28 * w.vb.toNat + 2 ^ 36 * w.flag.toNat +
    2 ^ 38 * w.cls.toNat + 2 ^ 45 * w.reuse.toNat
/-- The payload of the L8 that would hold an L-word (03 R71). -/
def packL8 (w : LWord) : Nat :=
  w.opcode.toNat + 2 ^ 10 * w.vd.toNat + 2 ^ 18 * w.va.toNat + 2 ^ 26 * w.vb.toNat + 2 ^ 34 * w.flag.toNat + 2 ^ 36 * w.cls.toNat +
    2 ^ 43 * (w.ext.toNat % 2 ^ 19)
/-- The default class of an L-word's opcode (03 R71). -/
def laneDefault (w : LWord) : Option Tag := (opSpec true { w with cls := 0 }).bind fun o => o.dflt
/-- The item of an L-word: the first of L4, L6, L8 and the full form that expands to it (04 R89). -/
def laneForm (w : LWord) : List Byte :=
  if (laneDefault w).isSome && expandL4 (packL4 w) == w then packShort 4 0 (packL4 w)
  else if expandL6 (packL6 w) == w then packShort 6 1 (packL6 w)
  else if expandL8 (packL8 w) == w then packShort 8 2 (packL8 w)
  else 0xE0#8 :: leBytes 12 w.toBits.toNat

/-- A clause's header: WAIT, the bound flags, and the number of statements; an empty or an overlong clause and a flag above f11 are
errors (04 R85). -/
def clauseHeader (wait : BitVec 12) (fa fb : Option (BitVec 4)) (n : Nat) : Option (List Byte) :=
  if n = 0 || 32 < n || (fa.getD 0).toNat > 11 || (fb.getD 0).toNat > 11 then none
  else
    let q := n - 1 + 2 ^ 5 * wait.toNat + 2 ^ 17 * (fa.getD 15).toNat + 2 ^ 21 * (fb.getD 15).toNat
    some (leBytes 4 (0xF0 + q % 8 + 256 * (q / 8)))
/-- A statement of a kernel's clause that zqas accepts: its encoding passes checks 2 to 10 of 03 R76 under the selectors that the
clause binds, and check 11 under the kernel's `.regs`, `.accs` and `.tiles` (04 R84). -/
def statementOk (k : KDesc) (fa fb : Option (BitVec 4)) (w : LWord) : Bool :=
  (laneChecks { boundA := fa.isSome, boundB := fb.isSome, sys := k.priv } false w).isNone &&
    (overAlloc k.regs k.accs k.tiles 1 (buildLane w)).isNone
/-- A clause of a kernel: its header and its statements' items (04 R85, 03 R74); a statement that zqas rejects is an error (04 R84). -/
def clauseBytes (k : KDesc) (wait : BitVec 12) (fa fb : Option (BitVec 4)) (ws : List LWord) : Option (List Byte) :=
  if ws.all (statementOk k fa fb) then (clauseHeader wait fa fb ws.length).map fun h => h ++ ws.flatMap laneForm else none

/-- KFLAGS of a kernel (04 R87). -/
def KDesc.flags (k : KDesc) : Nat :=
  k.priv.toNat + 2 * k.cls + 8 * k.demand.toNat + 16 * k.coop.toNat + 32 * k.pair.toNat
/-- The operands of a kernel's directives lie within their limits (04 R86), and its lease ranges fit the descriptor (04 R87). -/
def KDesc.inLimits (k : KDesc) : Bool :=
  decide (1 ≤ k.cls ∧ k.cls ≤ 3 ∧ 1 ≤ k.gangs ∧ k.gangs ≤ 32 ∧ 1 ≤ k.width ∧ k.width ≤ 4 ∧ 32 ≤ k.regs ∧ k.regs ≤ 256 ∧ k.regs % 32 = 0 ∧
    k.accs ≤ 8 ∧ k.tiles ≤ 16 ∧ k.scratch ≤ 524288 ∧ k.leases.length ≤ 16)
/-- A kernel's descriptor of 320 bytes (04 R87); the entries that it does not count are zero. -/
def KDesc.layout (k : KDesc) : List Byte :=
  leOf 4 0x10000 ++ leOf 4 k.flags ++ leOf 8 k.entry.toNat ++ leOf 8 k.scbase.toNat ++ leOf 4 k.scsize.toNat ++ leOf 4 k.lcsize.toNat ++
    leOf 8 k.lcbase.toNat ++ leOf 1 k.gangs ++ leOf 1 k.width ++ leOf 1 (k.regs / 32) ++ leOf 1 k.accs ++ leOf 1 k.tiles ++
    leOf 1 k.leases.length ++ leOf 2 ((k.scratch + 255) / 256) ++ leOf 8 k.binbase.toNat ++ leOf 8 0 ++
    k.leases.flatMap (fun l => leOf 8 (2 ^ 63 * l.1.toNat + l.2.1.toNat) ++ leOf 8 l.2.2.toNat) ++
    List.replicate (16 * (16 - k.leases.length)) 0

/-- What zqas writes for a kernel: its descriptor, or an error when an operand is outside its limits (04 R86, R87). -/
def KDesc.bytes (k : KDesc) : Option (List Byte) := if k.inLimits then some k.layout else none

/-- A section of a program (04 R88). -/
inductive CodeSec where | scalar | lane | data
  deriving DecidableEq, Repr

/-- A value fits a width of bytes, signed or unsigned (04 R88). -/
def fitsWidth (width : Nat) (v : Int) : Bool := decide (-(2 ^ (8 * width - 1) : Int) ≤ v ∧ v < 2 ^ (8 * width))
/-- A data directive's operands, each in its width, little-endian; one that does not fit is an error (04 R88, 00 R7). -/
def dataBytes (width : Nat) (vs : List Int) : Option (List Byte) :=
  if vs.all (fitsWidth width) then some (vs.flatMap fun v => leOf width (v % 2 ^ (8 * width)).toNat) else none
/-- The bytes of `.space n, fill`; zero when no fill is given (04 R88). -/
def spaceBytes (n : Nat) (fill : Byte := 0) : List Byte := List.replicate n fill
/-- The bytes that `.align n` adds at an offset: to the next multiple of 2^n, zero in the data, NOPs in the scalar and padding in the
lane code; n is at most 16, and at least 2 in the scalar code, where whole NOPs must fill the gap (04 R88). -/
def alignBytes (sec : CodeSec) (n off : Nat) : Option (List Byte) :=
  let k := (2 ^ n - off % 2 ^ n) % 2 ^ n
  if 16 < n then none
  else match sec with
    | .data => some (List.replicate k 0)
    | .lane => some (List.replicate k 0xFF)
    | .scalar => if n < 2 || off % 4 ≠ 0 then none else some (List.replicate (k / 4) (leOf 4 0xF0000000)).flatten
/-- A line of the scalar code: an instruction's word, or the bytes of a data directive. -/
inductive ScodeLine where
  | word (w : Word)
  | data (bs : List Byte)
  deriving DecidableEq, Repr
/-- The bytes of some lines of the scalar code from an offset; an instruction at an offset that is no multiple of 4 is an error
(04 R88). -/
def scodeBytes : Nat → List ScodeLine → Option (List Byte)
  | _, [] => some []
  | off, .word w :: r => if off % 4 ≠ 0 then none else (scodeBytes (off + 4) r).map fun t => leOf 4 w.toNat ++ t
  | off, .data bs :: r => (scodeBytes (off + bs.length) r).map fun t => bs ++ t

end Sys2Proof.Machine
end

