-- ==== Sys2Proof/Safety.lean ====
section
/-! DEFINITION. What counts as a safe state and a safe run, and the words the statements use: what an instruction changes in the
current gang and its fragment, and that everything else of the machine is as before. -/

namespace Sys2Proof.Machine

/-- The three memories are in canonical form: addresses strictly rising, and no listed byte equal to what an unlisted one reads as. -/
def State.memOk (s : State) : Prop := Memory.wf s.mem = true ∧ Memory.wf s.sp = true ∧ Memory.wf s.ring = true
/-- The step from a state goes on. -/
def State.goesOn (s : State) : Prop := ∃ t, step s = .next t
/-- A state follows from another by some number of steps. -/
inductive Reaches : State → State → Prop where
  | refl (s : State) : Reaches s s
  | tail {s t u : State} : Reaches s t → step t = .next u → Reaches s u

/-! ### Changes of the current gang -/

/-- Nothing but the current gang changes: every byte of every memory, every store on its way, every register of a core or of the
device, every other gang, block, launch and queue is as before. -/
def OnlyGang (s t : State) : Prop := { t with gangs := s.gangs } = s ∧ ∀ n, n ≠ s.gang → t.gang? n = s.gang? n

/-- A slice's copy keeps its flags, guards and k-registers, and every scalar register but the listed ones. -/
def KeepsBut (ds : List SReg) (c c' : SliceCopy) : Prop :=
  (∀ r, r ∉ ds → c'.get r = c.get r) ∧ c'.flags = c.flags ∧ c'.guards = c.guards ∧ c'.k = c.k
/-- A slice's copy gets a value in one scalar register, where s0 keeps reading zero (01 R11), and keeps all else. -/
def Puts (d : SReg) (v : SliceCopy → Word) (c c' : SliceCopy) : Prop :=
  c'.get d = (if d = 0 then 0 else v c) ∧ KeepsBut [d] c c'
/-- A slice's copy gets a dword in a register pair, its low word in the first register (01 R12), and keeps all else. -/
def PutsPair (d : SReg) (v : SliceCopy → Dword) (c c' : SliceCopy) : Prop :=
  c'.get d = (if d = 0 then 0 else (v c).extractLsb' 0 32) ∧
  c'.get (d + 1) = (if d + 1 = 0 then 0 else (v c).extractLsb' 32 32) ∧ KeepsBut [d, d + 1] c c'
/-- A slice's copy is as before. -/
def Keeps (c c' : SliceCopy) : Prop := c' = c

/-- The current fragment becomes `f'`, the copy of each of its slices relates to its former one by `R`, and nothing else changes:
no other slice's copy, no mask, vector register, accumulator, tag, flagged operation or engine command of the gang, no other
fragment, and nothing outside the gang. -/
def FragTo (g : Gang) (f' : Frag) (R : SliceCopy → SliceCopy → Prop) (s t : State) : Prop :=
  OnlyGang s t ∧ ∃ g', t.cur = some (g', f') ∧ { g' with copies := g.copies, frags := g.frags } = g ∧
    g'.frags = (g.putFrag f').frags ∧
    ∀ sl, if f'.slices.getLsbD sl then R (g.copy sl) (g'.copy sl) else g'.copy sl = g.copy sl

/-- A scalar instruction whose registers carry no pending mark completes: it advances past its word, and the copies of the
fragment's slices change as `R` says. -/
def ScalarDoes (i : Instr) (rs : List SReg) (R : SliceCopy → SliceCopy → Prop) : Prop :=
  ∀ s g f, s.cur = some (g, f) → f.free rs = true → ∃ t, exec i s = .next t ∧ FragTo g f.advance R s t
/-- It writes one register, each slice from its own copy. -/
def ScalarGives (i : Instr) (rs : List SReg) (d : SReg) (v : SliceCopy → Word) : Prop := ScalarDoes i rs (Puts d v)
/-- It writes a register pair, each slice from its own copy. -/
def ScalarGivesPair (i : Instr) (rs : List SReg) (d : SReg) (v : SliceCopy → Dword) : Prop := ScalarDoes i rs (PutsPair d v)

/-- The slices of a fragment agree on what an instruction reads (07 R141). -/
def Agree {α : Type} (g : Gang) (f : Frag) (src : SliceCopy → α) : Prop :=
  ∀ sl, f.slices.getLsbD sl = true → src (g.copy sl) = src (g.low f)

/-! ### Control transfer -/

/-- Nothing outside the gangs changes but the groups of packets that the cores' Chronographs have to write at the clock's end (10 R190,
R194). -/
def TraceOnly (s t : State) : Prop :=
  { t with gangs := s.gangs, cores := s.cores } = s ∧
    (∀ n, { t.core n with cg := { (t.core n).cg with clockQ := (s.core n).cg.clockQ } } = s.core n) ∧
    ∀ n, n ≠ s.gang → t.gang? n = s.gang? n

/-- Each slice of the fragment has gone to its own next address, and two slices are in one fragment exactly when their next
addresses are the same (07 R141); each new fragment has the old one's clauses and marks. -/
def SlicesGo (f : Frag) (next : Nat → Dword) (g' : Gang) : Prop :=
  ∀ sl, f.slices.getLsbD sl = true → ∃ x, g'.fragOf sl = some x ∧ x.spc = next sl ∧
    (∀ k, x.slices.getLsbD k = true ↔ f.slices.getLsbD k = true ∧ next k = next sl) ∧
    x.lpc = f.lpc ∧ x.queue = f.queue ∧ x.entered = f.entered ∧ x.marks = f.marks ∧ x.inHandler = f.inHandler

/-- A control transfer: the slices go as `next` says, the copies of the fragment's slices change as `R` says, and nothing else of the
gang and the machine changes, but for what a Chronograph that traces the gang writes. -/
def TransfersTo (g : Gang) (f : Frag) (next : Nat → Dword) (R : SliceCopy → SliceCopy → Prop) (s t : State) : Prop :=
  TraceOnly s t ∧ (s.traced g = false → OnlyGang s t) ∧
  ∃ g', t.gang? s.gang = some g' ∧ SlicesGo f next g' ∧
    { g' with copies := g.copies, frags := g.frags, latch := g.latch, trNext := g.trNext } = g ∧
    (∀ x ∈ g.frags, x.slices &&& f.slices = 0 → x ∈ g'.frags) ∧
    ∀ sl, if f.slices.getLsbD sl then R (g.copy sl) (g'.copy sl) else g'.copy sl = g.copy sl

/-- The target of an offset of `o` words (03 R61). -/
def target {n : Nat} (pc : Dword) (o : BitVec n) : Dword := pc + 4 * o.signExtend 64
/-- A conditional branch whose registers carry no pending mark: a slice goes to the target where its condition holds, else past the
word. -/
def BranchDoes (i : Instr) (rs : List SReg) (off : BitVec 12) (c : SliceCopy → Prop) [∀ k, Decidable (c k)] : Prop :=
  ∀ s g f, s.cur = some (g, f) → f.free rs = true →
    ∃ t, exec i s = .next t ∧
      TransfersTo g f (fun sl => if c (g.copy sl) then target f.spc off else f.spc + 4) Keeps s t

/-! ### Traps -/

/-- The current fragment has entered its handler (21 R338): it goes to THBASE in class 0 with an empty clause queue and no clause in
issue; in each of its slices TCAUSE, TVAL, TADDR, TSPC, TLPC, TSTAT and the PCQ hold what the entry saves, and the scalar registers,
flags, guards and every other k-register are as before; a pre-emption that another cause of a draining fragment beats becomes pending
(R339); nothing outside the gang changes but what a Chronograph has to write, the events that a waiting EVWAIT had registered with, and what
the host is told of a machine check. -/
def EntersHandler (g : Gang) (f : Frag) (c : Cause) (tval : Word) (taddr : Dword) (lane : Bool) (s t : State) : Prop :=
  ∃ g' f', t.cur = some (g', f') ∧ f'.slices = f.slices ∧ f'.spc = (g.low f).kget64 0 &&& ~~~3#64 ∧ f'.inHandler = true ∧
    f'.queue = [] ∧ f'.entered = none ∧ f'.cls = 0 ∧
    (∀ sl, f.slices.getLsbD sl = true →
      let k := g.copy sl
      let k' := g'.copy sl
      k'.s = k.s ∧ k'.flags = k.flags ∧ k'.guards = k.guards ∧
      k'.kget 2 = (k.kget 2 &&& 0x8000) ||| (if f.draining = true ∧ c ≠ .preempt then 0x8000 else 0) ||| BitVec.ofNat 32 c.code ∧ k'.kget 3 = tval ∧ k'.kget64 102 = taddr ∧
      k'.kget64 4 = f.spc ∧ k'.kget 6 = f.trapLpc ∧ k'.kget 7 = f.trapStat lane ∧
      (∀ n, n < 8 → k'.kget64 (8 + 2 * n) = pcqEntry f.queue[n]?) ∧
      ∀ n, ¬ (2 ≤ n ∧ n ≤ 23) → n ≠ 102 → n ≠ 103 → k'.kget n = k.kget n) ∧
    (∀ sl, f.slices.getLsbD sl = false → g'.copy sl = g.copy sl) ∧
    g'.v = g.v ∧ g'.vtag = g.vtag ∧ g'.a = g.a ∧ g'.atag = g.atag ∧ g'.xm = g.xm ∧ g'.lm = g.lm ∧ g'.hm = g.hm ∧
    (∀ n, n ≠ s.gang → t.gang? n = s.gang? n) ∧ t.sp = s.sp ∧ t.ring = s.ring ∧ t.path = s.path ∧
    t.mem = s.mem ∧ (s.traced g = false → t.cores = s.cores)

/-- A trap taken (21 R338 to R340): a fragment outside its handler with a handler enters it. -/
def Traps (i : Instr) (s : State) (g : Gang) (f : Frag) (c : Cause) (tval : Word) (taddr : Dword) (lane : Bool) : Prop :=
  f.inHandler = false → (g.low f).kget64 0 ≠ 0 → ∃ t, exec i s = .next t ∧ EntersHandler g f c tval taddr lane s t

/-! ### The lane stream -/

/-- The item in issue has issued (01 R19): the sequencer stands past it, with one item less to go, or with no clause after the last;
the scalar stream and the queue are as before. -/
def Passes (f f' : Frag) : Prop :=
  f'.slices = f.slices ∧ f'.spc = f.spc ∧ f'.lpc = f.lpc + BitVec.ofNat 32 f.itemLen ∧ f'.queue = f.queue ∧
  f'.inHandler = f.inHandler ∧ f'.lwait = .none ∧ f'.cls = f.cls ∧
  f'.entered = match f.entered with
    | none => none
    | some e => if e.rem ≤ 1 then none else some { e with rem := e.rem - 1, idx := e.idx + 1 }
/-- The same of an item with a scalar result, which the values that the clause and its successors captured may show (06 R112). -/
def PassesOn (f f' : Frag) : Prop :=
  f'.slices = f.slices ∧ f'.spc = f.spc ∧ f'.lpc = f.lpc + BitVec.ofNat 32 f.itemLen ∧
  (f'.queue.map fun q => { q with cap := [] }) = (f.queue.map fun q => { q with cap := [] }) ∧
  f'.inHandler = f.inHandler ∧ f'.lwait = .none ∧ f'.cls = f.cls ∧
  (f'.entered.map fun e => { e with cap := [] }) = match f.entered with
    | none => none
    | some e => if e.rem ≤ 1 then none else some { e with rem := e.rem - 1, idx := e.idx + 1, cap := [] }
/-- What the rest of the clause in issue and the clauses behind it read of the registers (06 R112): where a fragment's slice read `x` of a
register it now reads `y` with `P r sl x y`; other clauses keep what they captured. -/
def Captures (f f' : Frag) (P : SReg → Nat → Word → Word → Prop) : Prop :=
  let reads := fun (c c' : Captured) => ∀ (r : SReg) (sl : Nat), r ≠ 0 → P r sl (FMap.get (FMap.get c sl) r.toNat) (FMap.get (FMap.get c' sl) r.toNat)
  (∀ e e', f.entered = some e → f'.entered = some e' → reads e.cap e'.cap) ∧
  ∀ (n : Nat) (q q' : QEntry), f.queue[n]? = some q → f'.queue[n]? = some q' →
    if f.clauseId < q.id then reads q.cap q'.cap else q'.cap = q.cap

/-- A lane that takes part: set in xm and lm, in a slice of the fragment (01 R14). -/
def Takes (g : Gang) (f : Frag) (l : Nat) : Prop :=
  l < 32 ∧ g.xm.getLsbD l = true ∧ g.lm.getLsbD l = true ∧ f.slices.getLsbD (l / 8) = true

/-- Vector registers are written: in the lanes that take part the words relate as `P` says, every other word of every register stays,
and a written register's tag is set when some lane takes part (01 R27). Nothing else of the gang changes. -/
def WritesLanes (g g' : Gang) (f : Frag) (ds : List Nat) (tag : Tag) (P : Nat → Nat → Word → Prop) : Prop :=
  (∀ r l, l < 32 → (r ∈ ds ∧ Takes g f l → P r l (g'.vraw r l)) ∧ (¬ (r ∈ ds ∧ Takes g f l) → g'.vraw r l = g.vraw r l)) ∧
  (∀ r, (r ∈ ds → g.taking f ≠ 0 → g'.tagOf r = tag) ∧ (¬ (r ∈ ds ∧ g.taking f ≠ 0) → g'.tagOf r = g.tagOf r)) ∧
  { g' with v := g.v, vtag := g.vtag, frags := g.frags, latch := g.latch, hist := g.hist, clash := g.clash, bad := g.bad } = g

/-- What lets a lane instruction go on: the registers it names are allocated (01 R13), no earlier lane write is still to give one of its
scalar sources (06 R112), the tags it checks pass (01 R27; of a register that outstanding work will write none is checked, R21), and it
reads no poisoned word or tag (21 R349). -/
def LaneReady (i : Instr) (s : State) (g : Gang) (f : Frag) (tags : List (Tag × List Nat)) : Prop :=
  s.cur = some (g, f) ∧ overAlloc g.regs g.accs (s.tilesOf g) g.aw i = none ∧ f.laneStall i = false ∧
  (∀ p ∈ tags, ∀ r ∈ p.2, g.busyV r = false → tagPass p.1 (g.tagOf r) = true) ∧ s.poisonSrc g f i = none

/-- A lane instruction that writes one vector register: it issues, and each lane's word relates to the state before as `P` says. -/
def LaneGivesP (i : Instr) (tags : List (Tag × List Nat)) (d : VReg) (tag : State → Gang → Tag)
    (P : State → Gang → Frag → Nat → Word → Prop) : Prop :=
  ∀ s g f, LaneReady i s g f tags →
    ∃ t g' f', exec i s = .next t ∧ OnlyGang s t ∧ t.cur = some (g', f') ∧ Passes f f' ∧ g'.frags = (g.putFrag f').frags ∧
      WritesLanes g g' f [d.toNat] (tag s g) fun _ l w => P s g f l w
/-- The same with each lane's word given. -/
def LaneGives (i : Instr) (tags : List (Tag × List Nat)) (d : VReg) (tag : State → Gang → Tag)
    (v : State → Gang → Frag → Nat → Word) : Prop :=
  LaneGivesP i tags d tag fun s g f l w => w = v s g f l

/-- The word that lane `l` reads of a vector register; a free value where work outstanding will write it (01 R21). -/
def laneSrc (a : VReg) (s : State) (g : Gang) (l : Nat) : Word := g.vget s.clk a.toNat l
/-- Two sources under one class. -/
def LaneOp2 (i : Instr) (d a : VReg) (b : BSrc) (c : Tag) (op : Word → Word → Word) : Prop :=
  LaneGives i [(c, a.toNat :: bRegs b)] d (fun _ _ => c) fun s g f l => op (laneSrc a s g l) (bVal s.clk g f b l)
/-- The tag that a result takes over from a source register; a free value where work outstanding will write it (01 R21). -/
def srcTagOf (a : VReg) (s : State) (g : Gang) : Tag := g.srcTag s.clk a.toNat
/-- Two sources with no tag check; the result carries the first one's tag. -/
def LaneBits2 (i : Instr) (d a : VReg) (b : BSrc) (op : Word → Word → Word) : Prop :=
  LaneGives i [] d (srcTagOf a) fun s g f l => op (laneSrc a s g l) (bVal s.clk g f b l)
/-- One source under a class. -/
def LaneOp1 (i : Instr) (d a : VReg) (c t : Tag) (op : Word → Word) : Prop :=
  LaneGives i [(c, [a.toNat])] d (fun _ _ => t) fun s g _ l => op (laneSrc a s g l)
/-- Three sources under one class. -/
def LaneOp3 (i : Instr) (d a : VReg) (b : BSrc) (vc : VReg) (c : Tag) (op : Word → Word → Word → Word) : Prop :=
  LaneGives i [(c, [a.toNat] ++ bRegs b ++ [vc.toNat])] d (fun _ _ => c) fun s g f l =>
    op (laneSrc a s g l) (bVal s.clk g f b l) (laneSrc vc s g l)

/-- An element of a result is the exact result brought into its code's range (02 R42): modulo 2^width, or clamped with SAT. -/
def FitsElem (c : Nat) (sat : Bool) (exact r : Int) : Prop :=
  intLo c ≤ r ∧ r ≤ intHi c ∧
    if sat then r = max (intLo c) (min (intHi c) exact) else (r - exact) % (2 : Int) ^ elemWidth c = 0
/-- Every element of a word is the exact result of the elements of two words, brought into range. -/
def IntElems (c : Tag) (sat : Bool) (op : Int → Int → Int) (x y w : Word) : Prop :=
  ∀ j, j < elemsPerWord c.fcode →
    FitsElem c.fcode sat (op (elemInt c.fcode (elem c.fcode x j)) (elemInt c.fcode (elem c.fcode y j)))
      (elemInt c.fcode (elem c.fcode w j))

/-- A scalar result of an item (01 R18, 06 R110): when some lane takes part, the item's mark on the register holds the value for every slice,
or the register is written at once where no mark of the item stands on it (03 R78), for the lane work that follows too (06 R112); when none
does, nothing is written. -/
def GivesScalar (g g' : Gang) (f f' : Frag) (d : SReg) (v : Word) : Prop :=
  ((g.taking f = 0 ∨ ∃ m ∈ f.marks, f.itemMark m = true ∧ m.reg = d) → Captures f f' fun _ _ x y => y = x) ∧
  (g.taking f ≠ 0 → (∀ m ∈ f.marks, f.itemMark m = true → m.reg ≠ d) →
    Captures f f' fun r sl x y => y = if r = d ∧ f.slices.getLsbD sl = true then v else x) ∧
  (∀ m ∈ f.marks, f.itemMark m = true → m.reg = d →
    { m with issued := true, done := true, wr := if g.taking f = 0 then none else some (f.all v) } ∈ f'.marks) ∧
  ((g.taking f = 0 ∨ ∃ m ∈ f.marks, f.itemMark m = true ∧ m.reg = d) → ∀ sl, g'.copy sl = g.copy sl) ∧
  (g.taking f ≠ 0 → (∀ m ∈ f.marks, f.itemMark m = true → m.reg ≠ d) →
    ∀ sl, if f.slices.getLsbD sl then Puts d (fun _ => v) (g.copy sl) (g'.copy sl) else g'.copy sl = g.copy sl)
/-- A lane instruction whose one result is a scalar register. -/
def LaneGivesScalar (i : Instr) (d : SReg) (v : State → Gang → Frag → Word) : Prop :=
  ∀ s g f, LaneReady i s g f [] →
    ∃ t g' f', exec i s = .next t ∧ OnlyGang s t ∧ t.cur = some (g', f') ∧ PassesOn f f' ∧ g'.frags = (g.putFrag f').frags ∧
      { g' with copies := g.copies, frags := g.frags } = g ∧ GivesScalar g g' f f' d (v s g f)

/-! ### Memory items -/

/-- An item's marks take its scalar results, and a register without a mark of the item is written at once, for the lane work that follows
too (01 R18, 03 R78, 06 R112). -/
def GivesScalars (g g' : Gang) (f f' : Frag) (wr : List (SReg × Word)) : Prop :=
  let marked := fun (r : SReg) => ∃ m ∈ f.marks, f.itemMark m = true ∧ m.reg = r
  (Captures f f' fun r sl x y =>
    (∀ p ∈ wr, p.1 = r → ¬ marked r → f.slices.getLsbD sl = true → y = p.2) ∧
    ((∀ p ∈ wr, p.1 = r → marked r) ∨ f.slices.getLsbD sl = false → y = x)) ∧
  (∀ p ∈ wr, ∀ m ∈ f.marks, f.itemMark m = true → m.reg = p.1 →
    { m with issued := true, done := true, wr := some (f.all p.2) } ∈ f'.marks) ∧
  ∀ sl, (f.slices.getLsbD sl = false → g'.copy sl = g.copy sl) ∧
    (f.slices.getLsbD sl = true →
      (∀ p ∈ wr, ¬ marked p.1 → (g'.copy sl).get p.1 = if p.1 = 0 then 0 else p.2) ∧
      (∀ r, (∀ p ∈ wr, p.1 = r → marked r) → (g'.copy sl).get r = (g.copy sl).get r) ∧
      (g'.copy sl).flags = (g.copy sl).flags ∧ (g'.copy sl).guards = (g.copy sl).guards ∧ (g'.copy sl).k = (g.copy sl).k)

/-- The end of a memory item in a state `s` of memory (01 R21, R22, 06 R113). Without a flag its registers are written at once. With one
the item passes, the flag's count rises by one in each slice of the fragment, and an operation holds what is to be written. -/
def EndsItem (g : Gang) (f : Frag) (flag : FlagSel) (ds : List Nat) (tag : Tag) (val : Nat → Nat → Word) (wr : List (SReg × Word))
    (s t : State) : Prop :=
  (f.boundFlag flag = none → ∃ g' f', t.cur = some (g', f') ∧ PassesOn f f' ∧ OnlyGang s t ∧ g'.frags = (g.putFrag f').frags ∧
    WritesLanes g { g' with copies := g.copies } f ds tag (fun r l w => w = val r l) ∧ GivesScalars g g' f f' wr) ∧
  (∀ n, f.boundFlag flag = some n → ∃ g' f' o, t.cur = some (g', f') ∧ Passes f f' ∧
    OnlyGang { s with nextOp := s.nextOp + 1 } t ∧ g'.frags = (g.putFrag f').frags ∧
    { g' with asyncs := g.asyncs, copies := g.copies, frags := g.frags } = g ∧ g'.asyncs = g.asyncs ++ [o] ∧
    o.id = s.nextOp ∧ o.clause = f.clauseId ∧ o.flag = some n ∧ o.slices = f.slices ∧ o.hold = 0 ∧ o.wr = wr.map (fun p => (p.1, f.all p.2)) ∧
    (∀ r ∈ ds, ∀ l, Takes g f l → (32 * r + l, val r l) ∈ o.vw) ∧
    ∀ sl, (f.slices.getLsbD sl = false → g'.copy sl = g.copy sl) ∧
      (f.slices.getLsbD sl = true → (g'.copy sl).s = (g.copy sl).s ∧ (g'.copy sl).guards = (g.copy sl).guards ∧
        (g'.copy sl).k = (g.copy sl).k ∧
        ∀ m, FMap.get (g'.copy sl).flags m = FMap.get (g.copy sl).flags m + if m = n then 1 else 0))

/-- Every byte of an access lies in DRAM under a translation that the requester's TLBs hold (12 R224), with its checks passed. -/
def HeldInDram (s : State) (w : Who) (acc : Acc) (va n : Nat) : Prop :=
  ∀ i, i < n → localRange (va + i) = false ∧ ∃ pa ca leaf vb size,
    s.xlate w acc ((va + i) % 2 ^ 64) = .ok pa ca 0 leaf vb size ∧ pa < dramEnd ∧
      ∀ t ∈ w.tlbs, ∃ l, (t, w.asid, vb, size, l) ∈ s.tlb
/-- What a read of an agent that is no core's load leaves: nothing changes but accessed bits in leaves, cached translations, registers that a
read clears, and loads that went out to apertures (00 R8, 12 R225). -/
def AfterRead (s t : State) : Prop :=
  { t with mem := s.mem, dirty := s.dirty, poison := s.poison, tlb := s.tlb, walker := s.walker, cores := s.cores, eccce := s.eccce
           eccue := s.eccue, ports := s.ports, outs := s.outs } = s
/-- The physical address of byte `i` of an access. -/
def byteAt (s : State) (w : Who) (acc : Acc) (va i : Nat) : Nat := (s.paOf w acc ((va + i) % 2 ^ 64)).1

/-- The current fragment waits at its item: nothing but its wait changes. -/
def WaitsAs (g : Gang) (f : Frag) (w : LaneWait) (s t : State) : Prop :=
  OnlyGang s t ∧ ∃ g', t.cur = some (g', { f with lwait := w }) ∧ { g' with frags := g.frags } = g ∧
    g'.frags = (g.putFrag { f with lwait := w }).frags
/-- The current fragment passes its item, and no register of its gang changes. -/
def PassesOnly (g : Gang) (f : Frag) (s t : State) : Prop :=
  OnlyGang s t ∧ ∃ g' f', t.cur = some (g', f') ∧ Passes f f' ∧ { g' with frags := g.frags } = g ∧ g'.frags = (g.putFrag f').frags

/-! ### Scoped instructions -/

/-- The members of a scoped item: the current fragment alone under scope L, else the fragments of the scope's gangs, all of them arrived
at one offset once the current one has, none cancelled, none exiting, none held by its Chronograph (07 R147, R148, 10 R197). -/
def Gathers (s : State) (g : Gang) (f : Frag) (sc : Scope) (ps : List Party) : Prop :=
  let g1 := g.putFrag (f.arrive s.clk)
  ps = (if sc = .l then [⟨s.gang, 0, g, [f]⟩] else (s.updGang s.gang g1).parties sc s.gang g1) ∧
  (sc = .s → s.setSize g ≠ 0) ∧ (∃ p ∈ ps, p.gid = s.gang) ∧ (ps.map fun p => p.gid).Nodup ∧
  (∀ p ∈ ps, p.g.exiting = 0 ∧ p.g.block = g.block ∧ p.fs.Pairwise (fun a b => a.slices &&& b.slices = 0) ∧
    ∀ x ∈ p.fs, x.slices ≠ 0) ∧
  (sc ≠ .l → (∀ p ∈ ps, p.arrived = true ∧ s.cgHeld p.g = false ∧ (∀ l, s.launch? p.g.launch = some l → l.cancelled = false) ∧
    ∀ x ∈ p.fs, x.lpc = f.lpc))
/-- Every fragment of a member has passed the item, and its gang's other fragments are as before. -/
def PartyPasses (p : Party) (g' : Gang) : Prop :=
  (∀ x ∈ p.fs, ∃ x' ∈ g'.frags, PassesOn x x') ∧
  ∀ y ∈ p.g.frags, (∀ x ∈ p.fs, y.slices &&& x.slices = 0) → y ∈ g'.frags
/-- A member's vector register takes a value in each of its taking lanes, and its other registers and lanes stay. -/
def WritesRows (p : Party) (g' : Gang) (d : Nat) (tag : Tag) (v : Nat → Word) : Prop :=
  (∀ x ∈ p.fs, ∃ x' ∈ g'.frags, Passes x x') ∧
  (∀ r l, l < 32 → g'.vraw r l = if r = d ∧ l ∈ p.lanes then v l else p.g.vraw r l) ∧
  (∀ r, g'.tagOf r = if r = d ∧ p.lanes ≠ [] then tag else p.g.tagOf r) ∧
  { g' with v := p.g.v, vtag := p.g.vtag, frags := p.g.frags, latch := p.g.latch, hist := p.g.hist
            clash := p.g.clash, bad := p.g.bad } = p.g
/-- A scalar register takes a value in the slices of a member, in the mark of the item or at once, for the lane work that follows too, unless
no row is present; a slice without a value keeps its own. -/
def GivesRows (p : Party) (g' : Gang) (d : SReg) (present : Prop) (v : Nat → Option Word) : Prop :=
  { g' with copies := p.g.copies, frags := p.g.frags } = p.g ∧
  ∀ x ∈ p.fs, (∀ m ∈ x.marks, x.itemMark m = true → m.reg = d → present → ∃ x' ∈ g'.frags, x'.slices = x.slices ∧
      { m with issued := true, done := true, wr := some (x.sliceList.filterMap fun sl => (v sl).map fun w => (sl, w)) } ∈ x'.marks) ∧
    (¬ present ∨ (∃ m ∈ x.marks, x.itemMark m = true ∧ m.reg = d) → ∃ x' ∈ g'.frags, PassesOn x x' ∧ Captures x x' fun _ _ a b => b = a) ∧
    (present → (∀ m ∈ x.marks, x.itemMark m = true → m.reg ≠ d) → ∃ x' ∈ g'.frags, PassesOn x x' ∧
      Captures x x' fun r sl a b => b = if r = d ∧ x.slices.getLsbD sl = true then (v sl).getD a else a) ∧
    ∀ sl, x.slices.getLsbD sl = true →
      (¬ present ∨ v sl = none ∨ (∃ m ∈ x.marks, x.itemMark m = true ∧ m.reg = d) → g'.copy sl = p.g.copy sl) ∧
      ∀ w, present → v sl = some w → (∀ m ∈ x.marks, x.itemMark m = true → m.reg ≠ d) → Puts d (fun _ => w) (p.g.copy sl) (g'.copy sl)
/-- A scoped item whose members are all there: it issues once for all of them, each member's gang changes as `Q` says, and the gangs of
no member are as before; outside the gangs the state is `out`'s. -/
def MembersDo (i : Instr) (sc : Scope) (tags : List (Tag × List Nat)) (out : State → Gang → State)
    (Q : State → List Party → Party → Gang → Prop) : Prop :=
  ∀ s g f ps, LaneReady i s g f tags → Gathers s g f sc ps → (∀ p ∈ ps, ∀ q ∈ tags, ∀ r ∈ q.2, p.g.busyV r = false → tagPass q.1 (p.g.tagOf r) = true) →
    (∀ p ∈ ps, ∀ x ∈ p.fs, s.poisonSrc p.g x i = none) → ∃ t, exec i s = .next t ∧ { t with gangs := s.gangs } = out s g ∧ (∀ n, (∀ p ∈ ps, p.gid ≠ n) → t.gang? n = s.gang? n) ∧
      ∀ p ∈ ps, ∃ g', t.gang? p.gid = some g' ∧ PartyPasses p g' ∧ Q s ps p g'

/-! ### Engine commands -/

/-- No command at the head of a queue of the gang's engines is waiting for its guard, and no copy or render command stands in a queue:
nothing but a command that issues can leave a queue at its issue. -/
def EnginesQuiet (g : Gang) : Prop := (∀ x ∈ g.mq, x.guard = none) ∧ g.cq = [] ∧ g.rq = []
/-- A flag's count has risen by one in each slice of the fragment, and nothing else of the slices' copies has changed. -/
def Raises (g g' : Gang) (f : Frag) (n : Option Nat) : Prop :=
  ∀ sl, (g'.copy sl).s = (g.copy sl).s ∧ (g'.copy sl).guards = (g.copy sl).guards ∧ (g'.copy sl).k = (g.copy sl).k ∧
    ∀ m, FMap.get (g'.copy sl).flags m = FMap.get (g.copy sl).flags m + if n = some m ∧ f.slices.getLsbD sl = true then 1 else 0
/-- The command that an item makes (17 R291), before its captured data. -/
def cmdOf (s : State) (g : Gang) (f : Frag) (i : Instr) (e : EngCtl) : Cmd :=
  { id := s.nextOp, instr := i, data := [], addr := 0, addr2 := 0, guard := e.guard
    mates := [{ gid := s.gang, lanes := g.taking f, slices := f.slices, flag := f.boundFlag e.flag, batch := g.nextN }] }
/-- An engine command whose checks pass, under no guard or one still unresolved: a full queue or flag stalls it with no effect; else the
item passes, its flag rises, and the command with its captured data stands at the end of its queue; no vector register, accumulator,
mask, scalar register or memory changes. -/
def Issues (i : Instr) (e : EngCtl) (q : EngQ) (ready : State → Gang → Frag → Prop) (cap : State → Gang → Frag → Cmd → Cmd) : Prop :=
  ∀ s g f, LaneReady i s g f [] → EnginesQuiet g → ready s g f → (∀ n, e.guard = some n → g.guardOut f.slices n = none) →
    (g.engFull q = true ∨ g.flagStall f e.flag = true → exec i s = .next s) ∧
    (g.engFull q = false → g.flagStall f e.flag = false → ∃ t g' f', exec i s = .next t ∧ OnlyGang { s with nextOp := s.nextOp + 1 } t ∧
      t.cur = some (g', f') ∧ Passes f f' ∧ g'.frags = (g.putFrag f').frags ∧ Raises g g' f (f.boundFlag e.flag) ∧
      g'.cmds q = g.cmds q ++ [cap s g f (cmdOf s g f i e)] ∧ (∀ q', q' ≠ q → g'.cmds q' = g.cmds q') ∧
      { g' with copies := g.copies, frags := g.frags, mq := g.mq, cq := g.cq, rq := g.rq, openB := g.openB, named := g.named } = g ∧
      (q = .matrix → g'.openB = some { (g.openB.getD {}) with num := g.nextN, n := (g.openB.getD {}).n + 1
                                                              left := (g.openB.getD {}).left + 1 } ∧
        g'.named = g.named ++ (cmdNames i).map fun k => (none, k)) ∧
      (q ≠ .matrix → g'.openB = g.openB ∧ g'.named = g.named))

/-! ### Completion -/

/-- The current fragment passes its item (01 R19), in no handler that it was not in, and no vector register changes but the listed ones in
the lanes that take part. -/
def PassesKeeping (g : Gang) (f : Frag) (ds : List Nat) (t : State) : Prop :=
  ∃ g' f', t.cur = some (g', f') ∧ PassesOn f f' ∧ ∀ r l, l < 32 → ¬ (r ∈ ds ∧ Takes g f l) → g'.vraw r l = g.vraw r l
/-- A lane computation completes: its item passes, the listed registers alone are written, in the lanes that take part alone, under the tag
given, and nothing else of the gang and the machine changes but the generators that a conversion steps. -/
def LaneCompletes (i : Instr) (tags : List (Tag × List Nat)) (ds : List Nat) (tag : State → Gang → Tag) : Prop :=
  ∀ s g f, LaneReady i s g f tags →
    ∃ t g' f', exec i s = .next t ∧ OnlyGang s t ∧ t.cur = some (g', f') ∧ Passes f f' ∧
      WritesLanes g { g' with rng := g.rng } f ds (tag s g) fun _ _ _ => True
/-- A lane instruction with a scalar result completes: its item passes, and nothing of the gang but its slices' copies and its fragments
changes, and nothing else of the machine. -/
def LaneScalarCompletes (i : Instr) (s : State) (g : Gang) (f : Frag) : Prop :=
  ∃ t g' f', exec i s = .next t ∧ OnlyGang s t ∧ t.cur = some (g', f') ∧ PassesOn f f' ∧
    { g' with copies := g.copies, frags := g.frags } = g
/-- An engine command under no guard completes its issue: its item passes and it stands last in its queue (17 R291). -/
def CommandCompletes (i : Instr) (e : EngCtl) (q : EngQ) (s : State) (g : Gang) (f : Frag) : Prop :=
  LaneReady i s g f [] → EnginesQuiet g → e.guard = none → g.engFull q = false → g.flagStall f e.flag = false →
    ∃ t g' f' x, exec i s = .next t ∧ OnlyGang { s with nextOp := s.nextOp + 1 } t ∧ t.cur = some (g', f') ∧ Passes f f' ∧
      g'.cmds q = g.cmds q ++ [x] ∧ x.instr = i ∧ g'.v = g.v ∧ g'.a = g.a

end Sys2Proof.Machine
end

