-- ==== Sys2Proof/Certificates/Slice0/Obligations.lean ====
section
/-! DEFINITION. The statements for the provers: what the rules of spec/ say the instructions and the machine do. -/

open Sys2Proof Sys2Proof.Machine

/-! ### The scalar stream (05) -/

/-- R93: the two-register forms, over all operands, each slice on its own copy; what they leave unchanged is in `ScalarGives`. A write
to s0 is discarded (01 R11). -/
def Claims.ScalarRegisterArithmetic : Prop := ∀ d a b : SReg,
  ScalarGives (.saddReg d a b) [d, a, b] d (fun c => c.get a + c.get b) ∧
  ScalarGives (.ssub d a b) [d, a, b] d (fun c => c.get a - c.get b) ∧
  ScalarGives (.smul d a b) [d, a, b] d (fun c => c.get a * c.get b) ∧
  ScalarGives (.sandReg d a b) [d, a, b] d (fun c => c.get a &&& c.get b) ∧
  ScalarGives (.sorReg d a b) [d, a, b] d (fun c => c.get a ||| c.get b) ∧
  ScalarGives (.sxorReg d a b) [d, a, b] d (fun c => c.get a ^^^ c.get b) ∧
  ScalarGives (.sandn d a b) [d, a, b] d (fun c => c.get a &&& ~~~c.get b) ∧
  ScalarGives (.smin d a b) [d, a, b] d (fun c => if (c.get a).toInt ≤ (c.get b).toInt then c.get a else c.get b) ∧
  ScalarGives (.smax d a b) [d, a, b] d (fun c => if (c.get a).toInt ≤ (c.get b).toInt then c.get b else c.get a) ∧
  ScalarGives (.sclz d a) [d, a] d (fun c => if c.get a = 0 then 32 else BitVec.ofNat 32 (31 - Nat.log2 (c.get a).toNat)) ∧
  ScalarGives (.spopc d a) [d, a] d (fun c => BitVec.ofNat 32 ((List.range 32).countP fun i => (c.get a).getLsbD i))

/-- R93: shifts by a whole register, where a count of 32 or more gives 0, or copies of the sign. -/
def Claims.ScalarShiftsByRegister : Prop := ∀ d a b : SReg,
  ScalarGives (.sshlReg d a b) [d, a, b] d (fun c => BitVec.ofNat 32 ((c.get a).toNat * 2 ^ (c.get b).toNat)) ∧
  ScalarGives (.sshrReg d a b) [d, a, b] d (fun c => BitVec.ofNat 32 ((c.get a).toNat / 2 ^ (c.get b).toNat)) ∧
  ScalarGives (.ssraReg d a b) [d, a, b] d (fun c => BitVec.ofInt 32 ((c.get a).toInt / 2 ^ (c.get b).toNat))

/-- R94: division truncates toward zero, with its two fixed cases, and raises no fault. -/
def Obligations.ScalarDivision : Prop := ∀ d a b : SReg,
  ScalarGives (.sdiv d a b) [d, a, b] d (fun c =>
    if c.get b = 0 then 0xFFFFFFFF
    else if c.get a = 0x80000000 ∧ c.get b = 0xFFFFFFFF then 0x80000000
    else BitVec.ofInt 32 ((c.get a).toInt.tdiv (c.get b).toInt)) ∧
  ScalarGives (.srem d a b) [d, a, b] d (fun c =>
    if c.get b = 0 then c.get a
    else if c.get a = 0x80000000 ∧ c.get b = 0xFFFFFFFF then 0
    else BitVec.ofInt 32 ((c.get a).toInt.tmod (c.get b).toInt)) ∧
  ∀ x y : Word, x = y * sdiv32 x y + srem32 x y

/-- R93: the immediate forms, with the widening of 03 R57 and the shift counts 0 to 31. -/
def Claims.ScalarImmediates : Prop := ∀ (d a : SReg) (i : BitVec 14) (n : BitVec 5),
  ScalarGives (.saddImm d a i) [d, a] d (fun c => BitVec.ofInt 32 ((c.get a).toInt + i.toInt)) ∧
  ScalarGives (.sandImm d a i) [d, a] d (fun c => c.get a &&& BitVec.ofNat 32 i.toNat) ∧
  ScalarGives (.sorImm d a i) [d, a] d (fun c => c.get a ||| BitVec.ofNat 32 i.toNat) ∧
  ScalarGives (.sxorImm d a i) [d, a] d (fun c => c.get a ^^^ BitVec.ofNat 32 i.toNat) ∧
  ScalarGives (.sshlImm d a n) [d, a] d (fun c => BitVec.ofNat 32 ((c.get a).toNat * 2 ^ n.toNat)) ∧
  ScalarGives (.sshrImm d a n) [d, a] d (fun c => BitVec.ofNat 32 ((c.get a).toNat / 2 ^ n.toNat)) ∧
  ScalarGives (.ssraImm d a n) [d, a] d (fun c => BitVec.ofInt 32 ((c.get a).toInt / 2 ^ n.toNat))

/-- R95: bit fields bit by bit, constants, comparisons and selection; `len` is the field's length, 1 to 32. -/
def Claims.ScalarFieldsAndTests : Prop := ∀ (d a b x : SReg) (l p : BitVec 5) (i : BitVec 20),
  let len := l.toNat + 1
  let pos := p.toNat
  (∀ s g f, s.cur = some (g, f) → f.free [d, a] = true → d ≠ 0 → ∃ t, exec (.sbfx d a l p) s = .next t ∧
    FragTo g f.advance (fun c c' => KeepsBut [d] c c' ∧ ∀ j, j < 32 →
      (c'.get d).getLsbD j = (decide (j < len) && (c.get a).getLsbD (pos + j))) s t) ∧
  (∀ s g f, s.cur = some (g, f) → f.free [d, a] = true → d ≠ 0 → ∃ t, exec (.sbfi d a l p) s = .next t ∧
    FragTo g f.advance (fun c c' => KeepsBut [d] c c' ∧ ∀ j, j < 32 →
      (c'.get d).getLsbD j = if pos ≤ j ∧ j < pos + len then (c.get a).getLsbD (j - pos) else (c.get d).getLsbD j) s t) ∧
  ScalarDoes (.sbfx 0 a l p) [0, a] Keeps ∧ ScalarDoes (.sbfi 0 a l p) [0, a] Keeps ∧
  ScalarGives (.slui d i) [d] d (fun _ => BitVec.ofNat 32 (i.toNat * 4096)) ∧
  ScalarGives (.scmp .eq d a b) [d, a, b] d (fun c => if c.get a = c.get b then 1 else 0) ∧
  ScalarGives (.scmp .ne d a b) [d, a, b] d (fun c => if c.get a ≠ c.get b then 1 else 0) ∧
  ScalarGives (.scmp .lt d a b) [d, a, b] d (fun c => if (c.get a).toInt < (c.get b).toInt then 1 else 0) ∧
  ScalarGives (.scmp .ge d a b) [d, a, b] d (fun c => if (c.get b).toInt ≤ (c.get a).toInt then 1 else 0) ∧
  ScalarGives (.scmp .ltu d a b) [d, a, b] d (fun c => if (c.get a).toNat < (c.get b).toNat then 1 else 0) ∧
  ScalarGives (.scmp .geu d a b) [d, a, b] d (fun c => if (c.get b).toNat ≤ (c.get a).toNat then 1 else 0) ∧
  ScalarGives (.ssel d a b x) [d, a, b, x] d (fun c => if c.get x ≠ 0 then c.get a else c.get b)

/-- R96, R106: the instructions on register pairs, modulo 2^64, and TIME. -/
def Claims.ScalarPairs : Prop := ∀ (d a b : SReg) (i : BitVec 14) (o : BitVec 20),
  ScalarGivesPair (.saddpReg d a b) [d, d + 1, a, a + 1, b, b + 1] d (fun c => c.getPair a + c.getPair b) ∧
  ScalarGivesPair (.saddpImm d a i) [d, d + 1, a, a + 1] d (fun c => c.getPair a + i.signExtend 64) ∧
  (∀ s g f, s.cur = some (g, f) → f.free [d, d + 1] = true → ∃ t, exec (.slea d o) s = .next t ∧
    FragTo g f.advance (PutsPair d fun _ => f.spc + 4 * o.signExtend 64) s t) ∧
  ∀ s g f, s.cur = some (g, f) → f.free [d, d + 1] = true → ∃ t, exec (.time d) s = .next t ∧
    FragTo g f.advance (PutsPair d fun _ => BitVec.ofNat 64 (s.time / 65536)) s t

/-- R90, 01 R16: a scalar instruction that reads or writes a register with a pending mark stalls, with no effect at all. -/
def Claims.ScalarWaitsForMarks : Prop := ∀ (s : State) (g : Gang) (f : Frag) (d a b x : SReg) (i : BitVec 14) (l p : BitVec 5)
    (o : BitVec 20) (k : Byte) (m : MaskName) (off : BitVec 12), s.cur = some (g, f) →
  (f.free [d, a, b] = false → ∀ ins ∈ [Instr.saddReg d a b, .ssub d a b, .smul d a b, .sdiv d a b, .srem d a b, .sandReg d a b,
    .sorReg d a b, .sxorReg d a b, .sandn d a b, .sshlReg d a b, .sshrReg d a b, .ssraReg d a b, .smin d a b, .smax d a b,
    .scmp .lt d a b], exec ins s = .next s) ∧
  (f.free [d, a] = false → ∀ ins ∈ [Instr.sclz d a, .spopc d a, .saddImm d a i, .sandImm d a i, .sorImm d a i, .sxorImm d a i,
    .sshlImm d a l, .sshrImm d a l, .ssraImm d a l, .sbfx d a l p, .sbfi d a l p], exec ins s = .next s) ∧
  (f.free [d, a, b, x] = false → exec (.ssel d a b x) s = .next s) ∧
  (f.free [d] = false → exec (.slui d o) s = .next s ∧ exec (.mrd d m) s = .next s ∧ exec (.mwr d m) s = .next s ∧
    (userNone k.toNat = false → exec (.krd d k) s = .next s ∧ exec (.kwr d k) s = .next s)) ∧
  (f.free [d, a, a + 1] = false → exec (.sld d a i) s = .next s ∧ exec (.sst d a i) s = .next s) ∧
  (f.free [a, b] = false → exec (.bcSigned .eq a b off) s = .next s ∧ exec (.bcUnsigned true a b off) s = .next s)

/-- R103: a scalar load, once its address passes its checks in slices that agree on it: every slice's register gets the data that the
memory system returns, little-endian, and nothing else changes but the caches and translations the load uses. -/
def Claims.ScalarLoads : Prop := ∀ (s : State) (g : Gang) (f : Frag) (d a : SReg) (i : BitVec 14), s.cur = some (g, f) →
  Agree g f (fun c => scalarAddr c a i) →
  let va := scalarAddr (g.low f) a i
  (f.free [d, a, a + 1] = true → s.chk (s.whoGang g) .load va 4 = .ok → s.poisonAt (s.whoGang g) va 4 = none →
    ∃ t, exec (.sld d a i) s = .next t ∧
      FragTo g f.advance (Puts d fun _ => BitVec.ofNat 32 (leVal (s.loadV g false va 4).1)) (s.loadV g false va 4).2 t) ∧
  (f.free [d, d + 1, a, a + 1] = true → s.chk (s.whoGang g) .load va 8 = .ok → s.poisonAt (s.whoGang g) va 8 = none →
    ∃ t, exec (.sldD d a i) s = .next t ∧
      FragTo g f.advance (PutsPair d fun _ => BitVec.ofNat 64 (leVal (s.loadV g false va 8).1)) (s.loadV g false va 8).2 t)

/-- 12 R212, 13 R229, R230: what a plain load of DRAM returns, through the translations it has made. Where the pages are cached in the L1,
each byte is what the core's L1 holds or the core sees, no byte of the L2 nor a store on its way changes, and the L1 then holds what it held
before or lines it filled with what the core sees. Where they are not, the core's stores to the lines have reached the L2, each byte is the
L2's, and the L1 holds none of the lines. -/
def Claims.LoadsReadAndKeepMemory : Prop := ∀ (s : State) (g : Gang) (na : Bool) (va n : Nat), (∀ i, i < n → localRange (va + i) = false) →
  let w := s.whoGang g
  let s1 := s.installAll w .load va n
  let ps := (s1.paList w .load va n).map Prod.snd
  let t := (s.loadV g na va n).2
  (∀ p ∈ ps, p.1 < dramEnd) →
  t.sp = s.sp ∧ t.ring = s.ring ∧ t.gangs = s.gangs ∧ t.tlb = s1.tlb ∧
  ((∀ p ∈ ps, p.2 = 0) →
    (s.loadV g na va n).1 = ps.map (fun p => s1.loadByte g.core 0 p.1) ∧ t.mem = s1.mem ∧ t.path = s.path ∧
    (∀ c a, t.coreByte c a = s1.coreByte c a) ∧ (na = true → t.l1 = s1.l1) ∧
    ∀ k bs, FMap.get t.l1 k = some bs → FMap.get s1.l1 k = some bs ∨
      ∃ p ∈ ps, k = l1Key g.core (p.1 / 64) ∧ bs = (List.range 64).map fun i => s1.coreByte g.core (64 * (p.1 / 64) + i)) ∧
  ((∀ p ∈ ps, p.2 ≠ 0) →
    (s.loadV g na va n).1 = ps.map (fun p => s1.coreByte g.core p.1) ∧
    ∀ p ∈ ps, Memory.read t.mem p.1 = s1.coreByte g.core p.1 ∧ FMap.get t.l1 (l1Key g.core (p.1 / 64)) = none ∧
      ∀ e ∈ t.path, e.1 = g.core → ∀ c ∈ e.2, c.1 / 64 ≠ p.1 / 64)

/-- 12 R224, R225: using a translation changes at most bit 6 (A) of the leaf a walk found; every other byte of memory is as before; and the
TLBs hold what they held before, or it. A translation that a TLB holds changes nothing but the TLBs. -/
def Claims.TranslationSetsOnlyA : Prop := ∀ (s : State) (w : Who) (va : Nat) (x : Xlate),
  (∀ pa ca leaf vb size, x = .ok pa ca 0 leaf vb size → { s.install w va x with tlb := s.tlb } = s) ∧
  (∀ pa ca at_ leaf vb size, x = .ok pa ca at_ leaf vb size →
    ∀ e ∈ (s.install w va x).tlb, e ∈ s.tlb ∨ ∃ t ∈ w.tlbs, e = (t, w.asid, vb, size, leaf ||| 0x40)) ∧
  ∀ pa ca at_ leaf vb size, x = .ok pa ca at_ leaf vb size → at_ ≠ 0 →
    (∀ a, a ≠ at_ → Memory.read (s.install w va x).mem a = Memory.read s.mem a) ∧
    (leaf.getLsbD 6 = true → (s.install w va x).mem = s.mem) ∧
    (leaf.getLsbD 6 = false → Memory.read (s.install w va x).mem at_ = BitVec.ofNat 8 (leaf.toNat % 256) ||| 0x40#8) ∧
    (s.install w va x).sp = s.sp ∧ (s.install w va x).ring = s.ring ∧ (s.install w va x).path = s.path ∧
    (s.install w va x).gangs = s.gangs ∧ (s.install w va x).l1 = s.l1

/-- R103: a scalar store, once its address passes its checks in slices that agree on address and data: the data goes to the memory
system as `State.storeV` puts it there, no register changes, and the fragment advances; a store to the aperture whose slot is busy
waits (16 R279). -/
def Claims.ScalarStores : Prop := ∀ (s : State) (g : Gang) (f : Frag) (d a : SReg) (i : BitVec 14), s.cur = some (g, f) →
  let va := scalarAddr (g.low f) a i
  let run := fun (ins : Instr) (bs : List Byte) =>
    (s.wouldHold g va bs = false → exec ins s = .next (s.storeV g (some s.gang) none 64 va bs).advCur) ∧
    (s.wouldHold g va bs = false → (∀ i, i < bs.length → localRange (va + i) = false) →
      (∀ p ∈ (s.installAll (s.whoGang g) .store va bs.length).paList (s.whoGang g) .store va bs.length, p.2.1 < dramEnd) →
      ∃ t, exec ins s = .next t ∧ FragTo g f.advance Keeps (s.storeV g (some s.gang) none 64 va bs) t) ∧
    (s.wouldHold g va bs = true → ∃ t, exec ins s = .next t ∧ FragTo g { f with swait := true } Keeps s t)
  (f.free [d, a, a + 1] = true → Agree g f (fun c => (scalarAddr c a i, (c.get d).toNat)) →
    s.chk (s.whoGang g) .store va 4 = .ok → run (.sst d a i) (leOf 4 ((g.low f).get d).toNat)) ∧
  (f.free [d, d + 1, a, a + 1] = true → Agree g f (fun c => (scalarAddr c a i, (c.getPair d).toNat)) →
    s.chk (s.whoGang g) .store va 8 = .ok → run (.sstD d a i) (leOf 8 ((g.low f).getPair d).toNat))

/-- 12 R212, 13 R229: where a plain store of DRAM goes. The storing core sees the stored bytes, at the addresses its bytes translate
to, and every other byte as before; no other core and no byte of the L2 changes until the store reaches the L2. -/
def Claims.StoresTakeTheirPath : Prop := ∀ (s : State) (g : Gang) (gid op : Option Nat) (unit va : Nat) (bs : List Byte),
  (∀ i, i < bs.length → localRange (va + i) = false) →
  let w := s.whoGang g
  let s1 := s.installAll w .store va bs.length
  let cells := ((s1.paList w .store va bs.length).map fun p => p.2.1).zip bs
  (∀ p ∈ s1.paList w .store va bs.length, p.2.1 < dramEnd) →
  let t := s.storeV g gid op unit va bs
  (∀ a, t.coreByte g.core a = match cells.reverse.find? (fun c => c.1 == a) with
    | some c => c.2
    | none => s1.coreByte g.core a) ∧
  (∀ c a, c ≠ g.core → t.coreByte c a = s1.coreByte c a) ∧ t.mem = s1.mem ∧ t.sp = s.sp ∧ t.ring = s.ring ∧ t.gangs = s.gangs

/-- 13 R229: STORE_REACHES_L2 writes the bytes of a store that no earlier store of its core to its lines precedes, and no others. -/
def Claims.StoreReachesL2 : Prop := ∀ (s : State) (core : Nat) (cells : List Host.Cell),
  s.path[s.subject]? = some (core, cells) →
  (∀ x ∈ s.path.take s.subject, x.1 = core → ∀ c ∈ x.2, ∀ y ∈ cells, y.1 / 64 ≠ c.1 / 64) →
  ∃ t, exec .storeReachesL2 s = .next t ∧ t.path = s.path.eraseIdx s.subject ∧
    (∀ a, Memory.read t.mem a = match cells.reverse.find? (fun c => c.1 == a) with
      | some c => c.2
      | none => Memory.read s.mem a) ∧
    { t with mem := s.mem, path := s.path, dirty := s.dirty, poison := s.poison } = s

/-- R97: BR and CALL. -/
def Claims.ScalarJumps : Prop := ∀ (s : State) (g : Gang) (f : Frag) (off : BitVec 26), s.cur = some (g, f) →
  (∃ t, exec (.br off) s = .next t ∧ FragTo g { f.advance with spc := target f.spc off } Keeps s t) ∧
  (f.free [62, 63] = true → ∃ t, exec (.call off) s = .next t ∧
    FragTo g { f.advance with spc := target f.spc off } (PutsPair 62 fun _ => f.spc + 4) s t)

/-- R97, 07 R141: each slice of a fragment goes where its own copies of the registers send it, and the fragment splits where they
disagree: BC with every condition, LOOP with its decrement, JR and RET; BZM tests the masks of the fragment. -/
def Claims.BranchesGoEachSlice : Prop :=
  (∀ (a b : SReg) (off : BitVec 12),
    BranchDoes (.bcSigned .eq a b off) [a, b] off (fun c => c.get a = c.get b) ∧
    BranchDoes (.bcSigned .ne a b off) [a, b] off (fun c => c.get a ≠ c.get b) ∧
    BranchDoes (.bcSigned .lt a b off) [a, b] off (fun c => (c.get a).toInt < (c.get b).toInt) ∧
    BranchDoes (.bcSigned .ge a b off) [a, b] off (fun c => (c.get b).toInt ≤ (c.get a).toInt) ∧
    BranchDoes (.bcUnsigned false a b off) [a, b] off (fun c => (c.get a).toNat < (c.get b).toNat) ∧
    BranchDoes (.bcUnsigned true a b off) [a, b] off (fun c => (c.get b).toNat ≤ (c.get a).toNat)) ∧
  (∀ (s : State) (g : Gang) (f : Frag) (a : SReg) (off : BitVec 12), s.cur = some (g, f) → a ≠ 0 → f.free [a] = true →
    ∃ t, exec (.loop a off) s = .next t ∧
      TransfersTo g f (fun sl => if (g.copy sl).get a - 1 ≠ 0 then target f.spc off else f.spc + 4)
        (Puts a fun c => c.get a - 1) s t) ∧
  (∀ (s : State) (g : Gang) (f : Frag) (a : SReg), s.cur = some (g, f) →
    (f.free [a, a + 1] = true → ∃ t, exec (.jr a) s = .next t ∧
      TransfersTo g f (fun sl => (g.copy sl).getPair a &&& ~~~3#64) Keeps s t) ∧
    (f.free [62, 63] = true → ∃ t, exec .ret s = .next t ∧
      TransfersTo g f (fun sl => (g.copy sl).getPair 62 &&& ~~~3#64) Keeps s t)) ∧
  ∀ (s : State) (g : Gang) (f : Frag) (m : MaskName) (off : BitVec 12), s.cur = some (g, f) →
    ∃ t, exec (.bzm m off) s = .next t ∧
      TransfersTo g f (fun _ =>
        if (∀ l, l < 32 → f.slices.getLsbD (l / 8) = true → (g.mask m).getLsbD l = true → g.lm.getLsbD l = false)
        then target f.spc off else f.spc + 4) Keeps s t

/-- R98, R99: MRD reads a mask over the fragment's lanes; MWR and MOP change the lanes of the fragment's slices in the named mask, where
lm can only clear, and leave every other lane, the other masks and all registers alone. -/
def Claims.ScalarMasks : Prop := ∀ (s : State) (g : Gang) (f : Frag) (r : SReg) (m : MaskName), s.cur = some (g, f) →
  f.free [r] = true →
  (∃ t, exec (.mrd r m) s = .next t ∧ FragTo g f.advance (Puts r fun _ => g.mask m &&& sliceMask f.slices) s t) ∧
  (Agree g f (fun c => c.get r) → ∀ p ∈ [(Instr.mwr r m, fun (_ y : Bool) => y), (.mopAnd r m, fun x y => x && y),
      (.mopOr r m, fun x y => x || y), (.mopAndn r m, fun x y => x && !y), (.mopXor r m, fun x y => x != y)],
    ∃ t g' f', exec p.1 s = .next t ∧ t.cur = some (g', f') ∧ f'.spc = f.spc + 4 ∧ f'.slices = f.slices ∧ TraceOnly s t ∧
      (s.traced g = false → OnlyGang s t) ∧
      { g' with xm := g.xm, lm := g.lm, hm := g.hm, frags := g.frags } = g ∧ (∀ q, q ≠ m → g'.mask q = g.mask q) ∧
      ∀ l, l < 32 → (g'.mask m).getLsbD l =
        if f.slices.getLsbD (l / 8) then
          p.2 ((g.mask m).getLsbD l) (((g.low f).get r).getLsbD l) && (m != .lm || g.lm.getLsbD l)
        else (g.mask m).getLsbD l)

/-- R105, 01 R28: KRD of a register the gang's privilege may read. A per-slice register gives each slice its own copy; any other gives
one value; a system read of a register that reading clears leaves it zero. -/
def Claims.ControlRegisterReads : Prop := ∀ (s : State) (g : Gang) (f : Frag) (d : SReg) (k : Byte), s.cur = some (g, f) →
  f.free [d] = true → (g.priv = true ∨ userNone k.toNat = false) →
  (perSlice k.toNat = true → ∃ t, exec (.krd d k) s = .next t ∧ FragTo g f.advance (Puts d fun c => g.kslice f c k.toNat) s t) ∧
  (perSlice k.toNat = false → ∃ t, exec (.krd d k) s = .next t ∧
    FragTo g f.advance (Puts d fun _ => if gangHeld k.toNat then s.kgang g k.toNat else s.kcore g.core k.toNat)
      (if g.priv then s.kclear g.core k.toNat else s) t ∧
    (g.priv = true → k ∈ [42, 81, 82, 111] → t.kcore g.core k.toNat = 0) ∧
    (g.priv = false → OnlyGang s t)) ∧
  s.kgang g 32 = g.asid ∧ s.kgang g 34 = g.lcbase.extractLsb' 0 32 ∧ s.kgang g 35 = g.lcbase.extractLsb' 32 32 ∧
  s.kgang g 36 = g.lcsize ∧
  (∀ c n, n < 12 → (g.kslice f c 26).getLsbD n = g.flagSet f n) ∧ (∀ c, (g.kslice f c 7).getLsbD 2 = (g.priv || (c.kget 7).getLsbD 2))

/-- R105, 01 R28: KWR. A per-slice register takes each slice's own value under its access code, and reads it back; STSEED also seeds the
generators of the lanes of the fragment's slices (02 R45; of those alone: the model's choice, log entry 89); a register that is read-only for
the gang's privilege stays as it is; a register that serves other gangs too takes its value at the end of the clock. -/
def Claims.ControlRegisterWrites : Prop := ∀ (s : State) (g : Gang) (f : Frag) (r : SReg) (k : Byte), s.cur = some (g, f) →
  f.free [r] = true → (g.priv = true ∨ userNone k.toNat = false) →
  (perSlice k.toNat = true → k ≠ 25 → ∃ t, exec (.kwr r k) s = .next t ∧
    FragTo g (f.kwrote g.priv k.toNat).advance (fun c c' => c' = c.kstore g.priv k.toNat (c.get r)) s t) ∧
  (k = 25 → ∃ t g', exec (.kwr r k) s = .next t ∧ OnlyGang s t ∧ t.cur = some (g', f.advance) ∧
    { g' with copies := g.copies, frags := g.frags, rng := g.rng } = g ∧
    (∀ sl, f.slices.getLsbD sl = true → (g'.copy sl).kget 25 = (g.copy sl).get r ∧
      ∀ l, l / 8 = sl → FMap.get g'.rng l = rngSeed ((g.copy sl).get r) l) ∧
    ∀ l, f.slices.getLsbD (l / 8) = false → FMap.get g'.rng l = FMap.get g.rng l) ∧
  (∀ (c : SliceCopy) (v : Word),
    (∀ n ∈ [0, 1, 3, 4, 5, 6, 24, 102, 103, 110], (c.kstore g.priv n v).kget n = v) ∧
    (∀ n, 26 ≤ n → n ≤ 29 → c.kstore g.priv n v = c) ∧ (∀ n, 8 ≤ n → n ≤ 23 → c.kstore false n v = c)) ∧
  (perSlice k.toNat = false → g.priv = false → gangHeld k.toNat = true → Agree g f (fun c => c.get r) →
    ∃ t, exec (.kwr r k) s = .next t ∧ FragTo g f.advance Keeps s t) ∧
  (perSlice k.toNat = false → Agree g f (fun c => c.get r) →
    let v := (g.low f).get r
    (gangHeld k.toNat = true → g.priv = true → kShared k.toNat = false → exec (.kwr r k) s = .next (s.kwgang s.gang g k.toNat v).advCur) ∧
    ((gangHeld k.toNat = true → g.priv = true) → kShared k.toNat = true → ∃ t, exec (.kwr r k) s = .next t ∧
      FragTo g f.advance Keeps (s.later (.kreg s.gang g.core k.toNat v (some g.block) g.priv)) t)) ∧
  (∀ (x : State) (gid core : Nat) (h : Gang) (v : Word) (blk : Option Nat) (sys : Bool),
    (gangHeld k.toNat = false → x.applyLate (.kreg gid core k.toNat v blk sys) = x.kwcore core k.toNat v blk sys) ∧
    (gangHeld k.toNat = true → x.gang? gid = some h → x.applyLate (.kreg gid core k.toNat v blk sys) = x.kwgang gid h k.toNat v)) ∧
  ∀ v : Word, (∀ n ∈ [40, 41, 56, 64, 65, 66, 67, 68, 69, 70, 72, 78, 79], s.kwcore g.core n v (some g.block) false = s) ∧
    (s.kwcore g.core 56 v (some g.block) true).sguard = v &&& 0xFFFFFF ∧
    ((s.kwcore g.core 48 v (some g.block) false).core g.core).meshovf = v ∧
    ((s.kwcore g.core 41 v (some g.block) true).core g.core).mgbudget = v.extractLsb' 0 9

/-- R100: VRUN appends its clause with its guard, the captured scalar values and the pending marks of the clause, and stalls while the
queue holds 8. -/
def Claims.ClausesEnqueue : Prop := ∀ (s : State) (g : Gang) (f : Frag) (guard : Option GSlot) (o : BitVec 20) (a : SReg),
  s.cur = some (g, f) →
  let run := fun (i : Instr) (off : Word) =>
    (f.queue.length < 8 → ∃ t, exec i s = .next t ∧
      FragTo g { f.advance with
        queue := f.queue ++ [{ id := f.nextId, off := off, guard := guard, cap := g.capture f, capOk := true }]
        marks := f.marks ++ s.clauseMarks g f.nextId off.toNat, nextId := f.nextId + 1 } Keeps s t) ∧
    (8 ≤ f.queue.length → exec i s = .next s)
  run (.vrunOffset guard o) (BitVec.ofNat 32 o.toNat) ∧
  (f.free [a] = true → Agree g f (fun c => c.get a) → run (.vrunRegister guard a) ((g.low f).get a))

/-- R101, 01 R24: GSET binds the slot in each slice and resolves it at once where its register has no pending mark, else leaves it
unresolved; it stalls while a consumer in a queue names the slot. GCLR sets the slot false and unbound without stalling; a matrix command
that it was holding goes from its queue (01 R25). -/
def Claims.GuardsSetAndClear : Prop := ∀ (s : State) (g : Gang) (f : Frag) (slot : GSlot) (c : GCond) (a : SReg),
  s.cur = some (g, f) →
  let holds := fun (x : Word) => match c with
    | .eq => x.toInt = 0
    | .ne => x.toInt ≠ 0
    | .lt => x.toInt < 0
    | .ge => 0 ≤ x.toInt
    | .gt => 0 < x.toInt
    | .le => x.toInt ≤ 0
    | .bs => x.toNat % 2 = 1
    | .bc => x.toNat % 2 = 0
  let others := fun (k k' : SliceCopy) => k'.s = k.s ∧ k'.flags = k.flags ∧ k'.k = k.k ∧
    ∀ n, n ≠ slot.toNat → FMap.get k'.guards n = FMap.get k.guards n
  (g.consumer s.gang f slot = false → ∃ t, exec (.gset slot c a) s = .next t ∧
    FragTo g f.advance (fun k k' => others k k' ∧ (FMap.get k'.guards slot.toNat).bound = some (a, c) ∧
      (f.marked a = true → (FMap.get k'.guards slot.toNat).st = .unresolved) ∧
      (f.marked a = false → holds (k.get a) → (FMap.get k'.guards slot.toNat).st = .tru) ∧
      (f.marked a = false → ¬ holds (k.get a) → (FMap.get k'.guards slot.toNat).st = .fals)) s t) ∧
  (g.consumer s.gang f slot = true → exec (.gset slot c a) s = .next s) ∧
  ∃ u, exec (.gclr slot) s = .next (u.sweep s.gang) ∧
    FragTo g f.advance (fun k k' => others k k' ∧ (FMap.get k'.guards slot.toNat).bound = none ∧
      (FMap.get k'.guards slot.toNat).st = .fals) s u ∧ (EnginesQuiet g → u.sweep s.gang = u) ∧
    ∀ x, g.mq = [x] → g.cq = [] → g.rq = [] → x.guard = some slot → x.mates ≠ [] → (∀ m ∈ x.mates, m.slices &&& ~~~f.slices = 0) →
      ∃ g', (u.sweep s.gang).gang? s.gang = some g' ∧ g'.mq = []

/-- R102, 01 R23: WAITF and VDRAIN go on exactly when what they wait for holds, and change nothing else. -/
def Claims.WaitsForLaneWork : Prop := ∀ (s : State) (g : Gang) (f : Frag) (mask : BitVec 12), s.cur = some (g, f) →
  let clear := fun (n : Nat) => ∀ sl, f.slices.getLsbD sl = true → FMap.get (g.copy sl).flags n = 0
  let issued := f.queue = [] ∧ f.entered = none
  (issued → (∀ n, n < 12 → mask.getLsbD n = true → clear n) → ∃ t, exec (.waitf mask) s = .next t ∧ FragTo g f.advance Keeps s t) ∧
  (¬ (issued ∧ ∀ n, n < 12 → mask.getLsbD n = true → clear n) →
    ∃ t, exec (.waitf mask) s = .next t ∧ FragTo g { f with swait := true } Keeps s t) ∧
  (issued → f.marks = [] → (∀ n, n < 12 → clear n) → ∃ t, exec .vdrain s = .next t ∧ FragTo g f.advance Keeps s t) ∧
  (¬ (issued ∧ f.marks = [] ∧ ∀ n, n < 12 → clear n) →
    ∃ t, exec .vdrain s = .next t ∧ FragTo g { f with swait := true } Keeps s t)

/-- R106, 03 R57: NOP and the reserved words of majors 0x3D and 0x3E only advance. -/
def Claims.ScalarNops : Prop := ∀ (s : State) (g : Gang) (f : Frag) (x : BitVec 26), s.cur = some (g, f) →
  ∀ i ∈ [Instr.nop, .scalarReservedNop3D x, .scalarReservedNop3E x], ∃ t, exec i s = .next t ∧ FragTo g f.advance Keeps s t

/-- R92, R106, 21 R335, R336, R338: what each trapping instruction saves: TRAP completes first, every other leaves TSPC at its word. -/
def Claims.ScalarTraps : Prop := ∀ (s : State) (g : Gang) (f : Frag) (code : BitVec 12) (w : Word) (off : BitVec 12) (r : SReg)
    (k : Byte), s.cur = some (g, f) →
  Traps (.trap code) s g f.advance .softTrap (code.setWidth 32) 0 false ∧
  Traps .brk s g f .brk 0 0 false ∧
  Traps (.illegalScalarWord w) s g f .illegal w 0 false ∧
  Traps .tret s g f .illegal 0xF0000002 0 false ∧
  Traps .pdone s g f .illegal 0xF0000003 0 false ∧
  Traps (.loop 0 off) s g f .illegal (0xB4000000 + off.setWidth 32) 0 false ∧
  (g.priv = false → userNone k.toNat = true → Traps (.krd r k) s g f .illegal (k.setWidth 32) 0 false ∧
    Traps (.kwr r k) s g f .illegal (k.setWidth 32) 0 false) ∧
  (∀ kind a, s.chk (s.whoGang g) .fetch f.spc.toNat 4 = .bad kind a →
    Traps .scalarFetchFault s g f (if kind = 10 then .lease else .memory) (BitVec.ofNat 32 (256 * kind)) (BitVec.ofNat 64 a) false)

/-- 21 R335, R338: TRAP_ENTRY for every cause, and a lane item that fails one of the first checks of 03 R76: TVAL holds the check. -/
def Claims.TrapEntries : Prop := ∀ (s : State) (g : Gang) (f : Frag) (c : Cause) (tval : Word) (taddr : Dword) (lane : Bool)
    (check : BitVec 4), s.cur = some (g, f) →
  Traps (.trapEntry c tval taddr lane) s g f c tval taddr lane ∧
  (f.entered = none ∨ check.toNat < 3 →
    Traps (.illegalLaneItem check) s g f .illegal (0x80000000 + BitVec.ofNat 32 check.toNat) 0 true)

/-- R107: TRET in a handler whose slices agree on what it reads and for which no pre-emption waits: the streams stand where TSPC and TLPC
say, the queue holds the valid PCQ entries in order, a clause is in issue exactly when TSTAT.ENT is set with REM + 1 items to go, the
fragment has left its handler and class 0, and no register of any copy changes. A clause that only an edited ENT enters takes a number of its
own, which guards' awaited numbers make room for (the model's choice, log entry 81). -/
def Claims.TrapReturns : Prop := ∀ (s : State) (g : Gang) (f : Frag), s.cur = some (g, f) → f.inHandler = true →
  f.cancelled = none → f.pend = none → Agree g f SliceCopy.resumption → g.ppSet f = false →
  let k := g.low f
  ∃ t g' f', exec .tret s = .next t ∧ TraceOnly s t ∧ (s.traced g = false → OnlyGang s t) ∧ t.cur = some (g', f') ∧
    { g' with frags := g.frags, copies := g.copies } = g ∧
    (∀ sl, (g'.copy sl).s = (g.copy sl).s ∧ (g'.copy sl).flags = (g.copy sl).flags ∧ (g'.copy sl).k = (g.copy sl).k ∧
      ∀ n, (FMap.get (g'.copy sl).guards n).st = (FMap.get (g.copy sl).guards n).st ∧
        (FMap.get (g'.copy sl).guards n).bound = (FMap.get (g.copy sl).guards n).bound) ∧
    ((k.kget 7).getLsbD 0 = false ∨ f.saved ≠ none → g'.copies = g.copies) ∧
    f'.slices = f.slices ∧ f'.spc = k.kget64 4 &&& ~~~3#64 ∧ f'.lpc = k.kget 6 ∧
    f'.inHandler = false ∧ f'.cls = g.cls ∧
    f'.queue.map (fun e => (e.off, e.guard)) = ((List.range 8).filterMap fun n =>
      let p := k.kget64 (8 + 2 * n)
      if p.getLsbD 63 then some (p.extractLsb' 0 32, if p.getLsbD 62 then some (p.extractLsb' 58 4) else none) else none) ∧
    (f'.entered.isSome = (k.kget 7).getLsbD 0) ∧
    ∀ e, f'.entered = some e → e.rem = (k.kget 7).toNat / 16 % 32 + 1

/-- R108: PDONE in a handler of a pre-emption, or with one waiting, once the gang's engine work is done: PP clears, the fragment stops at
the next word, and when every fragment of the gang has stopped the gang leaves its core; its scalar registers, flags, guards and masks
are kept, its vector registers and accumulators are not. -/
def Claims.PdoneYields : Prop := ∀ (s : State) (g : Gang) (f : Frag), s.cur = some (g, f) → f.inHandler = true →
  (f.entry = 7 ∨ g.ppSet f = true) → f.cancelled = none → g.mq = [] → g.running = none → g.batches = [] →
  (g.openB.getD {}).left = 0 →
  ∃ t g', exec .pdone s = .next t ∧ t.gang? s.gang = some g' ∧
    (∃ x, g'.fragOf s.slice = some x ∧ x.slices = f.slices ∧ x.done = true ∧ x.spc = f.spc + 4 ∧ x.inHandler = true) ∧
    g'.xm = g.xm ∧ g'.lm = g.lm ∧ g'.hm = g.hm ∧ g'.rng = g.rng ∧
    (∀ sl, (g'.copy sl).s = (g.copy sl).s ∧ (g'.copy sl).flags = (g.copy sl).flags ∧ (g'.copy sl).guards = (g.copy sl).guards ∧
      (f.slices.getLsbD sl = true → ((g'.copy sl).kget 2).getLsbD 15 = false)) ∧
    ((∀ x ∈ g.frags, x.slices &&& f.slices = 0 → x.done = true) →
      g'.desched = true ∧ ∀ r l, g'.vraw r l = 0 ∧ g'.tagOf r = 0 ∧ g'.aget r 0 l = 0) ∧
    ((∃ x ∈ g.frags, x.slices &&& f.slices = 0 ∧ x.done = false) → g'.desched = g.desched ∧ g'.v = g.v ∧ g'.a = g.a ∧ OnlyGang s t)

/-- R109, 01 R33: GEND waits for the fragment's lane work and engine work; then the fragment's slices leave the gang, and the gang ends
with its last fragment. -/
def Claims.GendEnds : Prop := ∀ (s : State) (g : Gang) (f : Frag), s.cur = some (g, f) → f.cancelled = none →
  ((g.drained f && g.engineIdle) = false → ∃ t, exec .gend s = .next t ∧ FragTo g { f with swait := true } Keeps s t) ∧
  ((g.drained f && g.engineIdle) = true → f.pend = none →
    (g.frags = [f] → ∃ t, exec .gend s = .next t ∧ t.gang? s.gang = none ∧
      ∀ n, n ≠ s.gang → t.gang? n = s.gang? n) ∧
    ((∃ x ∈ g.frags, x.slices &&& f.slices = 0) → ∃ t, exec .gend s = .next t ∧ TraceOnly s t ∧
      t.gang? s.gang = some { g with frags := g.frags.filter (fun x => x.slices &&& f.slices == 0)
                                     live := g.live &&& ~~~f.slices, lm := g.lm &&& ~~~sliceMask f.slices }))

/-! ### Clauses, guards and landing (01) -/

/-- 01 R19: an idle sequencer enters the clause at the head of its queue when its header passes its checks and the flags of its wait mask
are clear: N + 1 items from the word after the header, with the header's flag bindings. -/
def Claims.ClauseEnters : Prop := ∀ (s : State) (g : Gang) (f : Frag) (e : QEntry) (rest : List QEntry) (h : BitVec 27),
  s.cur = some (g, f) → f.entered = none → f.queue = e :: rest → e.guard = none →
  fetchGap (s.laneBytes g g.lcbase g.lcsize e.off.toNat) g.lcsize.toNat e.off.toNat = none →
  readItem (s.laneBytes g g.lcbase g.lcsize e.off.toNat) = .header h → headerCheck h = none → g.flagsClear f (hdrWait h) = true →
  ∃ t g' f' x, exec .clauseEnter s = .next t ∧ t.gang? s.gang = some g' ∧ g'.fragOf s.slice = some f' ∧
    { g' with frags := g.frags } = g ∧
    f'.queue = rest ∧ f'.lpc = e.off + 4 ∧ f'.spc = f.spc ∧ f'.slices = f.slices ∧ f'.marks = f.marks ∧ f'.entered = some x ∧
    x.rem = (h.extractLsb' 0 5).toNat + 1 ∧ x.idx = 0 ∧ x.fa = hdrFA h ∧ x.fb = hdrFB h ∧ x.base = g.lcbase ∧ x.cap = e.cap ∧
    (∀ n, n ≠ s.gang → t.gang? n = s.gang? n) ∧ t.sp = s.sp ∧ t.path = s.path ∧ t.cores = s.cores

/-- 01 R24, R25: GUARD_RESOLVE, once the lane writes that the slot waits for have landed: in each slice of the fragment an unresolved slot
becomes true or false by its condition on that slice's own register, and every other slot stays; the clause at the queue's head goes where
its guard is now false in every slice; and then what can leave the engine queues does. -/
def Claims.GuardsResolve : Prop := ∀ (s : State) (g : Gang) (f : Frag) (slot : GSlot), s.cur = some (g, f) →
  g.fragOf (lowSlice f.slices) = some f → g.guardReady f slot.toNat = true →
  ∃ u g' f', exec (.guardResolve slot) s = .next (u.sweep s.gang) ∧ (EnginesQuiet g → u.sweep s.gang = u) ∧ TraceOnly s u ∧
    u.cur = some (g', f') ∧ { g' with copies := g.copies, frags := g.frags } = g ∧
    (f.entered ≠ none → f'.queue = f.queue) ∧
    (∀ e r, f.queue = e :: r → f.entered = none → f'.queue = if (∃ n, e.guard = some n ∧ g'.guardOut f.slices n = some 0) then r else f.queue) ∧
    (∀ sl, (g'.copy sl).s = (g.copy sl).s ∧ (g'.copy sl).flags = (g.copy sl).flags ∧ (g'.copy sl).k = (g.copy sl).k ∧
      ∀ n, n ≠ slot.toNat ∨ f.slices.getLsbD sl = false →
        FMap.get (g'.copy sl).guards n = FMap.get (g.copy sl).guards n) ∧
    ∀ sl r c, f.slices.getLsbD sl = true → (FMap.get (g.copy sl).guards slot.toNat).st = .unresolved →
      (FMap.get (g.copy sl).guards slot.toNat).bound = some (r, c) →
      (FMap.get (g'.copy sl).guards slot.toNat).st = if condHolds c ((g.copy sl).get r) then .tru else .fals

/-- 01 R18, R24, 06 R112: LANE_SCALAR_WRITE_LAND writes the value of the earliest mark of a register in every slice of the fragment, for the
rest of its clause and the clauses behind it too, and its mark goes; nothing else of any copy changes, but that every guard that now waits
for nothing resolves at once, each on the registers of its own slice. -/
def Claims.LaneWritesLand : Prop := ∀ (s : State) (g : Gang) (f : Frag) (r : SReg) (m : Mark) (wr : FMap Word),
  s.cur = some (g, f) → g.fragOf (lowSlice f.slices) = some f → f.firstMark r = some m → g.canLand f r = true → m.wr = some wr →
  ∃ u g' f', exec (.laneScalarWriteLand r) s = .next (u.settleGuards s.gang (lowSlice f.slices)) ∧
    u.cur = some (g', f') ∧ f'.marks = f.marks.erase m ∧ f'.spc = f.spc ∧ f'.lpc = f.lpc ∧
    FragTo g f' (fun _ _ => True) s u ∧ f'.slices = f.slices ∧
    (∀ sl, f.slices.getLsbD sl = true →
      (g'.copy sl).get r = (if r = 0 then 0 else (wrAt wr sl).getD ((g.copy sl).get r)) ∧ KeepsBut [r] (g.copy sl) (g'.copy sl)) ∧
    (∀ e e', f.entered = some e → f'.entered = some e' → ∀ sl (q : SReg), q ≠ 0 → FMap.get (FMap.get e'.cap sl) q.toNat =
      if q = r ∧ m.clause ≤ e.id ∧ f.slices.getLsbD sl = true then (wrAt wr sl).getD (FMap.get (FMap.get e.cap sl) q.toNat)
      else FMap.get (FMap.get e.cap sl) q.toNat) ∧
    ((∀ n, n < 16 → g'.guardReady f' n = false) → u.settleGuards s.gang (lowSlice f.slices) = u) ∧
    (EnginesQuiet g → ∃ h, (u.settleGuards s.gang (lowSlice f.slices)).gang? s.gang = some h ∧
      ∀ sl, (h.copy sl).s = (g'.copy sl).s ∧
        ∀ n q c, n < 16 → g'.guardReady f' n = true → f.slices.getLsbD sl = true → (FMap.get (g'.copy sl).guards n).st = .unresolved →
          (FMap.get (g'.copy sl).guards n).bound = some (q, c) →
          (FMap.get (h.copy sl).guards n).st = if condHolds c ((g'.copy sl).get q) then .tru else .fals)

/-! ### Lane instructions (06) -/

/-- R117: integer arithmetic under every class it takes, element by element: modulo 2^width, or clamped with SAT; the result carries the
class. Lanes that take no part, other registers, masks, scalars and memory stay. -/
def Claims.LaneArithmetic : Prop := ∀ (d a vc : VReg) (b : BSrc) (c : Tag) (sat : Bool),
  (c ∈ [Tag.i32, Tag.n32, Tag.i8x4, Tag.n8x4, Tag.i4x8, Tag.i3x10] →
    LaneGivesP (.vadd d a b c sat) [(c, a.toNat :: bRegs b)] d (fun _ _ => c)
      (fun s g f l w => IntElems c sat (· + ·) (laneSrc a s g l) (bVal s.clk g f b l) w) ∧
    LaneGivesP (.vsub d a b c sat) [(c, a.toNat :: bRegs b)] d (fun _ _ => c)
      (fun s g f l w => IntElems c sat (· - ·) (laneSrc a s g l) (bVal s.clk g f b l) w) ∧
    LaneGivesP (.vmin d a b c) [(c, a.toNat :: bRegs b)] d (fun _ _ => c)
      (fun s g f l w => IntElems c false min (laneSrc a s g l) (bVal s.clk g f b l) w) ∧
    LaneGivesP (.vmax d a b c) [(c, a.toNat :: bRegs b)] d (fun _ _ => c)
      (fun s g f l w => IntElems c false max (laneSrc a s g l) (bVal s.clk g f b l) w) ∧
    LaneGivesP (.vabs d a c sat) [(c, [a.toNat])] d (fun _ _ => c)
      (fun s g _ l w => IntElems c sat (fun x _ => x.natAbs) (laneSrc a s g l) (laneSrc a s g l) w)) ∧
  LaneOp2 (.vmul d a b c false) d a b c (fun x y => x * y) ∧
  LaneOp2 (.vmul d a b Tag.i32 true) d a b Tag.i32 (fun x y => BitVec.ofInt 32 (x.toInt * y.toInt / 2 ^ 32)) ∧
  LaneOp2 (.vmul d a b Tag.n32 true) d a b Tag.n32 (fun x y => BitVec.ofNat 32 (x.toNat * y.toNat / 2 ^ 32)) ∧
  LaneOp3 (.vmad d a b vc c) d a b vc c (fun x y z => x * y + z)

/-- R118, R119: the bit instructions, with the shifts of a full width or more, the bit fields with their sign extension, and the byte
permutation. -/
def Claims.LaneBits : Prop := ∀ (d a vc : VReg) (b : BSrc) (p n : BitVec 5) (sx : Bool),
  LaneBits2 (.vand d a b) d a b (fun x y => x &&& y) ∧ LaneBits2 (.vor d a b) d a b (fun x y => x ||| y) ∧
  LaneBits2 (.vxor d a b) d a b (fun x y => x ^^^ y) ∧ LaneBits2 (.vandn d a b) d a b (fun x y => x &&& ~~~y) ∧
  LaneBits2 (.vshl d a b) d a b (fun x y => BitVec.ofNat 32 (x.toNat * 2 ^ y.toNat)) ∧
  LaneBits2 (.vshr d a b) d a b (fun x y => BitVec.ofNat 32 (x.toNat / 2 ^ y.toNat)) ∧
  LaneBits2 (.vsra d a b) d a b (fun x y => BitVec.ofInt 32 (x.toInt / 2 ^ y.toNat)) ∧
  LaneGives (.vclz d a) [] d (fun _ _ => Tag.i32) (fun s g _ l =>
    if laneSrc a s g l = 0 then 32 else BitVec.ofNat 32 (31 - Nat.log2 (laneSrc a s g l).toNat)) ∧
  LaneGives (.vpopc d a) [] d (fun _ _ => Tag.i32) (fun s g _ l =>
    BitVec.ofNat 32 ((List.range 32).countP fun i => (laneSrc a s g l).getLsbD i)) ∧
  LaneGivesP (.vbfx d a p n sx) [] d (fun _ _ => Tag.i32) (fun s g _ l w => ∀ j, j < 32 →
    w.getLsbD j = if j ≤ n.toNat then (laneSrc a s g l).getLsbD (p.toNat + j)
      else sx && (laneSrc a s g l).getLsbD (p.toNat + n.toNat)) ∧
  LaneGivesP (.vbfi d a p n) [] d (srcTagOf d) (fun s g _ l w => ∀ j, j < 32 →
    w.getLsbD j = if p.toNat ≤ j ∧ j ≤ p.toNat + n.toNat then (laneSrc a s g l).getLsbD (j - p.toNat)
      else (laneSrc d s g l).getLsbD j) ∧
  LaneGivesP (.vprmb d a b vc) [] d (fun _ _ => Tag.raw) fun s g f l w => ∀ j, j < 4 →
    let sel := (bVal s.clk g f b l).toNat / 16 ^ j % 16
    w.extractLsb' (8 * j) 8 = if 8 ≤ sel then 0 else
      (if sel < 4 then (laneSrc a s g l).extractLsb' (8 * sel) 8 else (laneSrc vc s g l).extractLsb' (8 * (sel - 4)) 8)

/-- R121 to R123, 03 R68: selections, moves, broadcasts, immediates and special values; a reserved-as-NOP opcode only issues. -/
def Claims.LaneMoves : Prop := ∀ (d a vc : VReg) (b : BSrc) (r : SReg) (n code : BitVec 5) (i : BitVec 26) (k : BitVec 4)
    (rest : BitVec 86),
  LaneGives (.vsel d a b vc) [] d (srcTagOf a) (fun s g f l =>
    if laneSrc vc s g l ≠ 0 then laneSrc a s g l else bVal s.clk g f b l) ∧
  LaneGives (.vmov d a) [] d (srcTagOf a) (fun s g _ l => laneSrc a s g l) ∧
  LaneGives (.vbcs d r code) [] d (fun _ _ => code.setWidth 7) (fun _ _ f l => f.captured (l / 8) r) ∧
  LaneGives (.vli d i code false) [] d (fun _ _ => code.setWidth 7) (fun _ _ _ _ => i.signExtend 32) ∧
  LaneGives (.vli d i code true) [] d (fun _ _ => code.setWidth 7) (fun _ _ _ _ => BitVec.ofNat 32 (64 * i.toNat)) ∧
  LaneGivesScalar (.vmovTos r a n) r (fun s g f => if f.slices.getLsbD (n.toNat / 8) then laneSrc a s g n.toNat else 0) ∧
  (∀ p ∈ [(Special.lane, fun (_ : Gang) l => l), (.quad, fun _ l => l / 4), (.slice, fun _ l => l / 8), (.gang, fun g _ => g.idx),
      (.core, fun g _ => g.core), (.cluster, fun g _ => g.core / 8), (.layer, fun g _ => g.core % 8 / 4)],
    LaneGives (.vspc d p.1) [] d (fun _ _ => Tag.i32) fun _ g _ l => BitVec.ofNat 32 (p.2 g l)) ∧
  (∀ (bk : Block) (la : Launch), ∀ p ∈ [(Special.blkx, bk.idx % la.nx), (.blky, bk.idx / la.nx % la.ny),
      (.blkz, bk.idx / (la.nx * la.ny)), (.nblkx, la.nx), (.nblky, la.ny), (.nblkz, la.nz)],
    ∀ s g f, s.block? g.block = some bk → s.launch? g.launch = some la → LaneReady (.vspc d p.1) s g f [] →
      ∃ t g' f', exec (.vspc d p.1) s = .next t ∧ OnlyGang s t ∧ t.cur = some (g', f') ∧ Passes f f' ∧
        WritesLanes g g' f [d.toNat] Tag.i32 fun _ _ w => w = BitVec.ofNat 32 p.2) ∧
  ∀ s g f, s.cur = some (g, f) → ∃ t g' f', exec (.laneReservedNop k rest) s = .next t ∧ OnlyGang s t ∧
    t.cur = some (g', f') ∧ Passes f f' ∧ { g' with frags := g.frags } = g

/-- R120: VCMP under each condition of each class, into a vector register, or into the taking lanes' bits of xm or hm, where every other
bit of every mask stays; a NaN makes ne true and every other condition false, and -0 equals +0. -/
def Claims.LaneCompare : Prop := ∀ (d a : VReg) (b : BSrc) (c : Tag) (k : VCond), c ∈ [Tag.i32, Tag.n32, Tag.f32] →
  let holds := fun (x y : Word) =>
    let v := fun (z : Word) => Fmt.f32.decode z.toNat
    let lt : Word → Word → Bool := fun x y =>
      if c = Tag.i32 then decide (x.toInt < y.toInt) else if c = Tag.n32 then decide (x.toNat < y.toNat) else (v x).lt (v y)
    let eq : Bool := if c = Tag.f32 then (v x).eq (v y) else x == y
    match k with
    | .eq => eq
    | .ne => !eq
    | .lt => lt x y
    | .ge => lt y x || eq
    | .gt => lt y x
    | .le => lt x y || eq
  LaneGives (.vcmp (.vec d) a b c k) [(c, a.toNat :: bRegs b)] d (fun _ _ => Tag.i32)
    (fun s g f l => if holds (laneSrc a s g l) (bVal s.clk g f b l) then 0xFFFFFFFF else 0) ∧
  (∀ p ∈ [(CmpDst.xm, MaskName.xm), (.hm, .hm)], ∀ s g f, LaneReady (.vcmp p.1 a b c k) s g f [(c, a.toNat :: bRegs b)] →
    ∃ t g' f', exec (.vcmp p.1 a b c k) s = .next t ∧ TraceOnly s t ∧ (s.traced g = false → OnlyGang s t) ∧
      t.cur = some (g', f') ∧ Passes f f' ∧ { g' with xm := g.xm, hm := g.hm, frags := g.frags } = g ∧
      (∀ q, q ≠ p.2 → g'.mask q = g.mask q) ∧
      ∀ l, l < 32 → (Takes g f l → (g'.mask p.2).getLsbD l = holds (laneSrc a s g l) (bVal s.clk g f b l)) ∧
        (¬ Takes g f l → (g'.mask p.2).getLsbD l = (g.mask p.2).getLsbD l)) ∧
  (∀ x y : Val, Val.nan.lt y = false ∧ x.lt Val.nan = false ∧ Val.nan.eq y = false ∧ x.eq Val.nan = false) ∧
  (Fmt.f32.decode 0x80000000).eq (Fmt.f32.decode 0) = true

/-- R124, R125: floating arithmetic issues with the class's tag and the words that its operation gives, and keeps all else. Values are
decoded, combined exactly, and rounded once; the operations are `Val`'s. -/
def Claims.LaneFloat : Prop := ∀ (d a vc : VReg) (b : BSrc) (c : Tag) (r : Round),
  LaneOp2 (.fadd d a b c r) d a b c (float2 c.fcode r (Val.add r)) ∧
  LaneOp2 (.fsub d a b c r) d a b c (float2 c.fcode r fun x y => Val.add r x y.neg) ∧
  LaneOp2 (.fmul d a b c r) d a b c (float2 c.fcode r Val.mul) ∧
  LaneOp3 (.ffma d a b vc c r) d a b vc c (float3 c.fcode r fun x y z => Val.add r (x.mul y) z) ∧
  LaneOp2 (.fmin d a b c) d a b c (float2 c.fcode .rne (Val.minmax false)) ∧
  LaneOp2 (.fmax d a b c) d a b c (float2 c.fcode .rne (Val.minmax true)) ∧
  LaneOp1 (.frnd d a c r) d a c c (float1 c.fcode r (Val.toIntegral r 0)) ∧
  LaneOp1 (.fsqrt d a r) d a Tag.f32 Tag.f32 (float1 3 r Val.sqrt) ∧
  LaneGivesP (.fcls d a Tag.f32) [(Tag.f32, [a.toNat])] d (fun _ _ => Tag.i32) (fun s g _ l w =>
    let x := (laneSrc a s g l).toNat
    let e := x / 2 ^ 23 % 2 ^ 8
    let m := x % 2 ^ 23
    w = if e = 255 then (if m ≠ 0 then 256 else if x < 2 ^ 31 then 128 else 1)
      else if e = 0 then (if m = 0 then (if x < 2 ^ 31 then 16 else 8) else if x < 2 ^ 31 then 32 else 4)
      else if x < 2 ^ 31 then 64 else 2) ∧
  LaneOp1 (.fcls d a Tag.f19) d a Tag.f19 Tag.i32 (fun x => 1#32 <<< classOf Fmt.f19 (x.toNat / 2 ^ 13))

/-- R125, R40: what the floating operations do at their edges: a sum or product with a NaN operand, ∞ - ∞ and ∞ × 0 give the canonical NaN, FMIN and FMAX return the other
operand when exactly one is NaN and order -0 below +0, and a value that a format holds is rounded to itself. -/
def Claims.FloatEdges : Prop :=
  (∀ (x : Word) (r : Round), toF32 r (Val.add r .nan (f32v x)) = 0x7FC00000 ∧ toF32 r (Val.mul (f32v x) .nan) = 0x7FC00000) ∧
  (∀ r : Round, toF32 r (Val.add r (.inf false) (.inf true)) = 0x7FC00000 ∧ toF32 r (Val.mul (.inf false) (f32v 0)) = 0x7FC00000) ∧
  (∀ (mx : Bool) (x : Val), x.isNan = false → Val.minmax mx .nan x = x ∧ Val.minmax mx x .nan = x) ∧
  (∀ e : Int, Val.minmax false (.fin true 0 e) (.fin false 0 e) = .fin true 0 e ∧
    Val.minmax true (.fin true 0 e) (.fin false 0 e) = .fin false 0 e) ∧
  ∀ f ∈ [Fmt.f32, Fmt.f19, Fmt.bf16, Fmt.f16, Fmt.e5m2, Fmt.e4m3, Fmt.e3m2, Fmt.e2m3, Fmt.e2m1],
    ∀ (x : Nat) (r : Round) (draw : Nat), x < 2 ^ (1 + f.e + f.m) → f.decode x ≠ .nan → f.encode r false draw (f.decode x) = x

/-- R126: the approximated functions issue with the tag F32 and the word of their function, and the special results listed are exact. -/
def Claims.LaneApproximations : Prop := ∀ (d a : VReg),
  (∀ p ∈ [(Instr.frcp d a, frcpVal), (.frsq d a, frsqVal), (.fex2 d a, fex2Val), (.flg2 d a, flg2Val), (.fsin d a, fsinVal),
      (.fcos d a, fcosVal)], LaneOp1 p.1 d a Tag.f32 Tag.f32 p.2) ∧
  (∀ p ∈ [((0 : Word), (0x7F800000 : Word)), (0x80000000, 0xFF800000), (0x7F800000, 0), (0xFF800000, 0x80000000),
      (0x40000000, 0x3F000000), (0x3F800000, 0x3F800000), (0x7FC00000, 0x7FC00000)], frcpVal p.1 = p.2) ∧
  (∀ p ∈ [((0 : Word), (0x7F800000 : Word)), (0x80000000, 0xFF800000), (0x7F800000, 0), (0xBF800000, 0x7FC00000)],
    frsqVal p.1 = p.2) ∧
  (∀ p ∈ [((0xFF800000 : Word), (0 : Word)), (0x7F800000, 0x7F800000), (0x43000000, 0x7F800000), (0xC3160001, 0), (0, 0x3F800000)],
    fex2Val p.1 = p.2) ∧
  (∀ p ∈ [((0 : Word), (0xFF800000 : Word)), (0xBF800000, 0x7FC00000), (0x7F800000, 0x7F800000), (0x40800000, 0x40000000)],
    flg2Val p.1 = p.2) ∧
  (∀ p ∈ [((0x7F800000 : Word), (0x7FC00000 : Word)), (0x3F000000, 0), (0xBF000000, 0x80000000)], fsinVal p.1 = p.2) ∧
  ∀ p ∈ [((0x7F800000 : Word), (0x7FC00000 : Word)), (0x3F800000, 0x3F800000), (0x3E800000, 0)], fcosVal p.1 = p.2

/-- R127, R128: the packed instructions work element by element, with NEG exact; IDOT4 sums exactly and clamps with SAT or wraps. -/
def Claims.LanePacked : Prop := ∀ (d a vc : VReg) (b : BSrc) (c : Tag) (r : Round) (sat bu : Bool),
  LaneOp2 (.padd d a b c false r) d a b c (float2 c.fcode r (Val.add r)) ∧
  LaneOp2 (.padd d a b c true r) d a b c (float2 c.fcode r fun x y => Val.add r x y.neg) ∧
  LaneOp2 (.pmul d a b c r) d a b c (float2 c.fcode r Val.mul) ∧
  LaneOp3 (.pfma d a b vc c false r) d a b vc c (float3 c.fcode r fun x y z => Val.add r (x.mul y) z) ∧
  LaneOp3 (.pfma d a b vc c true r) d a b vc c (float3 c.fcode r fun x y z => Val.add r (x.mul y).neg z) ∧
  LaneOp2 (.pmin d a b c) d a b c (float2 c.fcode .rne (Val.minmax false)) ∧
  LaneOp2 (.pmax d a b c) d a b c (float2 c.fcode .rne (Val.minmax true)) ∧
  LaneGives (.pdot2 d a b vc c r) [(c, a.toNat :: bRegs b), (Tag.f32, [vc.toNat])] d (fun _ _ => Tag.f32) (fun s g f l =>
    let x := laneSrc a s g l
    let y := bVal s.clk g f b l
    toF32 r (sumVals r [(elemVal c.fcode (elem c.fcode x 0)).mul (elemVal c.fcode (elem c.fcode y 0)),
      (elemVal c.fcode (elem c.fcode x 1)).mul (elemVal c.fcode (elem c.fcode y 1)), f32v (laneSrc vc s g l)])) ∧
  (c ∈ [Tag.i8x4, Tag.n8x4] →
    LaneGivesP (.idot4 d a b vc c sat bu) [(c, [a.toNat]), (if bu then Tag.n8x4 else Tag.i8x4, bRegs b)] d (fun _ _ => Tag.i32)
      fun s g f l w =>
        let x := laneSrc a s g l
        let y := bVal s.clk g f b l
        let p := fun j => elemInt c.fcode (elem c.fcode x j) * elemInt (if bu then 13 else 12) (elem 12 y j)
        FitsElem 1 sat ((laneSrc vc s g l).toInt + p 0 + p 1 + p 2 + p 3) w.toInt)

/-- R130 to R132, 02 R45: conversions write their span of registers with the destination's tag and step the generator of each taking lane
once for each element that draws; other lanes' generators, registers, masks and scalars stay. -/
def Claims.LaneConversions : Prop := ∀ (d a : VReg) (c : Tag) (dst : BitVec 5) (sat h32 : Bool) (slot : BitVec 4) (r : Round),
  let run := fun (i : Instr) (tags : List (Tag × List Nat)) (extra : Gang → Prop) (nd : Nat) (tag : Tag)
      (conv : State → Gang → Nat → List Word × Word) =>
    ∀ s g f, LaneReady i s g f tags → extra g →
      ∃ t g' f', exec i s = .next t ∧ OnlyGang s t ∧ t.cur = some (g', f') ∧ Passes f f' ∧
        WritesLanes g { g' with rng := g.rng } f (span d nd) tag (fun k l w => w = (conv s g l).1.getD (k - d.toNat) 0) ∧
        ∀ l, (Takes g f l → FMap.get g'.rng l = (conv s g l).2) ∧ (¬ Takes g f l → FMap.get g'.rng l = FMap.get g.rng l)
  let sp := cvtSpans c.fcode dst.toNat
  let n := if h32 then 32 else 16
  run (.cvt d a c dst sat r) [(c, span a sp.1)] (fun _ => True) sp.2 (BitVec.ofNat 7 (dst.toNat + 32 * c.rot))
    (fun s g l => convWords c.fcode dst.toNat r sat sp.2
      ((span a sp.1).flatMap fun k => elems c.fcode (g.vget s.clk k l)) (FMap.get g.rng l)) ∧
  run (.cvth d a dst sat h32 r) [(Tag.f32, span a n)] (fun _ => True) (n / elemsPerWord dst.toNat)
    (BitVec.ofNat 7 (dst.toNat + (if h32 then 64 else 32)))
    (fun s g l => convWords 3 dst.toNat r sat (n / elemsPerWord dst.toNat)
      ((hadamard ((span a n).map fun k => g.vget s.clk k l)).map BitVec.toNat) (FMap.get g.rng l)) ∧
  run (.cvtp d a c dst sat slot r) [(c, [a.toNat])]
    (fun g => g.busyV d.toNat = true ∨ g.tagOf d.toNat = dst.setWidth 7 ∨ g.tagOf d.toNat = Tag.raw) 1 (dst.setWidth 7)
    fun s g l =>
      let y := convMany c.fcode dst.toNat r sat [elem c.fcode (laneSrc a s g l) 0] (FMap.get g.rng l)
      ([putElem dst.toNat (laneSrc d s g l) slot.toNat (y.1.headD 0)], y.2)

/-- R133, 01 R27: TAGW sets a register's tag, and no word, when a lane takes part; TAGR gives the tag of a register that no outstanding
work names. -/
def Claims.LaneTags : Prop := ∀ (tag : Tag) (d : SReg) (v : VReg) (a : AReg) (t : TReg),
  (∀ s g f, LaneReady (.tagw (.v v) (.imm tag)) s g f [] → vecTagOk tag = true →
    ∃ u g' f', exec (.tagw (.v v) (.imm tag)) s = .next u ∧ OnlyGang s u ∧ u.cur = some (g', f') ∧ Passes f f' ∧
      (∀ r, g'.tagOf r = if r = v.toNat ∧ g.taking f ≠ 0 then tag else g.tagOf r) ∧
      { g' with vtag := g.vtag, frags := g.frags, latch := g.latch, clash := g.clash, bad := g.bad } = g) ∧
  (∀ s g f, LaneReady (.tagw (.a a) (.imm tag)) s g f [] → accTagOk tag = true →
    ∃ u g' f', exec (.tagw (.a a) (.imm tag)) s = .next u ∧ OnlyGang s u ∧ u.cur = some (g', f') ∧ Passes f f' ∧
      (∀ r, g'.atagOf r = if r = a.toNat ∧ g.taking f ≠ 0 then tag else g.atagOf r) ∧
      { g' with atag := g.atag, frags := g.frags, clash := g.clash, bad := g.bad } = g) ∧
  (∀ s g f bk, LaneReady (.tagw (.t t) (.imm tag)) s g f [] → tileTagOk tag = true → s.block? g.block = some bk →
    g.taking f ≠ 0 → s.tileNamed bk t.toNat = false →
    ∃ u g' f' bk', exec (.tagw (.t t) (.imm tag)) s = .next u ∧ u.cur = some (g', f') ∧ Passes f f' ∧ u.block? g.block = some bk' ∧
      bk' = { bk with ttag := FMap.put bk.ttag t.toNat tag, bad := FMap.put bk.bad (32768 + t.toNat) false } ∧
      FMap.get bk'.ttag t.toNat = tag ∧ { u with gangs := s.gangs, blocks := s.blocks } = s ∧
      ∀ n x, s.gang? n = some x → ∃ x', u.gang? n = some x' ∧ { x' with hist := x.hist, frags := x.frags } = x) ∧
  (∀ s g f bk, LaneReady (.tagr d (.t t)) s g f [] → s.block? g.block = some bk → g.busyV (512 + t.toNat) = false →
    ∃ u g' f', exec (.tagr d (.t t)) s = .next u ∧ OnlyGang s u ∧ u.cur = some (g', f') ∧ PassesOn f f' ∧
      { g' with copies := g.copies, frags := g.frags } = g ∧ GivesScalar g g' f f' d ((FMap.get bk.ttag t.toNat : Tag).setWidth 32)) ∧
  LaneGivesScalar (.tagr d (.v v)) d (fun s g _ =>
    if g.busyV v.toNat then ((Config.freeWord s.clk v.toNat).setWidth 7).setWidth 32 else (g.tagOf v.toNat).setWidth 32) ∧
  LaneGivesScalar (.tagr d (.a a)) d (fun s g _ =>
    if g.busyV (256 + a.toNat) then ((Config.freeWord s.clk (256 + a.toNat)).setWidth 7).setWidth 32
    else (g.atagOf a.toNat).setWidth 32)

/-- 01 R13, R27, 02 R36: what a lane instruction's checks raise before anything is written: a register above its allocation is an illegal
encoding, a source of the wrong tag a format fault, and a poisoned source a machine check; a register in flight raises nothing (R21). -/
def Claims.LaneChecks : Prop := ∀ (s : State) (g : Gang) (f : Frag) (d a : VReg) (b : BSrc) (c : Tag) (r : Round) (sat : Bool)
    (t : Word), s.cur = some (g, f) →
  ∀ i ∈ [Instr.vadd d a b c sat, .vsub d a b c sat, .vmin d a b c, .vmax d a b c, .fadd d a b c r, .fsub d a b c r, .fmul d a b c r,
      .padd d a b c sat r, .pmul d a b c r, .pmin d a b c, .pmax d a b c, .vcmp (.vec d) a b c .eq],
    (overAlloc g.regs g.accs (s.tilesOf g) g.aw i = some t → Traps i s g f .illegal t 0 true) ∧
    (overAlloc g.regs g.accs (s.tilesOf g) g.aw i = none → f.laneStall i = false →
      (∀ q, (a.toNat :: bRegs b).find? (fun q => !g.busyV q && !tagPass c (g.tagOf q)) = some q →
        Traps i s g f .format (BitVec.ofNat 32 (q % 256 + 2 ^ 16 * (g.tagOf q).toNat + 2 ^ 24 * c.toNat)) 0 true) ∧
      ((∀ q ∈ a.toNat :: bRegs b, g.busyV q = false → tagPass c (g.tagOf q) = true) → ∀ n, s.poisonSrc g f i = some n →
        Traps i s g f .machineCheck (BitVec.ofNat 32 n) 0 true))

/-! ### Memory instructions of the lanes (06, 14) -/

/-- 06 R135 to R137, 14 R245: VLD and VLDX, once every taking lane's access passes its checks: each lane's registers get the bytes its
address holds, in ascending lane order, under the tag of the item, at once or when the flag's operation completes. -/
def Claims.LaneLoads : Prop := ∀ (d off : VReg) (base : SReg) (sz : Size) (sx u na : Bool) (sc : BitVec 2) (sx3 : BitVec 3) (cnt : Span)
    (disp : BitVec 26) (c : Tag) (flag : FlagSel),
  let run := fun (i : Instr) (na : Bool) (scale n k : Nat) (w : List Byte → Nat → Word) =>
    ∀ s g f, LaneReady i s g f [] → g.flagStall f flag = false →
      let c' := fun va => s.chk (s.whoGang g) .load va n
      let l := g.definite off.toNat c' (s.loadBad g n) (globAddrs s.clk g f (g.taking f) base off u scale disp)
      (∀ e ∈ l, c' e.2 = .ok ∧ s.poisonAt (s.whoGang g) e.2 n = none) →
      (loadLanes s g na n l).2.cur = some (g, f) →
      ∃ t, exec i s = .next t ∧ EndsItem g f flag (span d k) c
        (fun r lane => gotWord s.clk (loadLanes s g na n l).1 w d.toNat (r - d.toNat) lane) [] (loadLanes s g na n l).2 t
  run (.vld d base off sz sx sc u disp c flag) false sc.toNat sz.bytes sz.regs (loadWord sz sx) ∧
  run (.vldx d base off cnt sx3 u na disp c flag) na sx3.toNat (4 * cnt.count) cnt.count (loadWord .word false) ∧
  (∀ (bs : List Byte) (k : Nat), loadWord .word sx bs k = BitVec.ofNat 32 (leVal ((bs.drop (4 * k)).take 4)) ∧
    loadWord .byte false bs k = BitVec.ofNat 32 (leVal bs)) ∧
  ∀ (b : Byte) (k : Nat), loadWord .byte true [b] k = b.signExtend 32

/-- 06 R136, 14 R245: VST and VSTX to DRAM under held translations: every byte of a lane's data stands at its address as the storing core
sees it, the higher lane's where lanes meet, every other byte as before, and the L2 as before; the item ends without any register. -/
def Claims.LaneStores : Prop := ∀ (a off : VReg) (base : SReg) (sz : Size) (u : Bool) (sc : BitVec 2) (sx3 : BitVec 3) (cnt : Span)
    (disp : BitVec 26) (flag : FlagSel),
  let run := fun (i : Instr) (scale unit n : Nat) =>
    ∀ s g f, LaneReady i s g f [] → g.flagStall f flag = false → s.opHolds s.gang s.nextOp = 0 →
      let w := s.whoGang g
      let l := g.definite off.toNat (fun va => s.chk w .store va n) noBad (globAddrs s.clk g f (g.storing f) base off u scale disp)
      (∀ e ∈ l, s.chk w .store e.2 n = .ok ∧ HeldInDram s w .store e.2 n) →
      let s1 := storeLanes s g unit l (regBytes s.clk g a n)
      ∃ t, exec i s = .next t ∧ EndsItem g f flag [] 0 (fun _ _ => 0) [] s1 t ∧
        t.mem = s.mem ∧ t.sp = s.sp ∧ t.ring = s.ring ∧
        (∀ c x, (∀ e ∈ l, ∀ i, i < n → byteAt s w .store e.2 i ≠ x) → t.coreByte c x = s.coreByte c x) ∧
        (∀ c x, c ≠ g.core → t.coreByte c x = s.coreByte c x) ∧
        ∀ e ∈ l, ∀ i, i < n →
          (∀ e' ∈ l, ∀ i', i' < n → byteAt s w .store e'.2 i' = byteAt s w .store e.2 i → e'.1 < e.1 ∨ (e'.1 = e.1 ∧ i' = i)) →
          t.coreByte g.core (byteAt s w .store e.2 i) = (regBytes s.clk g a n e.1).getD i 0
  run (.vst a base off sz sc u disp flag) sc.toNat 64 sz.bytes ∧
  run (.vstx a base off cnt sx3 u disp flag) sx3.toNat 16 (4 * cnt.count)

/-- 14 R247, 12 R210, R211: SPLD reads and SPST writes the block's scratchpad on its core, within its allocation, and no other memory. -/
def Claims.Scratchpads : Prop := ∀ (d off : VReg) (base : SReg) (sz : Size) (sx u : Bool) (sc : BitVec 2) (rem : Option (BitVec 3))
    (disp : BitVec 19) (c : Tag) (flag : FlagSel),
  (∀ s g f b, LaneReady (.spld d base off sz sx sc u rem disp c flag) s g f [] → g.flagStall f flag = false →
    s.spTarget g rem = some b →
    let l := g.definite off.toNat (spChk (some b) sz.bytes) (s.spBad (some b) sz.bytes)
      (spAddrs s.clk g f (g.taking f) base off u sc.toNat (disp.signExtend 64))
    (∀ e ∈ l, e.2 + sz.bytes ≤ b.scratch ∧ s.spBad (some b) sz.bytes e.2 = none) →
    ∃ t, exec (.spld d base off sz sx sc u rem disp c flag) s = .next t ∧ EndsItem g f flag (span d sz.regs) c
      (fun r lane => gotWord s.clk (l.map fun e => (e.1, (List.range sz.bytes).map fun i =>
        Memory.read s.sp (spKey b.core (256 * b.spbase + e.2) + i))) (loadWord sz sx) d.toNat (r - d.toNat) lane) [] s t) ∧
  ∀ s g f b, LaneReady (.spst d base off sz sc u none disp flag) s g f [] → g.flagStall f flag = false →
    s.block? g.block = some b →
    let l := g.definite off.toNat (spChk (some b) sz.bytes) noBad
      (spAddrs s.clk g f (g.storing f) base off u sc.toNat (disp.signExtend 64))
    (∀ e ∈ l, e.2 + sz.bytes ≤ b.scratch) →
    let key := fun (e : Nat × Nat) (i : Nat) => spKey b.core (256 * b.spbase + e.2) + i
    ∃ t g' f', exec (.spst d base off sz sc u none disp flag) s = .next t ∧ t.cur = some (g', f') ∧ Passes f f' ∧
      { t with gangs := s.gangs, sp := s.sp, poison := s.poison, nextOp := s.nextOp } = s ∧ g'.v = g.v ∧ g'.vtag = g.vtag ∧
      (∀ x, (∀ e ∈ l, ∀ i, i < sz.bytes → key e i ≠ x) → Memory.read t.sp x = Memory.read s.sp x) ∧
      ∀ e ∈ l, ∀ i, i < sz.bytes →
        (∀ e' ∈ l, ∀ i', i' < sz.bytes → key e' i' = key e i → e'.1 < e.1 ∨ (e'.1 = e.1 ∧ i' = i)) →
        Memory.read t.sp (key e i) = (regBytes s.clk g d sz.bytes e.1).getD i 0

/-- 01 R22, R21: FLAGGED_OPERATION_COMPLETE of an operation that waits for nothing: its words and tags land, its flag's count falls by one
in every slice it counted in, and the operation is gone; registers it does not write stay, and every scalar register, for a scalar result
of it lands through its mark. -/
def Obligations.FlaggedOperationsComplete : Prop := ∀ (s : State) (g : Gang) (o : AsyncOp) (n : Nat), s.gang? s.gang = some g →
  o ∈ g.asyncs → (∀ x ∈ g.asyncs, x.id = o.id → x = o) → o.hold = 0 → o.flag = some n → g.desched = false →
  (∀ x ∈ g.frags, x.slices &&& o.slices ≠ 0 → ∀ r ∈ o.wr, ∃ m ∈ x.marks, m.issued = true ∧ m.op = o.id + 1 ∧ m.reg = r.1) →
  (∀ p ∈ o.tags, p.1 ∉ g.clash) → (o.vw.map Prod.fst).Nodup → (o.tags.map Prod.fst).Nodup →
  (∀ p ∈ o.tags, { g with asyncs := g.asyncs.filter fun x => x.id != o.id }.busyV p.1 = false) →
  (∀ e ∈ o.vw, ∃ p ∈ o.tags, p.1 = e.1 / 32) → (∀ p ∈ o.tags, ∃ e ∈ o.vw, p.1 = e.1 / 32) →
  ∃ t g', exec (.flaggedOperationComplete o.id) s = .next t ∧ OnlyGang s t ∧ t.gang? s.gang = some g' ∧
    (∀ e ∈ o.vw, FMap.get g'.v e.1 = e.2) ∧ (∀ k, (∀ e ∈ o.vw, e.1 ≠ k) → FMap.get g'.v k = FMap.get g.v k) ∧
    (∀ p ∈ o.tags, g'.tagOf p.1 = p.2) ∧ (∀ r, (∀ p ∈ o.tags, p.1 ≠ r) → g'.tagOf r = g.tagOf r) ∧
    (∀ x ∈ g'.asyncs, x.id ≠ o.id) ∧ g'.xm = g.xm ∧ g'.lm = g.lm ∧ g'.hm = g.hm ∧
    ∀ sl, (g'.copy sl).s = (g.copy sl).s ∧ (g'.copy sl).guards = (g.copy sl).guards ∧
      ∀ m, FMap.get (g'.copy sl).flags m =
        FMap.get (g.copy sl).flags m - if m = n ∧ sl < 4 ∧ o.slices.getLsbD sl = true then 1 else 0

/-- 06 R137, 21 R336, R343, 01 R22: an access that fails a check traps with the lane and the kind in TVAL and the address in TADDR, and
writes nothing; a full flag stalls its item. An offset that outstanding work will write is undefined and raises no fault (01 R21). -/
def Obligations.MemoryFaultsTrap : Prop := ∀ (s : State) (g : Gang) (f : Frag) (d off : VReg) (r base : SReg) (sz : Size) (sx u : Bool)
    (sc : BitVec 2) (disp : BitVec 26) (imm : BitVec 14) (c : Tag) (flag : FlagSel) (lane kind va : Nat),
  let cause := if kind = 10 then Cause.lease else Cause.memory
  let load := Instr.vld d base off sz sx sc u disp c flag
  let store := Instr.vst d base off sz sc u disp flag
  (LaneReady load s g f [] → (g.flagStall f flag = true → exec load s = .next s) ∧
    (g.flagStall f flag = false → g.busyV off.toNat = false →
      firstBad (fun a => s.chk (s.whoGang g) .load a sz.bytes) (globAddrs s.clk g f (g.taking f) base off u sc.toNat disp) =
        some (lane, .bad kind va) →
      Traps load s g f cause (BitVec.ofNat 32 (lane + 256 * kind)) (BitVec.ofNat 64 va) true)) ∧
  (LaneReady store s g f [] → (g.flagStall f flag = true → exec store s = .next s) ∧
    (g.flagStall f flag = false → g.busyV off.toNat = false →
      firstBad (fun a => s.chk (s.whoGang g) .store a sz.bytes) (globAddrs s.clk g f (g.storing f) base off u sc.toNat disp) =
        some (lane, .bad kind va) →
      Traps store s g f cause (BitVec.ofNat 32 (lane + 256 * kind)) (BitVec.ofNat 64 va) true)) ∧
  (s.cur = some (g, f) → f.free [r, base, base + 1] = true → Agree g f (fun k => scalarAddr k base imm) →
    s.chk (s.whoGang g) .load (scalarAddr (g.low f) base imm) 4 = .bad kind va →
    Traps (.sld r base imm) s g f cause (BitVec.ofNat 32 (256 * kind)) (BitVec.ofNat 64 va) false) ∧
  ∀ (w : Who) (acc : Acc) (x : Nat), (leaseOk w.leases acc x = false → s.xlate w acc x = .fail 10) ∧
    (leaseOk w.leases acc x = true → 2 ^ 56 ≤ x → s.xlate w acc x = .fail 1)

/-- 14 R248, R249: what one atomic does to global memory at the L2, when no store of the core to the line is on its way: it returns the
bytes that stood there, and the new ones are the operation's; no other byte changes. -/
def Claims.AtomicsAtTheL2 : Prop :=
  (∀ (s : State) (g : Gang) (va n : Nat) (op : AtomOp) (d nw : Nat), n = 4 ∨ n = 8 →
    let w := s.whoGang g
    let pa := byteAt s w .store va 0
    HeldInDram s w .store va n → va < 2 ^ 56 → pa % n = 0 → pa + n ≤ dramEnd →
    (∀ e ∈ s.path, e.1 = g.core → ∀ c ∈ e.2, c.1 / 64 ≠ pa / 64) →
    let m := leVal ((List.range n).map fun i => Memory.read s.mem (pa + i))
    (s.atomGlob g va n op d nw).1 = m ∧
    (∀ a, Memory.read (s.atomGlob g va n op d nw).2.mem a =
      if pa ≤ a ∧ a < pa + n then BitVec.ofNat 8 (atomNew op (8 * n) m d nw / 2 ^ (8 * (a - pa))) else Memory.read s.mem a) ∧
    (s.atomGlob g va n op d nw).2.gangs = s.gangs ∧ (s.atomGlob g va n op d nw).2.sp = s.sp ∧
    (s.atomGlob g va n op d nw).2.path = s.path) ∧
  ∀ w m d n : Nat, m < 2 ^ w → d < 2 ^ w →
    atomNew .add w m d n = (m + d) % 2 ^ w ∧ atomNew .xchg w m d n = d ∧ atomNew .cas w m d n = (if m = d then n else m) ∧
    atomNew .umin w m d n = min m d ∧ atomNew .umax w m d n = max m d ∧ atomNew .and w m d n = m &&& d ∧
    atomNew .or w m d n = m ||| d ∧ atomNew .xor w m d n = m ^^^ d

/-- 14 R249, R250: ATOM performs one atomic for each storing lane in ascending lane order and gives each lane the value it found, a helper
lane zero; SATOM performs one for the fragment and gives the value to its scalar register. Relaxed order; the release and the acquire
of the other orders are the fences of `Claims.Fences`. -/
def Claims.Atomics : Prop := ∀ (d a off : VReg) (r x y : SReg) (op : AtomOp) (u : Bool) (ms : MScope) (sc : BitVec 2) (disp : BitVec 20)
    (c : Tag) (flag : FlagSel) (ord : Ord) (dw : Bool),
  let n := if dw then 8 else 4
  (∀ s g f, LaneReady (.atom d a (.glob r) off op dw ord ms u sc c flag) s g f [(c, span a (atomData op dw))] →
    g.flagStall f flag = false →
    let l := g.definite off.toNat (s.chkAtom (s.whoGang g) true n) (s.loadBad g n) (globAddrs s.clk g f (g.storing f) r off u sc.toNat 0)
    (∀ e ∈ l, s.chkAtom (s.whoGang g) true n e.2 = .ok ∧ s.poisonAt (s.whoGang g) e.2 n = none) →
    (ordRel ord = true → s.remotePending ms = false) →
    let s0 := if ordRel ord && !l.isEmpty then s.release g.core ms else s
    let done := l.foldl (fun (p : List (Nat × Nat) × State) e =>
      let q := p.2.atomGlob g e.2 n op (laneData s.clk g a.toNat n e.1) (laneData s.clk g (a.toNat + n / 4) n e.1)
      (p.1 ++ [(e.1, q.1)], q.2)) ([], s0)
    let s1 := if ordAcq ord && !l.isEmpty then done.2.acquire g.core ms else done.2
    s1.cur = some (g, f) →
    ∃ t, exec (.atom d a (.glob r) off op dw ord ms u sc c flag) s = .next t ∧ EndsItem g f flag (span d (n / 4)) c
      (fun q lane => match done.1.find? fun e => e.1 == lane with
        | some e => BitVec.ofNat 32 (e.2 / 2 ^ (32 * (q - d.toNat)))
        | none => if (g.storing f).getLsbD lane then Config.freeWord s.clk (0x10000 + 32 * q + lane) else 0) [] s1 t) ∧
  (∀ s g f b, LaneReady (.satom x y (.sp r) 0 op false .rlx ms disp flag) s g f [] → g.flagStall f flag = false →
    s.block? g.block = some b → g.storing f ≠ 0 →
    let ad := spAddr (f.captured (g.actSlice f) r) 0 (disp.signExtend 64)
    ad % 4 = 0 → ad + 4 ≤ b.scratch → s.spBad (some b) 4 ad = none →
    let m := leVal ((List.range 4).map fun i => Memory.read s.sp (spKey b.core (256 * b.spbase + ad) + i))
    let v := atomNew op 32 m (f.captured (g.actSlice f) y).toNat 0
    ∃ t g' f', exec (.satom x y (.sp r) 0 op false .rlx ms disp flag) s = .next t ∧ t.cur = some (g', f') ∧ PassesOn f f' ∧
      (f.boundFlag flag = none → GivesScalars g g' f f' [(x, BitVec.ofNat 32 m)]) ∧
      { t with gangs := s.gangs, sp := s.sp, poison := s.poison, nextOp := s.nextOp } = s ∧
      ∀ k, Memory.read t.sp k =
        if spKey b.core (256 * b.spbase + ad) ≤ k ∧ k < spKey b.core (256 * b.spbase + ad) + 4
        then BitVec.ofNat 8 (v / 2 ^ (8 * (k - spKey b.core (256 * b.spbase + ad)))) else Memory.read s.sp k)

/-- 14 R251, 13 R228, R231: FENCE at cluster scope or wider: its release half puts every store of the core into the L2, its acquire half
also drops every line of the core's L1; at gang and block scope it changes nothing; no register changes. -/
def Claims.Fences : Prop := ∀ (s : State) (g : Gang) (f : Frag) (kind : FenceKind) (ms : MScope), LaneReady (.fence kind ms) s g f [] →
  (kind ≠ .acq → s.remotePending ms = true → exec (.fence kind ms) s = .next s) ∧
  ((kind ≠ .acq → s.remotePending ms = false) →
  ∃ t g' f', exec (.fence kind ms) s = .next t ∧ t.cur = some (g', f') ∧ Passes f f' ∧ { g' with frags := g.frags } = g ∧
    (∀ n, n ≠ s.gang → t.gang? n = s.gang? n) ∧ t.sp = s.sp ∧ t.ring = s.ring ∧ t.cores = s.cores ∧
    (wideScope ms = false → OnlyGang s t) ∧
    (wideScope ms = true → (∀ e ∈ t.path, e.1 ≠ g.core) ∧ (∀ e, e.1 ≠ g.core → (e ∈ t.path ↔ e ∈ s.path)) ∧
      (∀ x, pathByte g.core x s.path ≠ none → Memory.read t.mem x = s.coreByte g.core x) ∧
      (∀ x, pathByte g.core x s.path = none → Memory.read t.mem x = Memory.read s.mem x) ∧
      (kind ≠ .rel → ∀ line, line < 2 ^ 46 → FMap.get t.l1 (l1Key g.core line) = none)))

/-- 14 R252: WAITA completes in the clock in which its condition holds on the word it reads, with that word, as an acquire, or after
256 × TMO clocks; until then the fragment waits. WAITA_COMPLETE and WAITA_TIMEOUT judge a waiting one again. -/
def Claims.WaitsOnMemory : Prop := ∀ (s : State) (g : Gang) (f : Frag) (b : Block) (d a r : SReg) (ne : Bool) (ms : MScope) (tmo : Half),
  let i := Instr.waita d a (.sp r) ne ms tmo
  LaneReady i s g f [] → g.taking f ≠ 0 → s.block? g.block = some b →
  let ad := spAddr (f.captured (g.actSlice f) r) 0 0
  ad % 4 = 0 → ad + 4 ≤ b.scratch → s.spBad (some b) 4 ad = none →
  let x := BitVec.ofNat 32 (leVal ((List.range 4).map fun k => Memory.read s.sp (spKey b.core (256 * b.spbase + ad) + k)))
  let met := (x = f.captured (g.actSlice f) a) ↔ ne = false
  let late := fun (since : Nat) => tmo ≠ 0 ∧ 256 * tmo.toNat ≤ s.clk - since
  let completes := fun (t : State) => ∃ g' f', t.cur = some (g', f') ∧ PassesOn f f' ∧ GivesScalar g g' f f' d x ∧
    { g' with copies := g.copies, frags := g.frags } = g ∧ t.sp = s.sp ∧ (∀ n, n ≠ s.gang → t.gang? n = s.gang? n)
  (f.lwait = .none → met → ∃ t, exec i s = .next t ∧ completes t) ∧
  (f.lwait = .none → ¬ met → ∃ t, exec i s = .next t ∧ WaitsAs g f (.waita s.clk) s t) ∧
  ∀ since n, f.lwait = .waita since → s.itemAt g f = some (i, n) → ∀ ev ∈ [Instr.waitaComplete, .waitaTimeout],
    (met ∨ late since → ∃ t, exec ev s = .next t ∧ completes t) ∧
    (¬ met → ¬ late since → ∃ t, exec ev s = .next t ∧ WaitsAs g f (.waita since) s t)

/-- 14 R253 to R255, 12 R218 to R220: messages. MSEND takes a credit and sets an entry on its way, MQ_ENTRY_ARRIVE writes it to its slot
and advances TAIL, MRECV takes the entry at HEAD and returns a credit, or answers 0 on an empty queue, MQST reads, and MQCFG_WRITE
enables a queue that fits. -/
def Obligations.Messages : Prop :=
  (∀ (s : State) (g : Gang) (f : Frag) (a : VReg) (p q : BitVec 3) (sz : MsgSize) (flag : FlagSel) (bk : Block),
    LaneReady (.msend a (.imm p q) sz flag) s g f [] → g.flagStall f flag = false → g.storing f ≠ 0 →
    s.reachBlock g p.toNat = some bk →
    let key := 8 * p.toNat + q.toNat
    let dst := 8 * clusterOf g.core + p.toNat
    let n := FMap.get (s.core g.core).credits key
    (n = 0 → ∃ t, exec (.msend a (.imm p q) sz flag) s = .next t ∧ WaitsAs g f .held s t) ∧
    (n ≠ 0 → ∃ t g' f' o, exec (.msend a (.imm p q) sz flag) s = .next t ∧ t.cur = some (g', f') ∧ f'.spc = f.spc ∧
      FMap.get (t.core g.core).credits key = n - 1 ∧ g'.asyncs = g.asyncs ++ [o] ∧ o.id = s.nextOp ∧ o.hold = 1 ∧
      (FMap.get (t.core dst).mqs q.toNat).arrived = (FMap.get (s.core dst).mqs q.toNat).arrived ++
        [{ pos := posOf g.core, gang := s.gang, op := s.nextOp, bytes := entryBytes s.clk g a sz.bytes }] ∧
      g'.v = g.v ∧ g'.vtag = g.vtag ∧ t.sp = s.sp)) ∧
  (∀ (s : State) (core : Nat) (q : BitVec 3) (e : MsgEntry) (bid : Nat) (bk : Block),
    let m := FMap.get (s.core core).mqs q.toNat
    firstEntry m.arrived = some e → mqEn m.cfg = true → m.owner = some bid → s.block? bid = some bk →
    let sz := 2 ^ (4 + mqEsz m.cfg)
    let key := spKey bk.core (256 * bk.spbase + (mqBase m.cfg + m.tail.toNat % mqCount m.cfg * sz))
    ∃ t, exec (.mqEntryArrive core q) s = .next t ∧
      FMap.get (t.core core).mqs q.toNat = { m with arrived := m.arrived.erase e, tail := m.tail + 1, senders := m.senders ++ [e.pos] } ∧
      (∀ i, i < sz → Memory.read t.sp (key + i) = e.bytes.getD i 0) ∧
      ∀ x, x < key ∨ key + sz ≤ x → Memory.read t.sp x = Memory.read s.sp x) ∧
  (∀ (s : State) (g : Gang) (f : Frag) (d : VReg) (b : SReg) (sz : MsgSize) (q : BitVec 3) (c : Tag) (flag : FlagSel) (wait : Bool),
    let i := Instr.mrecv d b sz wait q c flag
    let m := FMap.get (s.core g.core).mqs q.toNat
    LaneReady i s g f [] → g.flagStall f flag = false → g.taking f ≠ 0 → mqEn m.cfg = true → m.owner = some g.block →
    (m.head = m.tail → wait = true → ∃ t, exec i s = .next t ∧ WaitsAs g f .held s t) ∧
    (m.head = m.tail → wait = false → ∃ t, exec i s = .next t ∧ EndsItem g f flag [] 0 (fun _ _ => 0) [(b, 0)] s t) ∧
    (m.head ≠ m.tail → s.spBad (s.block? g.block) (min sz.bytes (2 ^ (4 + mqEsz m.cfg))) (mqBase m.cfg + m.head.toNat % mqCount m.cfg * 2 ^ (4 + mqEsz m.cfg)) = none →
      ∃ t g' f', exec i s = .next t ∧ t.cur = some (g', f') ∧ PassesOn f f' ∧ t.sp = s.sp ∧
      (FMap.get (t.core g.core).mqs q.toNat).head = m.head + 1 ∧
      (f.boundFlag flag = none → GivesScalars g g' f f' [(b, 1)] ∧
        ∀ r l, r < sz.regs → Takes g f l → 32 * r + l < sz.bytes / 4 →
          g'.vraw (d.toNat + r) l = BitVec.ofNat 32 (leVal ((List.range 4).map fun k =>
            if 4 * (32 * r + l) + k < 2 ^ (4 + mqEsz m.cfg) then
              Memory.read s.sp (spKey ((s.block? g.block).getD {}).core (256 * ((s.block? g.block).getD {}).spbase +
                (mqBase m.cfg + m.head.toNat % mqCount m.cfg * 2 ^ (4 + mqEsz m.cfg))) + (4 * (32 * r + l) + k))
            else 0))))) ∧
  (∀ (d : SReg) (pos q : BitVec 3),
    LaneGivesScalar (.mqst d .occ pos q) d (fun s g _ =>
      let m := FMap.get (s.core g.core).mqs q.toNat
      BitVec.ofNat 32 ((if mqEn m.cfg then 2 ^ 31 else 0) + mqCount m.cfg * 2 ^ 16 + (m.tail - m.head).toNat)) ∧
    LaneGivesScalar (.mqst d .cred pos q) d fun s g _ =>
      BitVec.ofNat 32 (FMap.get (s.core g.core).credits (8 * pos.toNat + q.toNat))) ∧
  ∀ (s : State) (core gid : Nat) (q : BitVec 3) (v : Word) (g : Gang) (b : Block), s.gang? gid = some g → s.block? g.block = some b →
    b.core = core → mqEn (FMap.get (s.core core).mqs q.toNat).cfg = false → mqEn v = true → mqEsz v ≤ 4 →
    mqBase v + mqCount v * 2 ^ (4 + mqEsz v) ≤ b.scratch →
    ∃ t, exec (.mqcfgWrite core q v (some gid)) s = .next t ∧
      (FMap.get (t.core core).mqs q.toNat).cfg = v &&& 0xFFFC7FFF ∧ (FMap.get (t.core core).mqs q.toNat).owner = some g.block ∧
      (∀ p, p < 8 → FMap.get (t.core (8 * clusterOf core + p)).credits (8 * posOf core + q.toNat) =
        mqCount v / 8 + if p < mqCount v % 8 then 1 else 0) ∧
      t.gangs = s.gangs ∧ t.sp = s.sp

/-- 14 R256 to R258, 12 R226, R227: a hint changes no register, no scratchpad and no ring byte; cache maintenance over a range of taking lanes: L1INV leaves
no line of it in the core's L1, WB and WBINV leave none of it dirty, ICINV none of it in the instruction cache of the context, TLBINV no
translation of the context that meets it, TLBCTX none of the context. -/
def Claims.HintsAndMaintenance : Prop := ∀ (s : State) (g : Gang) (f : Frag) (len base : SReg) (flag : FlagSel) (off : VReg)
    (kind : PrefKind) (sc : BitVec 2) (u : Bool) (disp : BitVec 26),
  (LaneReady (.pref base off kind sc u disp) s g f [] → ∃ t g' f', exec (.pref base off kind sc u disp) s = .next t ∧
    t.cur = some (g', f') ∧ Passes f f' ∧ { g' with frags := g.frags } = g ∧ (∀ n, n ≠ s.gang → t.gang? n = s.gang? n) ∧
    t.sp = s.sp ∧ t.ring = s.ring ∧ t.path = s.path) ∧
  let n := (f.captured (g.actSlice f) len).toNat
  let b := (f.capturedPair (g.actSlice f) base).toNat
  let parts := s.maintParts (s.whoGang g) (b / 64 * 64) ((b + n + 63) / 64 * 64)
  let run := fun (i : Instr) (P : State → Prop) => LaneReady i s g f [] → g.flagStall f flag = false → g.taking f ≠ 0 → n ≠ 0 →
    ∃ t g' f', exec i s = .next t ∧ t.cur = some (g', f') ∧ Passes f f' ∧ g'.v = g.v ∧ g'.vtag = g.vtag ∧ t.sp = s.sp ∧ P t
  run (.cmaintL1inv len base flag) (fun t => t.mem = s.mem ∧ t.path = s.path ∧
    ∀ line, line < 2 ^ 46 → inParts parts.1 line = true → FMap.get t.l1 (l1Key g.core line) = none) ∧
  run (.cmaintWb len base flag) (fun t => t.path = s.path) ∧ run (.cmaintWbinv len base flag) (fun t => t.path = s.path) ∧
  (s.dirtyBase = 0 →
    run (.cmaintWb len base flag) (fun t => ∀ line, inParts parts.1 line = true → FMap.get t.dirty line = false) ∧
    run (.cmaintWbinv len base flag) (fun t => ∀ line, inParts parts.1 line = true → FMap.get t.dirty line = false)) ∧
  run (.cmaintIcinv len base flag) (fun t => t.mem = s.mem ∧ ∀ e ∈ t.icache, e.1 = g.asid →
    ∀ p ∈ parts.1, ¬ (p.1 ≤ 64 * e.2.1 ∧ 64 * e.2.1 < p.1 + p.2.2)) ∧
  run (.cmaintTlbinv len base flag) (fun t => t.path = [] ∧ ∀ e ∈ t.tlb, e.2.1 = g.asid →
    ¬ (e.2.2.1 < (b + n + 65535) / 65536 * 65536 ∧ b / 65536 * 65536 < e.2.2.1 + e.2.2.2.1)) ∧
  (LaneReady (.cmaintTlbctx flag) s g f [] → g.flagStall f flag = false → g.taking f ≠ 0 →
    ∃ t g' f', exec (.cmaintTlbctx flag) s = .next t ∧ t.cur = some (g', f') ∧ Passes f f' ∧ g'.v = g.v ∧ g'.vtag = g.vtag ∧
      t.path = [] ∧ ∀ e ∈ t.tlb, e.2.1 ≠ g.asid)

/-! ### Parallel instructions (08) and the rendezvous (07) -/

/-- 08 R162, R163: the quad instructions; a lane of the quad that is not present counts as zero. -/
def Claims.Quads : Prop := ∀ (d a : VReg) (p n : BitVec 2) (fine : Bool) (c : Tag) (r : Round),
  let at_ := fun (s : State) (g : Gang) (f : Frag) (l : Nat) => if (g.taking f).getLsbD l then laneSrc a s g l else 0
  let diff := float2 c.fcode r fun x y => Val.add r x y.neg
  LaneGives (.qxch d a p) [] d (srcTagOf a) (fun s g f l => at_ s g f (l / 4 * 4 + (l % 4 ^^^ p.toNat))) ∧
  LaneGives (.qbc d a n) [] d (srcTagOf a) (fun s g f l => at_ s g f (l / 4 * 4 + n.toNat)) ∧
  LaneGives (.qddx d a fine c r) [(c, [a.toNat])] d (fun _ _ => c) (fun s g f l =>
    let q := l / 4 * 4 + if fine ∧ 2 ≤ l % 4 then 2 else 0
    diff (at_ s g f (q + 1)) (at_ s g f q)) ∧
  LaneGives (.qddy d a fine c r) [(c, [a.toNat])] d (fun _ _ => c) (fun s g f l =>
    let q := l / 4 * 4 + if fine ∧ l % 2 = 1 then 1 else 0
    diff (at_ s g f (q + 2)) (at_ s g f q))

/-- 08 R164 to R167: votes, shuffles, reductions and scans over the present rows of any scope: the same result in every member, into a
vector register of the taking lanes, a scalar register, or a scalar register slice by slice. -/
def Claims.RowResults : Prop := ∀ (sc : Scope) (d a : VReg) (x : SReg) (b : BSrc) (k : VoteKind) (m : ShflMode) (op : RedOp) (c : Tag)
    (r : Round) (excl : Bool),
  let same := fun (s : State) (_ : Gang) => s
  let rows := fun (s : State) (ps : List Party) => rowsOf s.clk ps a
  let part := fun (s : State) (ps : List Party) (sl : Nat) => (rows s ps).filter fun e => e.1 % 32 / 8 == sl
  let red := fun (s : State) (ps : List Party) => reduce (redComb op c r) (s.rowN sc ps)
  MembersDo (.vote sc (.vec d) a k) sc [] same (fun s ps p g' => WritesRows p g' d.toNat Tag.i32 fun _ => voteOf k (rows s ps)) ∧
  MembersDo (.vote sc (.scal x false) a k) sc [] same (fun s ps p g' =>
    GivesRows p g' x (rows s ps ≠ []) fun _ => some (voteOf k (rows s ps))) ∧
  MembersDo (.vote sc (.scal x true) a k) sc [] same (fun s ps p g' =>
    GivesRows p g' x (rows s ps ≠ []) fun sl => some (voteOf k (part s ps sl))) ∧
  MembersDo (.shfl sc d a b m) sc [] same (fun s ps p g' => WritesRows p g' d.toNat (p.g.srcTag s.clk a.toNat) fun l =>
    rowVal (rows s ps) (shflSrc m (s.rowN sc ps) (32 * p.pos + l) (bVal s.clk p.g (p.fragAt l) b l).toNat)) ∧
  MembersDo (.vred sc (.vec d) a op c r) sc [(c, [a.toNat])] same (fun s ps p g' =>
    WritesRows p g' d.toNat c fun _ => (red s ps (rows s ps)).getD 0) ∧
  MembersDo (.vred sc (.scal x false) a op c r) sc [(c, [a.toNat])] same (fun s ps p g' =>
    GivesRows p g' x (rows s ps ≠ []) fun _ => some ((red s ps (rows s ps)).getD 0)) ∧
  MembersDo (.vred sc (.scal x true) a op c r) sc [(c, [a.toNat])] same (fun s ps p g' =>
    GivesRows p g' x (rows s ps ≠ []) fun sl => red s ps (part s ps sl)) ∧
  MembersDo (.vscan sc d a op excl c r) sc [(c, [a.toNat])] same (fun s ps p g' => WritesRows p g' d.toNat c fun l =>
    rowVal (scanRows (redComb op c r) (scanIdent op c) excl none (rows s ps)) (32 * p.pos + l))

/-- 08 R164 to R167: what the functions over rows are: the votes, the source row of a shuffle, and, for the operations whose order cannot
show, a reduction and a scan as the combination of the present rows in ascending order. -/
def Claims.RowFunctions : Prop :=
  (∀ (rows : List (Nat × Word)),
    (∀ l, l < 32 → ((voteOf .ballot rows).getLsbD l = true ↔ ∃ e ∈ rows, e.1 % 32 = l ∧ e.2 ≠ 0)) ∧
    (voteOf .any rows = 1 ↔ ∃ e ∈ rows, e.2 ≠ 0) ∧ (voteOf .all rows = 1 ↔ ∀ e ∈ rows, e.2 ≠ 0) ∧
    (voteOf .eq rows = 1 ↔ ∀ e ∈ rows, ∀ e' ∈ rows, e.2 = e'.2)) ∧
  (∀ (k : Nat) (rows : List (Nat × Word)) (c : Tag) (r : Round) (op : RedOp), c ∈ [Tag.i32, Tag.n32] →
    rows.Pairwise (fun x y => x.1 < y.1) → (∀ e ∈ rows, e.1 < 2 ^ k) → rows ≠ [] →
    reduce (redComb op c r) (2 ^ k) rows = some ((rows.map Prod.snd).tail.foldl (redComb op c r) ((rows.map Prod.snd).headD 0)) ∧
    ∀ n e, rows[n]? = some e →
      rowVal (scanRows (redComb op c r) (scanIdent op c) false none rows) e.1 =
        ((rows.take (n + 1)).map Prod.snd).foldl (redComb op c r) (scanIdent op c) ∧
      rowVal (scanRows (redComb op c r) (scanIdent op c) true none rows) e.1 =
        ((rows.take n).map Prod.snd).foldl (redComb op c r) (scanIdent op c)) ∧
  (∀ n j b : Nat, shflSrc .idx n j b = b % n ∧ shflSrc .up n j b = (if (j : Int) - b < 0 then j else j - b) ∧
    shflSrc .down n j b = (if j + b ≥ n then j else j + b) ∧ shflSrc .xor n j b = j ^^^ (b % n)) ∧
  ∀ x y : Word, ∀ r, redComb .add Tag.i32 r x y = x + y ∧ redComb .and Tag.n32 r x y = x &&& y ∧
    redComb .min Tag.i32 r x y = BitVec.ofInt 32 (min x.toInt y.toInt) ∧ redComb .max Tag.n32 r x y = BitVec.ofNat 32 (max x.toNat y.toNat)

/-- 07 R147, R148, 08 R168 to R170: a member that is not the last waits at its item with no effect; the last one's arrival issues BAR,
which changes no register, and SETDCL, which declares the set size for the block. -/
def Claims.BarriersAndSets : Prop :=
  (∀ (sc : Scope), MembersDo (.bar sc) sc [] (fun s _ => s) (fun _ ps p g' =>
    { g' with frags := p.g.frags, hist := p.g.hist } = p.g ∧
    g'.hist = p.g.hist.map fun e => (if ∃ q ∈ ps, some q.gid = e.1 then none else e.1, e.2))) ∧
  (∀ (z : BitVec 2), MembersDo (.setdcl z) .b [] (fun s g => match s.block? g.block with
      | some b => s.setBlock g.block { b with setSize := if z = 0 then 0 else 2 ^ z.toNat }
      | none => s)
    (fun _ _ p g' => { g' with frags := p.g.frags } = p.g)) ∧
  ∀ (s : State) (g : Gang) (f : Frag) (sc : Scope) (d a : VReg) (b : BSrc) (op : RedOp) (c : Tag) (r : Round) (z : BitVec 2),
    f.atRdv = false → sc ≠ .l →
    ∀ p ∈ [(Instr.bar sc, sc, []), (.setdcl z, .b, []), (.vote sc (.vec d) a .any, sc, []), (.shfl sc d a b .idx, sc, []),
        (.vred sc (.vec d) a op c r, sc, [(c, [a.toNat])]), (.vscan sc d a op false c r, sc, [(c, [a.toNat])])],
      LaneReady p.1 s g f p.2.2 → (p.2.1 = .s → s.setSize g ≠ 0) →
      (∃ q ∈ (s.updGang s.gang (g.putFrag (f.arrive s.clk))).parties p.2.1 s.gang (g.putFrag (f.arrive s.clk)),
        q.arrived = false) →
      ∃ t, exec p.1 s = .next t ∧ WaitsAs g f (.rendezvous s.clk) s t

/-- 07 R148, R149, 08 R172: RENDEZVOUS_ISSUE issues the item for which a fragment waits, RENDEZVOUS_TIMEOUT traps a fragment whose
rendezvous has not come about within its RDVLIMIT, and a fragment that waits at no rendezvous is left alone by both. -/
def Claims.RendezvousSteps : Prop := ∀ (s : State) (g : Gang) (f : Frag), s.cur = some (g, f) →
  (∀ since n sc, f.lwait = .rendezvous since → s.itemAt g f = some (.bar sc, n) → exec .rendezvousIssue s = exec (.bar sc) s) ∧
  (∀ since n sc d a k, f.lwait = .rendezvous since → s.itemAt g f = some (.vote sc d a k, n) →
    exec .rendezvousIssue s = exec (.vote sc d a k) s) ∧
  (∀ since n, f.lwait = .rendezvous since → s.itemAt g f = some (.regang, n) → exec .rendezvousIssue s = exec .regang s) ∧
  (∀ since, f.lwait = .rendezvous since ∨ f.lwait = .lbar since → ((g.low f).kget 24).toNat ≠ 0 →
    since + ((g.low f).kget 24).toNat ≤ s.clk → s.rdvReady g f = false →
    Traps .rendezvousTimeout s g f .rdvTimeout 0 0 true) ∧
  (f.atRdv = false → exec .rendezvousIssue s = .next s ∧ exec .rendezvousTimeout s = .next s)

/-- 07 R144, 08 R172: fragments merge: FRAGMENT_REGANG takes those that meet the current one, REGANG all of a gang that stand at it; the
merged fragment has all their slices and goes on from where they stand, with every slice's scalar registers, flags and k-registers,
and all lanes' registers and masks, as they were. -/
def Claims.FragmentsMerge : Prop := ∀ (s : State) (g : Gang) (f : Frag), s.cur = some (g, f) → g.exiting = 0 →
  g.frags.Pairwise (fun x y => x.slices &&& y.slices = 0) → (∀ x ∈ g.frags, x.slices ≠ 0 ∧ x.itemLen = f.itemLen) →
  let merged := fun (fs : List Frag) (lpc : Word) (i : Instr) => ∃ t g' m, exec i s = .next t ∧ TraceOnly s t ∧
    (s.traced g = false → OnlyGang s t) ∧ t.gang? s.gang = some g' ∧ m ∈ g'.frags ∧ m.spc = f.spc ∧ m.lpc = lpc ∧
    (∀ sl, m.slices.getLsbD sl = true ↔ ∃ x ∈ fs, x.slices.getLsbD sl = true) ∧
    (∀ x ∈ g'.frags, x ≠ m → x ∈ g.frags ∧ x ∉ fs) ∧
    { g' with copies := g.copies, frags := g.frags, latch := g.latch, trNext := g.trNext, asyncs := g.asyncs } = g ∧
    (g'.asyncs.map fun (x : AsyncOp) => { x with clause := 0 }) = (g.asyncs.map fun (x : AsyncOp) => { x with clause := 0 }) ∧
    ∀ sl, (g'.copy sl).s = (g.copy sl).s ∧ (g'.copy sl).flags = (g.copy sl).flags ∧ (g'.copy sl).k = (g.copy sl).k
  (∀ fs, fs = g.frags.filter (fun x => x.slices == f.slices || g.meets f x) → 1 < fs.length →
    merged fs f.lpc .fragmentRegang) ∧
  ((g.frags.filter fun x => x.slices == f.slices || g.meets f x).length ≤ 1 → exec .fragmentRegang s = .next s) ∧
  (LaneReady .regang s g f [] →
    (g.frags = [f] → ∃ t, exec .regang s = .next t ∧ PassesOnly g f s t) ∧
    (1 < g.frags.length → f.atRdv = false → s.regangReady g f = false → exec .regang s = .next s) ∧
    (1 < g.frags.length → (f.atRdv = true ∨ s.regangReady g f = true) → (∀ x ∈ g.frags, x.slices &&& f.slices = 0 → x.atRdv = true) →
      (∀ x ∈ g.frags, x.lpc = f.lpc ∧ x.spc = f.spc ∧ sameQueue x f = true) →
      (∀ l, s.launch? g.launch = some l → l.cancelled = false) → s.cgHeld g = false →
      merged g.frags (f.lpc + BitVec.ofNat 32 f.itemLen) .regang))

/-- 08 R169, 09 R189: LBAR arrives in a coop launch and is an illegal encoding in any other; LBAR_RELEASE, once every block of the
launch has arrived, takes every fragment past its LBAR, and CLUSTER_ADMIT lets one cluster's gangs go on, 12.5 ns after the last. -/
def Claims.LaunchBarriers : Prop :=
  (∀ (s : State) (g : Gang) (f : Frag) (l : Launch), LaneReady .lbar s g f [] → s.launch? g.launch = some l →
    (l.kd.coop = false → Traps .lbar s g f .illegal 0x80000003 0 true) ∧
    (l.kd.coop = true → f.atRdv = false →
      (let g1 := g.putFrag { f with lwait := .lbar s.clk }
       ∀ p ∈ (s.updGang s.gang g1).parties .b s.gang g1, ∀ x ∈ p.fs, x.lpc = f.lpc) →
      ∃ t, exec .lbar s = .next t ∧ WaitsAs g f (.lbar s.clk) s t)) ∧
  (∀ (s : State) (l : Launch), s.launch? s.subject = some l → FMap.wf s.gangs = true →
    (s.lbarReady s.subject = false → exec .lbarRelease s = .next s) ∧
    (s.lbarReady s.subject = true → ∃ t l', exec .lbarRelease s = .next t ∧ t.launch? s.subject = some l' ∧
      l'.nextAdmit = max s.time l.nextAdmit ∧ (∀ c, c ∈ l'.admitting ↔ ∃ e ∈ s.blockList, e.2.launch = s.subject ∧ clusterOf e.2.core = c) ∧
      l'.lastStart = l'.admitting.head? ∧ t.sp = s.sp ∧ t.ring = s.ring ∧
      ∀ n g, s.gang? n = some g → ∃ g' : Gang, t.gang? n = some g' ∧ { g' with frags := g.frags } = g ∧
        (g.launch ≠ s.subject → g' = g) ∧
        (g.launch = s.subject → (∀ e ∈ t.path, e.1 ≠ g.core) ∧ g'.frags.length = g.frags.length ∧
          ∀ (k : Nat) (x : Frag), g.frags[k]? = some x → ∃ x' : Frag, g'.frags[k]? = some x' ∧ x'.lwait = .lbarReleased ∧ Passes x { x' with lwait := .none }))) ∧
  ∀ (s : State) (l : Launch) (c : Nat) (r : List Nat), s.launch? s.subject = some l → l.admitting = c :: r → FMap.wf s.gangs = true →
    (s.time < l.nextAdmit → exec .clusterAdmit s = .next s) ∧
    (l.nextAdmit ≤ s.time → ∃ t, exec .clusterAdmit s = .next t ∧
      t.launch? s.subject = some { l with admitting := r, nextAdmit := s.time + 819200 } ∧
      { t with gangs := s.gangs, launches := s.launches } = s ∧
      ∀ n g, s.gang? n = some g → t.gang? n = some (if g.launch = s.subject ∧ clusterOf g.core = c then
        { g with frags := g.frags.map fun (x : Frag) => if x.lwait = .lbarReleased then { x with lwait := .none } else x } else g))

/-- 08 R171, R173, R174, 09 R186: GWID reads the gang's width, LEXIT takes the taking lanes out of lm, REFILL gives the vacant lanes of
the fragment's slices the next items of the cluster's queue, in ascending order, marks every slice left with no live lane exiting, and waits
while the queue is empty and the list is not; WORK_ITEM_CHUNK_MOVE brings the next 64 items. -/
def Obligations.WidthExitAndRefill : Prop :=
  (∀ d, LaneGivesScalar (.gwid d) d fun _ g f =>
    BitVec.ofNat 32 (popcount g.live + 16 * f.slices.toNat + 256 * g.live.toNat + 4096 * g.exiting.toNat)) ∧
  (∀ s g f, LaneReady .lexit s g f [] → ∃ t g' f', exec .lexit s = .next t ∧ t.cur = some (g', f') ∧ Passes f f' ∧ TraceOnly s t ∧
    (s.traced g = false → OnlyGang s t) ∧ { g' with lm := g.lm, frags := g.frags } = g ∧
    ∀ l, l < 32 → g'.lm.getLsbD l = (g.lm.getLsbD l && !(g.taking f).getLsbD l)) ∧
  (∀ (s : State) (g : Gang) (f : Frag) (d : VReg) (l : Launch), LaneReady (.refill d) s g f [] → s.launch? g.launch = some l →
    let vacant := (List.range 32).filter fun k => !g.lm.getLsbD k && f.slices.getLsbD (k / 8) && !g.exiting.getLsbD (k / 8)
    let q := FMap.get l.queues (clusterOf g.core)
    let n := min vacant.length q.length
    (vacant ≠ [] → q = [] → l.itemsTaken < l.nitems → exec (.refill d) s = .next s) ∧
    (vacant = [] ∨ q ≠ [] ∨ l.nitems ≤ l.itemsTaken → ∃ t g' f', exec (.refill d) s = .next t ∧ t.cur = some (g', f') ∧ Passes f f' ∧
      t.launch? g.launch = some { l with queues := FMap.put l.queues (clusterOf g.core) (q.drop n) } ∧
      (∀ k v, k < n → vacant[k]? = some v → g'.vraw d.toNat v = q.getD k 0 ∧ g'.lm.getLsbD v = true ∧ g'.xm.getLsbD v = true ∧
        g'.hm.getLsbD v = false) ∧
      (∀ v, v < 32 → v ∉ vacant.take n → g'.vraw d.toNat v = g.vraw d.toNat v ∧ g'.lm.getLsbD v = g.lm.getLsbD v ∧
        g'.xm.getLsbD v = g.xm.getLsbD v ∧ g'.hm.getLsbD v = g.hm.getLsbD v) ∧
      (∀ r v, r ≠ d.toNat → v < 32 → g'.vraw r v = g.vraw r v) ∧ (n ≠ 0 → g'.tagOf d.toNat = Tag.n32) ∧
      (∀ sl, sl < 4 → (g'.exiting.getLsbD sl = true ↔ g.exiting.getLsbD sl = true ∨
        (f.slices.getLsbD sl = true ∧ ∀ v, v < 32 → v / 8 = sl → g'.lm.getLsbD v = false))) ∧
      (∀ sl, g'.copy sl = g.copy sl) ∧ t.sp = s.sp ∧ t.ring = s.ring)) ∧
  ∀ (s : State) (launch cluster : Nat) (l : Launch), s.launch? launch = some l →
    let q := FMap.get l.queues cluster
    let n := min 64 (l.nitems - l.itemsTaken)
    (64 ≤ q.length ∨ l.nitems ≤ l.itemsTaken → exec (.workItemChunkMove launch cluster) s = .next s) ∧
    (q.length < 64 → l.itemsTaken < l.nitems → (∃ e ∈ s.blockList, e.2.launch = launch ∧ clusterOf e.2.core = cluster) →
      ∃ t l', exec (.workItemChunkMove launch cluster) s = .next t ∧ AfterRead s { t with launches := s.launches } ∧
        t.launch? launch = some l' ∧ l'.itemsTaken = l.itemsTaken + n ∧
        FMap.get l'.queues cluster = q ++ (List.range n).map (fun k => BitVec.ofNat 32 (leVal
          ((s.agentGet (s.whoLaunch l) (l.items.toNat + 4 * l.itemsTaken) (4 * n)).1.drop (4 * k) |>.take 4))))

/-! ### Work (08, 09) -/

/-- 08 R175, 09 R181: what one lane's descriptor does: a child launch is added under the next number, with the descriptor's shape, the
lane's parameter and its parent's tree, whose count rises, and its interface's spawn queue; a descriptor not aligned or with a
reserved bit set is refused with status 2, status 1 comes of a full spawn queue, tree or quota alone, and a refused one changes nothing but
what reading its descriptor leaves. The quota is the model's (log entry 28). -/
def Claims.SpawnOne : Prop := ∀ (s : State) (g : Gang) (va : Nat) (param : Dword),
  let b := (s.agentGet (s.whoGang g) va 64).1
  let fl := field b 20 4
  let pl := (s.launch? g.launch).getD {}
  (va % 64 ≠ 0 ∨ fl / 16 ≠ 0 ∨ field b 8 4 = 0 ∨ field b 12 4 = 0 ∨ field b 16 4 = 0 → (s.spawnChild g va param).1 = 2) ∧
  ((s.spawnChild g va param).1 ≤ 2) ∧
  ((s.spawnChild g va param).1 = 1 → 1024 ≤ ((s.iface? g.vi).getD {}).spawns.length ∨ s.jobsFull g.vi = true ∨
    (FMap.get s.trees pl.tree).c = 2 ^ 24 - 1) ∧
  ((s.spawnChild g va param).1 ≠ 0 → AfterRead s (s.spawnChild g va param).2) ∧
  ((s.spawnChild g va param).1 = 0 →
    let t := (s.spawnChild g va param).2
    ∃ l, t.launch? s.nextLaunch = some l ∧ t.nextLaunch = s.nextLaunch + 1 ∧ (∀ n, n ≠ s.nextLaunch → t.launch? n = s.launch? n) ∧
      l.nx = field b 8 4 ∧ l.ny = field b 12 4 ∧ l.nz = field b 16 4 ∧ l.param = param ∧ l.vi = g.vi ∧ l.tree = pl.tree ∧
      l.chain = none ∧ l.dispatched = [] ∧ l.seed = (fl % 2 == 1) ∧ l.agg = (fl / 2 % 2 == 1) ∧
      (FMap.get t.trees pl.tree).c = (FMap.get s.trees pl.tree).c + 1 ∧
      (∀ i, s.iface? g.vi = some i → i.spawns.length < 1024 ∧ t.iface? g.vi = some { i with spawns := i.spawns ++ [s.nextLaunch] }) ∧
      t.feq = s.feq ++ [FeEvent.spawn s.nextLaunch] ∧ t.gangs = s.gangs ∧ t.blocks = s.blocks ∧ t.sp = s.sp ∧ t.path = s.path)

/-- 08 R175: SPAWN of the lanes that are no helpers, in ascending order, gives each its status, and a helper lane 3. -/
def Claims.Spawns : Prop := ∀ (s : State) (g : Gang) (f : Frag) (d a : VReg) (base : SReg) (flag : FlagSel),
  LaneReady (.spawn d a base flag) s g f [] → g.flagStall f flag = false →
  let act := (lanesOf (g.storing f)).map fun l => (l, (f.capturedPair (l / 8) base).toNat)
  (∀ e ∈ act, s.chk (s.whoGang g) .load e.2 64 = .ok ∧ s.poisonAt (s.whoGang g) e.2 64 = none) →
  let all := act.foldl (fun (p : List (Nat × Nat) × State) e =>
    let r := p.2.spawnChild g e.2 (g.vget s.clk (a.toNat + 1) e.1 ++ g.vget s.clk a.toNat e.1)
    (p.1 ++ [(e.1, r.1)], r.2)) ([], s)
  ∃ t, exec (.spawn d a base flag) s = .next t ∧ EndsItem g f flag [d.toNat] Tag.i32
    (fun _ l => BitVec.ofNat 32 (((all.1.find? fun e => e.1 == l).map Prod.snd).getD 3)) [] all.2 t

/-- 08 R176, R177, 09 R188: EVSIG sets each name that its lanes read, as a release: every waiter that does not consume leaves the event,
and the first that consumes takes it; EVCLR clears; EVWAIT takes the names that are set, consuming them where it says so, as an
acquire, and registers for each other one and waits. -/
def Claims.Events : Prop := ∀ (s : State) (g : Gang) (f : Frag) (name : BSrc) (cons : Bool) (i : Iface), s.iface? g.vi = some i →
  g.frags.Pairwise (fun x y => x.slices &&& y.slices = 0) →
  let ns := eventNames s.clk g f name
  (∀ n, n ∈ ns ↔ ∃ l, Takes g f l ∧ (bVal s.clk g f name l).toNat % 65536 = n) ∧
  (LaneReady (.evsig name) s g f [] → ∃ t g' f', exec (.evsig name) s = .next t ∧ t.cur = some (g', f') ∧ PassesOn f f' ∧
    g'.xm = g.xm ∧ g'.lm = g.lm ∧ g'.hm = g.hm ∧ t.sp = s.sp ∧ (ns ≠ [] → ∀ e ∈ t.path, e.1 ≠ g.core) ∧
    ∀ n e, e = s.event g.vi n →
      (n ∉ ns ∨ e.isSet = true → (t.event g.vi n).isSet = e.isSet ∧ (t.event g.vi n).waiters = e.waiters) ∧
      (n ∈ ns → e.isSet = false →
        (t.event g.vi n).isSet = (e.waiters.all fun w => !w.cons) ∧
        (∀ w ∈ (t.event g.vi n).waiters, w ∈ e.waiters ∧ w.cons = true) ∧
        (t.event g.vi n).waiters.length = (e.waiters.filter fun w => w.cons).length - 1)) ∧
  (LaneReady (.evclr name) s g f [] → ∃ t g' f', exec (.evclr name) s = .next t ∧ t.cur = some (g', f') ∧ Passes f f' ∧
    { g' with frags := g.frags } = g ∧ { t with gangs := s.gangs, ifaces := s.ifaces } = s ∧
    ∀ n, (t.event g.vi n).isSet = ((s.event g.vi n).isSet && !ns.contains n) ∧
      (t.event g.vi n).waiters = (s.event g.vi n).waiters) ∧
  (LaneReady (.evwait name cons .none) s g f [] → (∀ r, f.lwait ≠ .evwait r) →
    ((∀ n ∈ ns, (s.event g.vi n).isSet = true) → ∃ t g' f', exec (.evwait name cons .none) s = .next t ∧ t.cur = some (g', f') ∧
      Passes f f' ∧ { g' with frags := g.frags } = g ∧ t.sp = s.sp ∧ (ns ≠ [] → ∀ e ∈ t.path, e.1 ≠ g.core) ∧
      ∀ n, (t.event g.vi n).isSet = ((s.event g.vi n).isSet && !(cons && ns.contains n))) ∧
    ((∃ n ∈ ns, (s.event g.vi n).isSet = false) → ∃ t g' f' o, exec (.evwait name cons .none) s = .next t ∧ t.cur = some (g', f') ∧
      f' = { f with lwait := .evwait s.nextOp } ∧ g'.asyncs = g.asyncs ++ [o] ∧ o.id = s.nextOp ∧
      o.hold = (ns.filter fun n => !(s.event g.vi n).isSet).length ∧
      ∀ n, (n ∈ ns → (s.event g.vi n).isSet = false → (t.event g.vi n).waiters =
          (s.event g.vi n).waiters ++ [{ gang := s.gang, op := s.nextOp, cons := cons }]) ∧
        (n ∉ ns ∨ (s.event g.vi n).isSet = true → (t.event g.vi n).waiters = (s.event g.vi n).waiters))) ∧
  ∀ w o, s.feq.findSome? (fun e => match e with
      | .spilled w => some w
      | _ => none) = some w → w.gang = s.gang → o ∈ g.asyncs → o.id = w.op → (∀ x ∈ g.asyncs, x.id = o.id → x = o) →
    s.gang? s.gang = some g → 2 ≤ o.hold →
    ∃ t g', exec .spilledWaiterComplete s = .next t ∧ t.feq = s.feq.erase (.spilled w) ∧ t.gang? s.gang = some g' ∧
      { o with hold := o.hold - 1 } ∈ g'.asyncs ∧ { g' with asyncs := g.asyncs } = g ∧ { t with feq := s.feq, gangs := s.gangs } = s

/-- 09 R182, R183: a launch whose blocks have all ended and been reported completes once, and its tree's count falls; at zero the root's
packet gets its report. An aggregation group closes 1 µs after it opened, or at 256 launches or 4,096 blocks, into one merged grid whose
table gives each member's parameter, first block and block count, in the order of joining. -/
def Claims.LaunchesEnd : Prop :=
  (∀ (s : State) (l : Launch), s.launch? s.subject = some l →
    (l.complete = true ∨ l.h < l.nx * l.ny * l.nz → exec .launchComplete s = .next s) ∧
    (l.complete = false → l.nx * l.ny * l.nz ≤ l.h → ∃ t, exec .launchComplete s = .next t ∧
      (FMap.get t.trees l.tree).c = (FMap.get s.trees l.tree).c - 1 ∧
      t.launch? s.subject = some { l with complete := true } ∧ t.gangs = s.gangs ∧ t.blocks = s.blocks ∧
      ((FMap.get s.trees l.tree).c ≠ 1 → t.queues = s.queues ∧ t.mem = s.mem))) ∧
  (∀ (s : State) (qn idx : Nat) (q : Queue) (p : Packet) (bs : List Byte), s.queue? qn = some q → q.mapped = none →
    p ∈ q.packets → p.idx = idx →
    ∃ q', (s.packetDone qn idx bs).queue? qn = some q' ∧ { p with report := some bs } ∈ q'.packets ∧
      { q' with packets := q.packets } = q) ∧
  ∀ (s : State) (a : AggGroup), s.groups[s.subject]? = some a →
    (a.closed = false → a.since + 1000 ≤ s.ns ∨ 256 ≤ a.members.length ∨ 4096 ≤ a.blocks →
      ∃ tab, exec .aggregationGroupClose s = .next { s with groups := s.groups.set s.subject { a with closed := true, table := tab } } ∧
        tab.length = (a.members.filter fun m => (s.launch? m).isSome).length ∧
        (∀ m ∈ a.members, ∀ l, s.launch? m = some l → ∃ at_, (l.param, at_, l.blocks) ∈ tab) ∧
        ∀ (k : Nat) (e : Dword × Nat × Nat), tab[k]? = some e → e.2.1 = ((tab.take k).map fun x => x.2.2).sum) ∧
    (a.closed = true ∨ (s.ns < a.since + 1000 ∧ a.members.length < 256 ∧ a.blocks < 4096) → exec .aggregationGroupClose s = .next s)

/-- 21 R344: LAUNCH_CANCEL marks the launch cancelled at the present time and takes it from its spawn queue; HANDLER_CANCEL_TIMEOUT ends a
handler of a cancelled launch 4,000 ns later, and not before. -/
def Claims.Cancellation : Prop :=
  (∀ (s : State) (l : Launch), s.launch? s.subject = some l → l.chain = none → l.cancelled = false → s.gangsOf s.subject = [] →
    ∃ t l', exec .launchCancel s = .next t ∧ t.launch? s.subject = some l' ∧ l'.cancelled = true ∧
      (FeEvent.spawn s.subject) ∉ t.feq ∧ (∀ i, t.iface? l.vi = some i → s.subject ∉ i.spawns) ∧
      t.gangs = s.gangs ∧ ∀ c, ∀ x ∈ (t.core c).copies, x.launch ≠ some s.subject) ∧
  (∀ (s : State) (g : Gang) (f : Frag) (x : Nat), s.cur = some (g, f) → f.cancelled = some x →
    (s.ns < x + 4000 → exec .handlerCancelTimeout s = .next s) ∧
    (x + 4000 ≤ s.ns → (∃ y ∈ g.frags, y.slices &&& f.slices = 0) → ∃ t, exec .handlerCancelTimeout s = .next t ∧ TraceOnly s t ∧
      t.gang? s.gang = some { g with frags := g.frags.filter (fun y => y.slices &&& f.slices == 0)
                                     live := g.live &&& ~~~f.slices, lm := g.lm &&& ~~~sliceMask f.slices })) ∧
  ∀ (s : State) (g : Gang) (f : Frag) (c : Cause) (tval : Word) (taddr : Dword) (lane : Bool) (l : Launch), s.cur = some (g, f) →
    c ≠ .preempt → (f.inHandler = true ∨ (g.low f).kget64 0 = 0) → s.launch? g.launch = some l → l.cancelled = false → l.chain = none →
    l.errRec = none → ∃ t l', exec (.trapEntry c tval taddr lane) s = .next t ∧ t.launch? g.launch = some l' ∧ l'.cancelled = true ∧
      ∃ e, l'.errRec = some e ∧ e.code = c.code ∧ e.tval = tval ∧ e.taddr = taddr ∧ e.core = g.core ∧ e.gang = g.idx ∧
        e.slices = f.slices ∧ e.time = s.ns ∧ e.source = if f.inHandler then 2 else 0

/-- 08 R176, R177, 09 R187, R188: named events. -/
def Obligations.NamedEvents : Prop := Claims.Events
/-- 08 R175, 09 R181 to R183, 21 R344: launches are spawned, complete and are cancelled. -/
def Obligations.LaunchesSpawnAndEnd : Prop :=
  Claims.SpawnOne ∧ Claims.Spawns ∧
  Claims.LaunchesEnd ∧ Claims.Cancellation

/-! ### The matrix engine (15, 17) -/

/-- 17 R291 to R296, 15 R264, R270: the matrix commands of scope L issue with their operands captured, once their tags and addresses pass:
MMA and MVM with the tags of the A run, the tile and the accumulator, TLD, TST, TZR, ACCZ, ACCRD and ACCWR. -/
def Claims.MatrixIssue : Prop := ∀ (d : AReg) (a v : VReg) (tt : TReg) (h : Handle) (bc : BitVec 5) (br : BitVec 2) (reuse sc : Bool)
    (base : Base) (disp : BitVec 26) (n : NCols) (c0 : BitVec 5) (c : Tag) (e : EngCtl),
  let same := fun (_ : State) (_ : Gang) (_ : Frag) (x : Cmd) => x
  let at_ := fun (g : Gang) (f : Frag) => tileAddr f (lowTaking f (g.taking f)) base disp
  Issues (.mma .l d a tt bc reuse c e) e .matrix (fun s g _ => s.mmaTags s.gang g a tt c bc d = none) same ∧
  Issues (.mvm d a h bc br reuse c e) e .matrix (fun s g f => matTags g (s.accTagAhead s.gang g d.toNat) a c bc.toNat br.toNat d = none ∧
      (∀ r, h = .vec r → g.busyV r.toNat = false → intTagPass Tag.i32 (g.tagOf r.toNat) = true) ∧
      ∀ l, Takes g f l → handleChk (s.block? g.block) (mvmHandle s.clk g (s.block? g.block) f h l) = .ok ∨ ∃ r, h = .vec r ∧ g.busyV r.toNat = true)
    (fun s g f x => { x with data := (List.range 32).map fun l => BitVec.ofNat 32 (mvmHandle s.clk g (s.block? g.block) f h l) }) ∧
  Issues (.tld tt base sc disp c e) e .matrix
    (fun s g f => g.taking f ≠ 0 → s.tileChk g base .load (if sc then 2560 else 2048) (at_ g f) = .ok)
    (fun _ g f x => { x with addr := BitVec.ofNat 64 (at_ g f) }) ∧
  Issues (.tst tt base sc disp e) e .matrix
    (fun s g f => g.taking f ≠ 0 → s.tileChk g base .store (if sc then 2560 else 2048) (at_ g f) = .ok)
    (fun _ g f x => { x with addr := BitVec.ofNat 64 (at_ g f) }) ∧
  Issues (.tzr tt c e) e .matrix (fun _ _ _ => True) same ∧ Issues (.accz d c e) e .matrix (fun _ _ _ => True) same ∧
  Issues (.accrd v d n c0 e) e .matrix (fun _ _ _ => True) same ∧
  Issues (.accwr d v n c0 e) e .matrix (fun s g _ => (∀ r ∈ g.settled v n.count, g.tagOf r = accwrTag s.clk g v n.count) ∧
      accTagOk (accwrTag s.clk g v n.count) = true)
    (fun s g _ x => { x with addr2 := (accwrTag s.clk g v n.count).setWidth 64 })

/-- 15 R264, 21 R336, 17 R292: an A run of the wrong class is a format fault that names the register; under a guard that is still
unresolved the command waits instead, with nothing changed. -/
def Claims.MatrixChecks : Prop := ∀ (s : State) (g : Gang) (f : Frag) (d : AReg) (a : VReg) (tt : TReg) (bc : BitVec 5) (reuse : Bool)
    (c : Tag) (e : EngCtl) (r : Nat), LaneReady (.mma .l d a tt bc reuse c e) s g f [] →
  (g.settled a 16).find? (fun r => (g.tagOf r).fcode != c.fcode) = some r →
  (e.guard = none → Traps (.mma .l d a tt bc reuse c e) s g f .format
    (BitVec.ofNat 32 (r % 256 + 2 ^ 16 * (g.tagOf r).toNat + 2 ^ 24 * c.toNat)) 0 true) ∧
  ∀ n, e.guard = some n → g.guardOut f.slices n = none → ∃ t, exec (.mma .l d a tt bc reuse c e) s = .next t ∧ WaitsAs g f .held s t

/-- 15 R267: MMA under scope G or S, once every member has arrived with the right tags: one command, with a member for each fragment of
each gang, stands at the end of each member gang's queue, and joins each one's open batch. -/
def Claims.MatrixTogether : Prop := ∀ (s : State) (g : Gang) (f : Frag) (sc : Scope) (d : AReg) (a : VReg) (tt : TReg) (bc : BitVec 5)
    (reuse : Bool) (c : Tag) (e : EngCtl) (ps : List Party), sc ≠ .l →
  let i := Instr.mma sc d a tt bc reuse c e
  LaneReady i s g f [] → Gathers s g f sc ps → (∀ p ∈ ps, s.mmaTags (s.gidOf p.g) p.g a tt c bc d = none) →
  (∀ p ∈ ps, p.g.mq.length < 16 ∧ ∀ x ∈ p.fs, p.g.flagStall x e.flag = false) →
  ∃ t x, exec i s = .next t ∧ { t with gangs := s.gangs } = { s with nextOp := s.nextOp + 1 } ∧ x.instr = i ∧ x.id = s.nextOp ∧
    x.guard = none ∧
    x.mates = ps.flatMap (fun p => p.fs.map fun y =>
      { gid := p.gid, lanes := p.g.taking y, slices := y.slices, flag := y.boundFlag e.flag, batch := p.g.nextN }) ∧
    ∀ p ∈ ps, ∃ g', t.gang? p.gid = some g' ∧ PartyPasses p g' ∧ g'.mq = p.g.mq ++ [x] ∧
      g'.openB = some { (p.g.openB.getD {}) with num := p.g.nextN, n := (p.g.openB.getD {}).n + 1, left := (p.g.openB.getD {}).left + 1 } ∧
      g'.v = p.g.v ∧ g'.a = p.g.a

/-- 15 R269: MATRIX_COMMAND_START: an idle engine takes the command at the head of the queue of the gang whose turn it is, with the steps
of its first operation; a busy engine takes none. -/
def Claims.MatrixStarts : Prop := ∀ (s : State) (g : Gang) (x : Cmd) (r : List Cmd), s.gang? s.subject = some g → g.mq = x :: r →
  x.guard = none → (∀ m ∈ x.mates, m.gid = s.subject) → x.mates ≠ [] →
  ((∃ e ∈ s.gangList, e.2.core = g.core ∧ e.2.running ≠ none) → exec .matrixCommandStart s = .next s) ∧
  ((∀ e ∈ s.gangList, e.2.core = g.core → e.2.running = none) → s.nextMatrix g.core = some s.subject →
    ∃ t, exec .matrixCommandStart s = .next t ∧ t.gang? s.subject = some { g with mq := r, running := some x, steps := opSteps x } ∧
      (t.core g.core).lastMx = g.slotNo + 1 ∧ (∀ n, n ≠ s.subject → t.gang? n = s.gang? n) ∧
      { t with gangs := s.gangs, cores := s.cores } = s)

/-- 15 R265, R269, 02 R52 to R54: MATRIX_OPERATION_COMPLETE of a command of one member, in the rows of its lanes: MMA adds to each element
the products along its depth, MVM with the panel at its lanes' one handle, ACCZ clears, ACCWR and ACCRD move columns, TZR clears a tile; the batch has one command less to go. While
a step is still to start, nothing happens. -/
def Claims.MatrixEffects : Prop := ∀ (s : State) (g : Gang) (x : Cmd) (m : Mate) (bk : Block), s.gang? s.subject = some g →
  g.running = some x → x.mates = [m] → m.gid = s.subject → m.flag = none → s.block? g.block = some bk → EnginesQuiet g → g.mq = [] →
  g.frags ≠ [] → s.opHolds s.subject x.id = 0 → g.bad = [] → bk.bad = [] → s.poison = [] →
  (g.steps ≠ 0 → exec .matrixOperationComplete s = .next s) ∧
  (g.steps = 0 →
    let runs := fun (P : Gang → Prop) => ∃ t g', exec .matrixOperationComplete s = .next t ∧ t.gang? s.subject = some g' ∧ g'.running = none ∧
      (∀ b, g.openB = some b → m.batch = g.nextN → g'.openB = some { b with left := b.left - 1 }) ∧ g'.frags = g.frags ∧
      g'.copies = g.copies ∧ t.mem = s.mem ∧ t.sp = s.sp ∧ P g'
    let accs := fun (d : AReg) (tag : Tag) (val : Nat → Nat → Word) (keep : Nat → Bool) => runs fun g' => g'.v = g.v ∧
      (∀ k r col, r < 32 → col < 32 → g'.aget k r col =
        if k = d.toNat ∧ m.lanes.getLsbD r = true ∧ keep col = true then val r col else g.aget k r col) ∧
      ∀ k, g'.atagOf k = if k = d.toNat ∧ m.lanes ≠ 0 then tag else g.atagOf k
    (∀ d a t bc reuse c e, x.instr = .mma .l d a t bc reuse c e →
      accs d (resultTag c.fcode) (fun r col => matElem (tilePanel s.clk g bk t.toNat) c.fcode bc.toNat (hnExp (g.tagOf a.toNat).rot)
        (fun j => elem c.fcode (g.engV s.clk (a.toNat + j / elemsPerWord c.fcode) r (j % elemsPerWord c.fcode)) (j % elemsPerWord c.fcode))
        (g.engA s.clk d.toNat r col) col) fun _ => true) ∧
    (∀ d a h bc br reuse c e (y : Word), x.instr = .mvm d a h bc br reuse c e → m.lanes ≠ 0 → y.toNat ≠ noHandle →
      (∀ l, m.lanes.getLsbD l = true → x.data.getD l 0 = y) →
      accs d (resultTag c.fcode) (fun r col => matElem (s.spPanel g bk y.toNat) c.fcode bc.toNat (hnExp (g.tagOf a.toNat).rot)
        (fun j => elem c.fcode (g.engV s.clk (a.toNat + j / elemsPerWord c.fcode) r (j % elemsPerWord c.fcode)) (j % elemsPerWord c.fcode))
        (g.engA s.clk d.toNat r col) col) fun _ => true) ∧
    (∀ d c e, x.instr = .accz d c e → accs d c (fun _ _ => 0) fun _ => true) ∧
    (∀ d v n c0 e, x.instr = .accwr d v n c0 e → c0.toNat + n.count ≤ 32 →
      accs d (x.addr2.setWidth 7) (fun r col => g.engV s.clk (v.toNat + (col - c0.toNat)) r 0)
        fun col => decide (c0.toNat ≤ col) && decide (col < c0.toNat + n.count)) ∧
    (∀ v d n c0 e, x.instr = .accrd v d n c0 e → runs fun g' => g'.a = g.a ∧
      (∀ r l, l < 32 → g'.vraw r l = if v.toNat ≤ r ∧ r < v.toNat + n.count ∧ m.lanes.getLsbD l = true then
        g.engA s.clk d.toNat l (c0.toNat + (r - v.toNat)) else g.vraw r l) ∧
      ∀ r, g'.tagOf r = if v.toNat ≤ r ∧ r < v.toNat + n.count ∧ m.lanes ≠ 0 then g.atagOf d.toNat else g.tagOf r) ∧
    (∀ tt c e, x.instr = .tzr tt c e → m.lanes ≠ 0 → g.clash = [] →
      bk.gangs = [s.subject] → ∃ t b', exec .matrixOperationComplete s = .next t ∧ t.block? g.block = some b' ∧
        FMap.get b'.ttag tt.toNat = c ∧
        ∀ k i, i < 2048 → FMap.get b'.tdata (2048 * k + i) = if k = tt.toNat then 0 else FMap.get bk.tdata (2048 * k + i)))

/-- 15 R270, R272, R275, 17 R297: MFENCE closes the open batch under the next number, MWAIT waits until its batch has completed and gives
back what it names, OPRDY covers every write so far, BATCH_COMPLETE retires the lowest batch, as a machine check where a command of it
read poison, and the governor opens a window of 256 clocks, counted from module reset, and takes its budget. -/
def Claims.BatchesAndBudget : Prop := ∀ (s : State) (g : Gang) (f : Frag) (d : SReg) (n : Byte),
  (LaneReady .oprdy s g f [] → ∃ t g' f', exec .oprdy s = .next t ∧ OnlyGang s t ∧ t.cur = some (g', f') ∧ Passes f f' ∧
    g'.hist = g.hist.filter (fun e => e.1.isSome) ∧ { g' with hist := g.hist, frags := g.frags } = g) ∧
  (LaneReady (.mfence d) s g f [] →
    (16 ≤ g.batches.length → ∃ t, exec (.mfence d) s = .next t ∧ WaitsAs g f .held s t) ∧
    (g.batches.length < 16 → ∃ t g' f', exec (.mfence d) s = .next t ∧ OnlyGang s t ∧ t.cur = some (g', f') ∧ PassesOn f f' ∧
      g'.batches = g.batches ++ [{ g.openB.getD {} with num := g.nextN }] ∧ g'.openB = none ∧ g'.nextN = g.nextN + 1 ∧
      GivesScalars g g' f f' [(d, g.nextN.setWidth 32)] ∧
      { g' with batches := g.batches, openB := g.openB, nextN := g.nextN, named := g.named, copies := g.copies, frags := g.frags } = g)) ∧
  (LaneReady (.mwait (.imm n)) s g f [] →
    ((∃ b ∈ g.batches, b.num = n) → ∃ t, exec (.mwait (.imm n)) s = .next t ∧ WaitsAs g f .held s t) ∧
    ((∀ b ∈ g.batches, b.num ≠ n) → g.clash = [] → ∃ t g' f', exec (.mwait (.imm n)) s = .next t ∧ t.cur = some (g', f') ∧ Passes f f' ∧
      (∀ k, (some n, k) ∉ g'.named) ∧ (∀ k b, b ≠ some n → ((b, k) ∈ g'.named ↔ (b, k) ∈ g.named)) ∧
      { g' with named := g.named, frags := g.frags } = g)) ∧
  (∀ b r, s.gang? s.subject = some g → g.batches = b :: r →
    (b.left ≠ 0 → exec .batchComplete s = .next s) ∧
    (b.left = 0 → b.poison = none → g.frags ≠ [] → ∃ t, exec .batchComplete s = .next t ∧ OnlyGang { s with gang := s.subject } { t with gang := s.subject } ∧
      t.gang? s.subject = some { g with batches := r }) ∧
    (∀ pa, b.left = 0 → b.poison = some pa → s.subject = s.gang → s.cur = some (g, f) → g.frags.head? = some f → f.inHandler = false →
      (g.low f).kget64 0 ≠ 0 → ∃ t, exec .batchComplete s = .next t ∧
        EntersHandler { g with batches := r } f .machineCheck (BitVec.ofNat 32 (6 + 256 * b.num.toNat)) (BitVec.ofNat 64 pa) true s t)) ∧
  ((s.core s.subject).window = (s.clk - s.clk0) / 256 → exec .governorWindow s = .next s) ∧
  ((s.core s.subject).window ≠ (s.clk - s.clk0) / 256 → ∃ t, exec .governorWindow s = .next t ∧
    t.core s.subject = { s.core s.subject with window := (s.clk - s.clk0) / 256, started := 0 } ∧ { t with cores := s.cores } = s) ∧
  ∀ (core : Nat) (v : Word), ∃ t, exec (.mgbudgetWrite core v) s = .next t ∧ t.core core = { s.core core with mgbudget := v.extractLsb' 0 9 } ∧
    (∀ c, c ≠ core → t.core c = s.core c) ∧ { t with cores := s.cores } = s

/-- 17 R291 to R296, 15 R264, R267: matrix commands issue. -/
def Obligations.MatrixCommandsIssue : Prop := Claims.MatrixIssue ∧ Claims.MatrixChecks ∧ Claims.MatrixTogether
/-- 15 R265, R269, R270, R272, R275, 17 R297: the matrix engine runs its commands and batches. -/
def Obligations.MatrixEngineRuns : Prop := Claims.MatrixStarts ∧ Claims.MatrixEffects ∧ Claims.BatchesAndBudget

/-! ### Copies and the decompression engine (16, 17) -/

/-- 16 R278, R279, R280, R282: TEMPLATE_WRITE sets the bytes and the owner of each template it touches; BTE_APERTURE_STORE is held while its
slot is BUSY, ends in code 1 on a template that its starter may not use, and else makes the slot BUSY with the bits of the chunks that
the copy writes nothing in; it uses its template as that stood at the clock's start, and a gang's start is a release. -/
def Claims.CopyStarts : Prop :=
  (∀ (s : State) (core off : Nat) (bytes : List Byte) (gid : Option Nat), off + bytes.length ≤ 0x4000 →
    let o : Owner := match gid.bind s.gang? with
      | some g => { sys := g.priv, asid := some g.asid }
      | none => { sys := true, asid := none }
    ∃ t, exec (.templateWrite core off bytes gid) s = .next t ∧ { t with cores := s.cores, poison := s.poison } = s ∧
      (∀ c, c ≠ core → t.core c = s.core c) ∧
      { t.core core with tpl := (s.core core).tpl, towner := (s.core core).towner, tpl0 := (s.core core).tpl0 } = s.core core ∧
      (t.core core).tplStart = (s.core core).tplStart ∧
      (∀ a, FMap.get (t.core core).tpl a = if off ≤ a ∧ a < off + bytes.length then bytes.getD (a - off) 0
        else FMap.get (s.core core).tpl a) ∧
      ∀ k, FMap.get (t.core core).towner k = if 64 * k < off + bytes.length ∧ off < 64 * k + 64 ∧ bytes ≠ [] then o
        else FMap.get (s.core core).towner k) ∧
  (∀ (s : State) (core : Nat) (chan : BitVec 4) (w : Word) (gid : Option Nat),
    let slot := w.toNat / 2 ^ 8 % 2 ^ 9
    let tidx := w.toNat % 2 ^ 8
    let k := s.core core
    (let i := Instr.bteApertureStore core chan w gid
     ((FMap.get k.slots slot).st = 1 → ∃ t, exec i s = .next t ∧ { t with cores := s.cores } = s ∧
      t.core core = { k with held := k.held ++ [{ chan := chan.toNat, word := w, gang := gid, op := none, win := gid.isNone }] }) ∧
     (∀ n g, (FMap.get k.slots slot).st ≠ 1 → gid = some n → s.gang? n = some g → g.priv = false → (FMap.get k.tplStart.2 tidx).sys = true →
      ∃ t, exec i s = .next t ∧ (FMap.get (t.core core).slots slot).st = 3 ∧ (FMap.get (t.core core).slots slot).err = 1 ∧
        (FMap.get (t.core core).slots slot).tidx = tidx ∧ (FMap.get (t.core core).slots slot).chan = chan.toNat ∧
        (∀ e ∈ t.path, e.1 ≠ g.core)) ∧
     (∀ n g, (FMap.get k.slots slot).st ≠ 1 → gid = some n → s.gang? n = some g →
      let tp := s.template core tidx
      let x : CopySlot := { st := 1, err := 0, tidx := tidx, chan := chan.toNat, bits := idleBits tp [] }
      let c : Copy := { slot := slot, chan := chan.toNat, tpl := tp, launch := some g.launch, block := some g.block, gang := some n
                        sys := g.priv, asid := some g.asid }
      Tpl.len tp = false → (∀ y ∈ k.copies, y.slot ≠ slot) →
      State.copyCheck ((s.release g.core .device).updCore core fun k =>
          { k with slots := FMap.put k.slots slot x, copies := k.copies ++ [c] }) core
        (s.starter gid) w (FMap.get k.tplStart.2 tidx) tp .bad = .pass →
      ∃ t, exec i s = .next t ∧ FMap.get (t.core core).slots slot = x ∧ (∀ e ∈ t.path, e.1 ≠ g.core) ∧ t.gangs = s.gangs ∧
        (t.core core).copies = k.copies ++ [c]))) ∧
  ∀ t : List Byte, Tpl.len t = false → Tpl.red t = 0 → Tpl.dst t + Tpl.size t ≤ 2 ^ 64 →
    ∀ j, j < 128 → (idleBits t []).getLsbD j = decide (Tpl.size t ≤ 512 * j)

/-- 16 R281 to R283: COPY_CHUNK_COMPLETE of a plain copy between physical ranges of DRAM puts exactly the chunk's bytes in their places
and sets its bit; COPY_COMPLETE, once every bit is set, makes the slot DONE, and does nothing before. -/
def Claims.CopiesLand : Prop :=
  (∀ (s : State) (core slot chunk : Nat) (c : Copy),
    let k := s.core core
    let sl := FMap.get k.slots slot
    let i := Instr.copyChunkComplete core slot chunk
    let t := c.tpl
    k.copies.find? (fun c => c.slot == slot) = some c →
    (c.parked = true ∨ k.firstOfChannel c = false ∨ sl.st ≠ 1 ∨ 128 ≤ chunk ∨ sl.bits.getLsbD chunk = true → exec i s = .next s) ∧
    (c.parked = false → k.firstOfChannel c = true → sl.st = 1 → chunk < 128 → sl.bits.getLsbD chunk = false →
      Tpl.len t = false → Tpl.red t = 0 → Tpl.ten t = false → Tpl.ssp t = 2 → Tpl.dsp t = 2 →
      Tpl.src t + Tpl.size t ≤ dramEnd → Tpl.dst t + Tpl.size t ≤ dramEnd →
      (Tpl.src t + Tpl.size t ≤ Tpl.dst t ∨ Tpl.dst t + Tpl.size t ≤ Tpl.src t) → (∀ l, FMap.get s.poison l = false) →
      (∀ e ∈ s.path, e.1 ≠ core) →
      ∃ u, exec i s = .next u ∧ FMap.get (u.core core).slots slot = { sl with bits := putBit sl.bits chunk true } ∧
        u.gangs = s.gangs ∧ u.sp = s.sp ∧ u.path = s.path ∧
        ∀ a, Memory.read u.mem a =
          if Tpl.dst t ≤ a ∧ a < Tpl.dst t + Tpl.size t ∧ min 127 ((a - Tpl.dst t) / 512) = chunk
          then Memory.read s.mem (Tpl.src t + (a - Tpl.dst t)) else Memory.read s.mem a)) ∧
  ∀ (s : State) (core slot : Nat) (c : Copy),
    let k := s.core core
    let sl := FMap.get k.slots slot
    k.copies.find? (fun c => c.slot == slot) = some c →
    (sl.bits ≠ BitVec.allOnes 128 → exec (.copyComplete core slot) s = .next s) ∧
    (sl.bits = BitVec.allOnes 128 → c.parked = false → k.firstOfChannel c = true → Tpl.fen c.tpl = false → k.held = [] →
      ∃ t, exec (.copyComplete core slot) s = .next t ∧ { t with cores := s.cores } = s ∧ (∀ n, n ≠ core → t.core n = s.core n) ∧
        t.core core = { k with copies := k.copies.filter fun x => x.slot != slot, slots := FMap.put k.slots slot { sl with st := 2 } })

/-- 17 R299, 16 R281, R282: CBTST and CPSTS read a slot of the core, and CBWAIT waits until every chunk of its mask has landed or the slot
is EMPTY or ERROR; all three leave the slot alone. -/
def Claims.CopyWaits : Prop := ∀ (d a b : SReg) (acq : Bool) (w : BitVec 2),
  let sl := fun (s : State) (g : Gang) (f : Frag) => FMap.get (s.core g.core).slots ((f.captured (g.actSlice f) a).toNat % 512)
  let x := fun (s : State) (g : Gang) (f : Frag) => (sl s g f).bits.extractLsb' (32 * w.toNat) 32 &&& f.captured (g.actSlice f) b
  LaneGivesScalar (.cbtst d a b acq w) d x ∧
  LaneGivesScalar (.cpsts d a) d (fun s g f =>
    BitVec.ofNat 32 (2 ^ 30 * (sl s g f).st + 2 ^ 24 * (sl s g f).err + 2 ^ 16 * (sl s g f).tidx + 2 ^ 12 * (sl s g f).chan)) ∧
  ∀ s g f, LaneReady (.cbwait d a b w) s g f [] →
    let goes := g.taking f = 0 ∨ x s g f = f.captured (g.actSlice f) b ∨ (sl s g f).st = 3 ∨ (sl s g f).st = 0
    (goes → ∃ t g' f', exec (.cbwait d a b w) s = .next t ∧ OnlyGang s t ∧ t.cur = some (g', f') ∧ PassesOn f f' ∧
      { g' with copies := g.copies, frags := g.frags } = g ∧ GivesScalar g g' f f' d (x s g f)) ∧
    (¬ goes → ∃ t, exec (.cbwait d a b w) s = .next t ∧ WaitsAs g f .held s t)

/-- 17 R298, 16 R285: DSUB enters the copy queue with its card's address; RECFL at the queue's head flushes its record from the cluster's
cache at once, and under an unresolved guard waits there; a command of no lane goes without effect. -/
def Claims.CopyCommands : Prop := ∀ (base : SReg) (e : EngCtl),
  let addr := fun (g : Gang) (f : Frag) => f.capturedPair (lowTaking f (g.taking f)) base
  let keeps := fun (g g' : Gang) => g'.cq = [] ∧ g'.v = g.v ∧ g'.a = g.a ∧ g'.xm = g.xm ∧ g'.lm = g.lm ∧ g'.hm = g.hm ∧
    ∀ sl n, FMap.get (g'.copy sl).flags n = FMap.get (g.copy sl).flags n ∧ (g'.copy sl).s = (g.copy sl).s
  Issues (.dsub base e) e .copy (fun s g f => g.taking f ≠ 0 ∧ s.cardChk g (addr g f).toNat = .ok) (fun _ g f x => { x with addr := addr g f }) ∧
  Issues (.recfl base e) e .copy (fun _ g f => g.taking f ≠ 0 ∧ e.guard ≠ none) (fun _ g f x => { x with addr := addr g f }) ∧
  ∀ s g f, EnginesQuiet g → e.guard = none → g.flagStall f e.flag = false →
    (LaneReady (.recfl base e) s g f [] → g.taking f ≠ 0 → ∃ t g' f', exec (.recfl base e) s = .next t ∧ t.cur = some (g', f') ∧
      Passes f f' ∧ keeps g g' ∧ t.mem = s.mem ∧
      ∀ r, r ∈ (FMap.get t.clusters (clusterOf g.core)).records ↔
        r ∈ (FMap.get s.clusters (clusterOf g.core)).records ∧ ¬ (r.1 = g.asid ∧ r.2.1 = addr g f)) ∧
    (∀ i ∈ [Instr.dsub base e, .recfl base e], LaneReady i s g f [] → g.taking f = 0 → ∃ t g' f', exec i s = .next t ∧
      t.cur = some (g', f') ∧ Passes f f' ∧ keeps g g' ∧ t.mem = s.mem ∧ t.clusters = s.clusters)

/-- 16 R286 to R288, 17 R298, 20 R333, R334: DDE_JOB_ACCEPT takes the card of the DSUB at a queue's head, as a release, unless 64 wait;
DDE_JOB_END runs the job's stream and turns to the next card; and what each token of a stream does. -/
def Claims.Decompression : Prop :=
  (∀ (s : State) (g : Gang) (x : Cmd) (base : SReg) (e : EngCtl) (m : Mate), s.gang? s.subject = some g → g.cq = [x] → g.rq = [] →
    (∀ y ∈ g.mq, y.guard = none) → x.instr = .dsub base e → x.guard = none → x.mates = [m] → m.flag = none →
    let cl := FMap.get s.clusters (clusterOf g.core)
    (64 ≤ cl.cards.length → exec .ddeJobAccept s = .next s) ∧
    (cl.cards.length < 64 → ∃ t card, exec .ddeJobAccept s = .next t ∧ t.gang? s.subject = some { g with cq := [] } ∧
      (∀ y ∈ t.path, y.1 ≠ g.core) ∧ t.sp = s.sp ∧ card.core = g.core ∧ card.gang = s.subject ∧ card.launch = g.launch ∧
      card.sys = g.priv ∧ card.bytes = ((s.release g.core .device).agentGet { s.whoGang g with user := .dde } x.addr.toNat 64).1 ∧
      (cl.job = none → FMap.get t.clusters (clusterOf g.core) = { cl with job := some card }) ∧
      (cl.job ≠ none → FMap.get t.clusters (clusterOf g.core) = { cl with cards := cl.cards ++ [card] }))) ∧
  (∀ (s : State) (j : DdeCard), (FMap.get s.clusters s.subject).job = some j → j.parked = false →
    let st : Starter := ⟨some j.gang, some j.launch, some j.block, j.sys, some (match s.launch? j.launch with
      | some l => (s.whoLaunch l).asid
      | none => 0), false⟩
    let c := cardFields j.bytes
    let w := { s.whoEngine j.core (some j.launch) j.sys with user := .dde }
    let next := { FMap.get s.clusters s.subject with
      job := (FMap.get s.clusters s.subject).cards.head?, cards := (FMap.get s.clusters s.subject).cards.tail }
    let ends := fun (u : State) => ∃ t, exec .ddeJobEnd s = .next t ∧ FMap.get t.clusters s.subject = next ∧ { t with clusters := s.clusters } = u
    let r := ddeRun (fun p =>
      if (s.poisonAt w (c.src + p) 1).isSome then none else (s.agentRead w (c.src + p) 1).head?) c.slen c.dcap (c.slen + 1) 0 []
    (j.bad = true → ends s) ∧
    (j.bad = false → s.jobCheck j.core st c = .pass →
      ends ((s.installAll w .load c.src (min c.slen (r.used + 3))).jobWrite j.core st c r)) ∧
    (∀ code, j.bad = false → s.jobCheck j.core st c = .err code none → ends (s.jobWrite j.core st c ⟨4, [], 0⟩))) ∧
  (∀ (rd : Nat → Option Byte) (slen dcap n p : Nat) (out : List Byte) (b : Byte), rd p = some b →
    let t := b.toNat
    (slen ≤ p → ddeRun rd slen dcap (n + 1) p out = ⟨3, out, p⟩) ∧
    (p < slen → t = 0xFF → ddeRun rd slen dcap (n + 1) p out = ⟨0, out, p + 1⟩) ∧
    (p < slen → 0xC0 ≤ t → t < 0xFF → ddeRun rd slen dcap (n + 1) p out = ⟨1, out, p⟩) ∧
    (∀ bs, t < 0x40 → p + t + 2 ≤ slen → bs.length = t + 1 → (∀ i, i < t + 1 → rd (p + 1 + i) = bs[i]?) → out.length + t + 1 ≤ dcap →
      ddeRun rd slen dcap (n + 1) p out = ddeRun rd slen dcap n (p + t + 2) (out ++ bs)) ∧
    (∀ x, 0x40 ≤ t → t < 0x80 → p + 2 ≤ slen → rd (p + 1) = some x → t % 8 * 256 + x.toNat + 1 ≤ out.length →
      out.length + (t / 8 % 8 + 3) ≤ dcap →
      ddeRun rd slen dcap (n + 1) p out =
        ddeRun rd slen dcap n (p + 2) (matchBytes (t / 8 % 8 + 3) (t % 8 * 256 + x.toNat + 1) out)) ∧
    (∀ x y, 0x80 ≤ t → t < 0xC0 → p + 3 ≤ slen → rd (p + 1) = some x → rd (p + 2) = some y →
      x.toNat + 256 * y.toNat + 1 ≤ out.length → out.length + (t % 64 + 3) ≤ dcap →
      ddeRun rd slen dcap (n + 1) p out =
        ddeRun rd slen dcap n (p + 3) (matchBytes (t % 64 + 3) (x.toNat + 256 * y.toNat + 1) out))) ∧
  ∀ (n d : Nat) (out : List Byte), 1 ≤ d → d ≤ out.length → (matchBytes n d out).length = out.length + n ∧
    (∀ k, k < out.length → (matchBytes n d out).getD k 0 = out.getD k 0) ∧
    ∀ k, out.length ≤ k → k < out.length + n → (matchBytes n d out).getD k 0 = (matchBytes n d out).getD (k - d) 0

/-- 16 R278 to R283, 17 R299: copies. -/
def Obligations.Copies : Prop := Claims.CopyStarts ∧ Claims.CopiesLand ∧ Claims.CopyWaits
/-- 16 R285 to R288, 17 R298, 20 R333, R334: copy commands and the decompression engine. -/
def Obligations.DecompressionEngine : Prop := Claims.CopyCommands ∧ Claims.Decompression

/-! ### Ring, queries, mesh (17, 18) -/

/-- 17 R307: RINGST sends the pixels of its taking lanes that are no helpers on their way, with their flag raised; a lane whose slot is
not RENDERING, is another chain's, has no such block or another pixel size is a ring-slot violation. RING_STORE_LAND of a pixel
writes its bytes, low word first, at its place in its slot while that is RENDERING for its chain, and no other byte of the ring. -/
def Claims.RingStores : Prop :=
  (∀ (s : State) (g : Gang) (f : Frag) (a : VReg) (b : SReg) (w64 : Bool) (e : EngCtl), LaneReady (.ringst a b w64 e) s g f [] →
    EnginesQuiet g → e.guard = none →
    (∀ v, firstViolation (fun loc => s.ringstBad g loc w64) (fun l => f.captured (l / 8) b) (g.storing f) = some v →
      Traps (.ringst a b w64 e) s g f .ringSlot (BitVec.ofNat 32 (v.1 + 256 * v.2)) 0 true) ∧
    ((∀ l, Takes g f l → g.helpers.getLsbD l = false → s.ringstBad g (f.captured (l / 8) b) w64 = none) →
      g.flagStall f e.flag = false → ∃ t g' f', exec (.ringst a b w64 e) s = .next t ∧ t.cur = some (g', f') ∧ Passes f f' ∧
        Raises g g' f (f.boundFlag e.flag) ∧ g'.rq = [] ∧ g'.v = g.v ∧ t.ring = s.ring ∧ t.mem = s.mem ∧
        t.stores = s.stores ++ [{ gang := s.gang, chain := (s.gangChain g).getD 0 % 2 ^ 64, w64 := w64
                                  pixels := (lanesOf (g.storing f)).map fun l => (l, f.captured (l / 8) b, g.vget s.clk a.toNat l,
                                    if w64 then g.vget s.clk (a.toNat + 1) l else 0)
                                  id := s.nextOp, slices := f.slices, flag := f.boundFlag e.flag }])) ∧
  (∀ (s : State) (g : Gang) (loc : Word) (w64 : Bool),
    let slot := locSlot loc
    (s.slotState slot ≠ 1 → s.ringstBad g loc w64 = some 0) ∧
    (s.slotState slot = 1 → s.ownSlot g slot = false → s.ringstBad g loc w64 = some 1) ∧
    (s.ringstBad g loc w64 = none → s.slotState slot = 1 ∧ s.ownSlot g slot = true ∧ (s.geom slot).hasBlock loc = true ∧
      (s.geom slot).w64 = w64)) ∧
  ∀ (s : State) (r : RingStore) (lane : Nat) (loc lo hi : Word), s.stores[s.subject]? = some r → r.pixels = [(lane, loc, lo, hi)] →
    (∀ x ∈ s.stores.take s.subject, x.gang ≠ r.gang) → (∀ g, s.gang? r.gang = some g → EnginesQuiet g) →
    let geo := s.geom (locSlot loc)
    let a := geo.base + ((4 * locRow loc + lane / 8) * geo.w + (8 * locCol loc + lane % 8)) * geo.ps
    let bs := leOf 4 lo.toNat ++ if r.w64 then leOf 4 hi.toNat else []
    ∃ t, exec .ringStoreLand s = .next t ∧ t.stores = s.stores.eraseIdx s.subject ∧ t.sp = s.sp ∧
      ((∀ c, s.slotChain (locSlot loc) = some c → c.id = r.chain → s.slotState (locSlot loc) ≠ 1) → t.ring = s.ring) ∧
      (∀ c, s.slotChain (locSlot loc) = some c → c.id = r.chain → s.slotState (locSlot loc) = 1 →
        ∀ x, Memory.read t.ring x = if a ≤ x ∧ x < a + bs.length then bs.getD (x - a) 0 else Memory.read s.ring x)

/-- 17 R308, R309: RINGLD without a flag, when no store that it waits for is on its way or at a queue of another gang, gives each taking lane
its pixel of the line: zero at or past the width, what the ring holds in a line that has been written, and a free value in one that has not; SRATE reads the rate of
a tile and whether it was coarsened. -/
def Claims.RingReads : Prop :=
  (∀ (s : State) (g : Gang) (f : Frag) (d : VReg) (b : SReg) (w64 : Bool) (line : Byte) (c : Tag) (e : EngCtl),
    LaneReady (.ringld d b w64 line c e) s g f [] → EnginesQuiet g → e.guard = none → g.clash = [] → (∀ o ∈ g.asyncs, o.id ≠ s.nextOp) →
    g.desched = false → g.busyV d.toNat = false → g.busyV (d.toNat + 1) = false →
    (∀ v, firstViolation (fun loc => s.ringldBad g loc w64 line) (fun l => f.captured (l / 8) b) (g.taking f) = some v →
      Traps (.ringld d b w64 line c e) s g f .ringSlot (BitVec.ofNat 32 (v.1 + 256 * v.2)) 0 true) ∧
    ((∀ l, Takes g f l → s.ringldBad g (f.captured (l / 8) b) w64 line = none) → 
      (∀ x ∈ s.stores, x.gang ≠ s.gang ∧ x.chain ≠ (s.gangChain g).getD 0 % 2 ^ 64) → (∀ x ∈ s.gangList, x.1 ≠ s.gang → x.2.rq = []) →
      s.poison = [] → f.boundFlag e.flag = none → ∃ t g' f', exec (.ringld d b w64 line c e) s = .next t ∧
        OnlyGang { s with nextOp := s.nextOp + 1 } t ∧ t.cur = some (g', f') ∧ Passes f f' ∧
        WritesLanes g g' f (if w64 then [d.toNat, d.toNat + 1] else [d.toNat]) c fun r l w =>
          w = let loc := f.captured (l / 8) b
              let p := s.ringLanePixel (s.geom (locSlot loc)) (s.ringKnown loc line) loc line w64 l
              if r = d.toNat then p.1 else p.2)) ∧
  (∀ (s : State) (loc : Word) (line : Byte) (lane : Nat),
    let geo := s.geom (locSlot loc)
    let x := loc.toNat % 8192 + lane
    let row := (line.toInt + (geo.halo : Int)).toNat
    (∀ k, geo.w ≤ x → s.ringLanePixel geo k loc line false lane = (0, 0)) ∧
    (x < geo.w → s.ringLanePixel geo true loc line false lane = (BitVec.ofNat 32 (leVal ((List.range 4).map fun i =>
      Memory.read s.ring (geo.base + (row * geo.w + x) * geo.ps + i))), 0)) ∧
    (s.ringKnown loc line = true ↔ ∃ c, s.slotChain (locSlot loc) = some c ∧ c.lineKey (locSlot loc) row ∈ c.written)) ∧
  ∀ (s : State) (g : Gang) (f : Frag) (d a : SReg), LaneReady (.srate d a) s g f [] →
    let loc := f.captured (g.actSlice f) a
    (g.taking f = 0 → ∃ t, exec (.srate d a) s = .next t ∧ PassesOnly g f s t) ∧
    (g.taking f ≠ 0 → (∀ c, s.slotChain (locSlot loc) = some c → s.gangChain g ≠ some c.id) →
      Traps (.srate d a) s g f .ringSlot (BitVec.ofNat 32 (locSlot loc + 256 * 5)) 0 true) ∧
    (∀ c, g.taking f ≠ 0 → s.slotChain (locSlot loc) = some c → s.gangChain g = some c.id →
      let t0 := FMap.get c.tiles (locCol loc / 4)
      let r := if t0 = 0 then c.rate else t0 - 1
      ∃ t g' f', exec (.srate d a) s = .next t ∧ OnlyGang s t ∧ t.cur = some (g', f') ∧ PassesOn f f' ∧
        { g' with copies := g.copies, frags := g.frags } = g ∧
        GivesScalars g g' f f' [(d, BitVec.ofNat 32 (r + if c.rate0 < r then 4 else 0))])

/-- 17 R303 to R306: a query enters its slot at once when no earlier query is on it, else its queue, with its operands captured and its
flag raised; QUERY_COMPLETE of the oldest in flight, whose spill slots no program wrote, writes the words of the lanes served, zero where its row gives none, and frees the slot; QRD reads the
words of a slot that has completed, and free values of one that has not; QWAIT waits for it. -/
def Claims.Queries : Prop :=
  (∀ (s : State) (g : Gang) (f : Frag) (a : VReg) (x base : SReg) (q : BitVec 2) (list : BitVec 13) (k1 : BitVec 3) (cont : Bool) (e : EngCtl),
    EnginesQuiet g → e.guard = none → g.flagStall f e.flag = false →
    let addr := fun (l : Nat) => (f.capturedPair (l / 8) base).toNat
    let low := lowTaking f (g.taking f)
    let rays := (∀ r ∈ span a 8, g.busyV r = false → g.tagOf r = Tag.f32) ∧ ∀ l, Takes g f l → s.sceneChk g (addr l) = .ok
    let lists := fun (n : Nat) => g.taking f ≠ 0 → s.listChk g n (64 * list.toNat) = .ok
    let own := s.spillSlots g q.toNat ((lanesOf (g.taking f)).map fun l => (l, addr l))
    let scene := (f.capturedPair low base).toNat
    ∀ p ∈ [(Instr.rayq a base q e, rays, rayData s.clk g f a base, (0 : Dword), own),
        (.ellq a base k1 cont q e, rays, rayData s.clk g f a base, 0, own), (.covq q list e, lists 32, [], 0, []),
        (.beamq x base q list e, (g.taking f ≠ 0 → s.sceneChk g scene = .ok) ∧ lists (s.listBytes g scene), [f.captured low x],
          f.capturedPair low base, s.spillSlots g q.toNat ((List.range 32).map fun l => (l, scene)))],
      LaneReady p.1 s g f [] → p.2.1 → ∃ t g' f', exec p.1 s = .next t ∧ OnlyGang { s with nextOp := s.nextOp + 1 } t ∧
        t.cur = some (g', f') ∧ Passes f f' ∧ Raises g g' f (f.boundFlag e.flag) ∧ g'.v = g.v ∧
        let c : Cmd := { cmdOf s g f p.1 e with data := p.2.2.1, addr := p.2.2.2.1, own := p.2.2.2.2 }
        ((FMap.get g.queries q.toNat).cmd = none → g'.rq = [] ∧
          FMap.get g'.queries q.toNat = { FMap.get g.queries q.toNat with cmd := some c } ∧
          ∀ n, n ≠ q.toNat → FMap.get g'.queries n = FMap.get g.queries n) ∧
        ((FMap.get g.queries q.toNat).cmd ≠ none → g'.rq = [c] ∧ g'.queries = g.queries)) ∧
  (∀ (s : State) (gid : Nat) (q : BitVec 2) (g : Gang) (c : Cmd) (m : Mate), s.gang? gid = some g → EnginesQuiet g →
    let sl := FMap.get g.queries q.toNat
    sl.cmd = some c → c.mates = [m] → m.flag = none → (∀ x ∈ g.queries, ∀ y, x.2.cmd = some y → c.id ≤ y.id) → c.id ∉ g.spoilt →
    let r := s.queryReads g c
    let gives := fun (ws : Nat → List Word) => ∃ t g', exec (.queryComplete gid q) s = .next t ∧ t.gang? gid = some g' ∧
      (FMap.get g'.queries q.toNat).cmd = none ∧ (∀ n, n ≠ q.toNat → FMap.get g'.queries n = FMap.get g.queries n) ∧ g'.v = g.v ∧
      t.sp = s.sp ∧ t.ring = s.ring ∧ ∀ l w, l < 32 → w < 17 → FMap.get (FMap.get g'.queries q.toNat).words (17 * l + w) =
        if m.lanes.getLsbD l = true then (ws l).getD w 0 else FMap.get sl.words (17 * l + w)
    (∀ k list e, c.instr = .covq k list e → gives fun l => r.cover g list.toNat l) ∧
    (∀ a base k e, c.instr = .rayq a base k e → (∀ l, m.lanes.getLsbD l = true → r.sceneAt (r.whoGang g) (laneScene c l) = none) →
      gives fun _ => [3]) ∧
    (∀ a base k1 cont k e, c.instr = .ellq a base k1 cont k e →
      (∀ l, m.lanes.getLsbD l = true → r.sceneAt (r.whoGang g) (laneScene c l) = none) → gives fun _ => [3])) ∧
  (∀ (d : VReg) (q : BitVec 2) (w : BitVec 5) (c : Tag), LaneGives (.qrd d q w c) [] d (fun _ _ => c) fun s g _ l =>
    if g.queryBusy q.toNat then Config.freeWord s.clk (17 * l + w.toNat)
    else FMap.get (FMap.get g.queries q.toNat).words (17 * l + w.toNat)) ∧
  ∀ (s : State) (g : Gang) (f : Frag) (q : BitVec 2), LaneReady (.qwait q) s g f [] →
    (g.queryBusy q.toNat = true → ∃ t, exec (.qwait q) s = .next t ∧ WaitsAs g f .held s t) ∧
    (g.queryBusy q.toNat = false → ∃ t, exec (.qwait q) s = .next t ∧ PassesOnly g f s t)

/-- 17 R305: the worked example of ELLQ: three rounds of two hits each. -/
def Claims.EllRounds : Prop :=
  let h := fun (t id : Word) => ({ t := t, prim := id, iid := 0, addr := 0, inst := 0, u := 0, v := 0 } : Hit)
  let hs := [h 0x40000000 9, h 0x3FC00000 4, h 0x40000000 3, h 0x40400000 1]
  let round := fun (last : Option (Word × Word)) => ellWords ((ellAfter last (ellSort hs)).take 2) .ok last
  round none = ([0x201, 0x3FC00000, 4, 0x40000000, 3], some (0x40000000, 3)) ∧
  round (some (0x40000000, 3)) = ([0x201, 0x40000000, 9, 0x40400000, 1], some (0x40400000, 1)) ∧
  (round (some (0x40400000, 1))).1 = [0]

/-- 17 R300 to R302: MCNT submits the gang's open record and opens one of the counts asked for, up to 256 vertices and 512 primitives;
MVTX and MPRIM write the vertex and the primitive of each lane, the highest lane's where lanes meet, and count what does not fit, which
MESHOVF gains at the clock's end, each half saturating, over a software write of the clock (00 R8). -/
def Claims.MeshRecords : Prop := ∀ (s : State) (g : Gang) (f : Frag) (a vc : VReg) (nv np : SReg) (aw : BitVec 4),
  (LaneReady (.mcnt (.opn nv np aw)) s g f [] → g.taking f ≠ 0 → ∃ t g' f', exec (.mcnt (.opn nv np aw)) s = .next t ∧
    t.cur = some (g', f') ∧ Passes f f' ∧ { g' with mesh := g.mesh, frags := g.frags } = g ∧
    g'.mesh = some { nv := min (f.captured (g.actSlice f) nv).toNat 256, np := min (f.captured (g.actSlice f) np).toNat 512
                     aw := aw.toNat + 1 } ∧
    t.bins = s.bins ++ (match g.mesh with
      | some m => if g.binbase = 0 then [] else [(s.gang, g.launch, g.binbase, m)]
      | none => []) ∧ { t with gangs := s.gangs, bins := s.bins } = s) ∧
  (LaneReady (.mcnt .close) s g f [] → g.taking f ≠ 0 → ∃ t g' f', exec (.mcnt .close) s = .next t ∧
    t.cur = some (g', f') ∧ Passes f f' ∧ { g' with mesh := g.mesh, frags := g.frags } = g ∧ g'.mesh = none) ∧
  (∀ m, g.mesh = some m →
    let v := fun (l : Nat) => (g.vget s.clk vc.toNat l).toNat
    let w := fun (l : Nat) => (g.vget s.clk a.toNat l).toNat
    let tri := fun (l : Nat) => (w l % 256, w l / 256 % 256, w l / 65536 % 256)
    let lane := fun (l : Nat) => Takes g f l ∧ g.helpers.getLsbD l = false
    let fits := fun (l : Nat) => v l < m.np ∧ (tri l).1 < m.nv ∧ (tri l).2.1 < m.nv ∧ (tri l).2.2 < m.nv
    (LaneReady (.mvtx a vc) s g f [] → ∃ t g' f' m', exec (.mvtx a vc) s = .next t ∧ t.cur = some (g', f') ∧ Passes f f' ∧
      g'.mesh = some m' ∧ { g' with mesh := g.mesh, frags := g.frags } = g ∧ { m' with verts := m.verts } = m ∧
      (m.aw ≤ 16 → ∀ j k, k < 16 →
        (∀ l, lane l → v l = j → j < m.nv → k < m.aw → (∀ l', lane l' → v l' = j → l' ≤ l) →
          FMap.get m'.verts (16 * j + k) = some (g.vget s.clk (a.toNat + k) l)) ∧
        ((∀ l, lane l → v l ≠ j) ∨ m.nv ≤ j ∨ m.aw ≤ k → FMap.get m'.verts (16 * j + k) = FMap.get m.verts (16 * j + k))) ∧
      ((∀ l, lane l → v l < m.nv) → { t with gangs := s.gangs } = s) ∧
      (t.core g.core).ovfAdd = ((s.core g.core).ovfAdd.1, (s.core g.core).ovfAdd.2 +
        ((List.range 32).filter fun l => (g.storing f).getLsbD l && decide (m.nv ≤ v l)).length)) ∧
    (LaneReady (.mprim a vc) s g f [] → ∃ t g' f' m', exec (.mprim a vc) s = .next t ∧ t.cur = some (g', f') ∧ Passes f f' ∧
      g'.mesh = some m' ∧ { g' with mesh := g.mesh, frags := g.frags } = g ∧ { m' with prims := m.prims } = m ∧
      (∀ j, (∀ l, lane l → v l = j → fits l → (∀ l', lane l' → v l' = j → fits l' → l' ≤ l) → FMap.get m'.prims j = some (tri l)) ∧
        ((∀ l, lane l → v l = j → ¬ fits l) → FMap.get m'.prims j = FMap.get m.prims j)) ∧
      ((∀ l, lane l → fits l) → { t with gangs := s.gangs } = s) ∧
      (t.core g.core).ovfAdd = ((s.core g.core).ovfAdd.1 + ((List.range 32).filter fun l => (g.storing f).getLsbD l &&
        !(decide (v l < m.np) && decide ((tri l).1 < m.nv) && decide ((tri l).2.1 < m.nv) && decide ((tri l).2.2 < m.nv))).length,
        (s.core g.core).ovfAdd.2))) ∧
  ∀ k : Core, k.ovfAdd ≠ (0, 0) →
    let o := k.ovf0.getD k.meshovf
    k.hwSets.meshovf.toNat % 65536 = min (o.toNat % 65536 + k.ovfAdd.2) 0xFFFF ∧
    k.hwSets.meshovf.toNat / 65536 = min (o.toNat / 65536 + k.ovfAdd.1) 0xFFFF

/-- 18 R318, R319: BINNER_RECORD takes a submitted record, the oldest of its gang, out of the queue: a record without primitives adds 1
to SUBMITTED and to BINNED as far as those words can be written, and where the bin block's header cannot be read each primitive adds 1 to
DROPS; and an append puts one 48-byte entry after the strip's last and counts it, or, in a full strip, only counts a drop. -/
def Claims.Binning : Prop :=
  (∀ (s : State) (gid lid : Nat) (base : Dword) (m : MeshRec), s.bins[s.subject]? = some (gid, lid, base, m) →
    ((∃ x ∈ s.bins.take s.subject, x.1 = gid) → exec .binnerRecord s = .next s) ∧
    ((∀ x ∈ s.bins.take s.subject, x.1 ≠ gid) → ∀ l, s.launch? lid = some l →
      let w := s.whoLaunch l
      let s2 := State.binBump { s with bins := s.bins.eraseIdx s.subject } w (base.toNat + 16)
      (∃ t, exec .binnerRecord s = .next t ∧ t.bins = s.bins.eraseIdx s.subject ∧ t.gangs = s.gangs ∧ t.sp = s.sp) ∧
      (m.np = 0 → exec .binnerRecord s = .next (s2.binBump w (base.toNat + 20))) ∧
      (s2.tryRead w base.toNat 10 = none → exec .binnerRecord s = .next
        ((((List.range m.np).filter fun p => (FMap.get m.prims p).isSome).foldl (fun (u : State) _ => u.binBump w (base.toNat + 12)) s2).binBump w
          (base.toNat + 20))))) ∧
  (∀ (s : State) (w : Who) (va : Nat) (b : List Byte), s.tryRead w va 4 = some b →
    s.binBump w va = s.tryWrite w va (leOf 4 (leVal b + 1))) ∧
  (∀ (s : State) (w : Who) (base k : Nat) (e b : List Byte), s.tryRead w (base + 64 + 16 * k) 16 = some b →
    let n := field b 12 4
    let va := field b 0 8 + 48 * n
    (field b 8 4 ≤ n → s.binAppend w base k e = s.binBump w (base + 12)) ∧
    (n < field b 8 4 → s.chk w .store va 48 = .ok → s.chk w .store (base + 64 + 16 * k + 12) 4 = .ok →
      s.binAppend w base k e = (s.agentWrite w va e).agentWrite w (base + 64 + 16 * k + 12) (leOf 4 (n + 1)))) ∧
  ∀ (ws : List Word) (p : Nat), ws.length = 9 → (binEntry ws p).length = 48

/-- 17 R307 to R309, 18 R316: the strip ring's instructions. -/
def Obligations.RingAccess : Prop := Claims.RingStores ∧ Claims.RingReads
/-- 17 R303 to R306: render queries. -/
def Obligations.RenderQueries : Prop := Claims.Queries ∧ Claims.EllRounds
/-- 17 R300 to R302, 18 R318, R319: mesh records and the binner. -/
def Obligations.MeshAndBinner : Prop := Claims.MeshRecords ∧ Claims.Binning

/-! ### Vertical pairs (24) -/

/-- 24 R372, R373, R375, R376: VFPUSH with a taking lane puts the whole register, its tag and the gang's context at the end of the FIFO
toward the partner, as a release, while that FIFO has a free slot and the partner runs; else it waits, or says 0 with NB. VFPOP takes
the head entry when it is visible and of its own context, as an acquire; else it waits, or says 0 with NB. With no taking lane
neither does anything. -/
def Claims.FifosPushAndPop : Prop :=
  (∀ (nb : Option SReg) (a : VReg) (s : State) (g : Gang) (f : Frag), LaneReady (.vfpush nb a) s g f [] →
    let p := partnerOf g.core
    let can : Prop := (s.core p).fifo.length < 32 ∧ (s.core p).gate = 0 ∧ s.domainRuns (domainOf p) = true
    let saying := fun (v : Word) => (nb.map fun d => (d, v)).toList
    (g.taking f = 0 → ∃ t g' f', exec (.vfpush nb a) s = .next t ∧ OnlyGang s t ∧ t.cur = some (g', f') ∧ Passes f f' ∧
      { g' with copies := g.copies, frags := g.frags } = g ∧ ∀ sl, g'.copy sl = g.copy sl) ∧
    (g.taking f ≠ 0 → can → ∃ t g' f' e, exec (.vfpush nb a) s = .next t ∧ t.cur = some (g', f') ∧ PassesOn f f' ∧
      { g' with copies := g.copies, frags := g.frags } = g ∧ GivesScalars g g' f f' (saying 1) ∧
      { t.core p with fifo := (s.core p).fifo } = s.core p ∧ (t.core p).fifo = (s.core p).fifo ++ [e] ∧
      e.visible = false ∧ e.asid = g.asid ∧ e.tag = srcTagOf a s g ∧ e.data = (List.range 32).map (laneSrc a s g) ∧
      (∀ c, c ≠ p → t.core c = s.core c) ∧ (∀ n, n ≠ s.gang → t.gang? n = s.gang? n) ∧ (∀ x ∈ t.path, x.1 ≠ g.core) ∧
      { t with gangs := s.gangs, cores := s.cores } = s.drain g.core) ∧
    (g.taking f ≠ 0 → ¬ can → (nb = none → s.domainRuns (domainOf p) = true → ∃ t, exec (.vfpush nb a) s = .next t ∧ WaitsAs g f .held s t) ∧
      (nb ≠ none → ∃ t g' f', exec (.vfpush nb a) s = .next t ∧ t.cur = some (g', f') ∧ PassesOn f f' ∧
        { g' with copies := g.copies, frags := g.frags } = g ∧ GivesScalars g g' f f' (saying 0) ∧ t.cores = s.cores ∧ t.path = s.path ∧
        (s.domainRuns (domainOf p) = false → (FMap.get t.domains (domainOf p)).wake = true)))) ∧
  ∀ (d : VReg) (nb : Option SReg) (s : State) (g : Gang) (f : Frag), LaneReady (.vfpop d nb) s g f [] →
    let saying := fun (v : Word) => (nb.map fun d => (d, v)).toList
    (g.taking f = 0 → ∃ t g' f', exec (.vfpop d nb) s = .next t ∧ OnlyGang s t ∧ t.cur = some (g', f') ∧ Passes f f' ∧
      { g' with copies := g.copies, frags := g.frags } = g ∧ ∀ sl, g'.copy sl = g.copy sl) ∧
    (∀ e rest, g.taking f ≠ 0 → (s.core g.core).fifo = e :: rest → e.visible = true → e.asid = g.asid →
      ∃ t g' f', exec (.vfpop d nb) s = .next t ∧ t.cur = some (g', f') ∧ PassesOn f f' ∧
        WritesLanes g { g' with copies := g.copies } f [d.toNat] e.tag (fun _ l w => w = e.data.getD l 0) ∧
        GivesScalars g g' f f' (saying 1) ∧ t.core g.core = { s.core g.core with fifo := rest } ∧
        (∀ c, c ≠ g.core → t.core c = s.core c) ∧ (∀ n, n ≠ s.gang → t.gang? n = s.gang? n) ∧ (∀ x ∈ t.path, x.1 ≠ g.core) ∧
        (∀ line, line < 2 ^ 46 → FMap.get t.l1 (l1Key g.core line) = none) ∧
        { t with gangs := s.gangs, cores := s.cores, l1 := s.l1 } = s.drain g.core) ∧
    ((∀ e rest, (s.core g.core).fifo = e :: rest → e.visible = false ∨ e.asid ≠ g.asid) → g.taking f ≠ 0 →
      (nb = none → ∃ t, exec (.vfpop d nb) s = .next t ∧ WaitsAs g f .held s t) ∧
      (nb ≠ none → ∃ t g' f', exec (.vfpop d nb) s = .next t ∧ OnlyGang s t ∧ t.cur = some (g', f') ∧ PassesOn f f' ∧
        { g' with copies := g.copies, frags := g.frags } = g ∧ GivesScalars g g' f f' (saying 0)))

/-- 24 R372, R377: an entry becomes visible in the order of acceptance; VFCNT reads the gate states, the entries of its own context that
are held toward its core, and the free slots toward the partner. -/
def Claims.FifosCount : Prop :=
  (∀ (s : State) (pre post : List FifoEntry) (e : FifoEntry), (s.core s.subject).fifo = pre ++ e :: post →
    (∀ x ∈ pre, x.visible = true) → e.visible = false → ∃ t, exec .fifoEntryVisible s = .next t ∧
      t.core s.subject = { s.core s.subject with fifo := pre ++ { e with visible := true } :: post } ∧
      (∀ c, c ≠ s.subject → t.core c = s.core c) ∧ { t with cores := s.cores } = s) ∧
  ∀ d : SReg, LaneGivesScalar (.vfcnt d) d fun s g _ =>
    let held := ((s.core g.core).fifo.filter fun e => e.asid == g.asid).length
    BitVec.ofNat 32 ((s.core (partnerOf g.core)).gate * 2 ^ 22 + (s.core g.core).gate * 2 ^ 20 + held * 2 ^ 8 +
      (32 - (s.core (partnerOf g.core)).fifo.length))

/-- 24 R378, R379: PGREQ of its own core or of its partner, whose change takes effect at the end of its clock. It turns RUN to PEND with
status 0, but says 2 in a registered chain's clusters and 1 in another state; with CAN it turns PEND to RUN and GATED to WAKE for 10,000 ns
with status 0, and says 1 else. A PEND
core that is empty turns GATED; a core whose WAKE has lasted its time runs with the contents of module reset and the FIFO toward it. -/
def Claims.GatesOfCores : Prop :=
  (∀ (d : SReg) (partner can : Bool) (s : State) (g : Gang) (f : Frag),
    let i : Instr := if can then .pgreqCan d partner else .pgreq d partner
    LaneReady i s g f [] →
    let c := if partner then partnerOf g.core else g.core
    let k := s.core c
    let r : Word × Option Nat :=
      if can then (if k.gate = 1 then (0, some 0) else if k.gate = 2 then (0, some 3) else (1, none))
      else if k.gate ≠ 0 then (1, none)
      else if ∃ x ∈ s.chains, x.clu.getLsbD (c / 8) = true then (2, none) else (0, some 1)
    (∃ t g' f', exec i s = .next t ∧ t.cur = some (g', f') ∧ PassesOn f f' ∧ { g' with copies := g.copies, frags := g.frags } = g ∧
      GivesScalar g g' f f' d r.1 ∧ t.late = s.late ++ (if g.taking f = 0 then [] else (r.2.map fun st => Late.gate c st).toList) ∧
      (∀ n, n ≠ s.gang → t.gang? n = s.gang? n) ∧ { t with gangs := s.gangs, late := s.late } = s) ∧
    ∀ (u : State) (st : Nat), { u.applyLate (.gate c st) with cores := u.cores } = u ∧ (∀ x, x ≠ c → (u.applyLate (.gate c st)).core x = u.core x) ∧
      (u.applyLate (.gate c st)).core c = { u.core c with gate := st, wakeAt := if st = 3 then u.ns + 10000 else (u.core c).wakeAt }) ∧
  (∀ s : State, let c := s.subject
    let empty : Prop := (∀ e ∈ s.blockList, e.2.core = c → e.2.desched = true) ∧ (s.core c).fifo = [] ∧
      (∀ e ∈ (s.core c).slots, e.2.st ≠ 1) ∧ ∀ x ∈ s.chains, x.clu.getLsbD (c / 8) = false
    ((s.core c).gate = 1 → empty → ∃ t, exec .coreGate s = .next t ∧ t.core c = { s.core c with gate := 2 } ∧
      (∀ x, x ≠ c → t.core x = s.core x) ∧ { t with cores := s.cores } = s) ∧
    ((s.core c).gate ≠ 1 ∨ ¬ empty → exec .coreGate s = .next s)) ∧
  ∀ s : State, let c := s.subject
    ((s.core c).gate = 3 → (s.core c).wakeAt ≤ s.ns → ∃ t, exec .coreWakeComplete s = .next t ∧
      t.core c = { ({} : Core) with fifo := (s.core c).fifo } ∧ (∀ x, x ≠ c → t.core x = s.core x) ∧
      (∀ line, line < 2 ^ 46 → FMap.get t.l1 (l1Key c line) = none) ∧
      (∀ off, off < 0x80000 → Memory.read t.sp (spKey c off) = 0) ∧
      (∀ x off, x ≠ c → off < 0x80000 → Memory.read t.sp (spKey x off) = Memory.read s.sp (spKey x off)) ∧
      { t with cores := s.cores, l1 := s.l1, sp := s.sp, poison := s.poison } = s) ∧
    ((s.core c).gate ≠ 3 ∨ s.ns < (s.core c).wakeAt → exec .coreWakeComplete s = .next s)

/-! ### Power and the cold (26) -/

/-- 26 R382 to R384: an interval's end moves the memory level by at most 50 W inside 100 to 300 W, gives C, and moves each domain's
throttle level by at most one inside 0 to 7; each core of a domain reads its floor and cap from its domain's level. -/
def Claims.PowerIntervals : Prop := ∀ (u sv : Nat) (pwr : List Nat) (s : State),
  ∃ t, exec (.powerInterval u sv pwr) s = .next t ∧
    (850000 < u → 250000 < sv → t.ml = min (s.ml + 50) 300) ∧
    (u < 500000 → t.ml = max (s.ml - 50) 100) ∧ (500000 ≤ u → (u ≤ 850000 ∨ sv ≤ 250000) → t.ml = s.ml) ∧
    t.callot = min 2600 (max 800 (min 3200 (s.breg 0x404000).toNat) - 300 - t.ml) ∧
    (∀ d, d < 8 → let x := FMap.get s.domains d
      let y := FMap.get t.domains d
      let p := pwr.getD d 0
      y.pwr = p ∧ y.idle = x.idle ∧ (t.callot < 8 * p → y.level = min (x.level + 1) 7) ∧
      (80 * p < 9 * t.callot → y.level = x.level - 1) ∧ (8 * p ≤ t.callot → 9 * t.callot ≤ 80 * p → y.level = x.level) ∧
      ∀ c, c < 1344 → 2 * (c / 8 / 42) + c % 8 / 4 = d →
        t.core c = { s.core c with floor := BitVec.ofNat 3 y.level, mgcap := BitVec.ofNat 9 (256 - 32 * y.level) }) ∧
    (∀ c, 1344 ≤ c → t.core c = s.core c) ∧
    { t with cores := s.cores, domains := s.domains, ml := s.ml, callot := s.callot } = s

/-- 26 R385 to R387: an idle domain enters the deepest state that LTOL allows, in COLD or EXCURSION while nothing needs it, and its cores
lose their state where that is off; what needs it, or LTOL's new value, begins the exit, which ends after the state's latency. -/
def Claims.IdleDomains : Prop :=
  (∀ (v : Word) (s : State), exec (.ltolWrite v) s = .next (s.setBreg 0x404008 v) ∧ (s.setBreg 0x404008 v).breg 0x404008 = v) ∧
  (∀ s : State, s.subject < 8 → let d := s.subject
    let x := FMap.get s.domains d
    let l := (s.breg 0x404008).toNat
    let deepest := if 200000 ≤ l then 3 else if 2000 ≤ l then 2 else if 50 ≤ l then 1 else 0
    let idle : Prop := ∀ c, c < 1344 → 2 * (c / 8 / 42) + c % 8 / 4 = d → (∀ e ∈ s.blockList, e.2.core = c → e.2.desched = true) ∧
      (s.core c).fifo = [] ∧ (∀ e ∈ (s.core c).slots, e.2.st ≠ 1) ∧ ∀ x ∈ s.chains, x.clu.getLsbD (c / 8) = false
    let may : Prop := (s.cryo = .cold ∨ s.cryo = .excursion) ∧ x.wake = false ∧ x.exitAt = none ∧ x.idle < deepest ∧ idle
    (¬ may → exec .domainIdleEnter s = .next s) ∧
    (may → ∃ t, exec .domainIdleEnter s = .next t ∧ (FMap.get t.domains d).idle = deepest ∧
      (∀ e, e ≠ d → FMap.get t.domains e = FMap.get s.domains e) ∧ t.gangs = s.gangs ∧ t.mem = s.mem ∧
      (deepest ≠ 3 → { t with domains := s.domains } = s) ∧
      (deepest = 3 → ∀ c, c < 1344 → (2 * (c / 8 / 42) + c % 8 / 4 = d → t.core c = { ({} : Core) with gate := (s.core c).gate } ∧
          ∀ off, off < 0x80000 → Memory.read t.sp (spKey c off) = 0) ∧
        (2 * (c / 8 / 42) + c % 8 / 4 ≠ d → t.core c = s.core c)))) ∧
  ∀ s : State, s.subject < 8 → let d := s.subject
    let x := FMap.get s.domains d
    (∀ n, x.exitAt = some n → n ≤ s.ns → x.wake = true → exec .domainIdleExit s =
      .next { s with domains := FMap.put s.domains d { x with idle := 0, wake := false, exitAt := none } }) ∧
    (∀ n, x.exitAt = some n → s.ns < n → exec .domainIdleExit s = .next s) ∧
    (x.exitAt = none → (s.cryo = .cold ∨ s.cryo = .excursion) → x.wake = true → (x.idle = 1 ∨ x.idle = 2) → exec .domainIdleExit s =
      .next { s with domains := FMap.put s.domains d { x with exitAt := some (s.ns + if x.idle = 1 then 50 else 2000) } }) ∧
    (∀ n, x.exitAt = none → x.idle = 3 → s.offLast = some n → s.ns < n + 20000 → exec .domainIdleExit s = .next s) ∧
    (x.exitAt = none → (s.cryo = .cold ∨ s.cryo = .excursion) → x.wake = true → x.idle = 3 → (∀ n, s.offLast = some n → n + 20000 ≤ s.ns) →
      (∀ e, e < d → (FMap.get s.domains e).idle ≠ 3) → exec .domainIdleExit s =
        .next { s with domains := FMap.put s.domains d { x with exitAt := some (s.ns + 200000) }, offLast := some s.ns })

/-- 26 R388, R389, R392: a sample stores the sensors, shows T, the gradient and the low mark, and changes the state as the table of
transitions says; the three commands do what the table and R392, R393 give them. -/
def Claims.CryoStates : Prop :=
  (∀ (l : List Nat) (s : State), let t := (List.range 10).map fun n => l.getD n 0 % 4096
    let T := t.foldl max 0
    let grad := (t.take 9).foldl max 0 - (t.take 9).foldl min 4095
    ∃ u, exec (.temperatureSample l) s = .next u ∧ (∀ n, n < 10 → FMap.get u.sensors n = l.getD n 0 % 4096) ∧
      bitsOf u.tband.toNat 27 16 = T ∧ bitsOf u.tband.toNat 11 4 = min grad 255 ∧ (u.tband.getLsbD 3 = true ↔ T < 576) ∧
      (s.cryo = .soak ∨ s.cryo = .cold ∨ s.cryo = .excursion → 880 < T → u.cryo = .hotStop) ∧
      (s.cryo = .soak → T ≤ 680 → grad ≤ 16 → u.cryo = .cold) ∧ (s.cryo = .soak → T ≤ 880 → 680 < T ∨ 16 < grad → u.cryo = .soak) ∧
      (s.cryo = .cold → 680 < T → T ≤ 880 → u.cryo = .excursion ∧ u.refresh = true ∧ u.derated = true ∧ u.gangs = s.gangs ∧
        u.chains = s.chains) ∧ (s.cryo = .cold → T ≤ 680 → u.cryo = .cold) ∧
      (s.cryo = .excursion → 656 ≤ T → T ≤ 880 → u.cryo = .excursion ∧ u.coolNs = none) ∧
      (s.cryo = .excursion → T < 656 → ∀ n, s.coolNs = some n → (n + 1000000000 ≤ s.ns → u.cryo = .cold) ∧
        (s.ns < n + 1000000000 → u.cryo = .excursion ∧ u.coolNs = some n)) ∧
      (s.cryo = .excursion → T < 656 → s.coolNs = none → u.cryo = .excursion ∧ u.coolNs = some s.ns) ∧
      (s.cryo = .cooling → (T < 960 → u.cryo = .soak) ∧ (960 ≤ T → u.cryo = .cooling)) ∧
      (s.cryo = .hotStop → u.cryo = if s.hotSaved = true ∧ T < 680 then .soak else .hotStop) ∧ (s.cryo = .warm → u.cryo = .warm)) ∧
  ∀ s : State,
    (s.cryo = .warm → s.boot.recovery = false → ∃ t, exec .cryocmdCool s = .next t ∧ t.cryo = .cooling ∧ t.gangs = s.gangs ∧ t.mem = s.mem) ∧
    (s.cryo ≠ .warm → exec .cryocmdCool s = .next s) ∧
    (s.cryo ≠ .warm → s.cryo ≠ .warming → ∃ t, exec .cryocmdWarm s = .next t ∧ t.cryo = .warming ∧ t.warmCmd = some s.ns ∧
      t.gangs = s.gangs ∧ t.mem = s.mem) ∧
    (s.cryo = .warm ∨ s.cryo = .warming → exec .cryocmdWarm s = .next s) ∧
    (s.cryo = .warm → exec .cryocmdService s = .next { s with service := !s.service, refresh := !s.service }) ∧
    (s.cryo ≠ .warm → exec .cryocmdService s = .next s) ∧
    (∀ n, s.cryo = .warming → s.warmCmd = some n →
      (s.warmDone = false → n + 100000000 ≤ s.ns → ∃ t, exec .warmingLaunchTimeout s = .next t ∧ t.warmDone = true ∧ t.refresh = true ∧
        t.cryo = .warming) ∧
      (s.warmDone = true ∨ s.ns < n + 100000000 → exec .warmingLaunchTimeout s = .next s))

/-- 24 R372 to R379: vertical pairs. -/
def Obligations.VerticalPairs : Prop := Claims.FifosPushAndPop ∧ Claims.FifosCount ∧ Claims.GatesOfCores
/-- 26 R381 to R393: the power controller and the cryogenic states. -/
def Obligations.PowerAndCold : Prop := Claims.PowerIntervals ∧ Claims.IdleDomains ∧ Claims.CryoStates

/-! ### Pre-emption, the hardware save, placement (21, 07, 09) -/

/-- 21 R350, R351: a request on a core joins the one in progress or starts its budget, and targets the gangs on the core whose base class
is in its set: a fragment in its handler gets PP, one that waits enters its handler with code 7, and any other stops its scalar stream
and drains. -/
def Claims.PreemptionRequests : Prop := ∀ (s : State) (core : Nat) (classes : BitVec 4),
  let here := s.gangList.filter fun e => e.2.core == core && !e.2.desched
  (here = [] → ∃ t, exec (.preemptionRequest core classes) s = .next t ∧
    { t.core core with preempt := (s.core core).preempt } = s.core core ∧
    (t.core core).preempt = some { classes := classes, since := s.ns, chain := none } ∧
    (∀ c, c ≠ core → t.core c = s.core c) ∧ { t with cores := s.cores } = s) ∧
  ∀ (n : Nat) (g : Gang) (f : Frag), here = [(n, g)] → s.gang? n = some g → g.core = core → g.frags = [f] → g.target = false → f.slices ≠ 0 →
    (s.core core).cg.waiting = [] →
    ∃ t g', exec (.preemptionRequest core classes) s = .next t ∧ t.gang? n = some g' ∧ (t.core core).preempt.isSome = true ∧
      (∀ m, m ≠ n → t.gang? m = s.gang? m) ∧ t.blocks = s.blocks ∧ t.launches = s.launches ∧
      (classes.getLsbD g.cls = false → g' = g) ∧
      (classes.getLsbD g.cls = true → g'.target = true ∧
        (f.inHandler = true → ({ g' with copies := g.copies, target := g.target } = g ∧
          ∀ sl, f.slices.getLsbD sl = true → ((g'.copy sl).kget 2).getLsbD 15 = true ∧ (g'.copy sl).s = (g.copy sl).s)) ∧
        (f.inHandler = false → (g.low f).kget64 0 ≠ 0 → f.lwait = .none → f.parkL = none →
          g' = { g with target := true, frags := [{ f with draining := true }] }) ∧
        (f.inHandler = false → (g.low f).kget64 0 ≠ 0 → f.lwait = .held → ∃ f', g'.frags = [f'] ∧ f'.inHandler = true ∧
          f'.spc = (g.low f).kget64 0 &&& ~~~3#64 ∧ ((g'.low f').kget 2).toNat % 256 = 7))

/-- 21 R352, R354, R355: HARDWARE_SAVE does nothing for a gang whose budget runs or which is no target. One whose budget of 4,000 ns has
expired and whose engine work is done is written to its area, is off its core, and is counted. -/
def Claims.HardwareSaves : Prop := ∀ (s : State) (g : Gang), s.gang? s.subject = some g →
  (g.saveNow = false → (∀ p, (s.core g.core).preempt = some p → g.target = false ∨ s.ns < p.since + 4000) → exec .hardwareSave s = .next s) ∧
  ∀ (p : Preempt) (b : Block), (s.core g.core).preempt = some p → p.chain = none → g.target = true → p.since + 4000 ≤ s.ns →
    g.desched = false → g.frags ≠ [] → g.mq = [] → g.running = none → g.batches = [] → g.openB = none → g.asyncs = [] →
    s.path = [] → g.regs ≤ 256 → g.accs ≤ 8 → (∀ f ∈ g.frags, f.saveQueue.length ≤ 8) → g.csbase.toNat + 0x18000 ≤ dramEnd →
    s.block? g.block = some b → b.tiles ≤ 16 → b.scratch ≤ 0x80000 → b.core = g.core →
    (b.bsbase.toNat + 0x90000 ≤ g.csbase.toNat ∨ g.csbase.toNat + 0x18000 ≤ b.bsbase.toNat) →
    (s.core g.core).hfcnt.toNat < 2 ^ 32 - 1 →
    ∃ t g', exec .hardwareSave s = .next t ∧ t.gang? s.subject = some g' ∧ g'.desched = true ∧ g'.hwSaved = true ∧
      (t.core g.core).hfcnt = (s.core g.core).hfcnt + 1 ∧ g'.v = [] ∧ g'.a = [] ∧
      (let at_ := fun (off n : Nat) => t.hwRead (g.csbase.toNat + off) n
       at_ 0 4 = leOf 4 0x10000 ∧ at_ 8 4 = leOf 4 g.xm.toNat ∧ at_ 12 4 = leOf 4 g.lm.toNat ∧ at_ 16 4 = leOf 4 g.hm.toNat ∧
       (∀ r l, r < g.regs → l < 32 → at_ (0x8000 + 4 * (32 * r + l)) 4 = leOf 4 (g.vraw r l).toNat) ∧
       (∀ r, r < 256 → at_ (0x1480 + r) 1 = [(g.tagOf r).setWidth 8]) ∧
       (∀ a r c, a < g.accs → r < 32 → c < 32 → at_ (0x10000 + 4 * (1024 * a + 32 * r + c)) 4 = leOf 4 (g.aget a r c).toNat) ∧
       ∀ i, i < 32 → at_ (0x1400 + 4 * i) 4 = leOf 4 (FMap.get g.rng i).toNat)

/-- What gang start gives each gang of a block (01 R32, 07 R138): its masks cover its width, its vector registers, accumulators and
tags are zero, its one fragment stands at ENTRY with nothing in its queue, and its slices' scalar registers are zero but for the
parameter in s2 and s3 and the gang's number in s4. -/
def Claims.StartsAs (l : Launch) (lid bid core i : Nat) (x : Gang) : Prop :=
  let m := sliceMask (sliceSet l.kd.width)
  x.launch = lid ∧ x.block = bid ∧ x.idx = i ∧ x.core = core ∧ x.xm = m ∧ x.lm = m ∧ x.hm = 0 ∧ x.live = sliceSet l.kd.width ∧
  x.regs = l.kd.regs ∧ x.accs = l.kd.accs ∧ x.priv = l.kd.priv ∧ x.lcbase = l.kd.lcbase ∧ x.lcsize = l.kd.lcsize ∧
  (∀ r k, x.vraw r k = 0 ∧ x.tagOf r = 0) ∧ (∀ a r c, x.aget a r c = 0 ∧ x.atagOf a = 0) ∧
  (∃ f, x.frags = [f] ∧ f.slices = x.live ∧ f.spc = l.kd.entry ∧ f.queue = [] ∧ f.entered = none ∧ f.marks = [] ∧ f.inHandler = false ∧
    f.cls = (if l.chain.isSome then 1 else l.kd.cls)) ∧
  ∀ sl, x.live.getLsbD sl = true → (x.copy sl).getPair 2 = l.param ∧ (x.copy sl).get 4 = BitVec.ofNat 32 i ∧
    (∀ r : SReg, r ∉ ([2, 3, 4] : List SReg) → (x.copy sl).get r = 0) ∧ (∀ n, FMap.get (x.copy sl).flags n = 0) ∧
    (∀ n, FMap.get (x.copy sl).guards n = {}) ∧ (x.copy sl).kget 24 = 65536 ∧ ∀ k, k ≠ 24 → (x.copy sl).kget k = 0

/-- 26 R388, 07 R139, 09 R179: no block is dispatched outside COLD and EXCURSION. The next block of a launch with room under its
interface's share goes to an empty core, and its gangs start; toward a GATED core it does not start, but the core begins to wake. -/
def Claims.BlocksStart : Prop :=
  (∀ (s : State) (lid block core : Nat) (parts : List Nat), s.cryo ≠ .cold → s.cryo ≠ .excursion →
    exec (.blockDispatch lid block core parts) s = .next s) ∧
  ∀ (s : State) (lid block core : Nat) (l : Launch) (i : Iface), s.launch? lid = some l → l.cancelled = false → l.complete = false →
    core < 1344 → (s.cryo = .cold ∨ s.cryo = .excursion) → s.boot.recovery = false → s.boot.saving = false →
    s.residents core = [] → s.domainRuns (domainOf core) = true → l.chain = none → s.chains = [] → l.kd.pair = false →
    block < l.blocks → (∀ k, k < block → k ∈ l.dispatched) → block ∉ l.dispatched → (l.kd.coop = true ∨ block < l.h + 256) →
    s.grouped lid = false → s.mergedAhead lid = [] → s.blockOf lid block = none → s.iface? l.vi = some i → lid ∉ i.spawns →
    (s.coresOf l.vi).length < i.share → l.kd.gangs ≤ 4 → l.kd.regs ≤ 768 → l.kd.accs ≤ 16 → l.kd.tiles ≤ 64 → l.kd.scratch ≤ 0x80000 →
    let n := if l.seed then 1 else l.kd.gangs
    ((s.core core).gate = 0 → ∃ t b, exec (.blockDispatch lid block core (List.range n)) s = .next t ∧
      t.block? s.nextBlock = some b ∧ b.launch = lid ∧ b.idx = block ∧ b.core = core ∧ b.desched = false ∧ b.setSize = 0 ∧
      b.tiles = l.kd.tiles ∧ b.scratch = l.kd.scratch ∧ b.gangs = (List.range n).map (fun k => s.nextGang + k) ∧
      t.nextBlock = s.nextBlock + 1 ∧ t.nextGang = s.nextGang + n ∧
      (∀ k, k < n → ∃ x, t.gang? (s.nextGang + k) = some x ∧ Claims.StartsAs l lid s.nextBlock core k x) ∧
      (∀ m, m < s.nextGang ∨ s.nextGang + n ≤ m → t.gang? m = s.gang? m) ∧ (∀ m, m ≠ s.nextBlock → t.block? m = s.block? m) ∧
      t.launch? lid = some { l with dispatched := l.dispatched ++ [block] } ∧ t.mem = s.mem ∧ t.cores = s.cores ∧
      (∀ off, off < l.kd.scratch → Memory.read t.sp (spKey core off) = 0) ∧
      (∀ x, x < spKey core 0 ∨ spKey core l.kd.scratch ≤ x → Memory.read t.sp x = Memory.read s.sp x)) ∧
    ((s.core core).gate = 2 → exec (.blockDispatch lid block core (List.range n)) s =
      .next (s.updCore core fun k => { k with gate := 3, wakeAt := s.ns + 10000 }))

/-! ### Ageing, parks, migrations -/

/-- 07 R157: a fragment that has been ready for 4,096 clocks without an issue falls one class, not below 1, and counts anew. -/
def Claims.ClassesAge : Prop := ∀ (s : State) (g : Gang) (f : Frag), s.cur = some (g, f) →
  (f.ready < 4096 → exec .classAgeing s = .next s) ∧
  (4096 ≤ f.ready → ∃ t g', exec .classAgeing s = .next t ∧ OnlyGang s t ∧ { g' with frags := g.frags } = g ∧
    t.cur = some (g', { f with ready := 0, cls := if f.cls ≤ 1 then f.cls else f.cls - 1 }))

/-- 21 R346: a park that has lasted PARKLIM × 256 clocks traps, and a global replay frees every parked access and its record. -/
def Claims.ParksEnd : Prop :=
  (∀ (s : State) (g : Gang) (f : Frag), s.cur = some (g, f) → let lim := 256 * ((g.low f).kget 110).toNat
    (∀ p, f.parkL = some p → lim ≠ 0 → p.since + lim ≤ s.clk →
      Traps .parkTimeout s g f .demandParked (BitVec.ofNat 32 p.lane) (BitVec.ofNat 64 p.addr) true) ∧
    ((∀ p, f.parkL = some p ∨ f.parkS = some p → lim = 0 ∨ s.clk < p.since + lim) → exec .parkTimeout s = .next s)) ∧
  ∀ s : State, (∀ e ∈ s.cores, ∀ x ∈ e.2.copies, x.parked = false) → ∃ t, exec .globalReplay s = .next t ∧ t.parks = [] ∧
    (∀ a n k c x, FeEvent.park a n k c x ∉ t.feq) ∧
    (∀ n, t.gang? n = (s.gang? n).map fun g => { g with frags := g.frags.map fun f => { f with parkS := none, parkL := none } }) ∧
    { t with parks := s.parks, feq := s.feq, gangs := s.gangs, clusters := s.clusters } = s

/-- 21 R347: a request sets LK by an OR in the leaf. The first one holds the page; one of the other side that meets it is decided by the
lower stamp, an equal one for the host, and the loser's leaf maps the winner's copy through a remote aperture with CA 1 for 2,000,000
ns, then reverts to V = 0 and MIG = 1. The winner clears LK when the migration completes. -/
def Claims.Migrations : Prop := ∀ (s : State) (leaf : Nat), leaf + 8 ≤ dramEnd →
  let m := FMap.get s.migs leaf
  let e := s.read64 leaf
  let others := fun (t : State) => ∀ a, a < leaf ∨ leaf + 8 ≤ a → Memory.read t.mem a = Memory.read s.mem a
  (∀ (side : Side) (ns : Dword) (frac : Half), let stamp := ns.toNat * 65536 + frac.toNat
    (m.live = false → ∃ t, exec (.migrationRequest side leaf ns frac) s = .next t ∧ t.read64 leaf = e ||| (1#64 <<< 54) ∧ others t ∧
      (FMap.get t.migs leaf).live = true ∧ (FMap.get t.migs leaf).stamp = stamp ∧
      (FMap.get t.migs leaf).host = (side == .host)) ∧
    (m.live = true → m.host ≠ (side == .host) → ∃ t, exec (.migrationRequest side leaf ns frac) s = .next t ∧ others t ∧
      (FMap.get t.migs leaf).live = true ∧ (FMap.get t.migs leaf).expiry = some (s.ns + 2000000) ∧
      (FMap.get t.migs leaf).stamp = min m.stamp stamp ∧
      let mine := (FMap.get t.migs leaf).host = (side == .host)
      (stamp < m.stamp → mine) ∧ (m.stamp < stamp → ¬ mine) ∧ (stamp = m.stamp → (FMap.get t.migs leaf).host = true) ∧
      ((FMap.get t.migs leaf).host = false → t.read64 leaf = e ||| (1#64 <<< 54)) ∧
      ((FMap.get t.migs leaf).host = true → (t.read64 leaf).getLsbD 0 = true ∧ pteCa (t.read64 leaf) = 1 ∧
        pteAddr (t.read64 leaf) / 2 ^ 48 = 4))) ∧
  (s.subject = leaf → (m.live = true → ∃ t, exec .migrationComplete s = .next t ∧ t.read64 leaf = e &&& ~~~(1#64 <<< 54) ∧ others t ∧
      (FMap.get t.migs leaf).live = false) ∧ (m.live = false → exec .migrationComplete s = .next s)) ∧
  (s.subject = leaf → ∀ n, m.expiry = some n → (s.ns < n → exec .remoteMappingExpiry s = .next s) ∧
    (n ≤ s.ns → ∃ t, exec .remoteMappingExpiry s = .next t ∧ others t ∧ (FMap.get t.migs leaf).expiry = none ∧
      (m.host = true → (t.read64 leaf).getLsbD 0 = false ∧ (t.read64 leaf).getLsbD 7 = true) ∧ (m.host = false → t.mem = s.mem)))

/-! ### Register writes and memory upkeep (00, 02, 10, 12) -/

/-- 02 R45, 10 R191, R196, 12 R204, R227: what the writes do that are steps of their own: STSEED seeds the generators of the fragment's
lanes; CGCTL refuses EN while the ring is not legal, and CFGERR is set at the clock's end; CGRD takes its value, and one outside the ring's
bytes makes the ring undefined, and what the core's traced fragments write until their next SYNC; PTROOT drops the context's translations; the firmware
drops a context's translations, or those of a range. -/
def Claims.RegisterSteps : Prop :=
  (∀ (s : State) (g : Gang) (f : Frag) (v : Word), s.cur = some (g, f) → ∃ t g', exec (.stseedWrite v) s = .next t ∧ OnlyGang s t ∧
    t.cur = some (g', f) ∧ { g' with copies := g.copies, frags := g.frags, rng := g.rng } = g ∧
    (∀ l, l < 32 → FMap.get g'.rng l = if f.slices.getLsbD (l / 8) then rngSeed v l else FMap.get g.rng l) ∧
    ∀ sl, f.slices.getLsbD sl = true → (g'.copy sl).kget 25 = v ∧ (g'.copy sl).s = (g.copy sl).s) ∧
  (∀ (s : State) (core : Nat) (v : Word), core < 1344 → let c := (s.core core).cg
    let legal : Prop := 4096 ≤ c.size.toNat ∧ c.size.toNat ≤ 2 ^ 30 ∧ (∃ k, c.size.toNat = 2 ^ k) ∧ c.base.toNat % 4096 = 0
    ∃ t, exec (.cgctlWrite core v) s = .next t ∧ let d := (t.core core).cg
      (d.ctl.getLsbD 0 = true ↔ v.getLsbD 0 = true ∧ legal) ∧ d.ctl.getLsbD 1 = v.getLsbD 1 ∧
      bitsOf d.ctl.toNat 9 8 = bitsOf v.toNat 9 8 ∧ bitsOf d.ctl.toNat 5 2 = min 8 (bitsOf v.toNat 5 2) ∧
      ((t.core core).hwSets.cg.cfgerr = true ↔ (s.core core).hwSets.cg.cfgerr = true ∨ (v.getLsbD 0 = true ∧ ¬ legal))) ∧
  (∀ (s : State) (core : Nat) (v : Word), core < 1344 → let c := (s.core core).cg
    ∃ t, exec (.cgrdWrite core v) s = .next t ∧ (t.core core).cg.rd = v ∧ { t.core core with cg := c } = s.core core ∧
      { (t.core core).cg with rd := c.rd, undef := c.undef } = c ∧ (∀ k, k ≠ core → t.core k = s.core k) ∧ t.gangs = s.gangs ∧
      ((c.wr - v).toNat ≤ c.size.toNat → (t.core core).cg.undef = c.undef ∧ { t with cores := s.cores } = s) ∧
      (c.size.toNat < (c.wr - v).toNat → c.base.toNat + c.size.toNat ≤ dramEnd →
        (∀ i, i < c.size.toNat → Memory.read t.mem (c.base.toNat + i) = Config.freeByte s.clk i) ∧
        (∀ a, a < c.base.toNat ∨ c.base.toNat + c.size.toNat ≤ a → Memory.read t.mem a = Memory.read s.mem a) ∧
        ∀ e ∈ s.gangList, e.2.core = core → s.traced e.2 = true → ∀ f ∈ e.2.frags, (e.1, f.tr.key) ∈ (t.core core).cg.undef)) ∧
  (∀ (s : State) (vi : Nat) (v : Dword) (i : Iface), s.iface? vi = some i → ∃ t, exec (.ptrootWrite vi v) s = .next t ∧
    t.iface? vi = some { i with ptroot := v &&& ~~~0xFFFFF#64 } ∧ (∀ n, n ≠ vi → t.iface? n = s.iface? n) ∧
    t.tlb = s.tlb.filter (fun e => e.2.1 != i.asid) ∧ t.walker = s.walker.filter (fun e => e.1 != i.asid) ∧ t.path = [] ∧
    t.gangs = s.gangs ∧ t.cores = s.cores ∧ (s.path = [] → { t with ifaces := s.ifaces, tlb := s.tlb, walker := s.walker } = s)) ∧
  ∀ (s : State) (asid : Word) (b : Dword) (n : Nat),
    (∃ t, exec (.firmwareInvalidate asid none) s = .next t ∧ t.path = [] ∧ t.gangs = s.gangs ∧ t.cores = s.cores ∧
      (∀ e, e ∈ t.tlb ↔ e ∈ s.tlb ∧ e.2.1 ≠ asid) ∧ ∀ e, e ∈ t.walker ↔ e ∈ s.walker ∧ e.1 ≠ asid) ∧
    ∃ t, exec (.firmwareInvalidate asid (some (b, n))) s = .next t ∧ t.path = [] ∧ t.gangs = s.gangs ∧ t.cores = s.cores ∧
      (∀ e ∈ s.tlb, e.2.1 ≠ asid → e ∈ t.tlb) ∧ (∀ e ∈ s.walker, e.1 ≠ asid → e ∈ t.walker) ∧
      ∀ e ∈ t.tlb, e ∈ s.tlb ∧ (e.2.1 = asid → ∀ a, b.toNat ≤ a → a < b.toNat + n → ¬ (e.2.2.1 ≤ a ∧ a < e.2.2.1 + e.2.2.2.1))

/-- 00 R8, R9: system writes of the control range: a read-only register stays as it is, a writable one reads back its writable bits,
a read of PPSTAT clears SHEDS. -/
def Claims.ControlRange : Prop := ∀ (s : State) (off : Nat) (v : Word),
  (exec (.registerWrite off v) s = .next (if off % 4 = 0 ∧ off < 2 ^ 32 then s.ctrlPut off v else s)) ∧
  (∀ o ∈ [0x402004, 0x402014, 0x404004, 0x405118, 0x404080, 0x4040C0, 0x404010], s.ctrlPut o v = s) ∧
  (∀ o m, (o, m) ∈ [(0x401000, 0x1FFFFFF#32), (0x401004, 0x3FFFFF), (0x402008, 0xFFFFFFFF), (0x40200C, 0xFFFFFFFF),
      (0x402010, 0xFFFFFFFF), (0x404000, 0xFFF), (0x405104, 0xFFFFFFFF), (0x405108, 0xFFFF), (0x405110, 0xFFFFFFFF),
      (0x405114, 0xFFFFFFFF)] → (s.ctrlPut o v).ctrlWord o = v &&& m ∧
      ∀ o', o' % 4 = 0 → o' ≠ o → (s.ctrlPut o v).breg o' = s.breg o') ∧
  (∀ b w, b < 12 → w < 10 → (s.ctrlPut (0x403000 + 64 * b + 4 * w) v).ctrlWord (0x403000 + 64 * b + 4 * w) = v) ∧
  (∀ n, n < 8 → ∃ t, exec (.registerReadClear (0x405000 + 4 * n)) s = .next t ∧
    FMap.get t.ports (n + 1) = { FMap.get s.ports (n + 1) with sheds := 0 } ∧
    (∀ k, k ≠ n + 1 → FMap.get t.ports k = FMap.get s.ports k) ∧ { t with ports := s.ports } = s) ∧
  (∀ o, o < 0x405000 ∨ 0x405020 ≤ o → exec (.registerReadClear o) s = .next s)

/-- 12 R207, R209, 24 R378: an access of system software to a core window: a store to the scratchpad puts its bytes there and nowhere
else, a read there clears nothing, and the window of a core without power discards stores. -/
def Claims.CoreWindows : Prop := ∀ (s : State) (core off : Nat) (size : Size) (v : Dword), core < 1344 → off + size.bytes ≤ 2 ^ 22 →
  (s.coreDark core = true → exec (.coreWindowAccess core off size (some v)) s = .next s) ∧
  (off + size.bytes ≤ 0x180000 → exec (.coreWindowAccess core off size none) s = .next s) ∧
  (s.coreDark core = false → off + size.bytes ≤ 0x80000 → ∃ t, exec (.coreWindowAccess core off size (some v)) s = .next t ∧
    (∀ i, i < size.bytes → Memory.read t.sp (spKey core (off + i)) = (leOf size.bytes v.toNat).getD i 0) ∧
    (∀ a, a < spKey core off ∨ spKey core off + size.bytes ≤ a → Memory.read t.sp a = Memory.read s.sp a) ∧
    (∀ n, (t.gang? n).map (fun g => { g with hist := [], spoilt := [] }) = (s.gang? n).map fun g => { g with hist := [], spoilt := [] }) ∧
    { t with sp := s.sp, gangs := s.gangs, poison := s.poison } = s)

/-- 12 R213, R216, R217, R226: a writeback cleans the line and sets its bit of the dirty bitmap, but for the bitmap's own lines; the
scrubber counts what it corrects and what it cannot, and poisons the latter. -/
def Claims.LinesKept : Prop :=
  (∀ (s : State) (line : Nat), (FMap.get s.dirty line = false → exec (.l2Writeback line) s = .next s) ∧
    (FMap.get s.dirty line = true → let db := s.dirtyBase.toNat
      let a := 64 * line
      let b := db + 64 * (a / 2 ^ 21) + a / 4096 % 512 / 8
      (db = 0 ∨ (db ≤ a ∧ a < db + 24 * 2 ^ 20) → ∃ t, exec (.l2Writeback line) s = .next t ∧ FMap.get t.dirty line = false ∧
        (∀ k, k ≠ line → FMap.get t.dirty k = FMap.get s.dirty k) ∧ { t with dirty := s.dirty } = s) ∧
      (db ≠ 0 → (a < db ∨ db + 24 * 2 ^ 20 ≤ a) → b < dramEnd → lineOf b ≠ line → ∃ t, exec (.l2Writeback line) s = .next t ∧
        FMap.get t.dirty line = false ∧ (Memory.read t.mem b).getLsbD (a / 4096 % 8) = true ∧
        (∀ k, k ≠ a / 4096 % 8 → (Memory.read t.mem b).getLsbD k = (Memory.read s.mem b).getLsbD k) ∧
        ∀ x, x ≠ b → Memory.read t.mem x = Memory.read s.mem x))) ∧
  ∀ (s : State) (line : Nat) (r : ScrubResult),
    (s.cryo ≠ .cold ∨ s.refresh = true ∨ r = .clean → exec (.patrolScrub line r) s = .next s) ∧
    (s.cryo = .cold → s.refresh = false → 64 * line < dramEnd →
      (r = .corrected → s.eccce.toNat < 2 ^ 32 - 1 → exec (.patrolScrub line r) s = .next { s with eccce := s.eccce + 1 }) ∧
      (r = .uncorrectable → s.eccue.toNat < 2 ^ 32 - 1 → ∃ t, exec (.patrolScrub line r) s = .next t ∧ t.eccue = s.eccue + 1 ∧
        FMap.get t.poison line = true ∧ (∀ k, k ≠ line → FMap.get t.poison k = FMap.get s.poison k) ∧ t.mem = s.mem ∧
        t.notices = s.notices ++ [{ ns := s.ns, kind := 1, vi := 0, addr := BitVec.ofNat 64 (64 * line) }]))

/-- 21 R350 to R353: pre-emption requests and the hardware save. -/
def Obligations.PreemptionAndSave : Prop := Claims.PreemptionRequests ∧ Claims.HardwareSaves
/-- 07 R139, 09 R179, 01 R32: blocks start. -/
def Obligations.BlockDispatch : Prop := Claims.BlocksStart
/-- 07 R157, 21 R345 to R347: ageing, parks and migrations. -/
def Obligations.AgeingParksMigrations : Prop := Claims.ClassesAge ∧ Claims.ParksEnd ∧ Claims.Migrations
/-- 00 R8, R9, 02 R45, 10 R191, R196, 12 R204 to R227: register writes, core windows, and the upkeep of memory. -/
def Obligations.RegistersAndUpkeep : Prop :=
  Claims.RegisterSteps ∧ Claims.ControlRange ∧ Claims.CoreWindows ∧ Claims.LinesKept

/-! ### Meridian (22, 18) -/

/-- 22 R361, R362, R365: at S(k), and not before, a chain whose slot is EMPTY is admitted: its slots turn RENDERING and its rate is 1×1
when no chain of its group has ended or the last one had its slack, else one step finer than the last one's. A chain still behind
another is not admitted, and its launches are cancelled without a record; a busy slot, or a hand-over that runs, admits nothing. -/
def Claims.ChainsAdmitted : Prop := ∀ (s : State) (c : Chain), s.chain? s.subject = some c → c.id = s.subject →
  (c.admitted = true ∨ c.missed = true ∨ s.ns < c.start → exec .chainAdmit s = .next s) ∧
  (c.admitted = false → c.missed = false → c.start ≤ s.ns →
    (c.behind = true → ∃ t, exec .chainAdmit s = .next t ∧ t.chain? c.id = some { c with missed := true } ∧ t.slotSt = s.slotSt ∧
      t.ring = s.ring ∧ ∀ l ∈ c.launches, ∀ x, s.launch? l = some x → ∃ y, t.launch? l = some y ∧ y.cancelled = true) ∧
    (c.behind = false → c.ready = false ∨ s.slotState c.slot ≠ 0 → exec .chainAdmit s = .next s) ∧
    (c.behind = false → c.ready = true → s.slotState c.slot = 0 →
      let r := match FMap.get s.rateLast c.rgrp with
        | none => 0
        | some (n, slack) => if slack then 0 else n - 1
      ∃ t, exec .chainAdmit s = .next t ∧ t.chain? c.id = some { c with admitted := true, rate := r, rate0 := r } ∧
        t.slotState c.slot = 1 ∧ (∀ w, c.wslot = some w → t.slotState w = 1) ∧
        (∀ n, n ≠ c.slot → c.wslot ≠ some n → t.slotState n = s.slotState n) ∧ t.ring = s.ring ∧ t.launches = s.launches ∧
        ∀ k, (∀ e ∈ s.gangList, e.2.core = k → e.2.desched = true ∨ e.2.cls ≠ 3) → (t.core k).preempt = (s.core k).preempt)) 

/-- 18 R315, 22 R362, R365, R366: a RENDERING slot whose chain has launches, all complete and all its pixels landed before D(k), turns DONE
and its WORK slot EMPTY; one still RENDERING at D(k) turns SUBSTITUTED, and its launches are cancelled; a chain that was never admitted
ends there, and its strip is owed from the fallback plane. -/
def Claims.ChainsEnd : Prop := ∀ (s : State) (c : Chain), s.chain? s.subject = some c → c.id = s.subject → s.slotState c.slot = 1 ∨ c.admitted = false →
  c.wslot ≠ some c.slot →
  let launches : Prop := c.launches ≠ [] ∧ ∀ l ∈ c.launches, ∀ x, s.launch? l = some x → x.complete = true
  let landed : Prop := ∀ r ∈ s.stores, r.chain ≠ c.id
  (¬ (c.admitted = true ∧ c.ended = false ∧ s.ns < c.deadline ∧ launches ∧ landed) → exec .stripDone s = .next s) ∧
  (c.admitted = true → c.ended = false → s.ns < c.deadline → launches → landed → ∃ t, exec .stripDone s = .next t ∧
    t.slotState c.slot = 2 ∧ (∀ w, c.wslot = some w → t.slotState w = 0) ∧
    t.chain? c.id = some { c with ended := true } ∧ t.ring = s.ring ∧
    FMap.get t.rateLast c.rgrp = some (c.rate, decide (c.deadline - c.start ≤ 5 * (c.deadline - s.ns)))) ∧
  (c.ended = true ∨ s.ns < c.deadline → exec .stripDeadline s = .next s) ∧
  (c.admitted = true → c.ended = false → c.deadline ≤ s.ns → ∃ t, exec .stripDeadline s = .next t ∧ t.slotState c.slot = 4 ∧
    (∀ w, c.wslot = some w → t.slotState w = 0) ∧ t.chain? c.id = some { c with ended := true } ∧ t.ring = s.ring ∧
    FMap.get t.rateLast c.rgrp = some (2, false) ∧
    ∀ l ∈ c.launches, ∀ x, s.launch? l = some x → ∃ y, t.launch? l = some y ∧ y.cancelled = true) ∧
  (c.admitted = false → c.ended = false → c.deadline ≤ s.ns → c.behind = true → ∃ t, exec .stripDeadline s = .next t ∧
    t.slotSt = s.slotSt ∧ t.ring = s.ring ∧ t.owed = s.owed ++ [{ c with ended := true }] ∧ (∀ x ∈ t.chains, x.id ≠ c.id) ∧
    FMap.get t.rateLast c.rgrp = some (2, false))

/-- 18 R315, R328, R329, 22 R367: at a strip's scan-out start a DONE slot turns SCANNING, and a SUBSTITUTED one latches the active pose
of its consumer; the consumer then reads one line at a time, the slot's stored pixels or the substituted ones, and when every enabled
consumer has finished, an encoder with every strip of the row that it began for the frame, the slot turns EMPTY, its strip goes into the fallback plane unless it was SUBSTITUTED, and the chain
leaves. COMMIT copies words 0 to 9 of a bank into its active copy. -/
def Claims.StripsScanned : Prop := ∀ (s : State) (c : Chain), s.slotChain c.slot = some c → s.owed = [] → c.slot < 256 →
  s.chain? c.id = some c → (∀ x ∈ s.chains, x.id = c.id → x = c) → c.wslot ≠ some c.slot →
  let st := s.slotState c.slot
  let geo := c.geo
  (∀ (n : BitVec 3), geo.ser = some n.toNat →
    ((s.ns < c.deadline ∨ FMap.get c.lines n.toNat ≠ 0 ∨ st < 2) → exec (.scanoutStart (BitVec.ofNat 8 c.slot) (.stream n)) s = .next s) ∧
    (c.deadline ≤ s.ns → FMap.get c.lines n.toNat = 0 → 2 ≤ st → ∃ t c', exec (.scanoutStart (BitVec.ofNat 8 c.slot) (.stream n)) s = .next t ∧
      t.chain? c.id = some c' ∧ { c' with lines := c.lines, latched := c.latched } = c ∧ FMap.get c'.lines n.toNat = 1 ∧
      (st = 4 → FMap.get c'.latched n.toNat = FMap.get s.active n.toNat) ∧ (st ≠ 4 → c'.latched = c.latched) ∧
      t.slotState c.slot = (if st = 2 then 3 else st) ∧ t.ring = s.ring ∧ t.outs = s.outs)) ∧
  (∀ (k : Consumer), let b := bankOf k
    let row := FMap.get c.lines b - 1
    (1 ≤ FMap.get c.lines b → FMap.get c.lines b ≤ geo.h → ∃ t px, exec (.scanLineSend (BitVec.ofNat 8 c.slot) k) s = .next t ∧
      t.outs = s.outs ++ [.line (BitVec.ofNat 8 c.slot) k px] ∧ px.length = geo.w ∧
      t.chain? c.id = some { c with lines := FMap.put c.lines b (FMap.get c.lines b + 1) } ∧ t.ring = s.ring ∧ t.slotSt = s.slotSt ∧
      ∀ x, x < geo.w → px.getD x 0 = if st = 4 then s.posePixel (FMap.get c.latched b) x (geo.fl + row) else
        BitVec.ofNat 64 (leVal ((List.range geo.ps).map fun i =>
          Memory.read s.ring (geo.base + ((geo.halo + row) * geo.w + x) * geo.ps + i)))) ∧
    (FMap.get c.lines b = 0 ∨ geo.h < FMap.get c.lines b → exec (.scanLineSend (BitVec.ofNat 8 c.slot) k) s = .next s)) ∧
  (s.subject = c.slot → let all : Prop := ∀ b ∈ geo.banks, geo.h < FMap.get c.lines b ∧ (b < 8 ∨ ∀ x ∈ s.chains,
      x.geo.enc = geo.enc → x.geo.fl / 64 = geo.fl / 64 → x.frame = c.frame → FMap.get x.lines b = 0 ∨ x.geo.h < FMap.get x.lines b)
    (st < 3 ∨ ¬ all → exec .scanEnd s = .next s) ∧
    (3 ≤ st → all → ∃ t, exec .scanEnd s = .next t ∧ t.slotState c.slot = 0 ∧ (∀ x ∈ t.chains, x.id ≠ c.id) ∧
      (s.chains = [c] → t.ringOwn = 0) ∧ t.outs = s.outs ∧ t.mem = s.mem ∧
      t.ring = if st = 3 then (s.planeWrite geo).ring else s.ring)) ∧
  ∀ bank, (bank < 12 → ∃ t, exec (.reprojectionCommit bank) s = .next t ∧ { t with active := s.active } = s ∧
      FMap.get t.active bank = (List.range 10).map (fun w => s.breg (0x403000 + 64 * bank + 4 * w)) ∧
      ∀ b, b ≠ bank → FMap.get t.active b = FMap.get s.active b) ∧
    (12 ≤ bank → exec (.reprojectionCommit bank) s = .next s)

/-- 18 R328: the plane pixel (X, Y) of a strip is the mean of its 4 × 4 block: (sum + 8) >> 4 of each channel of 32-bit pixels; the pixels
outside the plane are not written, and nothing else of the ring is. -/
def Claims.PlaneMeans : Prop := ∀ (s : State) (g : Geom), g.w64 = false → (s.breg 0x401000).getLsbD 24 = false →
  let w := (s.breg 0x401000).toNat
  let fw := w % 4096
  let fh := w / 4096 % 4096
  let base := 64 * ((s.breg 0x401004).toNat % 2 ^ 22)
  g.fl % 4 = 0 → g.h % 4 = 0 →
  (∀ X Y, X < fw → Y < fh → X < g.w / 4 → g.fl / 4 ≤ Y → Y < (g.fl + g.h) / 4 →
    BitVec.ofNat 32 (leVal (Memory.bytes (s.planeWrite g).ring (base + (Y * fw + X) * 4) 4)) =
      let px := (List.range 16).map fun k =>
        leVal (Memory.bytes s.ring (g.base + ((g.halo + 4 * (Y - g.fl / 4) + k / 4) * g.w + (4 * X + k % 4)) * 4) 4)
      let ch := fun (k : Nat) => ((px.map fun p => p / 2 ^ (10 * k) % 1024).foldl (· + ·) 0 + 8) / 16
      BitVec.ofNat 32 (ch 0 + 2 ^ 10 * ch 1 + 2 ^ 20 * ch 2)) ∧
  ∀ a, (a < base ∨ base + fw * fh * 4 ≤ a) → Memory.read (s.planeWrite g).ring a = Memory.read s.ring a

/-- 18 R330: an encoder starts its row once every registered strip of it is DONE, SCANNING or SUBSTITUTED and its lines are covered. -/
def Claims.EncoderRows : Prop := ∀ (s : State) (enc : BitVec 2) (row : Nat) (c : Chain), s.chains = [c] → s.owed = [] → c.behind = false →
  c.geo.enc = some enc.toNat → c.geo.fl = 64 * row → c.geo.h = 64 → FMap.get c.lines (8 + enc.toNat) = 0 →
  (s.slotState c.slot < 2 → exec (.encoderRowStart enc row) s = .next s) ∧
  (2 ≤ s.slotState c.slot → ∃ t c', exec (.encoderRowStart enc row) s = .next t ∧ t.chains = [c'] ∧
    FMap.get c'.lines (8 + enc.toNat) = 1 ∧ { c' with lines := c.lines, latched := c.latched } = c ∧
    t.slotState c.slot = (if s.slotState c.slot = 2 then 3 else s.slotState c.slot) ∧ t.ring = s.ring) ∧
  ∀ r, r ≠ row → exec (.encoderRowStart enc r) s = .next s

/-- 12 R214, 22 R357, R358: the hand-over leaves the ring zero and given to it, and completes the registrations that wait; a sync's
offset of a millisecond or more forward steps station time while no chain is registered, and any other is slewed unless below
100 ns; sixteen such in a row lock. -/
def Claims.HandoverAndTime : Prop :=
  (∀ s : State, (s.ringOwn ≠ 1 → exec .ringHandoverComplete s = .next s) ∧
    (s.ringOwn = 1 → ∃ t, exec .ringHandoverComplete s = .next t ∧ t.ringOwn = 2 ∧ t.ring = [] ∧
      (∀ c ∈ t.chains, c.ready = true ∧ c.packet = none) ∧ t.chains.map (fun c => c.id) = s.chains.map (fun c => c.id) ∧
      t.gangs = s.gangs ∧ t.sp = s.sp ∧
      (s.chains.all (fun c => c.ready) = true → t.queues = s.queues))) ∧
  ∀ (s : State) (o : Int),
    ((s.breg 0x402000).getLsbD 4 = false → exec (.ptpSync o) s = .next s) ∧
    ((s.breg 0x402000).getLsbD 4 = true → ∃ t, exec (.ptpSync o) s = .next t ∧ t.offset = o ∧
      t.syncs = (if o.natAbs < 100 then min 16 (s.syncs + 1) else 0) ∧ t.stLocked = (decide (o.natAbs < 100) && decide (15 ≤ s.syncs)) ∧
      (1000000 ≤ o → s.chains = [] → t.time = s.time + 65536 * o.toNat ∧ t.slew = 0) ∧
      ((o < 1000000 ∨ s.chains ≠ []) → t.time = s.time ∧ t.slew = if o.natAbs < 100 then 0 else 65536 * o) ∧
      { t with offset := s.offset, syncs := s.syncs, time := s.time, slew := s.slew } = s)

/-- 18 R315 to R330, 22 R357 to R367: strip chains are admitted, end and leave the device. -/
def Obligations.StripChains : Prop :=
  Claims.ChainsAdmitted ∧ Claims.ChainsEnd ∧ Claims.HandoverAndTime ∧
  Claims.StripsScanned ∧ Claims.PlaneMeans ∧ Claims.EncoderRows

/-! ### The host port (27) -/

/-- An agent's write of bytes: each lands at its place, the last of several at one place, and no other byte of memory changes. -/
def Claims.PutsBytes (s t : State) (w : Who) (va : Nat) (bs : List Byte) : Prop :=
  (∀ a, (∀ k, k < bs.length → byteAt s w .store va k ≠ a) → Memory.read t.mem a = Memory.read s.mem a) ∧
  (∀ k, k < bs.length → (∀ j, k < j → j < bs.length → byteAt s w .store va j ≠ byteAt s w .store va k) →
    Memory.read t.mem (byteAt s w .store va k) = bs.getD k 0) ∧
  t.sp = s.sp ∧ t.ring = s.ring ∧ t.gangs = s.gangs ∧ t.cores = s.cores ∧ t.tlb = s.tlb

/-- 27 R396: host RDMA in an interface's context: a WRITE puts every byte and is acknowledged, or puts none and is answered with an error;
a READ returns the bytes; a SEND is acknowledged; an atomic on eight aligned bytes returns what it found. -/
def Claims.HostRdma : Prop := ∀ (s : State) (vi qp : Nat) (i : Iface), s.iface? vi = some i → qp < 64 →
  (∀ (va : Dword) (bs : List Byte) (im : Bool), bs ≠ [] →
    (HeldInDram s i.who .store va.toNat bs.length → ∃ t, exec (.rdmaWrite vi qp va bs im) s = .next t ∧
      Claims.PutsBytes s t i.who va.toNat bs ∧ t.outs = s.outs ++ [.rdmaAck vi qp]) ∧
    (∀ k n, k < bs.length → s.xlate i.who .store (va.toNat + k) = .fail n →
      exec (.rdmaWrite vi qp va bs im) s = .next { s with outs := s.outs ++ [.rdmaNak vi qp] })) ∧
  (∀ (va : Dword) (len : Nat), 1 ≤ len →
    (HeldInDram s i.who .load va.toNat len → s.poisonAt i.who va.toNat len = none → exec (.rdmaRead vi qp va len) s =
      .next { s with outs := s.outs ++ [.rdmaData vi qp ((List.range len).map fun k => Memory.read s.mem (byteAt s i.who .load va.toNat k))] }) ∧
    ((∃ k n, k < len ∧ s.xlate i.who .load (va.toNat + k) = .fail n) → exec (.rdmaRead vi qp va len) s =
      .next { s with outs := s.outs ++ [.rdmaNak vi qp] }) ∧
    (s.poisonAt i.who va.toNat len ≠ none → exec (.rdmaRead vi qp va len) s = .next { s with outs := s.outs ++ [.rdmaNak vi qp] })) ∧
  exec (.rdmaSend vi qp) s = .next { s with outs := s.outs ++ [.rdmaAck vi qp] } ∧
  ∀ (va : Dword) (op : RdmaAtomic),
    (va.toNat % 8 ≠ 0 → exec (.rdmaAtomic vi qp va op) s = .next { s with outs := s.outs ++ [.rdmaNak vi qp] }) ∧
    (va.toNat % 8 = 0 → HeldInDram s i.who .load va.toNat 8 → HeldInDram s i.who .store va.toNat 8 → s.poisonAt i.who va.toNat 8 = none →
      let old := (List.range 8).map fun k => Memory.read s.mem (byteAt s i.who .load va.toNat k)
      let m := BitVec.ofNat 64 (leVal old)
      let new : Dword := match op with
        | .fetchAdd v => m + v
        | .cas c n => if m = c then n else m
      ∃ t, exec (.rdmaAtomic vi qp va op) s = .next t ∧ Claims.PutsBytes s t i.who va.toNat (leOf 8 new.toNat) ∧
        t.outs = s.outs ++ [.rdmaData vi qp old])

/-- 27 R402, R403: a kick of a queue that the interface owns sets its write index, of two in one clock the later in the ring's order; a mapped one posts its event, an unmapped one is
pending, and is mapped at once while a slot of the quota is free and nothing else waits; ten milliseconds unmapped and pending lift its
effective priority by one, to at most 7. -/
def Claims.KicksAndAgeing : Prop := ∀ (s : State) (vi qn : Nat) (i : Iface) (q : Queue), s.iface? vi = some i → s.queue? qn = some q →
  q.vi = vi → FMap.wf s.queues = true →
  (∀ idx, (qn ∉ i.queues ∨ 4096 ≤ qn → exec (.kick vi qn idx) s = .next s) ∧
    let q1 : Queue := { q with wr := if q.kicked = some s.clk ∧ 2 ^ 31 ≤ (idx - q.wr).toNat then q.wr else idx, kicked := some s.clk }
    (qn ∈ i.queues → qn < 4096 → q.mapped.isSome = true → exec (.kick vi qn idx) s =
      .next { s.setQueue qn q1 with feq := s.feq ++ [FeEvent.kick qn] }) ∧
    (qn ∈ i.queues → qn < 4096 → q.mapped = none → q.packets = [] →
      (∀ e ∈ s.queuesOf vi, e.1 ≠ qn → e.2.pending = true → e.2.mapped.isSome = true) →
      ((s.queuesOf vi).filter fun e => e.2.mapped.isSome).length < i.slots →
      ∃ t k, exec (.kick vi qn idx) s = .next t ∧ k < i.slots ∧ (∀ e ∈ s.queuesOf vi, e.2.mapped ≠ some k) ∧
        (∃ y, t.queue? qn = some y ∧ { y with ageNs := q.ageNs } = { q1 with
          mapped := some k, mappedNs := s.ns, eff := q.base, pending := false }) ∧
        (∀ n, n ≠ qn → t.queue? n = s.queue? n) ∧ t.feq = s.feq ++ [FeEvent.wake qn] ∧ t.gangs = s.gangs ∧ t.mem = s.mem)) ∧
  (s.subject = vi → q.mapped = none → q.pending = true → q.eff ≤ 7 →
    i.slots ≤ ((s.queuesOf vi).filter fun e => e.2.mapped.isSome).length →
    (∀ e ∈ s.queuesOf vi, (e.2.mapped.isSome = true → 7 ≤ e.2.eff) ∧ e.2.eff ≤ 7) →
    ∃ t, exec .queueAgeing s = .next t ∧ t.queue? qn = some { q with
        eff := min 7 (q.eff + (s.ns - q.ageNs) / 10000000), ageNs := q.ageNs + 10000000 * ((s.ns - q.ageNs) / 10000000) } ∧
      t.gangs = s.gangs ∧ t.mem = s.mem)

/-- 27 R398, R400, R404: which packet a mapped queue offers: the next of its ring, but none while the queue is in error, has nothing
new, or holds a BARRIER back for an earlier packet; a ring that cannot be read sets ERROR. -/
def Claims.HeadPackets : Prop := ∀ (s : State) (q : Queue) (i : Iface), s.queue? s.subject = some q → s.iface? q.vi = some i →
  let at_ := q.ring.toNat + 64 * (q.rd.toNat % q.size)
  let events := [Instr.packetNop, .packetLaunch, .packetChainRegister, .invalidPacket]
  (q.mapped = none ∨ q.error = true ∨ q.rd = q.wr ∨ s.boot.resetReq.isSome = true → ∀ e ∈ events, exec e s = .next s) ∧
  (q.mapped.isSome = true → q.error = false → q.rd ≠ q.wr → s.boot.resetReq = none →
    (s.chk i.who .load at_ 64 ≠ .ok → ∀ e ∈ events, exec e s = .next (s.setQueue s.subject { q with error := true })) ∧
    (s.chk i.who .load at_ 64 = .ok → let b := (s.agentGet i.who at_ 64).1
      AfterRead s (s.agentGet i.who at_ 64).2 ∧ (HeldInDram s i.who .load at_ 64 → s.agentGet i.who at_ 64 =
        ((List.range 64).map fun k => Memory.read s.mem (byteAt s i.who .load at_ k), s)) ∧
      (field b 1 1 % 2 = 1 → (∃ p ∈ q.packets, p.report = none) → ∀ e ∈ events, exec e s = .next s) ∧
      (field b 1 1 % 2 = 0 ∨ (∀ p ∈ q.packets, p.report ≠ none) → s.headPacket s.subject = some (q, i, some (s.agentGet i.who at_ 64)))))

/-- A packet that completes as it is taken, alone in its queue: its report stands in the next slot of the completion ring. -/
def Claims.Answers (s t : State) (q : Queue) (i : Iface) (b : List Byte) (status reason : Nat) : Prop :=
  t.queue? s.subject = some { q with rd := q.rd + 1, reports := q.reports + 1 } ∧ (∀ n, n ≠ s.subject → t.queue? n = s.queue? n) ∧
  t.launches = s.launches ∧ t.chains = s.chains ∧ t.ifaces = s.ifaces ∧
  Claims.PutsBytes s t i.who (q.cring.toNat + 64 * (q.reports.toNat % q.csize))
    (leOf 8 s.ns ++ leOf 4 (field b 4 4) ++ [BitVec.ofNat 8 status, BitVec.ofNat 8 reason] ++ List.replicate 50 0)
/-- The queue is otherwise empty, and its next completion slot can be written. -/
def Claims.CanAnswer (s : State) (q : Queue) (i : Iface) : Prop :=
  q.packets = [] ∧ s.iface? q.vi = some i ∧ HeldInDram s i.who .store (q.cring.toNat + 64 * (q.reports.toNat % q.csize)) 64

/-- 27 R398, R399, R401: a no-operation completes; an invalid TYPE or a reserved field is refused with reason 1; a launch whose shape
fails with reason 2, whose descriptor cannot be read (log entry 28) or is invalid with reason 3, whose slot has no chain with reason 4,
and whose interface has its quota of launches with reason 6 (log entry 28); any other is taken as the root of a new tree, its report to
come. `s0` is the state once the packet has been read, `s2` once the descriptor has. -/
def Claims.PacketsTaken : Prop := ∀ (s s0 : State) (q : Queue) (i : Iface) (b : List Byte), s.headPacket s.subject = some (q, i, some (b, s0)) →
  let ok : Prop := field b 1 1 / 16 = 0 ∧ field b 2 2 = 0 ∧ field b 61 1 / 2 = 0 ∧ field b 62 2 = 0
  let type := field b 0 1
  let wrong := fun (e : Instr) => exec e s = .next s
  (ok → type = 0 → wrong .packetLaunch ∧ wrong .packetChainRegister ∧ wrong .invalidPacket ∧
    (Claims.CanAnswer s0 q i → ∃ t, exec .packetNop s = .next t ∧ Claims.Answers s0 t q i b 0 0)) ∧
  (¬ ok ∨ 3 ≤ type → wrong .packetNop ∧ wrong .packetLaunch ∧ wrong .packetChainRegister ∧
    (Claims.CanAnswer s0 q i → ∃ t, exec .invalidPacket s = .next t ∧ Claims.Answers s0 t q i b 2 1)) ∧
  (ok → type = 1 →
    let nx := field b 24 4
    let ny := field b 28 4
    let nz := field b 32 4
    let seed := field b 1 1 / 2 % 2 == 1
    let shape := shapeOk nx ny nz seed (field b 36 8) (field b 44 4) (field b 48 8) (field b 56 4)
    let kd := s0.readKdesc i.who (field b 8 8)
    let busy := (s.launchList.filter fun e => e.2.vi == q.vi && !e.2.complete).length
    let refused := fun (u : State) (reason : Nat) =>
      Claims.CanAnswer u q i → ∃ t, exec .packetLaunch s = .next t ∧ Claims.Answers u t q i b 2 reason
    wrong .packetNop ∧ wrong .packetChainRegister ∧ wrong .invalidPacket ∧ (shape = false → refused s0 2) ∧
    (shape = true → kd = none → refused s0 3) ∧
    ∀ d s2, shape = true → kd = some (d, s2) → AfterRead s0 s2 ∧
      (kdescOk d = false ∨ kernelFits (kdescOf d) (nx * ny * nz) seed = false → refused s2 3) ∧
      (kdescOk d = true → kernelFits (kdescOf d) (nx * ny * nz) seed = true →
        (field b 61 1 % 2 = 1 → (∀ c ∈ s.chains, c.slot ≠ field b 60 1) → refused s2 4) ∧
        (field b 61 1 % 2 = 0 → i.jobQuota ≤ busy → refused s2 6) ∧
        (field b 61 1 % 2 = 0 → busy < i.jobQuota → ∃ t l, exec .packetLaunch s = .next t ∧ t.launch? s.nextLaunch = some l ∧
          t.nextLaunch = s.nextLaunch + 1 ∧ (∀ n, n ≠ s.nextLaunch → t.launch? n = s.launch? n) ∧ t.chains = s.chains ∧
          t.queue? s.subject = some { q with rd := q.rd + 1, packets := q.packets ++ [{ idx := q.rd.toNat, bytes := b }] } ∧
          l.packet = some (s.subject, q.rd.toNat) ∧ l.vi = q.vi ∧ l.nx = nx ∧ l.ny = ny ∧ l.nz = nz ∧ l.seed = seed ∧
          l.param = BitVec.ofNat 64 (field b 16 8) ∧ l.chain = none ∧ l.dispatched = [] ∧ l.cancelled = false ∧
          l.kd.entry = (kdescOf d).entry ∧
          l.kd.cls = (if field b 1 1 / 4 % 4 = 0 then (kdescOf d).cls else field b 1 1 / 4 % 4) ∧
          FMap.get t.trees l.tree = { c := 1, root := s.nextLaunch } ∧ t.gangs = s.gangs ∧ t.mem = s2.mem)))

/-- 22 R359, R360, R362, 12 R214, 27 R420: a chain registration is refused with reason 5 or gives Meridian the chain of its record: it
owns its slot, whose descriptor is written, or stands behind the chain that does; the first one waits for the hand-over. -/
def Claims.ChainsRegistered : Prop := ∀ (s s0 : State) (q : Queue) (i : Iface) (b : List Byte),
  s.headPacket s.subject = some (q, i, some (b, s0)) →
  field b 1 1 / 16 = 0 → field b 2 2 = 0 → field b 61 1 / 2 = 0 → field b 62 2 = 0 → field b 0 1 = 2 →
  let a := field b 8 8
  let r := (s0.agentGet i.who a 128).1
  let s2 := (s0.agentGet i.who a 128).2
  let c := chainOf r s.nextChain
  (a % 64 ≠ 0 ∨ s0.chk i.who .load a 128 ≠ .ok → Claims.CanAnswer s0 q i →
    ∃ t, exec .packetChainRegister s = .next t ∧ Claims.Answers s0 t q i b 2 5) ∧
  (a % 64 = 0 → s0.chk i.who .load a 128 = .ok → s.chainRefused r c = true → Claims.CanAnswer s2 q i →
    ∃ t, exec .packetChainRegister s = .next t ∧ Claims.Answers s2 t q i b 2 5) ∧
  (field r 8 8 ≤ field r 0 8 ∨ field r 0 8 ≤ s.ns ∨ field r 32 21 = 0 ∨ field r 25 7 ≠ 0 ∨ s.cryo = .hotStop → s.chainRefused r c = true) ∧
  (a % 64 = 0 → s0.chk i.who .load a 128 = .ok → s.chainRefused r c = false → ∃ t x, exec .packetChainRegister s = .next t ∧
    t.chains = s.chains ++ [x] ∧ x.id = s.nextChain ∧ t.nextChain = s.nextChain + 1 ∧ x.start = field r 0 8 ∧ x.deadline = field r 8 8 ∧
    x.slot = field r 22 1 ∧ x.wslot = (if field r 23 1 = 255 then none else some (field r 23 1)) ∧ x.admitted = false ∧ x.launches = [] ∧
    x.behind = s.chains.any (fun y => y.slot == field r 22 1) ∧ x.ready = (s.ringOwn == 2) ∧
    (s.ringOwn = 2 → t.ringOwn = 2) ∧ (s.ringOwn ≠ 2 → t.ringOwn = 1 ∧ x.packet = some (s.subject, q.rd.toNat)) ∧
    (x.behind = false → t.breg (0x400000 + 16 * x.slot) = BitVec.ofNat 32 (field r 64 4) &&& 0x1E0F03FF) ∧ t.slotSt = s.slotSt ∧
    t.ring = s.ring ∧ t.gangs = s.gangs)

/-- 27 R395, 28 R412: an interface is created within the slot quota on queue identities that none owns, its queues unmapped at the start
of their rings; destroying it takes its queues, its context and its translations; binding a peer gives it the peer's address. -/
def Claims.Interfaces : Prop :=
  (∀ (s : State) (vi : Nat) (p : IfaceParams) (i : Iface), s.boot.recovery = false → s.iface? vi = some i →
    exec (.interfaceCreate vi p) s = .next s) ∧
  (∀ (s : State) (vi : Nat) (p : IfaceParams) (x : QueueParams), s.boot.recovery = false → vi < 64 → s.ifaces = [] → 1 ≤ p.slots →
    p.slots ≤ 256 → p.queues = [x] → x.q < 4096 → s.queue? x.q = none → x.ring.toNat % 64 = 0 → x.cring.toNat % 64 = 0 →
    (∃ k, 4 ≤ k ∧ k ≤ 16 ∧ x.size = 2 ^ k) → (∃ k, 4 ≤ k ∧ k ≤ 16 ∧ x.csize = 2 ^ k) →
    ∃ t i y, exec (.interfaceCreate vi p) s = .next t ∧ t.iface? vi = some i ∧ i.asid = p.asid ∧ i.slots = p.slots ∧ i.queues = [x.q] ∧
      i.ptroot = p.ptroot &&& ~~~0xFFFFF#64 ∧ i.share = p.share ∧ i.jobQuota = p.jobQuota ∧ i.regions = p.regions ∧ t.queue? x.q = some y ∧ y.vi = vi ∧ y.ring = x.ring ∧
      y.size = x.size ∧ y.rd = 0 ∧ y.wr = 0 ∧ y.mapped = none ∧ y.base = x.base % 8 ∧ y.eff = x.base % 8 ∧
      { t with ifaces := s.ifaces, queues := s.queues } = s) ∧
  (∀ (s : State) (vi : Nat) (i : Iface), s.iface? vi = some i → (∀ e ∈ s.launchList, e.2.vi = vi → e.2.complete = true) →
    ∃ t, exec (.interfaceDestroy vi) s = .next t ∧ t.iface? vi = none ∧ (∀ q ∈ i.queues, t.queue? q = none) ∧
      (∀ q, q ∉ i.queues → t.queue? q = s.queue? q) ∧ (∀ e, e ∈ t.tlb ↔ e ∈ s.tlb ∧ e.2.1 ≠ i.asid) ∧
      (∀ e, e ∈ t.walker ↔ e ∈ s.walker ∧ e.1 ≠ i.asid) ∧ t.path = [] ∧
      (s.path = [] → { t with ifaces := s.ifaces, queues := s.queues, tlb := s.tlb, walker := s.walker } = s)) ∧
  ∀ (s : State) (vi peer : Nat) (exp : Dword) (i : Iface), s.iface? vi = some i →
    (peer < 256 → ∃ t i', exec (.peerContextBind vi peer exp) s = .next t ∧ t.iface? vi = some i' ∧
      { i' with peers := i.peers } = i ∧ FMap.get i'.peers peer = some exp ∧
      (∀ n, n ≠ peer → FMap.get i'.peers n = FMap.get i.peers n) ∧ { t with ifaces := s.ifaces } = s) ∧
    (256 ≤ peer → exec (.peerContextBind vi peer exp) s = .next s)

/-- 27 R397, 28 R412: the oldest unacknowledged store of its side completes: its operation waits for one thing less; a refused one is a
memory fault of kind 5. -/
def Claims.RemoteStores : Prop := ∀ (s : State) (peer ok : Bool) (r : RemoteStore),
  let i : Instr := if peer then .peerStoreAck ok else .hostStoreAck ok
  ((∀ x ∈ s.remote, x.peer ≠ peer) → exec i s = .next s) ∧
  (s.remote.find? (fun x => x.peer == peer) = some r →
    (r.gang = none → exec i s = .next { s with remote := s.remote.erase r }) ∧
    (∀ n g, r.gang = some n → s.gang? n = some g →
      (ok = true → ∃ t g', exec i s = .next t ∧ t.remote = s.remote.erase r ∧ t.gang? n = some g' ∧
        { g' with asyncs := g.asyncs } = g ∧
        g'.asyncs = (match r.op with
          | some op => g.asyncs.map fun o => if o.id = op then { o with hold := o.hold - 1 } else o
          | none => g.asyncs) ∧
        (∀ m, m ≠ n → t.gang? m = s.gang? m) ∧ { t with remote := s.remote, gangs := s.gangs } = s) ∧
      (∀ f rest, ok = false → g.frags = f :: rest → f.slices ≠ 0 → f.inHandler = false → (g.low f).kget64 0 ≠ 0 → ∃ t g' f',
        exec i s = .next t ∧ t.remote = s.remote.erase r ∧ t.gang? n = some g' ∧ f' ∈ g'.frags ∧ f'.inHandler = true ∧
        f'.slices = f.slices ∧ ((g'.low f').kget 2).toNat % 256 = Cause.memory.code ∧ (g'.low f').kget 3 = 0x500 ∧
        (g'.low f').kget64 102 = BitVec.ofNat 64 r.va)))

/-- 27 R398 to R401, 22 R359, R360: packets of user queues. -/
def Obligations.QueuePackets : Prop := Claims.HeadPackets ∧ Claims.PacketsTaken ∧ Claims.ChainsRegistered
/-- 27 R395 to R397, R402, R403, 28 R412: host RDMA, kicks, the ageing of queues, acknowledgements, and interfaces. -/
def Obligations.HostAccess : Prop :=
  Claims.HostRdma ∧ Claims.KicksAndAgeing ∧ Claims.RemoteStores ∧
  Claims.Interfaces

/-! ### Peer ports and frame lock (28) -/

/-- 28 R411, R412: the next flit of an UP port is delivered once and acknowledged: a store puts its bytes in the context bound to the
interface, a load is answered with its bytes, one that fails with an error; a flit received before is acknowledged and not delivered
again, one after a gap is reported lost; a port that is not UP takes none. -/
def Claims.FlitsReceived : Prop := ∀ (s : State) (port : Nat) (f : Flit), 1 ≤ port → port ≤ 8 →
  let p := FMap.get s.ports port
  (p.st ≠ 1 → exec (.flitReceive port f) s = .next s) ∧
  (p.st = 1 → f.seq ≠ p.rxSeq → exec (.flitReceive port f) s =
    .next { s with outs := s.outs ++ [if (f.seq - p.rxSeq).msb then .flitAck port (p.rxSeq - 1) else .flitNak port p.rxSeq] }) ∧
  (p.st = 1 → f.seq = p.rxSeq →
    let took := fun (t : State) => FMap.get t.ports port = { p with rxSeq := p.rxSeq + 1 } ∧
      ∀ n, n ≠ port → FMap.get t.ports n = FMap.get s.ports n
    (∀ vi va bs, f.body = .store vi va bs → bs ≠ [] →
      (s.iface? vi = none → ∃ t, exec (.flitReceive port f) s = .next t ∧ took t ∧
        t.outs = s.outs ++ [.peerError port, .flitAck port f.seq] ∧ t.mem = s.mem) ∧
      (∀ i, s.iface? vi = some i → HeldInDram s i.who .store va.toNat bs.length → ∃ t, exec (.flitReceive port f) s = .next t ∧ took t ∧
        Claims.PutsBytes s t i.who va.toNat bs ∧ t.outs = s.outs ++ [.flitAck port f.seq])) ∧
    (∀ vi va len i, f.body = .load vi va len → s.iface? vi = some i → 1 ≤ len → HeldInDram s i.who .load va.toNat len →
      ∃ t, exec (.flitReceive port f) s = .next t ∧ took t ∧ t.mem = s.mem ∧ t.outs = s.outs ++
        [if s.poisonAt i.who va.toNat len = none then
            .peerData port ((List.range len).map fun k => Memory.read s.mem (byteAt s i.who .load va.toNat k)) else .peerError port,
          .flitAck port f.seq]) ∧
    ∀ vi va op dw d n i, f.body = .atomic vi va op dw d n → s.iface? vi = some i → let k := if dw then 8 else 4
      (va.toNat % k ≠ 0 → ∃ t, exec (.flitReceive port f) s = .next t ∧ took t ∧ t.mem = s.mem ∧
        t.outs = s.outs ++ [.peerError port, .flitAck port f.seq]) ∧
      (va.toNat % k = 0 → HeldInDram s i.who .load va.toNat k → HeldInDram s i.who .store va.toNat k → s.poisonAt i.who va.toNat k = none →
        let old := (List.range k).map fun j => Memory.read s.mem (byteAt s i.who .load va.toNat j)
        ∃ t, exec (.flitReceive port f) s = .next t ∧ took t ∧ t.outs = s.outs ++ [.peerData port old, .flitAck port f.seq] ∧
          Claims.PutsBytes s t i.who va.toNat (leOf k (atomNew op (8 * k) (leVal old) d.toNat n.toNat))))

/-- 28 R411: what a port that sends does: an acknowledgement frees the replay buffer up to its flit, and a NAK or ten microseconds
without one send the flits again in their order. -/
def Claims.FlitsSent : Prop := ∀ (s : State) (port : Nat) (seq : Word),
  let p := FMap.get s.ports port
  let before := fun (a b : Word) => (a - b).msb
  (p.wait = [] → ∃ t, exec (.flitAcknowledgement port seq) s = .next t ∧ { t with ports := s.ports } = s ∧
    FMap.get t.ports port = { p with replay := p.replay.filter (fun x => before seq x.seq), since := s.ns } ∧
    ∀ n, n ≠ port → FMap.get t.ports n = FMap.get s.ports n) ∧
  (∀ x, p.wait = [x] → p.st = 1 → p.replay.length < 4096 → (∀ y ∈ p.replay, y.stream ≠ x.stream) → ∃ t,
    exec (.flitAcknowledgement port seq) s = .next t ∧ t.outs = s.outs ++ [.flit port { x with seq := p.txSeq }] ∧
    (FMap.get t.ports port).replay = (p.replay.filter fun y => before seq y.seq) ++ [{ x with seq := p.txSeq }] ∧
    (FMap.get t.ports port).wait = [] ∧ (FMap.get t.ports port).txSeq = p.txSeq + 1) ∧
  (p.st = 1 → ∃ t, exec (.flitNak port seq) s = .next t ∧
    t.outs = s.outs ++ (p.replay.filter fun x => !before x.seq seq).map (fun x => Output.flit port x) ∧
    FMap.get t.ports port = { p with since := s.ns } ∧ { t with outs := s.outs, ports := s.ports } = s) ∧
  (p.st ≠ 1 → exec (.flitNak port seq) s = .next s) ∧
  (s.subject = port → (p.st ≠ 1 ∨ p.replay = [] ∨ s.ns < p.since + 10000 → exec .flitReplayTimeout s = .next s) ∧
    (p.st = 1 → p.replay ≠ [] → p.since + 10000 ≤ s.ns → ∃ t, exec .flitReplayTimeout s = .next t ∧
      t.outs = s.outs ++ p.replay.map (fun x => Output.flit port x) ∧ FMap.get t.ports port = { p with since := s.ns } ∧
      { t with outs := s.outs, ports := s.ports } = s))

/-- 28 R413: more than 64 uncorrectable codewords halve an UP port's lanes, or take it DOWN at two lanes; the end of retraining makes it UP
and replays what is unacknowledged before any new flit; two microseconds without one take it DOWN; WIDEN retrains at eight lanes. -/
def Claims.LanesShed : Prop := ∀ (s : State) (port : Nat), 1 ≤ port → port ≤ 8 →
  let p := FMap.get s.ports port
  let down := fun (t : State) => (FMap.get t.ports port).st = 0 ∧ (FMap.get t.ports port).replay = [] ∧
    (FMap.get t.ports port).wait = [] ∧ ∀ r ∈ t.remote, ¬ (r.peer = true ∧ r.port = port)
  (∀ n, (p.st ≠ 1 ∨ n ≤ 64 → exec (.laneShed port n) s = .next s) ∧
    (p.st = 1 → 64 < n → p.lanes ≠ 2 → ∃ t, exec (.laneShed port n) s = .next t ∧ { t with ports := s.ports } = s ∧
      FMap.get t.ports port = { p with st := 2, lanes := p.lanes + 1, sheds := min 65535 (p.sheds + 1), since := s.ns, widen := false }) ∧
    (p.st = 1 → 64 < n → p.lanes = 2 → ∃ t, exec (.laneShed port n) s = .next t ∧ down t)) ∧
  (s.subject = port →
    (p.st ≠ 2 → exec .shedRetrainComplete s = .next s) ∧
    (p.st = 2 → p.wait = [] → ∃ t, exec .shedRetrainComplete s = .next t ∧
      t.outs = s.outs ++ p.replay.map (fun x => Output.flit port x) ∧
      FMap.get t.ports port = { p with st := 1, lanes := if p.widen then 0 else p.lanes, widen := false, since := s.ns }) ∧
    (p.st = 2 → p.since + 2000 ≤ s.ns → ∃ t, exec .shedRetrainTimeout s = .next t ∧ down t) ∧
    (p.st = 0 → ∃ t, exec .shedRetrainTimeout s = .next t ∧ down t) ∧
    (p.st = 1 ∨ (p.st = 2 ∧ s.ns < p.since + 2000) → exec .shedRetrainTimeout s = .next s) ∧
    (p.st = 1 → ∃ t, exec .ppctlWiden s = .next t ∧ FMap.get t.ports port = { p with st := 2, since := s.ns, widen := true } ∧
      { t with ports := s.ports } = s) ∧ (p.st ≠ 1 → exec .ppctlWiden s = .next s))

/-- 28 R414 to R419: at a frame's start the acting leader sends its beacon with the frame's number and its members, itself among them, and
without those that have withdrawn or missed three frames; a device of the group that receives a beacon of a lower MID takes its
members and acknowledges it; an acknowledgement clears a member's count; a withdrawal is kept for the next beacon. -/
def Claims.FrameLock : Prop :=
  let on := fun (s : State) => (s.breg 0x405100).getLsbD 0 = true
  let mid := fun (s : State) => (s.breg 0x405100).toNat / 2 ^ 8 % 256
  (∀ s : State, ¬ on s ∨ s.framesStarted ≤ s.lock.frame → exec .frameStart s = .next s) ∧
  (∀ s : State, on s → mid s < 24 → s.lock.frame < s.framesStarted → s.lock.acting = true → (s.breg 0x405100).getLsbD 1 = true →
    16 ≤ s.syncs → s.lock.back = 0 → mid s ∉ s.lock.leave → ∃ t b, exec .frameStart s = .next t ∧
      t.outs = s.outs ++ [.beacon b] ∧ b.mid.toNat = mid s ∧ b.group.toNat = (s.breg 0x405100).toNat / 2 ^ 16 ∧
      b.frame = s.framesStarted - 1 ∧ b.epoch.toNat = s.flEpoch ∧ b.members = t.lock.members ∧ t.lock.frame = s.framesStarted ∧
      t.lock.acting = true ∧ t.flstat.getLsbD 29 = true ∧ b.members.getLsbD (mid s) = true ∧
      (∀ m, m < 24 → m ≠ mid s → m ∈ s.lock.leave ∨ (3 ≤ FMap.get s.lock.missed m ∧ FMap.get s.lock.joining m < 16) →
        b.members.getLsbD m = false) ∧
      ∀ m, m < 24 → m ∉ s.lock.leave → FMap.get s.lock.missed m < 3 → s.lock.members.getLsbD m = true → b.members.getLsbD m = true) ∧
  (∀ s : State, on s → s.lock.frame < s.framesStarted → (s.breg 0x405100).getLsbD 1 = false ∨ s.syncs < 16 → ∃ t,
    exec .frameStart s = .next t ∧ t.outs = s.outs ∧ t.lock.acting = false ∧ t.lock.frame = s.framesStarted ∧
    (s.syncs < 16 → mid s < 24 → t.lock.members.getLsbD (mid s) = false) ∧
    ∀ m, m < 24 → m ≠ mid s → t.lock.members.getLsbD m = s.lock.members.getLsbD m) ∧
  (∀ (s : State) (b : Beacon),
    (¬ on s ∨ b.group.toNat ≠ (s.breg 0x405100).toNat / 2 ^ 16 ∨ b.mid.toNat = mid s ∨ 24 ≤ b.mid.toNat → exec (.beaconReceive b) s = .next s) ∧
    (on s → b.group.toNat = (s.breg 0x405100).toNat / 2 ^ 16 → b.mid.toNat < mid s → mid s < 24 → s.lock.heard = none →
      mid s ∉ s.lock.leave → ∃ t, exec (.beaconReceive b) s = .next t ∧ t.outs = s.outs ++ [.beaconAck (BitVec.ofNat 8 (mid s))] ∧
        t.lock.back = 2 ∧ t.lock.silent = 0 ∧ t.lock.lead = some b.mid.toNat ∧
        (∀ m, m < 24 → m ≠ mid s → t.lock.members.getLsbD m = b.members.getLsbD m) ∧ { t with lock := s.lock, outs := s.outs, notices := s.notices } = s)) ∧
  (∀ (s : State) (m : Byte), (¬ on s ∨ 24 ≤ m.toNat → exec (.beaconAcknowledgement m) s = .next s ∧ exec (.withdraw m) s = .next s) ∧
    (on s → m.toNat < 24 → (∃ t, exec (.beaconAcknowledgement m) s = .next t ∧ FMap.get t.lock.missed m.toNat = 0 ∧
        FMap.get t.lock.joining m.toNat = (if s.lock.members.getLsbD m.toNat then 0 else FMap.get s.lock.joining m.toNat + 1) ∧
        t.lock.members = s.lock.members ∧ { t with lock := s.lock } = s) ∧
      exec (.withdraw m) s = .next { s with lock := { s.lock with
        leave := s.lock.leave ++ [m.toNat], acting := s.lock.acting && m.toNat != mid s } }))

/-! ### Boot (27) -/

/-- 27 R407, R408, R410: a module reset leaves what survives it, every other field as reset has it, and boots the authentic image of the
higher sequence number, equal ones slot A, whose digest MR1 measures; without one the device is in recovery. -/
def Claims.ModuleResets : Prop := ∀ s : State, ∃ t, exec .moduleReset s = .next t ∧
  { t with boot := {}, outs := [], clk := 0, clk0 := 0, turns := [], gang := 0, slice := 0, subject := 0 } = State.reset ∧ t.outs = s.outs ∧
  t.clk = s.clk ∧ t.clk0 = s.clk ∧
  t.boot.flash = s.boot.flash ∧ t.boot.config = s.boot.config ∧
  let good := fun (n : Nat) (im : Image) => FMap.get s.boot.flash n = some im ∧ Config.sm3 im.body = im.digest ∧
    Config.sm2Valid im.digest im.sig = true ∧
    ∀ r ∈ s.boot.config, Config.sm3 r.body = r.digest → Config.sm2Valid r.digest r.sig = true → r.seq.toNat ≤ im.seq.toNat
  (∀ im, good 0 im → (∀ x, ¬ good 1 x) → t.boot.running = some 0) ∧ (∀ im, good 1 im → (∀ x, ¬ good 0 x) → t.boot.running = some 1) ∧
  (∀ a b, good 0 a → good 1 b → s.boot.failed = none → t.boot.running = some (if a.seq.toNat < b.seq.toNat then 1 else 0)) ∧
  (∀ im, (∀ x, ¬ good 1 x) → good 0 im → FMap.get t.boot.mr 1 = Config.sm3 (leOf 32 0 ++ leOf 32 im.digest.toNat) ∧
    ∀ n, 2 ≤ n → FMap.get t.boot.mr n = 0) ∧
  ((∀ n x, ¬ good n x) → s.boot.staging = none → t.boot.recovery = true ∧ t.boot.running = none)

/-- 27 R408 to R410: a quote signs the nonce, the registers, the time and the key's digest; an authentic image goes to the slot that did
not boot; a recovery image goes to the staging buffer in recovery alone; in recovery every other request is answered with an error. -/
def Claims.ImagesAndQuotes : Prop := ∀ (s : State) (im : Image) (nonce : BitVec 256),
  let err : Host.Outcome State Fault Refusal := .next { s with outs := s.outs ++ [.mgmtError] }
  (s.boot.recovery = false → exec (.attestationQuote nonce) s = .next { s with outs := s.outs ++ [.quote
    (Config.sm2Sign (leOf 32 nonce.toNat ++ (List.range 8).flatMap (fun n => leOf 32 (FMap.get s.boot.mr n).toNat) ++ leOf 8 s.ns ++
      leOf 32 (Config.sm3 Config.devicePublicKey).toNat)) Config.devicePublicKey] } ∧
    exec (.recoveryUpload im) s = err ∧
    (Config.sm3 im.body ≠ im.digest ∨ Config.sm2Valid im.digest im.sig = false → exec (.managementImageUpload im) s = err) ∧
    (∀ n, s.boot.running = some n → n < 2 → Config.sm3 im.body = im.digest → Config.sm2Valid im.digest im.sig = true → s.boot.config = [] →
      exec (.managementImageUpload im) s =
        .next { s with boot := { s.boot with flash := FMap.put s.boot.flash (1 - n) (some im), fresh := some (1 - n) } })) ∧
  (s.boot.recovery = true → exec (.attestationQuote nonce) s = err ∧ exec (.managementImageUpload im) s = err ∧
    exec .deviceResetRequest s = err ∧
    (im.body.length ≤ 2 ^ 26 → exec (.recoveryUpload im) s = .next { s with boot := { s.boot with staging := some im } }))

/-- 27 R409: a requested reset first ends every chain; with every gang saved it resets the machine but keeps memory, queues, launches,
blocks and gangs; after 100 ms the gangs that remain are pre-empted, once. -/
def Claims.DeviceResets : Prop := ∀ s : State, s.boot.recovery = false →
  (s.boot.resetReq = none → s.chains = [] → exec .deviceResetRequest s =
    .next { s with boot := { s.boot with resetReq := some s.ns } }) ∧
  ∀ n, s.boot.resetReq = some n →
    ((∀ e ∈ s.gangList, e.2.desched = true) → s.path = [] → ∃ t, exec .deviceResetRequest s = .next t ∧ t.mem = s.mem ∧ t.gangs = s.gangs ∧
      t.blocks = s.blocks ∧ t.launches = s.launches ∧ t.ifaces = s.ifaces ∧ t.cryo = .warm ∧ t.ring = [] ∧ t.sp = [] ∧ t.chains = [] ∧
      t.boot.resetReq = none ∧ (∀ c, t.core c = {}) ∧
      ∀ q x, s.queue? q = some x → ∃ y, t.queue? q = some y ∧ y.mapped = none ∧ y.ring = x.ring ∧ y.rd = x.rd ∧ y.wr = x.wr ∧
        y.packets = x.packets ∧ y.reports = x.reports ∧ y.eff = x.eff) ∧
    ((∃ e ∈ s.gangList, e.2.desched = false) → (s.ns < n + 100000000 ∨ s.boot.saving = true → exec .deviceResetRequest s = .next s) ∧
      (n + 100000000 ≤ s.ns → s.boot.saving = false → ∃ t, exec .deviceResetRequest s = .next t ∧ t.boot.saving = true ∧
        ∀ e ∈ s.gangList, e.2.desched = false → (t.core e.2.core).preempt.isSome = true))

/-- 28 R411 to R419: peer ports and frame lock. -/
def Obligations.PortsAndFrameLock : Prop :=
  Claims.FlitsReceived ∧ Claims.FlitsSent ∧ Claims.LanesShed ∧
  Claims.FrameLock
/-- 27 R407 to R410: boot, update, attestation, recovery. -/
def Obligations.BootAndRecovery : Prop := Claims.ModuleResets ∧ Claims.ImagesAndQuotes ∧ Claims.DeviceResets

/-! ### Encodings, steps and the state as a whole (01, 03, 12) -/

/-- 03 R56 to R62: a scalar word and its instruction are two writings of one thing: the word of a well-formed instruction decodes to it,
every word that is not illegal is the word of its instruction, which is well-formed, and an illegal one is named with its own bits. -/
def Obligations.ScalarWordsRoundTrip : Prop :=
  (∀ (i : Instr) (w : Word), i.wf = true → encodeScalar i = some w → decodeScalar w = i) ∧
  ∀ w x : Word, (decodeScalar w = .illegalScalarWord x → x = w) ∧
    (decodeScalar w ≠ .illegalScalarWord w → (decodeScalar w).wf = true ∧ encodeScalar (decodeScalar w) = some w)

/-- 03 R63 to R72: the L-word of a well-formed lane instruction decodes to it, alone and as the first item of the bytes that
the full form stores, whatever follows them; and its fields are the L-word's bits, each in its place. -/
def Obligations.LaneItemsRoundTrip : Prop := ∀ (i : Instr) (w : LWord) (more : List Byte), i.wf = true → encodeLWord i = some w →
  decodeLWord LaneCtx.any false w = i ∧ decodeLaneItem LaneCtx.any (encode i ++ more) = (i, 13) ∧
  LWord.ofBits w.toBits = w ∧ (encode i).length = 13

/-- 03 R65 to R67, R76: no bit of an L-word is dropped: every L-word that passes its checks is the L-word of its instruction, which is
well-formed. -/
def Obligations.LaneWordsMeanOneInstruction : Prop := ∀ w : LWord, (∀ c, decodeLWord LaneCtx.any false w ≠ .illegalLaneItem c) →
  (decodeLWord LaneCtx.any false w).wf = true ∧ encodeLWord (decodeLWord LaneCtx.any false w) = some w

/-- 04 R89: the item of an L-word expands to it, whatever follows; it is an L4, an L6, an L8 or the full form, the first that fits. -/
def Obligations.LaneFormsChosen : Prop := ∀ (w : LWord) (more : List Byte),
  let n := (laneForm w).length
  let l4 : Prop := w.opcode.toNat ≤ 0x7F ∧ w.scope = 0 ∧ w.vb.toNat < 128 ∧ w.vc = 0 ∧ w.modi = 0 ∧ w.ext = 0 ∧ w.flag = 0 ∧ w.rnd = 0 ∧
    laneDefault w = some w.cls ∧ w.reuse = 0 ∧ w.guard = 0
  let l6 : Prop := w.vc = 0 ∧ w.modi = 0 ∧ w.ext = 0 ∧ w.rnd = 0 ∧ w.guard = 0
  let l8 : Prop := w.scope = 0 ∧ w.vc = 0 ∧ w.modi = 0 ∧ (-2 ^ 18 ≤ w.ext.toInt ∧ w.ext.toInt < 2 ^ 18) ∧ w.rnd = 0 ∧ w.reuse = 0 ∧ w.guard = 0
  readItem (laneForm w ++ more) = .lane w n (decide (n = 4)) ∧
  (l4 → n = 4) ∧ (¬ l4 → l6 → n = 6) ∧ (¬ l4 → ¬ l6 → l8 → n = 8) ∧ (¬ l4 → ¬ l6 → ¬ l8 → n = 13)

/-- 04 R84 to R87, 03 R73: a clause of 1 to 32 statements that pass their checks under the selectors it binds and the kernel's register
limits has a header that says their number, its wait mask and its bound flags, 0xF for an unbound one, and passes its own checks; a
statement that fails one, a flag above f11 and any other number of statements are errors. A kernel outside the limits of its directives
is an error; any other's descriptor of 320 bytes reads back as the kernel, its scratchpad rounded up to 256 bytes, and it is valid when
the kernel keeps the other limits of R87. -/
def Obligations.ClausesAndDescriptors : Prop :=
  (∀ (k : KDesc) (wait : BitVec 12) (fa fb : Option (BitVec 4)) (ws : List LWord) (more : List Byte),
    let bad : Prop := ws = [] ∨ 32 < ws.length ∨ (∃ f, (fa = some f ∨ fb = some f) ∧ 11 < f.toNat)
    let ok : Prop := ∀ w ∈ ws, laneChecks { boundA := fa.isSome, boundB := fb.isSome, sys := k.priv } false w = none ∧
      overAlloc k.regs k.accs k.tiles 1 (buildLane w) = none
    (bad ∨ ¬ ok → clauseBytes k wait fa fb ws = none) ∧
    (¬ bad → ok → ∃ h q, clauseBytes k wait fa fb ws = some (h ++ ws.flatMap laneForm) ∧ h.length = 4 ∧ readItem (h ++ more) = .header q ∧
      headerCheck q = none ∧ hdrN q + 1 = ws.length ∧ hdrWait q = wait ∧ hdrFA q = fa.getD 15 ∧ hdrFB q = fb.getD 15)) ∧
  ∀ k : KDesc,
    let limits : Prop := 1 ≤ k.cls ∧ k.cls ≤ 3 ∧ 1 ≤ k.gangs ∧ k.gangs ≤ 32 ∧ 1 ≤ k.width ∧ k.width ≤ 4 ∧ 32 ≤ k.regs ∧ k.regs ≤ 256 ∧
      k.regs % 32 = 0 ∧ k.accs ≤ 8 ∧ k.tiles ≤ 16 ∧ k.scratch ≤ 524288 ∧ k.leases.length ≤ 16
    (¬ limits → k.bytes = none) ∧
    (limits → (∀ l ∈ k.leases, l.2.1.toNat < 2 ^ 56) → ∃ b, k.bytes = some b ∧ b.length = 320 ∧
      kdescOf b = { k with scratch := 256 * ((k.scratch + 255) / 256) } ∧
      (k.gangs ≤ 4 * perPart k.regs k.accs → k.entry.toNat % 4 = 0 → k.scbase ≤ k.entry →
        k.entry.toNat < k.scbase.toNat + k.scsize.toNat → 4 ≤ k.scsize.toNat →
        (∀ l ∈ k.leases, 1 ≤ l.2.2.toNat ∧ l.2.2.toNat ≤ 2 ^ 40 ∧ l.2.1.toNat + l.2.2.toNat ≤ 2 ^ 56) → (k.demand = true → k.leases = []) →
        kdescOk b = true) ∧
      (4 * perPart k.regs k.accs < k.gangs ∨ k.entry.toNat % 4 ≠ 0 ∨ k.entry < k.scbase ∨ k.scbase.toNat + k.scsize.toNat ≤ k.entry.toNat ∨
        (∃ l ∈ k.leases, l.2.2 = 0) ∨ (k.demand = true ∧ k.leases ≠ []) → kdescOk b = false))

/-- The words that the spec writes out in its own examples decode to the statements they stand for (03, 04, 05, 06, 08, 11, 14, 17, 19,
20, 24). -/
def Obligations.ExampleWordsDecode : Prop :=
  decodeScalar 0x00518700 = .saddReg 5 6 7 ∧ decodeScalar 0x0451BFFD = .saddImm 5 6 0x3FFD ∧ decodeScalar 0x00414647 = .ssel 4 5 6 7 ∧
  decodeScalar 0x30812345 = .slui 8 0x12345 ∧ decodeScalar 0x68030010 = .mopAndn 12 .xm ∧ decodeScalar 0x64A00019 = .kwr 10 25 ∧
  decodeScalar 0x82400140 = .vrunOffset (some 2) 0x140 ∧ decodeScalar 0x8C88A000 = .gset 2 .ne 5 ∧
  decodeScalar 0x94000009 = .waitf 9 ∧ decodeScalar 0xA400000A = .call 10 ∧ decodeScalar 0xB4240FFD = .loop 9 0xFFD ∧
  decodeScalar 0xAA0C4FFE = .bcSigned .lt 3 4 0xFFE ∧ decodeScalar 0xAD50F004 = .bcUnsigned true 20 15 4 ∧
  decodeScalar 0xF0002A07 = .trap 0x2A ∧ decodeScalar 0xF0000004 = .gend ∧
  decodeLaneItem LaneCtx.any [0x20, 0x06, 0x02, 0x04] = (.fadd 3 1 (.vec 2) 3 .rne, 4) ∧
  decodeLaneItem LaneCtx.any [0xE0, 0, 0, 0, 0, 0x06, 0, 0, 0x20, 0x10, 0x30, 0, 0x08] = (.fadd 3 1 (.vec 2) 3 .rne, 13) ∧
  decodeLaneItem LaneCtx.any [0x60, 0xC0, 0x40, 0x00, 0x32, 0x03] = (.fadd 3 1 (.vec 200) 3 .rne, 6) ∧
  decodeLaneItem LaneCtx.any [0xE0, 0, 0, 0, 0, 0x06, 0x70, 0x02, 0, 0x40, 0x80, 0, 0x0E] = (.cvt 8 4 3 7 true .rne, 13) ∧
  decodeLaneItem LaneCtx.any [0xE0, 0x03, 0, 0, 0, 0x02, 0x04, 0xA6, 0x20, 0x90, 0x80, 0, 0x31] =
    (.atom 8 9 (.glob 2) 10 .add false .acqrel .device false 0 1 .a, 13) ∧
  decodeLaneItem LaneCtx.any [0xE0, 0, 0, 0, 0, 0x0E, 0x46, 0x01, 0x30, 0, 0x12, 0, 0x80] =
    (.mma .l 1 32 3 20 true 7 { flag := .a, guard := none }, 13) ∧
  decodeLaneItem LaneCtx.any [0xE0, 0, 0, 0, 0, 0x0A, 0x40, 0x01, 0, 0, 0x02, 0x20, 0x80] =
    (.mma .s 0 32 0 20 false 5 { flag := .none, guard := none }, 13) ∧
  decodeLaneItem LaneCtx.any [0xE0, 0, 0, 0, 0, 0, 0x50, 0, 0x40, 0x21, 0x20, 0x40, 0x21] = (.shfl .l 2 2 (.scal 20) .up, 13) ∧
  decodeLaneItem LaneCtx.any [0x40, 0x0A, 0x00, 0x0A, 0x00, 0x00] = (.vfpush none 40, 6) ∧
  decodeLaneItem LaneCtx.any [0xE0, 0, 0, 0, 0, 0, 0x10, 0, 0, 0x80, 0x52, 0, 0xA0] = (.vfpush (some 5) 40, 13) ∧
  (decodeLaneItem LaneCtx.any [0xFF, 0x20, 0x06, 0x02, 0x04]).1 = .illegalLaneItem 1

/-- 01 R15, R19: a turn of a stream runs the decoded instruction: of a fragment that may issue, the scalar stream executes the
instruction whose word stands at its SPC, and the lane stream the item at its LPC, as fetched once it has been, or enters the next clause
where none is in issue; a turn of the device executes its row. -/
def Claims.TurnsRunTheirInstruction : Prop :=
  (∀ (s : State) (gid sl : Nat) (g : Gang) (f : Frag) (i : Instr), let s0 := s.naming gid sl s.subject
    s0.cur = some (g, f) → s0.mayRun g = true →
    (f.mayScalar = true → ∀ w, i.wf = true → encodeScalar i = some w → s0.scalarBytes g f.spc.toNat = leBytes 4 w.toNat →
      scalarTurn gid sl s = exec i (s0.fetched (s0.whoGang g) f.spc.toNat 4)) ∧
    (f.mayLane = true → f.draining = false →
      (∀ e b r n, f.entered = some e → f.item = [] → s0.laneBytes g e.base e.limit f.lpc.toNat = b :: r → itemLength b ≤ r.length + 1 →
        decodeLaneItem (s0.laneCtx g e.fa e.fb) (b :: r) = (i, n) →
        laneTurn gid sl s = exec i ((s0.fetched (s0.whoGang g) (e.base.toNat + f.lpc.toNat) (itemLength b)).setCur g
          { f with itemLen := n, item := b :: r, lwait := .none })) ∧
      (∀ e n, f.entered = some e → f.item ≠ [] → decodeLaneItem (s0.laneCtx g e.fa e.fb) f.item = (i, n) →
        laneTurn gid sl s = exec i (s0.setCur g { f with itemLen := n, lwait := .none })) ∧
      (f.entered = none → laneTurn gid sl s = exec .clauseEnter s0))) ∧
  ∀ (s t : State) (i : Instr) (gid sl sub : Nat), eventRow (s.naming gid sl sub) i = true → exec i (s.naming gid sl sub) = .next t →
    runTurn s (.event i gid sl sub) = t

/-- 01 R15, 07 R156, R157: a step whose turns hold one stream of the device's only fragment runs the turn of the other: it takes the clock's
turns, runs that turn, accounts for its issue unless it only waits, and closes the clock (07 R144); where the turn is the lane stream's, it leaves
no other fragment, whose scalar stream could issue in the clock. -/
def Claims.StepsTakeOneTurn : Prop := ∀ (s t : State) (gid sl : Nat) (rest : List (List Turn)) (g : Gang) (f : Frag) (lane : Bool),
  let n : List Turn := [.busy gid sl (!lane)]
  let s1 := { s.tick with turns := rest }
  s.turns = n :: rest → s1.gangList = [(gid, g)] → s1.gang? gid = some g → g.desched = false → g.frags = [f] → f.slices ≠ 0 →
  sl = lowSlice f.slices → streamTurn lane (gid, sl) s1 = .next t → (lane = true → ∀ e ∈ t.streams, e = (gid, sl)) →
    let d := s1.doing lane (gid, sl) (.next t)
    let u := (t.issued gid f.slices lane).membersIssued s1
    (s1.moved t gid sl = false → d = .note) ∧ (lane = false → s1.moved t gid sl = true → d = .issue) ∧
    (d = .note → step s = .next (t.closeClock (some n))) ∧ (d = .meet → step s = .next (u.closeClock (some n))) ∧
    (d = .issue → step s = .next ((u.countReady [(gid, sl)]).closeClock (some n)))

/-- 01 R15, R19: a step runs the decoded instruction. -/
def Obligations.StepsRunTheirInstruction : Prop := Claims.TurnsRunTheirInstruction ∧ Claims.StepsTakeOneTurn

/-- 21 R335 to R341, 07 R144: every instruction goes on: it has its effect, takes its trap or leaves its fragment waiting, in every
state that has a current fragment, and each step of the device in every state; where there is none the machine faults by that name,
which is the model's own. -/
def Obligations.EveryInstructionGoesOn : Prop := ∀ (i : Instr) (s : State),
  (∃ t, exec i s = .next t) ∨ (s.cur = none ∧ exec i s = .fault .noFragment)

/-- 12 R206, R210, R213, R226, 18 R311: every step keeps the three memories in their one canonical form, so that two runs that leave the
same bytes leave the same memory. -/
def Obligations.StepsKeepMemoriesCanonical : Prop := ∀ s t : State, s.memOk → step s = .next t → t.memOk

/-- 01 R28, R33, 07 R157, 10 R190, 12 R209, 26 R384, R388, R389: what module reset leaves. No gang, block, launch, interface or queue exists,
the per-core and per-device k-registers hold the values of their tables, memory is in canonical form with nothing listed, every
message queue is disabled, every FIFO empty and every template byte zero, and the device is WARM. That an unlisted byte reads zero is
the model's choice (assumption 5). -/
def Obligations.ResetLeaves : Prop :=
  let r := State.reset
  r.memOk ∧ (∀ a, Memory.read r.mem a = 0 ∧ Memory.read r.sp a = 0 ∧ Memory.read r.ring a = 0) ∧
  r.gangList = [] ∧ r.blockList = [] ∧ r.launchList = [] ∧ r.chains = [] ∧ r.cryo = Cryo.warm ∧ (∀ v, r.iface? v = none) ∧
  (∀ q, r.queue? q = none) ∧ (∀ n, (FMap.get r.domains n).level = 0) ∧ r.ml = 200 ∧ (∀ n, FMap.get r.boot.mr n = 0) ∧
  ∀ c, c < nCores →
    (∀ k, k ∈ [40, 42, 48, 49, 56, 64, 65, 66, 67, 68, 69, 70, 71, 72, 78, 79, 81, 82, 84, 85, 86, 87, 88, 89, 90, 91, 92, 93, 94, 95, 96,
      97, 98, 99, 111] → r.kcore c k = 0) ∧
    r.kcore c 41 = 256 ∧ r.kcore c 101 = 256 ∧ (r.core c).fifo = [] ∧ (r.core c).copies = [] ∧
    (∀ n, FMap.get (r.core c).tpl n = 0 ∧ FMap.get (r.core c).towner n = { sys := true, asid := none })

/-! ### Statements of one kind together -/

/-- 05 R93, R95, R96: what each scalar computation gives, in every slice from its own copy: register and immediate forms, shifts, fields, tests and
pairs, with s0 reading zero and keeping no write (01 R11, R12). -/
def Obligations.ScalarArithmetic : Prop := Claims.ScalarRegisterArithmetic ∧ Claims.ScalarShiftsByRegister ∧ Claims.ScalarImmediates ∧ Claims.ScalarFieldsAndTests ∧ Claims.ScalarPairs

/-- 05 R98, R106, 01 R16: masks are read and written, NOPs and reserved NOPs pass, and a register with a pending mark stalls the scalar stream. -/
def Obligations.ScalarMasksNopsAndMarks : Prop := Claims.ScalarMasks ∧ Claims.ScalarNops ∧ Claims.ScalarWaitsForMarks


/-- 05 R103, 12 R212, R225, 13 R229: scalar loads read memory and leave it as it is; scalar stores take their path and reach the L2. -/
def Obligations.ScalarMemory : Prop :=
  Claims.ScalarLoads ∧ Claims.LoadsReadAndKeepMemory ∧ Claims.TranslationSetsOnlyA ∧
  Claims.ScalarStores ∧ Claims.StoresTakeTheirPath ∧ Claims.StoreReachesL2

/-- 05 R97, 07 R141: jumps, calls, returns and branches, each slice to its own next address. -/
def Obligations.ScalarControl : Prop := Claims.ScalarJumps ∧ Claims.BranchesGoEachSlice

/-- 05 R105, 01 R28: KRD and KWR. -/
def Obligations.ControlRegisters : Prop := Claims.ControlRegisterReads ∧ Claims.ControlRegisterWrites


/-- 05 R100 to R102, 01 R18, R19, R24, 06 R112: clauses are enqueued and entered, guards are set, cleared and resolved, and lane writes land. -/
def Obligations.ClausesAndGuards : Prop :=
  Claims.ClausesEnqueue ∧ Claims.ClauseEnters ∧
  Claims.GuardsSetAndClear ∧ Claims.GuardsResolve ∧ Claims.WaitsForLaneWork ∧ Claims.LaneWritesLand

/-- 05 R106, 21 R335 to R341: TRAP, BRK and illegal words, and the entry of a handler. -/
def Obligations.TrapsEnterHandlers : Prop := Claims.ScalarTraps ∧ Claims.TrapEntries

/-- 05 R107 to R109: TRET returns from a handler, PDONE yields the gang, and GEND ends it. -/
def Obligations.HandlersReturnAndEnd : Prop :=
  Claims.TrapReturns ∧ Claims.PdoneYields ∧ Claims.GendEnds

/-- 06 R117, R120: integer arithmetic and comparisons of lanes. -/
def Obligations.LaneArithmeticAndCompare : Prop := Claims.LaneArithmetic ∧ Claims.LaneCompare

/-- 06 R118, R119, R121 to R123: logic, shifts, fields, permutes, selections and moves of lanes. -/
def Obligations.LaneBitsAndMoves : Prop := Claims.LaneBits ∧ Claims.LaneMoves

/-- 06 R124 to R126: scalar floats of lanes, their edges, and the special results of the approximated functions. -/
def Obligations.LaneFloats : Prop := Claims.LaneFloat ∧ Claims.FloatEdges ∧ Claims.LaneApproximations

/-- 06 R127, R128, R130 to R132: packed arithmetic, dot products and conversions. -/
def Obligations.LanePackedAndConversions : Prop := Claims.LanePacked ∧ Claims.LaneConversions

/-- 01 R13, R27, 06 R114, R129, R133: tags are written and read, and a lane instruction is checked before it takes effect. -/
def Obligations.LaneTagsAndChecks : Prop := Claims.LaneTags ∧ Claims.LaneChecks

/-- 06 R134 to R136, 14 R245, R247: loads and stores of lanes, global and scratchpad. -/
def Obligations.LaneMemory : Prop := Claims.LaneLoads ∧ Claims.LaneStores ∧ Claims.Scratchpads


/-- 14 R248 to R252, R256 to R258: atomics, fences, waits on memory, hints and cache maintenance. -/
def Obligations.AtomicsFencesAndHints : Prop :=
  Claims.AtomicsAtTheL2 ∧ Claims.Atomics ∧
  Claims.Fences ∧ Claims.WaitsOnMemory ∧ Claims.HintsAndMaintenance

/-- 08 R162 to R167: quad exchanges, votes, shuffles, reductions and scans. -/
def Obligations.RowInstructions : Prop := Claims.Quads ∧ Claims.RowResults ∧ Claims.RowFunctions

/-- 07 R144, R147 to R149, 08 R168 to R170, R172: barriers, sets, rendezvous, re-gang and LBAR. -/
def Obligations.RendezvousAndBarriers : Prop := Claims.BarriersAndSets ∧ Claims.RendezvousSteps ∧ Claims.FragmentsMerge ∧ Claims.LaunchBarriers

/-! ### Every form completes

For each form, conditions on the state and its operands alone under which it has its own effect. What that effect is, the statements above
give in full. -/

/-- 05 R91 to R109: the scalar forms. A computation whose registers carry no mark advances past its word and writes its destination alone;
a load or store whose address passes its checks, a k-register that the gang may access, a branch, an enqueue, a wait whose condition holds, a
trap into a handler, a return from one, and an end. -/
def Obligations.ScalarFormsComplete : Prop :=
  (∀ (d a b x : SReg) (i : BitVec 14) (n l p : BitVec 5) (o : BitVec 20) (w : BitVec 26) (c : SCond) (m : MaskName),
    ∀ e ∈ [(Instr.saddReg d a b, [d, a, b], [d]), (.ssub d a b, [d, a, b], [d]), (.smul d a b, [d, a, b], [d]), (.sdiv d a b, [d, a, b], [d]),
        (.srem d a b, [d, a, b], [d]), (.sandReg d a b, [d, a, b], [d]), (.sorReg d a b, [d, a, b], [d]), (.sxorReg d a b, [d, a, b], [d]),
        (.sandn d a b, [d, a, b], [d]), (.sshlReg d a b, [d, a, b], [d]), (.sshrReg d a b, [d, a, b], [d]), (.ssraReg d a b, [d, a, b], [d]),
        (.smin d a b, [d, a, b], [d]), (.smax d a b, [d, a, b], [d]), (.sclz d a, [d, a], [d]), (.spopc d a, [d, a], [d]),
        (.saddpReg d a b, [d, d + 1, a, a + 1, b, b + 1], [d, d + 1]), (.scmp c d a b, [d, a, b], [d]), (.ssel d a b x, [d, a, b, x], [d]),
        (.saddImm d a i, [d, a], [d]), (.sandImm d a i, [d, a], [d]), (.sorImm d a i, [d, a], [d]), (.sxorImm d a i, [d, a], [d]),
        (.sshlImm d a n, [d, a], [d]), (.sshrImm d a n, [d, a], [d]), (.ssraImm d a n, [d, a], [d]), (.sbfx d a l p, [d, a], [d]),
        (.sbfi d a l p, [d, a], [d]), (.saddpImm d a i, [d, d + 1, a, a + 1], [d, d + 1]), (.slui d o, [d], [d]),
        (.slea d o, [d, d + 1], [d, d + 1]), (.time d, [d, d + 1], [d, d + 1]), (.mrd d m, [d], [d]), (.nop, [], []),
        (.scalarReservedNop3D w, [], []), (.scalarReservedNop3E w, [], [])], ScalarDoes e.1 e.2.1 (KeepsBut e.2.2)) ∧
  (∀ (s : State) (g : Gang) (f : Frag) (d a : SReg) (i : BitVec 14), s.cur = some (g, f) → Agree g f (fun c => scalarAddr c a i) →
    let va := scalarAddr (g.low f) a i
    let w := s.whoGang g
    (∀ e ∈ [(Instr.sld d a i, 4, [d], [d, a, a + 1]), (.sldD d a i, 8, [d, d + 1], [d, d + 1, a, a + 1])], f.free e.2.2.2 = true →
      s.chk w .load va e.2.1 = .ok → s.poisonAt w va e.2.1 = none →
      ∃ t, exec e.1 s = .next t ∧ FragTo g f.advance (KeepsBut e.2.2.1) (s.loadV g false va e.2.1).2 t) ∧
    (f.free [d, a, a + 1] = true → Agree g f (fun c => (c.get d).toNat) → s.chk w .store va 4 = .ok →
      let bs := leOf 4 ((g.low f).get d).toNat
      s.wouldHold g va bs = false → exec (.sst d a i) s = .next (s.storeV g (some s.gang) none 64 va bs).advCur) ∧
    (f.free [d, d + 1, a, a + 1] = true → Agree g f (fun c => (c.getPair d).toNat) → s.chk w .store va 8 = .ok →
      let bs := leOf 8 ((g.low f).getPair d).toNat
      s.wouldHold g va bs = false → exec (.sstD d a i) s = .next (s.storeV g (some s.gang) none 64 va bs).advCur)) ∧
  (∀ (s : State) (g : Gang) (f : Frag) (r : SReg) (k : Byte) (m : MaskName), s.cur = some (g, f) → f.free [r] = true →
    (g.priv = true ∨ userNone k.toNat = false →
      (perSlice k.toNat = true → ∃ t, exec (.krd r k) s = .next t ∧ FragTo g f.advance (KeepsBut [r]) s t) ∧
      (perSlice k.toNat = true → k ≠ 25 → ∃ t, exec (.kwr r k) s = .next t ∧
        FragTo g (f.kwrote g.priv k.toNat).advance (fun c c' => c'.s = c.s ∧ c'.flags = c.flags ∧ c'.guards = c.guards) s t)) ∧
    (Agree g f (fun c => c.get r) → ∀ i ∈ [Instr.mwr r m, .mopAnd r m, .mopOr r m, .mopAndn r m, .mopXor r m],
      ∃ t g' f', exec i s = .next t ∧ t.cur = some (g', f') ∧ f'.spc = f.spc + 4 ∧ f'.slices = f.slices ∧
        (∀ q, q ≠ m → g'.mask q = g.mask q) ∧ g'.copies = g.copies ∧ g'.v = g.v)) ∧
  (∀ (s : State) (g : Gang) (f : Frag) (guard : Option GSlot) (o : BitVec 20) (a b : SReg) (slot : GSlot) (c : GCond) (m : MaskName)
      (mask off : BitVec 12) (j : BitVec 26) (bc : BCond) (u : Bool), s.cur = some (g, f) →
    (f.queue.length < 8 → ∀ e ∈ [(Instr.vrunOffset guard o, BitVec.ofNat 32 o.toNat), (.vrunRegister guard a, (g.low f).get a)],
      f.free [a] = true → Agree g f (fun c => c.get a) → ∃ t f' q, exec e.1 s = .next t ∧ FragTo g f' Keeps s t ∧
        f'.spc = f.spc + 4 ∧ f'.queue = f.queue ++ [q] ∧ q.off = e.2 ∧ q.guard = guard ∧ q.id = f.nextId) ∧
    (g.consumer s.gang f slot = false → ∃ t, exec (.gset slot c a) s = .next t ∧ FragTo g f.advance (fun k k' => k'.s = k.s ∧ k'.k = k.k ∧
      (FMap.get k'.guards slot.toNat).bound = some (a, c)) s t) ∧
    (∃ t, exec (.gclr slot) s = .next (t.sweep s.gang) ∧ FragTo g f.advance (fun k k' => k'.s = k.s ∧ k'.k = k.k ∧
      (FMap.get k'.guards slot.toNat).bound = none ∧ (FMap.get k'.guards slot.toNat).st = .fals) s t) ∧
    (f.queue = [] → f.entered = none → f.marks = [] → (∀ sl n, f.slices.getLsbD sl = true → n < 12 → FMap.get (g.copy sl).flags n = 0) →
      ∀ i ∈ [Instr.waitf mask, .vdrain], ∃ t, exec i s = .next t ∧ FragTo g f.advance Keeps s t) ∧
    (∃ t, exec (.br j) s = .next t ∧ FragTo g { f.advance with spc := target f.spc j } Keeps s t) ∧
    (f.free [62, 63] = true → ∃ t, exec (.call j) s = .next t ∧ FragTo g { f.advance with spc := target f.spc j } (KeepsBut [62, 63]) s t) ∧
    (let goes := fun (i : Instr) (R : SliceCopy → SliceCopy → Prop) (P : Nat → Dword → Prop) => ∃ t g', exec i s = .next t ∧
        t.gang? s.gang = some g' ∧ (∀ sl, f.slices.getLsbD sl = true → ∃ x, g'.fragOf sl = some x ∧ P sl x.spc ∧ x.queue = f.queue) ∧
        ∀ sl, if f.slices.getLsbD sl then R (g.copy sl) (g'.copy sl) else g'.copy sl = g.copy sl
     let two := fun (_ : Nat) (pc : Dword) => pc = target f.spc off ∨ pc = f.spc + 4
     (f.free [a, b] = true → goes (.bcSigned bc a b off) Keeps two ∧ goes (.bcUnsigned u a b off) Keeps two) ∧
     (a ≠ 0 → f.free [a] = true → goes (.loop a off) (Puts a fun c => c.get a - 1) two) ∧ goes (.bzm m off) Keeps two ∧
     (f.free [a, a + 1] = true → goes (.jr a) Keeps fun sl pc => pc = (g.copy sl).getPair a &&& ~~~3#64) ∧
     (f.free [62, 63] = true → goes .ret Keeps fun sl pc => pc = (g.copy sl).getPair 62 &&& ~~~3#64))) ∧
  (∀ (s : State) (g : Gang) (f : Frag) (code : BitVec 12) (w : Word) (c : Cause) (tval : Word) (taddr : Dword) (lane : Bool)
      (check : BitVec 4) (kind a : Nat), s.cur = some (g, f) →
    Traps (.trap code) s g f.advance .softTrap (code.setWidth 32) 0 false ∧ Traps .brk s g f .brk 0 0 false ∧
    Traps (.illegalScalarWord w) s g f .illegal w 0 false ∧ Traps (.trapEntry c tval taddr lane) s g f c tval taddr lane ∧
    (f.entered = none ∨ check.toNat < 3 →
      Traps (.illegalLaneItem check) s g f .illegal (0x80000000 + BitVec.ofNat 32 check.toNat) 0 true) ∧
    (s.chk (s.whoGang g) .fetch f.spc.toNat 4 = .bad kind a →
      Traps .scalarFetchFault s g f (if kind = 10 then .lease else .memory) (BitVec.ofNat 32 (256 * kind)) (BitVec.ofNat 64 a) false)) ∧
  ∀ (s : State) (g : Gang) (f : Frag), s.cur = some (g, f) → f.cancelled = none →
    (f.inHandler = true → f.pend = none → Agree g f SliceCopy.resumption → g.ppSet f = false → ∃ t g' f', exec .tret s = .next t ∧
      t.cur = some (g', f') ∧ f'.slices = f.slices ∧ f'.spc = (g.low f).kget64 4 &&& ~~~3#64 ∧ f'.lpc = (g.low f).kget 6 ∧
      f'.inHandler = false ∧ f'.cls = g.cls) ∧
    (f.inHandler = true → (f.entry = 7 ∨ g.ppSet f = true) → g.mq = [] → g.running = none → g.batches = [] → (g.openB.getD {}).left = 0 →
      ∃ t g' x, exec .pdone s = .next t ∧ t.gang? s.gang = some g' ∧ g'.fragOf s.slice = some x ∧ x.slices = f.slices ∧ x.done = true ∧
        x.spc = f.spc + 4) ∧
    ((g.drained f && g.engineIdle) = true → f.pend = none → g.frags = [f] → ∃ t, exec .gend s = .next t ∧ t.gang? s.gang = none)

/-- 06, 08 R162, R163: the lane computations complete once their registers are allocated, their tags pass, no earlier write is still to give
one of their scalar sources and no source is poisoned: the item passes, and the destination alone is written, in the taking lanes, under
the tag that the rule of the form gives. -/
def Claims.LaneComputationsComplete : Prop :=
  ∀ (d a vc : VReg) (b : BSrc) (c : Tag) (sat hi sx bu fine : Bool) (p n code : BitVec 5) (i : BitVec 26) (q : BitVec 2) (r : Round)
    (x : SReg) (k : VCond),
  let cls := fun (_ : State) (_ : Gang) => c
  let i32 := fun (_ : State) (_ : Gang) => Tag.i32
  let raw := fun (_ : State) (_ : Gang) => Tag.raw
  let f32 := fun (_ : State) (_ : Gang) => Tag.f32
  let coded := fun (_ : State) (_ : Gang) => (code.setWidth 7 : Tag)
  let two := [(c, a.toNat :: bRegs b)]
  let three := [(c, [a.toNat] ++ bRegs b ++ [vc.toNat])]
  let one := [(c, [a.toNat])]
  let onef := [(Tag.f32, [a.toNat])]
  (c ∈ [Tag.i32, Tag.n32, Tag.i8x4, Tag.n8x4, Tag.i4x8, Tag.i3x10] → ∀ e ∈ [(Instr.vadd d a b c sat, two), (.vsub d a b c sat, two),
      (.vmin d a b c, two), (.vmax d a b c, two), (.vabs d a c sat, one)], LaneCompletes e.1 e.2 [d.toNat] cls) ∧
  (c ∈ [Tag.i32, Tag.n32] → LaneCompletes (.vmul d a b c hi) two [d.toNat] cls) ∧
  (c ∈ [Tag.i32, Tag.n32, Tag.f32] → LaneCompletes (.vcmp (.vec d) a b c k) two [d.toNat] i32) ∧
  (∀ e ∈ [(Instr.vmad d a b vc c, three, cls), (.vand d a b, [], srcTagOf a), (.vor d a b, [], srcTagOf a), (.vxor d a b, [], srcTagOf a),
      (.vandn d a b, [], srcTagOf a), (.vshl d a b, [], srcTagOf a), (.vshr d a b, [], srcTagOf a), (.vsra d a b, [], srcTagOf a),
      (.vclz d a, [], i32), (.vpopc d a, [], i32), (.vbfx d a p n sx, [], i32), (.vbfi d a p n, [], srcTagOf d), (.vprmb d a b vc, [], raw),
      (.vsel d a b vc, [], srcTagOf a), (.vmov d a, [], srcTagOf a), (.vbcs d x code, [], coded), (.vli d i code hi, [], coded)],
    LaneCompletes e.1 e.2.1 [d.toNat] e.2.2) ∧
  (∀ sel ∈ [Special.lane, .quad, .slice, .gang, .core, .cluster, .layer], LaneCompletes (.vspc d sel) [] [d.toNat] i32) ∧
  (∀ e ∈ [(Instr.fadd d a b c r, two, cls), (.fsub d a b c r, two, cls), (.fmul d a b c r, two, cls), (.ffma d a b vc c r, three, cls),
      (.fmin d a b c, two, cls), (.fmax d a b c, two, cls), (.frnd d a c r, one, cls), (.fcls d a Tag.f32, onef, i32),
      (.fcls d a Tag.f19, [(Tag.f19, [a.toNat])], i32), (.frcp d a, onef, f32), (.frsq d a, onef, f32), (.fsqrt d a r, onef, f32),
      (.fex2 d a, onef, f32), (.flg2 d a, onef, f32), (.fsin d a, onef, f32), (.fcos d a, onef, f32)],
    LaneCompletes e.1 e.2.1 [d.toNat] e.2.2) ∧
  (∀ e ∈ [(Instr.padd d a b c false r, two, cls), (.padd d a b c true r, two, cls), (.pmul d a b c r, two, cls),
      (.pfma d a b vc c false r, three, cls), (.pfma d a b vc c true r, three, cls), (.pmin d a b c, two, cls), (.pmax d a b c, two, cls),
      (.pdot2 d a b vc c r, [(c, a.toNat :: bRegs b), (Tag.f32, [vc.toNat])], f32)], LaneCompletes e.1 e.2.1 [d.toNat] e.2.2) ∧
  (c ∈ [Tag.i8x4, Tag.n8x4] →
    LaneCompletes (.idot4 d a b vc c sat bu) [(c, [a.toNat]), (if bu then Tag.n8x4 else Tag.i8x4, bRegs b)] [d.toNat] i32) ∧
  (∀ e ∈ [(Instr.qxch d a q, [], srcTagOf a), (.qbc d a q, [], srcTagOf a), (.qddx d a fine c r, one, cls), (.qddy d a fine c r, one, cls)],
    LaneCompletes e.1 e.2.1 [d.toNat] e.2.2)

/-- 06 R121, R130 to R133, R68: the conversions, tag instructions, moves to a scalar register and reserved NOPs complete: a conversion writes
its span of registers in the taking lanes, under the destination's tag. -/
def Claims.LaneConversionsComplete : Prop := ∀ (d a : VReg) (c : Tag) (dst n : BitVec 5) (sat h32 : Bool) (slot k : BitVec 4) (r : Round)
    (x : SReg) (tag : Tag) (rest : BitVec 86),
  let sp := cvtSpans c.fcode dst.toNat
  let m := if h32 then 32 else 16
  LaneCompletes (.cvt d a c dst sat r) [(c, span a sp.1)] (span d sp.2) (fun _ _ => BitVec.ofNat 7 (dst.toNat + 32 * c.rot)) ∧
  LaneCompletes (.cvth d a dst sat h32 r) [(Tag.f32, span a m)] (span d (m / elemsPerWord dst.toNat))
    (fun _ _ => BitVec.ofNat 7 (dst.toNat + (if h32 then 64 else 32))) ∧
  (∀ s g f, LaneReady (.cvtp d a c dst sat slot r) s g f [(c, [a.toNat])] →
    g.busyV d.toNat = true ∨ g.tagOf d.toNat = dst.setWidth 7 ∨ g.tagOf d.toNat = Tag.raw → ∃ t g' f',
      exec (.cvtp d a c dst sat slot r) s = .next t ∧ OnlyGang s t ∧ t.cur = some (g', f') ∧ Passes f f' ∧
      WritesLanes g { g' with rng := g.rng } f (span d 1) (dst.setWidth 7) fun _ _ _ => True) ∧
  (∀ s g f, LaneReady (.tagw (.v d) (.imm tag)) s g f [] → vecTagOk tag = true → ∃ t g' f', exec (.tagw (.v d) (.imm tag)) s = .next t ∧
    OnlyGang s t ∧ t.cur = some (g', f') ∧ Passes f f' ∧ g'.v = g.v ∧
    ∀ q, g'.tagOf q = if q = d.toNat ∧ g.taking f ≠ 0 then tag else g.tagOf q) ∧
  (∀ i ∈ [Instr.tagr x (.v d), .vmovTos x a n], ∀ s g f, LaneReady i s g f [] → LaneScalarCompletes i s g f) ∧
  ∀ s g f, s.cur = some (g, f) → ∃ t g' f', exec (.laneReservedNop k rest) s = .next t ∧ OnlyGang s t ∧ t.cur = some (g', f') ∧
    Passes f f' ∧ { g' with frags := g.frags } = g

/-- 06 R134 to R137, 14 R244 to R258: the memory forms complete: once every taking lane's access passes its checks and reads nothing
poisoned, the item passes, and no vector register changes but its destination's span in the taking lanes; a store of a lane changes no
byte of the L2 yet; messages, waits, hints and maintenance pass where they are not held. -/
def Obligations.LaneMemoryFormsComplete : Prop :=
  ∀ (s : State) (g : Gang) (f : Frag) (d a off : VReg) (base r x y len : SReg) (sz : Size) (sx u na dw : Bool) (sc : BitVec 2)
    (sx3 pos q : BitVec 3) (cnt : Span) (disp : BitVec 26) (disp19 : BitVec 19) (disp20 : BitVec 20) (c : Tag) (flag : FlagSel)
    (op : AtomOp) (ms : MScope) (b : Block) (msz : MsgSize) (wait : Bool) (kind : FenceKind) (pk : PrefKind) (mk : MqstKind),
  g.flagStall f flag = false → s.block? g.block = some b →
  let w := s.whoGang g
  let passes := fun (i : Instr) (ds : List Nat) => ∃ t, exec i s = .next t ∧ PassesKeeping g f ds t
  (let load := fun (i : Instr) (na : Bool) (scale n k : Nat) => LaneReady i s g f [] →
      let c' := fun va => s.chk w .load va n
      let l := g.definite off.toNat c' (s.loadBad g n) (globAddrs s.clk g f (g.taking f) base off u scale disp)
      (∀ e ∈ l, c' e.2 = .ok ∧ s.poisonAt w e.2 n = none) → (loadLanes s g na n l).2.cur = some (g, f) → passes i (span d k)
   load (.vld d base off sz sx sc u disp c flag) false sc.toNat sz.bytes sz.regs ∧
   load (.vldx d base off cnt sx3 u na disp c flag) na sx3.toNat (4 * cnt.count) cnt.count) ∧
  (let store := fun (i : Instr) (scale n : Nat) => LaneReady i s g f [] → s.opHolds s.gang s.nextOp = 0 →
      (∀ e ∈ g.definite off.toNat (fun va => s.chk w .store va n) noBad (globAddrs s.clk g f (g.storing f) base off u scale disp),
        s.chk w .store e.2 n = .ok ∧ HeldInDram s w .store e.2 n) →
      ∃ t, exec i s = .next t ∧ PassesKeeping g f [] t ∧ t.mem = s.mem ∧ t.sp = s.sp ∧ t.ring = s.ring
   store (.vst a base off sz sc u disp flag) sc.toNat sz.bytes ∧ store (.vstx a base off cnt sx3 u disp flag) sx3.toNat (4 * cnt.count)) ∧
  (LaneReady (.spld d base off sz sx sc u none disp19 c flag) s g f [] →
    (∀ e ∈ g.definite off.toNat (spChk (some b) sz.bytes) (s.spBad (some b) sz.bytes)
        (spAddrs s.clk g f (g.taking f) base off u sc.toNat (disp19.signExtend 64)),
      e.2 + sz.bytes ≤ b.scratch ∧ s.spBad (some b) sz.bytes e.2 = none) →
    passes (.spld d base off sz sx sc u none disp19 c flag) (span d sz.regs)) ∧
  (LaneReady (.spst a base off sz sc u none disp19 flag) s g f [] →
    (∀ e ∈ g.definite off.toNat (spChk (some b) sz.bytes) noBad
        (spAddrs s.clk g f (g.storing f) base off u sc.toNat (disp19.signExtend 64)), e.2 + sz.bytes ≤ b.scratch) →
    passes (.spst a base off sz sc u none disp19 flag) []) ∧
  (let n := if dw then 8 else 4
   let i := Instr.atom d a (.glob r) off op dw .rlx ms u sc c flag
   LaneReady i s g f [(c, span a (atomData op dw))] →
    let l := g.definite off.toNat (s.chkAtom w true n) (s.loadBad g n) (globAddrs s.clk g f (g.storing f) r off u sc.toNat 0)
    (∀ e ∈ l, s.chkAtom w true n e.2 = .ok ∧ s.poisonAt w e.2 n = none) →
    (l.foldl (fun (u : State) e => (u.atomGlob g e.2 n op (laneData s.clk g a.toNat n e.1) (laneData s.clk g (a.toNat + n / 4) n e.1)).2)
      s).cur = some (g, f) →
    passes i (span d (n / 4))) ∧
  (let ad := spAddr (f.captured (g.actSlice f) r) 0 (disp20.signExtend 64)
   LaneReady (.satom x y (.sp r) 0 op false .rlx ms disp20 flag) s g f [] → g.storing f ≠ 0 → ad % 4 = 0 → ad + 4 ≤ b.scratch →
    s.spBad (some b) 4 ad = none → passes (.satom x y (.sp r) 0 op false .rlx ms disp20 flag) []) ∧
  (LaneReady (.fence kind ms) s g f [] → (kind ≠ .acq → s.remotePending ms = false) →
    ∃ t g' f', exec (.fence kind ms) s = .next t ∧ t.cur = some (g', f') ∧ Passes f f' ∧ { g' with frags := g.frags } = g ∧
      (wideScope ms = true → ∀ e ∈ t.path, e.1 ≠ g.core)) ∧
  (let ad := spAddr (f.captured (g.actSlice f) r) 0 0
   LaneReady (.waita x y (.sp r) false ms 0) s g f [] → g.taking f ≠ 0 → ad % 4 = 0 → ad + 4 ≤ b.scratch → s.spBad (some b) 4 ad = none →
    f.lwait = .none → BitVec.ofNat 32 (leVal ((List.range 4).map fun k => Memory.read s.sp (spKey b.core (256 * b.spbase + ad) + k))) =
      f.captured (g.actSlice f) y → passes (.waita x y (.sp r) false ms 0) []) ∧
  (∀ bk, LaneReady (.msend a (.imm pos q) msz flag) s g f [] → g.storing f ≠ 0 → s.reachBlock g pos.toNat = some bk →
    FMap.get (s.core g.core).credits (8 * pos.toNat + q.toNat) ≠ 0 → ∃ t g' f' o, exec (.msend a (.imm pos q) msz flag) s = .next t ∧
      t.cur = some (g', f') ∧ g'.asyncs = g.asyncs ++ [o] ∧ o.id = s.nextOp ∧ o.hold = 1 ∧
      FMap.get (t.core g.core).credits (8 * pos.toNat + q.toNat) = FMap.get (s.core g.core).credits (8 * pos.toNat + q.toNat) - 1) ∧
  (let m := FMap.get (s.core g.core).mqs q.toNat
   let i := Instr.mrecv d x msz wait q c flag
   LaneReady i s g f [] → g.taking f ≠ 0 → mqEn m.cfg = true → m.owner = some g.block → m.head ≠ m.tail →
    s.spBad (some b) (min msz.bytes (2 ^ (4 + mqEsz m.cfg))) (mqBase m.cfg + m.head.toNat % mqCount m.cfg * 2 ^ (4 + mqEsz m.cfg)) = none →
    ∃ t g' f', exec i s = .next t ∧ t.cur = some (g', f') ∧ PassesOn f f' ∧ (FMap.get (t.core g.core).mqs q.toNat).head = m.head + 1) ∧
  (LaneReady (.mqst x mk pos q) s g f [] → LaneScalarCompletes (.mqst x mk pos q) s g f) ∧
  (LaneReady (.pref base off pk sc u disp) s g f [] → ∃ t g' f', exec (.pref base off pk sc u disp) s = .next t ∧ t.cur = some (g', f') ∧
    Passes f f' ∧ { g' with frags := g.frags } = g) ∧
  ∀ i ∈ [Instr.cmaintL1inv len base flag, .cmaintWb len base flag, .cmaintWbinv len base flag, .cmaintIcinv len base flag,
      .cmaintTlbinv len base flag, .cmaintTlbctx flag],
    LaneReady i s g f [] → g.taking f ≠ 0 → (f.captured (g.actSlice f) len).toNat ≠ 0 →
      ∃ t g' f', exec i s = .next t ∧ t.cur = some (g', f') ∧ Passes f f' ∧ g'.v = g.v ∧ g'.vtag = g.vtag ∧ t.sp = s.sp

/-- 06, 08 R162, R163: the lane computations and conversions complete. -/
def Obligations.LaneComputationsComplete : Prop := Claims.LaneComputationsComplete ∧ Claims.LaneConversionsComplete

/-- 08: the parallel forms complete: votes, shuffles, reductions, scans, barriers and set declarations once the members of their scope have
arrived; the others where what they wait for holds. LBAR arrives, and its release takes its fragments past it. -/
def Obligations.ParallelFormsComplete : Prop :=
  (∀ (sc : Scope) (d a : VReg) (b : BSrc) (k : VoteKind) (m : ShflMode) (op : RedOp) (c : Tag) (r : Round) (excl : Bool) (z : BitVec 2),
    let same := fun (s : State) (_ : Gang) => s
    let writes := fun (_ : State) (_ : List Party) (p : Party) (g' : Gang) =>
      ∀ q l, l < 32 → ¬ (q = d.toNat ∧ l ∈ p.lanes) → g'.vraw q l = p.g.vraw q l
    let nothing := fun (_ : State) (_ : List Party) (p : Party) (g' : Gang) => g'.v = p.g.v ∧ g'.a = p.g.a ∧ g'.copies = p.g.copies
    MembersDo (.vote sc (.vec d) a k) sc [] same writes ∧ MembersDo (.shfl sc d a b m) sc [] same writes ∧
    MembersDo (.vred sc (.vec d) a op c r) sc [(c, [a.toNat])] same writes ∧
    MembersDo (.vscan sc d a op excl c r) sc [(c, [a.toNat])] same writes ∧ MembersDo (.bar sc) sc [] same nothing ∧
    MembersDo (.setdcl z) .b [] (fun s g => match s.block? g.block with
      | some b => s.setBlock g.block { b with setSize := if z = 0 then 0 else 2 ^ z.toNat }
      | none => s) nothing) ∧
  (∀ (s : State) (g : Gang) (f : Frag) (d a : VReg) (x base : SReg) (name : BSrc) (cons : Bool) (flag : FlagSel) (l : Launch) (i : Iface),
    s.launch? g.launch = some l → s.iface? g.vi = some i → g.frags.Pairwise (fun x y => x.slices &&& y.slices = 0) →
    (LaneReady (.gwid x) s g f [] → LaneScalarCompletes (.gwid x) s g f) ∧
    (LaneReady .lexit s g f [] → ∃ t g' f', exec .lexit s = .next t ∧ t.cur = some (g', f') ∧ Passes f f' ∧ g'.v = g.v ∧
      ∀ l, l < 32 → g'.lm.getLsbD l = (g.lm.getLsbD l && !(g.taking f).getLsbD l)) ∧
    (LaneReady (.refill d) s g f [] → FMap.get l.queues (clusterOf g.core) ≠ [] ∨ l.nitems ≤ l.itemsTaken →
      ∃ t g' f', exec (.refill d) s = .next t ∧ t.cur = some (g', f') ∧ Passes f f' ∧
        ∀ r v, r ≠ d.toNat → v < 32 → g'.vraw r v = g.vraw r v) ∧
    (LaneReady (.spawn d a base flag) s g f [] → g.flagStall f flag = false →
      (∀ n ∈ lanesOf (g.storing f), let va := (f.capturedPair (n / 8) base).toNat
        s.chk (s.whoGang g) .load va 64 = .ok ∧ s.poisonAt (s.whoGang g) va 64 = none) →
      ∃ t, exec (.spawn d a base flag) s = .next t ∧ PassesKeeping g f [d.toNat] t) ∧
    (LaneReady (.evsig name) s g f [] → ∃ t g' f', exec (.evsig name) s = .next t ∧ t.cur = some (g', f') ∧ PassesOn f f' ∧
      ∀ n ∈ eventNames s.clk g f name, (s.event g.vi n).waiters = [] → (t.event g.vi n).isSet = true) ∧
    (LaneReady (.evclr name) s g f [] → ∃ t g' f', exec (.evclr name) s = .next t ∧ t.cur = some (g', f') ∧ Passes f f' ∧
      { g' with frags := g.frags } = g ∧ ∀ n ∈ eventNames s.clk g f name, (t.event g.vi n).isSet = false) ∧
    (LaneReady (.evwait name cons .none) s g f [] → (∀ r, f.lwait ≠ .evwait r) →
      (∀ n ∈ eventNames s.clk g f name, (s.event g.vi n).isSet = true) → ∃ t g' f', exec (.evwait name cons .none) s = .next t ∧
        t.cur = some (g', f') ∧ Passes f f' ∧ { g' with frags := g.frags } = g) ∧
    (LaneReady .regang s g f [] → g.frags = [f] → g.exiting = 0 → f.slices ≠ 0 → ∃ t, exec .regang s = .next t ∧ PassesOnly g f s t) ∧
    (LaneReady .lbar s g f [] → l.kd.coop = true → f.atRdv = false →
      (let g1 := g.putFrag { f with lwait := .lbar s.clk }
       ∀ p ∈ (s.updGang s.gang g1).parties .b s.gang g1, ∀ x ∈ p.fs, x.lpc = f.lpc) →
      ∃ t, exec .lbar s = .next t ∧ WaitsAs g f (.lbar s.clk) s t)) ∧
  ∀ (s : State) (l : Launch), s.launch? s.subject = some l → FMap.wf s.gangs = true → s.lbarReady s.subject = true →
    ∃ t, exec .lbarRelease s = .next t ∧ ∀ n g, s.gang? n = some g → g.launch = s.subject → ∃ g' : Gang, t.gang? n = some g' ∧
      ∀ (k : Nat) (x : Frag), g.frags[k]? = some x → ∃ x' : Frag, g'.frags[k]? = some x' ∧ Passes x { x' with lwait := .none }

/-- 15, 17, 24: the engine forms complete: a command whose checks pass enters its queue, and a wait, a read or a record passes where
nothing holds it. -/
def Obligations.EngineFormsComplete : Prop :=
  ∀ (s : State) (g : Gang) (f : Frag) (d : AReg) (a v vc : VReg) (tt : TReg) (bc c0 wq : BitVec 5) (br q w : BitVec 2)
    (reuse sc w64 cont acq partner : Bool) (base x y z : SReg) (disp : BitVec 26) (n : NCols) (c : Tag) (e : EngCtl) (list : BitVec 13) (k1 : BitVec 3)
    (line num : Byte) (aw : BitVec 4),
  let passes := fun (i : Instr) (P : State → Gang → Prop) => ∃ t g' f', exec i s = .next t ∧ t.cur = some (g', f') ∧ Passes f f' ∧ P t g'
  let answers := fun (i : Instr) => LaneReady i s g f [] → LaneScalarCompletes i s g f
  let chain := s.slotChain (locSlot (f.captured (g.actSlice f) x))
  (let bytes := if sc then 2560 else 2048
   let at_ := tileAddr f (lowTaking f (g.taking f)) (.glob base) disp
   (s.mmaTags s.gang g a tt c bc d = none → CommandCompletes (.mma .l d a tt bc reuse c e) e .matrix s g f) ∧
   (matTags g (s.accTagAhead s.gang g d.toNat) a c bc.toNat br.toNat d = none → (g.busyV v.toNat = false → intTagPass Tag.i32 (g.tagOf v.toNat) = true) →
    (∀ l, Takes g f l → handleChk (s.block? g.block) (mvmHandle s.clk g (s.block? g.block) f (.vec v) l) = .ok ∨ g.busyV v.toNat = true) →
    CommandCompletes (.mvm d a (.vec v) bc br reuse c e) e .matrix s g f) ∧
   (s.tileChk g (.glob base) .load bytes at_ = .ok →
    CommandCompletes (.tld tt (.glob base) sc disp c e) e .matrix s g f) ∧
   (s.tileChk g (.glob base) .store bytes at_ = .ok →
    CommandCompletes (.tst tt (.glob base) sc disp e) e .matrix s g f) ∧
   CommandCompletes (.tzr tt c e) e .matrix s g f ∧ CommandCompletes (.accz d c e) e .matrix s g f ∧
   CommandCompletes (.accrd v d n c0 e) e .matrix s g f ∧
   ((∀ r ∈ g.settled v n.count, g.tagOf r = accwrTag s.clk g v n.count) → accTagOk (accwrTag s.clk g v n.count) = true →
    CommandCompletes (.accwr d v n c0 e) e .matrix s g f) ∧
   (g.taking f ≠ 0 → s.cardChk g (f.capturedPair (lowTaking f (g.taking f)) base).toNat = .ok →
    CommandCompletes (.dsub base e) e .copy s g f)) ∧
  (EnginesQuiet g → e.guard = none → g.flagStall f e.flag = false →
    let scene := fun (l : Nat) => (f.capturedPair (l / 8) base).toNat
    let ones := (f.capturedPair (lowTaking f (g.taking f)) base).toNat
    (LaneReady (.recfl base e) s g f [] → g.taking f ≠ 0 → passes (.recfl base e) fun t g' => g'.v = g.v ∧ t.mem = s.mem) ∧
    (∀ p ∈ [(Instr.rayq a base q e, (∀ r ∈ span a 8, g.busyV r = false → g.tagOf r = Tag.f32) ∧ ∀ l, Takes g f l → s.sceneChk g (scene l) = .ok),
        (.ellq a base k1 cont q e, (∀ r ∈ span a 8, g.busyV r = false → g.tagOf r = Tag.f32) ∧ ∀ l, Takes g f l → s.sceneChk g (scene l) = .ok),
        (.covq q list e, g.taking f ≠ 0 → s.listChk g 32 (64 * list.toNat) = .ok),
        (.beamq x base q list e, g.taking f ≠ 0 → s.sceneChk g ones = .ok ∧ s.listChk g (s.listBytes g ones) (64 * list.toNat) = .ok)],
      LaneReady p.1 s g f [] → p.2 → (FMap.get g.queries q.toNat).cmd = none →
        passes p.1 fun _ g' => g'.v = g.v ∧ ∃ c, (FMap.get g'.queries q.toNat).cmd = some c ∧ c.instr = p.1) ∧
    (LaneReady (.ringst a x w64 e) s g f [] →
      (∀ l, Takes g f l → g.helpers.getLsbD l = false → s.ringstBad g (f.captured (l / 8) x) w64 = none) →
      passes (.ringst a x w64 e) fun t g' => g'.v = g.v ∧ t.stores.length = s.stores.length + 1) ∧
    (LaneReady (.ringld a x w64 line c e) s g f [] → g.clash = [] → (∀ o ∈ g.asyncs, o.id ≠ s.nextOp) → g.desched = false →
      g.busyV a.toNat = false → g.busyV (a.toNat + 1) = false →
      (∀ l, Takes g f l → s.ringldBad g (f.captured (l / 8) x) w64 line = none) →
      (∀ x ∈ s.stores, x.gang ≠ s.gang ∧ x.chain ≠ (s.gangChain g).getD 0 % 2 ^ 64) → (∀ x ∈ s.gangList, x.1 ≠ s.gang → x.2.rq = []) →
      s.poison = [] → f.boundFlag e.flag = none → passes (.ringld a x w64 line c e) fun _ g' =>
        ∀ r l, l < 32 → ¬ (r ∈ (if w64 then [a.toNat, a.toNat + 1] else [a.toNat]) ∧ Takes g f l) → g'.vraw r l = g.vraw r l)) ∧
  (LaneReady (.mfence x) s g f [] → g.batches.length < 16 → ∃ t g' f', exec (.mfence x) s = .next t ∧ t.cur = some (g', f') ∧
    PassesOn f f' ∧ g'.batches.length = g.batches.length + 1 ∧ g'.nextN = g.nextN + 1) ∧
  (LaneReady (.mwait (.imm num)) s g f [] → (∀ b ∈ g.batches, b.num ≠ num) → g.clash = [] →
    passes (.mwait (.imm num)) fun _ g' => (∀ k, (some num, k) ∉ g'.named) ∧ g'.v = g.v) ∧
  (LaneReady .oprdy s g f [] → passes .oprdy fun _ g' => g'.hist = g.hist.filter fun e => e.1.isSome) ∧
  answers (.cbtst x y z acq w) ∧ answers (.cpsts x y) ∧
  (let sl := FMap.get (s.core g.core).slots ((f.captured (g.actSlice f) y).toNat % 512)
   g.taking f = 0 ∨ sl.st = 3 ∨ sl.st = 0 ∨
      sl.bits.extractLsb' (32 * w.toNat) 32 &&& f.captured (g.actSlice f) z = f.captured (g.actSlice f) z →
    answers (.cbwait x y z w)) ∧
  (g.taking f ≠ 0 → (LaneReady (.mcnt (.opn x y aw)) s g f [] → passes (.mcnt (.opn x y aw)) fun _ g' => ∃ m, g'.mesh = some m ∧ m.aw = aw.toNat + 1) ∧
    (LaneReady (.mcnt .close) s g f [] → passes (.mcnt .close) fun _ g' => g'.mesh = none)) ∧
  (g.mesh.isSome = true → ∀ i ∈ [Instr.mvtx a vc, .mprim a vc], LaneReady i s g f [] → passes i fun _ g' =>
    g'.mesh.isSome = true ∧ { g' with mesh := g.mesh, frags := g.frags } = g) ∧
  (LaneReady (.qrd v q wq c) s g f [] → passes (.qrd v q wq c) fun _ g' =>
    ∀ r l, l < 32 → ¬ (r = v.toNat ∧ Takes g f l) → g'.vraw r l = g.vraw r l) ∧
  (LaneReady (.qwait q) s g f [] → g.queryBusy q.toNat = false → ∃ t, exec (.qwait q) s = .next t ∧ PassesOnly g f s t) ∧
  (∀ k, g.taking f ≠ 0 → chain = some k → s.gangChain g = some k.id → answers (.srate y x)) ∧
  (let p := partnerOf g.core
   LaneReady (.vfpush none a) s g f [] → g.taking f ≠ 0 → (s.core p).fifo.length < 32 → (s.core p).gate = 0 → s.domainRuns (domainOf p) = true →
    ∃ t g' f', exec (.vfpush none a) s = .next t ∧ t.cur = some (g', f') ∧ PassesOn f f' ∧
      (t.core p).fifo.length = (s.core p).fifo.length + 1) ∧
  (∀ r rest, LaneReady (.vfpop v none) s g f [] → g.taking f ≠ 0 → (s.core g.core).fifo = r :: rest → r.visible = true → r.asid = g.asid →
    ∃ t g' f', exec (.vfpop v none) s = .next t ∧ t.cur = some (g', f') ∧ PassesOn f f' ∧ (t.core g.core).fifo = rest ∧
      ∀ l, Takes g f l → g'.vraw v.toNat l = r.data.getD l 0) ∧
  answers (.vfcnt x) ∧
  ∀ i ∈ [Instr.pgreq x partner, .pgreqCan x partner], LaneReady i s g f [] → ∃ t g' f', exec i s = .next t ∧ t.cur = some (g', f') ∧
    PassesOn f f' ∧ { g' with copies := g.copies, frags := g.frags } = g ∧ { t with gangs := s.gangs, late := s.late } = s

/-- 01, 07, 09, 21: the sequencer's own steps, traps, launches and placement complete: a clause is entered, a guard is resolved, a lane's
scalar result and a flagged operation land, a rendezvous issues or times out, fragments merge and age, a block is dispatched, a gang is
pre-empted and saved, a launch completes or is cancelled, parks and migrations end. -/
def Obligations.SequencerStepsComplete : Prop :=
  (∀ (s : State) (g : Gang) (f : Frag), s.cur = some (g, f) →
    (∀ (e : QEntry) (rest : List QEntry) (h : BitVec 27), f.entered = none → f.queue = e :: rest → e.guard = none →
      fetchGap (s.laneBytes g g.lcbase g.lcsize e.off.toNat) g.lcsize.toNat e.off.toNat = none →
      readItem (s.laneBytes g g.lcbase g.lcsize e.off.toNat) = .header h → headerCheck h = none → g.flagsClear f (hdrWait h) = true →
      ∃ t g' f' x, exec .clauseEnter s = .next t ∧ t.gang? s.gang = some g' ∧ g'.fragOf s.slice = some f' ∧ f'.queue = rest ∧
        f'.lpc = e.off + 4 ∧ f'.entered = some x ∧ x.rem = (h.extractLsb' 0 5).toNat + 1) ∧
    (g.fragOf (lowSlice f.slices) = some f →
      (∀ slot : GSlot, g.guardReady f slot.toNat = true → ∃ (u : State) (g' : Gang) (f' : Frag), exec (.guardResolve slot) s = .next (u.sweep s.gang) ∧ u.cur = some (g', f') ∧
        ∀ sl r c, f.slices.getLsbD sl = true → (FMap.get (g.copy sl).guards slot.toNat).st = .unresolved →
          (FMap.get (g.copy sl).guards slot.toNat).bound = some (r, c) →
          (FMap.get (g'.copy sl).guards slot.toNat).st = if condHolds c ((g.copy sl).get r) then .tru else .fals) ∧
      ∀ (r : SReg) (m : Mark) (wr : FMap Word), f.firstMark r = some m → g.canLand f r = true → m.wr = some wr →
        ∃ (u : State) (g' : Gang) (f' : Frag), exec (.laneScalarWriteLand r) s = .next (u.settleGuards s.gang (lowSlice f.slices)) ∧
          u.cur = some (g', f') ∧ f'.marks = f.marks.erase m ∧ ∀ sl, f.slices.getLsbD sl = true →
            (g'.copy sl).get r = if r = 0 then 0 else (wrAt wr sl).getD ((g.copy sl).get r)) ∧
    (∀ since n sc d a k ps, f.lwait = .rendezvous since → s.itemAt g f = some (.vote sc (.vec d) a k, n) →
      LaneReady (.vote sc (.vec d) a k) s g f [] → Gathers s g f sc ps → (∀ p ∈ ps, ∀ x ∈ p.fs, s.poisonSrc p.g x (.vote sc (.vec d) a k) = none) →
      ∃ t, exec .rendezvousIssue s = .next t ∧ ∀ p ∈ ps, ∃ g', t.gang? p.gid = some g' ∧ PartyPasses p g') ∧
    (∀ since, f.lwait = .rendezvous since → ((g.low f).kget 24).toNat ≠ 0 → since + ((g.low f).kget 24).toNat ≤ s.clk →
      s.rdvReady g f = false → Traps .rendezvousTimeout s g f .rdvTimeout 0 0 true) ∧
    (∀ fs, fs = g.frags.filter (fun x => x.slices == f.slices || g.meets f x) → 1 < fs.length → g.exiting = 0 →
      g.frags.Pairwise (fun x y => x.slices &&& y.slices = 0) → (∀ x ∈ g.frags, x.slices ≠ 0 ∧ x.itemLen = f.itemLen) →
      ∃ t g' m, exec .fragmentRegang s = .next t ∧ t.gang? s.gang = some g' ∧ m ∈ g'.frags ∧ m.spc = f.spc ∧ m.lpc = f.lpc ∧
        ∀ sl, m.slices.getLsbD sl = true ↔ ∃ x ∈ fs, x.slices.getLsbD sl = true) ∧
    (4096 ≤ f.ready → ∃ t g', exec .classAgeing s = .next t ∧ t.cur = some (g', { f with
      ready := 0, cls := if f.cls ≤ 1 then f.cls else f.cls - 1 })) ∧
    (∀ p, f.parkL = some p → 256 * ((g.low f).kget 110).toNat ≠ 0 → p.since + 256 * ((g.low f).kget 110).toNat ≤ s.clk →
      Traps .parkTimeout s g f .demandParked (BitVec.ofNat 32 p.lane) (BitVec.ofNat 64 p.addr) true) ∧
    (∀ x, f.cancelled = some x → x + 4000 ≤ s.ns → (∃ y ∈ g.frags, y.slices &&& f.slices = 0) → ∃ t, exec .handlerCancelTimeout s = .next t ∧
      t.gang? s.gang = some { g with frags := g.frags.filter (fun y => y.slices &&& f.slices == 0), live := g.live &&& ~~~f.slices
                                     lm := g.lm &&& ~~~sliceMask f.slices }) ∧
    (∀ v : Word, ∃ t g', exec (.stseedWrite v) s = .next t ∧ t.cur = some (g', f) ∧
      ∀ l, l < 32 → FMap.get g'.rng l = if f.slices.getLsbD (l / 8) then rngSeed v l else FMap.get g.rng l) ∧
    ∀ (b : Block) (d a r : SReg) (ms : MScope) (tmo : Half) (since n : Nat), let i := Instr.waita d a (.sp r) false ms tmo
      LaneReady i s g f [] → g.taking f ≠ 0 → s.block? g.block = some b → f.lwait = .waita since → s.itemAt g f = some (i, n) →
      let ad := spAddr (f.captured (g.actSlice f) r) 0 0
      ad % 4 = 0 → ad + 4 ≤ b.scratch → s.spBad (some b) 4 ad = none →
      (BitVec.ofNat 32 (leVal ((List.range 4).map fun k => Memory.read s.sp (spKey b.core (256 * b.spbase + ad) + k))) =
          f.captured (g.actSlice f) a ∨ (tmo ≠ 0 ∧ 256 * tmo.toNat ≤ s.clk - since)) →
      ∀ ev ∈ [Instr.waitaComplete, .waitaTimeout], ∃ t g' f', exec ev s = .next t ∧ t.cur = some (g', f') ∧ PassesOn f f') ∧
  (∀ (s : State) (g : Gang) (o : AsyncOp) (n : Nat), s.gang? s.gang = some g → o ∈ g.asyncs → (∀ x ∈ g.asyncs, x.id = o.id → x = o) →
    o.hold = 0 → o.flag = some n → g.desched = false →
    (∀ x ∈ g.frags, x.slices &&& o.slices ≠ 0 → ∀ r ∈ o.wr, ∃ m ∈ x.marks, m.issued = true ∧ m.op = o.id + 1 ∧ m.reg = r.1) →
    (∀ p ∈ o.tags, p.1 ∉ g.clash) → (o.vw.map Prod.fst).Nodup → (o.tags.map Prod.fst).Nodup →
    (∀ p ∈ o.tags, { g with asyncs := g.asyncs.filter fun x => x.id != o.id }.busyV p.1 = false) →
    (∀ e ∈ o.vw, ∃ p ∈ o.tags, p.1 = e.1 / 32) → (∀ p ∈ o.tags, ∃ e ∈ o.vw, p.1 = e.1 / 32) →
    ∃ t g', exec (.flaggedOperationComplete o.id) s = .next t ∧ t.gang? s.gang = some g' ∧ (∀ e ∈ o.vw, FMap.get g'.v e.1 = e.2) ∧
      ∀ x ∈ g'.asyncs, x.id ≠ o.id) ∧
  (∀ (s : State) (g : Gang) (w : Waiter) (o : AsyncOp), s.feq.findSome? (fun e => match e with
      | .spilled w => some w
      | _ => none) = some w → w.gang = s.gang → s.gang? s.gang = some g → o ∈ g.asyncs → o.id = w.op → (∀ x ∈ g.asyncs, x.id = o.id → x = o) →
    2 ≤ o.hold → ∀ i : Iface, s.iface? g.vi = some i → g.frags.Pairwise (fun x y => x.slices &&& y.slices = 0) →
    ∃ t g', exec .spilledWaiterComplete s = .next t ∧ t.feq = s.feq.erase (.spilled w) ∧ t.gang? s.gang = some g' ∧
      { o with hold := o.hold - 1 } ∈ g'.asyncs) ∧
  (∀ (s : State) (core : Nat) (classes : BitVec 4), (s.gangList.filter fun e => e.2.core == core && !e.2.desched) = [] →
    ∃ t, exec (.preemptionRequest core classes) s = .next t ∧
      (t.core core).preempt = some { classes := classes, since := s.ns, chain := none }) ∧
  (∀ (s : State) (lid block core : Nat) (l : Launch) (i : Iface), s.launch? lid = some l → l.cancelled = false → l.complete = false →
    core < 1344 → (s.cryo = .cold ∨ s.cryo = .excursion) → s.boot.recovery = false → s.boot.saving = false →
    s.residents core = [] → s.domainRuns (domainOf core) = true → l.chain = none → s.chains = [] → l.kd.pair = false →
    block < l.blocks → (∀ k, k < block → k ∈ l.dispatched) → block ∉ l.dispatched → (l.kd.coop = true ∨ block < l.h + 256) →
    s.grouped lid = false → s.mergedAhead lid = [] → s.blockOf lid block = none → s.iface? l.vi = some i → lid ∉ i.spawns →
    (s.coresOf l.vi).length < i.share → l.kd.gangs ≤ 4 → l.kd.regs ≤ 768 → l.kd.accs ≤ 16 → l.kd.tiles ≤ 64 → l.kd.scratch ≤ 0x80000 →
    (s.core core).gate = 0 → let n := if l.seed then 1 else l.kd.gangs
    ∃ t b, exec (.blockDispatch lid block core (List.range n)) s = .next t ∧ t.block? s.nextBlock = some b ∧ b.launch = lid ∧ b.core = core ∧
      ∀ k, k < n → ∃ x, t.gang? (s.nextGang + k) = some x ∧ Claims.StartsAs l lid s.nextBlock core k x) ∧
  (∀ (s : State) (g : Gang) (p : Preempt) (b : Block), s.gang? s.subject = some g → (s.core g.core).preempt = some p → p.chain = none →
    g.target = true → p.since + 4000 ≤ s.ns → g.desched = false → g.frags ≠ [] → g.mq = [] → g.running = none → g.batches = [] →
    g.openB = none → g.asyncs = [] → s.path = [] → g.regs ≤ 256 → g.accs ≤ 8 → (∀ f ∈ g.frags, f.saveQueue.length ≤ 8) →
    g.csbase.toNat + 0x18000 ≤ dramEnd → s.block? g.block = some b → b.tiles ≤ 16 → b.scratch ≤ 0x80000 → b.core = g.core →
    (b.bsbase.toNat + 0x90000 ≤ g.csbase.toNat ∨ g.csbase.toNat + 0x18000 ≤ b.bsbase.toNat) → (s.core g.core).hfcnt.toNat < 2 ^ 32 - 1 →
    ∃ t g', exec .hardwareSave s = .next t ∧ t.gang? s.subject = some g' ∧ g'.desched = true ∧ g'.hwSaved = true ∧
      (t.core g.core).hfcnt = (s.core g.core).hfcnt + 1) ∧
  (∀ (s : State) (l : Launch), s.launch? s.subject = some l →
    (l.complete = false → l.nx * l.ny * l.nz ≤ l.h → ∃ t, exec .launchComplete s = .next t ∧
      t.launch? s.subject = some { l with complete := true }) ∧
    (l.chain = none → l.cancelled = false → s.gangsOf s.subject = [] → ∃ t l', exec .launchCancel s = .next t ∧
      t.launch? s.subject = some l' ∧ l'.cancelled = true) ∧
    ∀ (c : Nat) (r : List Nat), l.admitting = c :: r → FMap.wf s.gangs = true → l.nextAdmit ≤ s.time → ∃ t, exec .clusterAdmit s = .next t ∧
      t.launch? s.subject = some { l with admitting := r, nextAdmit := s.time + 819200 }) ∧
  (∀ (s : State) (a : AggGroup), s.groups[s.subject]? = some a → a.closed = false →
    a.since + 1000 ≤ s.ns ∨ 256 ≤ a.members.length ∨ 4096 ≤ a.blocks → ∃ tab, exec .aggregationGroupClose s =
      .next { s with groups := s.groups.set s.subject { a with closed := true, table := tab } }) ∧
  (∀ (s : State) (launch cluster : Nat) (l : Launch), s.launch? launch = some l → (FMap.get l.queues cluster).length < 64 →
    l.itemsTaken < l.nitems → (∃ e ∈ s.blockList, e.2.launch = launch ∧ clusterOf e.2.core = cluster) →
    ∃ t l', exec (.workItemChunkMove launch cluster) s = .next t ∧ t.launch? launch = some l' ∧
      l'.itemsTaken = l.itemsTaken + min 64 (l.nitems - l.itemsTaken)) ∧
  (∀ s : State, (∀ e ∈ s.cores, ∀ x ∈ e.2.copies, x.parked = false) → ∃ t, exec .globalReplay s = .next t ∧ t.parks = []) ∧
  ∀ (s : State) (leaf : Nat), leaf + 8 ≤ dramEnd →
    (∀ (side : Side) (ns : Dword) (frac : Half), (FMap.get s.migs leaf).live = false → ∃ t,
      exec (.migrationRequest side leaf ns frac) s = .next t ∧ t.read64 leaf = s.read64 leaf ||| (1#64 <<< 54)) ∧
    (s.subject = leaf → (FMap.get s.migs leaf).live = true → ∃ t, exec .migrationComplete s = .next t ∧
      t.read64 leaf = s.read64 leaf &&& ~~~(1#64 <<< 54) ∧ (FMap.get t.migs leaf).live = false) ∧
    ∀ n, s.subject = leaf → (FMap.get s.migs leaf).expiry = some n → n ≤ s.ns → ∃ t, exec .remoteMappingExpiry s = .next t ∧
      (FMap.get t.migs leaf).expiry = none

/-- 10, 12, 14 to 18, 24, 26: the steps of the memories, the engines and the registers complete. -/
def Obligations.EngineStepsComplete : Prop :=
  (∀ (s : State) (g : Gang) (x : Cmd) (r : List Cmd), s.gang? s.subject = some g → g.mq = x :: r → x.guard = none →
    (∀ m ∈ x.mates, m.gid = s.subject) → x.mates ≠ [] → (∀ e ∈ s.gangList, e.2.core = g.core → e.2.running = none) →
    s.nextMatrix g.core = some s.subject → ∃ t, exec .matrixCommandStart s = .next t ∧
      t.gang? s.subject = some { g with mq := r, running := some x, steps := opSteps x }) ∧
  (∀ (s : State) (g : Gang) (x : Cmd) (m : Mate) (bk : Block) (d : AReg) (c : Tag) (e : EngCtl), s.gang? s.subject = some g →
    g.running = some x → x.mates = [m] → m.gid = s.subject → m.flag = none → s.block? g.block = some bk → EnginesQuiet g → g.mq = [] →
    g.frags ≠ [] → s.opHolds s.subject x.id = 0 → g.bad = [] → bk.bad = [] → s.poison = [] → g.steps = 0 → x.instr = .accz d c e →
    ∃ t g', exec .matrixOperationComplete s = .next t ∧ t.gang? s.subject = some g' ∧ g'.running = none ∧
      ∀ r col, r < 32 → col < 32 → m.lanes.getLsbD r = true → g'.aget d.toNat r col = 0) ∧
  (∀ (s : State) (g : Gang) (b : Batch) (r : List Batch), s.gang? s.subject = some g → g.batches = b :: r → b.left = 0 → b.poison = none →
    g.frags ≠ [] → ∃ t, exec .batchComplete s = .next t ∧ t.gang? s.subject = some { g with batches := r }) ∧
  (∀ s : State, (s.core s.subject).window ≠ (s.clk - s.clk0) / 256 → ∃ t, exec .governorWindow s = .next t ∧
    t.core s.subject = { s.core s.subject with window := (s.clk - s.clk0) / 256, started := 0 }) ∧
  (∀ (s : State) (core : Nat) (v : Word), (∃ t, exec (.mgbudgetWrite core v) s = .next t ∧
      t.core core = { s.core core with mgbudget := v.extractLsb' 0 9 }) ∧
    (core < 1344 → (∃ t, exec (.cgctlWrite core v) s = .next t ∧ (t.core core).cg.ctl.getLsbD 1 = v.getLsbD 1) ∧
      ∃ t, exec (.cgrdWrite core v) s = .next t ∧ (t.core core).cg.rd = v)) ∧
  (∀ (s : State) (core off : Nat) (bytes : List Byte) (gid : Option Nat), off + bytes.length ≤ 0x4000 →
    ∃ t, exec (.templateWrite core off bytes gid) s = .next t ∧
      ∀ a, off ≤ a → a < off + bytes.length → FMap.get (t.core core).tpl a = bytes.getD (a - off) 0) ∧
  (∀ (s : State) (core : Nat) (chan : BitVec 4) (w : Word) (n : Nat) (g : Gang), let k := s.core core
    let slot := w.toNat / 2 ^ 8 % 2 ^ 9
    let tp := s.template core (w.toNat % 2 ^ 8)
    let x : CopySlot := { st := 1, err := 0, tidx := w.toNat % 2 ^ 8, chan := chan.toNat, bits := idleBits tp [] }
    let c : Copy := { slot := slot, chan := chan.toNat, tpl := tp, launch := some g.launch, block := some g.block, gang := some n
                      sys := g.priv, asid := some g.asid }
    (FMap.get k.slots slot).st ≠ 1 → s.gang? n = some g → Tpl.len tp = false → (∀ y ∈ k.copies, y.slot ≠ slot) →
    State.copyCheck ((s.release g.core .device).updCore core fun k =>
        { k with slots := FMap.put k.slots slot x, copies := k.copies ++ [c] }) core
      (s.starter (some n)) w (FMap.get k.tplStart.2 (w.toNat % 2 ^ 8)) tp .bad = .pass →
    ∃ t, exec (.bteApertureStore core chan w (some n)) s = .next t ∧ FMap.get (t.core core).slots slot = x ∧
      (t.core core).copies = k.copies ++ [c]) ∧
  (∀ (s : State) (core slot chunk : Nat) (c : Copy), let k := s.core core
    let sl := FMap.get k.slots slot
    let t := c.tpl
    k.copies.find? (fun c => c.slot == slot) = some c → c.parked = false → k.firstOfChannel c = true →
    (sl.st = 1 → chunk < 128 → sl.bits.getLsbD chunk = false → Tpl.len t = false → Tpl.red t = 0 → Tpl.ten t = false → Tpl.ssp t = 2 →
      Tpl.dsp t = 2 → Tpl.src t + Tpl.size t ≤ dramEnd → Tpl.dst t + Tpl.size t ≤ dramEnd →
      (Tpl.src t + Tpl.size t ≤ Tpl.dst t ∨ Tpl.dst t + Tpl.size t ≤ Tpl.src t) → (∀ l, FMap.get s.poison l = false) →
      (∀ e ∈ s.path, e.1 ≠ core) → ∃ u, exec (.copyChunkComplete core slot chunk) s = .next u ∧
        FMap.get (u.core core).slots slot = { sl with bits := putBit sl.bits chunk true }) ∧
    (sl.bits = BitVec.allOnes 128 → Tpl.fen c.tpl = false → k.held = [] → ∃ t, exec (.copyComplete core slot) s = .next t ∧
      FMap.get (t.core core).slots slot = { sl with st := 2 })) ∧
  (∀ (s : State) (core : Nat) (q : BitVec 3) (e : MsgEntry) (bid : Nat) (bk : Block), let m := FMap.get (s.core core).mqs q.toNat
    firstEntry m.arrived = some e → mqEn m.cfg = true → m.owner = some bid → s.block? bid = some bk →
    ∃ t, exec (.mqEntryArrive core q) s = .next t ∧ (FMap.get (t.core core).mqs q.toNat).tail = m.tail + 1) ∧
  (∀ (s : State) (core gid : Nat) (q : BitVec 3) (v : Word) (g : Gang) (b : Block), s.gang? gid = some g → s.block? g.block = some b →
    b.core = core → mqEn (FMap.get (s.core core).mqs q.toNat).cfg = false → mqEn v = true → mqEsz v ≤ 4 →
    mqBase v + mqCount v * 2 ^ (4 + mqEsz v) ≤ b.scratch → ∃ t, exec (.mqcfgWrite core q v (some gid)) s = .next t ∧
      (FMap.get (t.core core).mqs q.toNat).cfg = v &&& 0xFFFC7FFF) ∧
  (∀ (s : State) (gid : Nat) (q : BitVec 2) (g : Gang) (c : Cmd) (m : Mate) (k : BitVec 2) (list : BitVec 13) (e : EngCtl),
    s.gang? gid = some g → EnginesQuiet g → (FMap.get g.queries q.toNat).cmd = some c → c.mates = [m] → m.flag = none →
    (∀ x ∈ g.queries, ∀ y, x.2.cmd = some y → c.id ≤ y.id) → c.id ∉ g.spoilt → c.instr = .covq k list e →
    ∃ t g', exec (.queryComplete gid q) s = .next t ∧ t.gang? gid = some g' ∧ (FMap.get g'.queries q.toNat).cmd = none) ∧
  (∀ (s : State) (g : Gang) (x : Cmd) (base : SReg) (e : EngCtl) (m : Mate), s.gang? s.subject = some g → g.cq = [x] → g.rq = [] →
    (∀ y ∈ g.mq, y.guard = none) → x.instr = .dsub base e → x.guard = none → x.mates = [m] → m.flag = none →
    (FMap.get s.clusters (clusterOf g.core)).cards.length < 64 → ∃ t, exec .ddeJobAccept s = .next t ∧
      t.gang? s.subject = some { g with cq := [] }) ∧
  (∀ (s : State) (j : DdeCard), (FMap.get s.clusters s.subject).job = some j → j.parked = false → j.bad = true →
    ∃ t, exec .ddeJobEnd s = .next t ∧ (FMap.get t.clusters s.subject).job = (FMap.get s.clusters s.subject).cards.head?) ∧
  (∀ (s : State) (gid lid : Nat) (base : Dword) (m : MeshRec) (l : Launch), s.bins[s.subject]? = some (gid, lid, base, m) →
    (∀ x ∈ s.bins.take s.subject, x.1 ≠ gid) → s.launch? lid = some l → ∃ t, exec .binnerRecord s = .next t ∧
      t.bins = s.bins.eraseIdx s.subject) ∧
  (∀ (s : State) (r : RingStore) (lane : Nat) (loc lo hi : Word), s.stores[s.subject]? = some r → r.pixels = [(lane, loc, lo, hi)] →
    (∀ x ∈ s.stores.take s.subject, x.gang ≠ r.gang) → (∀ g, s.gang? r.gang = some g → EnginesQuiet g) →
    ∃ t, exec .ringStoreLand s = .next t ∧ t.stores = s.stores.eraseIdx s.subject) ∧
  (∀ (s : State) (core : Nat) (cells : List Host.Cell), s.path[s.subject]? = some (core, cells) →
    (∀ x ∈ s.path.take s.subject, x.1 = core → ∀ c ∈ x.2, ∀ y ∈ cells, y.1 / 64 ≠ c.1 / 64) →
    ∃ t, exec .storeReachesL2 s = .next t ∧ t.path = s.path.eraseIdx s.subject) ∧
  (∀ (s : State) (pre post : List FifoEntry) (e : FifoEntry), (s.core s.subject).fifo = pre ++ e :: post → (∀ x ∈ pre, x.visible = true) →
    e.visible = false → ∃ t, exec .fifoEntryVisible s = .next t ∧
      t.core s.subject = { s.core s.subject with fifo := pre ++ { e with visible := true } :: post }) ∧
  (∀ (s : State) (core off : Nat) (size : Size) (v : Dword), core < 1344 → off + size.bytes ≤ 0x80000 → s.coreDark core = false →
    ∃ t, exec (.coreWindowAccess core off size (some v)) s = .next t ∧
      ∀ i, i < size.bytes → Memory.read t.sp (spKey core (off + i)) = (leOf size.bytes v.toNat).getD i 0) ∧
  (∀ (s : State) (line : Nat), (FMap.get s.dirty line = true → s.dirtyBase.toNat = 0 → ∃ t, exec (.l2Writeback line) s = .next t ∧
      FMap.get t.dirty line = false) ∧
    (s.cryo = .cold → s.refresh = false → 64 * line < dramEnd → s.eccce.toNat < 2 ^ 32 - 1 →
      exec (.patrolScrub line .corrected) s = .next { s with eccce := s.eccce + 1 })) ∧
  (∀ (s : State) (vi : Nat) (v : Dword) (i : Iface), s.iface? vi = some i → ∃ t, exec (.ptrootWrite vi v) s = .next t ∧
    t.iface? vi = some { i with ptroot := v &&& ~~~0xFFFFF#64 }) ∧
  (∀ (s : State) (asid : Word), ∃ t, exec (.firmwareInvalidate asid none) s = .next t ∧ ∀ e, e ∈ t.tlb ↔ e ∈ s.tlb ∧ e.2.1 ≠ asid) ∧
  ∀ (s : State) (off : Nat) (v : Word), (off % 4 = 0 → off < 2 ^ 32 → exec (.registerWrite off v) s = .next (s.ctrlPut off v)) ∧
    ∀ n, n < 8 → ∃ t, exec (.registerReadClear (0x405000 + 4 * n)) s = .next t ∧
      FMap.get t.ports (n + 1) = { FMap.get s.ports (n + 1) with sheds := 0 }

/-- 18, 22, 26 to 28: the steps of Meridian, of the ports, of power and of boot complete. -/
def Obligations.DeviceStepsComplete : Prop :=
  (∀ (s : State) (c : Chain), s.chain? s.subject = some c → c.id = s.subject → c.wslot ≠ some c.slot →
    (c.admitted = false → c.missed = false → c.start ≤ s.ns → c.behind = false → c.ready = true → s.slotState c.slot = 0 →
      ∃ t x, exec .chainAdmit s = .next t ∧ t.chain? c.id = some x ∧ x.admitted = true ∧ t.slotState c.slot = 1) ∧
    (s.slotState c.slot = 1 → c.admitted = true → c.ended = false →
      (s.ns < c.deadline → c.launches ≠ [] → (∀ l ∈ c.launches, ∀ x, s.launch? l = some x → x.complete = true) →
        (∀ r ∈ s.stores, r.chain ≠ c.id) → ∃ t, exec .stripDone s = .next t ∧ t.slotState c.slot = 2) ∧
      (c.deadline ≤ s.ns → ∃ t, exec .stripDeadline s = .next t ∧ t.slotState c.slot = 4))) ∧
  (∀ (s : State) (c : Chain), s.slotChain c.slot = some c → s.owed = [] → c.slot < 256 → s.chain? c.id = some c →
    (∀ x ∈ s.chains, x.id = c.id → x = c) → c.wslot ≠ some c.slot →
    (∀ n : BitVec 3, c.geo.ser = some n.toNat → c.deadline ≤ s.ns → FMap.get c.lines n.toNat = 0 → 2 ≤ s.slotState c.slot →
      ∃ t x, exec (.scanoutStart (BitVec.ofNat 8 c.slot) (.stream n)) s = .next t ∧ t.chain? c.id = some x ∧ FMap.get x.lines n.toNat = 1) ∧
    (∀ k : Consumer, 1 ≤ FMap.get c.lines (bankOf k) → FMap.get c.lines (bankOf k) ≤ c.geo.h → ∃ t px,
      exec (.scanLineSend (BitVec.ofNat 8 c.slot) k) s = .next t ∧ t.outs = s.outs ++ [.line (BitVec.ofNat 8 c.slot) k px] ∧ px.length = c.geo.w) ∧
    (s.subject = c.slot → 3 ≤ s.slotState c.slot → (∀ b ∈ c.geo.banks, c.geo.h < FMap.get c.lines b) → s.chains = [c] →
      ∃ t, exec .scanEnd s = .next t ∧ t.slotState c.slot = 0)) ∧
  (∀ (s : State) (enc : BitVec 2) (row : Nat) (c : Chain), s.chains = [c] → s.owed = [] → c.behind = false → c.geo.enc = some enc.toNat →
    c.geo.fl = 64 * row → c.geo.h = 64 → FMap.get c.lines (8 + enc.toNat) = 0 → 2 ≤ s.slotState c.slot → ∃ t x,
      exec (.encoderRowStart enc row) s = .next t ∧ t.chains = [x] ∧ FMap.get x.lines (8 + enc.toNat) = 1) ∧
  (∀ (s : State) (bank : Nat), bank < 12 → ∃ t, exec (.reprojectionCommit bank) s = .next t ∧
    FMap.get t.active bank = (List.range 10).map (fun w => s.breg (0x403000 + 64 * bank + 4 * w))) ∧
  (∀ s : State, s.ringOwn = 1 → ∃ t, exec .ringHandoverComplete s = .next t ∧ t.ringOwn = 2 ∧ t.ring = []) ∧
  (∀ (s : State) (o : Int), (s.breg 0x402000).getLsbD 4 = true → ∃ t, exec (.ptpSync o) s = .next t ∧ t.offset = o) ∧
  (let on := fun (s : State) => (s.breg 0x405100).getLsbD 0 = true
   let mid := fun (s : State) => (s.breg 0x405100).toNat / 2 ^ 8 % 256
   (∀ s : State, on s → s.lock.frame < s.framesStarted → (s.breg 0x405100).getLsbD 1 = false ∨ s.syncs < 16 →
    ∃ t, exec .frameStart s = .next t ∧ t.lock.frame = s.framesStarted) ∧
   (∀ (s : State) (b : Beacon), on s → b.group.toNat = (s.breg 0x405100).toNat / 2 ^ 16 → b.mid.toNat < mid s → mid s < 24 →
    s.lock.heard = none → mid s ∉ s.lock.leave → ∃ t, exec (.beaconReceive b) s = .next t ∧
      t.outs = s.outs ++ [.beaconAck (BitVec.ofNat 8 (mid s))] ∧ t.lock.lead = some b.mid.toNat) ∧
   ∀ (s : State) (m : Byte), on s → m.toNat < 24 → (∃ t, exec (.beaconAcknowledgement m) s = .next t ∧ FMap.get t.lock.missed m.toNat = 0) ∧
    ∃ t, exec (.withdraw m) s = .next t ∧ t.lock.leave = s.lock.leave ++ [m.toNat]) ∧
  (∀ (s : State) (port : Nat) (seq : Word), 1 ≤ port → port ≤ 8 → let p := FMap.get s.ports port
    (∀ f : Flit, p.st = 1 → f.seq = p.rxSeq → ∀ vi va bs, f.body = .store vi va bs → bs ≠ [] → s.iface? vi = none →
      ∃ t, exec (.flitReceive port f) s = .next t ∧ FMap.get t.ports port = { p with rxSeq := p.rxSeq + 1 } ∧
        t.outs = s.outs ++ [.peerError port, .flitAck port f.seq]) ∧
    (p.wait = [] → ∃ t, exec (.flitAcknowledgement port seq) s = .next t ∧
      FMap.get t.ports port = { p with replay := p.replay.filter (fun x => (seq - x.seq).msb), since := s.ns }) ∧
    (p.st = 1 → (∃ t, exec (.flitNak port seq) s = .next t ∧ FMap.get t.ports port = { p with since := s.ns }) ∧
      (∀ n, 64 < n → p.lanes ≠ 2 → ∃ t, exec (.laneShed port n) s = .next t ∧ (FMap.get t.ports port).st = 2) ∧
      (s.subject = port → (p.replay ≠ [] → p.since + 10000 ≤ s.ns → ∃ t, exec .flitReplayTimeout s = .next t ∧
          t.outs = s.outs ++ p.replay.map (fun x => Output.flit port x)) ∧
        ∃ t, exec .ppctlWiden s = .next t ∧ FMap.get t.ports port = { p with st := 2, since := s.ns, widen := true })) ∧
    (s.subject = port → p.st = 2 →
      (p.wait = [] → ∃ t, exec .shedRetrainComplete s = .next t ∧ (FMap.get t.ports port).st = 1) ∧
      (p.since + 2000 ≤ s.ns → ∃ t, exec .shedRetrainTimeout s = .next t ∧ (FMap.get t.ports port).st = 0))) ∧
  (∀ (s : State) (vi qp : Nat) (i : Iface) (va : Dword) (bs : List Byte) (im : Bool) (len : Nat) (op : RdmaAtomic), s.iface? vi = some i → qp < 64 →
    (bs ≠ [] → HeldInDram s i.who .store va.toNat bs.length → ∃ t, exec (.rdmaWrite vi qp va bs im) s = .next t ∧
      t.outs = s.outs ++ [.rdmaAck vi qp]) ∧
    (1 ≤ len → HeldInDram s i.who .load va.toNat len → s.poisonAt i.who va.toNat len = none → ∃ t b,
      exec (.rdmaRead vi qp va len) s = .next t ∧ t.outs = s.outs ++ [.rdmaData vi qp b] ∧ b.length = len) ∧
    exec (.rdmaSend vi qp) s = .next { s with outs := s.outs ++ [.rdmaAck vi qp] } ∧
    (va.toNat % 8 = 0 → HeldInDram s i.who .load va.toNat 8 → HeldInDram s i.who .store va.toNat 8 → s.poisonAt i.who va.toNat 8 = none →
      ∃ t b, exec (.rdmaAtomic vi qp va op) s = .next t ∧ t.outs = s.outs ++ [.rdmaData vi qp b])) ∧
  (∀ (s : State) (vi qn : Nat) (i : Iface) (q : Queue) (idx : Word), s.iface? vi = some i → s.queue? qn = some q → q.vi = vi → FMap.wf s.queues = true →
    (qn ∈ i.queues → qn < 4096 → q.mapped.isSome = true → q.kicked ≠ some s.clk → exec (.kick vi qn idx) s =
      .next { s.setQueue qn { q with wr := idx, kicked := some s.clk } with feq := s.feq ++ [FeEvent.kick qn] }) ∧
    (s.subject = vi → q.mapped = none → q.pending = true → q.eff ≤ 7 → i.slots ≤ ((s.queuesOf vi).filter fun e => e.2.mapped.isSome).length →
      (∀ e ∈ s.queuesOf vi, (e.2.mapped.isSome = true → 7 ≤ e.2.eff) ∧ e.2.eff ≤ 7) → ∃ t x, exec .queueAgeing s = .next t ∧
        t.queue? qn = some x ∧ x.eff = min 7 (q.eff + (s.ns - q.ageNs) / 10000000))) ∧
  (∀ (s s0 : State) (q : Queue) (i : Iface) (b : List Byte), s.headPacket s.subject = some (q, i, some (b, s0)) →
    (let ok : Prop := field b 1 1 / 16 = 0 ∧ field b 2 2 = 0 ∧ field b 61 1 / 2 = 0 ∧ field b 62 2 = 0
     (ok → field b 0 1 = 0 → Claims.CanAnswer s0 q i → ∃ t, exec .packetNop s = .next t ∧ Claims.Answers s0 t q i b 0 0) ∧
     (¬ ok → Claims.CanAnswer s0 q i → ∃ t, exec .invalidPacket s = .next t ∧ Claims.Answers s0 t q i b 2 1) ∧
     (ok → field b 0 1 = 1 → ∀ d s2, s0.readKdesc i.who (field b 8 8) = some (d, s2) → kdescOk d = true → field b 61 1 % 2 = 0 →
      let seed := field b 1 1 / 2 % 2 == 1
      let n := field b 24 4 * field b 28 4 * field b 32 4
      shapeOk (field b 24 4) (field b 28 4) (field b 32 4) seed (field b 36 8) (field b 44 4) (field b 48 8) (field b 56 4) = true →
      kernelFits (kdescOf d) n seed = true → (s.launchList.filter fun e => e.2.vi == q.vi && !e.2.complete).length < i.jobQuota →
      ∃ t l, exec .packetLaunch s = .next t ∧ t.launch? s.nextLaunch = some l ∧ l.packet = some (s.subject, q.rd.toNat)) ∧
     (ok → field b 0 1 = 2 → field b 8 8 % 64 = 0 → s0.chk i.who .load (field b 8 8) 128 = .ok →
      s.chainRefused (s0.agentGet i.who (field b 8 8) 128).1 (chainOf (s0.agentGet i.who (field b 8 8) 128).1 s.nextChain) = false →
      ∃ t x, exec .packetChainRegister s = .next t ∧ t.chains = s.chains ++ [x] ∧ x.id = s.nextChain))) ∧
  (∀ (s : State) (r : RemoteStore) (peer ok : Bool), s.remote.find? (fun x => x.peer == peer) = some r → r.gang = none →
    exec (if peer then .peerStoreAck ok else .hostStoreAck ok) s = .next { s with remote := s.remote.erase r }) ∧
  (∀ (s : State) (u sv : Nat) (l : List Nat) (v : Word), (∃ t, exec (.powerInterval u sv l) s = .next t ∧
      t.callot = min 2600 (max 800 (min 3200 (s.breg 0x404000).toNat) - 300 - t.ml)) ∧
    exec (.ltolWrite v) s = .next (s.setBreg 0x404008 v) ∧
    ∃ t, exec (.temperatureSample l) s = .next t ∧ ∀ n, n < 10 → FMap.get t.sensors n = l.getD n 0 % 4096) ∧
  (∀ s : State, s.subject < 8 → let x := FMap.get s.domains s.subject
    ((s.cryo = .cold ∨ s.cryo = .excursion) → x.wake = false → x.exitAt = none → x.idle < 3 → 200000 ≤ (s.breg 0x404008).toNat →
      (∀ c, c < 1344 → 2 * (c / 8 / 42) + c % 8 / 4 = s.subject → (∀ e ∈ s.blockList, e.2.core = c → e.2.desched = true) ∧
        (s.core c).fifo = [] ∧ (∀ e ∈ (s.core c).slots, e.2.st ≠ 1) ∧ ∀ x ∈ s.chains, x.clu.getLsbD (c / 8) = false) →
      ∃ t, exec .domainIdleEnter s = .next t ∧ (FMap.get t.domains s.subject).idle = 3) ∧
    ∀ n, x.exitAt = some n → n ≤ s.ns → x.wake = true → exec .domainIdleExit s =
      .next { s with domains := FMap.put s.domains s.subject { x with idle := 0, wake := false, exitAt := none } }) ∧
  (∀ s : State, let c := s.subject
    ((s.core c).gate = 1 → (∀ e ∈ s.blockList, e.2.core = c → e.2.desched = true) → (s.core c).fifo = [] →
      (∀ e ∈ (s.core c).slots, e.2.st ≠ 1) → (∀ x ∈ s.chains, x.clu.getLsbD (c / 8) = false) →
      ∃ t, exec .coreGate s = .next t ∧ t.core c = { s.core c with gate := 2 }) ∧
    ((s.core c).gate = 3 → (s.core c).wakeAt ≤ s.ns → ∃ t, exec .coreWakeComplete s = .next t ∧ (t.core c).gate = 0)) ∧
  (∀ s : State, (s.cryo = .warm → s.boot.recovery = false → ∃ t, exec .cryocmdCool s = .next t ∧ t.cryo = .cooling) ∧
    (s.cryo ≠ .warm → s.cryo ≠ .warming → ∃ t, exec .cryocmdWarm s = .next t ∧ t.cryo = .warming) ∧
    (s.cryo = .warm → exec .cryocmdService s = .next { s with service := !s.service, refresh := !s.service }) ∧
    ∀ n, s.cryo = .warming → s.warmCmd = some n → s.warmDone = false → n + 100000000 ≤ s.ns →
      ∃ t, exec .warmingLaunchTimeout s = .next t ∧ t.warmDone = true) ∧
  (∀ (s : State) (im : Image) (nonce : BitVec 256),
    (s.boot.recovery = false → (∃ t q, exec (.attestationQuote nonce) s = .next t ∧ t.outs = s.outs ++ [.quote q Config.devicePublicKey]) ∧
      (∀ n, s.boot.running = some n → n < 2 → Config.sm3 im.body = im.digest → Config.sm2Valid im.digest im.sig = true → s.boot.config = [] →
        ∃ t, exec (.managementImageUpload im) s = .next t ∧ FMap.get t.boot.flash (1 - n) = some im) ∧
      (s.boot.resetReq = none → s.chains = [] → exec .deviceResetRequest s = .next { s with boot := { s.boot with resetReq := some s.ns } })) ∧
    (s.boot.recovery = true → im.body.length ≤ 2 ^ 26 → exec (.recoveryUpload im) s =
      .next { s with boot := { s.boot with staging := some im } }) ∧
    ∃ t, exec .moduleReset s = .next t ∧ t.boot.flash = s.boot.flash ∧ t.gangs = [] ∧ t.mem = []) ∧
  (∀ (s : State) (vi : Nat) (p : IfaceParams) (x : QueueParams), s.boot.recovery = false → vi < 64 → s.ifaces = [] → 1 ≤ p.slots →
    p.slots ≤ 256 → p.queues = [x] → x.q < 4096 → s.queue? x.q = none → x.ring.toNat % 64 = 0 → x.cring.toNat % 64 = 0 →
    (∃ k, 4 ≤ k ∧ k ≤ 16 ∧ x.size = 2 ^ k) → (∃ k, 4 ≤ k ∧ k ≤ 16 ∧ x.csize = 2 ^ k) →
    ∃ t i, exec (.interfaceCreate vi p) s = .next t ∧ t.iface? vi = some i ∧ i.asid = p.asid ∧ i.queues = [x.q]) ∧
  ∀ (s : State) (vi peer : Nat) (exp : Dword) (i : Iface), s.iface? vi = some i →
    ((∀ e ∈ s.launchList, e.2.vi = vi → e.2.complete = true) → ∃ t, exec (.interfaceDestroy vi) s = .next t ∧ t.iface? vi = none) ∧
    (peer < 256 → ∃ t i', exec (.peerContextBind vi peer exp) s = .next t ∧ t.iface? vi = some i' ∧ FMap.get i'.peers peer = some exp)
end

