-- ==== Sys2Proof/Laws/Sparse.lean ====
section
/-! SUPPORT. Sparse maps and memories: reading after a write, writes leave other keys alone, and every operation keeps the
canonical form. -/

namespace Sys2Proof.FMap

variable {α : Type}

@[simp] theorem get_nil [Inhabited α] (k : Nat) : get ([] : FMap α) k = default := rfl

theorem get_erase [Inhabited α] (m : FMap α) (k j : Nat) : get (erase m k) j = if j = k then default else get m j := by
  induction m with
  | nil => simp [erase]
  | cons e r ih =>
    obtain ⟨i, x⟩ := e
    by_cases h1 : i = k <;> by_cases h2 : i = j <;> simp_all [erase, get]

theorem get_insert [Inhabited α] (m : FMap α) (k j : Nat) (v : α) : get (insert m k v) j = if j = k then v else get m j := by
  induction m with
  | nil => by_cases h : k = j <;> simp [insert, get, h, eq_comm]
  | cons e r ih =>
    obtain ⟨i, x⟩ := e
    simp only [insert]
    split
    · by_cases h : k = j <;> simp [get, h, eq_comm]
    · split
      · rename_i h; subst h
        by_cases h : i = j
        · simp [get, h]
        · simp [get, h, Ne.symm h]
      · by_cases h2 : i = j
        · subst h2; simp_all [get]
        · simp [get, h2, ih]

/-- A key reads what was last written to it, and a write leaves every other key alone. -/
theorem get_put [DecidableEq α] [Inhabited α] (m : FMap α) (k j : Nat) (v : α) :
    get (put m k v) j = if j = k then v else get m j := by
  unfold put
  split
  · subst_vars; rw [get_erase]
  · exact get_insert m k j v

@[simp] theorem get_put_same [DecidableEq α] [Inhabited α] (m : FMap α) (k : Nat) (v : α) : get (put m k v) k = v := by
  simp [get_put]

theorem get_put_ne [DecidableEq α] [Inhabited α] (m : FMap α) {k j : Nat} (v : α) (h : j ≠ k) :
    get (put m k v) j = get m j := by simp [get_put, h]

theorem wfFrom_mono [DecidableEq α] [Inhabited α] {m : FMap α} {a b : Nat} (h : a ≤ b) (w : wfFrom b m = true) :
    wfFrom a m = true := by
  cases m with
  | nil => rfl
  | cons e r => obtain ⟨i, x⟩ := e; simp [wfFrom] at *; exact ⟨⟨by omega, w.1.2⟩, w.2⟩

theorem wfFrom_erase [DecidableEq α] [Inhabited α] (m : FMap α) (k : Nat) :
    ∀ lo, wfFrom lo m = true → wfFrom lo (erase m k) = true := by
  induction m with
  | nil => intro lo h; rfl
  | cons e r ih =>
    obtain ⟨i, x⟩ := e
    intro lo h
    simp [wfFrom] at h
    simp only [erase]
    split
    · exact wfFrom_mono (by omega) (ih _ h.2)
    · simp [wfFrom, h.1.1, h.1.2, ih _ h.2]

theorem wfFrom_insert [DecidableEq α] [Inhabited α] (m : FMap α) (k : Nat) (v : α) (hv : v ≠ default) :
    ∀ lo, lo ≤ k → wfFrom lo m = true → wfFrom lo (insert m k v) = true := by
  induction m with
  | nil => intro lo hk _; simp [insert, wfFrom, hk, hv]
  | cons e r ih =>
    obtain ⟨i, x⟩ := e
    intro lo hk h
    simp [wfFrom] at h
    simp only [insert]
    split
    · simp [wfFrom, hk, hv, h.1.2, h.2]; omega
    · split
      · subst_vars; simp [wfFrom, hk, hv, h.2]
      · simp [wfFrom, h.1.1, h.1.2]; exact ih _ (by omega) h.2

/-- A write keeps the canonical form. -/
theorem wf_put [DecidableEq α] [Inhabited α] (m : FMap α) (k : Nat) (v : α) (h : wf m = true) : wf (put m k v) = true := by
  unfold put wf at *
  split
  · exact wfFrom_erase m k 0 h
  · exact wfFrom_insert m k v ‹_› 0 (Nat.zero_le _) h

theorem wf_erase [DecidableEq α] [Inhabited α] (m : FMap α) (k : Nat) (h : wf m = true) : wf (erase m k) = true :=
  wfFrom_erase m k 0 h

theorem wfFrom_keep [DecidableEq α] [Inhabited α] (m : FMap α) (p : Nat → Bool) :
    ∀ lo, wfFrom lo m = true → wfFrom lo (keep m p) = true := by
  induction m with
  | nil => intro lo _; rfl
  | cons e r ih =>
    obtain ⟨i, x⟩ := e
    intro lo h
    simp [wfFrom] at h
    have := ih (i + 1) h.2
    unfold keep at *
    by_cases hp : p i <;> simp [List.filter, hp, wfFrom, h.1.1, h.1.2]
    · simpa using this
    · exact wfFrom_mono (Nat.le_succ_of_le h.1.1) (by simpa using this)

theorem wf_keep [DecidableEq α] [Inhabited α] (m : FMap α) (p : Nat → Bool) (h : wf m = true) : wf (keep m p) = true :=
  wfFrom_keep m p 0 h

theorem wf_putAll [DecidableEq α] [Inhabited α] (l : List (Nat × α)) : ∀ m : FMap α, wf m = true → wf (putAll m l) = true := by
  induction l with
  | nil => intro m h; exact h
  | cons e r ih => intro m h; exact ih _ (wf_put m e.1 e.2 h)

/-- A canonical map lists every key at most once and no entry that reads as unlisted, so it is settled by what it reads. -/
theorem get_eq_of_mem_lt [DecidableEq α] [Inhabited α] (m : FMap α) :
    ∀ lo k, wfFrom lo m = true → k < lo → get m k = default := by
  induction m with
  | nil => intro lo k _ _; rfl
  | cons e r ih =>
    obtain ⟨i, x⟩ := e
    intro lo k h hk
    simp [wfFrom] at h
    have : i ≠ k := by omega
    simp [get, this, ih (i + 1) k h.2 (by omega)]

/-- Equal contents are equal data: two canonical maps that read alike are the same list. -/
theorem ext_get [DecidableEq α] [Inhabited α] (m : FMap α) :
    ∀ n lo, wfFrom lo m = true → wfFrom lo n = true → (∀ k, get m k = get n k) → m = n := by
  induction m with
  | nil =>
    intro n lo _ hn h
    cases n with
    | nil => rfl
    | cons e r =>
      obtain ⟨i, x⟩ := e
      simp [wfFrom] at hn
      have := h i
      simp [get] at this
      exact absurd this.symm hn.1.2
  | cons e r ih =>
    obtain ⟨i, x⟩ := e
    intro n lo hm hn h
    simp [wfFrom] at hm
    cases n with
    | nil =>
      have := h i
      simp [get] at this
      exact absurd this hm.1.2
    | cons e' r' =>
      obtain ⟨j, y⟩ := e'
      simp [wfFrom] at hn
      have hij : i = j := by
        rcases Nat.lt_trichotomy i j with hlt | heq | hgt
        · have := h i
          have hji : j ≠ i := by omega
          simp [get, hji, get_eq_of_mem_lt r' (j + 1) i hn.2 (by omega)] at this
          exact absurd this hm.1.2
        · exact heq
        · have := h j
          have hne : i ≠ j := by omega
          simp [get, hne, get_eq_of_mem_lt r (i + 1) j hm.2 (by omega)] at this
          exact absurd this.symm hn.1.2
      subst hij
      have hxy : x = y := by simpa [get] using h i
      subst hxy
      have : r = r' := by
        refine ih r' (i + 1) hm.2 hn.2 fun k => ?_
        by_cases hk : i = k
        · subst hk
          rw [get_eq_of_mem_lt r (i + 1) i hm.2 (by omega), get_eq_of_mem_lt r' (i + 1) i hn.2 (by omega)]
        · simpa [get, hk] using h k
      rw [this]

end Sys2Proof.FMap

namespace Sys2Proof.Machine

theorem Memory.read_write (m : Memory) (a b : Nat) (v : Byte) :
    Memory.read (Memory.write m a v) b = if b = a then v else Memory.read m b := FMap.get_put m a b v

theorem Memory.wf_write (m : Memory) (a : Nat) (b : Byte) (h : Memory.wf m = true) : Memory.wf (Memory.write m a b) = true :=
  FMap.wf_put m a b h

theorem Memory.wf_writeAt (bs : List Byte) : ∀ (m : Memory) (a : Nat), Memory.wf m = true →
    Memory.wf (Memory.writeAt m a bs) = true := by
  induction bs with
  | nil => intro m a h; exact h
  | cons b r ih => intro m a h; exact ih _ _ (Memory.wf_write m a b h)

theorem Memory.wf_cells (cs : List Host.Cell) : ∀ m : Memory, Memory.wf m = true →
    Memory.wf (cs.foldl (fun m c => Memory.write m c.1 c.2) m) = true := by
  induction cs with
  | nil => intro m h; exact h
  | cons c r ih => intro m h; exact ih _ (Memory.wf_write m c.1 c.2 h)

/-- Bytes written at an address are read back there, and every other address reads as before. -/
theorem Memory.read_writeAt (bs : List Byte) : ∀ (m : Memory) (a b : Nat),
    Memory.read (Memory.writeAt m a bs) b = if a ≤ b ∧ b < a + bs.length then bs.getD (b - a) 0 else Memory.read m b := by
  induction bs with
  | nil =>
    intro m a b
    have : ¬ (a ≤ b ∧ b < a + ([] : List Byte).length) := by simp
    simp only [this, if_false]; rfl
  | cons x r ih =>
    intro m a b
    simp only [Memory.writeAt, ih, Memory.read_write, List.length_cons]
    by_cases h0 : b = a
    · subst h0
      have h1 : ¬ (b + 1 ≤ b ∧ b < b + 1 + r.length) := by omega
      simp only [h1, if_false]; simp
    · by_cases h1 : a + 1 ≤ b ∧ b < a + 1 + r.length
      · have h2 : a ≤ b ∧ b < a + (r.length + 1) := by omega
        obtain ⟨n, rfl⟩ : ∃ n, b = a + 1 + n := ⟨b - (a + 1), by omega⟩
        have e1 : a + 1 + n - (a + 1) = n := by omega
        have e2 : a + 1 + n - a = n + 1 := by omega
        simp [h1, h2, e1, e2]
      · have h2 : ¬ (a ≤ b ∧ b < a + (r.length + 1)) := by omega
        rw [if_neg h1, if_neg h2, if_neg h0]

end Sys2Proof.Machine
end

