-- ==== Sys2Proof/Laws/Scalar.lean ====
section
/-! SUPPORT. The shared shapes of the scalar instructions: what reading and writing registers, copies, fragments and the current gang do. -/

namespace Sys2Proof.Machine

/-! ### Registers of a slice copy -/

@[simp] theorem SliceCopy.get_zero (c : SliceCopy) : c.get 0 = 0 := by simp [SliceCopy.get]

theorem SliceCopy.get_set (c : SliceCopy) (d r : SReg) (v : Word) :
    (c.set d v).get r = if r = d then (if d = 0 then 0 else v) else c.get r := by
  unfold SliceCopy.get SliceCopy.set
  by_cases hd : d = 0
  · rw [if_pos hd, hd]
    by_cases hr : r = 0
    · rw [if_pos hr, if_pos hr, if_pos rfl]
    · rw [if_neg hr, if_neg hr]
  · rw [if_neg hd, if_neg hd]
    by_cases hr : r = d
    · subst hr
      rw [if_neg hd, if_pos rfl]; exact FMap.get_put_same _ _ _
    · have hn : r.toNat ≠ d.toNat := fun h => hr (BitVec.eq_of_toNat_eq h)
      rw [if_neg hr]
      by_cases h0 : r = 0
      · rw [if_pos h0, if_pos h0]
      · rw [if_neg h0, if_neg h0]; exact FMap.get_put_ne _ _ hn

@[simp] theorem SliceCopy.set_flags (c : SliceCopy) (d : SReg) (v : Word) : (c.set d v).flags = c.flags := by
  unfold SliceCopy.set; split <;> rfl
@[simp] theorem SliceCopy.set_guards (c : SliceCopy) (d : SReg) (v : Word) : (c.set d v).guards = c.guards := by
  unfold SliceCopy.set; split <;> rfl
@[simp] theorem SliceCopy.set_k (c : SliceCopy) (d : SReg) (v : Word) : (c.set d v).k = c.k := by
  unfold SliceCopy.set; split <;> rfl

theorem puts_set (c : SliceCopy) (d : SReg) (v : SliceCopy → Word) : Puts d v c (c.set d (v c)) := by
  refine ⟨by simp [SliceCopy.get_set], fun r hr => ?_, by simp, by simp, by simp⟩
  simp at hr
  simp [SliceCopy.get_set, hr]

theorem sreg_succ_ne (d : SReg) : d + 1 ≠ d := by
  intro h
  have := congrArg BitVec.toNat h
  simp [BitVec.toNat_add] at this
  omega

theorem putsPair_setPair (c : SliceCopy) (d : SReg) (v : SliceCopy → Dword) : PutsPair d v c (c.setPair d (v c)) := by
  have h1 : (v c).setWidth 32 = (v c).extractLsb' 0 32 := by
    apply BitVec.eq_of_toNat_eq; simp
  have h2 : (v c >>> 32).setWidth 32 = (v c).extractLsb' 32 32 := by
    apply BitVec.eq_of_toNat_eq; simp
  refine ⟨?_, ?_, fun r hr => ?_, by simp [SliceCopy.setPair], by simp [SliceCopy.setPair], by simp [SliceCopy.setPair]⟩
  · simp [SliceCopy.setPair, SliceCopy.get_set, h1]
  · simp [SliceCopy.setPair, SliceCopy.get_set, h2]
  · simp at hr; simp [SliceCopy.setPair, SliceCopy.get_set, hr]

/-! ### Copies and fragments of a gang -/

theorem Gang.copy_setCopy (g : Gang) (a b : Nat) (c : SliceCopy) :
    (g.setCopy a c).copy b = if b = a then c else g.copy b := by
  simp [Gang.copy, Gang.setCopy, FMap.get_put]

theorem Gang.mapCopies_frame (ls : List Nat) (h : SliceCopy → SliceCopy) : ∀ g : Gang,
    { g.mapCopies ls h with copies := g.copies } = g := by
  induction ls with
  | nil => intro g; rfl
  | cons a r ih =>
    intro g
    have := ih (g.setCopy a (h (g.copy a)))
    unfold Gang.mapCopies at *
    rw [List.foldl_cons]
    have h2 := congrArg (fun x : Gang => { x with copies := g.copies }) this
    exact h2

@[simp] theorem Gang.mapCopies_frags (g : Gang) (ls : List Nat) (h : SliceCopy → SliceCopy) :
    (g.mapCopies ls h).frags = g.frags := by
  have := congrArg (fun x : Gang => x.frags) (Gang.mapCopies_frame ls h g)
  exact this

theorem Gang.copy_mapCopies (ls : List Nat) (h : SliceCopy → SliceCopy) : ∀ (g : Gang) (b : Nat), ls.Nodup →
    (g.mapCopies ls h).copy b = if b ∈ ls then h (g.copy b) else g.copy b := by
  induction ls with
  | nil => intro g b _; simp [Gang.mapCopies]
  | cons a r ih =>
    intro g b hn
    have hn' := List.nodup_cons.mp hn
    have := ih (g.setCopy a (h (g.copy a))) b hn'.2
    unfold Gang.mapCopies at *
    rw [List.foldl_cons, this]
    by_cases hb : b = a
    · subst hb; simp [hn'.1, Gang.copy_setCopy]
    · simp [hb, Gang.copy_setCopy]

theorem Frag.sliceList_nodup (f : Frag) : f.sliceList.Nodup := by
  unfold Frag.sliceList setBits
  exact List.Pairwise.filter _ List.nodup_range

@[simp] theorem Frag.mem_sliceList (f : Frag) (sl : Nat) : sl ∈ f.sliceList ↔ f.slices.getLsbD sl = true := by
  unfold Frag.sliceList setBits
  simp only [List.mem_filter, List.mem_range]
  constructor
  · exact fun h => h.2
  · intro h
    exact ⟨BitVec.lt_of_getLsbD h, h⟩

/-- Finding after replacing: the fragment found by a slice becomes the new one. -/
theorem Gang.fragOf_putFrag (g : Gang) (f f' : Frag) (sl : Nat) (h : g.fragOf sl = some f) (hs : f'.slices = f.slices) :
    (g.putFrag f').fragOf sl = some f' := by
  unfold Gang.fragOf Gang.putFrag at *
  have hb : f'.slices.getLsbD sl = true := by
    rw [hs]; have := List.find?_some h; simpa using this
  have key : ∀ l : List Frag, l.find? (fun x => x.slices.getLsbD sl) = some f →
      (l.map fun x => if x.slices &&& f'.slices = 0 then x else f').find? (fun x => x.slices.getLsbD sl) = some f' := by
    intro l
    induction l with
    | nil => intro h; simp at h
    | cons x r ih =>
      intro h
      by_cases hx : x.slices.getLsbD sl = true
      · have hxf : x = f := by simpa [List.find?, hx] using h
        subst hxf
        have : ¬ (x.slices &&& f'.slices = 0) := by
          intro h0
          have := congrArg (fun z => BitVec.getLsbD z sl) h0
          simp [hb, hx] at this
        rw [List.map_cons, if_neg this, List.find?_cons, hb]
      · have hr : r.find? (fun x => x.slices.getLsbD sl) = some f := by simpa [List.find?, hx] using h
        by_cases h0 : x.slices &&& f'.slices = 0
        · simp only [List.map_cons, h0, if_true, List.find?_cons]
          simp only [hx]
          simpa using ih hr
        · rw [List.map_cons, if_neg h0, List.find?_cons, hb]
  exact key _ h

/-! ### The current gang and fragment -/

theorem State.gang?_updGang (s : State) (a b : Nat) (g : Gang) :
    (s.updGang a g).gang? b = if b = a then some g else s.gang? b := by
  simp [State.gang?, State.updGang, FMap.get_put]

theorem State.cur_eq_some {s : State} {g : Gang} {f : Frag} :
    s.cur = some (g, f) ↔ s.gang? s.gang = some g ∧ g.fragOf s.slice = some f := by
  unfold State.cur
  cases h : s.gang? s.gang with
  | none => simp
  | some x =>
    simp only [Option.map_eq_some_iff, Option.some.injEq, Prod.mk.injEq]
    constructor
    · rintro ⟨a, ha, rfl, rfl⟩; exact ⟨rfl, ha⟩
    · rintro ⟨rfl, h⟩; exact ⟨f, h, rfl, rfl⟩

theorem State.onlyGang_updGang (s : State) (g : Gang) : OnlyGang s (s.updGang s.gang g) :=
  ⟨rfl, fun n hn => by simp [State.gang?_updGang, hn]⟩

theorem State.cur_setCur {s : State} {g : Gang} {f : Frag} (h : s.cur = some (g, f)) (g1 : Gang) (f' : Frag)
    (hf : g1.frags = g.frags) (hs : f'.slices = f.slices) : (s.setCur g1 f').cur = some (g1.putFrag f', f') := by
  obtain ⟨h1, h2⟩ := State.cur_eq_some.mp h
  refine State.cur_eq_some.mpr ⟨?_, ?_⟩
  · have : (s.setCur g1 f').gang = s.gang := rfl
    rw [this]; simp [State.setCur, State.gang?_updGang]
  · have : (s.setCur g1 f').slice = s.slice := rfl
    rw [this]
    exact Gang.fragOf_putFrag g1 f f' s.slice (by unfold Gang.fragOf at *; rw [hf]; exact h2) hs

/-- Copies of the fragment's slices change and the fragment moves on: the whole of what a scalar instruction does to its gang. -/
theorem fragTo_setCur {s : State} {g : Gang} {f : Frag} (h : s.cur = some (g, f)) (f' : Frag) (hs : f'.slices = f.slices)
    (m : SliceCopy → SliceCopy) (R : SliceCopy → SliceCopy → Prop) (hR : ∀ c, R c (m c)) :
    FragTo g f' R s (s.setCur (g.mapCopies f.sliceList m) f') := by
  refine ⟨State.onlyGang_updGang s _, (g.mapCopies f.sliceList m).putFrag f', ?_, ?_, ?_, ?_⟩
  · exact State.cur_setCur h _ f' (by simp) hs
  · have := Gang.mapCopies_frame f.sliceList m g
    have h2 := congrArg (fun x : Gang => { x with frags := g.frags }) this
    exact h2
  · simp [Gang.putFrag]
  · intro sl
    have : ((g.mapCopies f.sliceList m).putFrag f').copy sl = (g.mapCopies f.sliceList m).copy sl := rfl
    rw [this, Gang.copy_mapCopies _ _ _ _ f.sliceList_nodup, hs]
    by_cases hb : f.slices.getLsbD sl = true <;> simp [hb, hR]

/-- A pure scalar computation whose registers carry no pending mark completes. -/
theorem scalarPure_next {s : State} {g : Gang} {f : Frag} (h : s.cur = some (g, f)) (rs : List SReg)
    (m : SliceCopy → SliceCopy) (R : SliceCopy → SliceCopy → Prop) (hR : ∀ c, R c (m c)) (hf : f.free rs = true) :
    ∃ t, scalarPure rs m s = .next t ∧ FragTo g f.advance R s t :=
  ⟨_, by simp [scalarPure, withCur, h, hf], fragTo_setCur h f.advance rfl m R hR⟩

/-- A pure scalar computation waits while a register of it carries a pending mark. -/
theorem scalarPure_stall {s : State} {g : Gang} {f : Frag} (h : s.cur = some (g, f)) (rs : List SReg)
    (m : SliceCopy → SliceCopy) (hf : f.free rs = false) : scalarPure rs m s = .next s := by
  simp [scalarPure, withCur, h, hf]

end Sys2Proof.Machine
end

