-- ==== Sys2Proof/Laws/State.lean ====
section
/-! SUPPORT. What each update of the state and of a gang leaves alone, field by field, and what the updated table reads. -/

namespace Sys2Proof.Machine

variable (s : State) (n m : Nat) (x : Gang) (b : Block) (l : Launch) (c : Core) (i : Iface) (q : Queue) (p : Port) (f : Frag)

/-! ### `updGang` -/

@[simp] theorem State.updGang_clk : (s.updGang n x).clk = s.clk := rfl
@[simp] theorem State.updGang_clk0 : (s.updGang n x).clk0 = s.clk0 := rfl
@[simp] theorem State.updGang_time : (s.updGang n x).time = s.time := rfl
@[simp] theorem State.updGang_timeRem : (s.updGang n x).timeRem = s.timeRem := rfl
@[simp] theorem State.updGang_slew : (s.updGang n x).slew = s.slew := rfl
@[simp] theorem State.updGang_slewRem : (s.updGang n x).slewRem = s.slewRem := rfl
@[simp] theorem State.updGang_offset : (s.updGang n x).offset = s.offset := rfl
@[simp] theorem State.updGang_syncs : (s.updGang n x).syncs = s.syncs := rfl
@[simp] theorem State.updGang_turns : (s.updGang n x).turns = s.turns := rfl
@[simp] theorem State.updGang_prompt : (s.updGang n x).prompt = s.prompt := rfl
@[simp] theorem State.updGang_late : (s.updGang n x).late = s.late := rfl
@[simp] theorem State.updGang_gang : (s.updGang n x).gang = s.gang := rfl
@[simp] theorem State.updGang_slice : (s.updGang n x).slice = s.slice := rfl
@[simp] theorem State.updGang_subject : (s.updGang n x).subject = s.subject := rfl
@[simp] theorem State.updGang_blocks : (s.updGang n x).blocks = s.blocks := rfl
@[simp] theorem State.updGang_launches : (s.updGang n x).launches = s.launches := rfl
@[simp] theorem State.updGang_trees : (s.updGang n x).trees = s.trees := rfl
@[simp] theorem State.updGang_groups : (s.updGang n x).groups = s.groups := rfl
@[simp] theorem State.updGang_nextGang : (s.updGang n x).nextGang = s.nextGang := rfl
@[simp] theorem State.updGang_nextBlock : (s.updGang n x).nextBlock = s.nextBlock := rfl
@[simp] theorem State.updGang_nextLaunch : (s.updGang n x).nextLaunch = s.nextLaunch := rfl
@[simp] theorem State.updGang_nextOp : (s.updGang n x).nextOp = s.nextOp := rfl
@[simp] theorem State.updGang_mem : (s.updGang n x).mem = s.mem := rfl
@[simp] theorem State.updGang_sp : (s.updGang n x).sp = s.sp := rfl
@[simp] theorem State.updGang_ring : (s.updGang n x).ring = s.ring := rfl
@[simp] theorem State.updGang_dirty : (s.updGang n x).dirty = s.dirty := rfl
@[simp] theorem State.updGang_poison : (s.updGang n x).poison = s.poison := rfl
@[simp] theorem State.updGang_l1 : (s.updGang n x).l1 = s.l1 := rfl
@[simp] theorem State.updGang_path : (s.updGang n x).path = s.path := rfl
@[simp] theorem State.updGang_tlb : (s.updGang n x).tlb = s.tlb := rfl
@[simp] theorem State.updGang_walker : (s.updGang n x).walker = s.walker := rfl
@[simp] theorem State.updGang_posted : (s.updGang n x).posted = s.posted := rfl
@[simp] theorem State.updGang_icache : (s.updGang n x).icache = s.icache := rfl
@[simp] theorem State.updGang_ringOwn : (s.updGang n x).ringOwn = s.ringOwn := rfl
@[simp] theorem State.updGang_cores : (s.updGang n x).cores = s.cores := rfl
@[simp] theorem State.updGang_clusters : (s.updGang n x).clusters = s.clusters := rfl
@[simp] theorem State.updGang_sguard : (s.updGang n x).sguard = s.sguard := rfl
@[simp] theorem State.updGang_dirtyBase : (s.updGang n x).dirtyBase = s.dirtyBase := rfl
@[simp] theorem State.updGang_eccce : (s.updGang n x).eccce = s.eccce := rfl
@[simp] theorem State.updGang_eccue : (s.updGang n x).eccue = s.eccue := rfl
@[simp] theorem State.updGang_base : (s.updGang n x).base = s.base := rfl
@[simp] theorem State.updGang_slotSt : (s.updGang n x).slotSt = s.slotSt := rfl
@[simp] theorem State.updGang_chains : (s.updGang n x).chains = s.chains := rfl
@[simp] theorem State.updGang_nextChain : (s.updGang n x).nextChain = s.nextChain := rfl
@[simp] theorem State.updGang_owed : (s.updGang n x).owed = s.owed := rfl
@[simp] theorem State.updGang_rateLast : (s.updGang n x).rateLast = s.rateLast := rfl
@[simp] theorem State.updGang_stores : (s.updGang n x).stores = s.stores := rfl
@[simp] theorem State.updGang_active : (s.updGang n x).active = s.active := rfl
@[simp] theorem State.updGang_mlwr : (s.updGang n x).mlwr = s.mlwr := rfl
@[simp] theorem State.updGang_mlq : (s.updGang n x).mlq = s.mlq := rfl
@[simp] theorem State.updGang_bins : (s.updGang n x).bins = s.bins := rfl
@[simp] theorem State.updGang_ifaces : (s.updGang n x).ifaces = s.ifaces := rfl
@[simp] theorem State.updGang_queues : (s.updGang n x).queues = s.queues := rfl
@[simp] theorem State.updGang_feq : (s.updGang n x).feq = s.feq := rfl
@[simp] theorem State.updGang_notices : (s.updGang n x).notices = s.notices := rfl
@[simp] theorem State.updGang_parks : (s.updGang n x).parks = s.parks := rfl
@[simp] theorem State.updGang_migs : (s.updGang n x).migs = s.migs := rfl
@[simp] theorem State.updGang_outs : (s.updGang n x).outs = s.outs := rfl
@[simp] theorem State.updGang_remote : (s.updGang n x).remote = s.remote := rfl
@[simp] theorem State.updGang_ml : (s.updGang n x).ml = s.ml := rfl
@[simp] theorem State.updGang_callot : (s.updGang n x).callot = s.callot := rfl
@[simp] theorem State.updGang_domains : (s.updGang n x).domains = s.domains := rfl
@[simp] theorem State.updGang_offLast : (s.updGang n x).offLast = s.offLast := rfl
@[simp] theorem State.updGang_cryo : (s.updGang n x).cryo = s.cryo := rfl
@[simp] theorem State.updGang_service : (s.updGang n x).service = s.service := rfl
@[simp] theorem State.updGang_sensors : (s.updGang n x).sensors = s.sensors := rfl
@[simp] theorem State.updGang_tband : (s.updGang n x).tband = s.tband := rfl
@[simp] theorem State.updGang_coolNs : (s.updGang n x).coolNs = s.coolNs := rfl
@[simp] theorem State.updGang_hotSaved : (s.updGang n x).hotSaved = s.hotSaved := rfl
@[simp] theorem State.updGang_refresh : (s.updGang n x).refresh = s.refresh := rfl
@[simp] theorem State.updGang_derated : (s.updGang n x).derated = s.derated := rfl
@[simp] theorem State.updGang_warmCmd : (s.updGang n x).warmCmd = s.warmCmd := rfl
@[simp] theorem State.updGang_warmDone : (s.updGang n x).warmDone = s.warmDone := rfl
@[simp] theorem State.updGang_ports : (s.updGang n x).ports = s.ports := rfl
@[simp] theorem State.updGang_lock : (s.updGang n x).lock = s.lock := rfl
@[simp] theorem State.updGang_boot : (s.updGang n x).boot = s.boot := rfl
@[simp] theorem State.updGang_blockAt : (s.updGang n x).block? m = s.block? m := rfl
@[simp] theorem State.updGang_launchAt : (s.updGang n x).launch? m = s.launch? m := rfl
@[simp] theorem State.updGang_core : (s.updGang n x).core m = s.core m := rfl
@[simp] theorem State.updGang_ifaceAt : (s.updGang n x).iface? m = s.iface? m := rfl
@[simp] theorem State.updGang_queueAt : (s.updGang n x).queue? m = s.queue? m := rfl
@[simp] theorem State.updGang_port : (s.updGang n x).port m = s.port m := rfl

/-! ### `setCur` -/

@[simp] theorem State.setCur_clk : (s.setCur x f).clk = s.clk := rfl
@[simp] theorem State.setCur_clk0 : (s.setCur x f).clk0 = s.clk0 := rfl
@[simp] theorem State.setCur_time : (s.setCur x f).time = s.time := rfl
@[simp] theorem State.setCur_timeRem : (s.setCur x f).timeRem = s.timeRem := rfl
@[simp] theorem State.setCur_slew : (s.setCur x f).slew = s.slew := rfl
@[simp] theorem State.setCur_slewRem : (s.setCur x f).slewRem = s.slewRem := rfl
@[simp] theorem State.setCur_offset : (s.setCur x f).offset = s.offset := rfl
@[simp] theorem State.setCur_syncs : (s.setCur x f).syncs = s.syncs := rfl
@[simp] theorem State.setCur_turns : (s.setCur x f).turns = s.turns := rfl
@[simp] theorem State.setCur_prompt : (s.setCur x f).prompt = s.prompt := rfl
@[simp] theorem State.setCur_late : (s.setCur x f).late = s.late := rfl
@[simp] theorem State.setCur_gang : (s.setCur x f).gang = s.gang := rfl
@[simp] theorem State.setCur_slice : (s.setCur x f).slice = s.slice := rfl
@[simp] theorem State.setCur_subject : (s.setCur x f).subject = s.subject := rfl
@[simp] theorem State.setCur_blocks : (s.setCur x f).blocks = s.blocks := rfl
@[simp] theorem State.setCur_launches : (s.setCur x f).launches = s.launches := rfl
@[simp] theorem State.setCur_trees : (s.setCur x f).trees = s.trees := rfl
@[simp] theorem State.setCur_groups : (s.setCur x f).groups = s.groups := rfl
@[simp] theorem State.setCur_nextGang : (s.setCur x f).nextGang = s.nextGang := rfl
@[simp] theorem State.setCur_nextBlock : (s.setCur x f).nextBlock = s.nextBlock := rfl
@[simp] theorem State.setCur_nextLaunch : (s.setCur x f).nextLaunch = s.nextLaunch := rfl
@[simp] theorem State.setCur_nextOp : (s.setCur x f).nextOp = s.nextOp := rfl
@[simp] theorem State.setCur_mem : (s.setCur x f).mem = s.mem := rfl
@[simp] theorem State.setCur_sp : (s.setCur x f).sp = s.sp := rfl
@[simp] theorem State.setCur_ring : (s.setCur x f).ring = s.ring := rfl
@[simp] theorem State.setCur_dirty : (s.setCur x f).dirty = s.dirty := rfl
@[simp] theorem State.setCur_poison : (s.setCur x f).poison = s.poison := rfl
@[simp] theorem State.setCur_l1 : (s.setCur x f).l1 = s.l1 := rfl
@[simp] theorem State.setCur_path : (s.setCur x f).path = s.path := rfl
@[simp] theorem State.setCur_tlb : (s.setCur x f).tlb = s.tlb := rfl
@[simp] theorem State.setCur_walker : (s.setCur x f).walker = s.walker := rfl
@[simp] theorem State.setCur_posted : (s.setCur x f).posted = s.posted := rfl
@[simp] theorem State.setCur_icache : (s.setCur x f).icache = s.icache := rfl
@[simp] theorem State.setCur_ringOwn : (s.setCur x f).ringOwn = s.ringOwn := rfl
@[simp] theorem State.setCur_cores : (s.setCur x f).cores = s.cores := rfl
@[simp] theorem State.setCur_clusters : (s.setCur x f).clusters = s.clusters := rfl
@[simp] theorem State.setCur_sguard : (s.setCur x f).sguard = s.sguard := rfl
@[simp] theorem State.setCur_dirtyBase : (s.setCur x f).dirtyBase = s.dirtyBase := rfl
@[simp] theorem State.setCur_eccce : (s.setCur x f).eccce = s.eccce := rfl
@[simp] theorem State.setCur_eccue : (s.setCur x f).eccue = s.eccue := rfl
@[simp] theorem State.setCur_base : (s.setCur x f).base = s.base := rfl
@[simp] theorem State.setCur_slotSt : (s.setCur x f).slotSt = s.slotSt := rfl
@[simp] theorem State.setCur_chains : (s.setCur x f).chains = s.chains := rfl
@[simp] theorem State.setCur_nextChain : (s.setCur x f).nextChain = s.nextChain := rfl
@[simp] theorem State.setCur_owed : (s.setCur x f).owed = s.owed := rfl
@[simp] theorem State.setCur_rateLast : (s.setCur x f).rateLast = s.rateLast := rfl
@[simp] theorem State.setCur_stores : (s.setCur x f).stores = s.stores := rfl
@[simp] theorem State.setCur_active : (s.setCur x f).active = s.active := rfl
@[simp] theorem State.setCur_mlwr : (s.setCur x f).mlwr = s.mlwr := rfl
@[simp] theorem State.setCur_mlq : (s.setCur x f).mlq = s.mlq := rfl
@[simp] theorem State.setCur_bins : (s.setCur x f).bins = s.bins := rfl
@[simp] theorem State.setCur_ifaces : (s.setCur x f).ifaces = s.ifaces := rfl
@[simp] theorem State.setCur_queues : (s.setCur x f).queues = s.queues := rfl
@[simp] theorem State.setCur_feq : (s.setCur x f).feq = s.feq := rfl
@[simp] theorem State.setCur_notices : (s.setCur x f).notices = s.notices := rfl
@[simp] theorem State.setCur_parks : (s.setCur x f).parks = s.parks := rfl
@[simp] theorem State.setCur_migs : (s.setCur x f).migs = s.migs := rfl
@[simp] theorem State.setCur_outs : (s.setCur x f).outs = s.outs := rfl
@[simp] theorem State.setCur_remote : (s.setCur x f).remote = s.remote := rfl
@[simp] theorem State.setCur_ml : (s.setCur x f).ml = s.ml := rfl
@[simp] theorem State.setCur_callot : (s.setCur x f).callot = s.callot := rfl
@[simp] theorem State.setCur_domains : (s.setCur x f).domains = s.domains := rfl
@[simp] theorem State.setCur_offLast : (s.setCur x f).offLast = s.offLast := rfl
@[simp] theorem State.setCur_cryo : (s.setCur x f).cryo = s.cryo := rfl
@[simp] theorem State.setCur_service : (s.setCur x f).service = s.service := rfl
@[simp] theorem State.setCur_sensors : (s.setCur x f).sensors = s.sensors := rfl
@[simp] theorem State.setCur_tband : (s.setCur x f).tband = s.tband := rfl
@[simp] theorem State.setCur_coolNs : (s.setCur x f).coolNs = s.coolNs := rfl
@[simp] theorem State.setCur_hotSaved : (s.setCur x f).hotSaved = s.hotSaved := rfl
@[simp] theorem State.setCur_refresh : (s.setCur x f).refresh = s.refresh := rfl
@[simp] theorem State.setCur_derated : (s.setCur x f).derated = s.derated := rfl
@[simp] theorem State.setCur_warmCmd : (s.setCur x f).warmCmd = s.warmCmd := rfl
@[simp] theorem State.setCur_warmDone : (s.setCur x f).warmDone = s.warmDone := rfl
@[simp] theorem State.setCur_ports : (s.setCur x f).ports = s.ports := rfl
@[simp] theorem State.setCur_lock : (s.setCur x f).lock = s.lock := rfl
@[simp] theorem State.setCur_boot : (s.setCur x f).boot = s.boot := rfl
@[simp] theorem State.setCur_blockAt : (s.setCur x f).block? m = s.block? m := rfl
@[simp] theorem State.setCur_launchAt : (s.setCur x f).launch? m = s.launch? m := rfl
@[simp] theorem State.setCur_core : (s.setCur x f).core m = s.core m := rfl
@[simp] theorem State.setCur_ifaceAt : (s.setCur x f).iface? m = s.iface? m := rfl
@[simp] theorem State.setCur_queueAt : (s.setCur x f).queue? m = s.queue? m := rfl
@[simp] theorem State.setCur_port : (s.setCur x f).port m = s.port m := rfl

/-! ### `setBlock` -/

@[simp] theorem State.setBlock_clk : (s.setBlock n b).clk = s.clk := rfl
@[simp] theorem State.setBlock_clk0 : (s.setBlock n b).clk0 = s.clk0 := rfl
@[simp] theorem State.setBlock_time : (s.setBlock n b).time = s.time := rfl
@[simp] theorem State.setBlock_timeRem : (s.setBlock n b).timeRem = s.timeRem := rfl
@[simp] theorem State.setBlock_slew : (s.setBlock n b).slew = s.slew := rfl
@[simp] theorem State.setBlock_slewRem : (s.setBlock n b).slewRem = s.slewRem := rfl
@[simp] theorem State.setBlock_offset : (s.setBlock n b).offset = s.offset := rfl
@[simp] theorem State.setBlock_syncs : (s.setBlock n b).syncs = s.syncs := rfl
@[simp] theorem State.setBlock_turns : (s.setBlock n b).turns = s.turns := rfl
@[simp] theorem State.setBlock_prompt : (s.setBlock n b).prompt = s.prompt := rfl
@[simp] theorem State.setBlock_late : (s.setBlock n b).late = s.late := rfl
@[simp] theorem State.setBlock_gang : (s.setBlock n b).gang = s.gang := rfl
@[simp] theorem State.setBlock_slice : (s.setBlock n b).slice = s.slice := rfl
@[simp] theorem State.setBlock_subject : (s.setBlock n b).subject = s.subject := rfl
@[simp] theorem State.setBlock_gangs : (s.setBlock n b).gangs = s.gangs := rfl
@[simp] theorem State.setBlock_launches : (s.setBlock n b).launches = s.launches := rfl
@[simp] theorem State.setBlock_trees : (s.setBlock n b).trees = s.trees := rfl
@[simp] theorem State.setBlock_groups : (s.setBlock n b).groups = s.groups := rfl
@[simp] theorem State.setBlock_nextGang : (s.setBlock n b).nextGang = s.nextGang := rfl
@[simp] theorem State.setBlock_nextBlock : (s.setBlock n b).nextBlock = s.nextBlock := rfl
@[simp] theorem State.setBlock_nextLaunch : (s.setBlock n b).nextLaunch = s.nextLaunch := rfl
@[simp] theorem State.setBlock_nextOp : (s.setBlock n b).nextOp = s.nextOp := rfl
@[simp] theorem State.setBlock_mem : (s.setBlock n b).mem = s.mem := rfl
@[simp] theorem State.setBlock_sp : (s.setBlock n b).sp = s.sp := rfl
@[simp] theorem State.setBlock_ring : (s.setBlock n b).ring = s.ring := rfl
@[simp] theorem State.setBlock_dirty : (s.setBlock n b).dirty = s.dirty := rfl
@[simp] theorem State.setBlock_poison : (s.setBlock n b).poison = s.poison := rfl
@[simp] theorem State.setBlock_l1 : (s.setBlock n b).l1 = s.l1 := rfl
@[simp] theorem State.setBlock_path : (s.setBlock n b).path = s.path := rfl
@[simp] theorem State.setBlock_tlb : (s.setBlock n b).tlb = s.tlb := rfl
@[simp] theorem State.setBlock_walker : (s.setBlock n b).walker = s.walker := rfl
@[simp] theorem State.setBlock_posted : (s.setBlock n b).posted = s.posted := rfl
@[simp] theorem State.setBlock_icache : (s.setBlock n b).icache = s.icache := rfl
@[simp] theorem State.setBlock_ringOwn : (s.setBlock n b).ringOwn = s.ringOwn := rfl
@[simp] theorem State.setBlock_cores : (s.setBlock n b).cores = s.cores := rfl
@[simp] theorem State.setBlock_clusters : (s.setBlock n b).clusters = s.clusters := rfl
@[simp] theorem State.setBlock_sguard : (s.setBlock n b).sguard = s.sguard := rfl
@[simp] theorem State.setBlock_dirtyBase : (s.setBlock n b).dirtyBase = s.dirtyBase := rfl
@[simp] theorem State.setBlock_eccce : (s.setBlock n b).eccce = s.eccce := rfl
@[simp] theorem State.setBlock_eccue : (s.setBlock n b).eccue = s.eccue := rfl
@[simp] theorem State.setBlock_base : (s.setBlock n b).base = s.base := rfl
@[simp] theorem State.setBlock_slotSt : (s.setBlock n b).slotSt = s.slotSt := rfl
@[simp] theorem State.setBlock_chains : (s.setBlock n b).chains = s.chains := rfl
@[simp] theorem State.setBlock_nextChain : (s.setBlock n b).nextChain = s.nextChain := rfl
@[simp] theorem State.setBlock_owed : (s.setBlock n b).owed = s.owed := rfl
@[simp] theorem State.setBlock_rateLast : (s.setBlock n b).rateLast = s.rateLast := rfl
@[simp] theorem State.setBlock_stores : (s.setBlock n b).stores = s.stores := rfl
@[simp] theorem State.setBlock_active : (s.setBlock n b).active = s.active := rfl
@[simp] theorem State.setBlock_mlwr : (s.setBlock n b).mlwr = s.mlwr := rfl
@[simp] theorem State.setBlock_mlq : (s.setBlock n b).mlq = s.mlq := rfl
@[simp] theorem State.setBlock_bins : (s.setBlock n b).bins = s.bins := rfl
@[simp] theorem State.setBlock_ifaces : (s.setBlock n b).ifaces = s.ifaces := rfl
@[simp] theorem State.setBlock_queues : (s.setBlock n b).queues = s.queues := rfl
@[simp] theorem State.setBlock_feq : (s.setBlock n b).feq = s.feq := rfl
@[simp] theorem State.setBlock_notices : (s.setBlock n b).notices = s.notices := rfl
@[simp] theorem State.setBlock_parks : (s.setBlock n b).parks = s.parks := rfl
@[simp] theorem State.setBlock_migs : (s.setBlock n b).migs = s.migs := rfl
@[simp] theorem State.setBlock_outs : (s.setBlock n b).outs = s.outs := rfl
@[simp] theorem State.setBlock_remote : (s.setBlock n b).remote = s.remote := rfl
@[simp] theorem State.setBlock_ml : (s.setBlock n b).ml = s.ml := rfl
@[simp] theorem State.setBlock_callot : (s.setBlock n b).callot = s.callot := rfl
@[simp] theorem State.setBlock_domains : (s.setBlock n b).domains = s.domains := rfl
@[simp] theorem State.setBlock_offLast : (s.setBlock n b).offLast = s.offLast := rfl
@[simp] theorem State.setBlock_cryo : (s.setBlock n b).cryo = s.cryo := rfl
@[simp] theorem State.setBlock_service : (s.setBlock n b).service = s.service := rfl
@[simp] theorem State.setBlock_sensors : (s.setBlock n b).sensors = s.sensors := rfl
@[simp] theorem State.setBlock_tband : (s.setBlock n b).tband = s.tband := rfl
@[simp] theorem State.setBlock_coolNs : (s.setBlock n b).coolNs = s.coolNs := rfl
@[simp] theorem State.setBlock_hotSaved : (s.setBlock n b).hotSaved = s.hotSaved := rfl
@[simp] theorem State.setBlock_refresh : (s.setBlock n b).refresh = s.refresh := rfl
@[simp] theorem State.setBlock_derated : (s.setBlock n b).derated = s.derated := rfl
@[simp] theorem State.setBlock_warmCmd : (s.setBlock n b).warmCmd = s.warmCmd := rfl
@[simp] theorem State.setBlock_warmDone : (s.setBlock n b).warmDone = s.warmDone := rfl
@[simp] theorem State.setBlock_ports : (s.setBlock n b).ports = s.ports := rfl
@[simp] theorem State.setBlock_lock : (s.setBlock n b).lock = s.lock := rfl
@[simp] theorem State.setBlock_boot : (s.setBlock n b).boot = s.boot := rfl
@[simp] theorem State.setBlock_gangAt : (s.setBlock n b).gang? m = s.gang? m := rfl
theorem State.block_setBlock : (s.setBlock n b).block? m = if m = n then some b else s.block? m := by
  simp [State.block?, State.setBlock, FMap.get_put]
@[simp] theorem State.setBlock_launchAt : (s.setBlock n b).launch? m = s.launch? m := rfl
@[simp] theorem State.setBlock_core : (s.setBlock n b).core m = s.core m := rfl
@[simp] theorem State.setBlock_ifaceAt : (s.setBlock n b).iface? m = s.iface? m := rfl
@[simp] theorem State.setBlock_queueAt : (s.setBlock n b).queue? m = s.queue? m := rfl
@[simp] theorem State.setBlock_port : (s.setBlock n b).port m = s.port m := rfl

/-! ### `setLaunch` -/

@[simp] theorem State.setLaunch_clk : (s.setLaunch n l).clk = s.clk := rfl
@[simp] theorem State.setLaunch_clk0 : (s.setLaunch n l).clk0 = s.clk0 := rfl
@[simp] theorem State.setLaunch_time : (s.setLaunch n l).time = s.time := rfl
@[simp] theorem State.setLaunch_timeRem : (s.setLaunch n l).timeRem = s.timeRem := rfl
@[simp] theorem State.setLaunch_slew : (s.setLaunch n l).slew = s.slew := rfl
@[simp] theorem State.setLaunch_slewRem : (s.setLaunch n l).slewRem = s.slewRem := rfl
@[simp] theorem State.setLaunch_offset : (s.setLaunch n l).offset = s.offset := rfl
@[simp] theorem State.setLaunch_syncs : (s.setLaunch n l).syncs = s.syncs := rfl
@[simp] theorem State.setLaunch_turns : (s.setLaunch n l).turns = s.turns := rfl
@[simp] theorem State.setLaunch_prompt : (s.setLaunch n l).prompt = s.prompt := rfl
@[simp] theorem State.setLaunch_late : (s.setLaunch n l).late = s.late := rfl
@[simp] theorem State.setLaunch_gang : (s.setLaunch n l).gang = s.gang := rfl
@[simp] theorem State.setLaunch_slice : (s.setLaunch n l).slice = s.slice := rfl
@[simp] theorem State.setLaunch_subject : (s.setLaunch n l).subject = s.subject := rfl
@[simp] theorem State.setLaunch_gangs : (s.setLaunch n l).gangs = s.gangs := rfl
@[simp] theorem State.setLaunch_blocks : (s.setLaunch n l).blocks = s.blocks := rfl
@[simp] theorem State.setLaunch_trees : (s.setLaunch n l).trees = s.trees := rfl
@[simp] theorem State.setLaunch_groups : (s.setLaunch n l).groups = s.groups := rfl
@[simp] theorem State.setLaunch_nextGang : (s.setLaunch n l).nextGang = s.nextGang := rfl
@[simp] theorem State.setLaunch_nextBlock : (s.setLaunch n l).nextBlock = s.nextBlock := rfl
@[simp] theorem State.setLaunch_nextLaunch : (s.setLaunch n l).nextLaunch = s.nextLaunch := rfl
@[simp] theorem State.setLaunch_nextOp : (s.setLaunch n l).nextOp = s.nextOp := rfl
@[simp] theorem State.setLaunch_mem : (s.setLaunch n l).mem = s.mem := rfl
@[simp] theorem State.setLaunch_sp : (s.setLaunch n l).sp = s.sp := rfl
@[simp] theorem State.setLaunch_ring : (s.setLaunch n l).ring = s.ring := rfl
@[simp] theorem State.setLaunch_dirty : (s.setLaunch n l).dirty = s.dirty := rfl
@[simp] theorem State.setLaunch_poison : (s.setLaunch n l).poison = s.poison := rfl
@[simp] theorem State.setLaunch_l1 : (s.setLaunch n l).l1 = s.l1 := rfl
@[simp] theorem State.setLaunch_path : (s.setLaunch n l).path = s.path := rfl
@[simp] theorem State.setLaunch_tlb : (s.setLaunch n l).tlb = s.tlb := rfl
@[simp] theorem State.setLaunch_walker : (s.setLaunch n l).walker = s.walker := rfl
@[simp] theorem State.setLaunch_posted : (s.setLaunch n l).posted = s.posted := rfl
@[simp] theorem State.setLaunch_icache : (s.setLaunch n l).icache = s.icache := rfl
@[simp] theorem State.setLaunch_ringOwn : (s.setLaunch n l).ringOwn = s.ringOwn := rfl
@[simp] theorem State.setLaunch_cores : (s.setLaunch n l).cores = s.cores := rfl
@[simp] theorem State.setLaunch_clusters : (s.setLaunch n l).clusters = s.clusters := rfl
@[simp] theorem State.setLaunch_sguard : (s.setLaunch n l).sguard = s.sguard := rfl
@[simp] theorem State.setLaunch_dirtyBase : (s.setLaunch n l).dirtyBase = s.dirtyBase := rfl
@[simp] theorem State.setLaunch_eccce : (s.setLaunch n l).eccce = s.eccce := rfl
@[simp] theorem State.setLaunch_eccue : (s.setLaunch n l).eccue = s.eccue := rfl
@[simp] theorem State.setLaunch_base : (s.setLaunch n l).base = s.base := rfl
@[simp] theorem State.setLaunch_slotSt : (s.setLaunch n l).slotSt = s.slotSt := rfl
@[simp] theorem State.setLaunch_chains : (s.setLaunch n l).chains = s.chains := rfl
@[simp] theorem State.setLaunch_nextChain : (s.setLaunch n l).nextChain = s.nextChain := rfl
@[simp] theorem State.setLaunch_owed : (s.setLaunch n l).owed = s.owed := rfl
@[simp] theorem State.setLaunch_rateLast : (s.setLaunch n l).rateLast = s.rateLast := rfl
@[simp] theorem State.setLaunch_stores : (s.setLaunch n l).stores = s.stores := rfl
@[simp] theorem State.setLaunch_active : (s.setLaunch n l).active = s.active := rfl
@[simp] theorem State.setLaunch_mlwr : (s.setLaunch n l).mlwr = s.mlwr := rfl
@[simp] theorem State.setLaunch_mlq : (s.setLaunch n l).mlq = s.mlq := rfl
@[simp] theorem State.setLaunch_bins : (s.setLaunch n l).bins = s.bins := rfl
@[simp] theorem State.setLaunch_ifaces : (s.setLaunch n l).ifaces = s.ifaces := rfl
@[simp] theorem State.setLaunch_queues : (s.setLaunch n l).queues = s.queues := rfl
@[simp] theorem State.setLaunch_feq : (s.setLaunch n l).feq = s.feq := rfl
@[simp] theorem State.setLaunch_notices : (s.setLaunch n l).notices = s.notices := rfl
@[simp] theorem State.setLaunch_parks : (s.setLaunch n l).parks = s.parks := rfl
@[simp] theorem State.setLaunch_migs : (s.setLaunch n l).migs = s.migs := rfl
@[simp] theorem State.setLaunch_outs : (s.setLaunch n l).outs = s.outs := rfl
@[simp] theorem State.setLaunch_remote : (s.setLaunch n l).remote = s.remote := rfl
@[simp] theorem State.setLaunch_ml : (s.setLaunch n l).ml = s.ml := rfl
@[simp] theorem State.setLaunch_callot : (s.setLaunch n l).callot = s.callot := rfl
@[simp] theorem State.setLaunch_domains : (s.setLaunch n l).domains = s.domains := rfl
@[simp] theorem State.setLaunch_offLast : (s.setLaunch n l).offLast = s.offLast := rfl
@[simp] theorem State.setLaunch_cryo : (s.setLaunch n l).cryo = s.cryo := rfl
@[simp] theorem State.setLaunch_service : (s.setLaunch n l).service = s.service := rfl
@[simp] theorem State.setLaunch_sensors : (s.setLaunch n l).sensors = s.sensors := rfl
@[simp] theorem State.setLaunch_tband : (s.setLaunch n l).tband = s.tband := rfl
@[simp] theorem State.setLaunch_coolNs : (s.setLaunch n l).coolNs = s.coolNs := rfl
@[simp] theorem State.setLaunch_hotSaved : (s.setLaunch n l).hotSaved = s.hotSaved := rfl
@[simp] theorem State.setLaunch_refresh : (s.setLaunch n l).refresh = s.refresh := rfl
@[simp] theorem State.setLaunch_derated : (s.setLaunch n l).derated = s.derated := rfl
@[simp] theorem State.setLaunch_warmCmd : (s.setLaunch n l).warmCmd = s.warmCmd := rfl
@[simp] theorem State.setLaunch_warmDone : (s.setLaunch n l).warmDone = s.warmDone := rfl
@[simp] theorem State.setLaunch_ports : (s.setLaunch n l).ports = s.ports := rfl
@[simp] theorem State.setLaunch_lock : (s.setLaunch n l).lock = s.lock := rfl
@[simp] theorem State.setLaunch_boot : (s.setLaunch n l).boot = s.boot := rfl
@[simp] theorem State.setLaunch_gangAt : (s.setLaunch n l).gang? m = s.gang? m := rfl
@[simp] theorem State.setLaunch_blockAt : (s.setLaunch n l).block? m = s.block? m := rfl
theorem State.launch_setLaunch : (s.setLaunch n l).launch? m = if m = n then some l else s.launch? m := by
  simp [State.launch?, State.setLaunch, FMap.get_put]
@[simp] theorem State.setLaunch_core : (s.setLaunch n l).core m = s.core m := rfl
@[simp] theorem State.setLaunch_ifaceAt : (s.setLaunch n l).iface? m = s.iface? m := rfl
@[simp] theorem State.setLaunch_queueAt : (s.setLaunch n l).queue? m = s.queue? m := rfl
@[simp] theorem State.setLaunch_port : (s.setLaunch n l).port m = s.port m := rfl

/-! ### `setCore` -/

@[simp] theorem State.setCore_clk : (s.setCore n c).clk = s.clk := rfl
@[simp] theorem State.setCore_clk0 : (s.setCore n c).clk0 = s.clk0 := rfl
@[simp] theorem State.setCore_time : (s.setCore n c).time = s.time := rfl
@[simp] theorem State.setCore_timeRem : (s.setCore n c).timeRem = s.timeRem := rfl
@[simp] theorem State.setCore_slew : (s.setCore n c).slew = s.slew := rfl
@[simp] theorem State.setCore_slewRem : (s.setCore n c).slewRem = s.slewRem := rfl
@[simp] theorem State.setCore_offset : (s.setCore n c).offset = s.offset := rfl
@[simp] theorem State.setCore_syncs : (s.setCore n c).syncs = s.syncs := rfl
@[simp] theorem State.setCore_turns : (s.setCore n c).turns = s.turns := rfl
@[simp] theorem State.setCore_prompt : (s.setCore n c).prompt = s.prompt := rfl
@[simp] theorem State.setCore_late : (s.setCore n c).late = s.late := rfl
@[simp] theorem State.setCore_gang : (s.setCore n c).gang = s.gang := rfl
@[simp] theorem State.setCore_slice : (s.setCore n c).slice = s.slice := rfl
@[simp] theorem State.setCore_subject : (s.setCore n c).subject = s.subject := rfl
@[simp] theorem State.setCore_gangs : (s.setCore n c).gangs = s.gangs := rfl
@[simp] theorem State.setCore_blocks : (s.setCore n c).blocks = s.blocks := rfl
@[simp] theorem State.setCore_launches : (s.setCore n c).launches = s.launches := rfl
@[simp] theorem State.setCore_trees : (s.setCore n c).trees = s.trees := rfl
@[simp] theorem State.setCore_groups : (s.setCore n c).groups = s.groups := rfl
@[simp] theorem State.setCore_nextGang : (s.setCore n c).nextGang = s.nextGang := rfl
@[simp] theorem State.setCore_nextBlock : (s.setCore n c).nextBlock = s.nextBlock := rfl
@[simp] theorem State.setCore_nextLaunch : (s.setCore n c).nextLaunch = s.nextLaunch := rfl
@[simp] theorem State.setCore_nextOp : (s.setCore n c).nextOp = s.nextOp := rfl
@[simp] theorem State.setCore_mem : (s.setCore n c).mem = s.mem := rfl
@[simp] theorem State.setCore_sp : (s.setCore n c).sp = s.sp := rfl
@[simp] theorem State.setCore_ring : (s.setCore n c).ring = s.ring := rfl
@[simp] theorem State.setCore_dirty : (s.setCore n c).dirty = s.dirty := rfl
@[simp] theorem State.setCore_poison : (s.setCore n c).poison = s.poison := rfl
@[simp] theorem State.setCore_l1 : (s.setCore n c).l1 = s.l1 := rfl
@[simp] theorem State.setCore_path : (s.setCore n c).path = s.path := rfl
@[simp] theorem State.setCore_tlb : (s.setCore n c).tlb = s.tlb := rfl
@[simp] theorem State.setCore_walker : (s.setCore n c).walker = s.walker := rfl
@[simp] theorem State.setCore_posted : (s.setCore n c).posted = s.posted := rfl
@[simp] theorem State.setCore_icache : (s.setCore n c).icache = s.icache := rfl
@[simp] theorem State.setCore_ringOwn : (s.setCore n c).ringOwn = s.ringOwn := rfl
@[simp] theorem State.setCore_clusters : (s.setCore n c).clusters = s.clusters := rfl
@[simp] theorem State.setCore_sguard : (s.setCore n c).sguard = s.sguard := rfl
@[simp] theorem State.setCore_dirtyBase : (s.setCore n c).dirtyBase = s.dirtyBase := rfl
@[simp] theorem State.setCore_eccce : (s.setCore n c).eccce = s.eccce := rfl
@[simp] theorem State.setCore_eccue : (s.setCore n c).eccue = s.eccue := rfl
@[simp] theorem State.setCore_base : (s.setCore n c).base = s.base := rfl
@[simp] theorem State.setCore_slotSt : (s.setCore n c).slotSt = s.slotSt := rfl
@[simp] theorem State.setCore_chains : (s.setCore n c).chains = s.chains := rfl
@[simp] theorem State.setCore_nextChain : (s.setCore n c).nextChain = s.nextChain := rfl
@[simp] theorem State.setCore_owed : (s.setCore n c).owed = s.owed := rfl
@[simp] theorem State.setCore_rateLast : (s.setCore n c).rateLast = s.rateLast := rfl
@[simp] theorem State.setCore_stores : (s.setCore n c).stores = s.stores := rfl
@[simp] theorem State.setCore_active : (s.setCore n c).active = s.active := rfl
@[simp] theorem State.setCore_mlwr : (s.setCore n c).mlwr = s.mlwr := rfl
@[simp] theorem State.setCore_mlq : (s.setCore n c).mlq = s.mlq := rfl
@[simp] theorem State.setCore_bins : (s.setCore n c).bins = s.bins := rfl
@[simp] theorem State.setCore_ifaces : (s.setCore n c).ifaces = s.ifaces := rfl
@[simp] theorem State.setCore_queues : (s.setCore n c).queues = s.queues := rfl
@[simp] theorem State.setCore_feq : (s.setCore n c).feq = s.feq := rfl
@[simp] theorem State.setCore_notices : (s.setCore n c).notices = s.notices := rfl
@[simp] theorem State.setCore_parks : (s.setCore n c).parks = s.parks := rfl
@[simp] theorem State.setCore_migs : (s.setCore n c).migs = s.migs := rfl
@[simp] theorem State.setCore_outs : (s.setCore n c).outs = s.outs := rfl
@[simp] theorem State.setCore_remote : (s.setCore n c).remote = s.remote := rfl
@[simp] theorem State.setCore_ml : (s.setCore n c).ml = s.ml := rfl
@[simp] theorem State.setCore_callot : (s.setCore n c).callot = s.callot := rfl
@[simp] theorem State.setCore_domains : (s.setCore n c).domains = s.domains := rfl
@[simp] theorem State.setCore_offLast : (s.setCore n c).offLast = s.offLast := rfl
@[simp] theorem State.setCore_cryo : (s.setCore n c).cryo = s.cryo := rfl
@[simp] theorem State.setCore_service : (s.setCore n c).service = s.service := rfl
@[simp] theorem State.setCore_sensors : (s.setCore n c).sensors = s.sensors := rfl
@[simp] theorem State.setCore_tband : (s.setCore n c).tband = s.tband := rfl
@[simp] theorem State.setCore_coolNs : (s.setCore n c).coolNs = s.coolNs := rfl
@[simp] theorem State.setCore_hotSaved : (s.setCore n c).hotSaved = s.hotSaved := rfl
@[simp] theorem State.setCore_refresh : (s.setCore n c).refresh = s.refresh := rfl
@[simp] theorem State.setCore_derated : (s.setCore n c).derated = s.derated := rfl
@[simp] theorem State.setCore_warmCmd : (s.setCore n c).warmCmd = s.warmCmd := rfl
@[simp] theorem State.setCore_warmDone : (s.setCore n c).warmDone = s.warmDone := rfl
@[simp] theorem State.setCore_ports : (s.setCore n c).ports = s.ports := rfl
@[simp] theorem State.setCore_lock : (s.setCore n c).lock = s.lock := rfl
@[simp] theorem State.setCore_boot : (s.setCore n c).boot = s.boot := rfl
@[simp] theorem State.setCore_gangAt : (s.setCore n c).gang? m = s.gang? m := rfl
@[simp] theorem State.setCore_blockAt : (s.setCore n c).block? m = s.block? m := rfl
@[simp] theorem State.setCore_launchAt : (s.setCore n c).launch? m = s.launch? m := rfl
theorem State.core_setCore : (s.setCore n c).core m = if m = n then c else s.core m := by
  simp [State.core, State.setCore, FMap.get_put]
@[simp] theorem State.setCore_ifaceAt : (s.setCore n c).iface? m = s.iface? m := rfl
@[simp] theorem State.setCore_queueAt : (s.setCore n c).queue? m = s.queue? m := rfl
@[simp] theorem State.setCore_port : (s.setCore n c).port m = s.port m := rfl

/-! ### `setIface` -/

@[simp] theorem State.setIface_clk : (s.setIface n i).clk = s.clk := rfl
@[simp] theorem State.setIface_clk0 : (s.setIface n i).clk0 = s.clk0 := rfl
@[simp] theorem State.setIface_time : (s.setIface n i).time = s.time := rfl
@[simp] theorem State.setIface_timeRem : (s.setIface n i).timeRem = s.timeRem := rfl
@[simp] theorem State.setIface_slew : (s.setIface n i).slew = s.slew := rfl
@[simp] theorem State.setIface_slewRem : (s.setIface n i).slewRem = s.slewRem := rfl
@[simp] theorem State.setIface_offset : (s.setIface n i).offset = s.offset := rfl
@[simp] theorem State.setIface_syncs : (s.setIface n i).syncs = s.syncs := rfl
@[simp] theorem State.setIface_turns : (s.setIface n i).turns = s.turns := rfl
@[simp] theorem State.setIface_prompt : (s.setIface n i).prompt = s.prompt := rfl
@[simp] theorem State.setIface_late : (s.setIface n i).late = s.late := rfl
@[simp] theorem State.setIface_gang : (s.setIface n i).gang = s.gang := rfl
@[simp] theorem State.setIface_slice : (s.setIface n i).slice = s.slice := rfl
@[simp] theorem State.setIface_subject : (s.setIface n i).subject = s.subject := rfl
@[simp] theorem State.setIface_gangs : (s.setIface n i).gangs = s.gangs := rfl
@[simp] theorem State.setIface_blocks : (s.setIface n i).blocks = s.blocks := rfl
@[simp] theorem State.setIface_launches : (s.setIface n i).launches = s.launches := rfl
@[simp] theorem State.setIface_trees : (s.setIface n i).trees = s.trees := rfl
@[simp] theorem State.setIface_groups : (s.setIface n i).groups = s.groups := rfl
@[simp] theorem State.setIface_nextGang : (s.setIface n i).nextGang = s.nextGang := rfl
@[simp] theorem State.setIface_nextBlock : (s.setIface n i).nextBlock = s.nextBlock := rfl
@[simp] theorem State.setIface_nextLaunch : (s.setIface n i).nextLaunch = s.nextLaunch := rfl
@[simp] theorem State.setIface_nextOp : (s.setIface n i).nextOp = s.nextOp := rfl
@[simp] theorem State.setIface_mem : (s.setIface n i).mem = s.mem := rfl
@[simp] theorem State.setIface_sp : (s.setIface n i).sp = s.sp := rfl
@[simp] theorem State.setIface_ring : (s.setIface n i).ring = s.ring := rfl
@[simp] theorem State.setIface_dirty : (s.setIface n i).dirty = s.dirty := rfl
@[simp] theorem State.setIface_poison : (s.setIface n i).poison = s.poison := rfl
@[simp] theorem State.setIface_l1 : (s.setIface n i).l1 = s.l1 := rfl
@[simp] theorem State.setIface_path : (s.setIface n i).path = s.path := rfl
@[simp] theorem State.setIface_tlb : (s.setIface n i).tlb = s.tlb := rfl
@[simp] theorem State.setIface_walker : (s.setIface n i).walker = s.walker := rfl
@[simp] theorem State.setIface_posted : (s.setIface n i).posted = s.posted := rfl
@[simp] theorem State.setIface_icache : (s.setIface n i).icache = s.icache := rfl
@[simp] theorem State.setIface_ringOwn : (s.setIface n i).ringOwn = s.ringOwn := rfl
@[simp] theorem State.setIface_cores : (s.setIface n i).cores = s.cores := rfl
@[simp] theorem State.setIface_clusters : (s.setIface n i).clusters = s.clusters := rfl
@[simp] theorem State.setIface_sguard : (s.setIface n i).sguard = s.sguard := rfl
@[simp] theorem State.setIface_dirtyBase : (s.setIface n i).dirtyBase = s.dirtyBase := rfl
@[simp] theorem State.setIface_eccce : (s.setIface n i).eccce = s.eccce := rfl
@[simp] theorem State.setIface_eccue : (s.setIface n i).eccue = s.eccue := rfl
@[simp] theorem State.setIface_base : (s.setIface n i).base = s.base := rfl
@[simp] theorem State.setIface_slotSt : (s.setIface n i).slotSt = s.slotSt := rfl
@[simp] theorem State.setIface_chains : (s.setIface n i).chains = s.chains := rfl
@[simp] theorem State.setIface_nextChain : (s.setIface n i).nextChain = s.nextChain := rfl
@[simp] theorem State.setIface_owed : (s.setIface n i).owed = s.owed := rfl
@[simp] theorem State.setIface_rateLast : (s.setIface n i).rateLast = s.rateLast := rfl
@[simp] theorem State.setIface_stores : (s.setIface n i).stores = s.stores := rfl
@[simp] theorem State.setIface_active : (s.setIface n i).active = s.active := rfl
@[simp] theorem State.setIface_mlwr : (s.setIface n i).mlwr = s.mlwr := rfl
@[simp] theorem State.setIface_mlq : (s.setIface n i).mlq = s.mlq := rfl
@[simp] theorem State.setIface_bins : (s.setIface n i).bins = s.bins := rfl
@[simp] theorem State.setIface_queues : (s.setIface n i).queues = s.queues := rfl
@[simp] theorem State.setIface_feq : (s.setIface n i).feq = s.feq := rfl
@[simp] theorem State.setIface_notices : (s.setIface n i).notices = s.notices := rfl
@[simp] theorem State.setIface_parks : (s.setIface n i).parks = s.parks := rfl
@[simp] theorem State.setIface_migs : (s.setIface n i).migs = s.migs := rfl
@[simp] theorem State.setIface_outs : (s.setIface n i).outs = s.outs := rfl
@[simp] theorem State.setIface_remote : (s.setIface n i).remote = s.remote := rfl
@[simp] theorem State.setIface_ml : (s.setIface n i).ml = s.ml := rfl
@[simp] theorem State.setIface_callot : (s.setIface n i).callot = s.callot := rfl
@[simp] theorem State.setIface_domains : (s.setIface n i).domains = s.domains := rfl
@[simp] theorem State.setIface_offLast : (s.setIface n i).offLast = s.offLast := rfl
@[simp] theorem State.setIface_cryo : (s.setIface n i).cryo = s.cryo := rfl
@[simp] theorem State.setIface_service : (s.setIface n i).service = s.service := rfl
@[simp] theorem State.setIface_sensors : (s.setIface n i).sensors = s.sensors := rfl
@[simp] theorem State.setIface_tband : (s.setIface n i).tband = s.tband := rfl
@[simp] theorem State.setIface_coolNs : (s.setIface n i).coolNs = s.coolNs := rfl
@[simp] theorem State.setIface_hotSaved : (s.setIface n i).hotSaved = s.hotSaved := rfl
@[simp] theorem State.setIface_refresh : (s.setIface n i).refresh = s.refresh := rfl
@[simp] theorem State.setIface_derated : (s.setIface n i).derated = s.derated := rfl
@[simp] theorem State.setIface_warmCmd : (s.setIface n i).warmCmd = s.warmCmd := rfl
@[simp] theorem State.setIface_warmDone : (s.setIface n i).warmDone = s.warmDone := rfl
@[simp] theorem State.setIface_ports : (s.setIface n i).ports = s.ports := rfl
@[simp] theorem State.setIface_lock : (s.setIface n i).lock = s.lock := rfl
@[simp] theorem State.setIface_boot : (s.setIface n i).boot = s.boot := rfl
@[simp] theorem State.setIface_gangAt : (s.setIface n i).gang? m = s.gang? m := rfl
@[simp] theorem State.setIface_blockAt : (s.setIface n i).block? m = s.block? m := rfl
@[simp] theorem State.setIface_launchAt : (s.setIface n i).launch? m = s.launch? m := rfl
@[simp] theorem State.setIface_core : (s.setIface n i).core m = s.core m := rfl
theorem State.iface_setIface : (s.setIface n i).iface? m = if m = n then some i else s.iface? m := by
  simp [State.iface?, State.setIface, FMap.get_put]
@[simp] theorem State.setIface_queueAt : (s.setIface n i).queue? m = s.queue? m := rfl
@[simp] theorem State.setIface_port : (s.setIface n i).port m = s.port m := rfl

/-! ### `setQueue` -/

@[simp] theorem State.setQueue_clk : (s.setQueue n q).clk = s.clk := rfl
@[simp] theorem State.setQueue_clk0 : (s.setQueue n q).clk0 = s.clk0 := rfl
@[simp] theorem State.setQueue_time : (s.setQueue n q).time = s.time := rfl
@[simp] theorem State.setQueue_timeRem : (s.setQueue n q).timeRem = s.timeRem := rfl
@[simp] theorem State.setQueue_slew : (s.setQueue n q).slew = s.slew := rfl
@[simp] theorem State.setQueue_slewRem : (s.setQueue n q).slewRem = s.slewRem := rfl
@[simp] theorem State.setQueue_offset : (s.setQueue n q).offset = s.offset := rfl
@[simp] theorem State.setQueue_syncs : (s.setQueue n q).syncs = s.syncs := rfl
@[simp] theorem State.setQueue_turns : (s.setQueue n q).turns = s.turns := rfl
@[simp] theorem State.setQueue_prompt : (s.setQueue n q).prompt = s.prompt := rfl
@[simp] theorem State.setQueue_late : (s.setQueue n q).late = s.late := rfl
@[simp] theorem State.setQueue_gang : (s.setQueue n q).gang = s.gang := rfl
@[simp] theorem State.setQueue_slice : (s.setQueue n q).slice = s.slice := rfl
@[simp] theorem State.setQueue_subject : (s.setQueue n q).subject = s.subject := rfl
@[simp] theorem State.setQueue_gangs : (s.setQueue n q).gangs = s.gangs := rfl
@[simp] theorem State.setQueue_blocks : (s.setQueue n q).blocks = s.blocks := rfl
@[simp] theorem State.setQueue_launches : (s.setQueue n q).launches = s.launches := rfl
@[simp] theorem State.setQueue_trees : (s.setQueue n q).trees = s.trees := rfl
@[simp] theorem State.setQueue_groups : (s.setQueue n q).groups = s.groups := rfl
@[simp] theorem State.setQueue_nextGang : (s.setQueue n q).nextGang = s.nextGang := rfl
@[simp] theorem State.setQueue_nextBlock : (s.setQueue n q).nextBlock = s.nextBlock := rfl
@[simp] theorem State.setQueue_nextLaunch : (s.setQueue n q).nextLaunch = s.nextLaunch := rfl
@[simp] theorem State.setQueue_nextOp : (s.setQueue n q).nextOp = s.nextOp := rfl
@[simp] theorem State.setQueue_mem : (s.setQueue n q).mem = s.mem := rfl
@[simp] theorem State.setQueue_sp : (s.setQueue n q).sp = s.sp := rfl
@[simp] theorem State.setQueue_ring : (s.setQueue n q).ring = s.ring := rfl
@[simp] theorem State.setQueue_dirty : (s.setQueue n q).dirty = s.dirty := rfl
@[simp] theorem State.setQueue_poison : (s.setQueue n q).poison = s.poison := rfl
@[simp] theorem State.setQueue_l1 : (s.setQueue n q).l1 = s.l1 := rfl
@[simp] theorem State.setQueue_path : (s.setQueue n q).path = s.path := rfl
@[simp] theorem State.setQueue_tlb : (s.setQueue n q).tlb = s.tlb := rfl
@[simp] theorem State.setQueue_walker : (s.setQueue n q).walker = s.walker := rfl
@[simp] theorem State.setQueue_posted : (s.setQueue n q).posted = s.posted := rfl
@[simp] theorem State.setQueue_icache : (s.setQueue n q).icache = s.icache := rfl
@[simp] theorem State.setQueue_ringOwn : (s.setQueue n q).ringOwn = s.ringOwn := rfl
@[simp] theorem State.setQueue_cores : (s.setQueue n q).cores = s.cores := rfl
@[simp] theorem State.setQueue_clusters : (s.setQueue n q).clusters = s.clusters := rfl
@[simp] theorem State.setQueue_sguard : (s.setQueue n q).sguard = s.sguard := rfl
@[simp] theorem State.setQueue_dirtyBase : (s.setQueue n q).dirtyBase = s.dirtyBase := rfl
@[simp] theorem State.setQueue_eccce : (s.setQueue n q).eccce = s.eccce := rfl
@[simp] theorem State.setQueue_eccue : (s.setQueue n q).eccue = s.eccue := rfl
@[simp] theorem State.setQueue_base : (s.setQueue n q).base = s.base := rfl
@[simp] theorem State.setQueue_slotSt : (s.setQueue n q).slotSt = s.slotSt := rfl
@[simp] theorem State.setQueue_chains : (s.setQueue n q).chains = s.chains := rfl
@[simp] theorem State.setQueue_nextChain : (s.setQueue n q).nextChain = s.nextChain := rfl
@[simp] theorem State.setQueue_owed : (s.setQueue n q).owed = s.owed := rfl
@[simp] theorem State.setQueue_rateLast : (s.setQueue n q).rateLast = s.rateLast := rfl
@[simp] theorem State.setQueue_stores : (s.setQueue n q).stores = s.stores := rfl
@[simp] theorem State.setQueue_active : (s.setQueue n q).active = s.active := rfl
@[simp] theorem State.setQueue_mlwr : (s.setQueue n q).mlwr = s.mlwr := rfl
@[simp] theorem State.setQueue_mlq : (s.setQueue n q).mlq = s.mlq := rfl
@[simp] theorem State.setQueue_bins : (s.setQueue n q).bins = s.bins := rfl
@[simp] theorem State.setQueue_ifaces : (s.setQueue n q).ifaces = s.ifaces := rfl
@[simp] theorem State.setQueue_feq : (s.setQueue n q).feq = s.feq := rfl
@[simp] theorem State.setQueue_notices : (s.setQueue n q).notices = s.notices := rfl
@[simp] theorem State.setQueue_parks : (s.setQueue n q).parks = s.parks := rfl
@[simp] theorem State.setQueue_migs : (s.setQueue n q).migs = s.migs := rfl
@[simp] theorem State.setQueue_outs : (s.setQueue n q).outs = s.outs := rfl
@[simp] theorem State.setQueue_remote : (s.setQueue n q).remote = s.remote := rfl
@[simp] theorem State.setQueue_ml : (s.setQueue n q).ml = s.ml := rfl
@[simp] theorem State.setQueue_callot : (s.setQueue n q).callot = s.callot := rfl
@[simp] theorem State.setQueue_domains : (s.setQueue n q).domains = s.domains := rfl
@[simp] theorem State.setQueue_offLast : (s.setQueue n q).offLast = s.offLast := rfl
@[simp] theorem State.setQueue_cryo : (s.setQueue n q).cryo = s.cryo := rfl
@[simp] theorem State.setQueue_service : (s.setQueue n q).service = s.service := rfl
@[simp] theorem State.setQueue_sensors : (s.setQueue n q).sensors = s.sensors := rfl
@[simp] theorem State.setQueue_tband : (s.setQueue n q).tband = s.tband := rfl
@[simp] theorem State.setQueue_coolNs : (s.setQueue n q).coolNs = s.coolNs := rfl
@[simp] theorem State.setQueue_hotSaved : (s.setQueue n q).hotSaved = s.hotSaved := rfl
@[simp] theorem State.setQueue_refresh : (s.setQueue n q).refresh = s.refresh := rfl
@[simp] theorem State.setQueue_derated : (s.setQueue n q).derated = s.derated := rfl
@[simp] theorem State.setQueue_warmCmd : (s.setQueue n q).warmCmd = s.warmCmd := rfl
@[simp] theorem State.setQueue_warmDone : (s.setQueue n q).warmDone = s.warmDone := rfl
@[simp] theorem State.setQueue_ports : (s.setQueue n q).ports = s.ports := rfl
@[simp] theorem State.setQueue_lock : (s.setQueue n q).lock = s.lock := rfl
@[simp] theorem State.setQueue_boot : (s.setQueue n q).boot = s.boot := rfl
@[simp] theorem State.setQueue_gangAt : (s.setQueue n q).gang? m = s.gang? m := rfl
@[simp] theorem State.setQueue_blockAt : (s.setQueue n q).block? m = s.block? m := rfl
@[simp] theorem State.setQueue_launchAt : (s.setQueue n q).launch? m = s.launch? m := rfl
@[simp] theorem State.setQueue_core : (s.setQueue n q).core m = s.core m := rfl
@[simp] theorem State.setQueue_ifaceAt : (s.setQueue n q).iface? m = s.iface? m := rfl
theorem State.queue_setQueue : (s.setQueue n q).queue? m = if m = n then some q else s.queue? m := by
  simp [State.queue?, State.setQueue, FMap.get_put]
@[simp] theorem State.setQueue_port : (s.setQueue n q).port m = s.port m := rfl

/-! ### `setPort` -/

@[simp] theorem State.setPort_clk : (s.setPort n p).clk = s.clk := rfl
@[simp] theorem State.setPort_clk0 : (s.setPort n p).clk0 = s.clk0 := rfl
@[simp] theorem State.setPort_time : (s.setPort n p).time = s.time := rfl
@[simp] theorem State.setPort_timeRem : (s.setPort n p).timeRem = s.timeRem := rfl
@[simp] theorem State.setPort_slew : (s.setPort n p).slew = s.slew := rfl
@[simp] theorem State.setPort_slewRem : (s.setPort n p).slewRem = s.slewRem := rfl
@[simp] theorem State.setPort_offset : (s.setPort n p).offset = s.offset := rfl
@[simp] theorem State.setPort_syncs : (s.setPort n p).syncs = s.syncs := rfl
@[simp] theorem State.setPort_turns : (s.setPort n p).turns = s.turns := rfl
@[simp] theorem State.setPort_prompt : (s.setPort n p).prompt = s.prompt := rfl
@[simp] theorem State.setPort_late : (s.setPort n p).late = s.late := rfl
@[simp] theorem State.setPort_gang : (s.setPort n p).gang = s.gang := rfl
@[simp] theorem State.setPort_slice : (s.setPort n p).slice = s.slice := rfl
@[simp] theorem State.setPort_subject : (s.setPort n p).subject = s.subject := rfl
@[simp] theorem State.setPort_gangs : (s.setPort n p).gangs = s.gangs := rfl
@[simp] theorem State.setPort_blocks : (s.setPort n p).blocks = s.blocks := rfl
@[simp] theorem State.setPort_launches : (s.setPort n p).launches = s.launches := rfl
@[simp] theorem State.setPort_trees : (s.setPort n p).trees = s.trees := rfl
@[simp] theorem State.setPort_groups : (s.setPort n p).groups = s.groups := rfl
@[simp] theorem State.setPort_nextGang : (s.setPort n p).nextGang = s.nextGang := rfl
@[simp] theorem State.setPort_nextBlock : (s.setPort n p).nextBlock = s.nextBlock := rfl
@[simp] theorem State.setPort_nextLaunch : (s.setPort n p).nextLaunch = s.nextLaunch := rfl
@[simp] theorem State.setPort_nextOp : (s.setPort n p).nextOp = s.nextOp := rfl
@[simp] theorem State.setPort_mem : (s.setPort n p).mem = s.mem := rfl
@[simp] theorem State.setPort_sp : (s.setPort n p).sp = s.sp := rfl
@[simp] theorem State.setPort_ring : (s.setPort n p).ring = s.ring := rfl
@[simp] theorem State.setPort_dirty : (s.setPort n p).dirty = s.dirty := rfl
@[simp] theorem State.setPort_poison : (s.setPort n p).poison = s.poison := rfl
@[simp] theorem State.setPort_l1 : (s.setPort n p).l1 = s.l1 := rfl
@[simp] theorem State.setPort_path : (s.setPort n p).path = s.path := rfl
@[simp] theorem State.setPort_tlb : (s.setPort n p).tlb = s.tlb := rfl
@[simp] theorem State.setPort_walker : (s.setPort n p).walker = s.walker := rfl
@[simp] theorem State.setPort_posted : (s.setPort n p).posted = s.posted := rfl
@[simp] theorem State.setPort_icache : (s.setPort n p).icache = s.icache := rfl
@[simp] theorem State.setPort_ringOwn : (s.setPort n p).ringOwn = s.ringOwn := rfl
@[simp] theorem State.setPort_cores : (s.setPort n p).cores = s.cores := rfl
@[simp] theorem State.setPort_clusters : (s.setPort n p).clusters = s.clusters := rfl
@[simp] theorem State.setPort_sguard : (s.setPort n p).sguard = s.sguard := rfl
@[simp] theorem State.setPort_dirtyBase : (s.setPort n p).dirtyBase = s.dirtyBase := rfl
@[simp] theorem State.setPort_eccce : (s.setPort n p).eccce = s.eccce := rfl
@[simp] theorem State.setPort_eccue : (s.setPort n p).eccue = s.eccue := rfl
@[simp] theorem State.setPort_base : (s.setPort n p).base = s.base := rfl
@[simp] theorem State.setPort_slotSt : (s.setPort n p).slotSt = s.slotSt := rfl
@[simp] theorem State.setPort_chains : (s.setPort n p).chains = s.chains := rfl
@[simp] theorem State.setPort_nextChain : (s.setPort n p).nextChain = s.nextChain := rfl
@[simp] theorem State.setPort_owed : (s.setPort n p).owed = s.owed := rfl
@[simp] theorem State.setPort_rateLast : (s.setPort n p).rateLast = s.rateLast := rfl
@[simp] theorem State.setPort_stores : (s.setPort n p).stores = s.stores := rfl
@[simp] theorem State.setPort_active : (s.setPort n p).active = s.active := rfl
@[simp] theorem State.setPort_mlwr : (s.setPort n p).mlwr = s.mlwr := rfl
@[simp] theorem State.setPort_mlq : (s.setPort n p).mlq = s.mlq := rfl
@[simp] theorem State.setPort_bins : (s.setPort n p).bins = s.bins := rfl
@[simp] theorem State.setPort_ifaces : (s.setPort n p).ifaces = s.ifaces := rfl
@[simp] theorem State.setPort_queues : (s.setPort n p).queues = s.queues := rfl
@[simp] theorem State.setPort_feq : (s.setPort n p).feq = s.feq := rfl
@[simp] theorem State.setPort_notices : (s.setPort n p).notices = s.notices := rfl
@[simp] theorem State.setPort_parks : (s.setPort n p).parks = s.parks := rfl
@[simp] theorem State.setPort_migs : (s.setPort n p).migs = s.migs := rfl
@[simp] theorem State.setPort_outs : (s.setPort n p).outs = s.outs := rfl
@[simp] theorem State.setPort_remote : (s.setPort n p).remote = s.remote := rfl
@[simp] theorem State.setPort_ml : (s.setPort n p).ml = s.ml := rfl
@[simp] theorem State.setPort_callot : (s.setPort n p).callot = s.callot := rfl
@[simp] theorem State.setPort_domains : (s.setPort n p).domains = s.domains := rfl
@[simp] theorem State.setPort_offLast : (s.setPort n p).offLast = s.offLast := rfl
@[simp] theorem State.setPort_cryo : (s.setPort n p).cryo = s.cryo := rfl
@[simp] theorem State.setPort_service : (s.setPort n p).service = s.service := rfl
@[simp] theorem State.setPort_sensors : (s.setPort n p).sensors = s.sensors := rfl
@[simp] theorem State.setPort_tband : (s.setPort n p).tband = s.tband := rfl
@[simp] theorem State.setPort_coolNs : (s.setPort n p).coolNs = s.coolNs := rfl
@[simp] theorem State.setPort_hotSaved : (s.setPort n p).hotSaved = s.hotSaved := rfl
@[simp] theorem State.setPort_refresh : (s.setPort n p).refresh = s.refresh := rfl
@[simp] theorem State.setPort_derated : (s.setPort n p).derated = s.derated := rfl
@[simp] theorem State.setPort_warmCmd : (s.setPort n p).warmCmd = s.warmCmd := rfl
@[simp] theorem State.setPort_warmDone : (s.setPort n p).warmDone = s.warmDone := rfl
@[simp] theorem State.setPort_lock : (s.setPort n p).lock = s.lock := rfl
@[simp] theorem State.setPort_boot : (s.setPort n p).boot = s.boot := rfl
@[simp] theorem State.setPort_gangAt : (s.setPort n p).gang? m = s.gang? m := rfl
@[simp] theorem State.setPort_blockAt : (s.setPort n p).block? m = s.block? m := rfl
@[simp] theorem State.setPort_launchAt : (s.setPort n p).launch? m = s.launch? m := rfl
@[simp] theorem State.setPort_core : (s.setPort n p).core m = s.core m := rfl
@[simp] theorem State.setPort_ifaceAt : (s.setPort n p).iface? m = s.iface? m := rfl
@[simp] theorem State.setPort_queueAt : (s.setPort n p).queue? m = s.queue? m := rfl
theorem State.port_setPort : (s.setPort n p).port m = if m = n then p else s.port m := by
  simp [State.port, State.setPort, FMap.get_put]

/-! ### `naming` -/

@[simp] theorem State.naming_clk (a b c : Nat) : (s.naming a b c).clk = s.clk := rfl
@[simp] theorem State.naming_clk0 (a b c : Nat) : (s.naming a b c).clk0 = s.clk0 := rfl
@[simp] theorem State.naming_time (a b c : Nat) : (s.naming a b c).time = s.time := rfl
@[simp] theorem State.naming_timeRem (a b c : Nat) : (s.naming a b c).timeRem = s.timeRem := rfl
@[simp] theorem State.naming_slew (a b c : Nat) : (s.naming a b c).slew = s.slew := rfl
@[simp] theorem State.naming_slewRem (a b c : Nat) : (s.naming a b c).slewRem = s.slewRem := rfl
@[simp] theorem State.naming_offset (a b c : Nat) : (s.naming a b c).offset = s.offset := rfl
@[simp] theorem State.naming_syncs (a b c : Nat) : (s.naming a b c).syncs = s.syncs := rfl
@[simp] theorem State.naming_turns (a b c : Nat) : (s.naming a b c).turns = s.turns := rfl
@[simp] theorem State.naming_prompt (a b c : Nat) : (s.naming a b c).prompt = s.prompt := rfl
@[simp] theorem State.naming_late (a b c : Nat) : (s.naming a b c).late = s.late := rfl
@[simp] theorem State.naming_gangs (a b c : Nat) : (s.naming a b c).gangs = s.gangs := rfl
@[simp] theorem State.naming_blocks (a b c : Nat) : (s.naming a b c).blocks = s.blocks := rfl
@[simp] theorem State.naming_launches (a b c : Nat) : (s.naming a b c).launches = s.launches := rfl
@[simp] theorem State.naming_trees (a b c : Nat) : (s.naming a b c).trees = s.trees := rfl
@[simp] theorem State.naming_groups (a b c : Nat) : (s.naming a b c).groups = s.groups := rfl
@[simp] theorem State.naming_nextGang (a b c : Nat) : (s.naming a b c).nextGang = s.nextGang := rfl
@[simp] theorem State.naming_nextBlock (a b c : Nat) : (s.naming a b c).nextBlock = s.nextBlock := rfl
@[simp] theorem State.naming_nextLaunch (a b c : Nat) : (s.naming a b c).nextLaunch = s.nextLaunch := rfl
@[simp] theorem State.naming_nextOp (a b c : Nat) : (s.naming a b c).nextOp = s.nextOp := rfl
@[simp] theorem State.naming_mem (a b c : Nat) : (s.naming a b c).mem = s.mem := rfl
@[simp] theorem State.naming_sp (a b c : Nat) : (s.naming a b c).sp = s.sp := rfl
@[simp] theorem State.naming_ring (a b c : Nat) : (s.naming a b c).ring = s.ring := rfl
@[simp] theorem State.naming_dirty (a b c : Nat) : (s.naming a b c).dirty = s.dirty := rfl
@[simp] theorem State.naming_poison (a b c : Nat) : (s.naming a b c).poison = s.poison := rfl
@[simp] theorem State.naming_l1 (a b c : Nat) : (s.naming a b c).l1 = s.l1 := rfl
@[simp] theorem State.naming_path (a b c : Nat) : (s.naming a b c).path = s.path := rfl
@[simp] theorem State.naming_tlb (a b c : Nat) : (s.naming a b c).tlb = s.tlb := rfl
@[simp] theorem State.naming_walker (a b c : Nat) : (s.naming a b c).walker = s.walker := rfl
@[simp] theorem State.naming_posted (a b c : Nat) : (s.naming a b c).posted = s.posted := rfl
@[simp] theorem State.naming_icache (a b c : Nat) : (s.naming a b c).icache = s.icache := rfl
@[simp] theorem State.naming_ringOwn (a b c : Nat) : (s.naming a b c).ringOwn = s.ringOwn := rfl
@[simp] theorem State.naming_cores (a b c : Nat) : (s.naming a b c).cores = s.cores := rfl
@[simp] theorem State.naming_clusters (a b c : Nat) : (s.naming a b c).clusters = s.clusters := rfl
@[simp] theorem State.naming_sguard (a b c : Nat) : (s.naming a b c).sguard = s.sguard := rfl
@[simp] theorem State.naming_dirtyBase (a b c : Nat) : (s.naming a b c).dirtyBase = s.dirtyBase := rfl
@[simp] theorem State.naming_eccce (a b c : Nat) : (s.naming a b c).eccce = s.eccce := rfl
@[simp] theorem State.naming_eccue (a b c : Nat) : (s.naming a b c).eccue = s.eccue := rfl
@[simp] theorem State.naming_base (a b c : Nat) : (s.naming a b c).base = s.base := rfl
@[simp] theorem State.naming_slotSt (a b c : Nat) : (s.naming a b c).slotSt = s.slotSt := rfl
@[simp] theorem State.naming_chains (a b c : Nat) : (s.naming a b c).chains = s.chains := rfl
@[simp] theorem State.naming_nextChain (a b c : Nat) : (s.naming a b c).nextChain = s.nextChain := rfl
@[simp] theorem State.naming_owed (a b c : Nat) : (s.naming a b c).owed = s.owed := rfl
@[simp] theorem State.naming_rateLast (a b c : Nat) : (s.naming a b c).rateLast = s.rateLast := rfl
@[simp] theorem State.naming_stores (a b c : Nat) : (s.naming a b c).stores = s.stores := rfl
@[simp] theorem State.naming_active (a b c : Nat) : (s.naming a b c).active = s.active := rfl
@[simp] theorem State.naming_mlwr (a b c : Nat) : (s.naming a b c).mlwr = s.mlwr := rfl
@[simp] theorem State.naming_mlq (a b c : Nat) : (s.naming a b c).mlq = s.mlq := rfl
@[simp] theorem State.naming_bins (a b c : Nat) : (s.naming a b c).bins = s.bins := rfl
@[simp] theorem State.naming_ifaces (a b c : Nat) : (s.naming a b c).ifaces = s.ifaces := rfl
@[simp] theorem State.naming_queues (a b c : Nat) : (s.naming a b c).queues = s.queues := rfl
@[simp] theorem State.naming_feq (a b c : Nat) : (s.naming a b c).feq = s.feq := rfl
@[simp] theorem State.naming_notices (a b c : Nat) : (s.naming a b c).notices = s.notices := rfl
@[simp] theorem State.naming_parks (a b c : Nat) : (s.naming a b c).parks = s.parks := rfl
@[simp] theorem State.naming_migs (a b c : Nat) : (s.naming a b c).migs = s.migs := rfl
@[simp] theorem State.naming_outs (a b c : Nat) : (s.naming a b c).outs = s.outs := rfl
@[simp] theorem State.naming_remote (a b c : Nat) : (s.naming a b c).remote = s.remote := rfl
@[simp] theorem State.naming_ml (a b c : Nat) : (s.naming a b c).ml = s.ml := rfl
@[simp] theorem State.naming_callot (a b c : Nat) : (s.naming a b c).callot = s.callot := rfl
@[simp] theorem State.naming_domains (a b c : Nat) : (s.naming a b c).domains = s.domains := rfl
@[simp] theorem State.naming_offLast (a b c : Nat) : (s.naming a b c).offLast = s.offLast := rfl
@[simp] theorem State.naming_cryo (a b c : Nat) : (s.naming a b c).cryo = s.cryo := rfl
@[simp] theorem State.naming_service (a b c : Nat) : (s.naming a b c).service = s.service := rfl
@[simp] theorem State.naming_sensors (a b c : Nat) : (s.naming a b c).sensors = s.sensors := rfl
@[simp] theorem State.naming_tband (a b c : Nat) : (s.naming a b c).tband = s.tband := rfl
@[simp] theorem State.naming_coolNs (a b c : Nat) : (s.naming a b c).coolNs = s.coolNs := rfl
@[simp] theorem State.naming_hotSaved (a b c : Nat) : (s.naming a b c).hotSaved = s.hotSaved := rfl
@[simp] theorem State.naming_refresh (a b c : Nat) : (s.naming a b c).refresh = s.refresh := rfl
@[simp] theorem State.naming_derated (a b c : Nat) : (s.naming a b c).derated = s.derated := rfl
@[simp] theorem State.naming_warmCmd (a b c : Nat) : (s.naming a b c).warmCmd = s.warmCmd := rfl
@[simp] theorem State.naming_warmDone (a b c : Nat) : (s.naming a b c).warmDone = s.warmDone := rfl
@[simp] theorem State.naming_ports (a b c : Nat) : (s.naming a b c).ports = s.ports := rfl
@[simp] theorem State.naming_lock (a b c : Nat) : (s.naming a b c).lock = s.lock := rfl
@[simp] theorem State.naming_boot (a b c : Nat) : (s.naming a b c).boot = s.boot := rfl

/-! ### Gangs -/

@[simp] theorem Gang.setCopy_launch (g : Gang) (k : SliceCopy) : (g.setCopy n k).launch = g.launch := rfl
@[simp] theorem Gang.setCopy_block (g : Gang) (k : SliceCopy) : (g.setCopy n k).block = g.block := rfl
@[simp] theorem Gang.setCopy_idx (g : Gang) (k : SliceCopy) : (g.setCopy n k).idx = g.idx := rfl
@[simp] theorem Gang.setCopy_core (g : Gang) (k : SliceCopy) : (g.setCopy n k).core = g.core := rfl
@[simp] theorem Gang.setCopy_part (g : Gang) (k : SliceCopy) : (g.setCopy n k).part = g.part := rfl
@[simp] theorem Gang.setCopy_slot (g : Gang) (k : SliceCopy) : (g.setCopy n k).slot = g.slot := rfl
@[simp] theorem Gang.setCopy_vbase (g : Gang) (k : SliceCopy) : (g.setCopy n k).vbase = g.vbase := rfl
@[simp] theorem Gang.setCopy_abase (g : Gang) (k : SliceCopy) : (g.setCopy n k).abase = g.abase := rfl
@[simp] theorem Gang.setCopy_regs (g : Gang) (k : SliceCopy) : (g.setCopy n k).regs = g.regs := rfl
@[simp] theorem Gang.setCopy_accs (g : Gang) (k : SliceCopy) : (g.setCopy n k).accs = g.accs := rfl
@[simp] theorem Gang.setCopy_width (g : Gang) (k : SliceCopy) : (g.setCopy n k).width = g.width := rfl
@[simp] theorem Gang.setCopy_priv (g : Gang) (k : SliceCopy) : (g.setCopy n k).priv = g.priv := rfl
@[simp] theorem Gang.setCopy_cls (g : Gang) (k : SliceCopy) : (g.setCopy n k).cls = g.cls := rfl
@[simp] theorem Gang.setCopy_asid (g : Gang) (k : SliceCopy) : (g.setCopy n k).asid = g.asid := rfl
@[simp] theorem Gang.setCopy_vi (g : Gang) (k : SliceCopy) : (g.setCopy n k).vi = g.vi := rfl
@[simp] theorem Gang.setCopy_lcbase (g : Gang) (k : SliceCopy) : (g.setCopy n k).lcbase = g.lcbase := rfl
@[simp] theorem Gang.setCopy_lcsize (g : Gang) (k : SliceCopy) : (g.setCopy n k).lcsize = g.lcsize := rfl
@[simp] theorem Gang.setCopy_binbase (g : Gang) (k : SliceCopy) : (g.setCopy n k).binbase = g.binbase := rfl
@[simp] theorem Gang.setCopy_csbase (g : Gang) (k : SliceCopy) : (g.setCopy n k).csbase = g.csbase := rfl
@[simp] theorem Gang.setCopy_v (g : Gang) (k : SliceCopy) : (g.setCopy n k).v = g.v := rfl
@[simp] theorem Gang.setCopy_vtag (g : Gang) (k : SliceCopy) : (g.setCopy n k).vtag = g.vtag := rfl
@[simp] theorem Gang.setCopy_a (g : Gang) (k : SliceCopy) : (g.setCopy n k).a = g.a := rfl
@[simp] theorem Gang.setCopy_atag (g : Gang) (k : SliceCopy) : (g.setCopy n k).atag = g.atag := rfl
@[simp] theorem Gang.setCopy_xm (g : Gang) (k : SliceCopy) : (g.setCopy n k).xm = g.xm := rfl
@[simp] theorem Gang.setCopy_lm (g : Gang) (k : SliceCopy) : (g.setCopy n k).lm = g.lm := rfl
@[simp] theorem Gang.setCopy_hm (g : Gang) (k : SliceCopy) : (g.setCopy n k).hm = g.hm := rfl
@[simp] theorem Gang.setCopy_live (g : Gang) (k : SliceCopy) : (g.setCopy n k).live = g.live := rfl
@[simp] theorem Gang.setCopy_exiting (g : Gang) (k : SliceCopy) : (g.setCopy n k).exiting = g.exiting := rfl
@[simp] theorem Gang.setCopy_frags (g : Gang) (k : SliceCopy) : (g.setCopy n k).frags = g.frags := rfl
@[simp] theorem Gang.setCopy_rng (g : Gang) (k : SliceCopy) : (g.setCopy n k).rng = g.rng := rfl
@[simp] theorem Gang.setCopy_asyncs (g : Gang) (k : SliceCopy) : (g.setCopy n k).asyncs = g.asyncs := rfl
@[simp] theorem Gang.setCopy_clash (g : Gang) (k : SliceCopy) : (g.setCopy n k).clash = g.clash := rfl
@[simp] theorem Gang.setCopy_nextN (g : Gang) (k : SliceCopy) : (g.setCopy n k).nextN = g.nextN := rfl
@[simp] theorem Gang.setCopy_openB (g : Gang) (k : SliceCopy) : (g.setCopy n k).openB = g.openB := rfl
@[simp] theorem Gang.setCopy_batches (g : Gang) (k : SliceCopy) : (g.setCopy n k).batches = g.batches := rfl
@[simp] theorem Gang.setCopy_mq (g : Gang) (k : SliceCopy) : (g.setCopy n k).mq = g.mq := rfl
@[simp] theorem Gang.setCopy_cq (g : Gang) (k : SliceCopy) : (g.setCopy n k).cq = g.cq := rfl
@[simp] theorem Gang.setCopy_rq (g : Gang) (k : SliceCopy) : (g.setCopy n k).rq = g.rq := rfl
@[simp] theorem Gang.setCopy_running (g : Gang) (k : SliceCopy) : (g.setCopy n k).running = g.running := rfl
@[simp] theorem Gang.setCopy_steps (g : Gang) (k : SliceCopy) : (g.setCopy n k).steps = g.steps := rfl
@[simp] theorem Gang.setCopy_latch (g : Gang) (k : SliceCopy) : (g.setCopy n k).latch = g.latch := rfl
@[simp] theorem Gang.setCopy_hist (g : Gang) (k : SliceCopy) : (g.setCopy n k).hist = g.hist := rfl
@[simp] theorem Gang.setCopy_named (g : Gang) (k : SliceCopy) : (g.setCopy n k).named = g.named := rfl
@[simp] theorem Gang.setCopy_mesh (g : Gang) (k : SliceCopy) : (g.setCopy n k).mesh = g.mesh := rfl
@[simp] theorem Gang.setCopy_queries (g : Gang) (k : SliceCopy) : (g.setCopy n k).queries = g.queries := rfl
@[simp] theorem Gang.setCopy_spoilt (g : Gang) (k : SliceCopy) : (g.setCopy n k).spoilt = g.spoilt := rfl
@[simp] theorem Gang.setCopy_desched (g : Gang) (k : SliceCopy) : (g.setCopy n k).desched = g.desched := rfl
@[simp] theorem Gang.setCopy_hwSaved (g : Gang) (k : SliceCopy) : (g.setCopy n k).hwSaved = g.hwSaved := rfl
@[simp] theorem Gang.setCopy_target (g : Gang) (k : SliceCopy) : (g.setCopy n k).target = g.target := rfl
@[simp] theorem Gang.setCopy_saveNow (g : Gang) (k : SliceCopy) : (g.setCopy n k).saveNow = g.saveNow := rfl
@[simp] theorem Gang.setCopy_trNext (g : Gang) (k : SliceCopy) : (g.setCopy n k).trNext = g.trNext := rfl
@[simp] theorem Gang.setCopy_bad (g : Gang) (k : SliceCopy) : (g.setCopy n k).bad = g.bad := rfl
@[simp] theorem Gang.putFrag_launch (g : Gang) : (g.putFrag f).launch = g.launch := rfl
@[simp] theorem Gang.putFrag_block (g : Gang) : (g.putFrag f).block = g.block := rfl
@[simp] theorem Gang.putFrag_idx (g : Gang) : (g.putFrag f).idx = g.idx := rfl
@[simp] theorem Gang.putFrag_core (g : Gang) : (g.putFrag f).core = g.core := rfl
@[simp] theorem Gang.putFrag_part (g : Gang) : (g.putFrag f).part = g.part := rfl
@[simp] theorem Gang.putFrag_slot (g : Gang) : (g.putFrag f).slot = g.slot := rfl
@[simp] theorem Gang.putFrag_vbase (g : Gang) : (g.putFrag f).vbase = g.vbase := rfl
@[simp] theorem Gang.putFrag_abase (g : Gang) : (g.putFrag f).abase = g.abase := rfl
@[simp] theorem Gang.putFrag_regs (g : Gang) : (g.putFrag f).regs = g.regs := rfl
@[simp] theorem Gang.putFrag_accs (g : Gang) : (g.putFrag f).accs = g.accs := rfl
@[simp] theorem Gang.putFrag_width (g : Gang) : (g.putFrag f).width = g.width := rfl
@[simp] theorem Gang.putFrag_priv (g : Gang) : (g.putFrag f).priv = g.priv := rfl
@[simp] theorem Gang.putFrag_cls (g : Gang) : (g.putFrag f).cls = g.cls := rfl
@[simp] theorem Gang.putFrag_asid (g : Gang) : (g.putFrag f).asid = g.asid := rfl
@[simp] theorem Gang.putFrag_vi (g : Gang) : (g.putFrag f).vi = g.vi := rfl
@[simp] theorem Gang.putFrag_lcbase (g : Gang) : (g.putFrag f).lcbase = g.lcbase := rfl
@[simp] theorem Gang.putFrag_lcsize (g : Gang) : (g.putFrag f).lcsize = g.lcsize := rfl
@[simp] theorem Gang.putFrag_binbase (g : Gang) : (g.putFrag f).binbase = g.binbase := rfl
@[simp] theorem Gang.putFrag_csbase (g : Gang) : (g.putFrag f).csbase = g.csbase := rfl
@[simp] theorem Gang.putFrag_v (g : Gang) : (g.putFrag f).v = g.v := rfl
@[simp] theorem Gang.putFrag_vtag (g : Gang) : (g.putFrag f).vtag = g.vtag := rfl
@[simp] theorem Gang.putFrag_a (g : Gang) : (g.putFrag f).a = g.a := rfl
@[simp] theorem Gang.putFrag_atag (g : Gang) : (g.putFrag f).atag = g.atag := rfl
@[simp] theorem Gang.putFrag_xm (g : Gang) : (g.putFrag f).xm = g.xm := rfl
@[simp] theorem Gang.putFrag_lm (g : Gang) : (g.putFrag f).lm = g.lm := rfl
@[simp] theorem Gang.putFrag_hm (g : Gang) : (g.putFrag f).hm = g.hm := rfl
@[simp] theorem Gang.putFrag_live (g : Gang) : (g.putFrag f).live = g.live := rfl
@[simp] theorem Gang.putFrag_exiting (g : Gang) : (g.putFrag f).exiting = g.exiting := rfl
@[simp] theorem Gang.putFrag_copies (g : Gang) : (g.putFrag f).copies = g.copies := rfl
@[simp] theorem Gang.putFrag_rng (g : Gang) : (g.putFrag f).rng = g.rng := rfl
@[simp] theorem Gang.putFrag_asyncs (g : Gang) : (g.putFrag f).asyncs = g.asyncs := rfl
@[simp] theorem Gang.putFrag_clash (g : Gang) : (g.putFrag f).clash = g.clash := rfl
@[simp] theorem Gang.putFrag_nextN (g : Gang) : (g.putFrag f).nextN = g.nextN := rfl
@[simp] theorem Gang.putFrag_openB (g : Gang) : (g.putFrag f).openB = g.openB := rfl
@[simp] theorem Gang.putFrag_batches (g : Gang) : (g.putFrag f).batches = g.batches := rfl
@[simp] theorem Gang.putFrag_mq (g : Gang) : (g.putFrag f).mq = g.mq := rfl
@[simp] theorem Gang.putFrag_cq (g : Gang) : (g.putFrag f).cq = g.cq := rfl
@[simp] theorem Gang.putFrag_rq (g : Gang) : (g.putFrag f).rq = g.rq := rfl
@[simp] theorem Gang.putFrag_running (g : Gang) : (g.putFrag f).running = g.running := rfl
@[simp] theorem Gang.putFrag_steps (g : Gang) : (g.putFrag f).steps = g.steps := rfl
@[simp] theorem Gang.putFrag_latch (g : Gang) : (g.putFrag f).latch = g.latch := rfl
@[simp] theorem Gang.putFrag_hist (g : Gang) : (g.putFrag f).hist = g.hist := rfl
@[simp] theorem Gang.putFrag_named (g : Gang) : (g.putFrag f).named = g.named := rfl
@[simp] theorem Gang.putFrag_mesh (g : Gang) : (g.putFrag f).mesh = g.mesh := rfl
@[simp] theorem Gang.putFrag_queries (g : Gang) : (g.putFrag f).queries = g.queries := rfl
@[simp] theorem Gang.putFrag_spoilt (g : Gang) : (g.putFrag f).spoilt = g.spoilt := rfl
@[simp] theorem Gang.putFrag_desched (g : Gang) : (g.putFrag f).desched = g.desched := rfl
@[simp] theorem Gang.putFrag_hwSaved (g : Gang) : (g.putFrag f).hwSaved = g.hwSaved := rfl
@[simp] theorem Gang.putFrag_target (g : Gang) : (g.putFrag f).target = g.target := rfl
@[simp] theorem Gang.putFrag_saveNow (g : Gang) : (g.putFrag f).saveNow = g.saveNow := rfl
@[simp] theorem Gang.putFrag_trNext (g : Gang) : (g.putFrag f).trNext = g.trNext := rfl
@[simp] theorem Gang.putFrag_bad (g : Gang) : (g.putFrag f).bad = g.bad := rfl

@[simp] theorem Gang.vput_raw (g : Gang) (r k j : Nat) (w : Word) (hk : k < 32) (hj : j < 32) (d : Nat) :
    (g.vput r k w).vraw d j = if d = r ∧ j = k then w else g.vraw d j := by
  unfold Gang.vput Gang.vraw
  rw [FMap.get_put]
  by_cases h : d = r ∧ j = k
  · rw [if_pos h, if_pos]; omega
  · rw [if_neg h, if_neg]; omega
theorem Gang.tagOf_setTag (g : Gang) (r d : Nat) (t : Tag) : (g.setTag r t).tagOf d = if d = r then t else g.tagOf d := by
  simp [Gang.setTag, Gang.tagOf, FMap.get_put]
theorem Gang.atagOf_setAtag (g : Gang) (r d : Nat) (t : Tag) : (g.setAtag r t).atagOf d = if d = r then t else g.atagOf d := by
  simp [Gang.setAtag, Gang.atagOf, FMap.get_put]

end Sys2Proof.Machine
end

