-- ==== Sys2Proof/Laws/Memory.lean ====
section
/-! SUPPORT. Every operation on the machine's memories keeps their canonical form, and what the operations leave alone. -/

namespace Sys2Proof.Machine

/-! ### Writes that reach the L2 (12 R206, R213, R226) -/

theorem State.memOk_of_eq {s t : State} (h : s.memOk) (h1 : t.mem = s.mem) (h2 : t.sp = s.sp) (h3 : t.ring = s.ring) : t.memOk := by
  unfold State.memOk at *
  rw [h1, h2, h3]; exact h

theorem State.memOk_l2Write {s : State} (h : s.memOk) (cs : List Host.Cell) : (s.l2Write cs).memOk :=
  ⟨Memory.wf_cells cs s.mem h.1, h.2.1, h.2.2⟩
theorem State.memOk_post {s : State} (h : s.memOk) (vi : Nat) (cs : List Host.Cell) : (s.post vi cs).memOk :=
  State.memOk_of_eq h rfl rfl rfl
theorem State.memOk_clearUnits {s : State} (h : s.memOk) (k a n : Nat) : (s.clearUnits k a n).memOk := by
  unfold State.clearUnits
  split
  · exact h
  · exact State.memOk_of_eq h rfl rfl rfl
theorem State.memOk_hwWrite {s : State} (h : s.memOk) (a : Nat) (bs : List Byte) : (s.hwWrite a bs).memOk :=
  State.memOk_post (State.memOk_l2Write h _) _ _

/-- A fold of operations that each keep the canonical form keeps it. -/
theorem State.memOk_foldl {α : Type} (op : State → α → State) (ho : ∀ s x, s.memOk → (op s x).memOk) (l : List α) :
    ∀ s : State, s.memOk → (l.foldl op s).memOk := by
  induction l with
  | nil => intro s h; exact h
  | cons x r ih => intro s h; exact ih _ (ho s x h)

theorem State.memOk_writeBack {s : State} (h : s.memOk) (line : Nat) : (s.writeBack line).memOk := by
  unfold State.writeBack
  split
  · dsimp only
    split
    · exact State.memOk_of_eq h rfl rfl rfl
    · exact State.memOk_hwWrite (State.memOk_of_eq h rfl rfl rfl) _ _
  · exact h

/-! ### The store path and the L1 (12 R212, 13 R229 to R231) -/

theorem State.memOk_drain {s : State} (h : s.memOk) (core : Nat) : (s.drain core).memOk :=
  State.memOk_of_eq (State.memOk_foldl (fun s (e : Nat × List Host.Cell) => s.l2Write e.2) (fun _ _ h => State.memOk_l2Write h _) _ s h) rfl rfl rfl
theorem State.memOk_drainLines {s : State} (h : s.memOk) (core : Nat) (p : Nat → Bool) : (s.drainLines core p).memOk :=
  State.memOk_of_eq (State.memOk_foldl (fun s (e : Nat × List Host.Cell) => s.l2Write e.2) (fun _ _ h => State.memOk_l2Write h _) _ s h) rfl rfl rfl
theorem State.memOk_drainAll {s : State} (h : s.memOk) : s.drainAll.memOk :=
  State.memOk_of_eq (State.memOk_foldl (fun s (e : Nat × List Host.Cell) => s.l2Write e.2) (fun _ _ h => State.memOk_l2Write h _) _ s h) rfl rfl rfl
theorem State.memOk_storeArrives {s : State} (h : s.memOk) (i : Nat) : (s.storeArrives i).memOk := by
  unfold State.storeArrives
  split
  · exact h
  · split
    · exact h
    · exact State.memOk_of_eq (State.memOk_l2Write h _) rfl rfl rfl
theorem State.memOk_l1Drop {s : State} (h : s.memOk) (core : Nat) (p : Nat → Bool) : (s.l1Drop core p).memOk :=
  State.memOk_of_eq h rfl rfl rfl
theorem State.memOk_coreStore {s : State} (h : s.memOk) (core : Nat) (cs : List Host.Cell) : (s.coreStore core cs).memOk :=
  State.memOk_of_eq h rfl rfl rfl
theorem State.memOk_l1Room {s : State} (h : s.memOk) (core line : Nat) : (s.l1Room core line).memOk := by
  unfold State.l1Room
  dsimp only
  split
  · exact h
  · split
    · exact h
    · split
      · exact State.memOk_of_eq h rfl rfl rfl
      · exact h
theorem State.memOk_l1Fill {s : State} (h : s.memOk) (core line : Nat) : (s.l1Fill core line).memOk := by
  unfold State.l1Fill
  split
  · exact h
  · exact State.memOk_of_eq (State.memOk_l1Room h core line) rfl rfl rfl
theorem State.memOk_l2Direct {s : State} (h : s.memOk) (core : Option Nat) (cs : List Host.Cell) : (s.l2Direct core cs).memOk := by
  unfold State.l2Direct
  split
  · exact State.memOk_l2Write (State.memOk_l1Drop (State.memOk_drainLines h _ _) _ _) _
  · exact State.memOk_l2Write h _
theorem State.memOk_acquire {s : State} (h : s.memOk) (core : Nat) (ms : MScope) : (s.acquire core ms).memOk := by
  unfold State.acquire
  split
  · exact State.memOk_l1Drop (State.memOk_drain h core) _ _
  · exact h
theorem State.memOk_release {s : State} (h : s.memOk) (core : Nat) (ms : MScope) : (s.release core ms).memOk := by
  unfold State.release
  split
  · exact State.memOk_drain h core
  · exact h

/-! ### Translations (12 R224, R225) -/

theorem State.memOk_tlbFill {s : State} (h : s.memOk) (t : Nat) (asid : Word) (vb size : Nat) (leaf : Dword) :
    (s.tlbFill t asid vb size leaf).memOk := by
  unfold State.tlbFill
  split
  · exact h
  · exact State.memOk_of_eq h rfl rfl rfl
theorem State.memOk_install {s : State} (h : s.memOk) (w : Who) (va : Nat) (x : Xlate) : (s.install w va x).memOk := by
  unfold State.install
  split
  · dsimp only
    refine State.memOk_foldl _ (fun _ _ h => State.memOk_tlbFill h _ _ _ _ _) _ _ ?_
    split <;> split
    · exact h
    · exact State.memOk_l2Write h _
    · exact State.memOk_of_eq h rfl rfl rfl
    · exact State.memOk_of_eq (State.memOk_l2Write h _) rfl rfl rfl
  · exact h
theorem State.memOk_installAll {s : State} (h : s.memOk) (w : Who) (acc : Acc) (va n : Nat) : (s.installAll w acc va n).memOk := by
  unfold State.installAll
  split
  · exact h
  · exact State.memOk_foldl _ (fun _ _ h => State.memOk_install h _ _ _) _ _ h

/-! ### Scratchpads (12 R210) and tables -/

theorem State.memOk_spNote {s : State} (h : s.memOk) (b : Block) (off n : Nat) : (s.spNote b off n).memOk := by
  unfold State.spNote State.spTouched
  refine State.memOk_foldl _ ?_ _ _ (State.memOk_foldl _ ?_ _ _ h)
  · intro _ _ h
    split <;> exact h
  · intro _ _ h
    exact h
theorem State.memOk_spWrite {s : State} (h : s.memOk) (b : Block) (off : Nat) (bs : List Byte) : (s.spWrite b off bs).memOk :=
  have h1 := State.memOk_clearUnits (State.memOk_spNote h b off bs.length) 3 (spKey b.core (256 * b.spbase + off)) bs.length
  ⟨h1.1, Memory.wf_writeAt bs _ _ h1.2.1, h1.2.2⟩
/-- Taking a scratchpad's bytes away, as a leaving block and a gated core do (12 R210, 24 R373). -/
theorem State.memOk_spKeep {s : State} (h : s.memOk) (p : Nat → Bool) : ({ s with sp := FMap.keep s.sp p } : State).memOk :=
  ⟨h.1, FMap.wf_keep s.sp p h.2.1, h.2.2⟩
/-- Bytes of the ring region written by a landing or the planes (18 R312, R327). -/
theorem State.memOk_ringWrite {s : State} (h : s.memOk) (a : Nat) (bs : List Byte) :
    ({ s with ring := Memory.writeAt s.ring a bs } : State).memOk :=
  ⟨h.1, h.2.1, Memory.wf_writeAt bs s.ring a h.2.2⟩
theorem State.memOk_updGang {s : State} (h : s.memOk) (n : Nat) (g : Gang) : (s.updGang n g).memOk := h
theorem State.memOk_setCur {s : State} (h : s.memOk) (g : Gang) (f : Frag) : (s.setCur g f).memOk := h
theorem State.memOk_setCore {s : State} (h : s.memOk) (n : Nat) (c : Core) : (s.setCore n c).memOk := h
theorem State.memOk_setBlock {s : State} (h : s.memOk) (n : Nat) (b : Block) : (s.setBlock n b).memOk := h

/-! ### Frames of the writes -/

theorem Memory.read_cells (cs : List Host.Cell) : ∀ (m : Memory) (a : Nat), (∀ c ∈ cs, c.1 ≠ a) →
    Memory.read (cs.foldl (fun m c => Memory.write m c.1 c.2) m) a = Memory.read m a := by
  induction cs with
  | nil => intro m a _; rfl
  | cons c r ih =>
    intro m a h
    rw [List.foldl_cons, ih _ a fun x hx => h x (List.mem_cons_of_mem _ hx), Memory.read_write,
      if_neg fun he => h c List.mem_cons_self he.symm]

/-- A write through the L2 changes the bytes it names, their lines' dirty and poison bits, and nothing else. -/
theorem State.l2Write_frame (s : State) (cs : List Host.Cell) :
    { s.l2Write cs with mem := s.mem, dirty := s.dirty, poison := s.poison } = s ∧
    ∀ a, (∀ c ∈ cs, c.1 ≠ a) → Memory.read (s.l2Write cs).mem a = Memory.read s.mem a :=
  ⟨rfl, fun a h => Memory.read_cells cs s.mem a h⟩

/-- A plain store waits in its core's path: no byte of the L2 changes, and no other core's L1 (12 R212). -/
theorem State.coreStore_frame (s : State) (core : Nat) (cs : List Host.Cell) :
    { s.coreStore core cs with path := s.path, l1 := s.l1 } = s ∧ (s.coreStore core cs).path = s.path ++ [(core, cs)] :=
  ⟨rfl, rfl⟩

/-- A fold over the gangs that changes gangs only changes gangs only. -/
theorem State.foldl_gangs {α : Type} (op : State → α → State) (ho : ∀ (s : State) x, { op s x with gangs := s.gangs } = s) (l : List α) :
    ∀ s : State, { l.foldl op s with gangs := s.gangs } = s := by
  induction l with
  | nil => intro s; rfl
  | cons x r ih =>
    intro s
    have h1 := ih (op s x)
    have h2 := congrArg (fun t : State => { t with gangs := s.gangs }) h1
    exact h2.trans (ho s x)

/-- What a write of a scratchpad notes changes the gangs alone. -/
theorem State.spNote_frame (s : State) (b : Block) (off n : Nat) : { s.spNote b off n with gangs := s.gangs } = s := by
  unfold State.spNote State.spTouched
  have h1 := State.foldl_gangs (fun (s1 : State) (e : Nat × Gang) =>
    s1.updGang e.1 { e.2 with hist := (spKeys off n).foldl (fun (h : Held) k => h.add none k (s.spWord b k)) e.2.hist })
    (fun _ _ => rfl) (s.blockGangs b) s
  refine Eq.trans (congrArg (fun t : State => { t with gangs := s.gangs }) (State.foldl_gangs _ ?_ _ _)) h1
  intro s1 e
  split <;> rfl
/-- Bytes written to a scratchpad change those bytes, their poison, and what the engine's reads and queries are to know, and nothing else. -/
theorem State.spWrite_frame (s : State) (b : Block) (off : Nat) (bs : List Byte) :
    { s.spWrite b off bs with sp := s.sp, gangs := s.gangs, poison := s.poison } = s := by
  have h := State.spNote_frame s b off bs.length
  unfold State.spWrite State.clearUnits
  dsimp only
  split
  · exact congrArg (fun t : State => { t with sp := s.sp, poison := s.poison }) h
  · exact congrArg (fun t : State => { t with sp := s.sp, poison := s.poison }) h

end Sys2Proof.Machine
end

