-- ==== Sys2Proof/Laws/PerInstr.lean ====
section
/-! SUPPORT. Per instruction: an instruction is a word of the scalar stream, an item of the lane stream, or neither, and never both. -/

namespace Sys2Proof.Laws.Encoding

/-- The two streams share no instruction (03 R56, R63): at most one of the encoders writes it, and its bytes are those of that writing. -/
def Statement (i : Instr) : Prop :=
  (encodeScalar i = none ∧ ∀ w, encodeLWord i = some w → encode i = 0xE0#8 :: leBytes 12 w.toBits.toNat) ∨
  (encodeLWord i = none ∧ ∀ w, encodeScalar i = some w → encode i = leBytes 4 w.toNat)

theorem not_scalar {i : Instr} (h : encodeScalar i = none) : Statement i :=
  .inl ⟨h, fun w hw => by simp [encode, h, hw]⟩
theorem not_lane {i : Instr} (h : encodeLWord i = none) : Statement i :=
  .inr ⟨h, fun w hw => by simp [encode, hw]⟩

theorem saddReg : ∀ x0 x1 x2, Statement (.saddReg x0 x1 x2) := fun _ _ _ => not_lane rfl
theorem ssub : ∀ x0 x1 x2, Statement (.ssub x0 x1 x2) := fun _ _ _ => not_lane rfl
theorem smul : ∀ x0 x1 x2, Statement (.smul x0 x1 x2) := fun _ _ _ => not_lane rfl
theorem sdiv : ∀ x0 x1 x2, Statement (.sdiv x0 x1 x2) := fun _ _ _ => not_lane rfl
theorem srem : ∀ x0 x1 x2, Statement (.srem x0 x1 x2) := fun _ _ _ => not_lane rfl
theorem sandReg : ∀ x0 x1 x2, Statement (.sandReg x0 x1 x2) := fun _ _ _ => not_lane rfl
theorem sorReg : ∀ x0 x1 x2, Statement (.sorReg x0 x1 x2) := fun _ _ _ => not_lane rfl
theorem sxorReg : ∀ x0 x1 x2, Statement (.sxorReg x0 x1 x2) := fun _ _ _ => not_lane rfl
theorem sandn : ∀ x0 x1 x2, Statement (.sandn x0 x1 x2) := fun _ _ _ => not_lane rfl
theorem sshlReg : ∀ x0 x1 x2, Statement (.sshlReg x0 x1 x2) := fun _ _ _ => not_lane rfl
theorem sshrReg : ∀ x0 x1 x2, Statement (.sshrReg x0 x1 x2) := fun _ _ _ => not_lane rfl
theorem ssraReg : ∀ x0 x1 x2, Statement (.ssraReg x0 x1 x2) := fun _ _ _ => not_lane rfl
theorem smin : ∀ x0 x1 x2, Statement (.smin x0 x1 x2) := fun _ _ _ => not_lane rfl
theorem smax : ∀ x0 x1 x2, Statement (.smax x0 x1 x2) := fun _ _ _ => not_lane rfl
theorem sclz : ∀ x0 x1, Statement (.sclz x0 x1) := fun _ _ => not_lane rfl
theorem spopc : ∀ x0 x1, Statement (.spopc x0 x1) := fun _ _ => not_lane rfl
theorem saddpReg : ∀ x0 x1 x2, Statement (.saddpReg x0 x1 x2) := fun _ _ _ => not_lane rfl
theorem scmp : ∀ x0 x1 x2 x3, Statement (.scmp x0 x1 x2 x3) := fun _ _ _ _ => not_lane rfl
theorem ssel : ∀ x0 x1 x2 x3, Statement (.ssel x0 x1 x2 x3) := fun _ _ _ _ => not_lane rfl
theorem saddImm : ∀ x0 x1 x2, Statement (.saddImm x0 x1 x2) := fun _ _ _ => not_lane rfl
theorem sandImm : ∀ x0 x1 x2, Statement (.sandImm x0 x1 x2) := fun _ _ _ => not_lane rfl
theorem sorImm : ∀ x0 x1 x2, Statement (.sorImm x0 x1 x2) := fun _ _ _ => not_lane rfl
theorem sxorImm : ∀ x0 x1 x2, Statement (.sxorImm x0 x1 x2) := fun _ _ _ => not_lane rfl
theorem sshlImm : ∀ x0 x1 x2, Statement (.sshlImm x0 x1 x2) := fun _ _ _ => not_lane rfl
theorem sshrImm : ∀ x0 x1 x2, Statement (.sshrImm x0 x1 x2) := fun _ _ _ => not_lane rfl
theorem ssraImm : ∀ x0 x1 x2, Statement (.ssraImm x0 x1 x2) := fun _ _ _ => not_lane rfl
theorem sbfx : ∀ x0 x1 x2 x3, Statement (.sbfx x0 x1 x2 x3) := fun _ _ _ _ => not_lane rfl
theorem sbfi : ∀ x0 x1 x2 x3, Statement (.sbfi x0 x1 x2 x3) := fun _ _ _ _ => not_lane rfl
theorem saddpImm : ∀ x0 x1 x2, Statement (.saddpImm x0 x1 x2) := fun _ _ _ => not_lane rfl
theorem slui : ∀ x0 x1, Statement (.slui x0 x1) := fun _ _ => not_lane rfl
theorem slea : ∀ x0 x1, Statement (.slea x0 x1) := fun _ _ => not_lane rfl
theorem sld : ∀ x0 x1 x2, Statement (.sld x0 x1 x2) := fun _ _ _ => not_lane rfl
theorem sldD : ∀ x0 x1 x2, Statement (.sldD x0 x1 x2) := fun _ _ _ => not_lane rfl
theorem sst : ∀ x0 x1 x2, Statement (.sst x0 x1 x2) := fun _ _ _ => not_lane rfl
theorem sstD : ∀ x0 x1 x2, Statement (.sstD x0 x1 x2) := fun _ _ _ => not_lane rfl
theorem krd : ∀ x0 x1, Statement (.krd x0 x1) := fun _ _ => not_lane rfl
theorem kwr : ∀ x0 x1, Statement (.kwr x0 x1) := fun _ _ => not_lane rfl
theorem mrd : ∀ x0 x1, Statement (.mrd x0 x1) := fun _ _ => not_lane rfl
theorem mwr : ∀ x0 x1, Statement (.mwr x0 x1) := fun _ _ => not_lane rfl
theorem mopAnd : ∀ x0 x1, Statement (.mopAnd x0 x1) := fun _ _ => not_lane rfl
theorem mopOr : ∀ x0 x1, Statement (.mopOr x0 x1) := fun _ _ => not_lane rfl
theorem mopAndn : ∀ x0 x1, Statement (.mopAndn x0 x1) := fun _ _ => not_lane rfl
theorem mopXor : ∀ x0 x1, Statement (.mopXor x0 x1) := fun _ _ => not_lane rfl
theorem vrunOffset : ∀ x0 x1, Statement (.vrunOffset x0 x1) := fun _ _ => not_lane rfl
theorem vrunRegister : ∀ x0 x1, Statement (.vrunRegister x0 x1) := fun _ _ => not_lane rfl
theorem gset : ∀ x0 x1 x2, Statement (.gset x0 x1 x2) := fun _ _ _ => not_lane rfl
theorem gclr : ∀ x0, Statement (.gclr x0) := fun _ => not_lane rfl
theorem waitf : ∀ x0, Statement (.waitf x0) := fun _ => not_lane rfl
theorem br : ∀ x0, Statement (.br x0) := fun _ => not_lane rfl
theorem call : ∀ x0, Statement (.call x0) := fun _ => not_lane rfl
theorem bcSigned : ∀ x0 x1 x2 x3, Statement (.bcSigned x0 x1 x2 x3) := fun _ _ _ _ => not_lane rfl
theorem bcUnsigned : ∀ x0 x1 x2 x3, Statement (.bcUnsigned x0 x1 x2 x3) := fun _ _ _ _ => not_lane rfl
theorem bzm : ∀ x0 x1, Statement (.bzm x0 x1) := fun _ _ => not_lane rfl
theorem loop : ∀ x0 x1, Statement (.loop x0 x1) := fun _ _ => not_lane rfl
theorem jr : ∀ x0, Statement (.jr x0) := fun _ => not_lane rfl
theorem time : ∀ x0, Statement (.time x0) := fun _ => not_lane rfl
theorem trap : ∀ x0, Statement (.trap x0) := fun _ => not_lane rfl
theorem scalarReservedNop3D : ∀ x0, Statement (.scalarReservedNop3D x0) := fun _ => not_lane rfl
theorem scalarReservedNop3E : ∀ x0, Statement (.scalarReservedNop3E x0) := fun _ => not_lane rfl
theorem vadd : ∀ x0 x1 x2 x3 x4, Statement (.vadd x0 x1 x2 x3 x4) := fun _ _ _ _ _ => not_scalar rfl
theorem vsub : ∀ x0 x1 x2 x3 x4, Statement (.vsub x0 x1 x2 x3 x4) := fun _ _ _ _ _ => not_scalar rfl
theorem vmul : ∀ x0 x1 x2 x3 x4, Statement (.vmul x0 x1 x2 x3 x4) := fun _ _ _ _ _ => not_scalar rfl
theorem vmad : ∀ x0 x1 x2 x3 x4, Statement (.vmad x0 x1 x2 x3 x4) := fun _ _ _ _ _ => not_scalar rfl
theorem vand : ∀ x0 x1 x2, Statement (.vand x0 x1 x2) := fun _ _ _ => not_scalar rfl
theorem vor : ∀ x0 x1 x2, Statement (.vor x0 x1 x2) := fun _ _ _ => not_scalar rfl
theorem vxor : ∀ x0 x1 x2, Statement (.vxor x0 x1 x2) := fun _ _ _ => not_scalar rfl
theorem vandn : ∀ x0 x1 x2, Statement (.vandn x0 x1 x2) := fun _ _ _ => not_scalar rfl
theorem vshl : ∀ x0 x1 x2, Statement (.vshl x0 x1 x2) := fun _ _ _ => not_scalar rfl
theorem vshr : ∀ x0 x1 x2, Statement (.vshr x0 x1 x2) := fun _ _ _ => not_scalar rfl
theorem vsra : ∀ x0 x1 x2, Statement (.vsra x0 x1 x2) := fun _ _ _ => not_scalar rfl
theorem vmin : ∀ x0 x1 x2 x3, Statement (.vmin x0 x1 x2 x3) := fun _ _ _ _ => not_scalar rfl
theorem vmax : ∀ x0 x1 x2 x3, Statement (.vmax x0 x1 x2 x3) := fun _ _ _ _ => not_scalar rfl
theorem vabs : ∀ x0 x1 x2 x3, Statement (.vabs x0 x1 x2 x3) := fun _ _ _ _ => not_scalar rfl
theorem vclz : ∀ x0 x1, Statement (.vclz x0 x1) := fun _ _ => not_scalar rfl
theorem vpopc : ∀ x0 x1, Statement (.vpopc x0 x1) := fun _ _ => not_scalar rfl
theorem vbfx : ∀ x0 x1 x2 x3 x4, Statement (.vbfx x0 x1 x2 x3 x4) := fun _ _ _ _ _ => not_scalar rfl
theorem vbfi : ∀ x0 x1 x2 x3, Statement (.vbfi x0 x1 x2 x3) := fun _ _ _ _ => not_scalar rfl
theorem vprmb : ∀ x0 x1 x2 x3, Statement (.vprmb x0 x1 x2 x3) := fun _ _ _ _ => not_scalar rfl
theorem vcmp : ∀ x0 x1 x2 x3 x4, Statement (.vcmp x0 x1 x2 x3 x4) := fun _ _ _ _ _ => not_scalar rfl
theorem vsel : ∀ x0 x1 x2 x3, Statement (.vsel x0 x1 x2 x3) := fun _ _ _ _ => not_scalar rfl
theorem vmov : ∀ x0 x1, Statement (.vmov x0 x1) := fun _ _ => not_scalar rfl
theorem vmovTos : ∀ x0 x1 x2, Statement (.vmovTos x0 x1 x2) := fun _ _ _ => not_scalar rfl
theorem vbcs : ∀ x0 x1 x2, Statement (.vbcs x0 x1 x2) := fun _ _ _ => not_scalar rfl
theorem vli : ∀ x0 x1 x2 x3, Statement (.vli x0 x1 x2 x3) := fun _ _ _ _ => not_scalar rfl
theorem vspc : ∀ x0 x1, Statement (.vspc x0 x1) := fun _ _ => not_scalar rfl
theorem fadd : ∀ x0 x1 x2 x3 x4, Statement (.fadd x0 x1 x2 x3 x4) := fun _ _ _ _ _ => not_scalar rfl
theorem fsub : ∀ x0 x1 x2 x3 x4, Statement (.fsub x0 x1 x2 x3 x4) := fun _ _ _ _ _ => not_scalar rfl
theorem fmul : ∀ x0 x1 x2 x3 x4, Statement (.fmul x0 x1 x2 x3 x4) := fun _ _ _ _ _ => not_scalar rfl
theorem ffma : ∀ x0 x1 x2 x3 x4 x5, Statement (.ffma x0 x1 x2 x3 x4 x5) := fun _ _ _ _ _ _ => not_scalar rfl
theorem fmin : ∀ x0 x1 x2 x3, Statement (.fmin x0 x1 x2 x3) := fun _ _ _ _ => not_scalar rfl
theorem fmax : ∀ x0 x1 x2 x3, Statement (.fmax x0 x1 x2 x3) := fun _ _ _ _ => not_scalar rfl
theorem frnd : ∀ x0 x1 x2 x3, Statement (.frnd x0 x1 x2 x3) := fun _ _ _ _ => not_scalar rfl
theorem fcls : ∀ x0 x1 x2, Statement (.fcls x0 x1 x2) := fun _ _ _ => not_scalar rfl
theorem frcp : ∀ x0 x1, Statement (.frcp x0 x1) := fun _ _ => not_scalar rfl
theorem frsq : ∀ x0 x1, Statement (.frsq x0 x1) := fun _ _ => not_scalar rfl
theorem fsqrt : ∀ x0 x1 x2, Statement (.fsqrt x0 x1 x2) := fun _ _ _ => not_scalar rfl
theorem fex2 : ∀ x0 x1, Statement (.fex2 x0 x1) := fun _ _ => not_scalar rfl
theorem flg2 : ∀ x0 x1, Statement (.flg2 x0 x1) := fun _ _ => not_scalar rfl
theorem fsin : ∀ x0 x1, Statement (.fsin x0 x1) := fun _ _ => not_scalar rfl
theorem fcos : ∀ x0 x1, Statement (.fcos x0 x1) := fun _ _ => not_scalar rfl
theorem padd : ∀ x0 x1 x2 x3 x4 x5, Statement (.padd x0 x1 x2 x3 x4 x5) := fun _ _ _ _ _ _ => not_scalar rfl
theorem pmul : ∀ x0 x1 x2 x3 x4, Statement (.pmul x0 x1 x2 x3 x4) := fun _ _ _ _ _ => not_scalar rfl
theorem pfma : ∀ x0 x1 x2 x3 x4 x5 x6, Statement (.pfma x0 x1 x2 x3 x4 x5 x6) := fun _ _ _ _ _ _ _ => not_scalar rfl
theorem pmin : ∀ x0 x1 x2 x3, Statement (.pmin x0 x1 x2 x3) := fun _ _ _ _ => not_scalar rfl
theorem pmax : ∀ x0 x1 x2 x3, Statement (.pmax x0 x1 x2 x3) := fun _ _ _ _ => not_scalar rfl
theorem pdot2 : ∀ x0 x1 x2 x3 x4 x5, Statement (.pdot2 x0 x1 x2 x3 x4 x5) := fun _ _ _ _ _ _ => not_scalar rfl
theorem idot4 : ∀ x0 x1 x2 x3 x4 x5 x6, Statement (.idot4 x0 x1 x2 x3 x4 x5 x6) := fun _ _ _ _ _ _ _ => not_scalar rfl
theorem cvt : ∀ x0 x1 x2 x3 x4 x5, Statement (.cvt x0 x1 x2 x3 x4 x5) := fun _ _ _ _ _ _ => not_scalar rfl
theorem cvth : ∀ x0 x1 x2 x3 x4 x5, Statement (.cvth x0 x1 x2 x3 x4 x5) := fun _ _ _ _ _ _ => not_scalar rfl
theorem cvtp : ∀ x0 x1 x2 x3 x4 x5 x6, Statement (.cvtp x0 x1 x2 x3 x4 x5 x6) := fun _ _ _ _ _ _ _ => not_scalar rfl
theorem tagw : ∀ x0 x1, Statement (.tagw x0 x1) := fun _ _ => not_scalar rfl
theorem tagr : ∀ x0 x1, Statement (.tagr x0 x1) := fun _ _ => not_scalar rfl
theorem vld : ∀ x0 x1 x2 x3 x4 x5 x6 x7 x8 x9, Statement (.vld x0 x1 x2 x3 x4 x5 x6 x7 x8 x9) := fun _ _ _ _ _ _ _ _ _ _ => not_scalar rfl
theorem vst : ∀ x0 x1 x2 x3 x4 x5 x6 x7, Statement (.vst x0 x1 x2 x3 x4 x5 x6 x7) := fun _ _ _ _ _ _ _ _ => not_scalar rfl
theorem qxch : ∀ x0 x1 x2, Statement (.qxch x0 x1 x2) := fun _ _ _ => not_scalar rfl
theorem qbc : ∀ x0 x1 x2, Statement (.qbc x0 x1 x2) := fun _ _ _ => not_scalar rfl
theorem qddx : ∀ x0 x1 x2 x3 x4, Statement (.qddx x0 x1 x2 x3 x4) := fun _ _ _ _ _ => not_scalar rfl
theorem qddy : ∀ x0 x1 x2 x3 x4, Statement (.qddy x0 x1 x2 x3 x4) := fun _ _ _ _ _ => not_scalar rfl
theorem vote : ∀ x0 x1 x2 x3, Statement (.vote x0 x1 x2 x3) := fun _ _ _ _ => not_scalar rfl
theorem shfl : ∀ x0 x1 x2 x3 x4, Statement (.shfl x0 x1 x2 x3 x4) := fun _ _ _ _ _ => not_scalar rfl
theorem vred : ∀ x0 x1 x2 x3 x4 x5, Statement (.vred x0 x1 x2 x3 x4 x5) := fun _ _ _ _ _ _ => not_scalar rfl
theorem vscan : ∀ x0 x1 x2 x3 x4 x5 x6, Statement (.vscan x0 x1 x2 x3 x4 x5 x6) := fun _ _ _ _ _ _ _ => not_scalar rfl
theorem bar : ∀ x0, Statement (.bar x0) := fun _ => not_scalar rfl
theorem setdcl : ∀ x0, Statement (.setdcl x0) := fun _ => not_scalar rfl
theorem gwid : ∀ x0, Statement (.gwid x0) := fun _ => not_scalar rfl
theorem refill : ∀ x0, Statement (.refill x0) := fun _ => not_scalar rfl
theorem spawn : ∀ x0 x1 x2 x3, Statement (.spawn x0 x1 x2 x3) := fun _ _ _ _ => not_scalar rfl
theorem evsig : ∀ x0, Statement (.evsig x0) := fun _ => not_scalar rfl
theorem evwait : ∀ x0 x1 x2, Statement (.evwait x0 x1 x2) := fun _ _ _ => not_scalar rfl
theorem evclr : ∀ x0, Statement (.evclr x0) := fun _ => not_scalar rfl
theorem vldx : ∀ x0 x1 x2 x3 x4 x5 x6 x7 x8 x9, Statement (.vldx x0 x1 x2 x3 x4 x5 x6 x7 x8 x9) := fun _ _ _ _ _ _ _ _ _ _ => not_scalar rfl
theorem vstx : ∀ x0 x1 x2 x3 x4 x5 x6 x7, Statement (.vstx x0 x1 x2 x3 x4 x5 x6 x7) := fun _ _ _ _ _ _ _ _ => not_scalar rfl
theorem spld : ∀ x0 x1 x2 x3 x4 x5 x6 x7 x8 x9 x10, Statement (.spld x0 x1 x2 x3 x4 x5 x6 x7 x8 x9 x10) := fun _ _ _ _ _ _ _ _ _ _ _ => not_scalar rfl
theorem spst : ∀ x0 x1 x2 x3 x4 x5 x6 x7 x8, Statement (.spst x0 x1 x2 x3 x4 x5 x6 x7 x8) := fun _ _ _ _ _ _ _ _ _ => not_scalar rfl
theorem atom : ∀ x0 x1 x2 x3 x4 x5 x6 x7 x8 x9 x10 x11, Statement (.atom x0 x1 x2 x3 x4 x5 x6 x7 x8 x9 x10 x11) := fun _ _ _ _ _ _ _ _ _ _ _ _ => not_scalar rfl
theorem satom : ∀ x0 x1 x2 x3 x4 x5 x6 x7 x8 x9, Statement (.satom x0 x1 x2 x3 x4 x5 x6 x7 x8 x9) := fun _ _ _ _ _ _ _ _ _ _ => not_scalar rfl
theorem fence : ∀ x0 x1, Statement (.fence x0 x1) := fun _ _ => not_scalar rfl
theorem waita : ∀ x0 x1 x2 x3 x4 x5, Statement (.waita x0 x1 x2 x3 x4 x5) := fun _ _ _ _ _ _ => not_scalar rfl
theorem msend : ∀ x0 x1 x2 x3, Statement (.msend x0 x1 x2 x3) := fun _ _ _ _ => not_scalar rfl
theorem mrecv : ∀ x0 x1 x2 x3 x4 x5 x6, Statement (.mrecv x0 x1 x2 x3 x4 x5 x6) := fun _ _ _ _ _ _ _ => not_scalar rfl
theorem mqst : ∀ x0 x1 x2 x3, Statement (.mqst x0 x1 x2 x3) := fun _ _ _ _ => not_scalar rfl
theorem pref : ∀ x0 x1 x2 x3 x4 x5, Statement (.pref x0 x1 x2 x3 x4 x5) := fun _ _ _ _ _ _ => not_scalar rfl
theorem cmaintL1inv : ∀ x0 x1 x2, Statement (.cmaintL1inv x0 x1 x2) := fun _ _ _ => not_scalar rfl
theorem cmaintWb : ∀ x0 x1 x2, Statement (.cmaintWb x0 x1 x2) := fun _ _ _ => not_scalar rfl
theorem cmaintWbinv : ∀ x0 x1 x2, Statement (.cmaintWbinv x0 x1 x2) := fun _ _ _ => not_scalar rfl
theorem cmaintIcinv : ∀ x0 x1 x2, Statement (.cmaintIcinv x0 x1 x2) := fun _ _ _ => not_scalar rfl
theorem cmaintTlbinv : ∀ x0 x1 x2, Statement (.cmaintTlbinv x0 x1 x2) := fun _ _ _ => not_scalar rfl
theorem cmaintTlbctx : ∀ x0, Statement (.cmaintTlbctx x0) := fun _ => not_scalar rfl
theorem mma : ∀ x0 x1 x2 x3 x4 x5 x6 x7, Statement (.mma x0 x1 x2 x3 x4 x5 x6 x7) := fun _ _ _ _ _ _ _ _ => not_scalar rfl
theorem mvm : ∀ x0 x1 x2 x3 x4 x5 x6 x7, Statement (.mvm x0 x1 x2 x3 x4 x5 x6 x7) := fun _ _ _ _ _ _ _ _ => not_scalar rfl
theorem tld : ∀ x0 x1 x2 x3 x4 x5, Statement (.tld x0 x1 x2 x3 x4 x5) := fun _ _ _ _ _ _ => not_scalar rfl
theorem tst : ∀ x0 x1 x2 x3 x4, Statement (.tst x0 x1 x2 x3 x4) := fun _ _ _ _ _ => not_scalar rfl
theorem tzr : ∀ x0 x1 x2, Statement (.tzr x0 x1 x2) := fun _ _ _ => not_scalar rfl
theorem accz : ∀ x0 x1 x2, Statement (.accz x0 x1 x2) := fun _ _ _ => not_scalar rfl
theorem accrd : ∀ x0 x1 x2 x3 x4, Statement (.accrd x0 x1 x2 x3 x4) := fun _ _ _ _ _ => not_scalar rfl
theorem accwr : ∀ x0 x1 x2 x3 x4, Statement (.accwr x0 x1 x2 x3 x4) := fun _ _ _ _ _ => not_scalar rfl
theorem dsub : ∀ x0 x1, Statement (.dsub x0 x1) := fun _ _ => not_scalar rfl
theorem recfl : ∀ x0 x1, Statement (.recfl x0 x1) := fun _ _ => not_scalar rfl
theorem beamq : ∀ x0 x1 x2 x3 x4, Statement (.beamq x0 x1 x2 x3 x4) := fun _ _ _ _ _ => not_scalar rfl
theorem covq : ∀ x0 x1 x2, Statement (.covq x0 x1 x2) := fun _ _ _ => not_scalar rfl
theorem rayq : ∀ x0 x1 x2 x3, Statement (.rayq x0 x1 x2 x3) := fun _ _ _ _ => not_scalar rfl
theorem ellq : ∀ x0 x1 x2 x3 x4 x5, Statement (.ellq x0 x1 x2 x3 x4 x5) := fun _ _ _ _ _ _ => not_scalar rfl
theorem ringst : ∀ x0 x1 x2 x3, Statement (.ringst x0 x1 x2 x3) := fun _ _ _ _ => not_scalar rfl
theorem ringld : ∀ x0 x1 x2 x3 x4 x5, Statement (.ringld x0 x1 x2 x3 x4 x5) := fun _ _ _ _ _ _ => not_scalar rfl
theorem mfence : ∀ x0, Statement (.mfence x0) := fun _ => not_scalar rfl
theorem mwait : ∀ x0, Statement (.mwait x0) := fun _ => not_scalar rfl
theorem cbtst : ∀ x0 x1 x2 x3 x4, Statement (.cbtst x0 x1 x2 x3 x4) := fun _ _ _ _ _ => not_scalar rfl
theorem cbwait : ∀ x0 x1 x2 x3, Statement (.cbwait x0 x1 x2 x3) := fun _ _ _ _ => not_scalar rfl
theorem cpsts : ∀ x0 x1, Statement (.cpsts x0 x1) := fun _ _ => not_scalar rfl
theorem mcnt : ∀ x0, Statement (.mcnt x0) := fun _ => not_scalar rfl
theorem mvtx : ∀ x0 x1, Statement (.mvtx x0 x1) := fun _ _ => not_scalar rfl
theorem mprim : ∀ x0 x1, Statement (.mprim x0 x1) := fun _ _ => not_scalar rfl
theorem qrd : ∀ x0 x1 x2 x3, Statement (.qrd x0 x1 x2 x3) := fun _ _ _ _ => not_scalar rfl
theorem qwait : ∀ x0, Statement (.qwait x0) := fun _ => not_scalar rfl
theorem srate : ∀ x0 x1, Statement (.srate x0 x1) := fun _ _ => not_scalar rfl
theorem vfpush : ∀ x0 x1, Statement (.vfpush x0 x1) := fun _ _ => not_scalar rfl
theorem vfpop : ∀ x0 x1, Statement (.vfpop x0 x1) := fun _ _ => not_scalar rfl
theorem vfcnt : ∀ x0, Statement (.vfcnt x0) := fun _ => not_scalar rfl
theorem pgreq : ∀ x0 x1, Statement (.pgreq x0 x1) := fun _ _ => not_scalar rfl
theorem pgreqCan : ∀ x0 x1, Statement (.pgreqCan x0 x1) := fun _ _ => not_scalar rfl
theorem laneReservedNop : ∀ x0 x1, Statement (.laneReservedNop x0 x1) := fun _ _ => not_scalar rfl
theorem guardResolve : ∀ x0, Statement (.guardResolve x0) := fun _ => not_scalar rfl
theorem laneScalarWriteLand : ∀ x0, Statement (.laneScalarWriteLand x0) := fun _ => not_scalar rfl
theorem flaggedOperationComplete : ∀ x0, Statement (.flaggedOperationComplete x0) := fun _ => not_scalar rfl
theorem trapEntry : ∀ x0 x1 x2 x3, Statement (.trapEntry x0 x1 x2 x3) := fun _ _ _ _ => not_scalar rfl
theorem blockDispatch : ∀ x0 x1 x2 x3, Statement (.blockDispatch x0 x1 x2 x3) := fun _ _ _ _ => not_scalar rfl
theorem preemptionRequest : ∀ x0 x1, Statement (.preemptionRequest x0 x1) := fun _ _ => not_scalar rfl
theorem migrationRequest : ∀ x0 x1 x2 x3, Statement (.migrationRequest x0 x1 x2 x3) := fun _ _ _ _ => not_scalar rfl
theorem bteApertureStore : ∀ x0 x1 x2 x3, Statement (.bteApertureStore x0 x1 x2 x3) := fun _ _ _ _ => not_scalar rfl
theorem templateWrite : ∀ x0 x1 x2 x3, Statement (.templateWrite x0 x1 x2 x3) := fun _ _ _ _ => not_scalar rfl
theorem copyChunkComplete : ∀ x0 x1 x2, Statement (.copyChunkComplete x0 x1 x2) := fun _ _ _ => not_scalar rfl
theorem copyComplete : ∀ x0 x1, Statement (.copyComplete x0 x1) := fun _ _ => not_scalar rfl
theorem mqcfgWrite : ∀ x0 x1 x2 x3, Statement (.mqcfgWrite x0 x1 x2 x3) := fun _ _ _ _ => not_scalar rfl
theorem mqEntryArrive : ∀ x0 x1, Statement (.mqEntryArrive x0 x1) := fun _ _ => not_scalar rfl
theorem queryComplete : ∀ x0 x1, Statement (.queryComplete x0 x1) := fun _ _ => not_scalar rfl
theorem cgctlWrite : ∀ x0 x1, Statement (.cgctlWrite x0 x1) := fun _ _ => not_scalar rfl
theorem cgrdWrite : ∀ x0 x1, Statement (.cgrdWrite x0 x1) := fun _ _ => not_scalar rfl
theorem coreWindowAccess : ∀ x0 x1 x2 x3, Statement (.coreWindowAccess x0 x1 x2 x3) := fun _ _ _ _ => not_scalar rfl
theorem l2Writeback : ∀ x0, Statement (.l2Writeback x0) := fun _ => not_scalar rfl
theorem patrolScrub : ∀ x0 x1, Statement (.patrolScrub x0 x1) := fun _ _ => not_scalar rfl
theorem scanoutStart : ∀ x0 x1, Statement (.scanoutStart x0 x1) := fun _ _ => not_scalar rfl
theorem scanLineSend : ∀ x0 x1, Statement (.scanLineSend x0 x1) := fun _ _ => not_scalar rfl
theorem encoderRowStart : ∀ x0 x1, Statement (.encoderRowStart x0 x1) := fun _ _ => not_scalar rfl
theorem reprojectionCommit : ∀ x0, Statement (.reprojectionCommit x0) := fun _ => not_scalar rfl
theorem ptpSync : ∀ x0, Statement (.ptpSync x0) := fun _ => not_scalar rfl
theorem beaconReceive : ∀ x0, Statement (.beaconReceive x0) := fun _ => not_scalar rfl
theorem withdraw : ∀ x0, Statement (.withdraw x0) := fun _ => not_scalar rfl
theorem flitReceive : ∀ x0 x1, Statement (.flitReceive x0 x1) := fun _ _ => not_scalar rfl
theorem flitNak : ∀ x0 x1, Statement (.flitNak x0 x1) := fun _ _ => not_scalar rfl
theorem laneShed : ∀ x0 x1, Statement (.laneShed x0 x1) := fun _ _ => not_scalar rfl
theorem rdmaWrite : ∀ x0 x1 x2 x3 x4, Statement (.rdmaWrite x0 x1 x2 x3 x4) := fun _ _ _ _ _ => not_scalar rfl
theorem rdmaRead : ∀ x0 x1 x2 x3, Statement (.rdmaRead x0 x1 x2 x3) := fun _ _ _ _ => not_scalar rfl
theorem rdmaSend : ∀ x0 x1, Statement (.rdmaSend x0 x1) := fun _ _ => not_scalar rfl
theorem rdmaAtomic : ∀ x0 x1 x2 x3, Statement (.rdmaAtomic x0 x1 x2 x3) := fun _ _ _ _ => not_scalar rfl
theorem kick : ∀ x0 x1 x2, Statement (.kick x0 x1 x2) := fun _ _ _ => not_scalar rfl
theorem hostStoreAck : ∀ x0, Statement (.hostStoreAck x0) := fun _ => not_scalar rfl
theorem peerStoreAck : ∀ x0, Statement (.peerStoreAck x0) := fun _ => not_scalar rfl
theorem workItemChunkMove : ∀ x0 x1, Statement (.workItemChunkMove x0 x1) := fun _ _ => not_scalar rfl
theorem stseedWrite : ∀ x0, Statement (.stseedWrite x0) := fun _ => not_scalar rfl
theorem ptrootWrite : ∀ x0 x1, Statement (.ptrootWrite x0 x1) := fun _ _ => not_scalar rfl
theorem mgbudgetWrite : ∀ x0 x1, Statement (.mgbudgetWrite x0 x1) := fun _ _ => not_scalar rfl
theorem powerInterval : ∀ x0 x1 x2, Statement (.powerInterval x0 x1 x2) := fun _ _ _ => not_scalar rfl
theorem ltolWrite : ∀ x0, Statement (.ltolWrite x0) := fun _ => not_scalar rfl
theorem temperatureSample : ∀ x0, Statement (.temperatureSample x0) := fun _ => not_scalar rfl
theorem managementImageUpload : ∀ x0, Statement (.managementImageUpload x0) := fun _ => not_scalar rfl
theorem attestationQuote : ∀ x0, Statement (.attestationQuote x0) := fun _ => not_scalar rfl
theorem recoveryUpload : ∀ x0, Statement (.recoveryUpload x0) := fun _ => not_scalar rfl
theorem interfaceCreate : ∀ x0 x1, Statement (.interfaceCreate x0 x1) := fun _ _ => not_scalar rfl
theorem interfaceDestroy : ∀ x0, Statement (.interfaceDestroy x0) := fun _ => not_scalar rfl
theorem peerContextBind : ∀ x0 x1 x2, Statement (.peerContextBind x0 x1 x2) := fun _ _ _ => not_scalar rfl
theorem firmwareInvalidate : ∀ x0 x1, Statement (.firmwareInvalidate x0 x1) := fun _ _ => not_scalar rfl
theorem registerWrite : ∀ x0 x1, Statement (.registerWrite x0 x1) := fun _ _ => not_scalar rfl
theorem illegalScalarWord : ∀ x0, Statement (.illegalScalarWord x0) := fun _ => not_scalar rfl
theorem illegalLaneItem : ∀ x0, Statement (.illegalLaneItem x0) := fun _ => not_scalar rfl
theorem flitAcknowledgement : ∀ x0 x1, Statement (.flitAcknowledgement x0 x1) := fun _ _ => not_scalar rfl
theorem beaconAcknowledgement : ∀ x0, Statement (.beaconAcknowledgement x0) := fun _ => not_scalar rfl
theorem registerReadClear : ∀ x0, Statement (.registerReadClear x0) := fun _ => not_scalar rfl
theorem ret : Statement (.ret) := not_lane rfl
theorem nop : Statement (.nop) := not_lane rfl
theorem vdrain : Statement (.vdrain) := not_lane rfl
theorem tret : Statement (.tret) := not_lane rfl
theorem pdone : Statement (.pdone) := not_lane rfl
theorem gend : Statement (.gend) := not_lane rfl
theorem brk : Statement (.brk) := not_lane rfl
theorem lbar : Statement (.lbar) := not_scalar rfl
theorem regang : Statement (.regang) := not_scalar rfl
theorem lexit : Statement (.lexit) := not_scalar rfl
theorem oprdy : Statement (.oprdy) := not_scalar rfl
theorem clauseEnter : Statement (.clauseEnter) := not_scalar rfl
theorem rendezvousIssue : Statement (.rendezvousIssue) := not_scalar rfl
theorem rendezvousTimeout : Statement (.rendezvousTimeout) := not_scalar rfl
theorem fragmentRegang : Statement (.fragmentRegang) := not_scalar rfl
theorem classAgeing : Statement (.classAgeing) := not_scalar rfl
theorem hardwareSave : Statement (.hardwareSave) := not_scalar rfl
theorem launchCancel : Statement (.launchCancel) := not_scalar rfl
theorem handlerCancelTimeout : Statement (.handlerCancelTimeout) := not_scalar rfl
theorem globalReplay : Statement (.globalReplay) := not_scalar rfl
theorem parkTimeout : Statement (.parkTimeout) := not_scalar rfl
theorem migrationComplete : Statement (.migrationComplete) := not_scalar rfl
theorem remoteMappingExpiry : Statement (.remoteMappingExpiry) := not_scalar rfl
theorem matrixCommandStart : Statement (.matrixCommandStart) := not_scalar rfl
theorem matrixOperationComplete : Statement (.matrixOperationComplete) := not_scalar rfl
theorem batchComplete : Statement (.batchComplete) := not_scalar rfl
theorem governorWindow : Statement (.governorWindow) := not_scalar rfl
theorem ddeJobAccept : Statement (.ddeJobAccept) := not_scalar rfl
theorem ddeJobEnd : Statement (.ddeJobEnd) := not_scalar rfl
theorem binnerRecord : Statement (.binnerRecord) := not_scalar rfl
theorem ringStoreLand : Statement (.ringStoreLand) := not_scalar rfl
theorem ringHandoverComplete : Statement (.ringHandoverComplete) := not_scalar rfl
theorem packetNop : Statement (.packetNop) := not_scalar rfl
theorem packetLaunch : Statement (.packetLaunch) := not_scalar rfl
theorem packetChainRegister : Statement (.packetChainRegister) := not_scalar rfl
theorem chainAdmit : Statement (.chainAdmit) := not_scalar rfl
theorem stripDone : Statement (.stripDone) := not_scalar rfl
theorem stripDeadline : Statement (.stripDeadline) := not_scalar rfl
theorem scanEnd : Statement (.scanEnd) := not_scalar rfl
theorem frameStart : Statement (.frameStart) := not_scalar rfl
theorem flitReplayTimeout : Statement (.flitReplayTimeout) := not_scalar rfl
theorem shedRetrainComplete : Statement (.shedRetrainComplete) := not_scalar rfl
theorem shedRetrainTimeout : Statement (.shedRetrainTimeout) := not_scalar rfl
theorem ppctlWiden : Statement (.ppctlWiden) := not_scalar rfl
theorem queueAgeing : Statement (.queueAgeing) := not_scalar rfl
theorem launchComplete : Statement (.launchComplete) := not_scalar rfl
theorem aggregationGroupClose : Statement (.aggregationGroupClose) := not_scalar rfl
theorem lbarRelease : Statement (.lbarRelease) := not_scalar rfl
theorem clusterAdmit : Statement (.clusterAdmit) := not_scalar rfl
theorem spilledWaiterComplete : Statement (.spilledWaiterComplete) := not_scalar rfl
theorem waitaComplete : Statement (.waitaComplete) := not_scalar rfl
theorem waitaTimeout : Statement (.waitaTimeout) := not_scalar rfl
theorem domainIdleEnter : Statement (.domainIdleEnter) := not_scalar rfl
theorem domainIdleExit : Statement (.domainIdleExit) := not_scalar rfl
theorem coreGate : Statement (.coreGate) := not_scalar rfl
theorem coreWakeComplete : Statement (.coreWakeComplete) := not_scalar rfl
theorem cryocmdCool : Statement (.cryocmdCool) := not_scalar rfl
theorem cryocmdWarm : Statement (.cryocmdWarm) := not_scalar rfl
theorem cryocmdService : Statement (.cryocmdService) := not_scalar rfl
theorem warmingLaunchTimeout : Statement (.warmingLaunchTimeout) := not_scalar rfl
theorem moduleReset : Statement (.moduleReset) := not_scalar rfl
theorem deviceResetRequest : Statement (.deviceResetRequest) := not_scalar rfl
theorem scalarFetchFault : Statement (.scalarFetchFault) := not_scalar rfl
theorem storeReachesL2 : Statement (.storeReachesL2) := not_scalar rfl
theorem fifoEntryVisible : Statement (.fifoEntryVisible) := not_scalar rfl
theorem invalidPacket : Statement (.invalidPacket) := not_scalar rfl

end Sys2Proof.Laws.Encoding
end

