-- ==== Sys2Proof/Laws/Shapes.lean ====
section
/-! SUPPORT. What the shared shapes of the instructions do: the end of an item, traps, the lane shape and its stops, and the shape of
the scalar instructions that act once for the fragment. -/

namespace Sys2Proof.Machine

/-! ### Ends -/

/-- An item that completes as it issues goes on, and changes the current gang alone. -/
theorem State.finish_next (s : State) (g : Gang) (f : Frag) (wrs : List (SReg × FMap Word)) :
    ∃ t, s.finish g f wrs = .next t ∧ OnlyGang s t :=
  ⟨_, rfl, State.onlyGang_updGang s _⟩

/-- A trap goes on (21 R338). -/
theorem takeTrap_next (s : State) (g : Gang) (f : Frag) (c : Cause) (tval : Word) (taddr : Dword) (lane : Bool) :
    takeTrap s g f c tval taddr lane = .next (s.trapIn s.gang g f c tval taddr lane) := rfl

/-- A gang with a handler, outside it, enters it (21 R338). -/
theorem State.trapIn_enters (s : State) (gid : Nat) (g : Gang) (f : Frag) (c : Cause) (tval : Word) (taddr : Dword) (lane : Bool)
    (hc : c ≠ .machineCheck) (hf : f.inHandler = false) (hh : (g.low f).kget64 0 ≠ 0) :
    s.trapIn gid g f c tval taddr lane = s.enterHandler gid g f c tval taddr lane := by
  unfold State.trapIn
  rw [if_neg hc, hf]
  dsimp only
  rw [if_neg Bool.false_ne_true, if_neg hh]

/-! ### Where an instruction needs the current fragment -/

theorem withCur_some {s : State} {g : Gang} {f : Frag} (h : s.cur = some (g, f)) (k : Gang → Frag → Result) :
    withCur s k = k g f := by simp [withCur, h]
theorem withCur_none {s : State} (h : s.cur = none) (k : Gang → Frag → Result) : withCur s k = .fault .noFragment := by
  simp [withCur, h]

/-! ### The lane shape (01 R13, R27, 06 R112) -/

/-- Past its checks a lane instruction has its effect. -/
theorem laneRun_ready {s : State} {g : Gang} {f : Frag} (h : s.cur = some (g, f)) (i : Instr) (tags : Gang → Frag → Option Word)
    (k : Gang → Frag → Result) (ho : overAlloc g.regs g.accs (s.tilesOf g) g.aw i = none) (hs : f.laneStall i = false)
    (ht : tags g f = none) (hp : s.poisonSrc g f i = none) : laneRun s i tags k = k g f := by
  simp [laneRun, laneGate, State.operandCause, withCur, h, ho, hs, ht, hp]
/-- A register past the allocation is an illegal-encoding fault. -/
theorem laneRun_over {s : State} {g : Gang} {f : Frag} {t : Word} (h : s.cur = some (g, f)) (i : Instr)
    (tags : Gang → Frag → Option Word) (k : Gang → Frag → Result) (ho : overAlloc g.regs g.accs (s.tilesOf g) g.aw i = some t) :
    laneRun s i tags k = takeTrap s g f .illegal t 0 true := by
  simp [laneRun, laneGate, withCur, h, ho]
/-- A scalar source that an earlier lane write is still to give holds the item. -/
theorem laneRun_stall {s : State} {g : Gang} {f : Frag} (h : s.cur = some (g, f)) (i : Instr)
    (tags : Gang → Frag → Option Word) (k : Gang → Frag → Result) (ho : overAlloc g.regs g.accs (s.tilesOf g) g.aw i = none)
    (hs : f.laneStall i = true) : laneRun s i tags k = .next s := by
  simp [laneRun, laneGate, withCur, h, ho, hs]
/-- A tag that does not pass is a format fault. -/
theorem laneRun_format {s : State} {g : Gang} {f : Frag} {t : Word} (h : s.cur = some (g, f)) (i : Instr)
    (tags : Gang → Frag → Option Word) (k : Gang → Frag → Result) (ho : overAlloc g.regs g.accs (s.tilesOf g) g.aw i = none)
    (hs : f.laneStall i = false) (ht : tags g f = some t) : laneRun s i tags k = takeTrap s g f .format t 0 true := by
  simp [laneRun, laneGate, State.operandCause, withCur, h, ho, hs, ht]
/-- A poisoned word or tag that it reads is a machine check (21 R349). -/
theorem laneRun_poison {s : State} {g : Gang} {f : Frag} {n : Nat} (h : s.cur = some (g, f)) (i : Instr)
    (tags : Gang → Frag → Option Word) (k : Gang → Frag → Result) (ho : overAlloc g.regs g.accs (s.tilesOf g) g.aw i = none)
    (hs : f.laneStall i = false) (ht : tags g f = none) (hp : s.poisonSrc g f i = some n) :
    laneRun s i tags k = takeTrap s g f .machineCheck (BitVec.ofNat 32 n) 0 true := by
  simp [laneRun, laneGate, State.operandCause, withCur, h, ho, hs, ht, hp]
/-- The lane shape stops only where no fragment is current, or where its effect does. -/
theorem laneRun_cases (s : State) (i : Instr) (tags : Gang → Frag → Option Word) (k : Gang → Frag → Result) :
    (s.cur = none ∧ laneRun s i tags k = .fault .noFragment) ∨ (∃ t, laneRun s i tags k = .next t) ∨
    ∃ g f, s.cur = some (g, f) ∧ laneRun s i tags k = k g f := by
  cases h : s.cur with
  | none => exact .inl ⟨rfl, withCur_none h _⟩
  | some p =>
    obtain ⟨g, f⟩ := p
    cases ho : overAlloc g.regs g.accs (s.tilesOf g) g.aw i with
    | some t => exact .inr (.inl ⟨_, laneRun_over h i tags k ho⟩)
    | none =>
      cases hs : f.laneStall i with
      | true => exact .inr (.inl ⟨_, laneRun_stall h i tags k ho hs⟩)
      | false =>
        cases ht : tags g f with
        | some t => exact .inr (.inl ⟨_, laneRun_format h i tags k ho hs ht⟩)
        | none =>
          cases hp : s.poisonSrc g f i with
          | some n => exact .inr (.inl ⟨_, laneRun_poison h i tags k ho hs ht hp⟩)
          | none => exact .inr (.inr ⟨g, f, rfl, laneRun_ready h i tags k ho hs ht hp⟩)

/-! ### Scalar instructions that act once (07 R141) -/

/-- A pending mark on a register holds the word (01 R16). -/
theorem scalarOnce_stall {α : Type} [DecidableEq α] {s : State} {g : Gang} {f : Frag} (h : s.cur = some (g, f)) (rs : List SReg)
    (src : SliceCopy → α) (run : Gang → Frag → Result) (hf : f.free rs = false) : scalarOnce rs src s run = .next s := by
  simp [scalarOnce, withCur, h, hf]

/-- Whatever it finds, it waits, splits the fragment or acts. -/
theorem scalarOnce_cases {α : Type} [DecidableEq α] (rs : List SReg) (src : SliceCopy → α) (s : State) (run : Gang → Frag → Result) :
    (s.cur = none ∧ scalarOnce rs src s run = .fault .noFragment) ∨ (∃ t, scalarOnce rs src s run = .next t) ∨
    ∃ g f, s.cur = some (g, f) ∧ scalarOnce rs src s run = run g f := by
  unfold scalarOnce
  cases h : s.cur with
  | none => exact .inl ⟨rfl, withCur_none h _⟩
  | some p =>
    obtain ⟨g, f⟩ := p
    rw [withCur_some h]
    split
    · split
      · exact .inr (.inr ⟨g, f, rfl, rfl⟩)
      · exact .inr (.inr ⟨g, f, rfl, rfl⟩)
      · exact .inr (.inl ⟨_, rfl⟩)
    · exact .inr (.inl ⟨_, rfl⟩)

/-! ### Memory operations and engine commands (01 R22, 17 R291) -/

/-- The end of a memory operation goes on. -/
theorem State.opFinish_next (s : State) (sel : FlagSel) (l : Landing) (wr : List (SReg × FMap Word)) (hold : Nat) :
    ∃ t, s.opFinish sel l wr hold = .next t := by
  unfold State.opFinish
  split
  · exact ⟨_, rfl⟩
  · split
    · split
      · exact ⟨_, rfl⟩
      · exact ⟨_, rfl⟩
    · exact ⟨_, rfl⟩

/-! ### Writes of vector registers (01 R27) -/

/-- Words of one register written lane by lane, and read back. -/
theorem Gang.vraw_puts (ws : List (Nat × Word)) : ∀ (g : Gang) (r d j : Nat), d ≠ r → j < 32 → (∀ w ∈ ws, w.1 < 32) →
    (ws.foldl (fun g e => g.vput r e.1 e.2) g).vraw d j = g.vraw d j := by
  induction ws with
  | nil => intro g r d j _ _ _; rfl
  | cons w l ih =>
    intro g r d j hd hj hw
    rw [List.foldl_cons, ih _ r d j hd hj fun x hx => hw x (List.mem_cons_of_mem _ hx),
      Gang.vput_raw g r w.1 j w.2 (hw w List.mem_cons_self) hj, if_neg fun h => hd h.1]

end Sys2Proof.Machine
end

