-- ==== Sys2Proof/Laws/Step.lean ====
section
/-! SUPPORT. What a step and a turn can do, said once: a step is the issues of a clock and its close; a turn of a stream executes one
instruction or changes nothing, and a turn of the device executes a row, drops a cache line, notes a soft error, or changes nothing. -/

namespace Sys2Proof.Machine

/-- A step that goes on is the issues of its clock, and then the clock's close, in the state that the clock's start and the taking of its
turns leave. -/
theorem step_next {s t : State} (h : step s = .next t) :
    ∃ u, issueClock (busyIn s.tick.takeTurns.1) s.tick.takeTurns.2 = .next u ∧ t = u.closeClock s.tick.takeTurns.1 := by
  unfold step at h
  generalize s.tick.takeTurns = p at *
  obtain ⟨a, b⟩ := p
  dsimp only at *
  cases hr : issueClock (busyIn a) b with
  | next u => rw [hr] at h; exact ⟨u, rfl, by simpa using h.symm⟩
  | fault x => rw [hr] at h; simp at h
  | refused x => rw [hr] at h; simp at h

/-- A scalar turn executes the instruction at the fragment's SPC where the fragment may issue, and else changes nothing. -/
theorem scalarTurn_cases (gang slice : Nat) (s : State) :
    scalarTurn gang slice s = .next s ∨
    ∃ g f, (s.naming gang slice s.subject).cur = some (g, f) ∧
      scalarTurn gang slice s = exec ((s.naming gang slice s.subject).scalarFetch g f).1 ((s.naming gang slice s.subject).scalarFetch g f).2 := by
  unfold scalarTurn
  dsimp only
  cases h : (s.naming gang slice s.subject).cur with
  | none => exact .inl rfl
  | some p =>
    obtain ⟨g, f⟩ := p
    dsimp only
    split
    · exact .inr ⟨g, f, rfl, rfl⟩
    · exact .inl rfl

/-- A turn of the device executes its row where the row may be one, and else changes nothing. -/
theorem eventTurn_cases (i : Instr) (gang slice subject : Nat) (s : State) :
    eventTurn i gang slice subject s = .next s ∨
    (eventRow (s.naming gang slice subject) i = true ∧ eventTurn i gang slice subject s = exec i (s.naming gang slice subject)) := by
  unfold eventTurn
  dsimp only
  split
  · rename_i h; exact .inr ⟨h, rfl⟩
  · exact .inl rfl

/-- A turn of the device, in full. -/
theorem runTurn_cases (s : State) (t : Turn) :
    runTurn s t = s ∨ (∃ i g sl sub u, t = .event i g sl sub ∧ eventRow (s.naming g sl sub) i = true ∧
      exec i (s.naming g sl sub) = .next u ∧ runTurn s t = u) ∨
    (∃ core line, t = .evict core line ∧ runTurn s t = s.evictLine core line) ∨
    ∃ x c, t = .ecc x c ∧ runTurn s t = s.eccError x c := by
  cases t with
  | busy a b c => exact .inl rfl
  | event i g sl sub =>
    rcases eventTurn_cases i g sl sub s with h | ⟨h1, h2⟩
    · exact .inl (by simp [runTurn, h, Result.state])
    · cases he : exec i (s.naming g sl sub) with
      | next u => exact .inr (.inl ⟨i, g, sl, sub, u, rfl, h1, he, by simp [runTurn, h2, he, Result.state]⟩)
      | fault x => exact .inl (by simp [runTurn, h2, he, Result.state])
      | refused x => exact .inl (by simp [runTurn, h2, he, Result.state])
  | evict core line => exact .inr (.inr (.inl ⟨core, line, rfl, rfl⟩))
  | ecc x c => exact .inr (.inr (.inr ⟨x, c, rfl, rfl⟩))

/-- A step of a fragment, or about a subject, that goes on: what it names is as it was. -/
theorem State.runOn_next {s t : State} (gid sl : Nat) (k : State → Result) (h : k (s.naming gid sl s.subject) = .next t) :
    s.runOn gid sl k = t.naming s.gang s.slice s.subject := by
  simp [State.runOn, h, Result.state]
theorem State.runAbout_next {s t : State} (n : Nat) (k : State → Result) (h : k (s.naming s.gang s.slice n) = .next t) :
    s.runAbout n k = t.naming s.gang s.slice s.subject := by
  simp [State.runAbout, h, Result.state]

/-- The close of a clock, in the order of its parts. -/
theorem State.closeClock_eq (s : State) (named : Option (List Turn)) :
    s.closeClock named = (((s.engineClock.landLate).events named).foldl runTurn s.engineClock.landLate).runPrompt.endClock := rfl

end Sys2Proof.Machine
end

