-- ==== Sys2Proof/Tests/Slice0.lean ====
section
/-! SUPPORT. The model's own tests: words written out from the encoding tables of spec/, terms that well-formedness refuses, single steps
with results worked out by hand, and for each statement a state that meets its hypotheses. -/

namespace Sys2Proof.Tests

open Sys2Proof Sys2Proof.Machine

-- One theorem at a time: many of them at once take more threads than a check may start.
set_option Elab.async false

/-! ### Small states -/

/-- A state with the current gang and its fragment changed. -/
def here (s : State) (k : Gang → Gang) (x : Frag → Frag) : State :=
  match s.gang? s.gang with
  | some g => s.updGang s.gang { k g with frags := (k g).frags.map x }
  | none => s
/-- A gang whose four slices hold given scalar registers. -/
def regsOf (l : List (SReg × Word)) (g : Gang) : Gang :=
  { g with copies := (List.range 4).foldl (fun (m : FMap SliceCopy) sl =>
      FMap.put m sl (l.foldl (fun (c : SliceCopy) p => c.set p.1 p.2) (FMap.get m sl))) g.copies }
/-- A gang whose four slices hold given k-registers. -/
def kregsOf (l : List (Nat × Word)) (g : Gang) : Gang :=
  { g with copies := (List.range 4).foldl (fun (m : FMap SliceCopy) sl =>
      FMap.put m sl (l.foldl (fun (c : SliceCopy) p => { c with k := FMap.put c.k p.1 p.2 }) (FMap.get m sl))) g.copies }
/-- A gang with given words in lanes of vector registers. -/
def vecsOf (l : List (Nat × Nat × Word)) (g : Gang) : Gang :=
  { g with v := l.foldl (fun (m : FMap Word) e => FMap.put m (32 * e.1 + e.2.1) e.2.2) g.v }
/-- The machine about to issue a scalar word of a gang with given scalar registers. -/
def atScalar (w : Word) (l : List (SReg × Word)) : State := here (State.reset.withFetchWord 32 w.toNat) (regsOf l) id
/-- The machine about to issue a lane item of a gang with given words of vector registers. -/
def atLane (bs : List Byte) (l : List (Nat × Nat × Word)) : State := here (State.reset.withFetchWord 104 (leVal bs)) (vecsOf l) id
/-- The same with a tag on registers v2 to v7. -/
def atTagged (tag : Tag) (bs : List Byte) (l : List (Nat × Nat × Word)) : State :=
  here (atLane bs l) (fun g => { g with vtag := [(2, tag), (3, tag), (4, tag), (5, tag), (6, tag), (7, tag)] }) id
/-- What a step gives, where it goes on and its gang stands. -/
def after {α : Type} (s : State) (p : State → Gang → Frag → α) : Option α :=
  match step s with
  | .next t => t.cur.map fun x => p t x.1 x.2
  | _ => none
/-- The value of a scalar register in slice 0 after a step. -/
def sreg (s : State) (r : SReg) : Option Word := after s fun _ g _ => (g.copy 0).get r
/-- The word of a lane of a vector register after a step. -/
def vreg (s : State) (r l : Nat) : Option Word := after s fun _ g _ => g.vraw r l

/-! ### Words written out from the tables of 03 R56 to R60 and R63 -/

/-- A scalar word by the format S3 of R56: major in [31:26], rd in [25:20], ra in [19:14], rb in [13:8], func in [7:0]. -/
def s3 (major rd ra rb func : Nat) : Word := BitVec.ofNat 32 (major * 2 ^ 26 + rd * 2 ^ 20 + ra * 2 ^ 14 + rb * 2 ^ 8 + func)
/-- A scalar word by the format SI of R56. -/
def si (major rd ra imm : Nat) : Word := BitVec.ofNat 32 (major * 2 ^ 26 + rd * 2 ^ 20 + ra * 2 ^ 14 + imm)
/-- A full form by R63 and R69: the first byte 0xE0, then the 96 bits with each field at its place, low byte first. -/
def full (op scope vd va vb vc modifier flag reuse ge cls rounding ext : Nat) : List Byte :=
  0xE0 :: leOf 12 (op * 2 ^ 86 + scope * 2 ^ 84 + vd * 2 ^ 76 + va * 2 ^ 68 + vb * 2 ^ 60 + vc * 2 ^ 52 + modifier * 2 ^ 44 +
    flag * 2 ^ 42 + reuse * 2 ^ 41 + ge * 2 ^ 40 + cls * 2 ^ 33 + rounding * 2 ^ 30 + ext)
/-- A full form decodes to an instruction, over all its 13 bytes. -/
def reads (bs : List Byte) (i : Instr) : Prop := decodeLaneItem LaneCtx.any bs = (i, 13)

/-- R58: the ALU group. -/
theorem test_decode_alu :
    decodeScalar (s3 0 5 6 7 0x00) = .saddReg 5 6 7 ∧ decodeScalar (s3 0 5 6 7 0x01) = .ssub 5 6 7 ∧
    decodeScalar (s3 0 5 6 7 0x02) = .smul 5 6 7 ∧ decodeScalar (s3 0 5 6 7 0x03) = .sdiv 5 6 7 ∧
    decodeScalar (s3 0 5 6 7 0x04) = .srem 5 6 7 ∧ decodeScalar (s3 0 5 6 7 0x05) = .sandReg 5 6 7 ∧
    decodeScalar (s3 0 5 6 7 0x06) = .sorReg 5 6 7 ∧ decodeScalar (s3 0 5 6 7 0x07) = .sxorReg 5 6 7 ∧
    decodeScalar (s3 0 5 6 7 0x08) = .sandn 5 6 7 ∧ decodeScalar (s3 0 5 6 7 0x09) = .sshlReg 5 6 7 ∧
    decodeScalar (s3 0 5 6 7 0x0A) = .sshrReg 5 6 7 ∧ decodeScalar (s3 0 5 6 7 0x0B) = .ssraReg 5 6 7 ∧
    decodeScalar (s3 0 5 6 7 0x0C) = .smin 5 6 7 ∧ decodeScalar (s3 0 5 6 7 0x0D) = .smax 5 6 7 ∧
    decodeScalar (s3 0 5 6 0 0x0E) = .sclz 5 6 ∧ decodeScalar (s3 0 5 6 0 0x0F) = .spopc 5 6 ∧
    decodeScalar (s3 0 4 6 8 0x10) = .saddpReg 4 6 8 ∧ decodeScalar (s3 0 5 6 7 0x1A) = .scmp .lt 5 6 7 ∧
    decodeScalar (s3 0 5 6 7 0x1D) = .scmp .geu 5 6 7 ∧ decodeScalar (s3 0 5 6 7 0x49) = .ssel 5 6 7 9 := by decide +kernel

/-- R57: immediates, memory, control registers and control transfer. -/
theorem test_decode_scalar_immediates :
    decodeScalar (si 0x01 5 6 0x3FFF) = .saddImm 5 6 0x3FFF ∧ decodeScalar (si 0x02 5 6 9) = .sandImm 5 6 9 ∧
    decodeScalar (si 0x03 5 6 9) = .sorImm 5 6 9 ∧ decodeScalar (si 0x04 5 6 9) = .sxorImm 5 6 9 ∧
    decodeScalar (si 0x05 5 6 31) = .sshlImm 5 6 31 ∧ decodeScalar (si 0x06 5 6 31) = .sshrImm 5 6 31 ∧
    decodeScalar (si 0x07 5 6 31) = .ssraImm 5 6 31 ∧ decodeScalar (si 0x08 5 6 (7 * 32 + 3)) = .sbfx 5 6 7 3 ∧
    decodeScalar (si 0x09 5 6 (7 * 32 + 3)) = .sbfi 5 6 7 3 ∧ decodeScalar (si 0x0A 4 6 9) = .saddpImm 4 6 9 ∧
    decodeScalar (BitVec.ofNat 32 (0x0C * 2 ^ 26 + 5 * 2 ^ 20 + 0xABCDE)) = .slui 5 0xABCDE ∧
    decodeScalar (BitVec.ofNat 32 (0x0D * 2 ^ 26 + 4 * 2 ^ 20 + 0xABCDE)) = .slea 4 0xABCDE ∧
    decodeScalar (si 0x10 5 6 9) = .sld 5 6 9 ∧ decodeScalar (si 0x11 4 6 9) = .sldD 4 6 9 ∧
    decodeScalar (si 0x12 5 6 9) = .sst 5 6 9 ∧ decodeScalar (si 0x13 4 6 9) = .sstD 4 6 9 ∧
    decodeScalar (si 0x18 5 0 200) = .krd 5 200 ∧ decodeScalar (si 0x19 5 0 200) = .kwr 5 200 := by decide +kernel

/-- R57, R59: masks, control transfer and the system group. -/
theorem test_decode_scalar_control :
    decodeScalar (s3 0x1A 5 0 0 2) = .mrd 5 .hm ∧ decodeScalar (s3 0x1A 0 6 0 5) = .mwr 6 .lm ∧
    decodeScalar (s3 0x1A 0 6 0 8) = .mopAnd 6 .xm ∧ decodeScalar (s3 0x1A 0 6 0 12) = .mopOr 6 .xm ∧
    decodeScalar (s3 0x1A 0 6 0 16) = .mopAndn 6 .xm ∧ decodeScalar (s3 0x1A 0 6 0 20) = .mopXor 6 .xm ∧
    decodeScalar (BitVec.ofNat 32 (0x28 * 2 ^ 26 + 0x2000001)) = .br 0x2000001 ∧
    decodeScalar (BitVec.ofNat 32 (0x29 * 2 ^ 26 + 9)) = .call 9 ∧
    decodeScalar (BitVec.ofNat 32 (0x2A * 2 ^ 26 + 3 * 2 ^ 24 + 4 * 2 ^ 18 + 5 * 2 ^ 12 + 9)) = .bcSigned .ge 4 5 9 ∧
    decodeScalar (BitVec.ofNat 32 (0x2B * 2 ^ 26 + 0 * 2 ^ 24 + 4 * 2 ^ 18 + 5 * 2 ^ 12 + 9)) = .bcUnsigned false 4 5 9 ∧
    decodeScalar (BitVec.ofNat 32 (0x2C * 2 ^ 26 + 2 * 2 ^ 24 + 9)) = .bzm .hm 9 ∧
    decodeScalar (BitVec.ofNat 32 (0x2D * 2 ^ 26 + 4 * 2 ^ 18 + 9)) = .loop 4 9 ∧ decodeScalar (s3 0x2E 0 6 0 0) = .jr 6 ∧
    decodeScalar (s3 0x2F 0 0 0 0) = .ret ∧ decodeScalar 0xF0000000 = .nop ∧ decodeScalar (s3 0x3C 0 0 0 1) = .vdrain ∧
    decodeScalar (s3 0x3C 0 0 0 2) = .tret ∧ decodeScalar (s3 0x3C 0 0 0 3) = .pdone ∧ decodeScalar (s3 0x3C 0 0 0 4) = .gend ∧
    decodeScalar (s3 0x3C 0 0 0 5) = .brk ∧ decodeScalar (s3 0x3C 4 0 0 6) = .time 4 ∧
    decodeScalar (BitVec.ofNat 32 (0x3C * 2 ^ 26 + 0xABC * 2 ^ 8 + 7)) = .trap 0xABC ∧
    decodeScalar (BitVec.ofNat 32 (0x3D * 2 ^ 26 + 0x155)) = .scalarReservedNop3D 0x155 ∧
    decodeScalar (BitVec.ofNat 32 (0x3E * 2 ^ 26 + 0x155)) = .scalarReservedNop3E 0x155 := by decide +kernel

/-- R60: clauses, guards and flags. -/
theorem test_decode_clauses :
    decodeScalar (BitVec.ofNat 32 (0x20 * 2 ^ 26 + 2 ^ 25 + 9 * 2 ^ 21 + 0x12340)) = .vrunOffset (some 9) 0x12340 ∧
    decodeScalar (BitVec.ofNat 32 (0x21 * 2 ^ 26 + 6 * 2 ^ 14)) = .vrunRegister none 6 ∧
    decodeScalar (BitVec.ofNat 32 (0x23 * 2 ^ 26 + 9 * 2 ^ 22 + 6 * 2 ^ 19 + 5 * 2 ^ 13)) = .gset 9 .bs 5 ∧
    decodeScalar (BitVec.ofNat 32 (0x24 * 2 ^ 26 + 9 * 2 ^ 22)) = .gclr 9 ∧
    decodeScalar (BitVec.ofNat 32 (0x25 * 2 ^ 26 + 0xFFF)) = .waitf 0xFFF := by decide +kernel

/-- R57 to R62: words without a meaning are named illegal with their own bits: an unlisted function, an odd pair, a field that must be
zero, an unlisted major. -/
theorem test_decode_scalar_illegal :
    decodeScalar (s3 0 5 6 7 0x11) = .illegalScalarWord (s3 0 5 6 7 0x11) ∧
    decodeScalar (s3 0 5 6 8 0x10) = .illegalScalarWord (s3 0 5 6 8 0x10) ∧
    decodeScalar (s3 0 5 6 1 0x0E) = .illegalScalarWord (s3 0 5 6 1 0x0E) ∧
    decodeScalar (si 0x05 5 6 32) = .illegalScalarWord (si 0x05 5 6 32) ∧
    decodeScalar (s3 0x1A 5 0 0 3) = .illegalScalarWord (s3 0x1A 5 0 0 3) ∧
    decodeScalar (s3 0x22 0 0 0 0) = .illegalScalarWord (s3 0x22 0 0 0 0) := by decide +kernel

/-- 06 R116, R123: integer, logic and move instructions. -/
theorem test_decode_lane_integer :
    reads (full 0x000 0 1 2 3 0 0x04 0 0 0 1 0 0) (.vadd 1 2 (.vec 3) Tag.i32 true) ∧
    reads (full 0x001 0 1 2 9 0 0x01 0 0 0 2 0 0) (.vsub 1 2 (.scal 9) Tag.n32 false) ∧
    reads (full 0x002 0 1 2 0 0 0x0A 0 0 0 1 0 0x3FFFFFF) (.vmul 1 2 (.imm 0x3FFFFFF) Tag.i32 true) ∧
    reads (full 0x003 0 1 2 3 4 0 0 0 0 2 0 0) (.vmad 1 2 (.vec 3) 4 Tag.n32) ∧
    reads (full 0x004 0 1 2 3 0 0 0 0 0 0 0 0) (.vand 1 2 (.vec 3)) ∧ reads (full 0x005 0 1 2 3 0 0 0 0 0 0 0 0) (.vor 1 2 (.vec 3)) ∧
    reads (full 0x006 0 1 2 3 0 0 0 0 0 0 0 0) (.vxor 1 2 (.vec 3)) ∧ reads (full 0x007 0 1 2 3 0 0 0 0 0 0 0 0) (.vandn 1 2 (.vec 3)) ∧
    reads (full 0x008 0 1 2 3 0 0 0 0 0 0 0 0) (.vshl 1 2 (.vec 3)) ∧ reads (full 0x009 0 1 2 3 0 0 0 0 0 0 0 0) (.vshr 1 2 (.vec 3)) ∧
    reads (full 0x00A 0 1 2 3 0 0 0 0 0 0 0 0) (.vsra 1 2 (.vec 3)) ∧
    reads (full 0x00B 0 1 2 3 0 0 0 0 0 13 0 0) (.vmin 1 2 (.vec 3) Tag.n8x4) ∧
    reads (full 0x00C 0 1 2 3 0 0 0 0 0 15 0 0) (.vmax 1 2 (.vec 3) Tag.i3x10) ∧
    reads (full 0x00D 0 1 2 0 0 4 0 0 0 12 0 0) (.vabs 1 2 Tag.i8x4 true) ∧
    reads (full 0x00E 0 1 2 0 0 0 0 0 0 0 0 0) (.vclz 1 2) ∧ reads (full 0x00F 0 1 2 0 0 0 0 0 0 0 0 0) (.vpopc 1 2) ∧
    reads (full 0x010 0 1 2 0 0 1 0 0 0 0 0 (7 * 32 + 3)) (.vbfx 1 2 3 7 true) ∧
    reads (full 0x011 0 1 2 0 0 0 0 0 0 0 0 (7 * 32 + 3)) (.vbfi 1 2 3 7) ∧
    reads (full 0x012 0 1 2 3 4 0 0 0 0 0 0 0) (.vprmb 1 2 (.vec 3) 4) ∧
    reads (full 0x013 0 0 2 3 0 0x24 0 0 0 1 0 0) (.vcmp .xm 2 (.vec 3) Tag.i32 .lt) ∧
    reads (full 0x014 0 1 2 3 4 0 0 0 0 0 0 0) (.vsel 1 2 (.vec 3) 4) ∧ reads (full 0x015 0 1 2 0 0 0 0 0 0 0 0 0) (.vmov 1 2) ∧
    reads (full 0x015 0 1 2 0 0 4 0 0 0 0 0 31) (.vmovTos 1 2 31) ∧ reads (full 0x016 0 1 2 0 0 3 0 0 0 0 0 0) (.vbcs 1 2 3) ∧
    reads (full 0x017 0 1 0 0 0 0x21 0 0 0 0 0 0x2ABCDEF) (.vli 1 0x2ABCDEF 1 true) ∧
    reads (full 0x018 0 1 0 0 0 0 0 0 0 0 0 12) (.vspc 1 .layer) := by
  unfold reads; decide +kernel

/-- 06 R124, R127, R129: floats, packed arithmetic, conversions and tags. -/
theorem test_decode_lane_floats :
    reads (full 0x020 0 1 2 3 0 0 0 0 0 3 1 0) (.fadd 1 2 (.vec 3) Tag.f32 .rtz) ∧
    reads (full 0x021 0 1 2 3 0 0 0 0 0 3 2 0) (.fsub 1 2 (.vec 3) Tag.f32 .rup) ∧
    reads (full 0x022 0 1 2 3 0 1 0 0 0 4 3 0) (.fmul 1 2 (.scal 3) Tag.f19 .rdn) ∧
    reads (full 0x023 0 1 2 3 4 0 0 0 0 3 0 0) (.ffma 1 2 (.vec 3) 4 Tag.f32 .rne) ∧
    reads (full 0x024 0 1 2 3 0 0 0 0 0 3 0 0) (.fmin 1 2 (.vec 3) Tag.f32) ∧
    reads (full 0x025 0 1 2 3 0 0 0 0 0 3 0 0) (.fmax 1 2 (.vec 3) Tag.f32) ∧
    reads (full 0x026 0 1 2 0 0 0 0 0 0 4 2 0) (.frnd 1 2 Tag.f19 .rup) ∧ reads (full 0x027 0 1 2 0 0 0 0 0 0 3 0 0) (.fcls 1 2 Tag.f32) ∧
    reads (full 0x028 0 1 2 0 0 0 0 0 0 3 0 0) (.frcp 1 2) ∧ reads (full 0x029 0 1 2 0 0 0 0 0 0 3 0 0) (.frsq 1 2) ∧
    reads (full 0x02A 0 1 2 0 0 0 0 0 0 3 3 0) (.fsqrt 1 2 .rdn) ∧ reads (full 0x02B 0 1 2 0 0 0 0 0 0 3 0 0) (.fex2 1 2) ∧
    reads (full 0x02C 0 1 2 0 0 0 0 0 0 3 0 0) (.flg2 1 2) ∧ reads (full 0x02D 0 1 2 0 0 0 0 0 0 3 0 0) (.fsin 1 2) ∧
    reads (full 0x02E 0 1 2 0 0 0 0 0 0 3 0 0) (.fcos 1 2) ∧
    reads (full 0x030 0 1 2 3 0 8 0 0 0 5 0 0) (.padd 1 2 (.vec 3) Tag.bf16x2 true .rne) ∧
    reads (full 0x031 0 1 2 3 0 0 0 0 0 6 1 0) (.pmul 1 2 (.vec 3) Tag.f16x2 .rtz) ∧
    reads (full 0x032 0 1 2 3 4 0 0 0 0 6 0 0) (.pfma 1 2 (.vec 3) 4 Tag.f16x2 false .rne) ∧
    reads (full 0x033 0 1 2 3 0 0 0 0 0 6 0 0) (.pmin 1 2 (.vec 3) Tag.f16x2) ∧
    reads (full 0x034 0 1 2 3 0 0 0 0 0 5 0 0) (.pmax 1 2 (.vec 3) Tag.bf16x2) ∧
    reads (full 0x035 0 1 2 3 4 0 0 0 0 5 0 0) (.pdot2 1 2 (.vec 3) 4 Tag.bf16x2 .rne) ∧
    reads (full 0x036 0 1 2 3 4 0x0C 0 0 0 12 0 0) (.idot4 1 2 (.vec 3) 4 Tag.i8x4 true true) ∧
    reads (full 0x038 0 1 2 0 0 0x27 0 0 0 3 4 0) (.cvt 1 2 Tag.f32 7 true .rsr) ∧
    reads (full 0x039 0 1 2 0 0 0x4B 0 0 0 3 0 0) (.cvth 1 2 11 false true .rne) ∧
    reads (full 0x03A 0 1 2 0 0 7 0 0 0 3 0 3) (.cvtp 1 2 Tag.f32 7 false 3 .rne) ∧
    reads (full 0x03B 0 1 0 0 0 2 0 0 0 0 0 3) (.tagw (.a 1) (.imm 3)) ∧ reads (full 0x03B 0 1 9 0 0 1 0 0 0 0 0 0) (.tagw (.v 1) (.scal 9)) ∧
    reads (full 0x03C 0 9 1 0 0 4 0 0 0 0 0 0) (.tagr 9 (.t 1)) := by
  unfold reads; decide +kernel

/-- 06 R134, 08 R160: plain accesses and parallel instructions. -/
theorem test_decode_lane_parallel :
    reads (full 0x040 0 1 0 8 5 0x0D 1 0 0 3 0 0x3FFFFF0) (.vld 1 8 5 .half true 1 false 0x3FFFFF0 Tag.f32 .a) ∧
    reads (full 0x041 0 0 2 8 5 0x3B 2 0 0 0 0 16) (.vst 2 8 5 .dword 3 true 16 .b) ∧
    reads (full 0x080 0 1 2 0 0 3 0 0 0 0 0 0) (.qxch 1 2 3) ∧ reads (full 0x081 0 1 2 0 0 3 0 0 0 0 0 0) (.qbc 1 2 3) ∧
    reads (full 0x082 0 1 2 0 0 1 0 0 0 3 0 0) (.qddx 1 2 true Tag.f32 .rne) ∧
    reads (full 0x083 0 1 2 0 0 0 0 0 0 4 2 0) (.qddy 1 2 false Tag.f19 .rup) ∧
    reads (full 0x084 1 9 2 0 0 0x30 0 0 0 0 0 0) (.vote .g (.scal 9 true) 2 .ballot) ∧
    reads (full 0x085 2 1 2 3 0 0x0C 0 0 0 0 0 0) (.shfl .s 1 2 (.vec 3) .xor) ∧
    reads (full 0x086 3 1 2 0 0 5 0 0 0 2 0 0) (.vred .b (.vec 1) 2 .xor Tag.n32 .rne) ∧
    reads (full 0x087 0 1 2 0 0 8 0 0 0 3 1 0) (.vscan .l 1 2 .add true Tag.f32 .rtz) ∧
    reads (full 0x088 3 0 0 0 0 0 0 0 0 0 0 0) (.bar .b) ∧ reads (full 0x089 3 0 0 0 0 0 0 0 0 0 0 0) .lbar ∧
    reads (full 0x08A 3 0 0 0 0 3 0 0 0 0 0 0) (.setdcl 3) ∧ reads (full 0x08B 0 9 0 0 0 0 0 0 0 0 0 0) (.gwid 9) ∧
    reads (full 0x08C 1 0 0 0 0 0 0 0 0 0 0 0) .regang ∧ reads (full 0x08D 0 0 0 0 0 0 0 0 0 0 0 0) .lexit ∧
    reads (full 0x08E 0 1 0 0 0 0 0 0 0 0 0 0) (.refill 1) ∧ reads (full 0x08F 0 1 2 8 0 0 1 0 0 0 0 0) (.spawn 1 2 8 .a) ∧
    reads (full 0x090 0 0 0 9 0 1 0 0 0 0 0 0) (.evsig (.scal 9)) ∧ reads (full 0x091 0 0 0 0 0 6 2 0 0 0 0 77) (.evwait (.imm 77) true .b) ∧
    reads (full 0x092 0 0 0 0 0 2 0 0 0 0 0 77) (.evclr (.imm 77)) := by
  unfold reads; decide +kernel

/-- 14 R242: the memory hierarchy instructions. -/
theorem test_decode_lane_memory :
    reads (full 0x0C0 0 1 0 8 5 0x46 0 0 0 3 0 9) (.vldx 1 8 5 .x8 1 false true 9 Tag.f32 .none) ∧
    reads (full 0x0C1 0 0 2 8 5 0x21 1 0 0 0 0 9) (.vstx 2 8 5 .x4 0 true 9 .a) ∧
    reads (full 0x0C2 0 1 0 7 5 0x42 0 0 0 1 0 (3 * 2 ^ 19 + 9)) (.spld 1 7 5 .word false 0 false (some 3) 9 Tag.i32 .none) ∧
    reads (full 0x0C3 0 0 2 7 5 0x20 0 0 0 0 0 9) (.spst 2 7 5 .byte 0 true none 9 .none) ∧
    reads (full 0x0C4 0 1 2 7 5 0xCA 0 0 0 3 0 (2 * 16 + 8 + 2)) (.atom 1 2 (.sp 7) 5 .fadd false .rel .cluster true 2 Tag.f32 .none) ∧
    reads (full 0x0C5 0 1 2 8 9 0x29 0 0 0 0 0 (5 * 64 + 4)) (.satom 1 2 (.glob 8) 9 .cas false .acq .system 5 .none) ∧
    reads (full 0x0C6 0 0 0 0 0 0x0D 0 0 0 0 0 0) (.fence .rel .device) ∧
    reads (full 0x0C7 0 1 2 7 0 0x0B 0 0 0 0 0 300) (.waita 1 2 (.sp 7) true .cluster 300) ∧
    reads (full 0x0C8 0 0 2 0 0 4 0 0 0 0 0 (6 * 8 + 5)) (.msend 2 (.imm 5 6) .s256 .none) ∧
    reads (full 0x0C8 0 0 2 9 0 8 0 0 0 0 0 0) (.msend 2 (.scal 9) .s16 .none) ∧
    reads (full 0x0C9 0 1 0 9 0 0x0A 0 0 0 3 0 6) (.mrecv 1 9 .s64 true 6 Tag.f32 .none) ∧
    reads (full 0x0CA 0 9 0 0 0 1 0 0 0 0 0 (6 * 8 + 5)) (.mqst 9 .cred 5 6) ∧
    reads (full 0x0CB 0 0 0 8 5 0x1D 0 0 0 0 0 9) (.pref 8 5 .l2 3 true 9) ∧
    reads (full 0x0CC 0 0 9 8 0 0 0 0 0 0 0 0) (.cmaintL1inv 9 8 .none) ∧ reads (full 0x0CC 0 0 9 8 0 1 0 0 0 0 0 0) (.cmaintWb 9 8 .none) ∧
    reads (full 0x0CC 0 0 9 8 0 2 1 0 0 0 0 0) (.cmaintWbinv 9 8 .a) ∧ reads (full 0x0CC 0 0 9 8 0 3 0 0 0 0 0 0) (.cmaintIcinv 9 8 .none) ∧
    reads (full 0x0CC 0 0 9 8 0 4 0 0 0 0 0 0) (.cmaintTlbinv 9 8 .none) ∧ reads (full 0x0CC 0 0 0 0 0 5 0 0 0 0 0 0) (.cmaintTlbctx .none) := by
  unfold reads; decide +kernel

/-- 17 R289, 24 R374, 03 R66, R68: engine and render commands, vertical pairs, reserved NOPs. -/
theorem test_decode_lane_engines :
    reads (full 0x200 0 3 32 5 0 16 1 1 0 7 0 0) (.mma .l 3 32 5 16 true 7 { flag := .a, guard := none }) ∧
    reads (full 0x201 0 3 32 9 0 (0x54) 0 0 1 5 0 (4 * 2 ^ 26)) (.mvm 3 32 (.scal 9) 20 2 false 5 { flag := .none, guard := some 4 }) ∧
    reads (full 0x202 0 5 0 8 0 2 0 0 0 16 0 9) (.tld 5 (.glob 8) true 9 16 { flag := .none, guard := none }) ∧
    reads (full 0x203 0 0 5 7 0 1 0 0 0 0 0 9) (.tst 5 (.sp 7) false 9 { flag := .none, guard := none }) ∧
    reads (full 0x204 0 5 0 0 0 0 0 0 0 11 0 0) (.tzr 5 11 { flag := .none, guard := none }) ∧
    reads (full 0x205 0 3 0 0 0 0 0 0 0 1 0 0) (.accz 3 Tag.i32 { flag := .none, guard := none }) ∧
    reads (full 0x206 0 32 3 0 0 4 0 0 0 0 0 16) (.accrd 32 3 .c16 16 { flag := .none, guard := none }) ∧
    reads (full 0x207 0 3 32 0 0 1 0 0 0 0 0 6) (.accwr 3 32 .c2 6 { flag := .none, guard := none }) := by
  unfold reads; decide +kernel

/-- 19 R328, 20 R332 to R334: device commands, queries and rings. -/
theorem test_decode_lane_commands :
    reads (full 0x208 0 0 0 8 0 0 2 0 0 0 0 0) (.dsub 8 { flag := .b, guard := none }) ∧
    reads (full 0x209 0 0 0 8 0 0 0 0 1 0 0 (15 * 2 ^ 26)) (.recfl 8 { flag := .none, guard := some 15 }) ∧
    reads (full 0x20A 0 0 9 8 0 0 0 0 0 0 0 (4 * 0x1001 + 3)) (.beamq 9 8 3 0x1001 { flag := .none, guard := none }) ∧
    reads (full 0x20B 0 0 0 0 0 0 0 0 0 0 0 (4 * 0x1001 + 3)) (.covq 3 0x1001 { flag := .none, guard := none }) ∧
    reads (full 0x20C 0 0 16 8 0 0 0 0 0 3 0 2) (.rayq 16 8 2 { flag := .none, guard := none }) ∧
    reads (full 0x20D 0 0 16 8 0 0x0D 0 0 0 3 0 2) (.ellq 16 8 5 true 2 { flag := .none, guard := none }) ∧
    reads (full 0x20E 0 0 16 9 0 1 0 0 0 0 0 0) (.ringst 16 9 true { flag := .none, guard := none }) ∧
    reads (full 0x20F 0 16 0 9 0 0 0 0 0 3 0 0xFE) (.ringld 16 9 false 0xFE Tag.f32 { flag := .none, guard := none }) := by
  unfold reads; decide +kernel

/-- 24 R374 and 03 R66, R68: clauses' service instructions, vertical pairs, PGREQ and reserved NOPs. -/
theorem test_decode_lane_services :
    reads (full 0x240 0 0 0 0 0 0 0 0 0 0 0 0) .oprdy ∧ reads (full 0x241 0 9 0 0 0 0 0 0 0 0 0 0) (.mfence 9) ∧
    reads (full 0x242 0 0 0 0 0 0 0 0 0 0 0 200) (.mwait (.imm 200)) ∧ reads (full 0x242 0 0 9 0 0 1 0 0 0 0 0 0) (.mwait (.scal 9)) ∧
    reads (full 0x243 0 9 10 11 0 1 0 0 0 0 0 2) (.cbtst 9 10 11 true 2) ∧ reads (full 0x244 0 9 10 11 0 0 0 0 0 0 0 2) (.cbwait 9 10 11 2) ∧
    reads (full 0x245 0 9 10 0 0 0 0 0 0 0 0 0) (.cpsts 9 10) ∧ reads (full 0x246 0 0 9 10 0 0 0 0 0 0 0 3) (.mcnt (.opn 9 10 3)) ∧
    reads (full 0x246 0 0 0 0 0 1 0 0 0 0 0 0) (.mcnt .close) ∧ reads (full 0x247 0 0 16 0 20 0 0 0 0 0 0 0) (.mvtx 16 20) ∧
    reads (full 0x248 0 0 16 0 20 0 0 0 0 0 0 0) (.mprim 16 20) ∧ reads (full 0x249 0 16 0 0 0 0 0 0 0 1 0 (16 * 4 + 3)) (.qrd 16 3 16 Tag.i32) ∧
    reads (full 0x24A 0 0 0 0 0 0 0 0 0 0 0 3) (.qwait 3) ∧ reads (full 0x24B 0 9 10 0 0 0 0 0 0 0 0 0) (.srate 9 10) ∧
    reads (full 0x280 0 5 40 0 0 1 0 0 0 0 0 0) (.vfpush (some 5) 40) ∧ reads (full 0x281 0 40 0 5 0 1 0 0 0 0 0 0) (.vfpop 40 (some 5)) ∧
    reads (full 0x282 0 9 0 0 0 0 0 0 0 0 0 0) (.vfcnt 9) ∧ reads (full 0x283 0 9 0 0 0 1 0 0 0 0 0 0) (.pgreq 9 true) ∧
    reads (full 0x283 0 9 0 0 0 2 0 0 0 0 0 0) (.pgreqCan 9 false) ∧
    reads (full 0x3F5 0 0 0 0 0 0 0 0 0 0 0 77) (.laneReservedNop 5 77) := by
  unfold reads; decide +kernel

/-- R76: the first failing check is reported: a scope that the entry does not list (3), a register field that must be zero (4), a
modifier (5), an ext (6), a class (9), a rounding (7). -/
theorem test_decode_lane_illegal :
    (decodeLaneItem LaneCtx.any (full 0x080 1 1 2 0 0 3 0 0 0 0 0 0)).1 = .illegalLaneItem 3 ∧
    (decodeLaneItem LaneCtx.any (full 0x080 0 1 2 1 0 3 0 0 0 0 0 0)).1 = .illegalLaneItem 4 ∧
    (decodeLaneItem LaneCtx.any (full 0x080 0 1 2 0 0 0 0 0 0 0 0 0)).1 = .illegalLaneItem 5 ∧
    (decodeLaneItem LaneCtx.any (full 0x018 0 1 0 0 0 0 0 0 0 0 0 13)).1 = .illegalLaneItem 6 ∧
    (decodeLaneItem LaneCtx.any (full 0x1FF 0 0 0 0 0 0 0 0 0 0 0 0)).1 = .illegalLaneItem 2 := by decide +kernel

/-! ### Terms that well-formedness refuses, one for each check -/

/-- 03 R61: a pair begins at an even register. -/
theorem test_wf_refuses_odd_pairs : ∀ i ∈ [Instr.saddpReg 5 2 4, .saddpReg 2 5 4, .saddpReg 2 4 5, .saddpImm 5 2 0, .saddpImm 2 5 0,
    .slea 5 0, .sld 2 5 0, .sst 2 5 0, .sldD 5 2 0, .sldD 2 5 0, .sstD 5 2 0, .sstD 2 5 0, .jr 5, .time 5,
    .vld 0 5 0 .word false 0 false 0 0 .none, .vst 0 5 0 .word 0 false 0 .none, .vldx 0 5 0 .x2 0 false false 0 0 .none,
    .vstx 0 5 0 .x2 0 false 0 .none, .spawn 0 0 5 .none, .atom 0 0 (.glob 5) 0 .add false .rlx .gang false 0 Tag.i32 .none,
    .satom 0 0 (.glob 5) 0 .add false .rlx .gang 0 .none, .satom 3 2 (.sp 0) 0 .add true .rlx .gang 0 .none, .waita 0 0 (.glob 5) false .gang 0,
    .pref 5 0 .l1 0 false 0, .cmaintL1inv 0 5 .none, .cmaintWb 0 5 .none, .cmaintWbinv 0 5 .none, .cmaintIcinv 0 5 .none,
    .cmaintTlbinv 0 5 .none, .tld 0 (.glob 5) false 0 0 ⟨.none, none⟩, .tst 0 (.glob 5) false 0 ⟨.none, none⟩, .dsub 5 ⟨.none, none⟩,
    .recfl 5 ⟨.none, none⟩, .beamq 0 5 0 0 ⟨.none, none⟩, .rayq 0 5 0 ⟨.none, none⟩, .ellq 0 5 0 false 0 ⟨.none, none⟩],
    i.wf = false := by decide +kernel

/-- 06 R114, R116, R124, R127, R130 to R132: classes that an entry does not list. -/
theorem test_wf_refuses_classes : ∀ i ∈ [Instr.vadd 0 0 (.vec 0) Tag.f32 false, .vsub 0 0 (.vec 0) Tag.raw false, .vmin 0 0 (.vec 0) Tag.f32,
    .vmax 0 0 (.vec 0) Tag.f19, .vmul 0 0 (.vec 0) Tag.i8x4 false, .vmad 0 0 (.vec 0) 0 Tag.f32, .vabs 0 0 Tag.n32 false,
    .vcmp .xm 0 (.vec 0) Tag.f19 .eq, .vcmp .xm 0 (.imm 0) Tag.f32 .eq, .vbcs 0 0 31, .vli 0 0 31 false, .fadd 0 0 (.vec 0) Tag.i32 .rne,
    .ffma 0 0 (.vec 0) 0 Tag.bf16x2 .rne, .fmin 0 0 (.vec 0) Tag.i32, .fmax 0 0 (.vec 0) Tag.raw, .frnd 0 0 Tag.i32 .rne, .fcls 0 0 Tag.i32,
    .padd 0 0 (.vec 0) Tag.f32 false .rne, .pmul 0 0 (.vec 0) Tag.f32 .rne, .pfma 0 0 (.vec 0) 0 Tag.f32 false .rne, .pmin 0 0 (.vec 0) Tag.f32,
    .pmax 0 0 (.vec 0) Tag.f32, .pdot2 0 0 (.vec 0) 0 Tag.f32 .rne, .idot4 0 0 (.vec 0) 0 Tag.i32 false false, .cvt 0 0 Tag.raw 3 false .rne,
    .cvt 0 0 Tag.f32 0 false .rne, .cvth 0 0 3 false false .rne, .cvth 0 0 14 false false .rne, .cvtp 0 0 Tag.i8x4 3 false 0 .rne,
    .cvtp 0 0 Tag.f32 12 false 4 .rne, .vld 0 2 0 .word false 0 false 0 31 .none, .vldx 0 2 0 .x2 0 false false 0 31 .none,
    .spld 0 0 0 .word false 0 false none 0 31 .none, .mrecv 0 0 .s16 false 0 31 .none, .qddx 0 0 false Tag.i32 .rne,
    .qddy 0 0 false Tag.i32 .rne, .vred .l (.vec 0) 0 .add Tag.f19 .rne, .vscan .l 0 0 .add false Tag.f19 .rne,
    .ringld 0 0 false 0 31 ⟨.none, none⟩, .ringld 0 0 false 0 (64 + 3) ⟨.none, none⟩, .qrd 0 0 0 31], i.wf = false := by decide +kernel

/-- 02 R43, 06 R111: a rounding that draws, and an immediate B, where an entry does not take them. -/
theorem test_wf_refuses_roundings_and_b : ∀ i ∈ [Instr.fadd 0 0 (.vec 0) Tag.f32 .rsr, .fsub 0 0 (.imm 0) Tag.f32 .rne,
    .fmul 0 0 (.imm 0) Tag.f32 .rne, .ffma 0 0 (.imm 0) 0 Tag.f32 .rne, .fmin 0 0 (.imm 0) Tag.f32, .fmax 0 0 (.imm 0) Tag.f32,
    .frnd 0 0 Tag.f32 .rsr, .fsqrt 0 0 .rsr, .padd 0 0 (.imm 0) Tag.f16x2 false .rne, .pmul 0 0 (.vec 0) Tag.f16x2 .rsr,
    .pfma 0 0 (.imm 0) 0 Tag.f16x2 false .rne, .pmin 0 0 (.imm 0) Tag.f16x2, .pmax 0 0 (.imm 0) Tag.f16x2,
    .pdot2 0 0 (.imm 0) 0 Tag.f16x2 .rne, .idot4 0 0 (.imm 0) 0 Tag.i8x4 false false, .qddx 0 0 false Tag.f32 .rsr,
    .vred .l (.vec 0) 0 .min Tag.f32 .rtz, .vred .l (.vec 0) 0 .add Tag.i32 .rtz, .vscan .l 0 0 .add false Tag.f32 .rsr,
    .evsig (.vec 0), .evclr (.vec 0), .evwait (.vec 0) false .none], i.wf = false := by decide +kernel

/-- 06 R134, 08 R160 to R166, 14 R248 to R255: scopes, sizes, operations and patterns that an entry does not list. -/
theorem test_wf_refuses_forms : ∀ i ∈ [Instr.vld 0 2 0 .word true 0 false 0 0 .none, .spld 0 0 0 .dword true 0 false none 0 0 .none,
    .qxch 0 0 0, .vote .s (.scal 0 true) 0 .any, .vote .b (.vec 0) 0 .ballot, .shfl .b 0 0 (.vec 0) .idx, .vscan .b 0 0 .add false Tag.i32 .rne,
    .vred .b (.scal 0 true) 0 .add Tag.i32 .rne, .vred .l (.vec 0) 0 .and Tag.f32 .rne,
    .atom 0 0 (.sp 0) 0 .smin false .rlx .gang false 0 Tag.n32 .none, .atom 0 0 (.sp 0) 0 .fadd true .rlx .gang false 0 Tag.f32 .none,
    .satom 0 0 (.sp 0) 1 .add false .rlx .gang 0 .none, .mqst 0 .occ 1 0], i.wf = false := by decide +kernel

/-- 15 R260, R261, 17 R289, R292: engine commands. -/
theorem test_wf_refuses_engine_forms : ∀ i ∈ [Instr.mma .b 0 0 0 16 false 5 ⟨.none, none⟩, .mma .l 0 8 0 16 false 5 ⟨.none, none⟩,
    .mma .l 0 0 0 3 false 5 ⟨.none, none⟩, .mma .l 0 0 0 14 false 5 ⟨.none, none⟩, .mma .l 0 0 0 22 false 5 ⟨.none, none⟩,
    .mma .l 0 0 0 16 false 3 ⟨.none, none⟩, .mma .l 0 0 0 16 false (32 + 5) ⟨.none, none⟩, .mma .g 0 0 0 16 false 5 ⟨.none, some 1⟩,
    .mvm 0 8 (.scal 0) 20 0 false 5 ⟨.none, none⟩, .mvm 0 0 (.scal 0) 20 3 false 5 ⟨.none, none⟩,
    .tld 0 (.sp 0) false 0 Tag.i32 ⟨.none, none⟩, .tzr 0 Tag.i32 ⟨.none, none⟩, .accz 0 Tag.n32 ⟨.none, none⟩, .accrd 0 0 .c16 8 ⟨.none, none⟩,
    .accwr 0 0 .c2 1 ⟨.none, none⟩, .qrd 0 0 17 Tag.i32], i.wf = false := by decide +kernel

/-! ### Single steps, with results worked out by hand from the rules -/

/-- R93: addition modulo 2^32; R11: a write to s0 is discarded; R15: the word is 4 bytes long. -/
theorem test_step_sadd : sreg (atScalar (s3 0 5 6 7 0) [(6, 0xFFFFFFFF), (7, 2)]) 5 = some 1 ∧
    sreg (atScalar (s3 0 0 6 7 0) [(6, 1), (7, 2)]) 0 = some 0 ∧
    after (atScalar (s3 0 5 6 7 0) []) (fun _ _ f => f.spc) = some 0x10004 := by decide +kernel
/-- R94: -7 / 2 truncates to -3 with remainder -1; division by zero gives all ones and the dividend. -/
theorem test_step_division : sreg (atScalar (s3 0 5 6 7 3) [(6, 0xFFFFFFF9), (7, 2)]) 5 = some 0xFFFFFFFD ∧
    sreg (atScalar (s3 0 5 6 7 4) [(6, 0xFFFFFFF9), (7, 2)]) 5 = some 0xFFFFFFFF ∧
    sreg (atScalar (s3 0 5 6 7 3) [(6, 9)]) 5 = some 0xFFFFFFFF ∧ sreg (atScalar (s3 0 5 6 7 4) [(6, 9)]) 5 = some 9 := by
  decide +kernel
/-- R93, R95: a count of 32 or more shifts everything out; SBFX of 8 bits from bit 4; SCLZ of 1; unsigned comparison. -/
theorem test_step_bits : sreg (atScalar (s3 0 5 6 7 0x0B) [(6, 0x80000000), (7, 40)]) 5 = some 0xFFFFFFFF ∧
    sreg (atScalar (s3 0 5 6 7 9) [(6, 1), (7, 32)]) 5 = some 0 ∧ sreg (atScalar (si 8 5 6 (7 * 32 + 4)) [(6, 0xABCD)]) 5 = some 0xBC ∧
    sreg (atScalar (s3 0 5 6 0 0x0E) [(6, 1)]) 5 = some 31 ∧
    sreg (atScalar (s3 0 5 6 7 0x1C) [(6, 1), (7, 0xFFFFFFFF)]) 5 = some 1 := by decide +kernel
/-- R96: SADDP carries from the low word of the pair into the high one. -/
theorem test_step_saddp : sreg (atScalar (s3 0 8 6 10 0x10) [(6, 0xFFFFFFFF), (10, 1)]) 9 = some 1 ∧
    sreg (atScalar (s3 0 8 6 10 0x10) [(6, 0xFFFFFFFF), (10, 1)]) 8 = some 0 := by decide +kernel
/-- R97: CALL by 10 words leaves the address after it in s62 and s63; a backward branch by 2 words is taken when its condition holds. -/
theorem test_step_control : after (atScalar 0xA400000A []) (fun _ g f => (f.spc, (g.copy 3).getPair 62)) = some (0x10028, 0x10004) ∧
    after (atScalar 0xAA0C4FFE [(3, 0xFFFFFFFF), (4, 0)]) (fun _ _ f => f.spc) = some 0xFFF8 ∧
    after (atScalar 0xAA0C4FFE [(3, 1), (4, 0)]) (fun _ _ f => f.spc) = some 0x10004 := by decide +kernel
/-- R98: MOP.ANDN of xm clears the bits that its register sets. -/
theorem test_step_mopAndn : after (atScalar 0x68030010 [(12, 0xFF00000F)]) (fun _ g _ => g.xm) = some 0x00FFFFF0 := by decide +kernel
/-- R103: SLD reads its four bytes, the first the lowest: here its own word. -/
theorem test_step_sld : sreg (atScalar (si 0x10 6 4 0) [(4, 0x10000)]) 6 = some (si 0x10 6 4 0) := by decide +kernel
/-- R106, 21 R335, R338: TRAP 0x2A enters the handler at THBASE with code 8, its argument in TVAL and the next word in TSPC. -/
theorem test_step_trap : after (here (atScalar 0xF0002A07 []) (kregsOf [(0, 0x20000)]) id)
    (fun _ g f => (f.spc, f.inHandler, (g.copy 0).kget 2, (g.copy 0).kget 3, (g.copy 0).kget64 4)) =
      some (0x20000, true, 8, 0x2A, 0x10004) := by decide +kernel
/-- R57, R335: a word that is no instruction enters the handler with code 1, itself in TVAL, and its own address in TSPC. -/
theorem test_step_illegal : after (here (atScalar 0x88000000 []) (kregsOf [(0, 0x20000)]) id)
    (fun _ g f => (f.spc, (g.copy 0).kget 2, (g.copy 0).kget 3, (g.copy 0).kget64 4)) =
      some (0x20000, 1, 0x88000000, 0x10000) := by decide +kernel
/-- R100: VRUN puts its clause at the end of the queue; R102: WAITF then waits, and its fragment stays. -/
theorem test_step_vrun : after (atScalar 0x82400140 []) (fun _ _ f => f.queue.map fun e => (e.off, e.guard)) = some [(0x140, some 2)] ∧
    after (here (atScalar 0x94000009 []) id fun f => { f with queue := [{}] }) (fun _ _ f => (f.spc, f.swait)) = some (0x10000, true) := by
  decide +kernel

/-- R117: VADD of I32 wraps, of 8-bit elements with SAT clamps each element (100 + 100 to 127). -/
theorem test_step_vadd : vreg (atLane (full 0x000 0 1 2 3 0 0 0 0 0 1 0 0) [(2, 5, 0x7FFFFFFF), (3, 5, 1)]) 1 5 = some 0x80000000 ∧
    vreg (atLane (full 0x000 0 1 2 3 0 0x04 0 0 0 12 0 0) [(2, 0, 0x64640000), (3, 0, 0x64010000)]) 1 0 = some 0x7F650000 := by
  decide +kernel
/-- R118, R119: a shift by 32 gives 0; VPRMB picks byte 5 of the pair and zeroes a selector of 8; VBFX with sign. -/
theorem test_step_lane_bits : vreg (atLane (full 0x008 0 1 2 3 0 0 0 0 0 0 0 0) [(2, 7, 0xFFFFFFFF), (3, 7, 32)]) 1 7 = some 0 ∧
    vreg (atLane (full 0x012 0 1 2 3 4 0 0 0 0 0 0 0) [(2, 0, 0x44332211), (3, 0, 0x8500), (4, 0, 0x88776655)]) 1 0 = some 0x00661111 ∧
    vreg (atLane (full 0x010 0 1 2 0 0 1 0 0 0 0 0 (3 * 32 + 4)) [(2, 0, 0x80)]) 1 0 = some 0xFFFFFFF8 := by decide +kernel
/-- R120: VCMP lt into xm leaves the bits of the lanes where it holds. -/
theorem test_step_vcmp : after (atLane (full 0x013 0 0 2 3 0 0x24 0 0 0 1 0 0) [(2, 3, 0xFFFFFFFF), (2, 9, 1)])
    (fun _ g _ => g.xm) = some 8 := by decide +kernel
/-- R124, R125, R43: 1 + 2^-24 rounds to even as 1, upward as the next number; FMIN of a NaN and 2 is 2. -/
theorem test_step_floats : vreg (atTagged Tag.f32 (full 0x020 0 1 2 3 0 0 0 0 0 3 0 0) [(2, 0, 0x3F800000), (3, 0, 0x33800000)]) 1 0 = some 0x3F800000 ∧
    vreg (atTagged Tag.f32 (full 0x020 0 1 2 3 0 0 0 0 0 3 2 0) [(2, 0, 0x3F800000), (3, 0, 0x33800000)]) 1 0 = some 0x3F800001 ∧
    vreg (atTagged Tag.f32 (full 0x024 0 1 2 3 0 0 0 0 0 3 0 0) [(2, 0, 0x7FC00001), (3, 0, 0x40000000)]) 1 0 = some 0x40000000 := by decide +kernel
/-- R127, R128: PADD of 1.5 and 0.5 in both halves; IDOT4 of (1, 2, 3, 4) and (1, 1, 1, -1) added to 10 is 12. -/
theorem test_step_packed : vreg (atTagged Tag.f16x2 (full 0x030 0 1 2 3 0 0 0 0 0 6 0 0) [(2, 0, 0x3E003E00), (3, 0, 0x38003800)]) 1 0 =
      some 0x40004000 ∧
    vreg (atLane (full 0x036 0 1 2 3 4 0 0 0 0 12 0 0) [(2, 0, 0x04030201), (3, 0, 0xFF010101), (4, 0, 10)]) 1 0 = some 12 := by
  decide +kernel
/-- R130: CVT of 300.0 to 8-bit integers with SAT is 127; the word holds four elements, from four registers. -/
theorem test_step_cvt : vreg (atTagged Tag.f32 (full 0x038 0 8 4 0 0 (32 + 12) 0 0 0 3 0 0)
    [(4, 0, 0x43960000), (5, 0, 0xC0000000), (6, 0, 0x3F800000)]) 8 0 = some 0x0001FE7F := by decide +kernel
/-- R162 to R166: QBC broadcasts lane 2 of the quad; VOTE BALLOT gathers the lanes; VRED adds the present rows; SHFL XOR 1 swaps neighbours. -/
theorem test_step_rows : vreg (atLane (full 0x081 0 1 2 0 0 2 0 0 0 0 0 0) [(2, 6, 77)]) 1 4 = some 77 ∧
    vreg (atLane (full 0x084 0 1 2 0 0 0 0 0 0 0 0 0) [(2, 0, 1), (2, 31, 5)]) 1 9 = some 0x80000001 ∧
    vreg (atLane (full 0x086 0 1 2 0 0 0 0 0 0 1 0 0) [(2, 0, 5), (2, 30, 0xFFFFFFFE)]) 1 17 = some 3 ∧
    vreg (atLane (full 0x085 0 1 2 0 0 0x0E 0 0 0 0 0 1) [(2, 8, 9)]) 1 9 = some 9 := by decide +kernel
/-- R123: VSPC LANE; R171: LEXIT takes the lanes of xm out of lm. -/
theorem test_step_vspc_lexit : vreg (atLane (full 0x018 0 1 0 0 0 0 0 0 0 0 0 0) []) 1 31 = some 31 ∧
    after (here (atLane (full 0x08D 0 0 0 0 0 0 0 0 0 0 0 0) []) (fun g => { g with xm := 0xF0 }) id) (fun _ g _ => g.lm) =
      some 0xFFFFFF0F := by decide +kernel
/-- R135: VLD of a word reads the bytes at its address, under its tag: here the item's own first bytes at 0x10044. -/
theorem test_step_vld : after (here (atLane (full 0x040 0 1 0 8 5 0x02 0 0 0 2 0 0x44) []) (regsOf [(8, 0x10000)]) fun f =>
      { f with entered := f.entered.map fun e => { e with cap := (List.range 4).map fun sl => (sl, [(8, 0x10000)]) } })
    (fun _ g _ => (g.vraw 1 0, g.tagOf 1)) = some (0x000044E0, Tag.n32) := by decide +kernel
/-- R289, R297: MFENCE of an empty batch gives its number 0 and opens the next. -/
theorem test_step_mfence : after (atLane (full 0x241 0 9 0 0 0 0 0 0 0 0 0 0) []) (fun _ g _ => (g.nextN, g.batches.map fun b => b.num)) =
    some (1, [0]) := by decide +kernel
/-- 03 R76, 21 R338: an item whose scope its entry does not list enters the handler with code 1 and the check in TVAL. -/
theorem test_step_illegal_item : after (here (atLane (full 0x080 1 1 2 0 0 3 0 0 0 0 0 0) []) (kregsOf [(0, 0x20000)]) id)
    (fun _ g f => (f.spc, (g.copy 0).kget 2, (g.copy 0).kget 3)) = some (0x20000, 1, 0x80000003) := by decide +kernel
/-- 26 R384, R388: a step of the device: a cool-down begins in WARM, and each clock moves station time. -/
theorem test_step_event : (match step { State.reset with turns := [[.event .cryocmdCool 0 0 0]] } with
    | .next t => (t.cryo, t.clk) == (Cryo.cooling, 1)
    | _ => false) = true := by decide +kernel

/-- 14 R247: SPST of a word puts its bytes into the block's scratchpad, the highest lane's last where lanes meet. -/
theorem test_step_spst : after ({ atLane (full 0x0C3 0 0 2 7 5 2 0 0 0 0 0 8) [(2, 31, 0x04030201), (2, 0, 9)] with
      blocks := [(0, some { gangs := [0], scratch := 16 })] })
    (fun t _ _ => (List.range 5).map fun i => Memory.read t.sp (spKey 0 (8 + i))) = some [1, 2, 3, 4, 0] := by decide +kernel

/-! ### For each statement with hypotheses, states and operands that meet them -/

/-- The current gang and fragment satisfy `P`. -/
abbrev Here (s : State) (P : Gang → Frag → Prop) : Prop := ∃ p ∈ s.cur, P p.1 p.2
/-- Agreement over the four slices. -/
theorem agree_iff {α : Type} {g : Gang} {f : Frag} {src : SliceCopy → α} :
    Agree g f src ↔ ∀ sl, sl < 4 → f.slices.getLsbD sl = true → src (g.copy sl) = src (g.low f) :=
  ⟨fun h sl _ => h sl, fun h sl hs => h sl (Nat.lt_of_not_le fun k => by simp [BitVec.getLsbD_of_ge _ _ k] at hs) hs⟩
/-- Every byte of an access is held in DRAM, as a test. -/
def heldInDram (s : State) (w : Who) (acc : Acc) (va n : Nat) : Bool :=
  (List.range n).all fun i => !localRange (va + i) && match s.xlate w acc ((va + i) % 2 ^ 64) with
    | .ok pa _ 0 _ vb size => decide (pa < dramEnd) && w.tlbs.all fun t => s.tlb.any fun e => e == (t, w.asid, vb, size, e.2.2.2.2)
    | _ => false
theorem heldInDram_iff {s : State} {w : Who} {acc : Acc} {va n : Nat} : HeldInDram s w acc va n ↔ heldInDram s w acc va n = true := by
  simp only [HeldInDram, heldInDram, Bool.and_eq_true, Bool.not_eq_true', List.all_eq_true, List.mem_range]
  refine forall_congr' fun i => imp_congr_right fun _ => and_congr_right fun _ => ?_
  have ex : ∀ (t vb size : Nat), (∃ l, (t, w.asid, vb, size, l) ∈ s.tlb) ↔ s.tlb.any (fun e => e == (t, w.asid, vb, size, e.2.2.2.2)) = true := by
    intro t vb size
    simp only [List.any_eq_true, beq_iff_eq]
    exact ⟨fun ⟨l, h⟩ => ⟨_, h, rfl⟩, fun ⟨e, h, k⟩ => ⟨e.2.2.2.2, k ▸ h⟩⟩
  constructor
  · rintro ⟨pa, ca, leaf, vb, size, h, k, m⟩
    rw [h]
    simp only [Bool.and_eq_true, decide_eq_true_eq, List.all_eq_true]
    exact ⟨k, fun t ht => (ex t vb size).1 (m t ht)⟩
  · intro h
    split at h
    · rename_i pa ca leaf vb size e
      simp only [Bool.and_eq_true, decide_eq_true_eq, List.all_eq_true] at h
      exact ⟨pa, ca, leaf, vb, size, e, h.1, fun t ht => (ex t vb size).2 (h.2 t ht)⟩
    · cases h
/-- About to issue a NOP. -/
abbrev scal (l : List (SReg × Word)) : State := atScalar 0xF0000000 l
/-- The same with its fragment changed. -/
abbrev scalF (x : Frag → Frag) : State := here (scal []) id x
/-- The placed page as one that may be written, under a lease of it. -/
def writable (s : State) : State :=
  { s with
    tlb := [0, 4000, 5000].flatMap fun t => s.tlb.map fun (e : Nat × Word × Nat × Nat × Dword) => (t, e.2.1, e.2.2.1, e.2.2.2.1, e.2.2.2.2 ||| 8#64)
    launches := [(0, (s.launch? 0).map fun (l : Launch) => { l with kd := { l.kd with leases := [(true, 0x10000, 0x10000)] } })] }
/-- A base in s4 and s5 that points to the placed page, and one in s6 and s7 that points nowhere. -/
abbrev atPage : List (SReg × Word) := [(4, 0x10000), (6, 0), (7, 1), (5, 0)]

theorem witness_ScalarArithmetic_and_Division : Here (scal []) fun _ f => f.free [0, 0, 0] = true ∧ f.free [63, 62, 1, 63] = true := by
  decide +kernel
theorem witness_ScalarWaitsForMarks : Here (scalF fun f => { f with marks := [{ reg := 5 }] }) fun _ f =>
    f.free [5, 6, 7] = false ∧ f.free [6, 5] = false ∧ f.free [1, 2, 3, 5] = false ∧ f.free [5] = false ∧ f.free [6, 4, 5] = false ∧
    userNone (0#8).toNat = false := by decide +kernel
theorem witness_ScalarMasks : Here (scal [(5, 1)]) fun g f => f.free [5] = true ∧ Agree g f (fun c => c.get 5) ∧
    (scal [(5, 1)]).traced g = false := by simp only [agree_iff]; decide +kernel
theorem witness_ScalarLoads : Here (scal atPage) fun g f => f.free [8, 9, 4, 5] = true ∧ f.free [8, 4, 5] = true ∧
    Agree g f (fun c => scalarAddr c 4 0) ∧ let s := scal atPage
    let va := scalarAddr (g.low f) 4 0
    s.chk (s.whoGang g) .load va 4 = .ok ∧ s.poisonAt (s.whoGang g) va 4 = none ∧ s.chk (s.whoGang g) .load va 8 = .ok ∧
    s.poisonAt (s.whoGang g) va 8 = none := by simp only [agree_iff]; decide +kernel
theorem witness_LoadsReadAndKeepMemory : Here (writable (scal [])) fun g _ => let s := writable (scal [])
    let s1 := s.installAll (s.whoGang g) .load 0x1FFF8 8
    let ps := (s1.paList (s.whoGang g) .load 0x1FFF8 8).map Prod.snd
    (∀ i, i < 8 → localRange (0x1FFF8 + i) = false) ∧ ps ≠ [] ∧ (∀ p ∈ ps, p.1 < dramEnd) ∧ (∀ p ∈ ps, p.2 ≠ 0) ∧
    (let s := { s with tlb := s.tlb.map fun (e : Nat × Word × Nat × Nat × Dword) => (e.1, e.2.1, e.2.2.1, e.2.2.2.1, 0x75) }
     let ps := ((s.installAll (s.whoGang g) .load 0x1FFF8 8).paList (s.whoGang g) .load 0x1FFF8 8).map Prod.snd
     ps ≠ [] ∧ ∀ p ∈ ps, p.2 = 0) := by decide +kernel
theorem witness_TranslationSetsOnlyA : (Xlate.ok 0x10000 0 0 placedLeaf 0x10000 0x10000 = .ok 0x10000 0 0 placedLeaf 0x10000 0x10000) ∧
    (0x8000 : Nat) ≠ 0 ∧ (0x75#64).getLsbD 6 = true ∧ (0x35#64).getLsbD 6 = false := by decide +kernel
theorem witness_ScalarStores : Here (writable (scal atPage)) fun g f => f.free [8, 9, 4, 5] = true ∧
    Agree g f (fun c => (scalarAddr c 4 0, (c.getPair 8).toNat)) ∧ let s := writable (scal atPage)
    let va := scalarAddr (g.low f) 4 0
    s.chk (s.whoGang g) .store va 4 = .ok ∧ s.chk (s.whoGang g) .store va 8 = .ok ∧ s.wouldHold g va (leOf 4 0) = false ∧
    (∀ i, i < 8 → localRange (va + i) = false) ∧
    ∀ p ∈ (s.installAll (s.whoGang g) .store va 8).paList (s.whoGang g) .store va 8, p.2.1 < dramEnd := by
  simp only [agree_iff]; decide +kernel
theorem witness_StoresTakeTheirPath : Here (writable (scal [])) fun g _ => let s := writable (scal [])
    let ps := (s.installAll (s.whoGang g) .store 0x1FFF8 8).paList (s.whoGang g) .store 0x1FFF8 8
    (∀ i, i < 8 → localRange (0x1FFF8 + i) = false) ∧ ps ≠ [] ∧ ∀ p ∈ ps, p.2.1 < dramEnd := by decide +kernel
theorem witness_StoreReachesL2 : let s := { scal [] with path := [(3, [(64, 1)]), (3, [(128, 2), (129, 3)])], subject := 1 }
    s.path[s.subject]? = some (3, [(128, 2), (129, 3)]) ∧
    ∀ x ∈ s.path.take s.subject, x.1 = 3 → ∀ c ∈ x.2, ∀ y ∈ [((128 : Nat), (2 : Byte)), (129, 3)], y.1 / 64 ≠ c.1 / 64 := by
  decide +kernel
theorem witness_ScalarControl : Here (scal []) fun _ f => f.free [62, 63] = true ∧ f.free [6, 7] = true ∧ f.free [5] = true ∧
    (5 : SReg) ≠ 0 := by decide +kernel
theorem witness_ControlRegisters : Here (scal [(5, 1)]) (fun g f => f.free [5] = true ∧ userNone (0#8).toNat = false ∧
      perSlice (0#8).toNat = true ∧ (0 : Byte) ≠ 25 ∧ perSlice (25#8).toNat = true ∧ perSlice (32#8).toNat = false ∧
      gangHeld (32#8).toNat = true ∧ perSlice (41#8).toNat = false ∧ gangHeld (41#8).toNat = false ∧ g.priv = false ∧
      Agree g f (fun c => c.get 5)) ∧
    Here (here (scal []) (fun g => { g with priv := true }) id) (fun g f => g.priv = true ∧ f.free [5] = true ∧
      (81 : Byte) ∈ ([42, 81, 82, 111] : List Byte) ∧ Agree g f (fun c => c.get 5)) := by
  simp only [agree_iff]; decide +kernel
theorem witness_ClausesEnqueue : Here (scal [(5, 0x40)]) (fun g f => f.queue.length < 8 ∧ f.free [5] = true ∧ Agree g f (fun c => c.get 5)) ∧
    Here (scalF fun f => { f with queue := List.replicate 7 {} }) (fun _ f => f.queue.length < 8) ∧
    Here (scalF fun f => { f with queue := List.replicate 8 {} }) (fun _ f => 8 ≤ f.queue.length) := by
  simp only [agree_iff]; decide +kernel
/-- A gang of two fragments. -/
def split (g : Gang) : Gang :=
  { g with frags := match g.frags with
      | f :: _ => [{ f with slices := 3 }, { f with slices := 12 }]
      | [] => [] }
theorem witness_GuardsSetAndClear : Here (scal [(5, 1)]) (fun g f => g.consumer 0 f 3 = false ∧ f.marked 5 = false) ∧
    Here (scalF fun f => { f with marks := [{ reg := 5 }] }) (fun g f => g.consumer 0 f 3 = false ∧ f.marked 5 = true) ∧
    Here (scalF fun f => { f with queue := [{ guard := some 3 }] }) (fun g f => g.consumer 0 f 3 = true) ∧
    (let x : Cmd := { id := 0, instr := .oprdy, mates := [{ gid := 0, lanes := 1, slices := 15 }], data := [], addr := 0, addr2 := 0, guard := some 3 }
     Here (here (scal []) (fun g => { g with mq := [x] }) id) fun g f => g.mq = [x] ∧ g.cq = [] ∧ g.rq = [] ∧ x.guard = some 3 ∧ x.mates ≠ [] ∧
      ∀ m ∈ x.mates, m.slices &&& ~~~f.slices = 0) := by decide +kernel
/-- A gang whose slot 3 waits for s5 below zero, over a fragment. -/
def guardS (x : Frag → Frag) : State := here (scal [(5, 0x80000000)]) (fun g => { g with copies := g.copies.map fun e =>
  (e.1, { e.2 with guards := [(3, { st := .unresolved, bound := some (5, .lt), before := 9 })] }) }) x
theorem witness_GuardsResolve : ∀ x ∈ [(fun (f : Frag) => f), fun f => { f with entered := some { id := 0, base := 0x10040, limit := 64, fa := 1, fb := 2, rem := 1 } },
      fun f => { f with queue := [{ guard := some 3 }] }], Here (guardS x)
    (fun g f => g.fragOf (lowSlice f.slices) = some f ∧ g.guardReady f 3 = true ∧ EnginesQuiet g ∧ f.slices.getLsbD 2 = true ∧
      (FMap.get (g.copy 2).guards 3).st = .unresolved ∧ (FMap.get (g.copy 2).guards 3).bound = some (5, .lt)) := by
  simp only [EnginesQuiet, List.forall_mem_cons]
  refine ⟨?_, ?_, ?_, fun _ h => absurd h List.not_mem_nil⟩ <;> decide +kernel
theorem witness_WaitsForLaneWork :
    Here (scal []) (fun g f => f.queue = [] ∧ f.entered = none ∧ f.marks = [] ∧
      ∀ n, n < 12 → ∀ sl, sl < 4 → FMap.get (g.copy sl).flags n = 0) ∧
    Here (scalF fun f => { f with queue := [{}] }) (fun _ f => ¬ (f.queue = [] ∧ f.entered = none)) ∧
    Here (here (scal []) (fun g => { g with copies := [(1, { flags := [(11, 2)] })] }) id)
      (fun g _ => ∃ sl, sl < 4 ∧ FMap.get (g.copy sl).flags 11 ≠ 0) := by decide +kernel
theorem witness_LaneWritesLand :
    let m : Mark := { reg := 5, issued := true, done := true, wr := some [(0, 7), (1, 8)] }
    (Here (scalF fun f => { f with marks := [m, { m with item := 1 }] }) fun g f => g.fragOf (lowSlice f.slices) = some f ∧
      f.firstMark 5 = some m ∧ g.canLand f 5 = true ∧ m.wr = some [(0, 7), (1, 8)] ∧
      ∀ n, n < 16 → (g.putFrag { f with marks := f.marks.erase m }).guardReady { f with marks := f.marks.erase m } n = false) ∧
    (Here (guardS fun f => { f with marks := [m] }) fun g f => g.fragOf (lowSlice f.slices) = some f ∧ EnginesQuiet g ∧
      f.firstMark 5 = some m ∧ g.canLand f 5 = true ∧
      (g.putFrag { f with marks := f.marks.erase m }).guardReady { f with marks := f.marks.erase m } 3 = true) := by
  simp only [EnginesQuiet]; decide +kernel
/-- A gang whose handler stands at 0x20000. -/
def handled (s : State) : State := here s (kregsOf [(0, 0x20000)]) id
/-- The same at a place outside its code. -/
def farAway : State := here (handled (scal [])) id fun f => { f with spc := 0x40000 }
theorem witness_ScalarTraps : Here (handled (scal [])) (fun g f => f.inHandler = false ∧ f.advance.inHandler = false ∧
      (g.low f).kget64 0 ≠ 0 ∧ g.priv = false ∧ userNone (68#8).toNat = true) ∧
    Here farAway (fun g f => f.inHandler = false ∧ (g.low f).kget64 0 ≠ 0 ∧ f.spc = 0x40000 ∧
      farAway.chk (farAway.whoGang g) .fetch f.spc.toNat 4 = .bad 10 0x40000) := by decide +kernel
theorem witness_TrapEntries : Here (handled (scal [])) (fun g f => f.inHandler = false ∧ (g.low f).kget64 0 ≠ 0 ∧ f.entered = none) ∧
    (2#4).toNat < 3 := by decide +kernel
theorem witness_TrapReturns : Here (here (scal []) (kregsOf [(4, 0x10004), (7, 0x11), (8, 0x40), (9, 0xC8000000)]) fun f => { f with inHandler := true })
    (fun g f => f.inHandler = true ∧ f.cancelled = none ∧ f.pend = none ∧ Agree g f SliceCopy.resumption ∧ g.ppSet f = false ∧
      ((g.low f).kget64 8).getLsbD 63 = true ∧ ((g.low f).kget 7).getLsbD 0 = true) := by simp only [agree_iff]; decide +kernel
theorem witness_PdoneYields :
    let ok := fun (g : Gang) (f : Frag) => f.inHandler = true ∧ f.entry = 7 ∧ f.cancelled = none ∧ g.mq = [] ∧ g.running = none ∧
      g.batches = [] ∧ (g.openB.getD {}).left = 0
    let h := fun (f : Frag) => { f with inHandler := true, entry := 7 }
    Here (scalF h) (fun g f => ok g f ∧ ∀ x ∈ g.frags, x.slices &&& f.slices = 0 → x.done = true) ∧
    Here (here (scal []) split h) (fun g f => ok g f ∧ ∃ x ∈ g.frags, x.slices &&& f.slices = 0 ∧ x.done = false) ∧
    Here (here (scal []) (kregsOf [(2, 0x8000)]) fun f => { f with inHandler := true }) (fun g f => f.inHandler = true ∧ g.ppSet f = true) := by
  decide +kernel
theorem witness_GendEnds :
    Here (scal []) (fun g f => f.cancelled = none ∧ (g.drained f && g.engineIdle) = true ∧ f.pend = none ∧ g.frags = [f] ∧ g.mq = []) ∧
    Here (here (scal []) split id) (fun g f => f.cancelled = none ∧ (g.drained f && g.engineIdle) = true ∧ f.pend = none ∧
      ∃ x ∈ g.frags, x.slices &&& f.slices = 0) ∧
    Here (scalF fun f => { f with queue := [{}] }) (fun g f => (g.drained f && g.engineIdle) = false) := by decide +kernel
theorem witness_ClauseEnters : let s := { scalF (fun f => { f with queue := [{ off := 0 }, {}] }) with
      mem := Memory.writeAt [] 0x10040 [0xF0, 0, 0, 0] }
    Here s fun g f => f.entered = none ∧ f.queue = { off := 0 } :: [{}] ∧ ({ off := 0 } : QEntry).guard = none ∧
      fetchGap (s.laneBytes g g.lcbase g.lcsize 0) g.lcsize.toNat 0 = none ∧
      readItem (s.laneBytes g g.lcbase g.lcsize 0) = .header 0 ∧ headerCheck 0 = none ∧ g.flagsClear f (hdrWait 0) = true := by
  decide +kernel

/-- `LaneReady`, as a test. -/
def laneReady (i : Instr) (s : State) (g : Gang) (f : Frag) (ts : List (Tag × List Nat)) : Bool :=
  s.cur == some (g, f) && overAlloc g.regs g.accs (s.tilesOf g) g.aw i == none && !f.laneStall i &&
    ts.all (fun p => p.2.all fun r => decide (g.busyV r = false → tagPass p.1 (g.tagOf r) = true)) && s.poisonSrc g f i == none
theorem laneReady_iff {i : Instr} {s : State} {g : Gang} {f : Frag} {ts : List (Tag × List Nat)} :
    LaneReady i s g f ts ↔ laneReady i s g f ts = true := by
  simp only [LaneReady, laneReady, Bool.and_eq_true, beq_iff_eq, Bool.not_eq_true', List.all_eq_true, decide_eq_true_eq, and_assoc]
/-- A lane item in issue, of any instruction: what the item is stands in its bytes, or is named by the witness. -/
abbrev lane : State := atLane (full 0x08D 0 0 0 0 0 0 0 0 0 0 0 0) []
/-- The same with its gang and fragment changed. -/
abbrev laneG (k : Gang → Gang) : State := here lane k id
abbrev laneF (x : Frag → Frag) : State := here lane id x
/-- Registers v1 to v9 with a tag, and two accumulators. -/
def tags (t : Tag) (g : Gang) : Gang := { g with vtag := (List.range 9).map fun n => (n + 1, t), accs := 2 }
/-- No lane takes part. -/
def noLanes (g : Gang) : Gang := { g with xm := 0 }

theorem witness_LaneArithmetic : (∀ c ∈ [Tag.i32, Tag.n32, Tag.i8x4, Tag.n8x4, Tag.i4x8, Tag.i3x10],
      Here (laneG (tags c)) fun g f => ∀ i ∈ [Instr.vadd 1 2 (.vec 3) c true, .vsub 1 1 (.scal 9) c false, .vmin 1 2 (.imm 5) c, .vmax 31 2 (.vec 3) c],
        LaneReady i (laneG (tags c)) g f [(c, [2, 3])]) ∧
    Here (laneG (tags Tag.i32)) (fun g f => LaneReady (.vabs 1 2 Tag.i32 true) (laneG (tags Tag.i32)) g f [(Tag.i32, [2])] ∧
      LaneReady (.vmul 1 2 (.vec 3) Tag.i32 true) (laneG (tags Tag.i32)) g f [(Tag.i32, [2, 3])] ∧
      LaneReady (.vmad 1 2 (.vec 3) 4 Tag.i32) (laneG (tags Tag.i32)) g f [(Tag.i32, [2, 3, 4])]) := by
  simp only [laneReady_iff]; decide +kernel
theorem witness_LaneBits_and_Moves : Here lane fun g f => ∀ i ∈ [Instr.vand 1 2 (.vec 3), .vsra 31 31 (.scal 63), .vclz 1 2, .vbfx 1 2 31 31 true,
    .vbfi 1 2 0 31, .vprmb 1 2 (.vec 3) 4, .vsel 1 2 (.imm 7) 3, .vmov 1 2, .vbcs 1 5 3, .vli 1 0 1 true, .vmovTos 5 2 31, .vspc 1 .lane],
    LaneReady i lane g f [] := by simp only [laneReady_iff]; decide +kernel
theorem witness_LaneMoves_of_blocks : Here lane fun g f => LaneReady (.vspc 1 .blkz) lane g f [] ∧ (lane.block? g.block).isSome = true ∧
    (lane.launch? g.launch).isSome = true := by simp only [laneReady_iff]; decide +kernel
theorem witness_LaneCompare : (∀ c ∈ [Tag.i32, Tag.n32, Tag.f32], Here (laneG (tags c)) fun g f =>
      ∀ d ∈ [CmpDst.vec 1, .xm, .hm], LaneReady (.vcmp d 2 (.vec 3) c .le) (laneG (tags c)) g f [(c, [2, 3])] ∧ (laneG (tags c)).traced g = false) ∧
    Here lane fun g f => Takes g f 31 ∧ ¬ Takes g f 32 := by simp only [laneReady_iff, Takes]; decide +kernel
theorem witness_LaneFloats : ∀ c ∈ [Tag.f32, Tag.f19], Here (laneG (tags c)) fun g f =>
    (∀ i ∈ [Instr.fadd 1 2 (.vec 3) c .rne, .fmin 1 2 (.vec 3) c, .ffma 1 2 (.vec 3) 4 c .rdn, .frnd 1 2 c .rup, .fcls 1 2 c,
      .fsqrt 1 2 .rtz, .frcp 1 2, .fcos 1 2], LaneReady i (laneG (tags c)) g f [(c, [2, 3, 4])]) := by
  simp only [laneReady_iff]; decide +kernel
theorem witness_FloatEdges : (f32v 0x3F800000).isNan = false ∧ 0x7F < 2 ^ (1 + Fmt.e5m2.e + Fmt.e5m2.m) ∧
    Fmt.f32.decode 0x7F800000 ≠ .nan ∧ Fmt.e5m2.decode 0 ≠ .nan := by decide +kernel
theorem witness_LanePacked : (∀ c ∈ [Tag.bf16x2, Tag.f16x2], Here (laneG (tags c)) fun g f =>
      ∀ i ∈ [Instr.padd 1 2 (.vec 3) c true .rne, .pmul 1 2 (.vec 3) c .rtz, .pfma 1 2 (.vec 3) 4 c true .rne, .pmin 1 2 (.vec 3) c],
        LaneReady i (laneG (tags c)) g f [(c, [2, 3, 4])]) ∧
    (let s := laneG fun g => { g with vtag := [(2, Tag.f16x2), (3, Tag.f16x2), (4, Tag.f32)] }
     Here s fun g f => LaneReady (.pdot2 1 2 (.vec 3) 4 Tag.f16x2 .rne) s g f [(Tag.f16x2, [2, 3]), (Tag.f32, [4])]) ∧
    (let s := laneG fun g => { g with vtag := [(2, Tag.i8x4), (3, Tag.n8x4)] }
     Here s fun g f => LaneReady (.idot4 1 2 (.vec 3) 4 Tag.i8x4 true true) s g f [(Tag.i8x4, [2]), (Tag.n8x4, [3])]) := by
  simp only [laneReady_iff]; decide +kernel
theorem witness_LaneConversions : Here (laneG (tags Tag.f32)) fun g f => let s := laneG (tags Tag.f32)
    LaneReady (.cvt 10 4 Tag.f32 12 true .rsr) s g f [(Tag.f32, span 4 (cvtSpans 3 12).1)] ∧
    LaneReady (.cvtp 11 4 Tag.f32 12 false 3 .rne) s g f [(Tag.f32, [4])] ∧ g.tagOf 11 = Tag.raw ∧
    (let s := laneG fun g => { g with vtag := (List.range 16).map fun n => (n, Tag.f32) }
     Here s fun g f => LaneReady (.cvth 20 0 11 false false .rne) s g f [(Tag.f32, span 0 16)]) := by
  simp only [laneReady_iff]; decide +kernel
theorem witness_LaneTags : let s := { lane with blocks := [(0, some { gangs := [0], tiles := 16 })] }
    Here s (fun g f => LaneReady (.tagw (.v 31) (.imm (64 + 7))) s g f [] ∧ vecTagOk (64 + 7) = true ∧ s.block? g.block = some { gangs := [0], tiles := 16 } ∧
      LaneReady (.tagw (.t 15) (.imm 16)) s g f [] ∧ tileTagOk 16 = true ∧ g.taking f ≠ 0 ∧ s.tileNamed { gangs := [0], tiles := 16 } 15 = false ∧
      LaneReady (.tagr 5 (.t 15)) s g f [] ∧ g.busyV (512 + 15) = false ∧ LaneReady (.tagr 5 (.v 3)) s g f []) ∧
    Here (laneG (tags Tag.i32)) (fun g f => LaneReady (.tagw (.a 1) (.imm Tag.i32)) (laneG (tags Tag.i32)) g f [] ∧ accTagOk Tag.i32 = true) := by
  simp only [laneReady_iff]; decide +kernel
theorem witness_LaneChecks : Here (handled lane) (fun g f => f.inHandler = false ∧ (g.low f).kget64 0 ≠ 0 ∧
      (overAlloc g.regs g.accs (lane.tilesOf g) g.aw (.fadd 32 2 (.vec 3) Tag.f32 .rne)).isSome = true ∧
      overAlloc g.regs g.accs (lane.tilesOf g) g.aw (.fadd 31 2 (.vec 3) Tag.f32 .rne) = none ∧
      f.laneStall (.fadd 31 2 (.vec 3) Tag.f32 .rne) = false ∧ [2, 3].find? (fun q => !g.busyV q && !tagPass Tag.f32 (g.tagOf q)) = some 2) ∧
    (let s := here (handled lane) (fun g => { tags Tag.f32 g with bad := [(32 * 3 + 7, true)] }) id
     Here s fun g f => s.poisonSrc g f (.fadd 31 2 (.vec 3) Tag.f32 .rne) = some 0 ∧ f.inHandler = false ∧ (g.low f).kget64 0 ≠ 0 ∧
      f.laneStall (.fadd 31 2 (.vec 3) Tag.f32 .rne) = false ∧ ∀ q ∈ [2, 3], g.busyV q = false → tagPass Tag.f32 (g.tagOf q) = true) := by
  decide +kernel
/-- A fragment with captured scalar registers. -/
def capped (l : List (Nat × Word)) (f : Frag) : Frag :=
  { f with entered := f.entered.map fun e => { e with cap := (List.range 4).map fun sl => (sl, l) } }
/-- A lane item over the writable page, with its base in s8 and s9, and a block with a scratchpad of 4 KiB and 16 tiles. -/
def laneP : State := { here (writable lane) (tags Tag.i32) (capped [(8, 0x10000)]) with
  blocks := [(0, some { gangs := [0], scratch := 4096, tiles := 16 })] }
/-- The same with its gang and fragment changed. -/
abbrev lanePG (k : Gang → Gang) : State := here laneP k id
abbrev lanePF (x : Frag → Frag) : State := here laneP id x

theorem witness_LaneLoads : Here laneP fun g f => LaneReady (.vld 1 8 0 .dword false 0 false 8 Tag.i32 .a) laneP g f [] ∧
    LaneReady (.vldx 16 8 0 .x8 0 false true 8 Tag.f32 .none) laneP g f [] ∧ g.flagStall f .a = false ∧ g.flagStall f .none = false ∧
    f.boundFlag .a = some 1 ∧ f.boundFlag .none = none ∧
    ∀ na ∈ [false, true],
      let l := g.definite 0 (fun va => laneP.chk (laneP.whoGang g) .load va 32) (laneP.loadBad g 32) (globAddrs laneP.clk g f (g.taking f) 8 0 false 0 8)
      l.length = 32 ∧ (∀ e ∈ l, laneP.chk (laneP.whoGang g) .load e.2 32 = .ok ∧ laneP.poisonAt (laneP.whoGang g) e.2 32 = none) ∧
      (loadLanes laneP g na 32 l).2.cur = some (g, f) := by simp only [laneReady_iff]; decide +kernel
theorem witness_LaneStores : Here laneP fun g f => LaneReady (.vst 1 8 0 .dword 0 false 8 .a) laneP g f [] ∧
    LaneReady (.vstx 16 8 0 .x8 0 false 8 .none) laneP g f [] ∧ g.flagStall f .a = false ∧ g.flagStall f .none = false ∧
    laneP.opHolds laneP.gang laneP.nextOp = 0 ∧
    ∀ e ∈ g.definite 0 (fun va => laneP.chk (laneP.whoGang g) .store va 32) noBad (globAddrs laneP.clk g f (g.storing f) 8 0 false 0 8),
      laneP.chk (laneP.whoGang g) .store e.2 32 = .ok ∧ HeldInDram laneP (laneP.whoGang g) .store e.2 32 := by
  simp only [laneReady_iff, heldInDram_iff]; decide +kernel
theorem witness_Scratchpads : Here laneP fun g f => LaneReady (.spld 1 10 0 .word false 0 false none 4092 Tag.i32 .a) laneP g f [] ∧
    LaneReady (.spst 1 10 0 .word 0 false none 4092 .none) laneP g f [] ∧ g.flagStall f .a = false ∧ g.flagStall f .none = false ∧
    laneP.spTarget g none = laneP.block? g.block ∧ (laneP.block? g.block).map (fun b => b.scratch) = some 4096 ∧
    ∀ e ∈ g.definite 0 (spChk (laneP.block? g.block) 4) (laneP.spBad (laneP.block? g.block) 4) (spAddrs laneP.clk g f (g.taking f) 10 0 false 0 4092),
      e.2 + 4 ≤ 4096 ∧ laneP.spBad (laneP.block? g.block) 4 e.2 = none := by
  simp only [laneReady_iff]; decide +kernel
theorem witness_FlaggedOperationsComplete :
    let o : AsyncOp := { id := 7, slices := 15, flag := some 11, vw := [(96, 5), (97, 6), (128, 7)], tags := [(3, Tag.i32), (4, Tag.n32)] }
    Here (laneG fun g => { g with asyncs := [{ o with id := 6, vw := [], tags := [] }, o] }) fun g _ => o ∈ g.asyncs ∧
      (∀ x ∈ g.asyncs, x.id = o.id → x = o) ∧ o.hold = 0 ∧ o.flag = some 11 ∧ g.desched = false ∧ (∀ p ∈ o.tags, p.1 ∉ g.clash) ∧
      (o.vw.map Prod.fst).Nodup ∧ (o.tags.map Prod.fst).Nodup ∧
      (∀ p ∈ o.tags, { g with asyncs := g.asyncs.filter fun x => x.id != o.id }.busyV p.1 = false) ∧
      (∀ e ∈ o.vw, ∃ p ∈ o.tags, p.1 = e.1 / 32) ∧ ∀ p ∈ o.tags, ∃ e ∈ o.vw, p.1 = e.1 / 32 := by decide +kernel
theorem witness_MemoryFaultsTrap : let s := handled laneP
    Here s (fun g f => LaneReady (.vld 1 10 0 .word false 0 false 0 Tag.i32 .a) s g f [] ∧ g.flagStall f .a = false ∧
      firstBad (fun a => s.chk (s.whoGang g) .load a 4) (globAddrs s.clk g f (g.taking f) 10 0 false 0 0) = some (0, .bad 10 0) ∧
      LaneReady (.vst 1 10 0 .word 0 false 0 .a) s g f [] ∧
      firstBad (fun a => s.chk (s.whoGang g) .store a 4) (globAddrs s.clk g f (g.storing f) 10 0 false 0 0) = some (0, .bad 10 0) ∧
      f.free [5, 10, 11] = true ∧ Agree g f (fun k => scalarAddr k 10 0) ∧
      s.chk (s.whoGang g) .load (scalarAddr (g.low f) 10 0) 4 = .bad 10 0 ∧ leaseOk (s.whoGang g).leases .load 0 = false) ∧
    Here (here s (fun g => { g with copies := (List.range 4).map fun sl => (sl, { k := [(0, 0x20000)], flags := [(1, 255)] }) }) id) (fun g f => g.flagStall f .a = true) ∧
    leaseOk none .load (2 ^ 56) = true := by simp only [laneReady_iff, agree_iff]; decide +kernel
theorem witness_AtomicsAtTheL2 : Here laneP fun g _ => let w := laneP.whoGang g
    let pa := byteAt laneP w .store 0x1FFF8 0
    HeldInDram laneP w .store 0x1FFF8 8 ∧ 0x1FFF8 < 2 ^ 56 ∧ pa % 8 = 0 ∧ pa + 8 ≤ dramEnd ∧
    (∀ e ∈ laneP.path, e.1 = g.core → ∀ c ∈ e.2, c.1 / 64 ≠ pa / 64) := by simp only [heldInDram_iff]; decide +kernel
theorem witness_Atomics : Here laneP fun g f =>
    LaneReady (.atom 10 2 (.glob 8) 0 .cas false .acqrel .device false 0 Tag.i32 .a) laneP g f [(Tag.i32, span 2 (atomData .cas false))] ∧
    g.flagStall f .a = false ∧ ordRel .acqrel = true ∧ laneP.remotePending .device = false ∧
    (let l := g.definite 0 (laneP.chkAtom (laneP.whoGang g) true 4) (laneP.loadBad g 4) (globAddrs laneP.clk g f (g.storing f) 8 0 false 0 0)
     (∀ e ∈ l, laneP.chkAtom (laneP.whoGang g) true 4 e.2 = .ok ∧ laneP.poisonAt (laneP.whoGang g) e.2 4 = none) ∧
     let done := l.foldl (fun (p : List (Nat × Nat) × State) e =>
       let q := p.2.atomGlob g e.2 4 .cas (laneData laneP.clk g 2 4 e.1) (laneData laneP.clk g 3 4 e.1)
       (p.1 ++ [(e.1, q.1)], q.2)) ([], laneP.release g.core .device)
     (done.2.acquire g.core .device).cur = some (g, f)) ∧
    LaneReady (.satom 5 6 (.sp 10) 0 .add false .rlx .gang 4092 .none) laneP g f [] ∧ g.storing f ≠ 0 ∧ (laneP.block? g.block).isSome = true ∧
    spAddr (f.captured (g.actSlice f) 10) 0 4092 = 4092 ∧ laneP.spBad (laneP.block? g.block) 4 4092 = none := by simp only [laneReady_iff]; decide +kernel
theorem witness_Fences : let s := { lane with path := [(0, [(64, 1)]), (1, [(128, 2)])] }
    Here s fun g f => (∀ k ∈ [FenceKind.acq, .rel, .full], ∀ m ∈ [MScope.gang, .block, .cluster, .system], LaneReady (.fence k m) s g f [] ∧
      s.remotePending m = false) ∧ wideScope .gang = false ∧ wideScope .cluster = true ∧ pathByte 0 64 s.path ≠ none ∧
      pathByte 0 128 s.path = none := by simp only [laneReady_iff]; decide +kernel
theorem witness_Fences_waiting : let s := { lane with remote := [{ gang := some 0 }] }
    Here s fun g f => LaneReady (.fence .rel .system) s g f [] ∧ s.remotePending .system = true := by
  simp only [laneReady_iff]; decide +kernel
theorem witness_WaitsOnMemory : let i := Instr.waita 5 6 (.sp 10) true .block 1
    let ad := fun (g : Gang) (f : Frag) => spAddr (f.captured (g.actSlice f) 10) 0 0
    let x := fun (s : State) (g : Gang) (f : Frag) => BitVec.ofNat 32 (leVal ((List.range 4).map fun k => Memory.read s.sp (spKey 0 (ad g f) + k)))
    let ok := fun (s : State) (g : Gang) (f : Frag) => LaneReady i s g f [] ∧ g.taking f ≠ 0 ∧ (s.block? g.block).isSome = true ∧
      ad g f % 4 = 0 ∧ ad g f + 4 ≤ 4096 ∧ s.spBad (s.block? g.block) 4 (ad g f) = none
    Here laneP (fun g f => ok laneP g f ∧ f.lwait = .none ∧ x laneP g f = f.captured (g.actSlice f) 6) ∧
    (let s := { laneP with sp := Memory.writeAt [] (spKey 0 0) [1, 2, 3, 4] }
     Here s (fun g f => ok s g f ∧ f.lwait = .none ∧ x s g f ≠ f.captured (g.actSlice f) 6)) ∧
    (let s := { here (atLane (full 0x0C7 0 5 6 10 0 0x07 0 0 0 0 0 1) []) id fun f => { f with lwait := .waita 3 } with
        blocks := [(0, some { gangs := [0], scratch := 4096 })], clk := 259 }
     Here s (fun g f => ok s g f ∧ f.lwait = .waita 3 ∧ (s.itemAt g f).map Prod.fst = some (.waita 5 6 (.sp 10) true .block 1) ∧
      256 * 1 ≤ s.clk - 3)) := by
  simp only [laneReady_iff]; decide +kernel
/-- The lane machine with queue 2 of core 0 enabled for block 0, with 4 entries of 16 bytes at offset 256, and some credits for it. -/
def mqState (m : MsgQueue) (n : Nat) : State :=
  { laneP with cores := [(0, { mqs := [(2, { m with cfg := 0x800C0010, owner := some 0 })], credits := [(2, n)] })] }
/-- Its queue. -/
def mqOf (m : MsgQueue) : MsgQueue := FMap.get ((mqState m 0).core 0).mqs 2
theorem witness_Messages_send : ∀ n ∈ [0, 1], Here (mqState {} n) fun g f => LaneReady (.msend 1 (.imm 0 2) .s16 .a) (mqState {} n) g f [] ∧
    g.flagStall f .a = false ∧ g.storing f ≠ 0 ∧ ((mqState {} n).reachBlock g 0).isSome = true ∧
    FMap.get ((mqState {} n).core g.core).credits 2 = n := by simp only [laneReady_iff]; decide +kernel
theorem witness_Messages_arrive : let m := mqOf { arrived := [{ pos := 1 }, { bytes := List.replicate 16 7 }], tail := 0xFFFF }
    firstEntry m.arrived = some { bytes := List.replicate 16 7 } ∧ mqEn m.cfg = true ∧ m.owner = some 0 ∧ (laneP.block? 0).isSome = true := by
  decide +kernel
/-- What an MRECV of queue 2 needs. -/
def receives (m : MsgQueue) : Prop := Here (mqState m 0) fun g f => LaneReady (.mrecv 1 5 .s16 true 2 Tag.f32 .none) (mqState m 0) g f [] ∧
  LaneReady (.mrecv 1 5 .s16 false 2 Tag.f32 .none) (mqState m 0) g f [] ∧ g.flagStall f .none = false ∧ g.taking f ≠ 0 ∧
  mqEn (FMap.get ((mqState m 0).core g.core).mqs 2).cfg = true ∧ (FMap.get ((mqState m 0).core g.core).mqs 2).owner = some g.block
theorem witness_Messages_receive : (laneP.spBad (laneP.block? 0) 16 (mqBase 0x800C0010) = none) ∧ receives { tail := 1 } ∧ (mqOf { tail := 1 }).head ≠ (mqOf { tail := 1 }).tail ∧
    receives { tail := 1, head := 1 } ∧ (mqOf { tail := 1, head := 1 }).head = (mqOf { tail := 1, head := 1 }).tail := by
  simp only [receives, laneReady_iff]; decide +kernel
theorem witness_Messages_status : Here laneP (fun g f => LaneReady (.mqst 5 .occ 0 2) laneP g f [] ∧ LaneReady (.mqst 5 .cred 7 2) laneP g f []) ∧
    (laneP.gang? 0).isSome = true ∧ (laneP.block? 0).map (fun b => b.core) = some 0 ∧ mqEn (FMap.get (laneP.core 0).mqs 2).cfg = false ∧
    mqEn 0x80FC0000 = true ∧ mqEsz 0x80FC0000 ≤ 4 ∧ mqBase 0x80FC0000 + mqCount 0x80FC0000 * 2 ^ (4 + mqEsz 0x80FC0000) ≤ 4096 := by
  simp only [laneReady_iff]; decide +kernel
theorem witness_HintsAndMaintenance : Here (here laneP id (capped [(8, 0x10000), (10, 64)])) fun g f =>
    let s := here laneP id (capped [(8, 0x10000), (10, 64)])
    (∀ i ∈ [Instr.pref 8 0 .l1 0 false 0, .cmaintL1inv 10 8 .a, .cmaintWb 10 8 .a, .cmaintWbinv 10 8 .a, .cmaintIcinv 10 8 .a, .cmaintTlbinv 10 8 .a,
      .cmaintTlbctx .a], LaneReady i s g f []) ∧ g.flagStall f .a = false ∧ g.taking f ≠ 0 ∧ (f.captured (g.actSlice f) 10).toNat ≠ 0 ∧
    s.dirtyBase = 0 ∧ inParts (s.maintParts (s.whoGang g) 0x10000 0x10040).1 0x400 = true := by
  simp only [laneReady_iff]; decide +kernel
theorem witness_Quads : ∀ c ∈ [Tag.f32, Tag.f19], Here (laneG (tags c)) fun g f =>
    ∀ i ∈ [Instr.qxch 1 2 3, .qbc 1 2 3, .qddx 1 2 true c .rne, .qddy 1 2 false c .rne], LaneReady i (laneG (tags c)) g f [(c, [2])] := by
  simp only [laneReady_iff]; decide +kernel

/-- Fragments stand in the order of their lowest slices. -/
abbrev inOrder (fs : List Frag) : Prop := fs.Pairwise fun a b => lowSlice a.slices ≤ lowSlice b.slices
theorem sorted_frags {fs : List Frag} (h : inOrder fs) :
    (fs.mergeSort fun a b => decide (lowSlice a.slices ≤ lowSlice b.slices)) = fs :=
  List.mergeSort_of_pairwise (h.imp fun h => by simpa using h)
/-- The block's parties, where its gangs and their fragments stand in order. -/
theorem parties_b {s : State} {gid : Nat} {g : Gang} {blk : List (Nat × Gang)}
    (hb : (((s.block? g.block).getD {}).gangs.filterMap fun i => (s.gang? i).map fun x => (i, x)) = blk)
    (hs : blk.Pairwise fun a b => a.2.idx ≤ b.2.idx) (ho : ∀ p ∈ blk, inOrder p.2.frags) :
    s.parties .b gid g = (blk.filter fun p => !p.2.frags.isEmpty).map fun p => ⟨p.1, p.2.idx, p.2, p.2.frags⟩ := by
  have hm := List.mergeSort_of_pairwise (le := fun (a b : Nat × Gang) => decide (a.2.idx ≤ b.2.idx)) (hs.imp fun h => by simpa using h)
  simp only [State.parties, hb, hm]
  exact List.map_congr_left fun p hp => by rw [sorted_frags (ho p ((List.mem_filter.1 hp).1))]
/-- A gang's one party, likewise. -/
theorem parties_g {s : State} {gid : Nat} {g : Gang} (ho : inOrder g.frags) : s.parties .g gid g = [⟨gid, 0, g, g.frags⟩] := by
  simp only [State.parties, sorted_frags ho]
/-- The set's parties, likewise. -/
theorem parties_s {s : State} {gid : Nat} {g : Gang} {blk : List (Nat × Gang)}
    (hb : (((s.block? g.block).getD {}).gangs.filterMap fun i => (s.gang? i).map fun x => (i, x)) = blk)
    (hs : blk.Pairwise fun a b => a.2.idx ≤ b.2.idx) (ho : ∀ p ∈ blk, inOrder p.2.frags) :
    s.parties .s gid g = (blk.filter fun p => !p.2.frags.isEmpty && p.2.idx / max 1 (s.setSize g) == g.idx / max 1 (s.setSize g)).map
      fun p => ⟨p.1, p.2.idx % max 1 (s.setSize g), p.2, p.2.frags⟩ := by
  have hm := List.mergeSort_of_pairwise (le := fun (a b : Nat × Gang) => decide (a.2.idx ≤ b.2.idx)) (hs.imp fun h => by simpa using h)
  simp only [State.parties, hb, hm]
  exact List.map_congr_left fun p hp => by rw [sorted_frags (ho p ((List.mem_filter.1 hp).1))]

/-- The members of a scoped item, where every condition that `Gathers` names holds; sorted members need no sorting. -/
def gathered (s : State) (g : Gang) (f : Frag) (sc : Scope) : Option (List Party) :=
  let g1 := g.putFrag (f.arrive s.clk)
  let s1 := s.updGang s.gang g1
  let live := fun (p : Nat × Gang) => !p.2.frags.isEmpty
  let blk : List (Nat × Gang) := ((s1.block? g1.block).getD {}).gangs.filterMap fun i => (s1.gang? i).map fun x => (i, x)
  let ps : List Party := match sc with
    | .l => [⟨s.gang, 0, g, [f]⟩]
    | .g => [⟨s.gang, 0, g1, g1.frags⟩]
    | .s => (blk.filter fun p => live p && p.2.idx / max 1 (s1.setSize g1) == g1.idx / max 1 (s1.setSize g1)).map fun p =>
        ⟨p.1, p.2.idx % max 1 (s1.setSize g1), p.2, p.2.frags⟩
    | .b => (blk.filter live).map fun p => ⟨p.1, p.2.idx, p.2, p.2.frags⟩
  if decide (blk.Pairwise fun (a b : Nat × Gang) => a.2.idx ≤ b.2.idx) && decide (inOrder g1.frags ∧ ∀ p ∈ blk, inOrder p.2.frags) &&
    decide (sc = .s → s.setSize g ≠ 0) &&
    decide (∃ p ∈ ps, p.gid = s.gang) && decide (ps.map fun (p : Party) => p.gid).Nodup &&
    decide (∀ p ∈ ps, p.g.exiting = 0 ∧ p.g.block = g.block ∧ p.fs.Pairwise (fun (a b : Frag) => a.slices &&& b.slices = 0) ∧
      ∀ x ∈ p.fs, x.slices ≠ 0) &&
    decide (sc ≠ .l → ∀ p ∈ ps, p.arrived = true ∧ s.cgHeld p.g = false ∧ (s.launch? p.g.launch).all (fun (l : Launch) => !l.cancelled) = true ∧
      ∀ x ∈ p.fs, x.lpc = f.lpc)
  then some ps else none
theorem gathers_of_gathered {s : State} {g : Gang} {f : Frag} {sc : Scope} {ps : List Party} (h : ps ∈ gathered s g f sc) :
    Gathers s g f sc ps := by
  simp only [gathered, Option.mem_def, Option.ite_none_right_eq_some, Option.some.injEq, Bool.and_eq_true, decide_eq_true_eq] at h
  obtain ⟨⟨⟨⟨⟨⟨⟨hs, ho⟩, h1⟩, h2⟩, h3⟩, h4⟩, h5⟩, rfl⟩ := h
  refine ⟨?_, h1, h2, h3, h4, fun hl p hp => ⟨(h5 hl p hp).1, (h5 hl p hp).2.1, fun l e => ?_, (h5 hl p hp).2.2.2⟩⟩
  · cases sc
    · simp
    · rw [if_neg (by decide), parties_g ho.1]
    · rw [if_neg (by decide), parties_s rfl hs ho.2]
    · rw [if_neg (by decide), parties_b rfl hs ho.2]
  · have := (h5 hl p hp).2.2.1
    rw [e] at this
    simpa using this
/-- Two gangs of one block and one set, the other already at its rendezvous. -/
def pairS : State :=
  match lane.gang? 0 with
  | some g => { lane with
      gangs := [(0, some g), (1, some { g with idx := 1, frags := g.frags.map fun (f : Frag) => { f with lwait := .rendezvous 0 } })]
      blocks := [(0, some { gangs := [0, 1], setSize := 2 })] }
  | none => lane
/-- One gang of two fragments, the other already at its rendezvous. -/
def splitS : State :=
  here lane (fun g => { split g with frags := (split g).frags.map fun (f : Frag) => if f.slices = 12 then { f with lwait := .rendezvous 0 } else f }) id
theorem here_mono {s : State} {P Q : Gang → Frag → Prop} (h : ∀ g f, P g f → Q g f) : Here s P → Here s Q := by
  rintro ⟨p, hp, hP⟩
  exact ⟨p, hp, h _ _ hP⟩
theorem witness_RowResults : ∀ x ∈ [(lane, Scope.l, 1), (splitS, .g, 1), (pairS, .s, 2), (pairS, .b, 2)], Here x.1 fun g f =>
    (∀ i ∈ [Instr.vote x.2.1 (.vec 1) 2 .any, .vote x.2.1 (.scal 5 false) 2 .all, .shfl x.2.1 1 2 (.vec 3) .xor, .bar x.2.1],
      LaneReady i x.1 g f []) ∧
    LaneReady (.vred x.2.1 (.vec 1) 2 .add Tag.i32 .rne) x.1 g f [(Tag.i32, [2])] ∧
    ∃ ps, Gathers x.1 g f x.2.1 ps ∧ ps.length = x.2.2 ∧ ∀ p ∈ ps, tagPass Tag.i32 (p.g.tagOf 2) = true := by
  have h : ∀ x ∈ [(lane, Scope.l, 1), (splitS, .g, 1), (pairS, .s, 2), (pairS, .b, 2)], Here x.1 fun g f =>
      ((∀ i ∈ [Instr.vote x.2.1 (.vec 1) 2 .any, .vote x.2.1 (.scal 5 false) 2 .all, .shfl x.2.1 1 2 (.vec 3) .xor, .bar x.2.1],
        laneReady i x.1 g f [] = true) ∧ laneReady (.vred x.2.1 (.vec 1) 2 .add Tag.i32 .rne) x.1 g f [(Tag.i32, [2])] = true) ∧
      ∃ ps ∈ gathered x.1 g f x.2.1, ps.length = x.2.2 ∧ ∀ p ∈ ps, tagPass Tag.i32 (p.g.tagOf 2) = true := by decide +kernel
  simp only [laneReady_iff]
  refine fun x hx => here_mono ?_ (h x hx)
  rintro g f ⟨⟨h1, h2⟩, ps, h3, h4⟩
  exact ⟨h1, h2, ps, gathers_of_gathered h3, h4⟩
theorem witness_RowFunctions : let rows := [((0 : Nat), (5 : Word)), (3, 7), (31, 9)]
    Tag.i32 ∈ [Tag.i32, Tag.n32] ∧ rows.Pairwise (fun x y => x.1 < y.1) ∧ (∀ e ∈ rows, e.1 < 2 ^ 5) ∧ rows ≠ [] ∧ rows[2]? = some (31, 9) := by
  decide +kernel
theorem witness_BarriersAndSets : Here (laneG split) fun g f => f.atRdv = false ∧ Scope.g ≠ .l ∧ LaneReady (.bar .g) (laneG split) g f [] ∧
    LaneReady (.vred .g (.vec 1) 2 .add Tag.i32 .rne) (laneG split) g f [(Tag.i32, [2])] ∧
    ∃ q ∈ ((laneG split).updGang 0 (g.putFrag (f.arrive 0))).parties .g 0 (g.putFrag (f.arrive 0)), q.arrived = false := by
  have h : Here (laneG split) fun g f => (f.atRdv = false ∧ Scope.g ≠ .l ∧ laneReady (.bar .g) (laneG split) g f [] = true ∧
      laneReady (.vred .g (.vec 1) 2 .add Tag.i32 .rne) (laneG split) g f [(Tag.i32, [2])] = true) ∧ inOrder (g.putFrag (f.arrive 0)).frags ∧
      (Party.mk 0 0 (g.putFrag (f.arrive 0)) (g.putFrag (f.arrive 0)).frags).arrived = false := by decide +kernel
  simp only [laneReady_iff]
  refine here_mono ?_ h
  rintro g f ⟨⟨h1, h2, h3, h4⟩, ho, ha⟩
  exact ⟨h1, h2, h3, h4, _, by rw [parties_g ho]; exact List.mem_singleton.2 rfl, ha⟩
/-- A fragment that waits at a rendezvous over an item. -/
abbrev waitsAt (bs : List Byte) : State := { here (atLane bs []) split fun f => if f.slices = 3 then { f with lwait := .rendezvous 2 } else f with clk := 100 }
theorem witness_RendezvousSteps :
    Here (waitsAt (full 0x088 1 0 0 0 0 0 0 0 0 0 0 0)) (fun g f => f.lwait = .rendezvous 2 ∧
      (waitsAt (full 0x088 1 0 0 0 0 0 0 0 0 0 0 0)).itemAt g f = some (.bar .g, 13)) ∧
    Here (waitsAt (full 0x084 1 1 2 0 0 0 0 0 0 0 0 0)) (fun g f => f.lwait = .rendezvous 2 ∧
      (waitsAt (full 0x084 1 1 2 0 0 0 0 0 0 0 0 0)).itemAt g f = some (.vote .g (.vec 1) 2 .ballot, 13)) ∧
    Here (waitsAt (full 0x08C 1 0 0 0 0 0 0 0 0 0 0 0)) (fun g f => f.lwait = .rendezvous 2 ∧
      (waitsAt (full 0x08C 1 0 0 0 0 0 0 0 0 0 0 0)).itemAt g f = some (.regang, 13)) ∧
    Here lane (fun _ f => f.atRdv = false) := by decide +kernel
/-- The same with a rendezvous limit of 98 clocks and a handler. -/
def lateS : State := here (waitsAt (full 0x088 1 0 0 0 0 0 0 0 0 0 0 0)) (kregsOf [(0, 0x20000), (24, 98)]) id
theorem witness_RendezvousSteps_late : Here lateS fun g f => f.lwait = .rendezvous 2 ∧ ((g.low f).kget 24).toNat ≠ 0 ∧
    2 + ((g.low f).kget 24).toNat ≤ lateS.clk ∧ lateS.rdvReady g f = false ∧ f.inHandler = false ∧ (g.low f).kget64 0 ≠ 0 := by
  have h : Here lateS fun g f => (f.lwait = .rendezvous 2 ∧ ((g.low f).kget 24).toNat ≠ 0 ∧ 2 + ((g.low f).kget 24).toNat ≤ lateS.clk ∧
      f.inHandler = false ∧ (g.low f).kget64 0 ≠ 0) ∧ lateS.itemAt g f = some (.bar .g, 13) ∧ inOrder g.frags ∧
      (Party.mk lateS.gang 0 g g.frags).arrived = false := by decide +kernel
  refine here_mono ?_ h
  rintro g f ⟨⟨h1, h2, h3, h4, h5⟩, hi, ho, ha⟩
  refine ⟨h1, h2, h3, ?_, h4, h5⟩
  simp [State.rdvReady, hi, scopeOf, parties_g ho, ha]
/-- What every part of `Claims.FragmentsMerge` asks of a gang. -/
def mergeable (g : Gang) (f : Frag) : Prop := g.exiting = 0 ∧ g.frags.Pairwise (fun x y => x.slices &&& y.slices = 0) ∧
  ∀ x ∈ g.frags, x.slices ≠ 0 ∧ x.itemLen = f.itemLen
/-- One gang of two fragments, both at one REGANG. -/
def bothAtRdv : State := here (laneG split) id fun f => { f with lwait := .rendezvous 0 }
theorem witness_FragmentsMerge :
    Here (here (scal []) split id) (fun g f => mergeable g f ∧ 1 < (g.frags.filter fun x => x.slices == f.slices || g.meets f x).length) ∧
    Here (scal []) (fun g f => mergeable g f ∧ (g.frags.filter fun x => x.slices == f.slices || g.meets f x).length ≤ 1) ∧
    Here lane (fun g f => mergeable g f ∧ LaneReady .regang lane g f [] ∧ g.frags = [f]) ∧
    Here (laneG split) (fun g f => mergeable g f ∧ LaneReady .regang (laneG split) g f [] ∧ 1 < g.frags.length ∧ f.atRdv = false ∧
      (laneG split).regangReady g f = false) ∧
    Here bothAtRdv (fun g f => mergeable g f ∧ LaneReady .regang bothAtRdv g f [] ∧ 1 < g.frags.length ∧ f.atRdv = true ∧
      (∀ x ∈ g.frags, x.slices &&& f.slices = 0 → x.atRdv = true) ∧ (∀ x ∈ g.frags, x.lpc = f.lpc ∧ x.spc = f.spc ∧ sameQueue x f = true) ∧
      (bothAtRdv.launch? g.launch).map (fun l => l.cancelled) = some false ∧ bothAtRdv.cgHeld g = false) := by
  simp only [mergeable, laneReady_iff]; decide +kernel
/-- The two gangs of a block of a coop launch. -/
def coopS : State := { pairS with launches := [(0, (pairS.launch? 0).map fun (l : Launch) => { l with kd := { l.kd with coop := true } })] }
/-- The same with both at launch level, and the launch as the subject. -/
def levelS : State := { coopS with gangs := coopS.gangs.map fun e => (e.1, e.2.map fun (g : Gang) =>
  { g with frags := g.frags.map fun (f : Frag) => { f with lwait := .lbar 0, itemLen := 13 } }) }
theorem witness_LaunchBarriers : Here (handled lane) (fun g f => LaneReady .lbar (handled lane) g f [] ∧
      ((handled lane).launch? g.launch).map (fun l => l.kd.coop) = some false ∧ f.inHandler = false ∧ (g.low f).kget64 0 ≠ 0) ∧
    Here coopS (fun g f => LaneReady .lbar coopS g f [] ∧ (coopS.launch? g.launch).map (fun l => l.kd.coop) = some true ∧ f.atRdv = false) ∧
    (coopS.launch? coopS.subject).isSome = true ∧ FMap.wf coopS.gangs = true ∧ coopS.lbarReady coopS.subject = false ∧
    (levelS.launch? levelS.subject).isSome = true ∧ FMap.wf levelS.gangs = true ∧ levelS.lbarReady levelS.subject = true := by
  simp only [laneReady_iff]; decide +kernel
theorem witness_LaunchBarriers_meet : Here coopS fun g f =>
    ∀ p ∈ (coopS.updGang 0 (g.putFrag { f with lwait := .lbar 0 })).parties .b 0 (g.putFrag { f with lwait := .lbar 0 }), ∀ x ∈ p.fs, x.lpc = f.lpc := by
  refine ⟨_, rfl, ?_⟩
  intro p hp
  rw [parties_b rfl (by decide +kernel) (by decide +kernel)] at hp
  revert p
  decide +kernel
theorem witness_LaunchBarriers_admit : ∀ n ∈ [0, 5], let l : Launch := { admitting := [0, 3], nextAdmit := n }
    let s := { levelS with launches := [(0, some l)], time := 4 }
    s.launch? s.subject = some l ∧ l.admitting = 0 :: [3] ∧ FMap.wf s.gangs = true ∧ (n = 5 → s.time < l.nextAdmit) ∧ (n = 0 → l.nextAdmit ≤ s.time) := by
  decide +kernel
/-- A state with its launch 0 changed. -/
def withLaunch (k : Launch → Launch) (s : State) : State := { s with launches := [(0, (s.launch? 0).map k)] }
/-- A lane item of a gang whose lanes 3 and 9 have left. -/
def vacantS (k : Launch → Launch) : State := withLaunch k (laneG fun g => { g with lm := 0xFFFFFDF7 })
theorem witness_WidthExitAndRefill :
    Here lane (fun g f => LaneReady (.gwid 5) lane g f [] ∧ LaneReady .lexit lane g f [] ∧ lane.traced g = false ∧ LaneReady (.refill 1) lane g f [] ∧
      (List.range 32).filter (fun k => !g.lm.getLsbD k && f.slices.getLsbD (k / 8) && !g.exiting.getLsbD (k / 8)) = []) ∧
    (∀ q ∈ [([] : List Word), [7, 8]], let s := vacantS fun l => { l with nitems := 10, queues := FMap.put l.queues 0 q }
      Here s fun g f => LaneReady (.refill 1) s g f [] ∧ (s.launch? g.launch).map (fun l => (FMap.get l.queues (clusterOf g.core), l.itemsTaken)) =
        some (q, 0) ∧ (List.range 32).filter (fun k => !g.lm.getLsbD k && f.slices.getLsbD (k / 8) && !g.exiting.getLsbD (k / 8)) = [3, 9]) ∧
    (let s := vacantS fun l => { l with nitems := 65 }
     (s.launch? 0).map (fun l => decide ((FMap.get l.queues 0).length < 64 ∧ l.itemsTaken < l.nitems)) = some true ∧
     ∃ e ∈ s.blockList, e.2.launch = 0 ∧ clusterOf e.2.core = 0) := by simp only [laneReady_iff]; decide +kernel

/-- Bytes of fields of given widths. -/
def fields (l : List (Nat × Nat)) : List Byte := l.flatMap fun e => leOf e.1 e.2
/-- A kernel descriptor: class 2, code at 0x10000, one gang of four slices, 32 registers. -/
def descBytes : List Byte :=
  fields [(4, 0x10000), (4, 4), (8, 0x10000), (8, 0x10000), (4, 64), (4, 64), (8, 0x10040), (1, 1), (1, 4), (1, 1), (1, 0), (1, 0), (1, 0), (2, 0)] ++
    List.replicate 272 0
/-- A spawn descriptor of one block of that kernel, which stands at 0x10200. -/
def spawnBytes : List Byte := fields [(8, 0x10200), (4, 1), (4, 1), (4, 1), (4, 0)] ++ List.replicate 40 0
/-- Both in the writable page, the spawn descriptor at 0x10100. -/
def spawnS : State := { here laneP id (capped [(8, 0x10100)]) with
  mem := Memory.writeAt (Memory.writeAt [] 0x10200 descBytes) 0x10100 spawnBytes }
theorem witness_SpawnOne : Here spawnS fun g _ => (spawnS.spawnChild g 0x10100 5).1 = 0 ∧ (spawnS.agentGet (spawnS.whoGang g) 0x10100 64).1 = spawnBytes ∧
    ((0x10101 : Nat) % 64 ≠ 0 ∧ (spawnS.spawnChild g 0x10101 5).1 ≠ 0) ∧
    ((spawnS.setIface 0 { jobQuota := 1 }).spawnChild g 0x10100 5).1 = 1 := by decide +kernel
theorem witness_Spawns : Here spawnS fun g f => LaneReady (.spawn 1 2 8 .a) spawnS g f [] ∧ g.flagStall f .a = false ∧
    ∀ e ∈ (lanesOf (g.storing f)).map (fun l => (l, (f.capturedPair (l / 8) 8).toNat)),
      spawnS.chk (spawnS.whoGang g) .load e.2 64 = .ok ∧ spawnS.poisonAt (spawnS.whoGang g) e.2 64 = none := by
  simp only [laneReady_iff]; decide +kernel
/-- An interface whose event 7 is set or not. -/
def eventS (b : Bool) : State := { lane with ifaces := [(0, some { events := [(7, { isSet := b, inTable := true })] })] }
theorem witness_Events : (∀ b ∈ [false, true], Here (eventS b) fun g f => ((eventS b).iface? g.vi).isSome = true ∧
      g.frags.Pairwise (fun x y => x.slices &&& y.slices = 0) ∧ LaneReady (.evsig (.imm 7)) (eventS b) g f [] ∧
      LaneReady (.evclr (.imm 7)) (eventS b) g f [] ∧ LaneReady (.evwait (.imm 7) true .none) (eventS b) g f [] ∧ f.lwait = .none ∧
      (∀ n, n ∈ eventNames (eventS b).clk g f (.imm 7) → n = 7) ∧ 7 ∈ eventNames (eventS b).clk g f (.imm 7) ∧
      ((eventS b).event g.vi 7).isSet = b) := by
  have h : ∀ b ∈ [false, true], Here (eventS b) fun g f => (((eventS b).iface? g.vi).isSome = true ∧
      g.frags.Pairwise (fun x y => x.slices &&& y.slices = 0) ∧ laneReady (.evsig (.imm 7)) (eventS b) g f [] = true ∧
      laneReady (.evclr (.imm 7)) (eventS b) g f [] = true ∧ laneReady (.evwait (.imm 7) true .none) (eventS b) g f [] = true ∧ f.lwait = .none) ∧
      ((∀ n ∈ ((lanesOf (g.taking f)).map fun l => (bVal (eventS b).clk g f (.imm 7) l).toNat % 65536).eraseDups, n = 7) ∧
      7 ∈ ((lanesOf (g.taking f)).map fun l => (bVal (eventS b).clk g f (.imm 7) l).toNat % 65536).eraseDups) ∧
      ((eventS b).event g.vi 7).isSet = b := by decide +kernel
  simp only [laneReady_iff, eventNames, List.mem_mergeSort]
  refine fun b hb => here_mono ?_ (h b hb)
  rintro g f ⟨⟨h1, h2, h3, h4, h5, h6⟩, ⟨h7, h8⟩, h9⟩
  exact ⟨h1, h2, h3, h4, h5, h6, h7, h8, h9⟩
theorem witness_Events_spilled : let w : Waiter := { gang := 0, op := 4 }
    let o : AsyncOp := { id := 4, hold := 2 }
    let s := { laneG fun g => { g with asyncs := [o] } with feq := [.kick 1, .spilled w] }
    s.feq.findSome? (fun e => match e with
      | .spilled w => some w
      | _ => none) = some w ∧ w.gang = s.gang ∧ (s.gang? 0).any (fun g => decide (o ∈ g.asyncs ∧ ∀ x ∈ g.asyncs, x.id = o.id → x = o)) = true ∧
    o.id = w.op ∧ 2 ≤ o.hold := by decide +kernel
theorem witness_LaunchesEnd :
    (let l : Launch := { h := 1, tree := 2 }
     let s := { State.reset with launches := [(0, some l)], trees := [(2, { c := 2 })] }
     s.launch? s.subject = some l ∧ l.complete = false ∧ l.nx * l.ny * l.nz ≤ l.h ∧ (FMap.get s.trees l.tree).c ≠ 1) ∧
    (let l : Launch := { h := 1, nx := 2 }
     let s := { State.reset with launches := [(0, some l)] }
     s.launch? s.subject = some l ∧ l.h < l.nx * l.ny * l.nz) ∧
    (let q : Queue := { packets := [{ idx := 3 }] }
     ({ State.reset with queues := [(5, some q)] } : State).queue? 5 = some q ∧ q.mapped = none ∧ ({ idx := 3 } : Packet) ∈ q.packets) ∧
    (∀ n ∈ [(0 : Nat), 65536000], let a : AggGroup := { members := [1], blocks := 1 }
      let s := { State.reset with groups := [a], time := n }
      s.groups[s.subject]? = some a ∧ a.closed = false ∧ (n = 0 → s.ns < a.since + 1000 ∧ a.members.length < 256 ∧ a.blocks < 4096) ∧
      (n ≠ 0 → a.since + 1000 ≤ s.ns)) := by decide +kernel
theorem witness_Cancellation :
    (let s : State := { State.reset with launches := [(0, some {})] }
     s.launch? s.subject = some {} ∧ s.gangsOf s.subject = []) ∧
    (∀ t ∈ [(4 * 65536 : Nat), 4100 * 65536], let s := { here (scal []) split fun (f : Frag) => { f with cancelled := some 100 } with time := t }
      Here s fun g f => f.cancelled = some 100 ∧ (t = 4 * 65536 → s.ns < 100 + 4000) ∧ (t ≠ 4 * 65536 → 100 + 4000 ≤ s.ns) ∧
        ∃ y ∈ g.frags, y.slices &&& f.slices = 0) ∧
    Here (scal []) (fun g f => Cause.format ≠ .preempt ∧ (g.low f).kget64 0 = 0 ∧
      ((scal []).launch? g.launch).any (fun l => !l.cancelled && l.chain == none && l.errRec == none) = true) := by decide +kernel
/-- A gang whose registers v0 to v15 hold 8-bit integers, with two accumulators, over a block whose tile t3 holds the same, with its guard
slot 3 unresolved in every slice. -/
def matG (g : Gang) : Gang :=
  { g with
    vtag := (List.range 16).map fun n => (n, Tag.i8x4), accs := 2
    copies := (List.range 4).map fun sl => (sl, { k := [(0, 0x20000)], guards := [(3, { st := .unresolved, bound := some (5, .ne) })] }) }
def matS (k : Gang → Gang) : State := { here laneP (fun g => k (matG g)) id with
  blocks := [(0, some { gangs := [0], scratch := 4096, tiles := 16, ttag := [(3, 12)] })] }
/-- A flag and no guard, and no flag and a guard. -/
def ctls : List EngCtl := [⟨.a, none⟩, ⟨.none, some 3⟩]
/-- Sixteen commands that wait for nothing. -/
def sixteen : List Cmd := List.replicate 16 { id := 0, instr := .oprdy, mates := [], data := [], addr := 0, addr2 := 0, guard := none }
theorem witness_MatrixIssue : Here (matS id) (fun g f => EnginesQuiet g ∧ g.engFull .matrix = false ∧ (∀ e ∈ ctls, g.flagStall f e.flag = false ∧
      ∀ i ∈ [Instr.mma .l 1 0 3 12 true 12 e, .mvm 1 0 (.scal 10) 12 0 true 12 e, .tld 15 (.glob 8) true 0 0 e, .tst 15 (.sp 10) true 0 e,
        .tzr 15 12 e, .accz 1 Tag.i32 e, .accrd 16 1 .c16 16 e, .accwr 1 16 .c16 0 e], LaneReady i (matS id) g f []) ∧
      g.guardOut f.slices 3 = none ∧ (matS id).mmaTags 0 g 0 3 12 12 1 = none ∧
      matTags g ((matS id).accTagAhead 0 g 1) 0 12 12 0 1 = none ∧
      (∀ l, l < 32 → handleChk ((matS id).block? g.block) (mvmHandle 0 g ((matS id).block? g.block) f (.scal 10) l) = .ok) ∧
      g.taking f ≠ 0 ∧ (matS id).tileChk g (.glob 8) .load 2560 (tileAddr f (lowTaking f (g.taking f)) (.glob 8) 0) = .ok ∧
      (matS id).tileChk g (.sp 10) .store 2560 (tileAddr f (lowTaking f (g.taking f)) (.sp 10) 0) = .ok ∧
      (∀ r ∈ g.settled 16 16, g.tagOf r = accwrTag 0 g 16 16) ∧ accTagOk (accwrTag 0 g 16 16) = true) ∧
    Here (matS fun g => { g with mq := sixteen }) (fun g _ => EnginesQuiet g ∧ g.engFull .matrix = true) := by
  simp only [laneReady_iff, EnginesQuiet]; decide +kernel
theorem witness_MatrixChecks : ∀ e ∈ ctls, Here (matS id) fun g f => LaneReady (.mma .l 1 8 3 12 true 12 e) (matS id) g f [] ∧
    (g.settled 8 16).find? (fun r => (g.tagOf r).fcode != (12 : Tag).fcode) = some 16 ∧ f.inHandler = false ∧ (g.low f).kget64 0 ≠ 0 ∧
    ∀ n, n ∈ e.guard → g.guardOut f.slices n = none := by simp only [laneReady_iff]; decide +kernel
/-- Two gangs of one set, the other at its rendezvous, both with what an MMA needs. -/
def matPair : State := { pairS with
  gangs := pairS.gangs.map fun e => (e.1, e.2.map matG), blocks := [(0, some { gangs := [0, 1], setSize := 2, tiles := 16, ttag := [(3, 12)] })] }
theorem witness_MatrixTogether : Here matPair fun g f => LaneReady (.mma .s 1 0 3 12 true 12 ⟨.a, none⟩) matPair g f [] ∧
    ∃ ps, Gathers matPair g f .s ps ∧ ps.length = 2 ∧ (∀ p ∈ ps, matPair.mmaTags (matPair.gidOf p.g) p.g 0 3 12 12 1 = none) ∧
      ∀ p ∈ ps, p.g.mq.length < 16 ∧ ∀ x ∈ p.fs, p.g.flagStall x .a = false := by
  have h : Here matPair fun g f => laneReady (.mma .s 1 0 3 12 true 12 ⟨.a, none⟩) matPair g f [] = true ∧
      ∃ ps ∈ gathered matPair g f .s, ps.length = 2 ∧ (∀ p ∈ ps, matPair.mmaTags (matPair.gidOf p.g) p.g 0 3 12 12 1 = none) ∧
        ∀ p ∈ ps, p.g.mq.length < 16 ∧ ∀ x ∈ p.fs, p.g.flagStall x .a = false := by decide +kernel
  simp only [laneReady_iff]
  refine here_mono ?_ h
  rintro g f ⟨h1, ps, h2, h3⟩
  exact ⟨h1, ps, gathers_of_gathered h2, h3⟩
/-- A command of the gang 0. -/
def cmdOf0 (i : Instr) : Cmd :=
  { id := 0, instr := i, mates := [{ gid := 0, lanes := 0xFFFFFFFF, slices := 15 }], data := List.replicate 32 0, addr := 0, addr2 := 0, guard := none }
/-- The gang whose turn it is, where the gangs that can start stand in order. -/
theorem nextMatrix_eq {s : State} {core : Nat} {l : List (Nat × Gang)}
    (hl : (s.gangList.filter fun e => e.2.core == core && !e.2.desched && s.canStart e.2) = l)
    (hs : l.Pairwise fun a b => a.2.slotNo ≤ b.2.slotNo) : s.nextMatrix core =
      match l.find? fun e => decide ((s.core core).lastMx ≤ e.2.slotNo) with
      | some e => some e.1
      | none => l.head?.map fun e => e.1 := by
  have hm := List.mergeSort_of_pairwise (le := fun (a b : Nat × Gang) => decide (a.2.slotNo ≤ b.2.slotNo)) (hs.imp fun h => by simpa using h)
  subst hl
  exact congrArg (fun l' : List (Nat × Gang) => match l'.find? fun e => decide ((s.core core).lastMx ≤ e.2.slotNo) with
    | some e => some e.1
    | none => l'.head?.map fun (e : Nat × Gang) => e.1) hm
theorem witness_MatrixStarts :
    (let s := matS fun g => { g with mq := [cmdOf0 (.accz 1 Tag.i32 ⟨.none, none⟩)] }
     (∀ e ∈ s.gangList, e.2.core = 0 → e.2.running = none) ∧ s.nextMatrix 0 = some s.subject) ∧
    (let s := matS fun g => { g with mq := [cmdOf0 .oprdy], running := some (cmdOf0 .oprdy) }
     ∃ e ∈ s.gangList, e.2.core = 0 ∧ e.2.running ≠ none) := by
  refine ⟨⟨by decide +kernel, ?_⟩, by decide +kernel⟩
  rw [nextMatrix_eq rfl (by decide +kernel)]
  decide +kernel
theorem witness_MatrixEffects : ∀ i ∈ [Instr.mma .l 1 0 3 12 true 12 ⟨.none, none⟩, .mvm 1 0 (.scal 10) 12 0 true 12 ⟨.none, none⟩, .accz 1 Tag.i32 ⟨.none, none⟩,
      .accwr 1 16 .c16 16 ⟨.none, none⟩, .accrd 16 1 .c16 16 ⟨.none, none⟩, .tzr 15 12 ⟨.none, none⟩], ∀ n ∈ [0, 3],
    let s := matS fun g => { g with running := some (cmdOf0 i), openB := some { left := 1 }, steps := n }
    Here s (fun g _ => s.subject = s.gang ∧ g.running = some (cmdOf0 i) ∧ EnginesQuiet g ∧ g.mq = [] ∧ g.frags ≠ [] ∧ g.steps = n ∧
      g.clash = [] ∧ g.openB = some { left := 1 } ∧ s.opHolds s.subject 0 = 0 ∧ g.bad = [] ∧ s.poison = [] ∧
      (s.block? g.block).map (fun b => b.bad) = some []) ∧ (cmdOf0 i).mates = [{ gid := 0, lanes := 0xFFFFFFFF, slices := 15 }] ∧
    (s.block? 0).map (fun b => b.gangs) = some [0] ∧ 16 + NCols.c16.count ≤ 32 := by
  simp only [EnginesQuiet]; decide +kernel
theorem witness_BatchesAndBudget : Here (matS id) (fun g f => (∀ i ∈ [Instr.oprdy, .mfence 5, .mwait (.imm 255)], LaneReady i (matS id) g f []) ∧
      g.batches.length < 16 ∧ (∀ b ∈ g.batches, b.num ≠ 255) ∧ g.clash = []) ∧
    (let s := matS fun g => { g with batches := List.replicate 16 { num := 255 } }
     Here s fun g f => LaneReady (.mfence 5) s g f [] ∧ 16 ≤ g.batches.length ∧ LaneReady (.mwait (.imm 255)) s g f [] ∧ ∃ b ∈ g.batches, b.num = 255) ∧
    (∀ b ∈ [({ left := 1 } : Batch), {}, { poison := some 64 }], let s := matS fun g => { g with batches := [b] }
     Here s fun g f => s.subject = s.gang ∧ g.batches = [b] ∧ g.frags.head? = some f ∧ f.inHandler = false ∧ (g.low f).kget64 0 ≠ 0) ∧
    ((State.reset.core 0).window = (State.reset.clk - State.reset.clk0) / 256 ∧ (({ State.reset with clk := 256 } : State).core 0).window ≠ (256 - 0) / 256) := by
  simp only [laneReady_iff]; decide +kernel
/-- A copy template: 512 bytes from 0x10000 to 0x18000, both global to its gang. -/
def tplBytes : List Byte := fields [(8, 0x10000), (8, 0x18000), (4, 512), (4, 0)] ++ List.replicate 40 0
/-- Core 0 with that template under number 2, owned by the context of the gang 0, and a state of copy slot 5. -/
def copyS (st : Nat) (o : Owner) : State :=
  let bytes : FMap Byte := (tplBytes.foldl (fun (a : Nat × FMap Byte) b => (a.1 + 1, FMap.put a.2 a.1 b)) (128, [])).2
  { laneP with cores := [(0, { tpl := bytes, towner := [(2, o)], slots := [(5, { st := st })] })] }
/-- The same with slot 5 started by that template. -/
def copyStarted (o : Owner) : State := ((copyS 2 o).release 0 .device).updCore 0 fun k =>
  { k with slots := FMap.put k.slots 5 { st := 1, err := 0, tidx := 2, chan := 0, bits := idleBits ((copyS 2 o).template 0 2) [] }
           copies := [{ slot := 5, chan := 0, tpl := (copyS 2 o).template 0 2, launch := some 0, block := some 0, gang := some 0, sys := false, asid := some 0 }] }
theorem witness_CopyStarts : 0x3FFC + [(1 : Byte), 2, 3, 4].length ≤ 0x4000 ∧
    (0x502#32).toNat / 2 ^ 8 % 2 ^ 9 = 5 ∧ (0x502#32).toNat % 2 ^ 8 = 2 ∧
    (FMap.get ((copyS 1 {}).core 0).slots 5).st = 1 ∧
    (Here (copyS 0 {}) fun g _ => (FMap.get ((copyS 0 {}).core 0).slots 5).st ≠ 1 ∧ g.priv = false ∧ (FMap.get ((copyS 0 {}).core 0).tplStart.2 2).sys = true) ∧
    (let o : Owner := { sys := false, asid := some 0 }
     let tp := (copyS 2 o).template 0 2
     (FMap.get ((copyS 2 o).core 0).slots 5).st ≠ 1 ∧ Tpl.len tp = false ∧ Tpl.red tp = 0 ∧ Tpl.dst tp + Tpl.size tp ≤ 2 ^ 64 ∧
     ((copyS 2 o).core 0).copies = [] ∧ (copyS 2 o).gang? 0 ≠ none ∧
     State.copyCheck (copyStarted o) 0 ((copyS 2 o).starter (some 0)) 0x502 (FMap.get ((copyS 2 o).core 0).tplStart.2 2) tp .bad = .pass) := by
  decide +kernel
/-- A template of 1,024 bytes between physical ranges. -/
def physBytes : List Byte := fields [(8, 0x10000), (8, 0x20000), (4, 1024), (4, 18)] ++ List.replicate 40 0
/-- A copy of it in flight in slot 5 of core 0, with some chunks done. -/
def flightS (bits : BitVec 128) (x : Copy) : State :=
  { State.reset with cores := [(0, { slots := [(5, { st := 1, bits := bits })], copies := [{ x with slot := 5, tpl := physBytes }] })] }
theorem witness_CopiesLand :
    (let c : Copy := { slot := 5, tpl := physBytes }
     let s := flightS 0 {}
     (s.core 0).copies.find? (fun c => c.slot == 5) = some c ∧ c.parked = false ∧ (s.core 0).firstOfChannel c = true ∧ (FMap.get (s.core 0).slots 5).st = 1 ∧
     (FMap.get (s.core 0).slots 5).bits.getLsbD 1 = false ∧ (FMap.get (s.core 0).slots 5).bits ≠ BitVec.allOnes 128 ∧
     Tpl.len c.tpl = false ∧ Tpl.red c.tpl = 0 ∧ Tpl.ten c.tpl = false ∧ Tpl.ssp c.tpl = 2 ∧ Tpl.dsp c.tpl = 2 ∧
     Tpl.src c.tpl + Tpl.size c.tpl ≤ dramEnd ∧ Tpl.dst c.tpl + Tpl.size c.tpl ≤ dramEnd ∧ Tpl.src c.tpl + Tpl.size c.tpl ≤ Tpl.dst c.tpl ∧
     (∀ e ∈ s.path, e.1 ≠ 0)) ∧
    (let c : Copy := { slot := 5, tpl := physBytes, parked := true }
     ((flightS 0 { parked := true }).core 0).copies.find? (fun c => c.slot == 5) = some c ∧ c.parked = true) ∧
    (let s := flightS (BitVec.allOnes 128) {}
     (FMap.get (s.core 0).slots 5).bits = BitVec.allOnes 128 ∧ Tpl.fen physBytes = false ∧ (s.core 0).held = []) := by decide +kernel
theorem witness_CopiesLand_poison : ∀ l, FMap.get (flightS 0 {}).poison l = false := fun _ => rfl
theorem witness_CopyWaits : ∀ st ∈ [0, 1], let s := here (copyS st {}) id (capped [(10, 5), (11, 3)])
    Here s fun g f => (∀ i ∈ [Instr.cbtst 12 10 11 true 3, .cpsts 12 10, .cbwait 12 10 11 0], LaneReady i s g f []) ∧ g.taking f ≠ 0 ∧
      (f.captured (g.actSlice f) 10).toNat % 512 = 5 ∧ f.captured (g.actSlice f) 11 = 3 ∧ (FMap.get (s.core g.core).slots 5).st = st ∧
      (FMap.get (s.core g.core).slots 5).bits = 0 := by simp only [laneReady_iff]; decide +kernel
theorem witness_CopyCommands : Here (matS id) (fun g f => EnginesQuiet g ∧ (∀ e ∈ ctls, g.flagStall f e.flag = false ∧
      LaneReady (.dsub 8 e) (matS id) g f [] ∧ LaneReady (.recfl 8 e) (matS id) g f []) ∧ g.taking f ≠ 0 ∧ g.guardOut f.slices 3 = none ∧
      (matS id).cardChk g (f.capturedPair (lowTaking f (g.taking f)) 8).toNat = .ok) ∧
    Here (matS noLanes) (fun g f => EnginesQuiet g ∧ g.taking f = 0 ∧ LaneReady (.dsub 8 ⟨.a, none⟩) (matS noLanes) g f []) := by
  simp only [laneReady_iff, EnginesQuiet]; decide +kernel
/-- A job card: a stream of 4 bytes at 0x10400 to at most 16 bytes at 0x10800. -/
def cardBytes : List Byte := fields [(8, 0x10400), (4, 4), (4, 0), (8, 0x10800), (4, 16), (4, 0)] ++ List.replicate 32 0
theorem witness_Decompression :
    (∀ n ∈ [0, 64], let s := { matS (fun g => { g with cq := [{ cmdOf0 (.dsub 8 ⟨.none, none⟩) with addr := 0x10100 }] }) with
        clusters := [(0, { cards := List.replicate n {}, job := some {} })] }
      Here s fun g _ => s.subject = 0 ∧ g.cq = [{ cmdOf0 (.dsub 8 ⟨.none, none⟩) with addr := 0x10100 }] ∧ g.rq = [] ∧
        (∀ y ∈ g.mq, y.guard = none) ∧ (FMap.get s.clusters (clusterOf g.core)).cards.length = n) ∧
    (let j : DdeCard := { bytes := cardBytes }
     let s := { laneP with clusters := [(0, { job := some j })] }
     (FMap.get s.clusters s.subject).job = some j ∧ j.parked = false ∧
     j.bad = false ∧ s.jobCheck j.core ⟨some j.gang, some j.launch, some j.block, j.sys, some 0, false⟩ (cardFields j.bytes) = .pass) ∧
    (let j : DdeCard := { bytes := List.replicate 64 255 }
     j.bad = false ∧ laneP.jobCheck j.core ⟨some j.gang, some j.launch, some j.block, j.sys, some 0, false⟩ (cardFields j.bytes) = .err 2 none) ∧
    1 ≤ [(7 : Byte)].length := by decide +kernel
theorem witness_Decompression_tokens : let rd := fun (bs : List Byte) (p : Nat) => bs[p]?
    (rd [0xFF] 0 = some 0xFF ∧ 0 < 1) ∧ (rd [0xC0] 0 = some 0xC0 ∧ 0xC0 ≤ 0xC0 ∧ 0xC0 < 0xFF) ∧
    (rd [1, 7, 8] 0 = some 1 ∧ 1 < 0x40 ∧ 0 + 1 + 2 ≤ 3 ∧ ∀ i, i < 1 + 1 → rd [1, 7, 8] (0 + 1 + i) = [(7 : Byte), 8][i]?) ∧
    (rd [0x40, 0] 1 = some 0 ∧ 0x40 % 8 * 256 + (0 : Byte).toNat + 1 ≤ 1 ∧ 1 + (0x40 / 8 % 8 + 3) ≤ 16) ∧
    (rd [0xBF, 0, 0] 2 = some 0 ∧ 0x80 ≤ 0xBF ∧ 0xBF < 0xC0) := by decide +kernel
/-- A gang of the chain 9, whose slot 0 is RENDERING: 8 pixels wide, 4 lines. -/
def ringS (st : Nat) : State := { withLaunch (fun l => { l with chain := some 9 }) laneP with
  slotSt := [(0, st)], chains := [{ id := 9, slot := 0, written := [0] }] }
/-- A store of one pixel on its way. -/
def pixel : RingStore := { gang := 0, chain := 9, pixels := [(0, 0, 7, 0)] }
theorem witness_RingStores :
    Here (ringS 1) (fun g f => LaneReady (.ringst 1 10 false ⟨.a, none⟩) (ringS 1) g f [] ∧ EnginesQuiet g ∧ g.flagStall f .a = false ∧
      (∀ l, l < 32 → (ringS 1).ringstBad g (f.captured (l / 8) 10) false = none) ∧
      [pixel][(ringS 1).subject]? = some pixel ∧ pixel.pixels = [(0, 0, 7, 0)] ∧
      (ringS 1).slotChain 0 = some { id := 9, slot := 0, written := [0] } ∧ (ringS 1).slotState 0 = 1 ∧ (ringS 1).ownSlot g 0 = true) ∧
    Here (handled (ringS 0)) (fun g f => EnginesQuiet g ∧ LaneReady (.ringst 1 10 false ⟨.none, none⟩) (handled (ringS 0)) g f [] ∧
      firstViolation (fun loc => (handled (ringS 0)).ringstBad g loc false) (fun l => f.captured (l / 8) 10) (g.storing f) = some (0, 0) ∧
      f.inHandler = false ∧ (g.low f).kget64 0 ≠ 0 ∧ (handled (ringS 0)).slotState 0 ≠ 1) := by
  simp only [laneReady_iff, EnginesQuiet]; decide +kernel
theorem witness_RingReads :
    Here (ringS 1) (fun g f => LaneReady (.ringld 1 10 false 0 Tag.f32 ⟨.none, none⟩) (ringS 1) g f [] ∧ EnginesQuiet g ∧ g.clash = [] ∧
      (∀ o ∈ g.asyncs, o.id ≠ (ringS 1).nextOp) ∧ g.desched = false ∧ g.busyV 1 = false ∧ g.busyV 2 = false ∧
      (∀ l, l < 32 → (ringS 1).ringldBad g (f.captured (l / 8) 10) false 0 = none) ∧ (∀ x ∈ (ringS 1).stores, x.gang ≠ 0 ∧ x.chain ≠ 9) ∧
      (∀ x ∈ (ringS 1).gangList, x.1 ≠ 0 → x.2.rq = []) ∧ (ringS 1).poison = [] ∧
      f.boundFlag .none = none ∧ LaneReady (.srate 5 10) (ringS 1) g f [] ∧ g.taking f ≠ 0 ∧ (ringS 1).gangChain g = some 9) ∧
    Here (handled (ringS 0)) (fun g f => firstViolation (fun loc => (handled (ringS 0)).ringldBad g loc false 0) (fun l => f.captured (l / 8) 10)
      (g.taking f) = some (0, 0)) ∧
    (let c : Chain := { id := 9, slot := 0, written := [0] }
     (ringS 1).slotChain 0 = some c ∧ c.lineKey 0 0 ∈ c.written ∧ (ringS 1).ringKnown 0 0 = true ∧ ((ringS 1).geom 0).w ≤ 0 + 8 ∧ 0 + 7 < ((ringS 1).geom 0).w) ∧
    Here (handled laneP) (fun g f => LaneReady (.srate 5 10) (handled laneP) g f [] ∧ laneP.slotChain 0 = none ∧ g.taking f ≠ 0) := by
  simp only [laneReady_iff, EnginesQuiet]; decide +kernel
/-- Registers v16 to v23 hold floats. -/
def rayG (g : Gang) : Gang := { g with vtag := (List.range 8).map fun n => (16 + n, Tag.f32) }
theorem witness_Queries :
    Here (lanePG rayG) (fun g f => EnginesQuiet g ∧ g.flagStall f .a = false ∧ (∀ i ∈ [Instr.rayq 16 8 3 ⟨.a, none⟩, .ellq 16 8 7 true 3 ⟨.a, none⟩,
        .covq 3 2 ⟨.a, none⟩, .beamq 10 8 3 2 ⟨.a, none⟩, .qrd 1 3 16 Tag.f32, .qwait 3], LaneReady i (lanePG rayG) g f []) ∧
      (∀ r ∈ span 16 8, g.tagOf r = Tag.f32) ∧ (∀ l, l < 32 → (lanePG rayG).sceneChk g (f.capturedPair (l / 8) 8).toNat = .ok) ∧
      (lanePG rayG).listChk g 32 (64 * 2) = .ok ∧ (lanePG rayG).listChk g ((lanePG rayG).listBytes g (f.capturedPair (lowTaking f (g.taking f)) 8).toNat) (64 * 2) = .ok ∧ (FMap.get g.queries 3).cmd = none ∧ g.queryBusy 3 = false) ∧
    (∀ i ∈ [Instr.covq 3 2 ⟨.none, none⟩, .rayq 16 8 3 ⟨.none, none⟩, .ellq 16 8 7 true 3 ⟨.none, none⟩],
      let s := lanePG fun g => { rayG g with queries := [(3, { cmd := some (cmdOf0 i) })] }
      Here s fun g _ => EnginesQuiet g ∧ (FMap.get g.queries 3).cmd = some (cmdOf0 i) ∧ g.queryBusy 3 = true ∧
        (∀ x ∈ g.queries, ∀ y ∈ x.2.cmd, (cmdOf0 i).id ≤ y.id) ∧ (cmdOf0 i).id ∉ g.spoilt ∧
        ∀ l, l < 32 → (s.queryReads g (cmdOf0 i)).sceneAt ((s.queryReads g (cmdOf0 i)).whoGang g) (laneScene (cmdOf0 i) l) = none) := by
  simp only [laneReady_iff, EnginesQuiet]; decide +kernel
theorem witness_MeshRecords : Here lane (fun g f => LaneReady (.mcnt (.opn 5 6 15)) lane g f [] ∧ LaneReady (.mcnt .close) lane g f [] ∧ g.taking f ≠ 0) ∧
    (let m : MeshRec := { nv := 1, np := 1, aw := 4 }
     let s := laneG fun g => { g with mesh := some m }
     Here s fun g f => g.mesh = some m ∧ LaneReady (.mvtx 16 20) s g f [] ∧ LaneReady (.mprim 16 20) s g f [] ∧ m.aw ≤ 16 ∧
       (∀ l, l < 32 → (g.vget s.clk 20 l).toNat < m.nv) ∧ Takes g f 31 ∧ g.helpers.getLsbD 31 = false) ∧
    (let m : MeshRec := { nv := 0, np := 0, aw := 4 }
     Here (laneG fun g => { g with mesh := some m }) fun g f => Takes g f 0 ∧ g.helpers.getLsbD 0 = false ∧ m.nv ≤ (g.vget 0 20 0).toNat) ∧
    ({ ovfAdd := (0, 1) } : Core).ovfAdd ≠ (0, 0) := by
  simp only [laneReady_iff, Takes]; decide +kernel
/-- Two records of gang 0 waiting for the binner, for a table at `b`. -/
def binS (b : Dword) : State := { laneP with
  bins := [(0, 0, b, {}), (0, 0, b, {})], tlb := laneP.tlb.map fun e => (2000, e.2) }
theorem witness_Binning_waits (b : Dword) : (binS b).bins[(binS b).subject]? = some (0, 0, b, {}) ∧
    (∀ x ∈ (binS b).bins.take (binS b).subject, x.1 ≠ 0) ∧ (∃ x ∈ (binS b).bins.take 1, x.1 = 0) :=
  ⟨rfl, fun _ h => absurd h (List.not_mem_nil), (0, 0, b, {}), List.mem_cons_self .., rfl⟩
theorem witness_Binning_reads : (State.binBump { binS 0 with bins := [] } ((binS 0).whoLaunch (((binS 0).launch? 0).getD {})) 16).tryRead ((binS 0).whoLaunch (((binS 0).launch? 0).getD {})) 0 10 = none ∧
    ((binS 0x10000).tryRead ((binS 0x10000).whoLaunch (((binS 0).launch? 0).getD {})) 0x10000 64).isSome = true := by decide +kernel
/-- A bin's row 0 at 0x10040: entries at 0x11000, room for two, one held. -/
def binRowS : State := { laneP with mem := Memory.writeAt [] 0x10040 (fields [(8, 0x11000), (4, 2), (4, 1)]) }
theorem witness_Binning : Here binRowS (fun g _ => let w := binRowS.whoGang g
       binRowS.tryRead w (0x10000 + 64) 16 = some (fields [(8, 0x11000), (4, 2), (4, 1)]) ∧
       binRowS.tryRead w (0x10000 + 64 + 16 * 1) 16 = some (List.replicate 16 0) ∧
       binRowS.chk w .store (0x11000 + 48) 48 = .ok ∧ binRowS.chk w .store (0x10000 + 64 + 12) 4 = .ok ∧ (binRowS.tryRead w 0x10000 4).isSome = true) ∧
    (List.replicate 9 (0 : Word)).length = 9 := by decide +kernel
/-- Cores 0 and 4, each with a FIFO toward it and a gate state. -/
def pairC (a b : List FifoEntry) (ga gb : Nat) : State :=
  { lane with cores := [(0, { fifo := a, gate := ga }), (4, { fifo := b, gate := gb })] }
/-- An entry of the gang's context. -/
def entry0 (visible : Bool) : FifoEntry := { data := List.replicate 32 7, tag := 3, visible := visible }
theorem witness_FifosPushAndPop_push :
    (∀ n ∈ [0, 31, 32], Here (pairC [] (List.replicate n (entry0 true)) 0 0) fun g f => g.taking f ≠ 0 ∧ partnerOf g.core = 4 ∧
      (∀ nb ∈ [none, some 5], LaneReady (.vfpush nb 30) (pairC [] (List.replicate n (entry0 true)) 0 0) g f []) ∧
      ((pairC [] (List.replicate n (entry0 true)) 0 0).core 4).fifo.length = n ∧ ((pairC [] [] 0 0).core 4).gate = 0 ∧
      (pairC [] [] 0 0).domainRuns (domainOf 4) = true) ∧
    Here (laneG noLanes) (fun g f => LaneReady (.vfpush none 30) (laneG noLanes) g f [] ∧ g.taking f = 0) ∧
    ({ lane with domains := [(1, { idle := 1 })] } : State).domainRuns (domainOf 4) = false := by
  simp only [laneReady_iff]; decide +kernel
theorem witness_FifosPushAndPop_pop :
    Here (pairC [entry0 true, entry0 false] [] 0 0) (fun g f => LaneReady (.vfpop 7 none) (pairC [entry0 true, entry0 false] [] 0 0) g f [] ∧
      g.taking f ≠ 0 ∧ ((pairC [entry0 true, entry0 false] [] 0 0).core g.core).fifo = entry0 true :: [entry0 false] ∧
      (entry0 true).visible = true ∧ (entry0 true).asid = g.asid) ∧
    (∀ l ∈ [[], [entry0 false], [{ entry0 true with asid := 9 }]], Here (pairC l [] 0 0) fun g f =>
      LaneReady (.vfpop 7 (some 5)) (pairC l [] 0 0) g f [] ∧ g.taking f ≠ 0 ∧ ((pairC l [] 0 0).core g.core).fifo = l ∧
        ∀ e ∈ l.head?, e.visible = false ∨ e.asid ≠ g.asid) ∧
    Here (laneG noLanes) (fun g f => LaneReady (.vfpop 7 none) (laneG noLanes) g f [] ∧ g.taking f = 0) := by
  simp only [laneReady_iff]; decide +kernel
theorem witness_FifosCount : (({ pairC [] [] 0 0 with subject := 4 } : State).core 4).fifo = [] ∧
    ((pairC [entry0 true, entry0 false] [] 0 0).core (pairC [entry0 true, entry0 false] [] 0 0).subject).fifo = [entry0 true] ++ entry0 false :: [] ∧
    (∀ x ∈ [entry0 true], x.visible = true) ∧ (entry0 false).visible = false ∧
    Here (pairC [entry0 true] [] 0 3) (fun g f => LaneReady (.vfcnt 5) (pairC [entry0 true] [] 0 3) g f []) := by
  simp only [laneReady_iff]; decide +kernel
theorem witness_GatesOfCores_requests : ∀ n ∈ [0, 1, 2, 3], ∀ can ∈ [false, true], Here (pairC [] [] n 0) fun g f =>
    LaneReady (if can then .pgreqCan 5 false else .pgreq 5 true) (pairC [] [] n 0) g f [] ∧ ((pairC [] [] n 0).core g.core).gate = n := by
  simp only [laneReady_iff]; decide +kernel
/-- Core 4, PEND or at the end of its WAKE. -/
def gateS (gate at_ : Nat) : State := { State.reset with cores := [(4, { gate := gate, wakeAt := at_ })], subject := 4 }
theorem witness_GatesOfCores_ends : ((gateS 1 0).core (gateS 1 0).subject).gate = 1 ∧ (gateS 1 0).blockList = [] ∧
    ((gateS 1 0).core 4).fifo = [] ∧ ((gateS 1 0).core 4).slots = [] ∧ (gateS 1 0).chains = [] ∧
    ((gateS 3 0).core (gateS 3 0).subject).gate = 3 ∧ ((gateS 3 0).core 4).wakeAt ≤ (gateS 3 0).ns ∧
    (gateS 3 1).ns < ((gateS 3 1).core 4).wakeAt ∧ ¬ ((pairC [entry0 true] [] 1 0).core (pairC [entry0 true] [] 1 0).subject).fifo = [] := by
  decide +kernel
theorem witness_PowerIntervals : (850000 < 850001 ∧ 250000 < 250001) ∧ 0 < 500000 ∧ (500000 ≤ 500000 ∧ (500000 ≤ 850000 ∨ 0 ≤ 250000)) ∧
    2 * (335 / 8 / 42) + 335 % 8 / 4 = 1 ∧ 335 < 1344 ∧ 9 * 80 ≤ 80 * 9 ∧ 1344 ≤ 1344 := by decide
/-- A cold device with a latency tolerance, whose domain 1 is in some state. -/
def idleS (l : Word) (x : Domain) (c : Cryo) : State :=
  { State.reset.setBreg 0x404008 l with domains := [(1, x)], cryo := c, subject := 1 }
theorem witness_IdleDomains_enter :
    (∀ p ∈ [((50 : Word), 0), (2000, 1), (200000, 2)], let s := idleS p.1 { idle := p.2 } .cold
      s.subject < 8 ∧ s.cryo = .cold ∧ (s.breg 0x404008).toNat = p.1.toNat ∧ (FMap.get s.domains 1).wake = false ∧
      (FMap.get s.domains 1).exitAt = none ∧ (FMap.get s.domains 1).idle = p.2) ∧
    (let s := idleS 200000 {} .cold
     s.blockList = [] ∧ s.chains = [] ∧ s.cores = []) ∧ (idleS 49 {} .warm).cryo ≠ .cold ∧ (idleS 49 {} .warm).cryo ≠ .excursion := by
  decide +kernel
theorem witness_IdleDomains_exit :
    (let s := idleS 0 { idle := 2, wake := true, exitAt := some 0 } .cold
     s.subject < 8 ∧ (FMap.get s.domains s.subject).exitAt = some 0 ∧ 0 ≤ s.ns ∧ (FMap.get s.domains s.subject).wake = true) ∧
    (let s := idleS 0 { exitAt := some 1 } .cold
     (FMap.get s.domains s.subject).exitAt = some 1 ∧ s.ns < 1) ∧
    (∀ n ∈ [1, 2, 3], let s := idleS 0 { idle := n, wake := true } .excursion
      (FMap.get s.domains s.subject).exitAt = none ∧ s.cryo = .excursion ∧ (FMap.get s.domains s.subject).wake = true ∧
      (FMap.get s.domains s.subject).idle = n ∧ s.offLast = none ∧ ∀ e, e < s.subject → (FMap.get s.domains e).idle ≠ 3) ∧
    (let s := { idleS 0 { idle := 3, wake := true } .cold with offLast := some 5 }
     (FMap.get s.domains s.subject).exitAt = none ∧ (FMap.get s.domains s.subject).idle = 3 ∧ s.offLast = some 5 ∧ s.ns < 5 + 20000) := by
  decide +kernel
/-- The largest of ten temperatures. -/
def hottest (l : List Nat) : Nat := ((List.range 10).map fun n => l.getD n 0 % 4096).foldl max 0
theorem witness_CryoStates :
    (∀ n ∈ [575, 655, 656, 680, 681, 880, 881, 959, 960], hottest (List.replicate 10 n) = n) ∧ hottest [700, 690] = 700 ∧
    (∀ c ∈ [Cryo.warm, .cooling, .soak, .cold, .excursion, .hotStop, .warming], ({ State.reset with cryo := c } : State).cryo = c) ∧
    (let s := { State.reset with cryo := .excursion, coolNs := some 0 }
     s.coolNs = some 0 ∧ s.ns < 0 + 1000000000) ∧
    (let s := { State.reset with cryo := .excursion, coolNs := some 0, time := 65536 * 1000000000 }
     0 + 1000000000 ≤ s.ns) ∧
    (State.reset.cryo = .warm ∧ State.reset.boot.recovery = false) ∧
    (let s := { State.reset with cryo := .warming, warmCmd := some 0, time := 65536 * 100000000 }
     s.cryo = .warming ∧ s.warmCmd = some 0 ∧ s.warmDone = false ∧ 0 + 100000000 ≤ s.ns) := by decide +kernel
/-- The gangs that a request of core 0 finds. -/
def found (s : State) : List (Nat × Gang) := s.gangList.filter fun e => e.2.core == 0 && !e.2.desched
theorem witness_PreemptionRequests : found State.reset = [] ∧
    ∀ x ∈ [handled (scal []), here (scal []) id (fun f => { f with inHandler := true }),
        here (handled (scal [])) id (fun f => { f with lwait := .held })], Here x fun g f =>
      found x = [(0, g)] ∧ x.gang? 0 = some g ∧ g.core = 0 ∧ g.frags = [f] ∧ g.target = false ∧ f.slices ≠ 0 ∧
      (x.core 0).cg.waiting = [] ∧ (0xF#4).getLsbD g.cls = true ∧ (0#4).getLsbD g.cls = false ∧
      (f.inHandler = true ∨ ((g.low f).kget64 0 ≠ 0 ∧ f.parkL = none ∧ (f.lwait = .none ∨ f.lwait = .held))) := by
  decide +kernel
/-- A gang that a request has targeted, `n` nanoseconds after it. -/
def savedS (n : Nat) : State := { here (scal []) (fun g => { g with target := true, csbase := 0x100000 }) id with
  time := 65536 * n, cores := [(0, { preempt := some { classes := 2 } })]
  blocks := [(0, some { gangs := [0], scratch := 4096, tiles := 16, bsbase := 0x118000 })] }
theorem witness_HardwareSaves : (Here (savedS 3999) fun g _ => (savedS 3999).subject = (savedS 3999).gang ∧ g.saveNow = false ∧
      (savedS 3999).ns < 0 + 4000) ∧
    Here (savedS 4000) fun g _ => (savedS 4000).gang? (savedS 4000).subject = some g ∧
      ((savedS 4000).core g.core).preempt = some { classes := 2 } ∧ g.target = true ∧ 0 + 4000 ≤ (savedS 4000).ns ∧ g.desched = false ∧
      g.frags ≠ [] ∧ g.mq = [] ∧ g.running = none ∧ g.batches = [] ∧ g.openB = none ∧ g.asyncs = [] ∧ (savedS 4000).path = [] ∧ g.regs ≤ 256 ∧
      g.accs ≤ 8 ∧ (∀ f ∈ g.frags, f.saveQueue.length ≤ 8) ∧ g.csbase.toNat + 0x18000 ≤ dramEnd ∧
      (∃ b ∈ (savedS 4000).block? g.block, b.tiles ≤ 16 ∧ b.scratch ≤ 0x80000 ∧ b.core = g.core ∧ g.csbase.toNat + 0x18000 ≤ b.bsbase.toNat) ∧
      ((savedS 4000).core g.core).hfcnt.toNat < 2 ^ 32 - 1 := by decide +kernel
/-- A cold device with a launch of two blocks, the first of which is to be placed, and core 7 in some gate state. -/
def placeS (l : Launch) (gate : Nat) (c : Cryo) : State :=
  { State.reset with launches := [(0, some l)], cryo := c, ifaces := [(0, some { share := 1 })], cores := [(7, { gate := gate })] }
theorem witness_BlocksStart : (placeS {} 0 .warm).cryo ≠ .cold ∧ (placeS {} 0 .warm).cryo ≠ .excursion ∧
    ∀ seed ∈ [false, true], ∀ gate ∈ [0, 2], let l : Launch := { nx := 2, seed := seed }
      let s := placeS l gate .cold
      s.launch? 0 = some l ∧ l.cancelled = false ∧ l.complete = false ∧ s.boot.recovery = false ∧ s.boot.saving = false ∧
      s.residents 7 = [] ∧ s.domainRuns (domainOf 7) = true ∧ l.chain = none ∧ s.chains = [] ∧ l.kd.pair = false ∧ 0 < l.blocks ∧
      (0 : Nat) ∉ l.dispatched ∧ 0 < l.h + 256 ∧ s.grouped 0 = false ∧ s.mergedAhead 0 = [] ∧ s.blockOf 0 0 = none ∧
      (∃ i ∈ s.iface? l.vi, (0 : Nat) ∉ i.spawns ∧ (s.coresOf l.vi).length < i.share) ∧ l.kd.gangs ≤ 4 ∧ l.kd.regs ≤ 768 ∧ l.kd.accs ≤ 16 ∧
      l.kd.tiles ≤ 64 ∧ l.kd.scratch ≤ 0x80000 ∧ (s.core 7).gate = gate := by decide +kernel
theorem witness_ClassesAge : ∀ n ∈ [4095, 4096], Here (scalF fun f => { f with ready := n }) fun _ f => f.ready = n := by decide +kernel
/-- A gang whose lane item is parked since some clock, with PARKLIM 1. -/
def parkedS (n : Nat) : State := here (here (scal []) (kregsOf [(0, 0x20000), (110, 1)]) fun f => { f with parkL := some { since := n } }) id id
theorem witness_ParksEnd : (let s := { parkedS 0 with clk := 256 }
     Here s fun g f => f.parkL = some { since := 0 } ∧ 256 * ((g.low f).kget 110).toNat = 256 ∧ 0 + 256 ≤ s.clk ∧ f.inHandler = false ∧
      (g.low f).kget64 0 ≠ 0) ∧
    (let s := { parkedS 0 with clk := 255 }
     Here s fun _ f => f.parkL = some { since := 0 } ∧ f.parkS = none ∧ s.clk < 0 + 256) ∧
    ∀ e ∈ (parkedS 0).cores, ∀ x ∈ e.2.copies, x.parked = false := by decide +kernel
/-- A leaf at 0x1000, with a migration. -/
def migS (m : Migration) (n : Nat) : State :=
  { State.reset with mem := Memory.writeAt [] 0x1000 (leOf 8 0x35), migs := [(0x1000, m)], subject := 0x1000, time := 65536 * n }
theorem witness_Migrations : 0x1000 + 8 ≤ dramEnd ∧ (migS {} 0).read64 0x1000 = 0x35 ∧ (FMap.get (migS {} 0).migs 0x1000).live = false ∧
    (∀ x ∈ [65535, 65536, 65537], let m : Migration := { live := true, stamp := x }
      (FMap.get (migS m 0).migs 0x1000).live = true ∧ m.host ≠ (Side.host == .host) ∧ (1#64).toNat * 65536 + (0#16).toNat = 65536) ∧
    (migS { live := true } 0).subject = 0x1000 ∧
    ∀ h ∈ [false, true], (FMap.get (migS { host := h, expiry := some 7 } 6).migs 0x1000).expiry = some 7 ∧
      (migS { host := h, expiry := some 7 } 6).ns < 7 ∧ 7 ≤ (migS { host := h, expiry := some 7 } 7).ns := by decide +kernel
theorem witness_RegisterSteps : Here (scal []) (fun _ f => f.slices = 15) ∧ (0 : Nat) < 1344 ∧
    (let c : Chrono := { size := 4096, base := 0x1000, wr := 64 }
     let s := { State.reset with cores := [(0, { cg := c })] }
     4096 ≤ (s.core 0).cg.size.toNat ∧ (s.core 0).cg.size.toNat = 2 ^ 12 ∧ (s.core 0).cg.base.toNat % 4096 = 0 ∧ (s.core 0).cg.waiting = [] ∧
      ((s.core 0).cg.wr - 32).toNat ≤ (s.core 0).cg.size.toNat ∧ (s.core 0).cg.size.toNat < ((s.core 0).cg.wr - 65).toNat ∧
      (s.core 0).cg.base.toNat + (s.core 0).cg.size.toNat ≤ dramEnd) ∧
    (let s := { State.reset with ifaces := [(3, some { asid := 9 })], tlb := [(0, 9, 0x10000, 0x10000, 0x35), (1, 8, 0x10000, 0x10000, 0x35)] }
     s.iface? 3 = some { asid := 9 } ∧ (∃ e ∈ s.tlb, e.2.1 = 9 ∧ e.2.2.1 ≤ 0x1FFFF ∧ 0x1FFFF < e.2.2.1 + e.2.2.2.1) ∧ ∃ e ∈ s.tlb, e.2.1 ≠ 9) := by
  decide +kernel
theorem witness_ControlRange : 0x404000 % 4 = 0 ∧ 0x404000 < 2 ^ 32 ∧ 0x404004 % 4 = 0 ∧ 0x404004 ≠ 0x404000 ∧ 11 < 12 ∧ 9 < 10 ∧
    0x403000 + 64 * 11 + 4 * 9 < 0x404000 ∧ 7 < 8 ∧ 0x405000 + 4 * 7 < 0x405020 ∧ 0x404FFF < 0x405000 := by decide
theorem witness_CoreWindows : (1343 : Nat) < 1344 ∧ 0x7FFF8 + Size.dword.bytes ≤ 0x80000 ∧ State.reset.coreDark 1343 = false ∧
    ({ State.reset with domains := [(7, { idle := 3 })] } : State).coreDark 1343 = true := by decide +kernel
/-- Line 1024 dirty, with a dirty bitmap at some place. -/
def dirtyS (db : Dword) : State := { State.reset with dirty := [(1024, true)], dirtyBase := db }
theorem witness_LinesKept : FMap.get (dirtyS 0).dirty 1024 = true ∧ FMap.get (dirtyS 0).dirty 1025 = false ∧ (dirtyS 0).dirtyBase.toNat = 0 ∧
    ((dirtyS 0x10000).dirtyBase.toNat ≤ 64 * 1024 ∧ 64 * 1024 < (dirtyS 0x10000).dirtyBase.toNat + 24 * 2 ^ 20) ∧
    ((dirtyS 0x20000).dirtyBase.toNat ≠ 0 ∧ 64 * 1024 < (dirtyS 0x20000).dirtyBase.toNat ∧
      (let b := (dirtyS 0x20000).dirtyBase.toNat + 64 * (64 * 1024 / 2 ^ 21) + 64 * 1024 / 4096 % 512 / 8
       b < dramEnd ∧ lineOf b ≠ 1024)) ∧
    State.reset.cryo ≠ .cold ∧
    (let s := { State.reset with cryo := .cold }
     s.cryo = .cold ∧ s.refresh = false ∧ 64 * 1024 < dramEnd ∧ s.eccce.toNat < 2 ^ 32 - 1 ∧ s.eccue.toNat < 2 ^ 32 - 1) := by decide +kernel
/-- A registered chain of slot 3, with its strip for stream 1 and encoder 1: 64 lines of 8 pixels. -/
def chain0 : Chain := { id := 0, slot := 3, sdesc := (0x000F0000, 0x9A000000, 0), start := 5, deadline := 15, launches := [0], rgrp := 2 }
/-- A device with that chain, its slot in some state, at some station time. -/
def chainS (c : Chain) (st n : Nat) : State :=
  { State.reset with chains := [c], slotSt := [(c.slot, st)], time := 65536 * n, launches := [(0, some { complete := true })] }
theorem witness_ChainsAdmitted :
    (∀ n ∈ [4, 5], ∀ b ∈ [false, true], ∀ st ∈ [0, 1], let c := { chain0 with behind := b }
      let s := chainS c st n
      s.chain? s.subject = some c ∧ c.id = s.subject ∧ c.admitted = false ∧ c.missed = false ∧ (n = 4 → s.ns < c.start) ∧
      (n = 5 → c.start ≤ s.ns) ∧ c.behind = b ∧ c.ready = true ∧ s.slotState c.slot = st) ∧
    (∀ n ∈ [0, 1], FMap.get ({ chainS chain0 0 5 with rateLast := [(2, some (1, decide (n = 1)))] } : State).rateLast chain0.rgrp =
      some (1, decide (n = 1))) := by decide +kernel
theorem witness_ChainsEnd :
    (∀ n ∈ [14, 15], let c := { chain0 with admitted := true }
      let s := chainS c 1 n
      s.chain? s.subject = some c ∧ c.id = s.subject ∧ s.slotState c.slot = 1 ∧ c.wslot ≠ some c.slot ∧ c.admitted = true ∧ c.ended = false ∧
      (n = 14 → s.ns < c.deadline) ∧ (n = 15 → c.deadline ≤ s.ns) ∧ c.launches = [0] ∧
      s.launch? 0 = some { complete := true } ∧ s.stores = []) ∧
    (let c := { chain0 with behind := true }
     let s := chainS c 0 15
     s.chain? s.subject = some c ∧ c.admitted = false ∧ c.ended = false ∧ c.deadline ≤ s.ns ∧ c.behind = true) ∧
    (let c := { chain0 with admitted := true, ended := true }
     (chainS c 2 15).chain? 0 = some c ∧ c.ended = true) := by decide +kernel
theorem witness_StripsScanned :
    (∀ st ∈ [1, 2, 4], ∀ n ∈ [14, 15], let s := chainS chain0 st n
      s.slotChain chain0.slot = some chain0 ∧ s.owed = [] ∧ chain0.slot < 256 ∧ s.chain? chain0.id = some chain0 ∧
      (∀ x ∈ s.chains, x.id = chain0.id → x = chain0) ∧ chain0.wslot ≠ some chain0.slot ∧ chain0.geo.ser = some (1#3).toNat ∧
      (n = 15 → chain0.deadline ≤ s.ns) ∧ (n = 14 → s.ns < chain0.deadline) ∧ FMap.get chain0.lines (1#3).toNat = 0 ∧
      s.slotState chain0.slot = st) ∧
    (∀ l ∈ [1, 64, 65], let c := { chain0 with lines := [(1, l), (9, l)] }
      let s := { chainS c 3 15 with subject := 3 }
      s.slotChain c.slot = some c ∧ s.subject = c.slot ∧ 3 ≤ s.slotState c.slot ∧ c.geo.h = 64 ∧ s.chains = [c] ∧
      ∀ k ∈ [Consumer.stream 1, .enc 1], FMap.get c.lines (bankOf k) = l) ∧
    (let c := { chain0 with lines := [(1, 65), (9, 65)] }
     ∀ b ∈ c.geo.banks, c.geo.h < FMap.get c.lines b ∧ (b < 8 ∨ ∀ x ∈ [c], x.geo.enc = c.geo.enc → x.geo.fl / 64 = c.geo.fl / 64 →
       x.frame = c.frame → FMap.get x.lines b = 0 ∨ x.geo.h < FMap.get x.lines b)) ∧
    (chain0.geo.banks = [1, 9] ∧ ¬ (chain0.geo.h < FMap.get chain0.lines 1)) := by decide +kernel
/-- A strip of 8 by 4 pixels of 32 bits at the start of the ring. -/
def strip8 : Geom := { work := false, w64 := false, halo := 0, h := 4, wb := 1, ser := none, enc := none, fl := 0, base := 0 }
theorem witness_PlaneMeans : let s := State.reset.setBreg 0x401000 0x2002
    strip8.w64 = false ∧ (s.breg 0x401000).getLsbD 24 = false ∧ strip8.fl % 4 = 0 ∧ strip8.h % 4 = 0 ∧ 1 < (s.breg 0x401000).toNat % 4096 ∧
    0 < (s.breg 0x401000).toNat / 4096 % 4096 ∧ 1 < strip8.w / 4 ∧ strip8.fl / 4 ≤ 0 ∧ 0 < (strip8.fl + strip8.h) / 4 := by decide +kernel
theorem witness_EncoderRows : ∀ st ∈ [1, 2, 3], let s := chainS chain0 st 0
    s.chains = [chain0] ∧ s.owed = [] ∧ chain0.behind = false ∧ chain0.geo.enc = some (1#2).toNat ∧ chain0.geo.fl = 64 * 0 ∧
    chain0.geo.h = 64 ∧ FMap.get chain0.lines (8 + (1#2).toNat) = 0 ∧ s.slotState chain0.slot = st ∧ 1 ≠ 0 := by decide +kernel
theorem witness_HandoverAndTime : State.reset.ringOwn ≠ 1 ∧ ({ chainS { chain0 with ready := false } 0 0 with ringOwn := 1 } : State).ringOwn = 1 ∧
    (chainS chain0 0 0).chains.all (fun c => c.ready) = true ∧ (State.reset.breg 0x402000).getLsbD 4 = false ∧
    ∀ n ∈ [14, 15, 16], let s := { State.reset.setBreg 0x402000 16 with syncs := n }
      (s.breg 0x402000).getLsbD 4 = true ∧ s.syncs = n ∧ s.chains = [] ∧ (99 : Int).natAbs < 100 ∧ ¬ (100 : Int).natAbs < 100 ∧
      (1000000 : Int) ≤ 1000000 := by decide +kernel
/-- The interface 3 with queue 9, whose page is mapped for its own accesses, and some bytes in it. -/
def hostS (i : Iface) (q : Queue) (m : Memory) : State := { State.reset with
  ifaces := [(3, some i)], queues := [(9, some { q with vi := 3 })], mem := m, subject := 9
  tlb := [(2000, 0, 0x10000, 0x10000, 0x001000000001007D), (2000, 0, 0x20000, 0x10000, 0x0010000000020015)] }
theorem witness_HostRdma : let s := hostS {} {} []
    s.iface? 3 = some {} ∧ (63 : Nat) < 64 ∧ (∀ n ∈ [1, 64], HeldInDram s ({} : Iface).who .store 0x10000 n) ∧
    HeldInDram s ({} : Iface).who .load 0x1FFF8 8 ∧ s.poisonAt ({} : Iface).who 0x1FFF8 8 = none ∧
    s.xlate ({} : Iface).who .store 0x20000 = .fail 4 ∧ s.xlate ({} : Iface).who .load 0x30000 = .fail 2 ∧
    (let p := { s with poison := [(0x400, true)] }
     p.poisonAt ({} : Iface).who 0x10000 8 ≠ none) ∧ 0x10004 % 8 ≠ 0 ∧ 0x1FFF8 % 8 = 0 := by
  simp only [heldInDram_iff]
  decide +kernel
theorem witness_KicksAndAgeing_kicks : ∀ m ∈ [none, some 0], let s := hostS { queues := [9], slots := 1 } { mapped := m } []
    s.queue? 9 = some { vi := 3, mapped := m } ∧ s.iface? 3 = some { queues := [9], slots := 1 } ∧ FMap.wf s.queues = true ∧
    (∀ e ∈ s.queuesOf 3, e.1 = 9 ∨ e.2.pending = false) ∧ (m = none → ((s.queuesOf 3).filter fun e => e.2.mapped.isSome).length < 1) := by
  decide +kernel
/-- Two queues of the interface 3, of which the quota maps one; the other has waited 20 ms. -/
def ageS (e : Nat) : State := { hostS { queues := [8, 9], slots := 1 } {} [] with
  queues := [(8, some { vi := 3, mapped := some 0, eff := 7 }), (9, some { vi := 3, pending := true, eff := e })], subject := 3
  time := 65536 * 20000000 }
theorem witness_KicksAndAgeing_ages : ∀ e ∈ [0, 7], (ageS e).subject = 3 ∧ FMap.wf (ageS e).queues = true ∧
    (ageS e).queue? 9 = some { vi := 3, pending := true, eff := e } ∧ e ≤ 7 ∧
    1 ≤ (((ageS e).queuesOf 3).filter fun e => e.2.mapped.isSome).length ∧
    ∀ x ∈ (ageS e).queuesOf 3, (x.2.mapped.isSome = true → 7 ≤ x.2.eff) ∧ x.2.eff ≤ 7 := by decide +kernel
theorem witness_RemoteStores : (∀ x ∈ State.reset.remote, x.peer ≠ true) ∧
    (let r : RemoteStore := { peer := true, port := 1 }
     ({ State.reset with remote := [{}, r] } : State).remote.find? (fun x => x.peer == true) = some r ∧ r.gang = none) ∧
    (let s := { handled (scal []) with remote := [{ gang := some 0, op := some 4 }] }
     Here s fun g f => s.remote.find? (fun x => x.peer == false) = some { gang := some 0, op := some 4 } ∧ s.gang? 0 = some g ∧
      g.frags = [f] ∧ f.slices ≠ 0 ∧ f.inHandler = false ∧ (g.low f).kget64 0 ≠ 0) := by decide +kernel
/-- A packet whose first two bytes are given, whose descriptor stands at 0x10200 for a launch of one block, or at 0x10400 for a chain. -/
def packet (type ctl : Nat) (nx : Nat) : List Byte :=
  fields [(1, type), (1, ctl), (2, 0), (4, 7), (8, if type = 2 then 0x10400 else 0x10200), (8, 0x55), (4, nx), (4, 1), (4, 1)] ++ List.replicate 28 0
/-- A mapped queue that holds one packet, with its rings in the page. -/
def queue0 : Queue := { ring := 0x10000, cring := 0x11000, wr := 1, mapped := some 0 }
/-- The record of a chain of slot 4 that begins at 5 ns. -/
def recordBytes : List Byte :=
  fields [(8, 5), (8, 15), (4, 0), (2, 0), (1, 4), (1, 255), (1, 0), (7, 0), (21, 1), (11, 0), (4, 0x000F0000), (4, 0x9A000000), (4, 0)] ++
    List.replicate 52 0
/-- The device with that packet at the head of the queue 9. -/
def packetS (b : List Byte) (q : Queue) : State :=
  hostS { queues := [9] } q (Memory.writeAt (Memory.writeAt (Memory.writeAt [] 0x10200 descBytes) 0x10400 recordBytes) 0x10000 b)
/-- The packet that the queue 9 offers. -/
def offered (s : State) : Option (List Byte) := (s.headPacket s.subject).bind fun x => x.2.2.map Prod.fst
/-- The state once the packet has been read. -/
def afterPacket (s : State) : State := ((s.headPacket s.subject).bind fun x => x.2.2.map Prod.snd).getD s
theorem witness_HeadPackets :
    (∀ q ∈ [{ queue0 with mapped := none }, { queue0 with error := true }, { queue0 with wr := 0 }], let s := packetS (packet 0 0 1) q
      s.queue? s.subject = some { q with vi := 3 } ∧ s.iface? 3 = some { queues := [9] } ∧
      (q.mapped = none ∨ q.error = true ∨ q.rd = q.wr)) ∧
    (let s := packetS (packet 0 1 1) queue0
     s.queue? s.subject = some { queue0 with vi := 3 } ∧ queue0.rd ≠ queue0.wr ∧ s.boot.resetReq = none ∧
      s.chk ({} : Iface).who .load 0x10000 64 = .ok ∧ field (s.agentGet ({} : Iface).who 0x10000 64).1 1 1 % 2 = 1 ∧
      HeldInDram s ({} : Iface).who .load 0x10000 64 ∧ s.chk ({} : Iface).who .load 0x30000 64 ≠ .ok) ∧
    ∃ p ∈ ({ queue0 with packets := [{}] } : Queue).packets, p.report = none := by
  simp only [heldInDram_iff]; decide +kernel
theorem witness_PacketsTaken_kinds : (∀ x ∈ [(0, 0), (1, 0), (2, 0), (3, 0), (0, 16)],
      offered (packetS (packet x.1 x.2 1) queue0) = some (packet x.1 x.2 1) ∧ field (packet x.1 x.2 1) 0 1 = x.1 ∧
      field (packet x.1 x.2 1) 1 1 / 16 = x.2 / 16 ∧ field (packet x.1 x.2 1) 2 2 = 0 ∧ field (packet x.1 x.2 1) 61 1 / 2 = 0 ∧
      field (packet x.1 x.2 1) 62 2 = 0) ∧
    (let s := afterPacket (packetS (packet 0 0 1) queue0)
     s.iface? 3 = some { queues := [9] } ∧ HeldInDram s ({} : Iface).who .store (queue0.cring.toNat + 64 * (queue0.reports.toNat % queue0.csize)) 64 ∧ queue0.packets = []) := by
  simp only [heldInDram_iff]; decide +kernel
theorem witness_PacketsTaken_launches :
    (let s := afterPacket (packetS (packet 1 0 1) queue0)
     (s.readKdesc ({} : Iface).who (field (packet 1 0 1) 8 8)).map Prod.fst = some (descBytes.take 64) ∧ kdescOk (descBytes.take 64) = true ∧
      (s.launchList.filter fun e => e.2.vi == 3 && !e.2.complete).length < ({ queues := [9] } : Iface).jobQuota ∧
      ({ jobQuota := 0 } : Iface).jobQuota ≤ (s.launchList.filter fun e => e.2.vi == 3 && !e.2.complete).length ∧
      kernelFits (kdescOf (descBytes.take 64)) (1 * 1 * 1) false = true ∧ shapeOk 1 1 1 false 0 0 0 0 = true ∧ field (packet 1 0 1) 61 1 % 2 = 0) ∧
    shapeOk 0 1 1 false 0 0 0 0 = false ∧ kdescOk (packet 1 0 1) = false ∧ kernelFits { gangs := 2 } 1 true = false ∧
    (packetS [] queue0).readKdesc ({} : Iface).who 0x30000 = none ∧ (packetS [] queue0).chains = [] := by decide +kernel
theorem witness_ChainsRegistered : let s := packetS (packet 2 0 1) queue0
    offered s = some (packet 2 0 1) ∧ field (packet 2 0 1) 0 1 = 2 ∧ field (packet 2 0 1) 8 8 = 0x10400 ∧ 0x10400 % 64 = 0 ∧
    (afterPacket s).chk ({} : Iface).who .load 0x10400 128 = .ok ∧ (afterPacket s).chk ({} : Iface).who .load 0x30000 128 ≠ .ok ∧ ((afterPacket s).agentGet ({} : Iface).who 0x10400 128).1 = recordBytes ∧
    s.chainRefused recordBytes (chainOf recordBytes s.nextChain) = false ∧ s.ringOwn ≠ 2 ∧
    (let t := { s with time := 65536 * 5 }
     field recordBytes 0 8 ≤ t.ns ∧ t.chainRefused recordBytes (chainOf recordBytes t.nextChain) = true) := by decide +kernel
theorem witness_Interfaces : (hostS {} {} []).boot.recovery = false ∧ (hostS {} {} []).iface? 3 = some {} ∧ (hostS {} {} []).launchList = [] ∧ (hostS {} {} []).path = [] ∧
    (let x : QueueParams := { q := 4095, ring := 64, size := 16, cring := 128, csize := 65536, base := 9 }
     let p : IfaceParams := { asid := 1, ptroot := 0, slots := 256, queues := [x], memQuota := 0, share := 1, regions := [] }
     p.queues = [x] ∧ x.q < 4096 ∧ 1 ≤ p.slots ∧ p.slots ≤ 256 ∧ State.reset.queue? x.q = none ∧ State.reset.ifaces = [] ∧
      x.ring.toNat % 64 = 0 ∧ x.cring.toNat % 64 = 0 ∧ x.size = 2 ^ 4 ∧ x.csize = 2 ^ 16) ∧ (255 : Nat) < 256 := by decide +kernel
/-- The interface 3 with its page, and port 1 in some state. -/
def portS (p : Port) : State := { hostS {} {} [] with ports := [(1, p)], subject := 1 }
theorem witness_FlitsReceived : (FMap.get (portS {}).ports 1).st ≠ 1 ∧ (1 : Nat) ≤ 8 ∧
    (FMap.get (portS { st := 1, rxSeq := 5 }).ports 1).rxSeq = 5 ∧ (FMap.get (portS { st := 1, rxSeq := 5 }).ports 1).st = 1 ∧
    (4#32 : Word) ≠ 5 ∧ (6#32 : Word) ≠ 5 ∧
    (portS {}).iface? 4 = none ∧ (portS {}).iface? 3 = some {} ∧ HeldInDram (portS {}) ({} : Iface).who .store 0x10000 8 ∧
    HeldInDram (portS {}) ({} : Iface).who .load 0x1FFF8 8 ∧ (portS {}).poisonAt ({} : Iface).who 0x10000 8 = none ∧
    0x10004 % 8 ≠ 0 ∧ 0x10004 % 4 = 0 := by simp only [heldInDram_iff]; decide +kernel
/-- A flit of stream 0 with some number. -/
def flit0 (n : Word) : Flit := { seq := n, stream := 0, body := .load 3 0 8 }
theorem witness_FlitsSent : (FMap.get (portS {}).ports 1).wait = [] ∧
    (let p : Port := { st := 1, wait := [flit0 0], replay := [{ flit0 6 with stream := 1 }] }
     (FMap.get (portS p).ports 1).wait = [flit0 0] ∧ (FMap.get (portS p).ports 1).st = 1 ∧ p.replay.length < 4096 ∧
      ∀ y ∈ p.replay, y.stream ≠ (flit0 0).stream) ∧
    ∀ n ∈ [9999, 10000], let p : Port := { st := 1, replay := [flit0 6] }
      let s := { portS p with time := 65536 * n }
      s.subject = 1 ∧ (FMap.get s.ports 1).st = 1 ∧ p.replay ≠ [] ∧ (n = 9999 → s.ns < p.since + 10000) ∧ (n = 10000 → p.since + 10000 ≤ s.ns) := by
  decide +kernel
theorem witness_LanesShed : (∀ l ∈ [0, 1, 2], (FMap.get (portS { st := 1, lanes := l }).ports 1).st = 1 ∧ (64 : Nat) ≤ 64 ∧ 64 < 65) ∧
    (∀ st ∈ [0, 1, 2], (portS { st := st }).subject = 1 ∧ (FMap.get (portS { st := st }).ports 1).st = st ∧
      (FMap.get (portS { st := st }).ports 1).wait = []) ∧
    ∀ n ∈ [1999, 2000], let s := { portS { st := 2 } with time := 65536 * n }
      (n = 1999 → s.ns < 0 + 2000) ∧ (n = 2000 → 0 + 2000 ≤ s.ns) := by decide +kernel
/-- The member 5 of the group 1, with a frame of 1,000 ns in progress. -/
def lockS (ctl : Word) (l : Lock) (syncs : Nat) : State :=
  { (State.reset.setBreg 0x405100 (ctl ||| 0x10500)).setBreg 0x405104 1000 with lock := l, syncs := syncs }
theorem witness_FrameLock_frames : (lockS 0 {} 0).framesStarted = 1 ∧ ((lockS 0 {} 0).breg 0x405100).getLsbD 0 = false ∧
    (lockS 1 { frame := 1 } 0).framesStarted ≤ 1 ∧
    (∀ l ∈ [({ acting := true } : Lock), { acting := true, leave := [6], missed := [(7, 3)], members := 0xE0 }], let s := lockS 3 l 16
      (s.breg 0x405100).getLsbD 0 = true ∧ (s.breg 0x405100).toNat / 2 ^ 8 % 256 = 5 ∧ s.lock.frame < s.framesStarted ∧
      s.lock.acting = true ∧ (s.breg 0x405100).getLsbD 1 = true ∧ 16 ≤ s.syncs ∧ s.lock.back = 0 ∧ 5 ∉ s.lock.leave) ∧
    (let s := lockS 1 {} 16
     (s.breg 0x405100).getLsbD 0 = true ∧ (s.breg 0x405100).getLsbD 1 = false ∧ s.lock.frame < s.framesStarted) ∧
    (lockS 3 {} 15).syncs < 16 := by decide +kernel
theorem witness_FrameLock_beacons :
    (∀ m ∈ [(0 : Byte), 4, 5, 24], let b : Beacon := { group := 1, mid := m, frame := 0, epoch := 0, period := 1000, frac := 0, members := 1 }
      let s := lockS 1 {} 16
      (s.breg 0x405100).getLsbD 0 = true ∧ b.group.toNat = (s.breg 0x405100).toNat / 2 ^ 16 ∧ s.lock.heard = none ∧ 5 ∉ s.lock.leave ∧
      (m.toNat < 5 ∨ m = 5 ∨ 24 ≤ m.toNat)) ∧ (23#8).toNat < 24 := by decide +kernel
/-- An image that is not authentic, whatever the digest function gives. -/
def wrongImage : Image := { digest := ~~~Config.sm3 [], sig := [], seq := 0, body := [] }
theorem wrong_digest : Config.sm3 wrongImage.body ≠ wrongImage.digest := fun h => by
  have := congrArg (fun x : BitVec 256 => x.getLsbD 0) (show Config.sm3 [] = ~~~Config.sm3 [] from h)
  simp at this
/-- Which signatures are valid is left open (27 R407), so an authentic image is one whose signature is taken to be valid. -/
theorem witness_ModuleResets (sig : List Byte) (h : Config.sm2Valid (Config.sm3 [1]) sig = true) :
    let im : Image := { digest := Config.sm3 [1], sig := sig, seq := 1, body := [1] }
    Config.sm3 im.body = im.digest ∧ Config.sm2Valid im.digest im.sig = true ∧
    (∀ n ∈ [0, 1], FMap.get ({ State.reset with boot := { flash := [(n, some im)] } } : State).boot.flash n = some im ∧
      FMap.get ({ State.reset with boot := { flash := [(n, some im)] } } : State).boot.flash (1 - n) = none) ∧
    State.reset.boot.config = [] ∧ State.reset.boot.failed = none ∧ State.reset.boot.staging = none ∧ (∀ n, FMap.get State.reset.boot.flash n = none) := by
  refine ⟨rfl, h, ?_, rfl, rfl, rfl, fun _ => rfl⟩
  intro n hn
  simp only [List.mem_cons, List.not_mem_nil, or_false] at hn
  obtain rfl | rfl := hn <;> exact ⟨rfl, rfl⟩
theorem witness_ImagesAndQuotes : State.reset.boot.recovery = false ∧ Config.sm3 wrongImage.body ≠ wrongImage.digest ∧
    (∀ n ∈ [0, 1], ({ State.reset with boot := { running := some n } } : State).boot.running = some n ∧ n < 2) ∧
    ({ State.reset with boot := { recovery := true } } : State).boot.recovery = true ∧ wrongImage.body.length ≤ 2 ^ 26 :=
  ⟨rfl, wrong_digest, by decide +kernel, rfl, by decide +kernel⟩
theorem witness_DeviceResets : State.reset.boot.recovery = false ∧ State.reset.boot.resetReq = none ∧ State.reset.chains = [] ∧
    (let s := { State.reset with boot := { resetReq := some 0 }, queues := [(9, some queue0)] }
     s.boot.recovery = false ∧ s.boot.resetReq = some 0 ∧ s.gangList = [] ∧ s.path = [] ∧ s.queue? 9 = some queue0) ∧
    ∀ n ∈ [99999999, 100000000], let s := { scal [] with boot := { resetReq := some 0 }, time := 65536 * n }
      s.boot.resetReq = some 0 ∧ (∃ e ∈ s.gangList, e.2.desched = false) ∧ s.boot.saving = false ∧
      (n = 99999999 → s.ns < 0 + 100000000) ∧ (n = 100000000 → 0 + 100000000 ≤ s.ns) := by decide +kernel
theorem witness_ScalarWordsRoundTrip : (Instr.saddReg 63 62 1).wf = true ∧ encodeScalar (.saddReg 63 62 1) = some 0x03FF8100 ∧
    decodeScalar 0xFFFFFFFF = .illegalScalarWord 0xFFFFFFFF ∧ decodeScalar 0 ≠ .illegalScalarWord 0 := by decide +kernel
theorem witness_LaneItemsRoundTrip : (Instr.fadd 3 1 (.vec 2) 3 .rne).wf = true ∧ (encodeLWord (.fadd 3 1 (.vec 2) 3 .rne)).isSome = true ∧
    ∀ n ∈ [0, 3], (encode (.fadd 3 1 (.vec 2) 3 .rne) ++ List.replicate n 0).length = 13 + n := by decide +kernel
/-- An L-word that is not illegal, and what it means. -/
def legalWord : Bool := (encodeLWord (.fadd 3 1 (.vec 2) 3 .rne)).any fun w =>
  decide (decodeLWord LaneCtx.any false w = .fadd 3 1 (.vec 2) 3 .rne)
theorem witness_LaneWordsMeanOneInstruction : legalWord = true ∧ ∀ c, Instr.fadd 3 1 (.vec 2) 3 .rne ≠ .illegalLaneItem c :=
  ⟨by decide +kernel, fun _ h => by cases h⟩
theorem witness_StepsRunTheirInstruction_scalar : let s := atScalar 0x00518700 []
    Here (s.naming 0 0 s.subject) fun g f => (s.naming 0 0 s.subject).mayRun g = true ∧ f.mayScalar = true ∧ (Instr.saddReg 5 6 7).wf = true ∧
      encodeScalar (.saddReg 5 6 7) = some 0x00518700 ∧ (s.naming 0 0 s.subject).scalarBytes g f.spc.toNat = leBytes 4 0x00518700 := by decide +kernel
theorem witness_StepsRunTheirInstruction_lane : (let s := lane.naming 0 0 lane.subject
     Here s fun g f => s.mayRun g = true ∧ f.mayLane = true ∧ f.draining = false ∧ f.item = [] ∧
      ∃ e ∈ f.entered, let bs := s.laneBytes g e.base e.limit f.lpc.toNat
        bs = full 0x08D 0 0 0 0 0 0 0 0 0 0 0 0 ∧ (decodeLaneItem (s.laneCtx g e.fa e.fb) bs).2 = 13) ∧
    (let s := laneF fun f => { f with item := full 0x08D 0 0 0 0 0 0 0 0 0 0 0 0 }
     Here s fun g f => s.mayRun g = true ∧ f.mayLane = true ∧ f.draining = false ∧ f.item ≠ [] ∧ f.entered ≠ none) ∧
    (let s := scalF fun f => { f with queue := [{}] }
     Here s fun g f => s.mayRun g = true ∧ f.mayLane = true ∧ f.draining = false ∧ f.entered = none) ∧
    eventRow (State.reset.naming 0 0 0) .coreGate = true ∧ (match exec .coreGate (State.reset.naming 0 0 0) with
      | .next _ => true
      | _ => false) = true := by decide +kernel
/-- What a step of the one stream that a clock's turns leave needs, and what the clock classes its turn as. -/
def takesTurn (s : State) (lane : Bool) (d : Doing) : Bool :=
  let s1 := { s.tick with turns := s.turns.tail }
  match s1.gangList with
  | [(0, g)] => (match streamTurn lane (0, 0) s1 with
    | .next t => s.turns == [[.busy 0 0 (!lane)]] && s1.gang? 0 == some g && !g.desched && g.frags.length == 1 &&
        g.frags.all (fun f => f.slices != 0 && lowSlice f.slices == 0) && t.streams.all (fun e => e == (0, 0)) && s1.doing lane (0, 0) (.next t) == d
    | _ => false)
  | _ => false
theorem witness_StepsTakeOneTurn : takesTurn (scal []) false .issue = true ∧ takesTurn (scalF fun f => { f with marks := [{ reg := 5 }] }) false .issue = true ∧
    takesTurn (here (atScalar 0x94000009 []) id fun f => { f with queue := [{}] }) false .note = true ∧ takesTurn lane true .issue = true ∧
    takesTurn (atLane (full 0x088 1 0 0 0 0 0 0 0 0 0 0 0) []) true .meet = true := by decide +kernel
/-- An outcome goes on. -/
def isNext {σ φ ρ : Type} (o : Host.Outcome σ φ ρ) : Bool := match o with
  | .next _ => true
  | _ => false
theorem next_of {σ φ ρ : Type} {o : Host.Outcome σ φ ρ} (h : isNext o = true) : ∃ t, o = .next t := by
  cases o with
  | next t => exact ⟨t, rfl⟩
  | _ => cases h
theorem witness_StepsKeepMemoriesCanonical : State.reset.memOk ∧ (∃ t, step State.reset = .next t) ∧
    ({ State.reset with turns := [[.evict 0 3]] } : State).memOk ∧ ∃ t, step { State.reset with turns := [[.evict 0 3]] } = .next t :=
  ⟨⟨rfl, rfl, rfl⟩, next_of (by decide +kernel), ⟨rfl, rfl, rfl⟩, next_of (by decide +kernel)⟩
/-- The bytes of 04's worked clause at 0x100. -/
theorem test_worked_clause : clauseBytes { regs := 224 } 0 none none
    ([Instr.fadd 3 1 (.vec 2) 3 .rne, .fadd 3 1 (.vec 200) 3 .rne, .fadd 3 1 (.vec 2) 3 .rtz].filterMap encodeLWord) = some
    [0xF2, 0, 0xC0, 0x3F, 0x20, 0x06, 0x02, 0x04, 0x60, 0xC0, 0x40, 0x00, 0x32, 0x03,
      0xE0, 0, 0, 0, 0x40, 0x06, 0, 0, 0x20, 0x10, 0x30, 0, 0x08] := by decide +kernel
theorem test_data : dataBytes 2 [-2, 0x1234] = some [0xFE, 0xFF, 0x34, 0x12] ∧ dataBytes 1 [256] = none ∧
    alignBytes .scalar 3 4 = some [0, 0, 0, 0xF0] ∧ alignBytes .lane 2 7 = some [0xFF] ∧ alignBytes .data 4 16 = some [] ∧ alignBytes .scalar 1 4 = none := by decide +kernel
/-- An L-word with some vb, flag and ext. -/
def formWord (vb : Byte) (flag : BitVec 2) (ext : BitVec 30) : LWord := { lw 0x020 with vb := vb, flag := flag, ext := ext, cls := 3 }
theorem witness_LaneFormsChosen : laneDefault (formWord 127 0 0) = some (formWord 127 0 0).cls ∧ (formWord 127 0 0).vb.toNat < 128 ∧
    ¬ (formWord 128 0 0).vb.toNat < 128 ∧ (formWord 128 0 0).ext = 0 ∧
    (-262144 ≤ (formWord 0 0 0x3FFC0000).ext.toInt ∧ (formWord 0 0 0x3FFC0000).ext.toInt < 262144) ∧ (formWord 0 0 0x3FFC0000).ext ≠ 0 ∧
    ¬ (formWord 0 0 0x40000).ext.toInt < 262144 := by decide +kernel
/-- A kernel of 32 gangs with one lease. -/
def kernel0 : KDesc := { scsize := 4, gangs := 32, leases := [(true, 0, 1)] }
theorem witness_ClausesAndDescriptors : (32 < (List.replicate 33 (lw 0)).length ∧ ¬ 32 < (List.replicate 32 (lw 0)).length ∧ 11 < (12#4).toNat) ∧
    kernel0.cls < 4 ∧ kernel0.cls ≠ 0 ∧ kernel0.gangs ≤ 32 ∧ kernel0.width ≤ 4 ∧ kernel0.regs = 32 * 1 ∧ kernel0.scratch = 256 * 0 ∧
    kernel0.leases.length ≤ 16 ∧ kernel0.gangs ≤ 4 * perPart kernel0.regs kernel0.accs ∧ kernel0.entry.toNat % 4 = 0 ∧
    kernel0.scbase ≤ kernel0.entry ∧ kernel0.entry.toNat < kernel0.scbase.toNat + kernel0.scsize.toNat ∧ 4 ≤ kernel0.scsize.toNat ∧
    kernel0.demand = false ∧ ({ scbase := 4 } : KDesc).entry < ({ scbase := 4 } : KDesc).scbase := by decide +kernel
theorem witness_ClausesAndDescriptors_leases : kernel0.leases = [(true, 0, 1)] ∧ (0#64).toNat + (1#64).toNat ≤ 2 ^ 40 ∧ 1 ≤ (1#64).toNat :=
  ⟨rfl, by decide, by decide⟩

/-! ### For each statement that forms complete: the states above, with what those do not show -/

/-- Every one of a list of instructions answers a next state here. -/
def goesOn (s : State) (l : List Instr) : Bool := l.all fun i => isNext (exec i s)
theorem witness_ScalarFormsComplete :
    (type_of% witness_ScalarArithmetic_and_Division ∧ type_of% witness_ScalarMasks ∧ type_of% witness_ScalarLoads ∧
      type_of% witness_ControlRegisters ∧ type_of% witness_ClausesEnqueue ∧ type_of% witness_GuardsSetAndClear ∧
      type_of% witness_WaitsForLaneWork ∧ type_of% witness_ScalarControl ∧ type_of% witness_ScalarTraps ∧ type_of% witness_TrapEntries ∧
      type_of% witness_TrapReturns ∧ type_of% witness_PdoneYields ∧ type_of% witness_GendEnds) ∧
    Here (writable (scal atPage)) fun g f => let s := writable (scal atPage)
      let va := scalarAddr (g.low f) 4 0
      f.free [8, 4, 5] = true ∧ f.free [8, 9, 4, 5] = true ∧ Agree g f (fun c => scalarAddr c 4 0) ∧ Agree g f (fun c => (c.get 8).toNat) ∧
      Agree g f (fun c => (c.getPair 8).toNat) ∧ s.chk (s.whoGang g) .store va 4 = .ok ∧ s.chk (s.whoGang g) .store va 8 = .ok ∧
      s.wouldHold g va (leOf 4 ((g.low f).get 8).toNat) = false ∧ s.wouldHold g va (leOf 8 ((g.low f).getPair 8).toNat) = false ∧
      goesOn s [.sst 8 4 0, .sstD 8 4 0, .sld 8 4 0, .sldD 8 4 0] = true :=
  ⟨⟨witness_ScalarArithmetic_and_Division, witness_ScalarMasks, witness_ScalarLoads, witness_ControlRegisters, witness_ClausesEnqueue,
    witness_GuardsSetAndClear, witness_WaitsForLaneWork, witness_ScalarControl, witness_ScalarTraps, witness_TrapEntries, witness_TrapReturns,
    witness_PdoneYields, witness_GendEnds⟩, by simp only [agree_iff]; decide +kernel⟩
theorem witness_LaneComputationsComplete :
    (type_of% witness_LaneArithmetic ∧ type_of% witness_LaneBits_and_Moves ∧ type_of% witness_LaneCompare ∧ type_of% witness_LaneFloats ∧
      type_of% witness_LanePacked ∧ type_of% witness_Quads ∧ type_of% witness_LaneConversions ∧ type_of% witness_LaneTags) ∧
    goesOn (laneG (tags Tag.f32)) [.fadd 1 2 (.vec 3) Tag.f32 .rne, .fsub 1 2 (.vec 3) Tag.f32 .rne, .fmul 1 2 (.vec 3) Tag.f32 .rne,
      .fmin 1 2 (.vec 3) Tag.f32, .fcls 1 2 Tag.f32, .fex2 1 2, .flg2 1 2, .fsin 1 2, .frcp 1 2, .frsq 1 2] = true :=
  ⟨⟨witness_LaneArithmetic, witness_LaneBits_and_Moves, witness_LaneCompare, witness_LaneFloats, witness_LanePacked, witness_Quads,
    witness_LaneConversions, witness_LaneTags⟩, by decide +kernel⟩
theorem witness_LaneMemoryFormsComplete :
    (type_of% witness_LaneLoads ∧ type_of% witness_LaneStores ∧ type_of% witness_Scratchpads ∧ type_of% witness_Atomics ∧
      type_of% witness_Fences ∧ type_of% witness_WaitsOnMemory ∧ type_of% witness_Messages_send ∧ type_of% witness_Messages_receive ∧
      type_of% witness_Messages_status ∧ type_of% witness_HintsAndMaintenance) ∧
    Here laneP fun g f => let w := laneP.whoGang g
      let ad := spAddr (f.captured (g.actSlice f) 10) 0 0
      (∀ e ∈ g.definite 0 (fun va => laneP.chk w .load va 8) (laneP.loadBad g 8) (globAddrs laneP.clk g f (g.taking f) 8 0 false 0 8),
        laneP.chk w .load e.2 8 = .ok ∧ laneP.poisonAt w e.2 8 = none) ∧
      (∀ e ∈ g.definite 0 (fun va => laneP.chk w .store va 8) noBad (globAddrs laneP.clk g f (g.storing f) 8 0 false 0 8),
        laneP.chk w .store e.2 8 = .ok ∧ HeldInDram laneP w .store e.2 8) ∧
      (∀ e ∈ g.definite 0 (spChk (laneP.block? g.block) 4) noBad (spAddrs laneP.clk g f (g.storing f) 10 0 false 0 4092), e.2 + 4 ≤ 4096) ∧
      LaneReady (.atom 10 2 (.glob 8) 0 .add false .rlx .gang false 0 Tag.i32 .a) laneP g f [(Tag.i32, span 2 (atomData .add false))] ∧
      (let l := g.definite 0 (laneP.chkAtom w true 4) (laneP.loadBad g 4) (globAddrs laneP.clk g f (g.storing f) 8 0 false 0 0)
       (∀ e ∈ l, laneP.chkAtom w true 4 e.2 = .ok ∧ laneP.poisonAt w e.2 4 = none) ∧
       (l.foldl (fun (u : State) e => (u.atomGlob g e.2 4 .add (laneData laneP.clk g 2 4 e.1) (laneData laneP.clk g 3 4 e.1)).2)
         laneP).cur = some (g, f)) ∧
      LaneReady (.waita 5 6 (.sp 10) false .block 0) laneP g f [] ∧ g.taking f ≠ 0 ∧ ad % 4 = 0 ∧ ad + 4 ≤ 4096 ∧
      laneP.spBad (laneP.block? g.block) 4 ad = none ∧ f.lwait = .none ∧
      BitVec.ofNat 32 (leVal ((List.range 4).map fun k => Memory.read laneP.sp (spKey 0 (256 * 0 + ad) + k))) = f.captured (g.actSlice f) 6 ∧
      goesOn laneP [.vld 1 8 0 .dword false 0 false 8 Tag.i32 .a, .vst 1 8 0 .dword 0 false 8 .a, .waita 5 6 (.sp 10) false .block 0] = true := by
  refine ⟨⟨witness_LaneLoads, witness_LaneStores, witness_Scratchpads, witness_Atomics, witness_Fences, witness_WaitsOnMemory,
    witness_Messages_send, witness_Messages_receive, witness_Messages_status, witness_HintsAndMaintenance⟩, ?_⟩
  simp only [laneReady_iff, heldInDram_iff]
  decide +kernel
theorem witness_ParallelFormsComplete :
    (type_of% witness_RowResults ∧ type_of% witness_WidthExitAndRefill ∧ type_of% witness_Spawns ∧ type_of% witness_Events ∧
      type_of% witness_FragmentsMerge ∧ type_of% witness_LaunchBarriers ∧ type_of% witness_LaunchBarriers_meet) ∧
    (Here pairS fun g f => LaneReady (.setdcl 1) pairS g f [] ∧ (pairS.block? g.block).isSome = true ∧
      ∃ ps, Gathers pairS g f .b ps ∧ ∀ p ∈ ps, ∀ x ∈ p.fs, pairS.poisonSrc p.g x (.setdcl 1) = none) ∧
    Here lane fun g f => LaneReady (.vscan .l 1 2 .add false Tag.i32 .rne) lane g f [(Tag.i32, [2])] ∧ (lane.iface? g.vi).isSome = true ∧
      g.frags.Pairwise (fun x y => x.slices &&& y.slices = 0) ∧
      (lane.launch? g.launch).any (fun l => decide (l.nitems ≤ l.itemsTaken)) = true ∧
      goesOn lane [.vscan .l 1 2 .add false Tag.i32 .rne, .refill 1, .lexit, .gwid 5] = true := by
  refine ⟨⟨witness_RowResults, witness_WidthExitAndRefill, witness_Spawns, witness_Events, witness_FragmentsMerge, witness_LaunchBarriers,
    witness_LaunchBarriers_meet⟩, ?_, by simp only [laneReady_iff]; decide +kernel⟩
  have h : Here pairS fun g f => (laneReady (.setdcl 1) pairS g f [] = true ∧ (pairS.block? g.block).isSome = true) ∧
      ∃ ps ∈ gathered pairS g f .b, ∀ p ∈ ps, ∀ x ∈ p.fs, pairS.poisonSrc p.g x (.setdcl 1) = none := by decide +kernel
  simp only [laneReady_iff]
  refine here_mono ?_ h
  rintro g f ⟨⟨h1, h2⟩, ps, h3, h4⟩
  exact ⟨h1, h2, ps, gathers_of_gathered h3, h4⟩
theorem witness_EngineFormsComplete :
    (type_of% witness_MatrixIssue ∧ type_of% witness_CopyCommands ∧ type_of% witness_Queries ∧ type_of% witness_RingStores ∧
      type_of% witness_RingReads ∧ type_of% witness_BatchesAndBudget ∧ type_of% witness_CopyWaits ∧ type_of% witness_MeshRecords ∧
      type_of% witness_FifosPushAndPop_push ∧ type_of% witness_FifosPushAndPop_pop ∧ type_of% witness_FifosCount ∧
      type_of% witness_GatesOfCores_requests) ∧
    Here (matS id) fun g f => LaneReady (.mvm 1 0 (.vec 20) 12 0 true 12 ⟨.a, none⟩) (matS id) g f [] ∧ EnginesQuiet g ∧
      g.engFull .matrix = false ∧ g.engFull .copy = false ∧ g.flagStall f .a = false ∧
      matTags g ((matS id).accTagAhead 0 g 1) 0 12 12 0 1 = none ∧ g.busyV 20 = false ∧ intTagPass Tag.i32 (g.tagOf 20) = true ∧
      (∀ l, l < 32 → handleChk ((matS id).block? g.block) (mvmHandle 0 g ((matS id).block? g.block) f (.vec 20) l) = .ok) ∧
      LaneReady (.tst 15 (.glob 8) true 0 ⟨.a, none⟩) (matS id) g f [] ∧
      (matS id).tileChk g (.glob 8) .store 2560 (tileAddr f (lowTaking f (g.taking f)) (.glob 8) 0) = .ok ∧
      goesOn (matS id) [.mvm 1 0 (.vec 20) 12 0 true 12 ⟨.a, none⟩, .tst 15 (.glob 8) true 0 ⟨.a, none⟩, .mma .l 1 0 3 12 true 12 ⟨.a, none⟩,
        .dsub 8 ⟨.a, none⟩] = true := by
  refine ⟨⟨witness_MatrixIssue, witness_CopyCommands, witness_Queries, witness_RingStores, witness_RingReads, witness_BatchesAndBudget,
    witness_CopyWaits, witness_MeshRecords, witness_FifosPushAndPop_push, witness_FifosPushAndPop_pop, witness_FifosCount,
    witness_GatesOfCores_requests⟩, ?_⟩
  simp only [laneReady_iff, EnginesQuiet]
  decide +kernel
/-- Two fragments of a gang at their rendezvous over one VOTE. -/
def voteS : State := { here (atLane (full 0x084 1 1 2 0 0 0 0 0 0 0 0 0) []) split fun f => { f with lwait := .rendezvous 2 } with clk := 100 }
/-- A fragment that waits for equality in the scratchpad, since the clock 3, with a limit of 256 clocks. -/
def waitingS : State := { here (atLane (full 0x0C7 0 5 6 10 0 0x06 0 0 0 0 0 1) []) id fun f => { f with lwait := .waita 3 } with
  blocks := [(0, some { gangs := [0], scratch := 4096 })], clk := 259 }
theorem witness_SequencerStepsComplete :
    (type_of% witness_ClauseEnters ∧ type_of% witness_GuardsResolve ∧ type_of% witness_LaneWritesLand ∧ type_of% witness_RendezvousSteps_late ∧
      type_of% witness_FragmentsMerge ∧ type_of% witness_ClassesAge ∧ type_of% witness_ParksEnd ∧ type_of% witness_Cancellation ∧
      type_of% witness_RegisterSteps ∧ type_of% witness_FlaggedOperationsComplete ∧ type_of% witness_Events_spilled ∧
      type_of% witness_PreemptionRequests ∧ type_of% witness_BlocksStart ∧ type_of% witness_HardwareSaves ∧ type_of% witness_LaunchesEnd ∧
      type_of% witness_LaunchBarriers_admit ∧ type_of% witness_WidthExitAndRefill ∧ type_of% witness_Migrations) ∧
    (Here voteS fun g f => f.lwait = .rendezvous 2 ∧ voteS.itemAt g f = some (.vote .g (.vec 1) 2 .ballot, 13) ∧
      LaneReady (.vote .g (.vec 1) 2 .ballot) voteS g f [] ∧
      ∃ ps, Gathers voteS g f .g ps ∧ ∀ p ∈ ps, ∀ x ∈ p.fs, voteS.poisonSrc p.g x (.vote .g (.vec 1) 2 .ballot) = none) ∧
    (let w : Waiter := { gang := 0, op := 4 }
     let o : AsyncOp := { id := 4, hold := 2 }
     let s := { laneG fun g => { g with asyncs := [o] } with feq := [.kick 1, .spilled w], ifaces := [(0, some {})] }
     Here s fun g _ => s.feq.findSome? (fun e => match e with
        | .spilled w => some w
        | _ => none) = some w ∧ w.gang = s.gang ∧ g.asyncs = [o] ∧ s.iface? g.vi = some {} ∧
        g.frags.Pairwise (fun x y => x.slices &&& y.slices = 0) ∧ goesOn s [.spilledWaiterComplete] = true) ∧
    Here waitingS fun g f => let i := Instr.waita 5 6 (.sp 10) false .block 1
      let ad := spAddr (f.captured (g.actSlice f) 10) 0 0
      LaneReady i waitingS g f [] ∧ g.taking f ≠ 0 ∧ (waitingS.block? g.block).isSome = true ∧ f.lwait = .waita 3 ∧
      waitingS.itemAt g f = some (i, 13) ∧ ad % 4 = 0 ∧ ad + 4 ≤ 4096 ∧ waitingS.spBad (waitingS.block? g.block) 4 ad = none ∧
      256 * (1 : Half).toNat ≤ waitingS.clk - 3 ∧ goesOn waitingS [.waitaComplete, .waitaTimeout] = true := by
  refine ⟨⟨witness_ClauseEnters, witness_GuardsResolve, witness_LaneWritesLand, witness_RendezvousSteps_late, witness_FragmentsMerge,
    witness_ClassesAge, witness_ParksEnd, witness_Cancellation, witness_RegisterSteps, witness_FlaggedOperationsComplete,
    witness_Events_spilled, witness_PreemptionRequests, witness_BlocksStart, witness_HardwareSaves, witness_LaunchesEnd,
    witness_LaunchBarriers_admit, witness_WidthExitAndRefill, witness_Migrations⟩, ?_, by decide +kernel, by simp only [laneReady_iff]; decide +kernel⟩
  have h : Here voteS fun g f => (f.lwait = .rendezvous 2 ∧ voteS.itemAt g f = some (.vote .g (.vec 1) 2 .ballot, 13) ∧
      laneReady (.vote .g (.vec 1) 2 .ballot) voteS g f [] = true) ∧
      ∃ ps ∈ gathered voteS g f .g, ∀ p ∈ ps, ∀ x ∈ p.fs, voteS.poisonSrc p.g x (.vote .g (.vec 1) 2 .ballot) = none := by decide +kernel
  simp only [laneReady_iff]
  refine here_mono ?_ h
  rintro g f ⟨⟨h1, h2, h3⟩, ps, h4, h5⟩
  exact ⟨h1, h2, h3, ps, gathers_of_gathered h4, h5⟩
theorem witness_EngineStepsComplete :
    (type_of% witness_MatrixStarts ∧ type_of% witness_MatrixEffects ∧ type_of% witness_BatchesAndBudget ∧ type_of% witness_CopyStarts ∧
      type_of% witness_CopiesLand ∧ type_of% witness_CopiesLand_poison ∧ type_of% witness_Messages_arrive ∧ type_of% witness_Messages_status ∧
      type_of% witness_Queries ∧ type_of% witness_Decompression ∧ type_of% witness_Binning_waits ∧ type_of% witness_StoreReachesL2 ∧
      type_of% witness_FifosCount ∧ type_of% witness_CoreWindows ∧ type_of% witness_LinesKept ∧ type_of% witness_RegisterSteps ∧
      type_of% witness_ControlRange) ∧
    (let j : DdeCard := { bad := true }
     let s := { laneP with clusters := [(0, { job := some j })] }
     (FMap.get s.clusters s.subject).job = some j ∧ j.parked = false ∧ j.bad = true ∧ goesOn s [.ddeJobEnd] = true) ∧
    (let s := { ringS 1 with stores := [pixel] }
     Here s fun g _ => s.stores[s.subject]? = some pixel ∧ pixel.pixels = [(0, 0, 7, 0)] ∧ s.stores.take s.subject = [] ∧
      s.gang? pixel.gang = some g ∧ EnginesQuiet g ∧ goesOn s [.ringStoreLand] = true) :=
  ⟨⟨witness_MatrixStarts, witness_MatrixEffects, witness_BatchesAndBudget, witness_CopyStarts, witness_CopiesLand, witness_CopiesLand_poison,
    witness_Messages_arrive, witness_Messages_status, witness_Queries, witness_Decompression, witness_Binning_waits, witness_StoreReachesL2,
    witness_FifosCount, witness_CoreWindows, witness_LinesKept, witness_RegisterSteps, witness_ControlRange⟩, by decide +kernel,
    by simp only [EnginesQuiet]; decide +kernel⟩
theorem witness_DeviceStepsComplete :
    type_of% witness_ChainsAdmitted ∧ type_of% witness_ChainsEnd ∧ type_of% witness_StripsScanned ∧ type_of% witness_EncoderRows ∧
    type_of% witness_HandoverAndTime ∧ type_of% witness_FrameLock_frames ∧ type_of% witness_FrameLock_beacons ∧
    type_of% witness_FlitsReceived ∧ type_of% witness_FlitsSent ∧ type_of% witness_LanesShed ∧ type_of% witness_HostRdma ∧
    type_of% witness_KicksAndAgeing_kicks ∧ type_of% witness_KicksAndAgeing_ages ∧ type_of% witness_HeadPackets ∧
    type_of% witness_PacketsTaken_kinds ∧ type_of% witness_PacketsTaken_launches ∧ type_of% witness_ChainsRegistered ∧
    type_of% witness_RemoteStores ∧ type_of% witness_PowerIntervals ∧ type_of% witness_IdleDomains_enter ∧ type_of% witness_IdleDomains_exit ∧
    type_of% witness_GatesOfCores_ends ∧ type_of% witness_CryoStates ∧ type_of% witness_ModuleResets ∧ type_of% witness_ImagesAndQuotes ∧
    type_of% witness_DeviceResets ∧ type_of% witness_Interfaces :=
  ⟨witness_ChainsAdmitted, witness_ChainsEnd, witness_StripsScanned, witness_EncoderRows, witness_HandoverAndTime, witness_FrameLock_frames,
    witness_FrameLock_beacons, witness_FlitsReceived, witness_FlitsSent, witness_LanesShed, witness_HostRdma, witness_KicksAndAgeing_kicks,
    witness_KicksAndAgeing_ages, witness_HeadPackets, witness_PacketsTaken_kinds, witness_PacketsTaken_launches, witness_ChainsRegistered,
    witness_RemoteStores, witness_PowerIntervals, witness_IdleDomains_enter, witness_IdleDomains_exit, witness_GatesOfCores_ends,
    witness_CryoStates, witness_ModuleResets, witness_ImagesAndQuotes, witness_DeviceResets, witness_Interfaces⟩

end Sys2Proof.Tests
end

namespace Sys2Proof.FMap

/-- A key reads what the last of several writes to it put there, where the value written is settled by the key. -/
theorem get_foldl_put {α β : Type} [DecidableEq α] [Inhabited α] (key : β → Nat) (val : Nat → α) (i : Nat) (js : List β) :
    ∀ m : FMap α, get (js.foldl (fun m j => put m (key j) (val (key j))) m) i = if i ∈ js.map key then val i else get m i := by
  induction js with
  | nil => intro m; simp
  | cons j r ih =>
    intro m
    simp only [List.foldl_cons, ih, get_put, List.map_cons, List.mem_cons]
    by_cases hr : i ∈ r.map key
    · simp [hr]
    · by_cases hj : i = key j <;> simp [hr, hj]

end Sys2Proof.FMap

namespace Sys2Proof.Machine

/-! ### STSEED (02 R45) -/

theorem Gang.rng_reseed (g : Gang) (sl : Nat) (z : Word) (l : Nat) :
    FMap.get (g.reseed sl z).rng l = if l / 8 = sl then rngSeed z l else FMap.get g.rng l := by
  have h := FMap.get_foldl_put (fun j => 8 * sl + j) (rngSeed z) l (List.range 8) g.rng
  have hm : (l ∈ (List.range 8).map fun j => 8 * sl + j) ↔ l / 8 = sl := by
    simp only [List.mem_map, List.mem_range]
    exact ⟨fun ⟨j, hj, he⟩ => by omega, fun he => ⟨l % 8, by omega, by omega⟩⟩
  simpa only [Gang.reseed, hm] using h

/-- Every slice of a list seeds its own lanes from its own STSEED, and nothing but generators changes. -/
theorem Gang.reseed_slices (ls : List Nat) : ∀ g : Gang, ∃ rng,
    ls.foldl (fun (g : Gang) sl => g.reseed sl ((g.copy sl).kget 25)) g = { g with rng := rng } ∧
    ∀ l, FMap.get rng l = if l / 8 ∈ ls then rngSeed ((g.copy (l / 8)).kget 25) l else FMap.get g.rng l := by
  induction ls with
  | nil => intro g; exact ⟨g.rng, rfl, fun l => by simp⟩
  | cons a r ih =>
    intro g
    obtain ⟨rng, hf, hr⟩ := ih (g.reseed a ((g.copy a).kget 25))
    refine ⟨rng, hf, fun l => ?_⟩
    have hc : (g.reseed a ((g.copy a).kget 25)).copy = g.copy := rfl
    simp only [hr, hc, Gang.rng_reseed, List.mem_cons]
    by_cases h1 : l / 8 ∈ r
    · simp [h1]
    · by_cases h2 : l / 8 = a <;> simp [h1, h2]

/-- STSEED is stored as it is written. -/
theorem SliceCopy.kget_kstore_stseed (c : SliceCopy) (sys : Bool) (v : Word) :
    (c.kstore sys 25 v).kget 25 = v ∧ (c.kstore sys 25 v).s = c.s := by
  simp [SliceCopy.kstore, SliceCopy.kset, SliceCopy.kget]

/-- A write of STSEED seeds the generators of the fragment's own lanes (the model's choice of entry 89: R45 says every lane). -/
theorem stseedWrite_seeds (s : State) (g : Gang) (f : Frag) (v : Word) (h : s.cur = some (g, f)) :
    ∃ t g', exec (.stseedWrite v) s = .next t ∧ OnlyGang s t ∧
    t.cur = some (g', f) ∧ { g' with copies := g.copies, frags := g.frags, rng := g.rng } = g ∧
    (∀ l, l < 32 → FMap.get g'.rng l = if f.slices.getLsbD (l / 8) then rngSeed v l else FMap.get g.rng l) ∧
    ∀ sl, f.slices.getLsbD sl = true → (g'.copy sl).kget 25 = v ∧ (g'.copy sl).s = (g.copy sl).s := by
  have hc : ∀ sl, f.slices.getLsbD sl = true →
      (g.mapCopies f.sliceList fun c => c.kstore g.priv 25 v).copy sl = (g.copy sl).kstore g.priv 25 v := fun sl hb => by
    rw [Gang.copy_mapCopies _ _ _ _ f.sliceList_nodup, if_pos (f.mem_sliceList sl |>.mpr hb)]
  have hm : ({ g.mapCopies f.sliceList fun c => c.kstore g.priv 25 v with copies := g.copies } : Gang) = g :=
    Gang.mapCopies_frame _ _ g
  generalize hg1 : (g.mapCopies f.sliceList fun c => c.kstore g.priv 25 v) = g1 at hc hm
  obtain ⟨rng, hk, hr⟩ := Gang.reseed_slices f.sliceList g1
  have hs : g.kwslices f g.priv 25 (fun _ => v) = { g1 with rng := rng } := by rw [← hk, ← hg1]; rfl
  refine ⟨_, ({ g1 with rng := rng } : Gang).putFrag f, (withCur_some h _).trans (by rw [hs]; rfl), State.onlyGang_updGang s _,
    State.cur_setCur h _ f (congrArg Gang.frags hm :) rfl, ?_, fun l _ => ?_, fun sl hb => ?_⟩
  · exact congrArg (fun x : Gang => { x with frags := g.frags, rng := g.rng }) hm
  · have hrng : g1.rng = g.rng := (congrArg Gang.rng hm :)
    refine (hr l).trans ?_
    simp only [f.mem_sliceList, hrng]
    by_cases hb : f.slices.getLsbD (l / 8) = true
    · simp [hb, hc _ hb, SliceCopy.kget_kstore_stseed]
    · simp [hb]
  · have he : (({ g1 with rng := rng } : Gang).putFrag f).copy sl = (g.copy sl).kstore g.priv 25 v := hc sl hb
    rw [he]
    exact SliceCopy.kget_kstore_stseed (g.copy sl) g.priv v

/-! ### Writes that reach the L2 (12 R206, R213, R226) -/

@[simp] theorem State.core_updCore (s : State) (n m : Nat) (k : Core → Core) :
    (s.updCore n k).core m = if m = n then k (s.core n) else s.core m := State.core_setCore s n m _

@[simp] theorem State.updCore_gangs (s : State) (n : Nat) (k : Core → Core) : (s.updCore n k).gangs = s.gangs := rfl
@[simp] theorem State.updCore_mem (s : State) (n : Nat) (k : Core → Core) : (s.updCore n k).mem = s.mem := rfl
@[simp] theorem State.hwWrite_gangs (s : State) (a : Nat) (bs : List Byte) : (s.hwWrite a bs).gangs = s.gangs := rfl
@[simp] theorem State.hwWrite_core (s : State) (a : Nat) (bs : List Byte) (n : Nat) : (s.hwWrite a bs).core n = s.core n := rfl

/-- The cells of bytes at rising addresses. -/
theorem mem_cellsFrom {a : Nat} {bs : List Byte} {c : Host.Cell} {k : Nat} (h : c ∈ (bs.zipIdx k).map fun e => (a + e.2, e.1)) :
    a + k ≤ c.1 ∧ c.1 < a + k + bs.length := by
  obtain ⟨e, he, rfl⟩ := List.mem_map.mp h
  have h1 := List.le_snd_of_mem_zipIdx he
  have h2 := List.snd_lt_add_of_mem_zipIdx he
  exact ⟨by simpa using h1, by simp; omega⟩

/-- Cells written one by one are the bytes written at rising addresses. -/
theorem Memory.foldl_cells_eq_writeAt (bs : List Byte) : ∀ (m : Memory) (a k : Nat),
    ((bs.zipIdx k).map fun e => (a + e.2, e.1)).foldl (fun m (c : Host.Cell) => Memory.write m c.1 c.2) m = Memory.writeAt m (a + k) bs := by
  induction bs with
  | nil => intro m a k; rfl
  | cons b r ih => intro m a k; simpa [Memory.writeAt, Nat.add_assoc] using ih (Memory.write m (a + k) b) a (k + 1)

theorem State.dirty_l2Write (s : State) (cs : List Host.Cell) (l : Nat) :
    FMap.get (s.l2Write cs).dirty l = if ∃ c ∈ cs, lineOf c.1 = l then true else FMap.get s.dirty l := by
  have h := FMap.get_foldl_put (fun l => l) (fun _ => true) l (cs.map fun c => lineOf c.1).eraseDups s.dirty
  simp only [List.map_id', List.mem_eraseDups, List.mem_map] at h
  exact h

/-- A hardware write within DRAM writes its bytes, and turns their lines dirty. -/
theorem State.hwWrite_dram (s : State) (a : Nat) (bs : List Byte) (h : a + bs.length ≤ dramEnd) : ∃ d p,
    s.hwWrite a bs = { s with mem := Memory.writeAt s.mem a bs, dirty := d, poison := p } ∧
    ∀ l, (∀ i, i < bs.length → lineOf (a + i) ≠ l) → FMap.get d l = FMap.get s.dirty l := by
  have hin : ∀ c ∈ (bs.zipIdx.map fun e => (a + e.2, e.1) : List Host.Cell), c.1 < dramEnd := fun c hc => by
    have := mem_cellsFrom hc; omega
  have h1 : (bs.zipIdx.map fun e => (a + e.2, e.1) : List Host.Cell).filter (fun c => decide (c.1 < dramEnd)) =
      bs.zipIdx.map fun e => (a + e.2, e.1) := List.filter_eq_self.mpr fun c hc => by simpa using hin c hc
  have h2 : (bs.zipIdx.map fun e => (a + e.2, e.1) : List Host.Cell).filter (fun c => decide (dramEnd ≤ c.1) && mapped c.1) = [] :=
    List.filter_eq_nil_iff.mpr fun c hc => by have := hin c hc; simp; omega
  let cs : List Host.Cell := bs.zipIdx.map fun e => (a + e.2, e.1)
  refine ⟨(s.l2Write cs).dirty, (s.l2Write cs).poison, ?_, fun l hl => ?_⟩
  · have hm : (s.l2Write cs).mem = Memory.writeAt s.mem a bs := Memory.foldl_cells_eq_writeAt bs s.mem a 0
    rw [← hm]
    simp only [State.hwWrite, State.post, h1, h2]
    simp only [runsOf, List.foldl_nil, List.reverse_nil, List.map_nil, List.append_nil]
    rfl
  · rw [State.dirty_l2Write, if_neg]
    rintro ⟨c, hc, he⟩
    have := mem_cellsFrom hc
    exact hl (c.1 - a) (by omega) (by rw [← he]; congr 1; omega)

/-- Stores that reach the L2 one after another change the L2 alone. -/
theorem State.foldl_l2Write (es : List (Nat × List Host.Cell)) : ∀ s : State, ∃ m d p,
    es.foldl (fun (s : State) e => s.l2Write e.2) s = { s with mem := m, dirty := d, poison := p } := by
  induction es with
  | nil => intro s; exact ⟨_, _, _, rfl⟩
  | cons e r ih => intro s; exact ih (s.l2Write e.2)

/-- A drain of every path changes the L2 and empties the paths. -/
theorem State.drainAll_eq (s : State) : ∃ m d p, s.drainAll = { s with mem := m, dirty := d, poison := p, path := [] } := by
  obtain ⟨m, d, p, h⟩ := State.foldl_l2Write s.path s
  exact ⟨m, d, p, by rw [State.drainAll, h]⟩

theorem State.drainAll_of_path_nil {s : State} (h : s.path = []) : s.drainAll = s := by
  simp [State.drainAll, h]; rw [← h]

/-! ### CGCTL (10 R190, R191) -/

/-- The size and the base of a ring are ones that tracing takes (10 R190). -/
def Chrono.legal (c : Chrono) : Bool := cgSizeOk c.size.toNat && c.base.toNat % 4096 == 0

/-- What CGCTL holds after a write of `v` (10 R191), EN refused where `bad`. -/
def cgctlStored (v : Word) (bad : Bool) : Word :=
  (v &&& 0x303) &&& (if bad then ~~~1#32 else ~~~0#32) ||| BitVec.ofNat 32 (4 * min 8 (bitsOf v.toNat 5 2))

theorem cgSizeOk_iff (n : Nat) : cgSizeOk n = true ↔ 4096 ≤ n ∧ n ≤ 2 ^ 30 ∧ ∃ k, n = 2 ^ k := by
  have hp : n = 2 ^ Nat.log2 n ↔ ∃ k, n = 2 ^ k := by
    refine ⟨fun h => ⟨_, h⟩, ?_⟩
    rintro ⟨k, rfl⟩
    rw [Nat.log2_two_pow]
  simp [cgSizeOk, hp, and_assoc]

theorem Chrono.legal_iff (c : Chrono) : c.legal = true ↔
    4096 ≤ c.size.toNat ∧ c.size.toNat ≤ 2 ^ 30 ∧ (∃ k, c.size.toNat = 2 ^ k) ∧ c.base.toNat % 4096 = 0 := by
  simp only [Chrono.legal, Bool.and_eq_true, cgSizeOk_iff, beq_iff_eq, and_assoc]

theorem bitsOf_toNat (x : Word) (hi lo : Nat) : bitsOf x.toNat hi lo = (x.extractLsb' lo (hi + 1 - lo)).toNat := by
  simp [bitsOf, Nat.shiftRight_eq_div_pow]

/-- SYNCLOG lies in bits 5 to 2. -/
theorem syncLog_bits : ∀ n, n < 9 →
    (BitVec.ofNat 32 (4 * n)).getLsbD 0 = false ∧ (BitVec.ofNat 32 (4 * n)).getLsbD 1 = false ∧
    (BitVec.ofNat 32 (4 * n)).extractLsb' 8 2 = 0#2 ∧ ((BitVec.ofNat 32 (4 * n)).extractLsb' 2 4).toNat = n := by decide

/-- What CGCTL keeps of a word beside SYNCLOG: the low bits, of which a refusal clears EN, and bits 9 and 8. -/
theorem cgctlMask_bits : ∀ bad : Bool, let m := 0x303#32 &&& (if bad then ~~~1#32 else ~~~0#32)
    m.getLsbD 0 = (!bad) ∧ m.getLsbD 1 = true ∧ m.extractLsb' 8 2 = BitVec.allOnes 2 ∧ m.extractLsb' 2 4 = 0#4 := by decide

/-- EN, STALL, the mode bits and SYNCLOG of what CGCTL stores. -/
theorem cgctlStored_bits (v : Word) (bad : Bool) :
    (cgctlStored v bad).getLsbD 0 = (v.getLsbD 0 && !bad) ∧ (cgctlStored v bad).getLsbD 1 = v.getLsbD 1 ∧
    bitsOf (cgctlStored v bad).toNat 9 8 = bitsOf v.toNat 9 8 ∧
    bitsOf (cgctlStored v bad).toNat 5 2 = min 8 (bitsOf v.toNat 5 2) := by
  obtain ⟨n0, n1, n8, n2⟩ := syncLog_bits (min 8 (bitsOf v.toNat 5 2)) (Nat.lt_succ_of_le (Nat.min_le_left _ _))
  obtain ⟨m0, m1, m8, m2⟩ := cgctlMask_bits bad
  unfold cgctlStored
  rw [BitVec.and_assoc]
  generalize 0x303#32 &&& (if bad then ~~~1#32 else ~~~0#32) = m at m0 m1 m8 m2
  generalize min 8 (bitsOf v.toNat 5 2) = n at n0 n1 n8 n2
  refine ⟨?_, ?_, ?_, ?_⟩
  · rw [BitVec.getLsbD_or, BitVec.getLsbD_and, m0, n0, Bool.or_false]
  · rw [BitVec.getLsbD_or, BitVec.getLsbD_and, m1, n1, Bool.and_true, Bool.or_false]
  · rw [bitsOf_toNat, bitsOf_toNat, BitVec.extractLsb'_or, BitVec.extractLsb'_and, m8, n8, BitVec.and_allOnes, BitVec.or_zero]
  · rw [bitsOf_toNat, BitVec.extractLsb'_or, BitVec.extractLsb'_and, m2, BitVec.and_zero, BitVec.zero_or, n2]

/-- Forgetting what fragments owe changes, of the core, when they last synced and what is undefined. -/
theorem State.core_cgForget (s : State) (core : Nat) (p : Gang → Bool) : ∃ sy un,
    (s.cgForget core p).core core = { s.core core with cg := { (s.core core).cg with syncs := sy, undef := un } } :=
  ⟨_, _, (State.core_setCore s core core _).trans (if_pos rfl)⟩

/-- A write of CGCTL: the core's own part of it. -/
theorem State.core_cgctl (s : State) (core : Nat) (v : Word) :
    let bad := v.getLsbD 0 && !(s.core core).cg.legal
    ∃ cq wt sy un, (s.cgctl core v).core core = { s.core core with
      cg := { (s.core core).cg with ctl := cgctlStored v bad, clockQ := cq, waiting := wt, syncs := sy, undef := un }
      cfgBad := (s.core core).cfgBad || bad } := by
  intro bad
  let s1 := s.updCore core fun k => { k with cg := { k.cg with ctl := cgctlStored v bad }, cfgBad := k.cfgBad || bad }
  let s2 := if (cgctlStored v bad).getLsbD 0 then s1 else s1.updCore core fun k => { k with cg := { k.cg with clockQ := [], waiting := [] } }
  have hs : s.cgctl core v =
      if (cgctlStored v bad).getLsbD 0 == (s.core core).cg.ctl.getLsbD 0 then s2 else s2.cgForget core fun _ => true := rfl
  have h1 : s1.core core = { s.core core with
      cg := { (s.core core).cg with ctl := cgctlStored v bad }, cfgBad := (s.core core).cfgBad || bad } := by simp [s1]
  have h2 : ∃ cq wt, s2.core core = { s.core core with
      cg := { (s.core core).cg with ctl := cgctlStored v bad, clockQ := cq, waiting := wt }, cfgBad := (s.core core).cfgBad || bad } := by
    by_cases he : (cgctlStored v bad).getLsbD 0 = true
    · exact ⟨_, _, by simp only [s2, if_pos he]; exact h1⟩
    · exact ⟨[], [], by simp only [s2, if_neg he, State.core_updCore, if_true, h1]⟩
  obtain ⟨cq, wt, h2⟩ := h2
  rw [hs]
  split
  · exact ⟨cq, wt, _, _, h2⟩
  · obtain ⟨sy, un, h3⟩ := State.core_cgForget s2 core fun _ => true
    exact ⟨cq, wt, sy, un, by rw [h3, h2]⟩

theorem exec_cgctlWrite (s : State) (core : Nat) (v : Word) (h : core < 1344) :
    exec (.cgctlWrite core v) s = .next (s.cgctl core v) :=
  congrArg Host.Outcome.next (if_pos h)

theorem cgctlWrite_stores (s : State) (core : Nat) (v : Word) (h : core < 1344) :
    let c := (s.core core).cg
    let legal : Prop := 4096 ≤ c.size.toNat ∧ c.size.toNat ≤ 2 ^ 30 ∧ (∃ k, c.size.toNat = 2 ^ k) ∧ c.base.toNat % 4096 = 0
    ∃ t, exec (.cgctlWrite core v) s = .next t ∧ let d := (t.core core).cg
      (d.ctl.getLsbD 0 = true ↔ v.getLsbD 0 = true ∧ legal) ∧ d.ctl.getLsbD 1 = v.getLsbD 1 ∧
      bitsOf d.ctl.toNat 9 8 = bitsOf v.toNat 9 8 ∧ bitsOf d.ctl.toNat 5 2 = min 8 (bitsOf v.toNat 5 2) ∧
      ((t.core core).hwSets.cg.cfgerr = true ↔ (s.core core).hwSets.cg.cfgerr = true ∨ (v.getLsbD 0 = true ∧ ¬ legal)) := by
  intro c legal
  have hl : c.legal = true ↔ legal := c.legal_iff
  obtain ⟨cq, wt, sy, un, hc⟩ := State.core_cgctl s core v
  obtain ⟨h0, h1, h9, h5⟩ := cgctlStored_bits v (v.getLsbD 0 && !c.legal)
  refine ⟨_, exec_cgctlWrite s core v h, ?_⟩
  rw [hc]
  refine ⟨?_, h1, h9, h5, ?_⟩
  · rw [← hl]
    refine (Bool.eq_iff_iff.mp h0).trans ?_
    cases v.getLsbD 0 <;> simp
  · rw [← hl]
    simp [Core.hwSets, or_assoc, c]

/-! ### CGRD (10 R196) -/

theorem exec_cgrdWrite (s : State) (core : Nat) (v : Word) (h : core < 1344) :
    exec (.cgrdWrite core v) s = .next (s.cgrd core v) :=
  congrArg Host.Outcome.next (if_pos h)

/-- The state once CGRD holds `v` and nothing else has changed. -/
def State.putCgrd (s : State) (core : Nat) (v : Word) : State :=
  s.updCore core fun k => { k with cg := { k.cg with rd := v } }

theorem State.core_putCgrd (s : State) (core : Nat) (v : Word) (k : Nat) :
    (s.putCgrd core v).core k =
      if k = core then { s.core core with cg := { (s.core core).cg with rd := v } } else s.core k :=
  State.core_updCore s core k _

/-- CGRD does not change what is traced. -/
theorem State.traced_putCgrd (s : State) (core : Nat) (v : Word) (g : Gang) :
    (s.putCgrd core v).traced g = s.traced g := by
  unfold State.traced
  rw [State.core_putCgrd]
  split
  · rename_i h; rw [h]
  · rfl

/-- The fragments whose packets are undefined once CGRD points outside the ring's bytes: those of the core's traced gangs. -/
def State.tracedKeys (s : State) (core : Nat) : List (Nat × Nat) :=
  s.gangList.flatMap fun e => if e.2.core = core && s.traced e.2 then e.2.frags.map fun f => (e.1, f.tr.key) else []

theorem State.mem_tracedKeys {s : State} {core : Nat} {e : Nat × Gang} (he : e ∈ s.gangList) (hc : e.2.core = core)
    (ht : s.traced e.2 = true) {f : Frag} (hf : f ∈ e.2.frags) : (e.1, f.tr.key) ∈ s.tracedKeys core :=
  List.mem_flatMap.mpr ⟨e, he, by simpa [hc, ht] using ⟨f, hf, rfl⟩⟩

theorem State.tracedKeys_putCgrd (s : State) (core : Nat) (v : Word) :
    (s.putCgrd core v).tracedKeys core = s.tracedKeys core := by
  simp only [State.tracedKeys, State.traced_putCgrd]
  rfl

/-- A value within the ring's bytes is stored, and that is all. -/
theorem State.cgrd_within (s : State) (core : Nat) (v : Word)
    (h : ((s.core core).cg.wr - v).toNat ≤ (s.core core).cg.size.toNat) : s.cgrd core v = s.putCgrd core v := by
  have hc : ((s.putCgrd core v).core core).cg = { (s.core core).cg with rd := v } := by rw [State.core_putCgrd, if_pos rfl]
  have hu : ((s.putCgrd core v).core core).cg.used ≤ ((s.putCgrd core v).core core).cg.size.toNat := by rw [hc]; exact h
  exact if_pos hu

/-- One outside them makes the ring's bytes free values, and the packets of what is traced undefined. -/
theorem State.cgrd_outside (s : State) (core : Nat) (v : Word)
    (h : (s.core core).cg.size.toNat < ((s.core core).cg.wr - v).toNat) :
    s.cgrd core v = ((s.putCgrd core v).hwWrite (s.core core).cg.base.toNat
      (freeBytes s.clk (List.replicate (s.core core).cg.size.toNat 0))).updCore core
        fun k => { k with cg := { k.cg with undef := s.tracedKeys core } } := by
  have hc : ((s.putCgrd core v).core core).cg = { (s.core core).cg with rd := v } := by rw [State.core_putCgrd, if_pos rfl]
  have hu : ¬ ((s.putCgrd core v).core core).cg.used ≤ ((s.putCgrd core v).core core).cg.size.toNat := by
    rw [hc]; exact Nat.not_le.mpr h
  have hb : ((s.putCgrd core v).core core).cg.base = (s.core core).cg.base := by rw [hc]
  have hz : ((s.putCgrd core v).core core).cg.size = (s.core core).cg.size := by rw [hc]
  have he : s.cgrd core v = ((s.putCgrd core v).hwWrite ((s.putCgrd core v).core core).cg.base.toNat
      (freeBytes s.clk (List.replicate ((s.putCgrd core v).core core).cg.size.toNat 0))).updCore core
        fun k => { k with cg := { k.cg with undef := (s.putCgrd core v).tracedKeys core } } := if_neg hu
  rw [he, State.tracedKeys_putCgrd, hb, hz]

theorem length_freeBytes (n : Nat) (bs : List Byte) : (freeBytes n bs).length = bs.length := by simp [freeBytes]

theorem cgrdWrite_stores (s : State) (core : Nat) (v : Word) (h : core < 1344) : let c := (s.core core).cg
    ∃ t, exec (.cgrdWrite core v) s = .next t ∧ (t.core core).cg.rd = v ∧ { t.core core with cg := c } = s.core core ∧
      { (t.core core).cg with rd := c.rd, undef := c.undef } = c ∧ (∀ k, k ≠ core → t.core k = s.core k) ∧ t.gangs = s.gangs ∧
      ((c.wr - v).toNat ≤ c.size.toNat → (t.core core).cg.undef = c.undef ∧ { t with cores := s.cores } = s) ∧
      (c.size.toNat < (c.wr - v).toNat → c.base.toNat + c.size.toNat ≤ dramEnd →
        (∀ i, i < c.size.toNat → Memory.read t.mem (c.base.toNat + i) = Config.freeByte s.clk i) ∧
        (∀ a, a < c.base.toNat ∨ c.base.toNat + c.size.toNat ≤ a → Memory.read t.mem a = Memory.read s.mem a) ∧
        ∀ e ∈ s.gangList, e.2.core = core → s.traced e.2 = true → ∀ f ∈ e.2.frags, (e.1, f.tr.key) ∈ (t.core core).cg.undef) := by
  intro c
  refine ⟨_, exec_cgrdWrite s core v h, ?_⟩
  rcases Nat.lt_or_ge c.size.toNat (c.wr - v).toNat with hlt | hle
  · have hc : ∀ k, (s.cgrd core v).core k = if k = core then
        { s.core core with cg := { (s.core core).cg with rd := v, undef := s.tracedKeys core } } else s.core k := fun k => by
      rw [State.cgrd_outside s core v hlt, State.core_updCore]
      have hw : ∀ k, ((s.putCgrd core v).hwWrite c.base.toNat (freeBytes s.clk (List.replicate c.size.toNat 0))).core k =
        (s.putCgrd core v).core k := fun _ => rfl
      simp only [c] at hw
      rw [hw, State.core_putCgrd, if_pos rfl, hw, State.core_putCgrd]
      split <;> rfl
    have hcc := (hc core).trans (if_pos rfl)
    rw [hcc]
    refine ⟨rfl, rfl, rfl, fun k hk => (hc k).trans (if_neg hk), ?_, fun hn => absurd hlt (Nat.not_lt.mpr hn), fun _ hd => ?_⟩
    · rw [State.cgrd_outside s core v hlt, State.updCore_gangs, State.hwWrite_gangs]; exact State.updCore_gangs s core _
    · obtain ⟨d, p, hw, -⟩ := State.hwWrite_dram (s.putCgrd core v) c.base.toNat (freeBytes s.clk (List.replicate c.size.toNat 0))
        (by rw [length_freeBytes, List.length_replicate]; exact hd)
      have hm : (s.cgrd core v).mem = Memory.writeAt s.mem c.base.toNat (freeBytes s.clk (List.replicate c.size.toNat 0)) := by
        rw [State.cgrd_outside s core v hlt]
        exact congrArg State.mem hw
      rw [hm]
      refine ⟨fun i hi => ?_, fun a ha => ?_, fun e he hec ht f hf => State.mem_tracedKeys he hec ht hf⟩
      · rw [Memory.read_writeAt, if_pos (by rw [length_freeBytes, List.length_replicate]; omega)]
        simp [freeBytes, hi]
      · rw [Memory.read_writeAt, if_neg (by rw [length_freeBytes, List.length_replicate]; omega)]
  · rw [State.cgrd_within s core v hle]
    have hcc : (s.putCgrd core v).core core = _ := (State.core_putCgrd s core v core).trans (if_pos rfl)
    rw [hcc]
    exact ⟨rfl, rfl, rfl, fun k hk => (State.core_putCgrd s core v k).trans (if_neg hk), rfl, fun _ => ⟨rfl, rfl⟩,
      fun hn => absurd hn (Nat.not_lt.mpr hle)⟩

/-! ### Invalidations (12 R204, R227) -/

/-- An invalidation of a context drops its translations once every path is drained. -/
theorem State.tlbCtx_eq (s : State) (asid : Word) : ∃ m d p, s.tlbCtx asid = { s with
    mem := m, dirty := d, poison := p, path := []
    tlb := s.tlb.filter fun e => e.2.1 != asid
    walker := s.walker.filter fun e => e.1 != asid } := by
  obtain ⟨m, d, p, h⟩ := State.drainAll_eq s
  exact ⟨m, d, p, by rw [State.tlbCtx, h]; rfl⟩

theorem ptrootWrite_drops (s : State) (vi : Nat) (v : Dword) (i : Iface) (h : s.iface? vi = some i) :
    ∃ t, exec (.ptrootWrite vi v) s = .next t ∧
    t.iface? vi = some { i with ptroot := v &&& ~~~0xFFFFF#64 } ∧ (∀ n, n ≠ vi → t.iface? n = s.iface? n) ∧
    t.tlb = s.tlb.filter (fun e => e.2.1 != i.asid) ∧ t.walker = s.walker.filter (fun e => e.1 != i.asid) ∧ t.path = [] ∧
    t.gangs = s.gangs ∧ t.cores = s.cores ∧ (s.path = [] → { t with ifaces := s.ifaces, tlb := s.tlb, walker := s.walker } = s) := by
  let s1 := s.setIface vi { i with ptroot := v &&& ~~~0xFFFFF#64 }
  obtain ⟨m, d, p, ht⟩ := State.tlbCtx_eq s1 i.asid
  have he : exec (.ptrootWrite vi v) s = .next (s1.tlbCtx i.asid) := by
    change Host.Outcome.next (s.setPtroot vi v) = _
    simp [State.setPtroot, h, s1]
  refine ⟨_, he, ?_⟩
  have hi : ∀ n, s1.iface? n = if n = vi then some { i with ptroot := v &&& ~~~0xFFFFF#64 } else s.iface? n :=
    fun n => State.iface_setIface s vi n _
  have hp : s.path = [] → s1.tlbCtx i.asid = s1.tlbDrop i.asid := fun hp => by
    rw [State.tlbCtx, State.drainAll_of_path_nil (s := s1) hp]
  refine ⟨?_, fun n hn => ?_, (congrArg State.tlb ht :), (congrArg State.walker ht :), (congrArg State.path ht :),
    (congrArg State.gangs ht :), (congrArg State.cores ht :), fun h0 => by rw [hp h0]; rfl⟩
  · rw [ht]; exact (hi vi).trans (if_pos rfl)
  · rw [ht]; exact (hi n).trans (if_neg hn)

theorem firmwareInvalidate_context (s : State) (asid : Word) :
    ∃ t, exec (.firmwareInvalidate asid none) s = .next t ∧ t.path = [] ∧ t.gangs = s.gangs ∧ t.cores = s.cores ∧
      (∀ e, e ∈ t.tlb ↔ e ∈ s.tlb ∧ e.2.1 ≠ asid) ∧ ∀ e, e ∈ t.walker ↔ e ∈ s.walker ∧ e.1 ≠ asid := by
  obtain ⟨m, d, p, ht⟩ := State.tlbCtx_eq s asid
  refine ⟨_, congrArg Host.Outcome.next ht, rfl, rfl, rfl, fun e => ?_, fun e => ?_⟩
  · simp only [List.mem_filter, bne_iff_ne]
  · simp only [List.mem_filter, bne_iff_ne]

theorem firmwareInvalidate_range (s : State) (asid : Word) (b : Dword) (n : Nat) :
    ∃ t, exec (.firmwareInvalidate asid (some (b, n))) s = .next t ∧ t.path = [] ∧ t.gangs = s.gangs ∧ t.cores = s.cores ∧
      (∀ e ∈ s.tlb, e.2.1 ≠ asid → e ∈ t.tlb) ∧ (∀ e ∈ s.walker, e.1 ≠ asid → e ∈ t.walker) ∧
      ∀ e ∈ t.tlb, e ∈ s.tlb ∧ (e.2.1 = asid → ∀ a, b.toNat ≤ a → a < b.toNat + n → ¬ (e.2.2.1 ≤ a ∧ a < e.2.2.1 + e.2.2.2.1)) := by
  obtain ⟨m, d, p, hd⟩ := State.drainAll_eq s
  refine ⟨s.tlbInv asid (b.toNat / 65536 * 65536) ((b.toNat + n + 65535) / 65536 * 65536), rfl, ?_⟩
  rw [State.tlbInv, hd]
  refine ⟨rfl, rfl, rfl, fun e he ha => ?_, fun e he ha => ?_, fun e he => ?_⟩
  · exact List.mem_filter.mpr ⟨he, by simp [ha]⟩
  · exact List.mem_filter.mpr ⟨he, by simp [ha]⟩
  · obtain ⟨hm, hk⟩ := List.mem_filter.mp he
    refine ⟨hm, fun ha a h1 h2 h3 => ?_⟩
    simp [ha] at hk
    omega

theorem registerSteps : Claims.RegisterSteps :=
  ⟨stseedWrite_seeds, cgctlWrite_stores, cgrdWrite_stores, ptrootWrite_drops,
    fun s asid b n => ⟨firmwareInvalidate_context s asid, firmwareInvalidate_range s asid b n⟩⟩

/-! ### The control range (00 R8, R9) -/

theorem State.breg_setBreg (s : State) (o o' : Nat) (v : Word) :
    (s.setBreg o v).breg o' = if o' / 4 = o / 4 then v else s.breg o' := FMap.get_put s.base (o / 4) (o' / 4) v

/-- The plain read-write registers of the range, with the bits that a write stores. -/
def ctrlPlain : List (Nat × Word) :=
  [(0x401000, 0x1FFFFFF#32), (0x401004, 0x3FFFFF), (0x402008, 0xFFFFFFFF), (0x40200C, 0xFFFFFFFF), (0x402010, 0xFFFFFFFF),
    (0x404000, 0xFFF), (0x405104, 0xFFFFFFFF), (0x405108, 0xFFFF), (0x405110, 0xFFFFFFFF), (0x405114, 0xFFFFFFFF)]

theorem State.ctrlPut_plain (s : State) (o : Nat) (m v : Word) (h : (o, m) ∈ ctrlPlain) :
    s.ctrlPut o v = s.setBreg o (v &&& m) ∧ ∀ t : State, t.ctrlWord o = t.breg o := by
  have hones : v &&& 0xFFFFFFFF#32 = v := BitVec.and_allOnes
  simp only [ctrlPlain, List.mem_cons, Prod.mk.injEq, List.not_mem_nil, or_false] at h
  rcases h with ⟨rfl, rfl⟩ | ⟨rfl, rfl⟩ | ⟨rfl, rfl⟩ | ⟨rfl, rfl⟩ | ⟨rfl, rfl⟩ | ⟨rfl, rfl⟩ | ⟨rfl, rfl⟩ | ⟨rfl, rfl⟩ |
    ⟨rfl, rfl⟩ | ⟨rfl, rfl⟩ <;> simp [State.ctrlPut, State.ctrlWord, hones]

theorem State.ctrlPut_readOnly (s : State) (o : Nat) (v : Word)
    (h : o ∈ [0x402004, 0x402014, 0x404004, 0x405118, 0x404080, 0x4040C0, 0x404010]) : s.ctrlPut o v = s := by
  simp only [List.mem_cons, List.not_mem_nil, or_false] at h
  rcases h with rfl | rfl | rfl | rfl | rfl | rfl | rfl <;> simp [State.ctrlPut]

theorem State.ctrlPut_bank (s : State) (b w : Nat) (v : Word) (hb : b < 12) (hw : w < 10) :
    (s.ctrlPut (0x403000 + 64 * b + 4 * w) v).ctrlWord (0x403000 + 64 * b + 4 * w) = v := by
  have h1 : ¬ 0x403000 + 64 * b + 4 * w < 0x401000 := by omega
  have h2 : 0x403000 + 64 * b + 4 * w < 0x403300 := by omega
  have h3 : (0x403000 + 64 * b + 4 * w) % 64 < 40 := by omega
  have h4 : 0x403000 ≤ 0x403000 + 64 * b + 4 * w := by omega
  generalize 0x403000 + 64 * b + 4 * w = o at *
  have hp : s.ctrlPut o v = s.setBreg o v := by simp [State.ctrlPut, h1, h2, h3, h4]
  rw [hp]
  simp [State.ctrlWord, h1, h2, h3, h4, State.breg_setBreg]

theorem registerReadClear_sheds (s : State) (n : Nat) (h : n < 8) : ∃ t, exec (.registerReadClear (0x405000 + 4 * n)) s = .next t ∧
    FMap.get t.ports (n + 1) = { FMap.get s.ports (n + 1) with sheds := 0 } ∧
    (∀ k, k ≠ n + 1 → FMap.get t.ports k = FMap.get s.ports k) ∧ { t with ports := s.ports } = s := by
  have h1 : (0x405000 + 4 * n) / 4 * 4 = 0x405000 + 4 * n := by omega
  have h2 : 0x405000 + 4 * n < 0x405020 := by omega
  have h3 : (0x405000 + 4 * n - 0x405000) / 4 + 1 = n + 1 := by omega
  refine ⟨{ s with ports := FMap.put s.ports (n + 1) { FMap.get s.ports (n + 1) with sheds := 0 } }, ?_,
    FMap.get_put_same _ _ _, fun k hk => FMap.get_put_ne _ _ hk, rfl⟩
  change Host.Outcome.next (s.ctrlClear ((0x405000 + 4 * n) / 4 * 4)) = _
  simp only [State.ctrlClear, h1, h2, h3, Nat.le_add_right, decide_true, Bool.and_self, if_true]

theorem registerReadClear_other (s : State) (o : Nat) (h : o < 0x405000 ∨ 0x405020 ≤ o) :
    exec (.registerReadClear o) s = .next s := by
  have hn : ¬ (0x405000 ≤ o / 4 * 4 ∧ o / 4 * 4 < 0x405020) := by omega
  change Host.Outcome.next (s.ctrlClear (o / 4 * 4)) = _
  rw [State.ctrlClear, if_neg (by simpa using hn)]

theorem exec_registerWrite (s : State) (off : Nat) (v : Word) :
    exec (.registerWrite off v) s = .next (if off % 4 = 0 ∧ off < 2 ^ 32 then s.ctrlPut off v else s) := by
  change Host.Outcome.next (if off % 4 = 0 && decide (off < 2 ^ 32) then s.ctrlPut off v else s) = _
  simp only [Bool.and_eq_true, decide_eq_true_eq]

theorem controlRange : Claims.ControlRange := by
  intro s off v
  refine ⟨exec_registerWrite s off v, fun o ho => s.ctrlPut_readOnly o v ho, fun o m ho => ?_, fun b w => s.ctrlPut_bank b w v,
    registerReadClear_sheds s, registerReadClear_other s⟩
  obtain ⟨hp, hw⟩ := s.ctrlPut_plain o m v ho
  have h4 : o % 4 = 0 := (by decide : ∀ e ∈ ctrlPlain, e.1 % 4 = 0) _ ho
  rw [hp, hw]
  refine ⟨by simp [State.breg_setBreg], fun o' ho' hne => ?_⟩
  rw [State.breg_setBreg, if_neg (by omega)]

/-! ### Core windows (12 R206 to R209) -/

theorem length_leOf (n : Nat) : ∀ v, (leOf n v).length = n := by
  induction n with
  | zero => intro v; rfl
  | succ n ih => intro v; simp [leOf, ih]

/-- Addresses in a row, each with its byte. -/
theorem zip_range_eq_zipIdx (a : Nat) (bs : List Byte) :
    ((List.range bs.length).map fun i => a + i).zip bs = bs.zipIdx.map fun e => (a + e.2, e.1) := by
  apply List.ext_getElem <;> simp

/-- Cells in a row are one run. -/
theorem runsOf_cells (a : Nat) {bs : List Byte} (h : bs ≠ []) : runsOf (bs.zipIdx.map fun e => (a + e.2, e.1)) = [(a, bs)] := by
  have key : ∀ (l pre : List Byte), ((l.zipIdx pre.length).map fun e => (a + e.2, e.1)).foldl
      (fun (acc : List (Nat × List Byte)) c => match acc with
        | (a, bs) :: r => if c.1 = a + bs.length then (a, bs ++ [c.2]) :: r else (c.1, [c.2]) :: acc
        | [] => [(c.1, [c.2])]) [(a, pre)] = [(a, pre ++ l)] := by
    intro l
    induction l with
    | nil => intro pre; simp
    | cons b r ih =>
      intro pre
      have := ih (pre ++ [b])
      simpa using this
  cases bs with
  | nil => exact absurd rfl h
  | cons b r =>
    have := key r [b]
    simp only [List.length_singleton, List.singleton_append] at this
    simp only [runsOf, List.zipIdx_cons, List.map_cons, List.foldl_cons, Nat.zero_add]
    rw [Nat.add_zero]
    exact congrArg List.reverse this

/-- The first address of a core's window (12 R206). -/
abbrev winBase (core : Nat) : Nat := 0x8000000000000 + 2 ^ 22 * core

theorem winAddr {core o : Nat} (hc : core < 1344) (ho : o < 2 ^ 22) :
    inWindow (winBase core + o) = true ∧ inCtrl (winBase core + o) = false ∧ winCore (winBase core + o) = core ∧
    winOff (winBase core + o) = o ∧ (winBase core + o) / 2 ^ 48 = 8 ∧ (winBase core + o) / 4 * 4 = winBase core + o / 4 * 4 := by
  simp only [inWindow, inCtrl, winCore, winOff, winBase, Bool.and_eq_true, Bool.and_eq_false_iff, decide_eq_true_eq, decide_eq_false_iff_not]
  omega

theorem placeOf_sp {o : Nat} (h : o < 0x80000) : placeOf o = .sp o := if_pos h

/-- A place is a register of the mirror. -/
def Place.isMirror : Place → Bool
  | .mirror _ _ _ => true
  | _ => false

/-- The mirror lies above every other storage of a window (12 R207, R208). -/
theorem isMirror_placeOf {o : Nat} (h : o < 0x180000) : (placeOf o).isMirror = false := by
  unfold placeOf
  rw [if_pos h]
  repeat refine iteInduction (motive := fun p : Place => p.isMirror = false) (fun _ => rfl) fun _ => ?_
  rfl

theorem placeOf_ne_mirror {o : Nat} (h : o < 0x180000) (a k b : Nat) : placeOf o ≠ .mirror a k b := fun he => by
  have := isMirror_placeOf h
  rw [he] at this
  exact Bool.noConfusion this

/-! #### A core without power -/

theorem State.winPut_dark {s : State} {core : Nat} (h : s.coreDark core = true) (o : Nat) (b : Byte) : s.winPut core o b = s :=
  if_pos h
theorem State.winClear_dark {s : State} {core : Nat} (h : s.coreDark core = true) (o n : Nat) : s.winClear core o n = s :=
  if_pos h
theorem State.mirrorPut_dark {s : State} {core : Nat} (h : s.coreDark core = true) (slot k : Nat) (v : Word) :
    s.mirrorPut core slot k v = s := if_pos h

/-- A fold whose every operation leaves the state leaves it. -/
theorem foldl_unchanged {α β : Type} {op : β → α → β} {s : β} {l : List α} (h : ∀ x ∈ l, op s x = s) : l.foldl op s = s :=
  List.foldlRecOn (motive := fun t => t = s) l op rfl fun _ ht x hx => by rw [ht, h x hx]

/-- Stores that reach no aperture send nothing. -/
theorem State.remotePut_none (s : State) (vi : Nat) (gid op : Option Nat) (va : Nat) (cs : List Host.Cell)
    (h : ∀ c ∈ cs, c.1 / 2 ^ 48 = 8) : s.remotePut vi gid op va cs = s := by
  have : cs.filter (fun c => c.1 / 2 ^ 48 == 4 || c.1 / 2 ^ 48 == 5) = [] :=
    List.filter_eq_nil_iff.mpr fun c hc => by have := h c hc; simp; omega
  rw [State.remotePut, this]; rfl

theorem mem_byWord {cs : List Host.Cell} {e : Nat × List (Nat × Byte)} (h : e ∈ byWord cs) : ∃ c ∈ cs, c.1 / 4 * 4 = e.1 := by
  obtain ⟨a, ha, rfl⟩ := List.mem_map.mp h
  rw [List.mem_eraseDups] at ha
  exact List.mem_map.mp ha

theorem State.wordPut_dark {s : State} {core o : Nat} (hc : core < 1344) (ho : o < 2 ^ 22) (hd : s.coreDark core = true)
    (bs : List (Nat × Byte)) : s.wordPut (winBase core + o) bs = s := by
  obtain ⟨hw, -, hk, -⟩ := winAddr hc ho
  unfold State.wordPut
  rw [if_pos hw]
  split
  · exact State.mirrorPut_dark (by rw [hk]; exact hd) _ _ _
  · rfl

/-- No word below the mirror is a register. -/
theorem State.wordPut_storage {s : State} {core o : Nat} (hc : core < 1344) (ho : o < 0x180000) (bs : List (Nat × Byte)) :
    s.wordPut (winBase core + o) bs = s := by
  obtain ⟨hw, -, -, hf, -⟩ := winAddr hc (Nat.lt_trans ho (by omega))
  unfold State.wordPut
  rw [if_pos hw, hf]
  split
  · rename_i hm
    exact absurd hm (placeOf_ne_mirror ho _ _ _)
  · rfl

/-- What an access to a core's window executes, given the bytes of the store. -/
theorem exec_coreWindowStore (s : State) (core off : Nat) (size : Size) (v : Dword) (hc : core < 1344) (ho : off + size.bytes ≤ 2 ^ 22) :
    exec (.coreWindowAccess core off size (some v)) s =
      .next (s.physPut 0 none none (winBase core + off) ((leOf size.bytes v.toNat).zipIdx.map fun e => (winBase core + off + e.2, e.1))) := by
  have hz := zip_range_eq_zipIdx (winBase core + off) (leOf size.bytes v.toNat)
  rw [length_leOf] at hz
  rw [← hz]
  have hn : ¬ (nCores ≤ core || 2 ^ 22 < off + size.bytes) = true := by
    simp only [nCores, Bool.or_eq_true, decide_eq_true_eq, not_or]; omega
  exact if_neg hn

theorem exec_coreWindowLoad (s : State) (core off : Nat) (size : Size) (hc : core < 1344) (ho : off + size.bytes ≤ 2 ^ 22) :
    exec (.coreWindowAccess core off size none) s =
      .next (s.physClear ((List.range size.bytes).map fun i => winBase core + off + i)) := by
  have hn : ¬ (nCores ≤ core || 2 ^ 22 < off + size.bytes) = true := by
    simp only [nCores, Bool.or_eq_true, decide_eq_true_eq, not_or]; omega
  exact if_neg hn

/-- The cells of a store within a window. -/
theorem mem_winCells {core off : Nat} {bs : List Byte} {c : Host.Cell} (hc : core < 1344) (ho : off + bs.length ≤ 2 ^ 22)
    (h : c ∈ bs.zipIdx.map fun e => (winBase core + off + e.2, e.1)) : ∃ i, i < bs.length ∧ c.1 = winBase core + (off + i) ∧
    inWindow c.1 = true ∧ inCtrl c.1 = false ∧ winCore c.1 = core ∧ winOff c.1 = off + i ∧ c.1 / 2 ^ 48 = 8 ∧
    c.1 / 4 * 4 = winBase core + (off + i) / 4 * 4 := by
  have hb := mem_cellsFrom h
  refine ⟨c.1 - (winBase core + off), by omega, by omega, ?_⟩
  have he : c.1 = winBase core + (off + (c.1 - (winBase core + off))) := by omega
  have := winAddr (o := off + (c.1 - (winBase core + off))) hc (by omega)
  rw [← he] at this
  exact this

/-- A store to windows that writes storage alone: no copy starts, and no register changes. -/
theorem State.physPut_window {s s1 s2 : State} {cs : List Host.Cell} (va : Nat)
    (hcell : ∀ c ∈ cs, inWindow c.1 = true ∧ inCtrl c.1 = false ∧ c.1 / 2 ^ 48 = 8)
    (hput : cs.foldl (fun (s : State) c => s.winPut (winCore c.1) (winOff c.1) c.2) s = s1)
    (hclr : (runsOf cs).foldl (fun (s : State) r => s.winClear (winCore r.1) (winOff r.1) r.2.length) s1 = s2)
    (hbte : ∀ c ∈ cs, s2.coreDark (winCore c.1) = true ∨ ∀ o, placeOf (winOff c.1) ≠ .bte o)
    (hreg : ∀ c ∈ cs, ∀ bs, s2.wordPut (c.1 / 4 * 4) bs = s2) : s.physPut 0 none none va cs = s2 := by
  have hwin : cs.filter (fun c => inWindow c.1) = cs := List.filter_eq_self.mpr fun c hm => (hcell c hm).1
  have hword : ∀ e ∈ byWord ((cs.filter fun c => match placeOf (winOff c.1) with
      | .mirror _ _ _ => true
      | _ => false) ++ cs.filter fun c => inCtrl c.1), s2.wordPut e.1 e.2 = s2 := fun e he => by
    obtain ⟨c, hm, hce⟩ := mem_byWord he
    rw [← hce]
    exact hreg c ((List.mem_append.mp hm).elim (fun h => (List.mem_filter.mp h).1) fun h => (List.mem_filter.mp h).1) _
  unfold State.physPut
  simp only [hwin, hput, hclr]
  rw [State.remotePut_none _ _ _ _ _ _ fun c hm => (hcell c hm).2.2]
  split
  · rename_i pa b r
    split
    · rename_i hk
      simp only [Bool.and_eq_true, Bool.not_eq_true'] at hk
      split
      · rename_i o ho
        exact (hbte (pa, b) List.mem_cons_self).elim (fun h => absurd (h.symm.trans hk.2) (by simp)) fun h => absurd ho (h o)
      · exact foldl_unchanged hword
    · exact foldl_unchanged hword
  · exact foldl_unchanged hword

/-- The window of a core without power discards a store (24 R378). -/
theorem State.physPut_dark {s : State} {core off : Nat} {bs : List Byte} (hc : core < 1344) (ho : off + bs.length ≤ 2 ^ 22)
    (hb : bs ≠ []) (hd : s.coreDark core = true) (va : Nat) :
    s.physPut 0 none none va (bs.zipIdx.map fun e => (winBase core + off + e.2, e.1)) = s := by
  have hcell := fun (c : Host.Cell) hm => mem_winCells (c := c) hc ho hm
  refine State.physPut_window (s1 := s) va (fun c hm => ?_) (foldl_unchanged fun c hm => ?_) ?_ (fun c hm => .inl ?_) fun c hm bs => ?_
  · obtain ⟨i, -, -, hw, hl, -, -, h8, -⟩ := hcell c hm
    exact ⟨hw, hl, h8⟩
  · obtain ⟨i, -, -, -, -, hk, -⟩ := hcell c hm
    rw [hk]; exact State.winPut_dark hd _ _
  · rw [runsOf_cells _ hb]
    have := winAddr (o := off) hc (by have := List.length_pos_iff.mpr hb; omega)
    exact State.winClear_dark (by rw [this.2.2.1]; exact hd) _ _
  · obtain ⟨i, -, -, -, -, hk, -⟩ := hcell c hm
    rw [hk]; exact hd
  · obtain ⟨i, hi, -, -, -, -, -, -, h4⟩ := hcell c hm
    rw [h4]; exact State.wordPut_dark hc (by omega) hd _

/-- A read below the mirror clears nothing. -/
theorem State.physClear_storage {s : State} {core off n : Nat} (hc : core < 1344) (ho : off + n ≤ 0x180000) :
    s.physClear ((List.range n).map fun i => winBase core + off + i) = s := by
  refine foldl_unchanged fun pa hpa => ?_
  rw [List.mem_eraseDups, List.map_map] at hpa
  obtain ⟨i, hi, rfl⟩ := List.mem_map.mp hpa
  have hi := List.mem_range.mp hi
  have h4 := winAddr (o := off + i) hc (by omega)
  have hw := winAddr (o := (off + i) / 4 * 4) hc (by omega)
  have he : (((fun pa => pa / 4 * 4) ∘ fun i => winBase core + off + i) i) = winBase core + (off + i) / 4 * 4 := by
    rw [← h4.2.2.2.2.2, ← Nat.add_assoc]; rfl
  rw [he, if_pos hw.1, hw.2.2.2.1]
  split
  · rename_i hm
    exact absurd hm (placeOf_ne_mirror (by omega) _ _ _)
  · rfl

/-! #### The scratchpad through a window -/

/-- What software sees of a gang: all but what the engine's reads and queries are to know. -/
def Gang.unnoted (g : Gang) : Gang := { g with hist := [], spoilt := [] }
/-- The same gangs but for what the engine's reads and queries are to know. -/
def GangsAlike (a b : FMap (Option Gang)) : Prop := ∀ n, (FMap.get a n).map Gang.unnoted = (FMap.get b n).map Gang.unnoted

theorem GangsAlike.trans {a b c : FMap (Option Gang)} (h1 : GangsAlike a b) (h2 : GangsAlike b c) : GangsAlike a c :=
  fun n => (h1 n).trans (h2 n)

/-- Gangs that are put back with no more than notes changed are as they were. -/
theorem gangsAlike_put {a : FMap (Option Gang)} {n : Nat} {g g' : Gang} (h : (FMap.get a n).map Gang.unnoted = some g.unnoted)
    (hg : g'.unnoted = g.unnoted) : GangsAlike (FMap.put a n (some g')) a := fun m => by
  rw [FMap.get_put]
  by_cases hm : m = n
  · rw [if_pos hm, hm, h, ← hg]; rfl
  · rw [if_neg hm]

/-- A fold that puts gangs of the state back with other notes changes the notes alone. -/
theorem State.foldl_notes {α : Type} (op : State → α → State) (l : List α) (s : State)
    (ho : ∀ t x, x ∈ l → GangsAlike t.gangs s.gangs → ∃ gs, op t x = { t with gangs := gs } ∧ GangsAlike gs s.gangs) :
    ∃ gs, l.foldl op s = { s with gangs := gs } ∧ GangsAlike gs s.gangs :=
  List.foldlRecOn (motive := fun t => ∃ gs, t = { s with gangs := gs } ∧ GangsAlike gs s.gangs) l op
    ⟨s.gangs, rfl, fun _ => rfl⟩ fun t ⟨gs, ht, ha⟩ x hx => by
      obtain ⟨gs', he, ha'⟩ := ho t x hx (by rw [ht]; exact ha)
      exact ⟨gs', by rw [he, ht], ha'⟩

theorem State.mem_blockGangs {s : State} {b : Block} {e : Nat × Gang} (h : e ∈ s.blockGangs b) : s.gang? e.1 = some e.2 := by
  obtain ⟨i, -, hi⟩ := List.mem_filterMap.mp h
  obtain ⟨g, hg, rfl⟩ := Option.map_eq_some_iff.mp hi
  exact hg

/-- A write of a scratchpad notes what was there, and no more. -/
theorem State.spNote_eq (s : State) (b : Block) (off n : Nat) :
    ∃ gs, s.spNote b off n = { s with gangs := gs } ∧ GangsAlike gs s.gangs := by
  have h1 : ∃ gs, s.spTouched b (s.spWord b) (spKeys off n) = { s with gangs := gs } ∧ GangsAlike gs s.gangs := by
    refine State.foldl_notes _ _ s fun t e he ht => ⟨_, rfl, ?_⟩
    have hg : FMap.get s.gangs e.1 = some e.2 := State.mem_blockGangs he
    exact (gangsAlike_put ((ht e.1).trans (by rw [hg]; rfl)) rfl).trans ht
  obtain ⟨gs, h1, ha⟩ := h1
  have h2 : ∃ gs', s.spNote b off n = { s.spTouched b (s.spWord b) (spKeys off n) with gangs := gs' } ∧
      GangsAlike gs' (s.spTouched b (s.spWord b) (spKeys off n)).gangs := by
    refine State.foldl_notes _ _ _ fun t e _ ht => ?_
    cases hg : t.gang? e.1 with
    | none => exact ⟨t.gangs, rfl, ht⟩
    | some g => exact ⟨_, rfl, (gangsAlike_put (by rw [show FMap.get t.gangs e.1 = some g from hg]; rfl) rfl).trans ht⟩
  obtain ⟨gs', h2, ha'⟩ := h2
  rw [h1] at h2 ha'
  exact ⟨gs', h2, ha'.trans ha⟩

/-- A byte of a store to a scratchpad is put there. -/
theorem State.winPut_sp {s : State} {core o : Nat} (hd : s.coreDark core = false) (ho : o < 0x80000) (b : Byte) :
    ∃ gs, s.winPut core o b = { s with gangs := gs, sp := Memory.write s.sp (spKey core o) b } ∧ GangsAlike gs s.gangs := by
  obtain ⟨gs, hn, ha⟩ := State.foldl_notes (fun (s : State) (e : Nat × Block) => s.spNote e.2 (o - 256 * e.2.spbase) 1)
    (s.blockList.filter fun e => e.2.core == core && !e.2.desched && decide (256 * e.2.spbase ≤ o) &&
        decide (o < 256 * e.2.spbase + e.2.scratch)) s
    fun t e _ ht => by
      obtain ⟨gs, h, ha⟩ := t.spNote_eq e.2 (o - 256 * e.2.spbase) 1
      exact ⟨gs, h, ha.trans ht⟩
  refine ⟨gs, ?_, ha⟩
  unfold State.winPut
  rw [hd, if_neg Bool.false_ne_true, placeOf_sp ho]
  simp only [hn]

theorem spKey_add (core o i : Nat) : spKey core (o + i) = spKey core o + i := Nat.add_assoc _ _ _ |>.symm

/-- A store to a scratchpad puts its bytes there. -/
theorem State.foldl_winPut_sp {core off : Nat} (hc : core < 1344) (bs : List Byte) : ∀ (s : State) (k : Nat),
    s.coreDark core = false → off + k + bs.length ≤ 0x80000 →
    ∃ gs, ((bs.zipIdx k).map fun e => (winBase core + off + e.2, e.1)).foldl
      (fun (s : State) (c : Host.Cell) => s.winPut (winCore c.1) (winOff c.1) c.2) s =
        { s with gangs := gs, sp := Memory.writeAt s.sp (spKey core (off + k)) bs } ∧ GangsAlike gs s.gangs := by
  induction bs with
  | nil => intro s k _ _; exact ⟨s.gangs, rfl, fun _ => rfl⟩
  | cons b r ih =>
    intro s k hd hl
    rw [List.length_cons] at hl
    obtain ⟨gs, hp, ha⟩ := State.winPut_sp (o := off + k) hd (by omega) b
    have hw := winAddr (o := off + k) hc (by omega)
    rw [← Nat.add_assoc] at hw
    rw [List.zipIdx_cons, List.map_cons, List.foldl_cons, hw.2.2.1, hw.2.2.2.1, hp]
    obtain ⟨gs', h, ha'⟩ := ih { s with gangs := gs, sp := Memory.write s.sp (spKey core (off + k)) b } (k + 1) hd (by omega)
    refine ⟨gs', h.trans ?_, ha'.trans ha⟩
    rw [Memory.writeAt, ← Nat.add_assoc off k 1, spKey_add core (off + k) 1]

theorem State.clearUnits_eq (s : State) (k a n : Nat) : ∃ p, s.clearUnits k a n = { s with poison := p } := by
  unfold State.clearUnits
  split
  · exact ⟨_, rfl⟩
  · exact ⟨_, rfl⟩

/-- A store to a scratchpad clears poison, and no more (12 R216). -/
theorem State.winClear_sp (s : State) (core off n : Nat) (h : off + n ≤ 0x80000) :
    ∃ p, s.winClear core off n = { s with poison := p } := by
  unfold State.winClear
  split
  · exact ⟨_, rfl⟩
  · refine List.foldlRecOn (motive := fun t : State => ∃ p, t = { s with poison := p }) _ _ ⟨s.poison, rfl⟩ fun t ht i hi => ?_
    obtain ⟨p, hp⟩ := ht
    have hi := List.mem_range.mp hi
    dsimp only
    rw [placeOf_sp (by omega : off + i < 0x80000)]
    dsimp only
    split
    · obtain ⟨q, hq⟩ := t.clearUnits_eq 3 (spKey core (off + i)) 8
      exact ⟨q, by rw [hq, hp]⟩
    · exact ⟨p, hp⟩

/-- A store to the scratchpad of a core with power puts its bytes there. -/
theorem State.physPut_sp {s : State} {core off : Nat} {bs : List Byte} (hc : core < 1344) (ho : off + bs.length ≤ 0x80000)
    (hb : bs ≠ []) (hd : s.coreDark core = false) (va : Nat) : ∃ gs p,
    s.physPut 0 none none va (bs.zipIdx.map fun e => (winBase core + off + e.2, e.1)) =
      { s with gangs := gs, sp := Memory.writeAt s.sp (spKey core off) bs, poison := p } ∧ GangsAlike gs s.gangs := by
  obtain ⟨gs, hput, ha⟩ := State.foldl_winPut_sp hc bs s 0 hd ho
  generalize hs1 : ({ s with gangs := gs, sp := Memory.writeAt s.sp (spKey core (off + 0)) bs } : State) = s1 at hput
  obtain ⟨p, hclr⟩ := s1.winClear_sp core off bs.length ho
  refine ⟨gs, p, ?_, ha⟩
  have hcell := fun (c : Host.Cell) hm => mem_winCells (c := c) hc (Nat.le_trans ho (by omega)) hm
  have hw := winAddr (o := off) hc (by have := List.length_pos_iff.mpr hb; omega)
  have hs2 : ({ s with gangs := gs, sp := Memory.writeAt s.sp (spKey core off) bs, poison := p } : State) =
      s1.winClear core off bs.length := by rw [hclr, ← hs1]; rfl
  rw [hs2]
  refine State.physPut_window va (fun c hm => ?_) hput ?_ (fun c hm => .inr fun o h => ?_) fun c hm bs => ?_
  · obtain ⟨i, -, -, hw, hl, -, -, h8, -⟩ := hcell c hm
    exact ⟨hw, hl, h8⟩
  · rw [runsOf_cells _ hb, List.foldl_cons, List.foldl_nil, hw.2.2.1, hw.2.2.2.1]
  · obtain ⟨i, hi, -, -, -, -, hf, -⟩ := hcell c hm
    rw [hf, placeOf_sp (by omega)] at h
    exact Place.noConfusion h
  · obtain ⟨i, hi, -, -, -, -, -, -, h4⟩ := hcell c hm
    rw [h4]; exact State.wordPut_storage hc (by omega) _

theorem size_bytes_bounds (size : Size) : 0 < size.bytes ∧ size.bytes ≤ 8 := by cases size <;> decide

theorem coreWindowAccess_dark (s : State) (core off : Nat) (size : Size) (v : Dword) (hc : core < 1344) (ho : off + size.bytes ≤ 2 ^ 22)
    (hd : s.coreDark core = true) : exec (.coreWindowAccess core off size (some v)) s = .next s := by
  have hl := length_leOf size.bytes v.toNat
  rw [exec_coreWindowStore s core off size v hc ho, State.physPut_dark hc (by rw [hl]; exact ho) ?_ hd]
  exact List.ne_nil_of_length_pos (by rw [hl]; exact (size_bytes_bounds size).1)

theorem coreWindowAccess_load (s : State) (core off : Nat) (size : Size) (hc : core < 1344) (ho : off + size.bytes ≤ 0x180000) :
    exec (.coreWindowAccess core off size none) s = .next s := by
  rw [exec_coreWindowLoad s core off size hc (Nat.le_trans ho (by omega)), State.physClear_storage hc ho]

/-- A store of system software to a scratchpad (12 R207). -/
theorem coreWindowAccess_sp (s : State) (core off : Nat) (size : Size) (v : Dword) (hc : core < 1344) (ho : off + size.bytes ≤ 0x80000)
    (hd : s.coreDark core = false) : ∃ gs p, exec (.coreWindowAccess core off size (some v)) s = .next { s with
      gangs := gs, sp := Memory.writeAt s.sp (spKey core off) (leOf size.bytes v.toNat), poison := p } ∧ GangsAlike gs s.gangs := by
  have hl := length_leOf size.bytes v.toNat
  obtain ⟨gs, p, h, ha⟩ := State.physPut_sp (bs := leOf size.bytes v.toNat) hc (by rw [hl]; exact ho)
    (List.ne_nil_of_length_pos (by rw [hl]; exact (size_bytes_bounds size).1)) hd (winBase core + off)
  exact ⟨gs, p, by rw [exec_coreWindowStore s core off size v hc (Nat.le_trans ho (by omega)), h], ha⟩

theorem coreWindows : Claims.CoreWindows := by
  intro s core off size v hc ho
  refine ⟨coreWindowAccess_dark s core off size v hc ho, coreWindowAccess_load s core off size hc, fun hd hs => ?_⟩
  obtain ⟨gs, p, h, ha⟩ := coreWindowAccess_sp s core off size v hc hs hd
  refine ⟨_, h, fun i hi => ?_, fun a hn => ?_, ha, rfl⟩
  · rw [Memory.read_writeAt, length_leOf, spKey_add, if_pos (by omega), Nat.add_sub_cancel_left]
  · rw [Memory.read_writeAt, length_leOf, if_neg (by omega)]

/-! ### Lines (12 R213, R216, R217, R226) -/

theorem exec_l2Writeback (s : State) (line : Nat) : exec (.l2Writeback line) s = .next (s.writeBack line) := rfl

theorem State.writeBack_clean {s : State} {line : Nat} (h : FMap.get s.dirty line = false) : s.writeBack line = s :=
  if_neg (by rw [h]; exact Bool.false_ne_true)

/-- A line of the side table, or one without a bitmap, is cleaned and noted nowhere (12 R226). -/
theorem State.writeBack_unmapped {s : State} {line : Nat} (h : FMap.get s.dirty line = true)
    (hb : s.dirtyBase.toNat = 0 ∨ (s.dirtyBase.toNat ≤ 64 * line ∧ 64 * line < s.dirtyBase.toNat + 24 * 2 ^ 20)) :
    s.writeBack line = { s with dirty := FMap.put s.dirty line false } :=
  (if_pos h).trans (if_pos (by simpa using hb))

/-- Any other line is cleaned and its bit is set in the bitmap (12 R226). -/
theorem State.writeBack_mapped {s : State} {line : Nat} (h : FMap.get s.dirty line = true)
    (hb : ¬ (s.dirtyBase.toNat = 0 ∨ (s.dirtyBase.toNat ≤ 64 * line ∧ 64 * line < s.dirtyBase.toNat + 24 * 2 ^ 20))) :
    let b := s.dirtyBase.toNat + 64 * (64 * line / 2 ^ 21) + 64 * line / 4096 % 512 / 8
    s.writeBack line = ({ s with dirty := FMap.put s.dirty line false } : State).hwWrite b
      [Memory.read s.mem b ||| (1#8 <<< (64 * line / 4096 % 512 % 8))] :=
  (if_pos h).trans (if_neg (by simpa using hb))

theorem getLsbD_or_shiftLeft (x : Byte) (j k : Nat) (hj : j < 8) :
    (x ||| 1#8 <<< j).getLsbD k = (decide (k = j) || x.getLsbD k) := by
  have hb : (1#8 <<< j).getLsbD k = decide (k = j) := by
    rw [← BitVec.twoPow_eq, BitVec.getLsbD_twoPow]
    by_cases h : k = j
    · simp [h, hj]
    · simp [h, Ne.symm h]
  rw [BitVec.getLsbD_or, hb, Bool.or_comm]

theorem l2Writeback_mapped (s : State) (line : Nat) (h : FMap.get s.dirty line = true) :
    let db := s.dirtyBase.toNat
    let a := 64 * line
    let b := db + 64 * (a / 2 ^ 21) + a / 4096 % 512 / 8
    db ≠ 0 → (a < db ∨ db + 24 * 2 ^ 20 ≤ a) → b < dramEnd → lineOf b ≠ line → ∃ t, exec (.l2Writeback line) s = .next t ∧
      FMap.get t.dirty line = false ∧ (Memory.read t.mem b).getLsbD (a / 4096 % 8) = true ∧
      (∀ k, k ≠ a / 4096 % 8 → (Memory.read t.mem b).getLsbD k = (Memory.read s.mem b).getLsbD k) ∧
      ∀ x, x ≠ b → Memory.read t.mem x = Memory.read s.mem x := by
  intro db a b h0 ha hd hl
  have hb := State.writeBack_mapped h (by omega)
  obtain ⟨d, p, hw, hdirty⟩ := State.hwWrite_dram { s with dirty := FMap.put s.dirty line false } b
    [Memory.read s.mem b ||| (1#8 <<< (a / 4096 % 512 % 8))] hd
  have hj : a / 4096 % 512 % 8 = a / 4096 % 8 := Nat.mod_mod_of_dvd _ (by decide)
  rw [hj] at hw
  have hread : ∀ x, Memory.read (Memory.writeAt s.mem b [Memory.read s.mem b ||| (1#8 <<< (a / 4096 % 8))]) x =
      if x = b then Memory.read s.mem b ||| (1#8 <<< (a / 4096 % 8)) else Memory.read s.mem x := fun x => Memory.read_write _ _ _ _
  refine ⟨_, by rw [exec_l2Writeback, hb, hj, hw], ?_, ?_, fun k hk => ?_, fun x hx => ?_⟩
  · exact (hdirty line fun i hi => by
      rw [Nat.lt_one_iff.mp hi]; exact hl).trans (FMap.get_put_same s.dirty line false)
  · rw [hread, if_pos rfl, getLsbD_or_shiftLeft _ _ _ (Nat.mod_lt _ (by decide))]; simp
  · rw [hread, if_pos rfl, getLsbD_or_shiftLeft _ _ _ (Nat.mod_lt _ (by decide))]; simp [hk]
  · rw [hread, if_neg hx]

theorem patrolScrub_idle (s : State) (line : Nat) (r : ScrubResult) (h : s.cryo ≠ .cold ∨ s.refresh = true ∨ r = .clean) :
    exec (.patrolScrub line r) s = .next s := by
  change execPatrolScrub line r s = _
  unfold execPatrolScrub
  rcases h with h | h | h
  · rw [if_neg (by simp [h])]
  · rw [if_neg (by simp [h])]
  · rw [h]
    split <;> rfl

/-- The scrubber reads a line while COLD with refresh off (12 R217). -/
theorem patrolScrub_reads {s : State} {line : Nat} (hc : s.cryo = .cold) (hr : s.refresh = false)
    (hl : 64 * line < dramEnd) : (s.cryo = .cold && !s.refresh && decide (64 * line < dramEnd)) = true := by
  simp only [hc, hr, decide_eq_true hl]; rfl

theorem patrolScrub_corrected (s : State) (line : Nat) (hc : s.cryo = .cold) (hr : s.refresh = false) (hl : 64 * line < dramEnd)
    (he : s.eccce.toNat < 2 ^ 32 - 1) : exec (.patrolScrub line .corrected) s = .next { s with eccce := s.eccce + 1 } := by
  have hn : s.eccce ≠ 0xFFFFFFFF := fun h => by rw [h] at he; exact absurd he (by decide)
  refine (if_pos (patrolScrub_reads hc hr hl)).trans ?_
  rw [if_neg hn]

theorem patrolScrub_uncorrectable (s : State) (line : Nat) (hc : s.cryo = .cold) (hr : s.refresh = false) (hl : 64 * line < dramEnd)
    (he : s.eccue.toNat < 2 ^ 32 - 1) : ∃ t, exec (.patrolScrub line .uncorrectable) s = .next t ∧ t.eccue = s.eccue + 1 ∧
      FMap.get t.poison line = true ∧ (∀ k, k ≠ line → FMap.get t.poison k = FMap.get s.poison k) ∧ t.mem = s.mem ∧
      t.notices = s.notices ++ [{ ns := s.ns, kind := 1, vi := 0, addr := BitVec.ofNat 64 (64 * line) }] := by
  have hn : s.eccue ≠ 0xFFFFFFFF := fun h => by rw [h] at he; exact absurd he (by decide)
  refine ⟨_, if_pos (patrolScrub_reads hc hr hl), if_neg hn,
    FMap.get_put_same s.poison line true, fun k hk => FMap.get_put_ne s.poison true hk, rfl, rfl⟩

theorem linesKept : Claims.LinesKept := by
  refine ⟨fun s line => ⟨fun h => ?_, fun h => ⟨fun hb => ?_, l2Writeback_mapped s line h⟩⟩, fun s line r => ⟨patrolScrub_idle s line r,
    fun hc hr hl => ⟨fun h he => ?_, fun h he => ?_⟩⟩⟩
  · rw [exec_l2Writeback, State.writeBack_clean h]
  · exact ⟨_, congrArg Host.Outcome.next (State.writeBack_unmapped h hb), FMap.get_put_same s.dirty line false,
      fun k hk => FMap.get_put_ne s.dirty false hk, rfl⟩
  · rw [h]; exact patrolScrub_corrected s line hc hr hl he
  · rw [h]; exact patrolScrub_uncorrectable s line hc hr hl he

/-- Settles O20: the register writes that are steps of their own, the control range, the core windows, and the upkeep of lines, each
from the lemmas about its operation. -/
theorem registersAndUpkeep : Obligations.RegistersAndUpkeep := ⟨registerSteps, controlRange, coreWindows, linesKept⟩

/-! ### A landing that lets another store set out (17 R307, R308, 18 R317)

RING_STORE_LAND ends with the render queues going on. A RINGLD that waited for the store which landed is then performed, and a
RINGST behind it sets out: its pixels join the stores on their way in the same step. The completion statement of the engines' steps
bounds the queues of the landing store's gang alone, and says that the stores left are those without the one that landed. -/

/-- A RINGLD of gang 1 on the chain of the store of `loadBetweenStores`, issued after it. -/
def waitingLoad : Cmd :=
  { id := 1, instr := .ringld 0 0 false 0 0 ⟨.none, none⟩, mates := [{ gid := 1, lanes := 1, slices := 1 }]
    data := [], addr := 0, addr2 := 0, guard := none }
/-- The RINGST of gang 1 that issued next. -/
def storeBehind : Cmd :=
  { id := 2, instr := .ringst 0 0 false ⟨.none, none⟩, mates := [{ gid := 1, lanes := 1, slices := 1 }]
    data := [], addr := 0, addr2 := 0, guard := none }
/-- The store of gang 0, of one pixel, that is on its way. -/
def pixelOnItsWay : RingStore := { gang := 0, pixels := [(0, 0, 0, 0)] }
/-- Gang 0, whose engines are quiet, has a store on its way, and gang 1 a RINGLD that waits for it and a RINGST behind that. -/
def loadBetweenStores : State :=
  { gangs := [(0, some {}), (1, some { rq := [waitingLoad, storeBehind] })], stores := [pixelOnItsWay] }

/-- The stores on their way after a step that goes on. -/
def storesAfter : Result → Option (List RingStore)
  | .next t => some t.stores
  | _ => none

/-- Until the store lands, gang 1's queue is at rest: its head waits. -/
theorem loadBetweenStores_sweep : loadBetweenStores.sweep 1 = loadBetweenStores := by decide

/-- The landing lets gang 1's store set out. -/
theorem ringStoreLand_lets_store_out :
    storesAfter (exec .ringStoreLand loadBetweenStores) = some [storeBehind.ringStore 1 1 false] := by decide

/-- Refutes O59: in `loadBetweenStores` the landing of gang 0's store leaves a store of gang 1 on its way, for gang 1's RINGLD no
longer waits and the RINGST behind it sets out in the same step; the clause of RING_STORE_LAND says that none is left. -/
theorem not_engineStepsComplete : ¬ Obligations.EngineStepsComplete := by
  unfold Obligations.EngineStepsComplete
  rintro ⟨-, -, -, -, -, -, -, -, -, -, -, -, -, -, hland, -⟩
  have hquiet : ∀ g, loadBetweenStores.gang? pixelOnItsWay.gang = some g → EnginesQuiet g := by
    rintro g ⟨⟩
    exact ⟨fun _ hx => (List.not_mem_nil hx).elim, rfl, rfl⟩
  obtain ⟨t, ht, hstores⟩ := hland loadBetweenStores pixelOnItsWay 0 0 0 0 rfl rfl (fun _ hx => (List.not_mem_nil hx).elim) hquiet
  have hafter := ringStoreLand_lets_store_out
  rw [ht] at hafter
  have hnone : t.stores = [] := hstores
  have hone : t.stores = [storeBehind.ringStore 1 1 false] := Option.some.inj hafter
  exact List.cons_ne_nil _ _ (hone.symm.trans hnone)

end Sys2Proof.Machine
